-- ==== Sys2Proof/Word.lean ====
section
/-! DEFINITION. Word types of the Acral (R8, R10, R41) and their plainest arithmetic. -/

namespace Sys2Proof

/-- A byte of memory. -/
abbrev Byte := BitVec 8

/-- A 64-bit word: a general register, an address, a state register. -/
abbrev Word := BitVec 64

/-- A five-bit field naming g0 to g31 (R44). -/
abbrev Reg := BitVec 5

/-- A four-bit field naming p0 to p15 (R20). -/
abbrev Pred := BitVec 4

/-- A six-bit field naming t0 to t63 (R44). -/
abbrev TReg := BitVec 6

/-- A 16-bit fault code (R14). -/
abbrev Code := BitVec 16

end Sys2Proof
end

