-- ==== Sys2Proof/Syntax.lean ====
section
/-! DEFINITION. The operations and events of spec/opcode_table.json, one constructor a row.
The encoded rows carry the fields of their format (R43, R44), with the coded fields of R55 as
names; the events carry what the event names: a core, a slot, a request, a packet. -/

namespace Sys2Proof

/-- The guard of R21 and R42: predicate n, and inv = true for the sense 0. -/
structure Guard where
  n : BitVec 4
  inv : Bool
  deriving DecidableEq, Repr

/-- cc of CMP and CMPI (R55). -/
inductive Cond where
  | eq | ne | lt | ge | le | gt | ltn | gen | len | gtn | tst | tsz
  deriving DecidableEq, Repr

/-- cc of FCMP (R55). -/
inductive FCond where
  | eq | ne | lt | ge | le | gt | un | num
  deriving DecidableEq, Repr

/-- The formats of sr.shape.fmt, and of the X format's to and from (R30, R55); code 15 is invalid. -/
inductive Fmt where
  | i8 | i16 | i32 | i64 | n8 | n16 | n32 | n64 | f64 | f32 | f16 | bf16 | f8e4 | f8e5 | f4
  deriving DecidableEq, Repr

/-- ft of the FR format and of FCMP (R55). -/
inductive FloatTy where
  | f64 | f32 | f16 | bf16
  deriving DecidableEq, Repr

/-- ty of the loads (R55). -/
inductive LdTy where
  | n8 | n16 | n32 | n64 | i8 | i16 | i32
  deriving DecidableEq, Repr

/-- ty of the stores (R55). -/
inductive StTy where
  | n8 | n16 | n32 | n64
  deriving DecidableEq, Repr

/-- op of AMO (R55). -/
inductive AmoOp where
  | add | and | or | xor | min | max | minn | maxn | swap | fadd
  deriving DecidableEq, Repr

/-- op of RED (R55): as for AMO without swap, and the exact cell. -/
inductive RedOp where
  | add | and | or | xor | min | max | minn | maxn | fadd | exact
  deriving DecidableEq, Repr

/-- fmt of major 33 (R55). -/
inductive LoomFmt where
  | f64 | f32 | bf16 | f16 | f8e4 | f8e5 | i8 | f4
  deriving DecidableEq, Repr

/-- k of FENCE (R55). -/
inductive FenceKind where
  | all | loads | stores | fetch
  deriving DecidableEq, Repr

/-- The fields of a modifier word (R48). -/
structure MW where
  scope : BitVec 3
  ord : BitVec 3
  rm : BitVec 3
  scale : BitVec 6
  absB : Bool
  absA : Bool
  negB : Bool
  negA : Bool
  clamp : Bool
  sat : BitVec 4
  deriving DecidableEq, Repr

/-- Who makes an access to a device register from outside the strands' instructions (R397, R399). -/
inductive Agent where
  /-- the physical function -/
  | pf
  /-- virtual function v, 1 to 64 -/
  | vf (v : Nat)
  /-- the management port -/
  | mgmt
  /-- the policy core -/
  | laninak
  /-- a strand at supervisor level -/
  | sup
  /-- a strand at user level -/
  | user
  deriving DecidableEq, Repr

/-- op of a fabric header (R380). -/
inductive PktOp where
  | read | write | amo | cas | red | lrw | sch | xrdXclr | futReq | futDel | readReply | ack | error
  deriving DecidableEq, Repr

/-- A fabric packet (R379, R380): the header's fields, the line data by byte, one poison bit a
word, and the operands of the operation. How the data flits of the operations other than reads and
writes hold their operands is the device's own (log 11): `args` lists them. -/
structure Packet where
  op : PktOp
  dst : BitVec 9
  src : BitVec 9
  sclus : Nat
  hop : Nat
  path : Nat
  tag : Nat
  oflag : Bool
  mark : Bool
  aux : BitVec 7
  /-- PA[55:7] of the line -/
  line : BitVec 49
  /-- the bytes of the line the mask names, rising -/
  bytes : List (Nat × Byte)
  /-- bit i: the poison bit of word i of the line -/
  poison : BitVec 16
  args : List Word
  deriving DecidableEq, Repr

/-- Operations and events. A field `g` is the guard; `d`, `a`, `b`, `c` are general registers;
`pd`, `pq`, `pa`, `pb`, `pn` predicates; `td`, `ta`, `tb`, `t`, `ti` tile registers. -/
inductive Instr where
  -- integer arithmetic (R89)
  | add (g : Guard) (d a b : Reg)
  | sub (g : Guard) (d a b : Reg)
  | mul (g : Guard) (d a b : Reg)
  | mulhi (g : Guard) (d a b : Reg)
  | mulhn (g : Guard) (d a b : Reg)
  | div (g : Guard) (d a b : Reg)
  | divn (g : Guard) (d a b : Reg)
  | rem (g : Guard) (d a b : Reg)
  | remn (g : Guard) (d a b : Reg)
  | min (g : Guard) (d a b : Reg)
  | max (g : Guard) (d a b : Reg)
  | minn (g : Guard) (d a b : Reg)
  | maxn (g : Guard) (d a b : Reg)
  -- logic, shifts, counts (R92)
  | and (g : Guard) (d a b : Reg)
  | or (g : Guard) (d a b : Reg)
  | xor (g : Guard) (d a b : Reg)
  | andn (g : Guard) (d a b : Reg)
  | shlRegister (g : Guard) (d a b : Reg)
  | shrRegister (g : Guard) (d a b : Reg)
  | shaRegister (g : Guard) (d a b : Reg)
  | rotRegister (g : Guard) (d a b : Reg)
  | mov (g : Guard) (d a : Reg)
  | clz (g : Guard) (d a : Reg)
  | ctz (g : Guard) (d a : Reg)
  | popc (g : Guard) (d a : Reg)
  | brev (g : Guard) (d a : Reg)
  | bswap (g : Guard) (d a : Reg)
  | mix64 (g : Guard) (d a : Reg)
  | addi (g : Guard) (d a : Reg) (imm : BitVec 10)
  | andi (g : Guard) (d a : Reg) (imm : BitVec 10)
  | ori (g : Guard) (d a : Reg) (imm : BitVec 10)
  | xori (g : Guard) (d a : Reg) (imm : BitVec 10)
  | shlImmediate (g : Guard) (d a : Reg) (sh : BitVec 6)
  | shrImmediate (g : Guard) (d a : Reg) (sh : BitVec 6)
  | shaImmediate (g : Guard) (d a : Reg) (sh : BitVec 6)
  | rotImmediate (g : Guard) (d a : Reg) (sh : BitVec 6)
  -- compares and predicates (R94, R95)
  | cmp (g : Guard) (cc : Cond) (pd : Pred) (a b : Reg)
  | cmpi (g : Guard) (cc : Cond) (pd : Pred) (a : Reg) (imm : BitVec 7)
  | pand (g : Guard) (pd pa pb : Pred)
  | por (g : Guard) (pd pa pb : Pred)
  | pxor (g : Guard) (pd pa pb : Pred)
  | pnot (g : Guard) (pd pa : Pred)
  | pmov (g : Guard) (pd pa : Pred)
  | pset (g : Guard) (pd : Pred) (k : Bool)
  -- selection, moves (R93)
  | sel (g : Guard) (d : Reg) (pn : Pred) (a b : Reg)
  | lea (g : Guard) (d a b : Reg) (sh : BitVec 3)
  | movwZ (d : Reg) (hw : BitVec 2) (imm : BitVec 16)
  | movwK (d : Reg) (hw : BitVec 2) (imm : BitVec 16)
  | movwS (d : Reg) (hw : BitVec 2) (imm : BitVec 16)
  | addpc (d : Reg) (imm : BitVec 20)
  -- control transfers (R96)
  | br (g : Guard) (disp : BitVec 20)
  | brl (g : Guard) (disp : BitVec 20)
  | jmp (g : Guard) (a : Reg) (imm : BitVec 10)
  | jmpl (g : Guard) (d a : Reg) (imm : BitVec 10)
  -- fields and layouts (R97, R98)
  | fext (g : Guard) (d a : Reg) (lay : BitVec 4) (f : BitVec 3)
  | fins (g : Guard) (d a : Reg) (lay : BitVec 4) (f : BitVec 3)
  | fpack (g : Guard) (d a : Reg) (lay : BitVec 4)
  | funpack (g : Guard) (d a : Reg) (lay : BitVec 4)
  | layout (g : Guard) (lay : BitVec 4) (a : Reg)
  -- scalar floating point (R100 to R104)
  | fadd (g : Guard) (ft : FloatTy) (d a b : Reg)
  | fsub (g : Guard) (ft : FloatTy) (d a b : Reg)
  | fmul (g : Guard) (ft : FloatTy) (d a b : Reg)
  | fdiv (g : Guard) (ft : FloatTy) (d a b : Reg)
  | fmin (g : Guard) (ft : FloatTy) (d a b : Reg)
  | fmax (g : Guard) (ft : FloatTy) (d a b : Reg)
  | fsqrt (g : Guard) (ft : FloatTy) (d a : Reg)
  | fcvt (g : Guard) (tgt src : Fmt) (d a : Reg)
  | frnd (g : Guard) (fmt : Fmt) (d a : Reg)
  | fclass (g : Guard) (fmt : Fmt) (d a : Reg)
  | fmaF64 (g : Guard) (d a b c : Reg)
  | fmaF32 (g : Guard) (d a b c : Reg)
  | fcmp (g : Guard) (cc : FCond) (ft : FloatTy) (pd : Pred) (a b : Reg)
  -- state registers (R105)
  | srd (g : Guard) (d : Reg) (n : BitVec 8)
  | swr (g : Guard) (n : BitVec 8) (a : Reg)
  | srdp (g : Guard) (d : Reg) (n : BitVec 8)
  | swrp (g : Guard) (n : BitVec 8) (a : Reg)
  -- loads and stores (R106)
  | ld (g : Guard) (ty : LdTy) (d a : Reg) (off : BitVec 7)
  | st (g : Guard) (ty : StTy) (d a : Reg) (off : BitVec 7)
  | ldp (g : Guard) (d a : Reg) (off : BitVec 7)
  | stp (g : Guard) (d a : Reg) (off : BitVec 7)
  | ldIndexed (g : Guard) (ty : LdTy) (d a b : Reg)
  | stIndexed (g : Guard) (ty : StTy) (d a b : Reg)
  -- major 28 (R259, R392)
  | ldaN32 (g : Guard) (d a : Reg)
  | ldaN64 (g : Guard) (d a : Reg)
  | strN32 (g : Guard) (a b : Reg)
  | strN64 (g : Guard) (a b : Reg)
  | casN32 (g : Guard) (d a b : Reg)
  | casN64 (g : Guard) (d a b : Reg)
  | xclr (g : Guard) (a : Reg)
  | xrdF32 (g : Guard) (d a : Reg)
  | xrdF64 (g : Guard) (d a : Reg)
  | lrw (g : Guard) (d a : Reg)
  | sch (g : Guard) (pd : Pred) (a b : Reg)
  | fence (g : Guard) (kind : FenceKind) (scope : BitVec 3)
  | lookup (g : Guard) (d a : Reg)
  | tagset (g : Guard) (a b : Reg)
  | tagclr (g : Guard) (a : Reg)
  | pref (g : Guard) (a : Reg)
  | snap (g : Guard) (d : Reg)
  | snapx (g : Guard) (a : Reg)
  | txb (g : Guard)
  | txc (g : Guard) (pd : Pred)
  | txa (g : Guard)
  | txs (g : Guard) (d : Reg)
  | alw (g : Guard) (d a : Reg) (pq : Pred)
  -- majors 29 and 30 (R260); w = true selects 32 bits
  | amo (g : Guard) (w : Bool) (op : AmoOp) (d a b : Reg)
  | red (g : Guard) (w : Bool) (op : RedOp) (a b : Reg)
  -- major 31 (R181)
  | spawn (g : Guard) (d a : Reg)
  | spawnq (g : Guard) (d a : Reg) (pq : Pred)
  | touch (g : Guard) (d a : Reg)
  | touchq (g : Guard) (d a : Reg) (pq : Pred)
  | resolve (g : Guard) (a b : Reg)
  | poison (g : Guard) (a b : Reg)
  | cancel (g : Guard) (a : Reg)
  | fstat (g : Guard) (d a : Reg)
  | fhold (g : Guard) (a : Reg)
  | fdrop (g : Guard) (a : Reg)
  | go (g : Guard) (a : Reg)
  | yield (g : Guard)
  | exit (g : Guard) (a : Reg)
  | self (g : Guard) (d : Reg)
  | pmode (g : Guard) (k : Bool)
  | pbind (g : Guard) (a : Reg)
  | pstat (g : Guard) (d : Reg)
  | ldw (g : Guard) (d a : Reg)
  | stw (g : Guard) (a b : Reg)
  | bjoin (g : Guard) (a : Reg)
  | barv (g : Guard) (a : Reg)
  | bwait (g : Guard) (d a : Reg) (pq : Pred)
  | bleave (g : Guard) (a : Reg)
  | bexpect (g : Guard) (a b : Reg)
  | fpop (g : Guard) (d a : Reg)
  | fpopq (g : Guard) (d a : Reg) (pq : Pred)
  -- major 32 (R318)
  | cpy (g : Guard) (d a : Reg)
  | cpy2 (g : Guard) (d a : Reg)
  | cpyg (g : Guard) (d a : Reg)
  | tdset (g : Guard) (k : BitVec 5) (a : Reg)
  | cqstat (g : Guard) (d a : Reg)
  -- majors 33 and 34 (R296, R297); lp = some n names lc_n
  | wld (g : Guard) (fmt : LoomFmt) (lp : Option (BitVec 3)) (a b : Reg)
  | weft (g : Guard) (fmt : LoomFmt) (v : Bool) (lp : Option (BitVec 3)) (a b : Reg)
  | vrd (g : Guard) (fmt : LoomFmt) (v : Bool) (a b : Reg)
  | lgrp (g : Guard) (fmt : LoomFmt) (v : Bool) (lp : Option (BitVec 3)) (a b : Reg)
  | wswap (g : Guard)
  | vclr (g : Guard) (k : Bool)
  | vadd (g : Guard) (k : Bool) (a : Reg)
  | lloop (g : Guard) (k : BitVec 3) (a : Reg)
  | lfut (g : Guard) (d : Reg)
  | lres (g : Guard) (a : Reg)
  | lstat (g : Guard) (d : Reg)
  -- tile instructions (R120 to R130)
  | tadd (g : Guard) (td ta tb : TReg)
  | tsub (g : Guard) (td ta tb : TReg)
  | tmul (g : Guard) (td ta tb : TReg)
  | tfma (g : Guard) (td ta tb : TReg)
  | tdiv (g : Guard) (td ta tb : TReg)
  | tmin (g : Guard) (td ta tb : TReg)
  | tmax (g : Guard) (td ta tb : TReg)
  | tsel (g : Guard) (td ta tb : TReg)
  | tand (g : Guard) (td ta tb : TReg)
  | tor (g : Guard) (td ta tb : TReg)
  | txor (g : Guard) (td ta tb : TReg)
  | tshl (g : Guard) (td ta tb : TReg)
  | tshr (g : Guard) (td ta tb : TReg)
  | tcvt (g : Guard) (tgt : Fmt) (td ta : TReg)
  | ttopk (g : Guard) (td ta : TReg) (k1 : BitVec 6)
  | tcmpEq (g : Guard) (td ta tb : TReg)
  | tcmpNe (g : Guard) (td ta tb : TReg)
  | tcmpLt (g : Guard) (td ta tb : TReg)
  | tcmpLe (g : Guard) (td ta tb : TReg)
  | tmov (g : Guard) (td ta : TReg)
  | txpose (g : Guard) (td ta : TReg)
  | texp2 (g : Guard) (td ta : TReg)
  | tlog2 (g : Guard) (td ta : TReg)
  | trcp (g : Guard) (td ta : TReg)
  | trsq (g : Guard) (td ta : TReg)
  | tsqrt (g : Guard) (td ta : TReg)
  | ttanh (g : Guard) (td ta : TReg)
  | tredAdd (g : Guard) (td ta : TReg)
  | tredMin (g : Guard) (td ta : TReg)
  | tredMax (g : Guard) (td ta : TReg)
  | tscanAdd (g : Guard) (td ta : TReg)
  | tiota (g : Guard) (td : TReg)
  | trand (g : Guard) (td : TReg)
  | tld (g : Guard) (t : TReg) (a b : Reg)
  | tst (g : Guard) (t : TReg) (a b : Reg)
  | tsplat (g : Guard) (t : TReg) (a : Reg)
  | tmovgRead (g : Guard) (t : TReg) (a b : Reg)
  | tmovgWrite (g : Guard) (t : TReg) (a b : Reg)
  | tldi (g : Guard) (t ti : TReg) (a : Reg)
  | tsti (g : Guard) (t ti : TReg) (a : Reg)
  | shape (g : Guard) (fmt : BitVec 4) (cols1 : BitVec 8) (rows1 : BitVec 5)
  -- major 44 (R110, R340, R343)
  | nop (g : Guard)
  | trap (g : Guard) (k : BitVec 5)
  | eret (g : Guard)
  | wfi (g : Guard)
  | tlbi (g : Guard) (a b : Reg)
  | ctxsv (g : Guard) (a : Reg)
  | ctxld (g : Guard) (a : Reg)
  | dbgb (g : Guard) (k : BitVec 5)
  -- the modifier word (R48)
  | modifierWord (m : MW)
  -- the compact forms (R47): guard p[n] with n from 0 to 7, registers g0 to g15
  | movC16 (n : BitVec 3) (d a : BitVec 4)
  | addC16 (n : BitVec 3) (d a : BitVec 4)
  | subC16 (n : BitVec 3) (d a : BitVec 4)
  | andC16 (n : BitVec 3) (d a : BitVec 4)
  | orC16 (n : BitVec 3) (d a : BitVec 4)
  | xorC16 (n : BitVec 3) (d a : BitVec 4)
  | shlC16 (n : BitVec 3) (d a : BitVec 4)
  | shrC16 (n : BitVec 3) (d a : BitVec 4)
  | addiC16 (n : BitVec 3) (d : BitVec 4) (imm : BitVec 4)
  | ldN64C16 (n : BitVec 3) (d a : BitVec 4)
  | stN64C16 (n : BitVec 3) (d a : BitVec 4)
  | brC16 (n : BitVec 3) (disp : BitVec 8)
  | touchC16 (n : BitVec 3) (d a : BitVec 4)
  | jmpC16 (n : BitVec 3) (a : BitVec 4)
  | nopC16 (n : BitVec 3)
  -- events of a core; `core` is the module-wide number of R397
  | interruptTaken (core : Nat)
  | timerExpiry (core : Nat)
  | storeErrorReport (core : Nat)
  | loadReply (id : Nat)
  | scratchpadRequest (id : Nat)
  | memoryPortRead (id : Nat)
  | memoryPortWrite (id : Nat)
  | memoryPortAtomic (id : Nat)
  | redMergeGroupApply (id : Nat)
  | tableWalkComplete (cluster : Nat) (ctx : BitVec 12) (granule : BitVec 40)
  | futureEntryFill (cluster slot : Nat)
  | bindTask (core : Nat)
  | stealRound (core : Nat)
  | dequeRefill (core : Nat)
  | arrivalRefill (core : Nat)
  | arrivalResend (core : Nat)
  | doomNotice (index : Nat)
  | gleanerVisit (line : Nat)
  | poolWaitTimeout (id : Nat)
  | reservationExpiry (line : Nat)
  | remoteRequestTimeout (id : Nat)
  -- events of the engines
  | loomCmdWld (core : Nat)
  | loomCmdWswap (core : Nat)
  | loomCmdVclr (core : Nat)
  | loomCmdWeft (core : Nat)
  | loomCmdVadd (core : Nat)
  | loomCmdLgrp (core : Nat)
  | loomCmdLloop (core : Nat)
  | loomCmdVrd (core : Nat)
  | loomMarker (core : Nat)
  | loomPause (core rows : Nat)
  | scrivenerCpy (cluster q : Nat)
  | scrivenerCpy2 (cluster q : Nat)
  | scrivenerCpyg (cluster q : Nat)
  | scrivenerPause (core : Nat)
  | tilePrefetch (cluster : Nat)
  -- events of Dispatch; `q` is a queue number; `bytes` the width of a host write
  | tailWrite (who : Agent) (q bytes : Nat) (v : Word)
  | queueEnable (who : Agent) (q : Nat) (v : Word)
  | queueDisable (who : Agent) (q : Nat) (v : Word)
  | queueSkip (who : Agent) (q : Nat)
  | queueRetry (who : Agent) (q : Nat)
  | queueReset (who : Agent) (q : Nat)
  | launch (seq : Nat)
  | feed (q : Nat)
  | copy (seq : Nat)
  | semwait (q : Nat)
  | semsig (q : Nat)
  | futwait (q : Nat)
  | intr (q : Nat)
  | indirect (q : Nat)
  | fencePacket (q : Nat)
  | unknownOpcode (q : Nat)
  | heapAdmit (q : Nat)
  | heapTake
  | launchPlacement (seq : Nat)
  | launchComplete (seq : Nat)
  | semaphoreWrite (who : Agent) (i bytes : Nat) (v : Word)
  | feedQueueEnable (who : Agent) (f : Nat) (v : Word)
  | feedQueueDisable (who : Agent) (f : Nat) (v : Word)
  | hostReadTimeout (q : Nat)
  -- events of the fabric
  | fabricRead (p : Packet)
  | fabricWrite (p : Packet)
  | fabricAmo (p : Packet)
  | fabricCas (p : Packet)
  | fabricRed (p : Packet)
  | fabricLrw (p : Packet)
  | fabricSch (p : Packet)
  | fabricXrdXclr (p : Packet)
  | fabricFutureRequest (p : Packet)
  | fabricFutureDelivery (p : Packet)
  | fabricReadReply (p : Packet)
  | fabricAck (p : Packet)
  | fabricErrorReply (p : Packet)
  | allowancePark (core slot : Nat)
  | packetForward (p : Packet)
  | linkDown (l : Nat)
  | linkUp (l : Nat)
  | featureWordAnnounce (m : BitVec 9) (w : BitVec 16)
  | dieBoundaryFailure (b : Nat)
  -- register writes and management
  | routeWordWrite (who : Agent) (m bytes : Nat) (v : Word)
  | rangeRegisterWrite (who : Agent) (port word bytes : Nat) (v : Word)
  | versionPoolWrite (who : Agent) (reg bytes : Nat) (v : Word)
  | drainWrite (who : Agent) (off : Nat) (v : Word)
  | featureAcceptWrite (who : Agent) (i : Nat) (v : Word)
  | dieStart (who : Agent) (v : Word)
  | interruptWordWrite (who : Agent) (core : Nat)
  | debugHalt (who : Agent) (core slot : Nat)
  | debugResume (who : Agent) (core slot : Nat)
  | debugDtrapClear (who : Agent) (core : Nat)
  | debugQuiesce (who : Agent) (core : Nat) (sq lq : Bool)
  | registerWrite (who : Agent) (off bytes : Nat) (v : List Byte)
  | powerOn
  | functionReady (bit : Nat)
  | firmwareLoad (image : List Byte)
  | firmwareUpdate (image : List Byte)
  | spdmGetVersion (req : List Byte)
  | spdmGetCapabilities (req : List Byte)
  | spdmNegotiateAlgorithms (req : List Byte)
  | spdmGetDigests (req : List Byte)
  | spdmGetCertificate (req : List Byte)
  | spdmChallenge (req : List Byte)
  | spdmGetMeasurements (req : List Byte)
  | thermalThrottleBegin
  | thermalThrottleEnd
  | thermalShutdown
  | illegalInstruction (v : Word)
  | fetchFault (cause : BitVec 5) (code : Code) (v : Word)
  | moduleReset
  | hbmStackFailure (stack : Nat)
  | commitExchange (port : Nat)
  deriving DecidableEq, Repr

end Sys2Proof
end

