-- ==== Sys2Proof/WellFormed.lean ====
section
/-! DEFINITION. Well-formed operations and events: the static limits of R45, R48 and R55 on an
encoded instruction, and the ranges of the numbers an event names (R3, R357, R397). -/

namespace Sys2Proof

/-- Compute clusters of a module (R3). -/
abbrev numClusters : Nat := 96

/-- Cores of a module, numbered 24 × (24 × die + cluster) + core (R3, R397). -/
abbrev numCores : Nat := 2304

/-- Host-visible queues of a module (R3, R357). -/
abbrev numQueues : Nat := 32768

/-- A float format (R10). -/
def Fmt.isFloat : Fmt → Bool
  | .i8 | .i16 | .i32 | .i64 | .n8 | .n16 | .n32 | .n64 => false
  | .f64 | .f32 | .f16 | .bf16 | .f8e4 | .f8e5 | .f4 => true

/-- The numbers SRDP and SWRP are assigned (R336). -/
def supervisorNumber (n : Nat) : Bool :=
  decide (n ≤ 0x04 ∨ (0x10 ≤ n ∧ n ≤ 0x19) ∨ (0x20 ≤ n ∧ n ≤ 0x22))

/-- Every field of a modifier word has a value R48 assigns. -/
def MW.wf (m : MW) : Bool :=
  decide (m.scope.toNat ≤ 5 ∧ m.ord.toNat ≤ 5 ∧ m.rm.toNat ≤ 5 ∧ m.sat.toNat ≤ 8)

/-- A virtual function has a number from 1 to 64 (R3). -/
def Agent.wf : Agent → Bool
  | .vf v => decide (1 ≤ v ∧ v ≤ 64)
  | .pf | .mgmt | .laninak | .sup | .user => true

/-- The header's numbers lie in their fields (R380): clusters 0 to 95, levels 0 to 5, paths 0 to 3. -/
def Packet.wf (p : Packet) : Bool :=
  decide (p.sclus < numClusters ∧ p.hop ≤ 5 ∧ p.path < 4) && p.bytes.all (fun x => x.1 < 128)

/-- The static checks on an instruction or event. -/
def Instr.wf : Instr → Bool
  | .fcvt _ t s _ _ => t.isFloat || s.isFloat
  | .frnd _ f _ _ => f.isFloat
  | .fclass _ f _ _ => f.isFloat
  | .srd _ _ n => decide (n.toNat ≤ 0x0A)
  | .swr _ n _ => [0x00, 0x04, 0x05, 0x06, 0x07].contains n.toNat
  | .srdp _ _ n => supervisorNumber n.toNat
  | .swrp _ n _ => supervisorNumber n.toNat
  | .ldp _ d _ _ => d.toNat % 2 == 0
  | .stp _ d _ _ => d.toNat % 2 == 0
  | .fence _ _ s => decide (s.toNat ≤ 5)
  | .cpy _ _ a => decide (a.toNat ≤ 29)
  | .cpy2 _ _ a => decide (a.toNat ≤ 26)
  | .cpyg _ _ a => decide (a.toNat ≤ 28)
  | .ttopk _ td _ _ => decide (td.toNat ≠ 63)
  | .modifierWord m => m.wf
  | .interruptTaken c => decide (c < numCores)
  | .timerExpiry c => decide (c < numCores)
  | .storeErrorReport c => decide (c < numCores)
  | .tableWalkComplete c _ _ => decide (c < numClusters)
  | .futureEntryFill c k => decide (c < numClusters ∧ k < 65536)
  | .bindTask c => decide (c < numCores)
  | .stealRound c => decide (c < numCores)
  | .dequeRefill c => decide (c < numCores)
  | .arrivalRefill c => decide (c < numCores)
  | .arrivalResend c => decide (c < numCores)
  | .doomNotice i => decide (i < 4096)
  | .loomCmdWld c => decide (c < numCores)
  | .loomCmdWswap c => decide (c < numCores)
  | .loomCmdVclr c => decide (c < numCores)
  | .loomCmdWeft c => decide (c < numCores)
  | .loomCmdVadd c => decide (c < numCores)
  | .loomCmdLgrp c => decide (c < numCores)
  | .loomCmdLloop c => decide (c < numCores)
  | .loomCmdVrd c => decide (c < numCores)
  | .loomMarker c => decide (c < numCores)
  | .loomPause c _ => decide (c < numCores)
  | .scrivenerCpy c q => decide (c < numClusters ∧ q < 25)
  | .scrivenerCpy2 c q => decide (c < numClusters ∧ q < 25)
  | .scrivenerCpyg c q => decide (c < numClusters ∧ q < 25)
  | .scrivenerPause c => decide (c < numCores)
  | .tilePrefetch c => decide (c < numClusters)
  | .tailWrite w q _ _ => w.wf && decide (q < numQueues)
  | .queueEnable w q _ => w.wf && decide (q < numQueues)
  | .queueDisable w q _ => w.wf && decide (q < numQueues)
  | .queueSkip w q => w.wf && decide (q < numQueues)
  | .queueRetry w q => w.wf && decide (q < numQueues)
  | .queueReset w q => w.wf && decide (q < numQueues)
  | .feed q => decide (q < numQueues)
  | .semwait q => decide (q < numQueues)
  | .semsig q => decide (q < numQueues)
  | .futwait q => decide (q < numQueues)
  | .intr q => decide (q < numQueues)
  | .indirect q => decide (q < numQueues)
  | .fencePacket q => decide (q < numQueues)
  | .unknownOpcode q => decide (q < numQueues)
  | .heapAdmit q => decide (q < numQueues)
  | .semaphoreWrite w i _ _ => w.wf && decide (i < 4096)
  | .feedQueueEnable w f _ => w.wf && decide (f < 1024)
  | .feedQueueDisable w f _ => w.wf && decide (f < 1024)
  | .hostReadTimeout q => decide (q < numQueues)
  | .fabricRead p => p.wf
  | .fabricWrite p => p.wf
  | .fabricAmo p => p.wf
  | .fabricCas p => p.wf
  | .fabricRed p => p.wf
  | .fabricLrw p => p.wf
  | .fabricSch p => p.wf
  | .fabricXrdXclr p => p.wf
  | .fabricFutureRequest p => p.wf
  | .fabricFutureDelivery p => p.wf
  | .fabricReadReply p => p.wf
  | .fabricAck p => p.wf
  | .fabricErrorReply p => p.wf
  | .allowancePark c k => decide (c < numCores ∧ k < 32)
  | .packetForward p => p.wf
  | .linkDown l => decide (l < 36)
  | .linkUp l => decide (l < 36)
  | .dieBoundaryFailure b => decide (b < 4)
  | .routeWordWrite w m _ _ => w.wf && decide (m < 512)
  | .rangeRegisterWrite w p k _ _ => w.wf && decide (p < 64 ∧ k < 16)
  | .versionPoolWrite w r _ _ => w.wf && decide (r < 6)
  | .drainWrite w off _ => w.wf && [0x100, 0x108, 0x110, 0x118, 0x120].contains off
  | .featureAcceptWrite w i _ => w.wf && decide (i < 4)
  | .dieStart w _ => w.wf
  | .interruptWordWrite w c => w.wf && decide (c < numCores)
  | .debugHalt w c k => w.wf && decide (c < numCores ∧ k < 32)
  | .debugResume w c k => w.wf && decide (c < numCores ∧ k < 32)
  | .debugDtrapClear w c => w.wf && decide (c < numCores)
  | .debugQuiesce w c _ _ => w.wf && decide (c < numCores)
  | .registerWrite w off n v => w.wf && decide (off < 0x1_0000_0000 ∧ 0 < n ∧ v.length = n)
  | .functionReady b => decide (b < 21)
  | .fetchFault c _ _ => decide (c.toNat = 8 ∨ c.toNat = 10)
  | .hbmStackFailure k => decide (k < 8)
  | .commitExchange q => decide (q < 64)
  | .add .. | .sub .. | .mul .. | .mulhi .. | .mulhn .. | .div .. | .divn .. | .rem .. | .remn ..
  | .min .. | .max .. | .minn .. | .maxn .. | .and .. | .or .. | .xor .. | .andn ..
  | .shlRegister .. | .shrRegister .. | .shaRegister .. | .rotRegister .. | .mov .. | .clz ..
  | .ctz .. | .popc .. | .brev .. | .bswap .. | .mix64 .. | .addi .. | .andi .. | .ori ..
  | .xori .. | .shlImmediate .. | .shrImmediate .. | .shaImmediate .. | .rotImmediate ..
  | .cmp .. | .cmpi .. | .pand .. | .por .. | .pxor .. | .pnot .. | .pmov .. | .pset .. | .sel ..
  | .lea .. | .movwZ .. | .movwK .. | .movwS .. | .addpc .. | .br .. | .brl .. | .jmp ..
  | .jmpl .. | .fext .. | .fins .. | .fpack .. | .funpack .. | .layout .. | .fadd .. | .fsub ..
  | .fmul .. | .fdiv .. | .fmin .. | .fmax .. | .fsqrt .. | .fmaF64 .. | .fmaF32 .. | .fcmp ..
  | .ld .. | .st .. | .ldIndexed .. | .stIndexed .. | .ldaN32 .. | .ldaN64 .. | .strN32 ..
  | .strN64 .. | .casN32 .. | .casN64 .. | .xclr .. | .xrdF32 .. | .xrdF64 .. | .lrw .. | .sch ..
  | .lookup .. | .tagset .. | .tagclr .. | .pref .. | .snap .. | .snapx .. | .txb .. | .txc ..
  | .txa .. | .txs .. | .alw .. | .amo .. | .red .. | .spawn .. | .spawnq .. | .touch ..
  | .touchq .. | .resolve .. | .poison .. | .cancel .. | .fstat .. | .fhold .. | .fdrop ..
  | .go .. | .yield .. | .exit .. | .self .. | .pmode .. | .pbind .. | .pstat .. | .ldw ..
  | .stw .. | .bjoin .. | .barv .. | .bwait .. | .bleave .. | .bexpect .. | .fpop .. | .fpopq ..
  | .tdset .. | .cqstat .. | .wld .. | .weft .. | .vrd .. | .lgrp .. | .wswap .. | .vclr ..
  | .vadd .. | .lloop .. | .lfut .. | .lres .. | .lstat .. | .tadd .. | .tsub .. | .tmul ..
  | .tfma .. | .tdiv .. | .tmin .. | .tmax .. | .tsel .. | .tand .. | .tor .. | .txor ..
  | .tshl .. | .tshr .. | .tcvt .. | .tcmpEq .. | .tcmpNe .. | .tcmpLt .. | .tcmpLe .. | .tmov ..
  | .txpose .. | .texp2 .. | .tlog2 .. | .trcp .. | .trsq .. | .tsqrt .. | .ttanh ..
  | .tredAdd .. | .tredMin .. | .tredMax .. | .tscanAdd .. | .tiota .. | .trand .. | .tld ..
  | .tst .. | .tsplat .. | .tmovgRead .. | .tmovgWrite .. | .tldi .. | .tsti .. | .shape ..
  | .nop .. | .trap .. | .eret .. | .wfi .. | .tlbi .. | .ctxsv .. | .ctxld .. | .dbgb ..
  | .movC16 .. | .addC16 .. | .subC16 .. | .andC16 .. | .orC16 .. | .xorC16 .. | .shlC16 ..
  | .shrC16 .. | .addiC16 .. | .ldN64C16 .. | .stN64C16 .. | .brC16 .. | .touchC16 ..
  | .jmpC16 .. | .nopC16 .. | .loadReply .. | .scratchpadRequest .. | .memoryPortRead ..
  | .memoryPortWrite .. | .memoryPortAtomic .. | .redMergeGroupApply .. | .gleanerVisit ..
  | .poolWaitTimeout .. | .reservationExpiry .. | .remoteRequestTimeout .. | .launch ..
  | .copy .. | .heapTake .. | .launchPlacement .. | .launchComplete .. | .featureWordAnnounce ..
  | .powerOn .. | .firmwareLoad .. | .firmwareUpdate .. | .spdmGetVersion ..
  | .spdmGetCapabilities .. | .spdmNegotiateAlgorithms .. | .spdmGetDigests ..
  | .spdmGetCertificate .. | .spdmChallenge .. | .spdmGetMeasurements ..
  | .thermalThrottleBegin .. | .thermalThrottleEnd .. | .thermalShutdown ..
  | .illegalInstruction .. | .moduleReset .. => true

/-- The instructions reserved to supervisor level (R53). -/
def Instr.supervisor : Instr → Bool
  | .eret _ | .wfi _ | .tlbi .. | .ctxsv .. | .ctxld .. | .srdp .. | .swrp .. => true
  | _ => false

end Sys2Proof
end

