-- ==== Sys2Proof/Decode.lean ====
section
/-! DEFINITION. The decoder (R41 to R56), total on any bytes, and the encoder of the same tables. -/

namespace Sys2Proof

/-- Why a bit pattern is not an instruction (R56). -/
inductive DecodeError where
  /-- a 16-bit word of operation 0 (R47) -/
  | compactZero
  /-- major 0, or majors 45 to 62 (R52) -/
  | major
  /-- an unassigned function (R53, R54) -/
  | function
  /-- a reserved or unused bit set (R46) -/
  | reserved
  /-- a code of R55 or a group of R45 outside what is assigned -/
  | code
  /-- a modifier word before a 16-bit word or before a modifier word (R51) -/
  | pair
  /-- a modifier group the instruction does not accept (R50) -/
  | group
  /-- fewer bytes than the instruction has -/
  | short
  deriving DecidableEq, Repr

abbrev Decoded := Except DecodeError Instr

/-- Bits [lo+len−1 : lo] of a word. -/
abbrev fld (w : BitVec 32) (lo len : Nat) : BitVec len := w.extractLsb' lo len

/-- The guard of a 32-bit word that has one (R42). -/
def guardOf (w : BitVec 32) : Guard := ⟨fld w 7 4, w.getLsbD 11⟩

/-- `i`, where every bit the form does not use is zero (R46). -/
def zeroed (unused : Bool) (i : Instr) : Decoded := if unused then .ok i else .error .reserved

/-- A coded field read by `o` (R55). -/
def coded {α : Type} (o : Option α) (k : α → Decoded) : Decoded :=
  match o with
  | some x => k x
  | none => .error .code

def condOf : Nat → Option Cond
  | 0 => some .eq | 1 => some .ne | 2 => some .lt | 3 => some .ge | 4 => some .le | 5 => some .gt
  | 6 => some .ltn | 7 => some .gen | 8 => some .len | 9 => some .gtn | 10 => some .tst
  | 11 => some .tsz | _ => none

def fcondOf : Nat → Option FCond
  | 0 => some .eq | 1 => some .ne | 2 => some .lt | 3 => some .ge | 4 => some .le | 5 => some .gt
  | 6 => some .un | 7 => some .num | _ => none

def fmtOf : Nat → Option Fmt
  | 0 => some .i8 | 1 => some .i16 | 2 => some .i32 | 3 => some .i64 | 4 => some .n8
  | 5 => some .n16 | 6 => some .n32 | 7 => some .n64 | 8 => some .f64 | 9 => some .f32
  | 10 => some .f16 | 11 => some .bf16 | 12 => some .f8e4 | 13 => some .f8e5 | 14 => some .f4
  | _ => none

def floatTyOf (n : BitVec 2) : FloatTy :=
  if n = 0 then .f64 else if n = 1 then .f32 else if n = 2 then .f16 else .bf16

def ldTyOf : Nat → Option LdTy
  | 0 => some .n8 | 1 => some .n16 | 2 => some .n32 | 3 => some .n64 | 4 => some .i8
  | 5 => some .i16 | 6 => some .i32 | _ => none

def stTyOf : Nat → Option StTy
  | 0 => some .n8 | 1 => some .n16 | 2 => some .n32 | 3 => some .n64 | _ => none

def amoOpOf : Nat → Option AmoOp
  | 0 => some .add | 1 => some .and | 2 => some .or | 3 => some .xor | 4 => some .min
  | 5 => some .max | 6 => some .minn | 7 => some .maxn | 8 => some .swap | 9 => some .fadd
  | _ => none

def redOpOf : Nat → Option RedOp
  | 0 => some .add | 1 => some .and | 2 => some .or | 3 => some .xor | 4 => some .min
  | 5 => some .max | 6 => some .minn | 7 => some .maxn | 9 => some .fadd | 10 => some .exact
  | _ => none

def loomFmtOf (n : BitVec 3) : LoomFmt :=
  if n = 0 then .f64 else if n = 1 then .f32 else if n = 2 then .bf16 else if n = 3 then .f16
  else if n = 4 then .f8e4 else if n = 5 then .f8e5 else if n = 6 then .i8 else .f4

def fenceKindOf : Nat → Option FenceKind
  | 0 => some .all | 1 => some .loads | 2 => some .stores | 3 => some .fetch | _ => none

/-- lp of major 33: 0 is none, 8 to 15 name lc0 to lc7 (R55). -/
def lpOf (n : BitVec 4) : Option (Option (BitVec 3)) :=
  if n = 0 then some none else if n.getLsbD 3 then some (some (n.extractLsb' 0 3)) else none

/-- Major 1 (R53, R89, R92). -/
def decodeInt (w : BitVec 32) : Decoded :=
  let g := guardOf w
  let d := fld w 12 5
  let a := fld w 17 5
  let b := fld w 22 5
  match (fld w 27 5).toNat with
  | 0 => .ok (.add g d a b) | 1 => .ok (.sub g d a b) | 2 => .ok (.mul g d a b)
  | 3 => .ok (.mulhi g d a b) | 4 => .ok (.mulhn g d a b) | 5 => .ok (.div g d a b)
  | 6 => .ok (.divn g d a b) | 7 => .ok (.rem g d a b) | 8 => .ok (.remn g d a b)
  | 9 => .ok (.min g d a b) | 10 => .ok (.max g d a b) | 11 => .ok (.minn g d a b)
  | 12 => .ok (.maxn g d a b) | 13 => .ok (.and g d a b) | 14 => .ok (.or g d a b)
  | 15 => .ok (.xor g d a b) | 16 => .ok (.andn g d a b) | 17 => .ok (.shlRegister g d a b)
  | 18 => .ok (.shrRegister g d a b) | 19 => .ok (.shaRegister g d a b)
  | 20 => .ok (.rotRegister g d a b)
  | 24 => zeroed (b = 0) (.mov g d a) | 25 => zeroed (b = 0) (.clz g d a)
  | 26 => zeroed (b = 0) (.ctz g d a) | 27 => zeroed (b = 0) (.popc g d a)
  | 28 => zeroed (b = 0) (.brev g d a) | 29 => zeroed (b = 0) (.bswap g d a)
  | 30 => zeroed (b = 0) (.mix64 g d a)
  | _ => .error .function

/-- Major 6 (R54, R92). -/
def decodeShift (w : BitVec 32) : Decoded :=
  let g := guardOf w
  let d := fld w 12 5
  let a := fld w 17 5
  let sh := fld w 22 6
  match (fld w 28 4).toNat with
  | 0 => .ok (.shlImmediate g d a sh) | 1 => .ok (.shrImmediate g d a sh)
  | 2 => .ok (.shaImmediate g d a sh) | 3 => .ok (.rotImmediate g d a sh)
  | _ => .error .function

/-- Major 9 (R54, R95). -/
def decodePred (w : BitVec 32) : Decoded :=
  let g := guardOf w
  let pd := fld w 12 4
  let pa := fld w 16 4
  let pb := fld w 20 4
  if fld w 28 4 ≠ 0 then .error .reserved else
  match (fld w 24 4).toNat with
  | 0 => .ok (.pand g pd pa pb) | 1 => .ok (.por g pd pa pb) | 2 => .ok (.pxor g pd pa pb)
  | 3 => zeroed (pb = 0) (.pnot g pd pa) | 4 => zeroed (pb = 0) (.pmov g pd pa)
  | 5 => if pb ≠ 0 then .error .reserved
         else if 2 ≤ pa.toNat then .error .code else .ok (.pset g pd (pa.getLsbD 0))
  | _ => .error .function

/-- Major 17 (R54, R97). -/
def decodeField (w : BitVec 32) : Decoded :=
  let g := guardOf w
  let d := fld w 12 5
  let a := fld w 17 5
  let lay := fld w 22 4
  let f := fld w 26 3
  match (fld w 29 3).toNat with
  | 0 => .ok (.fext g d a lay f) | 1 => .ok (.fins g d a lay f)
  | 2 => zeroed (f = 0) (.fpack g d a lay) | 3 => zeroed (f = 0) (.funpack g d a lay)
  | 4 => zeroed (f = 0 ∧ d = 0) (.layout g lay a)
  | _ => .error .function

/-- Major 18 (R54, R100). -/
def decodeFloat (w : BitVec 32) : Decoded :=
  let g := guardOf w
  let d := fld w 12 5
  let a := fld w 17 5
  let b := fld w 22 5
  let t := floatTyOf (fld w 27 2)
  match (fld w 29 3).toNat with
  | 0 => .ok (.fadd g t d a b) | 1 => .ok (.fsub g t d a b) | 2 => .ok (.fmul g t d a b)
  | 3 => .ok (.fdiv g t d a b) | 4 => .ok (.fmin g t d a b) | 5 => .ok (.fmax g t d a b)
  | 6 => zeroed (b = 0) (.fsqrt g t d a)
  | _ => .error .function

/-- Major 19 (R54, R104). FRND encodes to = from, FCLASS encodes to = 0 (R55). -/
def decodeConvert (w : BitVec 32) : Decoded :=
  let g := guardOf w
  let d := fld w 12 5
  let a := fld w 17 5
  let tgt := fld w 22 4
  let src := fld w 26 4
  match (fld w 30 2).toNat with
  | 0 => coded (fmtOf tgt.toNat) fun t => coded (fmtOf src.toNat) fun s => .ok (.fcvt g t s d a)
  | 1 => if tgt ≠ src then .error .code else coded (fmtOf src.toNat) fun s => .ok (.frnd g s d a)
  | 2 => if tgt ≠ 0 then .error .code else coded (fmtOf src.toNat) fun s => .ok (.fclass g s d a)
  | _ => .error .function

/-- Major 23 (R54, R105). -/
def decodeStateReg (w : BitVec 32) : Decoded :=
  let g := guardOf w
  let d := fld w 12 5
  let a := fld w 17 5
  let n := fld w 22 8
  match (fld w 30 2).toNat with
  | 0 => zeroed (a = 0) (.srd g d n) | 1 => zeroed (d = 0) (.swr g n a)
  | 2 => zeroed (a = 0) (.srdp g d n) | _ => zeroed (d = 0) (.swrp g n a)

/-- Majors 24, 25, 26 (R55, R106). -/
def decodeMem (m : Nat) (w : BitVec 32) : Decoded :=
  let g := guardOf w
  let d := fld w 12 5
  let a := fld w 17 5
  let off := fld w 25 7
  let ty := (fld w 22 3).toNat
  if m = 24 then coded (ldTyOf ty) fun t => .ok (.ld g t d a off)
  else if m = 25 then coded (stTyOf ty) fun t => .ok (.st g t d a off)
  else match ty with
    | 0 => .ok (.ldp g d a off) | 1 => .ok (.stp g d a off) | _ => .error .function

/-- Major 27 (R53, R106). -/
def decodeIndexed (w : BitVec 32) : Decoded :=
  let g := guardOf w
  let d := fld w 12 5
  let a := fld w 17 5
  let b := fld w 22 5
  match (fld w 27 5).toNat with
  | 0 => .ok (.ldIndexed g .n8 d a b) | 1 => .ok (.ldIndexed g .n16 d a b)
  | 2 => .ok (.ldIndexed g .n32 d a b) | 3 => .ok (.ldIndexed g .n64 d a b)
  | 4 => .ok (.ldIndexed g .i8 d a b) | 5 => .ok (.ldIndexed g .i16 d a b)
  | 6 => .ok (.ldIndexed g .i32 d a b)
  | 8 => .ok (.stIndexed g .n8 d a b) | 9 => .ok (.stIndexed g .n16 d a b)
  | 10 => .ok (.stIndexed g .n32 d a b) | 11 => .ok (.stIndexed g .n64 d a b)
  | _ => .error .function

/-- Major 28 (R53, R259, R392). -/
def decodeMemory (w : BitVec 32) : Decoded :=
  let g := guardOf w
  let d := fld w 12 5
  let a := fld w 17 5
  let b := fld w 22 5
  let p := fld w 12 4
  let q := fld w 22 4
  match (fld w 27 5).toNat with
  | 0 => zeroed (b = 0) (.ldaN32 g d a) | 1 => zeroed (b = 0) (.ldaN64 g d a)
  | 2 => zeroed (d = 0) (.strN32 g a b) | 3 => zeroed (d = 0) (.strN64 g a b)
  | 4 => .ok (.casN32 g d a b) | 5 => .ok (.casN64 g d a b)
  | 6 => zeroed (d = 0 ∧ b = 0) (.xclr g a)
  | 7 => zeroed (b = 0) (.xrdF32 g d a) | 8 => zeroed (b = 0) (.xrdF64 g d a)
  | 9 => zeroed (b = 0) (.lrw g d a)
  | 10 => zeroed (!w.getLsbD 16) (.sch g p a b)
  | 11 => if b ≠ 0 then .error .reserved
          else if 6 ≤ a.toNat then .error .code
          else coded (fenceKindOf d.toNat) fun k => .ok (.fence g k (a.extractLsb' 0 3))
  | 12 => zeroed (b = 0) (.lookup g d a)
  | 13 => zeroed (d = 0) (.tagset g a b)
  | 14 => zeroed (d = 0 ∧ b = 0) (.tagclr g a) | 15 => zeroed (d = 0 ∧ b = 0) (.pref g a)
  | 16 => zeroed (a = 0 ∧ b = 0) (.snap g d) | 17 => zeroed (d = 0 ∧ b = 0) (.snapx g a)
  | 18 => zeroed (d = 0 ∧ a = 0 ∧ b = 0) (.txb g)
  | 19 => zeroed (!w.getLsbD 16 ∧ a = 0 ∧ b = 0) (.txc g p)
  | 20 => zeroed (d = 0 ∧ a = 0 ∧ b = 0) (.txa g)
  | 21 => zeroed (a = 0 ∧ b = 0) (.txs g d)
  | 22 => zeroed (!w.getLsbD 26) (.alw g d a q)
  | _ => .error .function

/-- Majors 29 and 30 (R55, R260). -/
def decodeAtomic (m : Nat) (w : BitVec 32) : Decoded :=
  let g := guardOf w
  let d := fld w 12 5
  let a := fld w 17 5
  let b := fld w 22 5
  let op := (fld w 27 4).toNat
  let n := w.getLsbD 31
  if m = 29 then coded (amoOpOf op) fun o => .ok (.amo g n o d a b)
  else if d ≠ 0 then .error .reserved
  else coded (redOpOf op) fun o => .ok (.red g n o a b)

/-- Major 31 (R53, R181). -/
def decodeTask (w : BitVec 32) : Decoded :=
  let g := guardOf w
  let d := fld w 12 5
  let a := fld w 17 5
  let b := fld w 22 5
  let q := fld w 22 4
  let q0 := !w.getLsbD 26
  match (fld w 27 5).toNat with
  | 0 => zeroed (b = 0) (.spawn g d a) | 1 => zeroed q0 (.spawnq g d a q)
  | 2 => zeroed (b = 0) (.touch g d a) | 3 => zeroed q0 (.touchq g d a q)
  | 4 => zeroed (d = 0) (.resolve g a b) | 5 => zeroed (d = 0) (.poison g a b)
  | 6 => zeroed (d = 0 ∧ b = 0) (.cancel g a) | 7 => zeroed (b = 0) (.fstat g d a)
  | 8 => zeroed (d = 0 ∧ b = 0) (.fhold g a) | 9 => zeroed (d = 0 ∧ b = 0) (.fdrop g a)
  | 10 => zeroed (d = 0 ∧ b = 0) (.go g a) | 11 => zeroed (d = 0 ∧ a = 0 ∧ b = 0) (.yield g)
  | 12 => zeroed (d = 0 ∧ b = 0) (.exit g a) | 13 => zeroed (a = 0 ∧ b = 0) (.self g d)
  | 14 => if a ≠ 0 ∨ b ≠ 0 then .error .reserved
          else if 2 ≤ d.toNat then .error .code else .ok (.pmode g (d.getLsbD 0))
  | 15 => zeroed (d = 0 ∧ b = 0) (.pbind g a) | 16 => zeroed (a = 0 ∧ b = 0) (.pstat g d)
  | 17 => zeroed (b = 0) (.ldw g d a) | 18 => zeroed (d = 0) (.stw g a b)
  | 19 => zeroed (d = 0 ∧ b = 0) (.bjoin g a) | 20 => zeroed (d = 0 ∧ b = 0) (.barv g a)
  | 21 => zeroed q0 (.bwait g d a q) | 22 => zeroed (d = 0 ∧ b = 0) (.bleave g a)
  | 23 => zeroed (d = 0) (.bexpect g a b)
  | 24 => zeroed (b = 0) (.fpop g d a) | 25 => zeroed q0 (.fpopq g d a q)
  | _ => .error .function

/-- Major 32 (R53, R318). -/
def decodeScriv (w : BitVec 32) : Decoded :=
  let g := guardOf w
  let d := fld w 12 5
  let a := fld w 17 5
  let b := fld w 22 5
  match (fld w 27 5).toNat with
  | 0 => zeroed (b = 0) (.cpy g d a) | 1 => zeroed (b = 0) (.cpy2 g d a)
  | 2 => zeroed (b = 0) (.cpyg g d a) | 3 => zeroed (b = 0) (.tdset g d a)
  | 4 => zeroed (b = 0) (.cqstat g d a)
  | _ => .error .function

/-- Major 33 (R55, R296). -/
def decodeLoomD (w : BitVec 32) : Decoded :=
  let g := guardOf w
  let a := fld w 12 5
  let b := fld w 17 5
  let f := loomFmtOf (fld w 22 3)
  let v := w.getLsbD 25
  coded (lpOf (fld w 26 4)) fun lp =>
  match (fld w 30 2).toNat with
  | 0 => if v then .error .code else .ok (.wld g f lp a b)
  | 1 => .ok (.weft g f v lp a b)
  | 2 => if lp.isSome then .error .code else .ok (.vrd g f v a b)
  | _ => .ok (.lgrp g f v lp a b)

/-- Major 34 (R53, R297). -/
def decodeLoomC (w : BitVec 32) : Decoded :=
  let g := guardOf w
  let d := fld w 12 5
  let a := fld w 17 5
  let b := fld w 22 5
  if b ≠ 0 then (if (fld w 27 5).toNat ≤ 6 then .error .reserved else .error .function) else
  match (fld w 27 5).toNat with
  | 0 => zeroed (d = 0 ∧ a = 0) (.wswap g)
  | 1 => if a ≠ 0 then .error .reserved
         else if 2 ≤ d.toNat then .error .code else .ok (.vclr g (d.getLsbD 0))
  | 2 => if 2 ≤ d.toNat then .error .code else .ok (.vadd g (d.getLsbD 0) a)
  | 3 => if 8 ≤ d.toNat then .error .code else .ok (.lloop g (d.extractLsb' 0 3) a)
  | 4 => zeroed (a = 0) (.lfut g d) | 5 => zeroed (d = 0) (.lres g a)
  | 6 => zeroed (a = 0) (.lstat g d)
  | _ => .error .function

/-- Majors 35 to 39 (R54, R125). -/
def decodeTile3 (m : Nat) (w : BitVec 32) : Decoded :=
  let g := guardOf w
  let td := fld w 12 6
  let ta := fld w 18 6
  let tb := fld w 24 6
  match m, (fld w 30 2).toNat with
  | 35, 0 => .ok (.tadd g td ta tb) | 35, 1 => .ok (.tsub g td ta tb)
  | 35, 2 => .ok (.tmul g td ta tb) | 35, _ => .ok (.tfma g td ta tb)
  | 36, 0 => .ok (.tdiv g td ta tb) | 36, 1 => .ok (.tmin g td ta tb)
  | 36, 2 => .ok (.tmax g td ta tb) | 36, _ => .ok (.tsel g td ta tb)
  | 37, 0 => .ok (.tand g td ta tb) | 37, 1 => .ok (.tor g td ta tb)
  | 37, 2 => .ok (.txor g td ta tb) | 37, _ => .ok (.tshl g td ta tb)
  | 38, 0 => .ok (.tshr g td ta tb)
  | 38, 1 => coded (fmtOf tb.toNat) fun t => .ok (.tcvt g t td ta)
  | 38, 2 => .ok (.ttopk g td ta tb)
  | 39, 0 => .ok (.tcmpEq g td ta tb) | 39, 1 => .ok (.tcmpNe g td ta tb)
  | 39, 2 => .ok (.tcmpLt g td ta tb) | 39, _ => .ok (.tcmpLe g td ta tb)
  | _, _ => .error .function

/-- Major 40 (R54, R123, R127, R128, R130). -/
def decodeTileU (w : BitVec 32) : Decoded :=
  let g := guardOf w
  let td := fld w 12 6
  let ta := fld w 18 6
  if fld w 30 2 ≠ 0 then .error .reserved else
  match (fld w 24 6).toNat with
  | 0 => .ok (.tmov g td ta) | 1 => .ok (.txpose g td ta) | 2 => .ok (.texp2 g td ta)
  | 3 => .ok (.tlog2 g td ta) | 4 => .ok (.trcp g td ta) | 5 => .ok (.trsq g td ta)
  | 6 => .ok (.tsqrt g td ta) | 7 => .ok (.ttanh g td ta) | 8 => .ok (.tredAdd g td ta)
  | 9 => .ok (.tredMin g td ta) | 10 => .ok (.tredMax g td ta) | 11 => .ok (.tscanAdd g td ta)
  | 12 => zeroed (ta = 0) (.tiota g td) | 13 => zeroed (ta = 0) (.trand g td)
  | _ => .error .function

/-- Major 41 (R54, R121, R123, R124). -/
def decodeTileG (w : BitVec 32) : Decoded :=
  let g := guardOf w
  let t := fld w 12 6
  let a := fld w 18 5
  let b := fld w 23 5
  match (fld w 28 4).toNat with
  | 0 => .ok (.tld g t a b) | 1 => .ok (.tst g t a b) | 2 => zeroed (b = 0) (.tsplat g t a)
  | 3 => .ok (.tmovgRead g t a b) | 4 => .ok (.tmovgWrite g t a b)
  | _ => .error .function

/-- Major 42 (R54, R122). -/
def decodeTileX (w : BitVec 32) : Decoded :=
  let g := guardOf w
  let t := fld w 12 6
  let ti := fld w 18 6
  let a := fld w 24 5
  match (fld w 29 3).toNat with
  | 0 => .ok (.tldi g t ti a) | 1 => .ok (.tsti g t ti a)
  | _ => .error .function

/-- Major 44 (R53, R110, R340, R343). -/
def decodeSys (w : BitVec 32) : Decoded :=
  let g := guardOf w
  let d := fld w 12 5
  let a := fld w 17 5
  let b := fld w 22 5
  match (fld w 27 5).toNat with
  | 0 => zeroed (d = 0 ∧ a = 0 ∧ b = 0) (.nop g) | 1 => zeroed (a = 0 ∧ b = 0) (.trap g d)
  | 2 => zeroed (d = 0 ∧ a = 0 ∧ b = 0) (.eret g) | 3 => zeroed (d = 0 ∧ a = 0 ∧ b = 0) (.wfi g)
  | 4 => zeroed (d = 0) (.tlbi g a b) | 5 => zeroed (d = 0 ∧ b = 0) (.ctxsv g a)
  | 6 => zeroed (d = 0 ∧ b = 0) (.ctxld g a) | 7 => zeroed (a = 0 ∧ b = 0) (.dbgb g d)
  | _ => .error .function

/-- Major 63, the modifier word (R48). -/
def decodeModifier (w : BitVec 32) : Decoded :=
  zeroed (!w.getLsbD 31) (.modifierWord
    { scope := fld w 28 3, ord := fld w 25 3, rm := fld w 22 3, scale := fld w 16 6,
      absB := w.getLsbD 15, absA := w.getLsbD 14, negB := w.getLsbD 13, negA := w.getLsbD 12,
      clamp := w.getLsbD 11, sat := fld w 7 4 })

/-- The fields of a 32-bit word by its major (R43, R52), before the limits of R45 and R55. -/
def decodeFields (w : BitVec 32) : Decoded :=
  let g := guardOf w
  let d := fld w 12 5
  let a := fld w 17 5
  let b := fld w 22 5
  let imm := fld w 22 10
  match (fld w 1 6).toNat with
  | 1 => decodeInt w
  | 2 => .ok (.addi g d a imm)
  | 3 => .ok (.andi g d a imm)
  | 4 => .ok (.ori g d a imm)
  | 5 => .ok (.xori g d a imm)
  | 6 => decodeShift w
  | 7 => if fld w 30 2 ≠ 0 then .error .code else
    coded (condOf (fld w 16 4).toNat) fun c => .ok (.cmp g c (fld w 12 4) (fld w 20 5) (fld w 25 5))
  | 8 => coded (condOf (fld w 16 4).toNat) fun c =>
    .ok (.cmpi g c (fld w 12 4) (fld w 20 5) (fld w 25 7))
  | 9 => decodePred w
  | 10 => if w.getLsbD 31 then zeroed (!w.getLsbD 30) (.lea g d a b (fld w 27 3))
    else .ok (.sel g d (fld w 27 4) a b)
  | 11 => match (fld w 30 2).toNat with
    | 0 => .ok (.movwZ (fld w 7 5) (fld w 28 2) (fld w 12 16))
    | 1 => .ok (.movwK (fld w 7 5) (fld w 28 2) (fld w 12 16))
    | 2 => .ok (.movwS (fld w 7 5) (fld w 28 2) (fld w 12 16))
    | _ => .error .function
  | 12 => .ok (.addpc (fld w 7 5) (fld w 12 20))
  | 13 => .ok (.br g (fld w 12 20))
  | 14 => .ok (.brl g (fld w 12 20))
  | 15 => zeroed (d = 0) (.jmp g a imm)
  | 16 => .ok (.jmpl g d a imm)
  | 17 => decodeField w
  | 18 => decodeFloat w
  | 19 => decodeConvert w
  | 20 => .ok (.fmaF64 g d a b (fld w 27 5))
  | 21 => .ok (.fmaF32 g d a b (fld w 27 5))
  | 22 => coded (fcondOf (fld w 16 4).toNat) fun c =>
    .ok (.fcmp g c (floatTyOf (fld w 30 2)) (fld w 12 4) (fld w 20 5) (fld w 25 5))
  | 23 => decodeStateReg w
  | 24 => decodeMem 24 w
  | 25 => decodeMem 25 w
  | 26 => decodeMem 26 w
  | 27 => decodeIndexed w
  | 28 => decodeMemory w
  | 29 => decodeAtomic 29 w
  | 30 => decodeAtomic 30 w
  | 31 => decodeTask w
  | 32 => decodeScriv w
  | 33 => decodeLoomD w
  | 34 => decodeLoomC w
  | 35 => decodeTile3 35 w
  | 36 => decodeTile3 36 w
  | 37 => decodeTile3 37 w
  | 38 => decodeTile3 38 w
  | 39 => decodeTile3 39 w
  | 40 => decodeTileU w
  | 41 => decodeTileG w
  | 42 => decodeTileX w
  | 43 => if fld w 29 3 ≠ 0 then .error .reserved
    else .ok (.shape g (fld w 25 4) (fld w 17 8) (fld w 12 5))
  | 44 => decodeSys w
  | 63 => decodeModifier w
  | _ => .error .major

/-- A decoded word that also meets the limits of R45, R48 and R55. -/
def checked (x : Decoded) : Decoded :=
  match x with
  | .ok i => if i.wf then .ok i else .error .code
  | .error e => .error e

/-- A 32-bit word (bit 0 is 1). -/
def decode32 (w : BitVec 32) : Decoded := checked (decodeFields w)

/-- A 16-bit word (bit 0 is 0), by R47. -/
def decode16 (h : BitVec 16) : Decoded :=
  let n := h.extractLsb' 13 3
  let d := h.extractLsb' 9 4
  let a := h.extractLsb' 5 4
  match (h.extractLsb' 1 4).toNat with
  | 1 => .ok (.movC16 n d a) | 2 => .ok (.addC16 n d a) | 3 => .ok (.subC16 n d a)
  | 4 => .ok (.andC16 n d a) | 5 => .ok (.orC16 n d a) | 6 => .ok (.xorC16 n d a)
  | 7 => .ok (.shlC16 n d a) | 8 => .ok (.shrC16 n d a) | 9 => .ok (.addiC16 n d a)
  | 10 => .ok (.ldN64C16 n d a) | 11 => .ok (.stN64C16 n d a)
  | 12 => .ok (.brC16 n (h.extractLsb' 5 8)) | 13 => .ok (.touchC16 n d a)
  | 14 => zeroed (d = 0) (.jmpC16 n a) | 15 => zeroed (h.extractLsb' 5 8 = 0) (.nopC16 n)
  | _ => .error .compactZero

/-- The modifier groups an instruction accepts (R50, R261, R298): sat, clamp and scale, abs and neg,
rm, the values of ord, and a scope without an ord. -/
structure Groups where
  sat : Bool := false
  scale : Bool := false
  sign : Bool := false
  rm : Bool := false
  ords : List Nat := []
  bareScope : Bool := false
  deriving DecidableEq, Repr

/-- R50's table. Every instruction it does not list accepts no group. -/
def Instr.groups : Instr → Groups
  | .add .. | .sub .. | .mul .. | .addi .. | .shlRegister .. | .shlImmediate .. | .tshl .. =>
    { sat := true }
  | .fcvt _ t _ _ _ => { sat := !t.isFloat, scale := true, rm := true }
  | .tcvt .. => { sat := true, scale := true, rm := true }
  | .tadd .. | .tsub .. | .tmul .. => { sat := true, scale := true, sign := true, rm := true }
  | .fadd .. | .fsub .. | .fmul .. | .fdiv .. | .fmaF64 .. | .fmaF32 .. | .tfma .. | .tdiv .. =>
    { scale := true, sign := true, rm := true }
  | .xrdF32 .. | .xrdF64 .. | .vrd .. => { scale := true, rm := true }
  | .fmin .. | .fmax .. | .fcmp .. | .tmin .. | .tmax .. | .tcmpEq .. | .tcmpNe .. | .tcmpLt ..
  | .tcmpLe .. => { sign := true }
  | .fsqrt .. | .frnd .. | .tsqrt .. | .trcp .. | .trsq .. | .texp2 .. | .tlog2 .. | .ttanh ..
  | .tredAdd .. | .tredMin .. | .tredMax .. | .tscanAdd .. => { rm := true }
  | .ld .. | .ldIndexed .. | .ldp .. | .lrw .. | .tld .. | .tldi .. => { ords := [1] }
  | .amo .. | .casN32 .. | .casN64 .. => { ords := [1, 2, 3] }
  | .red .. | .sch .. | .tsti .. => { ords := [2] }
  | .st .. | .stIndexed .. | .stp .. | .tst .. => { ords := [2, 4, 5] }
  | .ldaN32 .. | .ldaN64 .. | .strN32 .. | .strN64 .. | .ldw .. | .stw .. => { bareScope := true }
  | _ => {}

/-- A modifier word's nonzero groups are all accepted by the instruction (R50). -/
def Groups.accept (c : Groups) (m : MW) : Bool :=
  (m.sat = 0 || c.sat) && ((m.scale = 0 && !m.clamp) || c.scale)
    && (!(m.absA || m.absB || m.negA || m.negB) || c.sign) && (m.rm = 0 || c.rm)
    && (m.ord = 0 || c.ords.contains m.ord.toNat)
    && (m.scope = 0 || m.ord ≠ 0 || c.bareScope)

/-- What one fetch holds (R38, R56): the modifier word, the instruction, its length in bytes. -/
structure Unit32 where
  mw : Option MW
  instr : Instr
  len : Nat
  deriving DecidableEq, Repr

/-- A 16-bit word from two bytes, the lower address first (R8). -/
def half (x y : Byte) : BitVec 16 := y ++ x

/-- A 32-bit word from four bytes: the halfword at the lower address holds bits [15:0] (R41). -/
def word32 (x y z t : Byte) : BitVec 32 := half z t ++ half x y

/-- The decoder of R56: one unit from the bytes at the instruction's address. -/
def decodeBytes : List Byte → Except DecodeError Unit32
  | x :: y :: rest =>
    if !x.getLsbD 0 then (decode16 (half x y)).map (fun i => ⟨none, i, 2⟩)
    else match rest with
      | z :: t :: rest =>
        let w := word32 x y z t
        if fld w 1 6 ≠ 63 then (decode32 w).map (fun i => ⟨none, i, 4⟩)
        else match rest with
          | x2 :: y2 :: rest =>
            if !x2.getLsbD 0 then .error .pair
            else match rest with
              | z2 :: t2 :: _ =>
                let w2 := word32 x2 y2 z2 t2
                if fld w2 1 6 = 63 then .error .pair
                else match decode32 w2, decode32 w with
                  | .ok i, .ok (.modifierWord m) =>
                    if i.groups.accept m then .ok ⟨some m, i, 8⟩ else .error .group
                  | .ok _, .ok _ => .error .pair
                  | .ok _, .error e => .error e
                  | .error e, _ => .error e
              | _ => .error .short
          | _ => .error .short
      | _ => .error .short
  | _ => .error .short

/-- v of R417 for the bytes at an instruction's address: the halfword, the word, or the word (or
halfword) after a modifier word above the modifier word. -/
def refusedBits : List Byte → Word
  | x :: y :: rest =>
    if !x.getLsbD 0 then (half x y).setWidth 64
    else match rest with
      | z :: t :: rest =>
        let w := word32 x y z t
        if fld w 1 6 ≠ 63 then w.setWidth 64
        else match rest with
          | x2 :: y2 :: rest =>
            if !x2.getLsbD 0 then (half x2 y2).setWidth 32 ++ w
            else match rest with
              | z2 :: t2 :: _ => word32 x2 y2 z2 t2 ++ w
              | _ => w.setWidth 64
          | _ => w.setWidth 64
      | _ => (half x y).setWidth 64
  | _ => 0

/-- The length in bytes of what stands at an instruction's address (R41). -/
def unitLen : List Byte → Nat
  | x :: y :: z :: t :: rest =>
    if !x.getLsbD 0 then 2
    else if fld (word32 x y z t) 1 6 ≠ 63 then 4
    else match rest with
      | x2 :: _ => if !x2.getLsbD 0 then 6 else 8
      | [] => 4
  | x :: _ => if !x.getLsbD 0 then 2 else 4
  | [] => 2

/-! ### The encoder -/

/-- Bits [11:7] of a word with a guard (R42). -/
def guardBits (g : Guard) : BitVec 5 := BitVec.ofBool g.inv ++ g.n

/-- Bits [6:0]: the major and bit 0 (R43). -/
def majorBits (m : BitVec 6) : BitVec 7 := m ++ 1#1

def encR (fn b a d : BitVec 5) (g : Guard) (m : BitVec 6) : BitVec 32 :=
  fn ++ b ++ a ++ d ++ guardBits g ++ majorBits m
def encI (imm : BitVec 10) (a d : BitVec 5) (g : Guard) (m : BitVec 6) : BitVec 32 :=
  imm ++ a ++ d ++ guardBits g ++ majorBits m
def encK (fn : BitVec 4) (sh : BitVec 6) (a d : BitVec 5) (g : Guard) : BitVec 32 :=
  fn ++ sh ++ a ++ d ++ guardBits g ++ majorBits 6
def encC (ft : BitVec 2) (b a : BitVec 5) (cc pd : BitVec 4) (g : Guard) (m : BitVec 6) : BitVec 32 :=
  ft ++ b ++ a ++ cc ++ pd ++ guardBits g ++ majorBits m
def encCI (imm : BitVec 7) (a : BitVec 5) (cc pd : BitVec 4) (g : Guard) : BitVec 32 :=
  imm ++ a ++ cc ++ pd ++ guardBits g ++ majorBits 8
def encP (fn pb pa pd : BitVec 4) (g : Guard) : BitVec 32 :=
  0#4 ++ fn ++ pb ++ pa ++ pd ++ guardBits g ++ majorBits 9
def encS (s : BitVec 1) (pn : BitVec 4) (b a d : BitVec 5) (g : Guard) : BitVec 32 :=
  s ++ pn ++ b ++ a ++ d ++ guardBits g ++ majorBits 10
def encW (op hw : BitVec 2) (imm : BitVec 16) (d : BitVec 5) : BitVec 32 :=
  op ++ hw ++ imm ++ d ++ majorBits 11
def encB (disp : BitVec 20) (g : Guard) (m : BitVec 6) : BitVec 32 :=
  disp ++ guardBits g ++ majorBits m
def encF (fn f : BitVec 3) (lay : BitVec 4) (a d : BitVec 5) (g : Guard) : BitVec 32 :=
  fn ++ f ++ lay ++ a ++ d ++ guardBits g ++ majorBits 17
def encFR (fn : BitVec 3) (ft : BitVec 2) (b a d : BitVec 5) (g : Guard) : BitVec 32 :=
  fn ++ ft ++ b ++ a ++ d ++ guardBits g ++ majorBits 18
def encX (fn : BitVec 2) (src tgt : BitVec 4) (a d : BitVec 5) (g : Guard) : BitVec 32 :=
  fn ++ src ++ tgt ++ a ++ d ++ guardBits g ++ majorBits 19
def encSR (fn : BitVec 2) (n : BitVec 8) (a d : BitVec 5) (g : Guard) : BitVec 32 :=
  fn ++ n ++ a ++ d ++ guardBits g ++ majorBits 23
def encM (off : BitVec 7) (ty : BitVec 3) (a d : BitVec 5) (g : Guard) (m : BitVec 6) : BitVec 32 :=
  off ++ ty ++ a ++ d ++ guardBits g ++ majorBits m
def encAM (w : Bool) (op : BitVec 4) (b a d : BitVec 5) (g : Guard) (m : BitVec 6) : BitVec 32 :=
  BitVec.ofBool w ++ op ++ b ++ a ++ d ++ guardBits g ++ majorBits m
def encL (fn : BitVec 2) (lp : BitVec 4) (v : Bool) (fmt : BitVec 3) (b a : BitVec 5) (g : Guard) :
    BitVec 32 :=
  fn ++ lp ++ BitVec.ofBool v ++ fmt ++ b ++ a ++ guardBits g ++ majorBits 33
def encT3 (fn : BitVec 2) (tb ta td : BitVec 6) (g : Guard) (m : BitVec 6) : BitVec 32 :=
  fn ++ tb ++ ta ++ td ++ guardBits g ++ majorBits m
def encTG (fn : BitVec 4) (b a : BitVec 5) (t : BitVec 6) (g : Guard) : BitVec 32 :=
  fn ++ b ++ a ++ t ++ guardBits g ++ majorBits 41
def encTX (fn : BitVec 3) (a : BitVec 5) (ti t : BitVec 6) (g : Guard) : BitVec 32 :=
  fn ++ a ++ ti ++ t ++ guardBits g ++ majorBits 42
def encSH (fmt : BitVec 4) (c : BitVec 8) (r : BitVec 5) (g : Guard) : BitVec 32 :=
  0#3 ++ fmt ++ c ++ r ++ guardBits g ++ majorBits 43
def encMW (m : MW) : BitVec 32 :=
  0#1 ++ m.scope ++ m.ord ++ m.rm ++ m.scale ++ BitVec.ofBool m.absB ++ BitVec.ofBool m.absA
    ++ BitVec.ofBool m.negB ++ BitVec.ofBool m.negA ++ BitVec.ofBool m.clamp ++ m.sat ++ majorBits 63
def encC16 (n : BitVec 3) (d a op : BitVec 4) : BitVec 16 := n ++ d ++ a ++ op ++ 0#1

def Cond.code : Cond → BitVec 4
  | .eq => 0 | .ne => 1 | .lt => 2 | .ge => 3 | .le => 4 | .gt => 5 | .ltn => 6 | .gen => 7
  | .len => 8 | .gtn => 9 | .tst => 10 | .tsz => 11
def FCond.code : FCond → BitVec 4
  | .eq => 0 | .ne => 1 | .lt => 2 | .ge => 3 | .le => 4 | .gt => 5 | .un => 6 | .num => 7
def Fmt.code : Fmt → BitVec 4
  | .i8 => 0 | .i16 => 1 | .i32 => 2 | .i64 => 3 | .n8 => 4 | .n16 => 5 | .n32 => 6 | .n64 => 7
  | .f64 => 8 | .f32 => 9 | .f16 => 10 | .bf16 => 11 | .f8e4 => 12 | .f8e5 => 13 | .f4 => 14
def FloatTy.code : FloatTy → BitVec 2
  | .f64 => 0 | .f32 => 1 | .f16 => 2 | .bf16 => 3
def LdTy.code : LdTy → BitVec 3
  | .n8 => 0 | .n16 => 1 | .n32 => 2 | .n64 => 3 | .i8 => 4 | .i16 => 5 | .i32 => 6
def StTy.code : StTy → BitVec 3
  | .n8 => 0 | .n16 => 1 | .n32 => 2 | .n64 => 3
def AmoOp.code : AmoOp → BitVec 4
  | .add => 0 | .and => 1 | .or => 2 | .xor => 3 | .min => 4 | .max => 5 | .minn => 6 | .maxn => 7
  | .swap => 8 | .fadd => 9
def RedOp.code : RedOp → BitVec 4
  | .add => 0 | .and => 1 | .or => 2 | .xor => 3 | .min => 4 | .max => 5 | .minn => 6 | .maxn => 7
  | .fadd => 9 | .exact => 10
def LoomFmt.code : LoomFmt → BitVec 3
  | .f64 => 0 | .f32 => 1 | .bf16 => 2 | .f16 => 3 | .f8e4 => 4 | .f8e5 => 5 | .i8 => 6 | .f4 => 7
def FenceKind.code : FenceKind → BitVec 5
  | .all => 0 | .loads => 1 | .stores => 2 | .fetch => 3
def lpBits : Option (BitVec 3) → BitVec 4
  | none => 0
  | some n => 1#1 ++ n

/-- The words of an instruction: one halfword or one word. -/
inductive Encoded where
  | h (w : BitVec 16)
  | w (w : BitVec 32)
  deriving DecidableEq, Repr

/-- A bit as a five-bit field (k of VCLR, VADD and PMODE). -/
def bit5 (k : Bool) : BitVec 5 := 0#4 ++ BitVec.ofBool k

/-- A predicate in a five-bit field (pd and pq, R44). -/
def pred5 (p : Pred) : BitVec 5 := 0#1 ++ p

/-- The encoder: the word of a well-formed encoded instruction, from the formats of R43 and the
functions of R47, R53 and R54. An event has no word. -/
def encode : Instr → Option Encoded
  | .add g d a b => some (.w (encR 0 b a d g 1))
  | .sub g d a b => some (.w (encR 1 b a d g 1))
  | .mul g d a b => some (.w (encR 2 b a d g 1))
  | .mulhi g d a b => some (.w (encR 3 b a d g 1))
  | .mulhn g d a b => some (.w (encR 4 b a d g 1))
  | .div g d a b => some (.w (encR 5 b a d g 1))
  | .divn g d a b => some (.w (encR 6 b a d g 1))
  | .rem g d a b => some (.w (encR 7 b a d g 1))
  | .remn g d a b => some (.w (encR 8 b a d g 1))
  | .min g d a b => some (.w (encR 9 b a d g 1))
  | .max g d a b => some (.w (encR 10 b a d g 1))
  | .minn g d a b => some (.w (encR 11 b a d g 1))
  | .maxn g d a b => some (.w (encR 12 b a d g 1))
  | .and g d a b => some (.w (encR 13 b a d g 1))
  | .or g d a b => some (.w (encR 14 b a d g 1))
  | .xor g d a b => some (.w (encR 15 b a d g 1))
  | .andn g d a b => some (.w (encR 16 b a d g 1))
  | .shlRegister g d a b => some (.w (encR 17 b a d g 1))
  | .shrRegister g d a b => some (.w (encR 18 b a d g 1))
  | .shaRegister g d a b => some (.w (encR 19 b a d g 1))
  | .rotRegister g d a b => some (.w (encR 20 b a d g 1))
  | .mov g d a => some (.w (encR 24 0 a d g 1))
  | .clz g d a => some (.w (encR 25 0 a d g 1))
  | .ctz g d a => some (.w (encR 26 0 a d g 1))
  | .popc g d a => some (.w (encR 27 0 a d g 1))
  | .brev g d a => some (.w (encR 28 0 a d g 1))
  | .bswap g d a => some (.w (encR 29 0 a d g 1))
  | .mix64 g d a => some (.w (encR 30 0 a d g 1))
  | .addi g d a i => some (.w (encI i a d g 2))
  | .andi g d a i => some (.w (encI i a d g 3))
  | .ori g d a i => some (.w (encI i a d g 4))
  | .xori g d a i => some (.w (encI i a d g 5))
  | .shlImmediate g d a sh => some (.w (encK 0 sh a d g))
  | .shrImmediate g d a sh => some (.w (encK 1 sh a d g))
  | .shaImmediate g d a sh => some (.w (encK 2 sh a d g))
  | .rotImmediate g d a sh => some (.w (encK 3 sh a d g))
  | .cmp g c p a b => some (.w (encC 0 b a c.code p g 7))
  | .cmpi g c p a i => some (.w (encCI i a c.code p g))
  | .pand g p x y => some (.w (encP 0 y x p g))
  | .por g p x y => some (.w (encP 1 y x p g))
  | .pxor g p x y => some (.w (encP 2 y x p g))
  | .pnot g p x => some (.w (encP 3 0 x p g))
  | .pmov g p x => some (.w (encP 4 0 x p g))
  | .pset g p k => some (.w (encP 5 0 (0#3 ++ BitVec.ofBool k) p g))
  | .sel g d n a b => some (.w (encS 0 n b a d g))
  | .lea g d a b s => some (.w (encS 1 (0#1 ++ s) b a d g))
  | .movwZ d h i => some (.w (encW 0 h i d))
  | .movwK d h i => some (.w (encW 1 h i d))
  | .movwS d h i => some (.w (encW 2 h i d))
  | .addpc d i => some (.w (i ++ d ++ majorBits 12))
  | .br g x => some (.w (encB x g 13))
  | .brl g x => some (.w (encB x g 14))
  | .jmp g a i => some (.w (encI i a 0 g 15))
  | .jmpl g d a i => some (.w (encI i a d g 16))
  | .fext g d a l f => some (.w (encF 0 f l a d g))
  | .fins g d a l f => some (.w (encF 1 f l a d g))
  | .fpack g d a l => some (.w (encF 2 0 l a d g))
  | .funpack g d a l => some (.w (encF 3 0 l a d g))
  | .layout g l a => some (.w (encF 4 0 l a 0 g))
  | .fadd g t d a b => some (.w (encFR 0 t.code b a d g))
  | .fsub g t d a b => some (.w (encFR 1 t.code b a d g))
  | .fmul g t d a b => some (.w (encFR 2 t.code b a d g))
  | .fdiv g t d a b => some (.w (encFR 3 t.code b a d g))
  | .fmin g t d a b => some (.w (encFR 4 t.code b a d g))
  | .fmax g t d a b => some (.w (encFR 5 t.code b a d g))
  | .fsqrt g t d a => some (.w (encFR 6 t.code 0 a d g))
  | .fcvt g t s d a => some (.w (encX 0 s.code t.code a d g))
  | .frnd g f d a => some (.w (encX 1 f.code f.code a d g))
  | .fclass g f d a => some (.w (encX 2 f.code 0 a d g))
  | .fmaF64 g d a b c => some (.w (encR c b a d g 20))
  | .fmaF32 g d a b c => some (.w (encR c b a d g 21))
  | .fcmp g c t p a b => some (.w (encC t.code b a c.code p g 22))
  | .srd g d n => some (.w (encSR 0 n 0 d g))
  | .swr g n a => some (.w (encSR 1 n a 0 g))
  | .srdp g d n => some (.w (encSR 2 n 0 d g))
  | .swrp g n a => some (.w (encSR 3 n a 0 g))
  | .ld g t d a o => some (.w (encM o t.code a d g 24))
  | .st g t d a o => some (.w (encM o t.code a d g 25))
  | .ldp g d a o => some (.w (encM o 0 a d g 26))
  | .stp g d a o => some (.w (encM o 1 a d g 26))
  | .ldIndexed g t d a b => some (.w (encR (0#2 ++ t.code) b a d g 27))
  | .stIndexed g t d a b => some (.w (encR (1#2 ++ t.code) b a d g 27))
  | .ldaN32 g d a => some (.w (encR 0 0 a d g 28))
  | .ldaN64 g d a => some (.w (encR 1 0 a d g 28))
  | .strN32 g a b => some (.w (encR 2 b a 0 g 28))
  | .strN64 g a b => some (.w (encR 3 b a 0 g 28))
  | .casN32 g d a b => some (.w (encR 4 b a d g 28))
  | .casN64 g d a b => some (.w (encR 5 b a d g 28))
  | .xclr g a => some (.w (encR 6 0 a 0 g 28))
  | .xrdF32 g d a => some (.w (encR 7 0 a d g 28))
  | .xrdF64 g d a => some (.w (encR 8 0 a d g 28))
  | .lrw g d a => some (.w (encR 9 0 a d g 28))
  | .sch g p a b => some (.w (encR 10 b a (pred5 p) g 28))
  | .fence g k s => some (.w (encR 11 0 (0#2 ++ s) k.code g 28))
  | .lookup g d a => some (.w (encR 12 0 a d g 28))
  | .tagset g a b => some (.w (encR 13 b a 0 g 28))
  | .tagclr g a => some (.w (encR 14 0 a 0 g 28))
  | .pref g a => some (.w (encR 15 0 a 0 g 28))
  | .snap g d => some (.w (encR 16 0 0 d g 28))
  | .snapx g a => some (.w (encR 17 0 a 0 g 28))
  | .txb g => some (.w (encR 18 0 0 0 g 28))
  | .txc g p => some (.w (encR 19 0 0 (pred5 p) g 28))
  | .txa g => some (.w (encR 20 0 0 0 g 28))
  | .txs g d => some (.w (encR 21 0 0 d g 28))
  | .alw g d a q => some (.w (encR 22 (pred5 q) a d g 28))
  | .amo g w o d a b => some (.w (encAM w o.code b a d g 29))
  | .red g w o a b => some (.w (encAM w o.code b a 0 g 30))
  | .spawn g d a => some (.w (encR 0 0 a d g 31))
  | .spawnq g d a q => some (.w (encR 1 (pred5 q) a d g 31))
  | .touch g d a => some (.w (encR 2 0 a d g 31))
  | .touchq g d a q => some (.w (encR 3 (pred5 q) a d g 31))
  | .resolve g a b => some (.w (encR 4 b a 0 g 31))
  | .poison g a b => some (.w (encR 5 b a 0 g 31))
  | .cancel g a => some (.w (encR 6 0 a 0 g 31))
  | .fstat g d a => some (.w (encR 7 0 a d g 31))
  | .fhold g a => some (.w (encR 8 0 a 0 g 31))
  | .fdrop g a => some (.w (encR 9 0 a 0 g 31))
  | .go g a => some (.w (encR 10 0 a 0 g 31))
  | .yield g => some (.w (encR 11 0 0 0 g 31))
  | .exit g a => some (.w (encR 12 0 a 0 g 31))
  | .self g d => some (.w (encR 13 0 0 d g 31))
  | .pmode g k => some (.w (encR 14 0 0 (bit5 k) g 31))
  | .pbind g a => some (.w (encR 15 0 a 0 g 31))
  | .pstat g d => some (.w (encR 16 0 0 d g 31))
  | .ldw g d a => some (.w (encR 17 0 a d g 31))
  | .stw g a b => some (.w (encR 18 b a 0 g 31))
  | .bjoin g a => some (.w (encR 19 0 a 0 g 31))
  | .barv g a => some (.w (encR 20 0 a 0 g 31))
  | .bwait g d a q => some (.w (encR 21 (pred5 q) a d g 31))
  | .bleave g a => some (.w (encR 22 0 a 0 g 31))
  | .bexpect g a b => some (.w (encR 23 b a 0 g 31))
  | .fpop g d a => some (.w (encR 24 0 a d g 31))
  | .fpopq g d a q => some (.w (encR 25 (pred5 q) a d g 31))
  | .cpy g d a => some (.w (encR 0 0 a d g 32))
  | .cpy2 g d a => some (.w (encR 1 0 a d g 32))
  | .cpyg g d a => some (.w (encR 2 0 a d g 32))
  | .tdset g k a => some (.w (encR 3 0 a k g 32))
  | .cqstat g d a => some (.w (encR 4 0 a d g 32))
  | .wld g f l a b => some (.w (encL 0 (lpBits l) false f.code b a g))
  | .weft g f v l a b => some (.w (encL 1 (lpBits l) v f.code b a g))
  | .vrd g f v a b => some (.w (encL 2 0 v f.code b a g))
  | .lgrp g f v l a b => some (.w (encL 3 (lpBits l) v f.code b a g))
  | .wswap g => some (.w (encR 0 0 0 0 g 34))
  | .vclr g k => some (.w (encR 1 0 0 (bit5 k) g 34))
  | .vadd g k a => some (.w (encR 2 0 a (bit5 k) g 34))
  | .lloop g k a => some (.w (encR 3 0 a (0#2 ++ k) g 34))
  | .lfut g d => some (.w (encR 4 0 0 d g 34))
  | .lres g a => some (.w (encR 5 0 a 0 g 34))
  | .lstat g d => some (.w (encR 6 0 0 d g 34))
  | .tadd g td ta tb => some (.w (encT3 0 tb ta td g 35))
  | .tsub g td ta tb => some (.w (encT3 1 tb ta td g 35))
  | .tmul g td ta tb => some (.w (encT3 2 tb ta td g 35))
  | .tfma g td ta tb => some (.w (encT3 3 tb ta td g 35))
  | .tdiv g td ta tb => some (.w (encT3 0 tb ta td g 36))
  | .tmin g td ta tb => some (.w (encT3 1 tb ta td g 36))
  | .tmax g td ta tb => some (.w (encT3 2 tb ta td g 36))
  | .tsel g td ta tb => some (.w (encT3 3 tb ta td g 36))
  | .tand g td ta tb => some (.w (encT3 0 tb ta td g 37))
  | .tor g td ta tb => some (.w (encT3 1 tb ta td g 37))
  | .txor g td ta tb => some (.w (encT3 2 tb ta td g 37))
  | .tshl g td ta tb => some (.w (encT3 3 tb ta td g 37))
  | .tshr g td ta tb => some (.w (encT3 0 tb ta td g 38))
  | .tcmpEq g td ta tb => some (.w (encT3 0 tb ta td g 39))
  | .tcmpNe g td ta tb => some (.w (encT3 1 tb ta td g 39))
  | .tcmpLt g td ta tb => some (.w (encT3 2 tb ta td g 39))
  | .tcmpLe g td ta tb => some (.w (encT3 3 tb ta td g 39))
  | .tcvt g t td ta => some (.w (encT3 1 (0#2 ++ t.code) ta td g 38))
  | .ttopk g td ta k => some (.w (encT3 2 k ta td g 38))
  | .tmov g td ta => some (.w (encT3 0 0 ta td g 40))
  | .txpose g td ta => some (.w (encT3 0 1 ta td g 40))
  | .texp2 g td ta => some (.w (encT3 0 2 ta td g 40))
  | .tlog2 g td ta => some (.w (encT3 0 3 ta td g 40))
  | .trcp g td ta => some (.w (encT3 0 4 ta td g 40))
  | .trsq g td ta => some (.w (encT3 0 5 ta td g 40))
  | .tsqrt g td ta => some (.w (encT3 0 6 ta td g 40))
  | .ttanh g td ta => some (.w (encT3 0 7 ta td g 40))
  | .tredAdd g td ta => some (.w (encT3 0 8 ta td g 40))
  | .tredMin g td ta => some (.w (encT3 0 9 ta td g 40))
  | .tredMax g td ta => some (.w (encT3 0 10 ta td g 40))
  | .tscanAdd g td ta => some (.w (encT3 0 11 ta td g 40))
  | .tiota g td => some (.w (encT3 0 12 0 td g 40))
  | .trand g td => some (.w (encT3 0 13 0 td g 40))
  | .tld g t a b => some (.w (encTG 0 b a t g))
  | .tst g t a b => some (.w (encTG 1 b a t g))
  | .tsplat g t a => some (.w (encTG 2 0 a t g))
  | .tmovgRead g t a b => some (.w (encTG 3 b a t g))
  | .tmovgWrite g t a b => some (.w (encTG 4 b a t g))
  | .tldi g t ti a => some (.w (encTX 0 a ti t g))
  | .tsti g t ti a => some (.w (encTX 1 a ti t g))
  | .shape g f c r => some (.w (encSH f c r g))
  | .nop g => some (.w (encR 0 0 0 0 g 44))
  | .trap g k => some (.w (encR 1 0 0 k g 44))
  | .eret g => some (.w (encR 2 0 0 0 g 44))
  | .wfi g => some (.w (encR 3 0 0 0 g 44))
  | .tlbi g a b => some (.w (encR 4 b a 0 g 44))
  | .ctxsv g a => some (.w (encR 5 0 a 0 g 44))
  | .ctxld g a => some (.w (encR 6 0 a 0 g 44))
  | .dbgb g k => some (.w (encR 7 0 0 k g 44))
  | .modifierWord m => some (.w (encMW m))
  | .movC16 n d a => some (.h (encC16 n d a 1))
  | .addC16 n d a => some (.h (encC16 n d a 2))
  | .subC16 n d a => some (.h (encC16 n d a 3))
  | .andC16 n d a => some (.h (encC16 n d a 4))
  | .orC16 n d a => some (.h (encC16 n d a 5))
  | .xorC16 n d a => some (.h (encC16 n d a 6))
  | .shlC16 n d a => some (.h (encC16 n d a 7))
  | .shrC16 n d a => some (.h (encC16 n d a 8))
  | .addiC16 n d a => some (.h (encC16 n d a 9))
  | .ldN64C16 n d a => some (.h (encC16 n d a 10))
  | .stN64C16 n d a => some (.h (encC16 n d a 11))
  | .brC16 n x => some (.h (n ++ x ++ 12#4 ++ 0#1))
  | .touchC16 n d a => some (.h (encC16 n d a 13))
  | .jmpC16 n a => some (.h (encC16 n 0 a 14))
  | .nopC16 n => some (.h (encC16 n 0 0 15))
  | .interruptTaken .. | .timerExpiry .. | .storeErrorReport .. | .loadReply ..
  | .scratchpadRequest .. | .memoryPortRead .. | .memoryPortWrite .. | .memoryPortAtomic ..
  | .redMergeGroupApply .. | .tableWalkComplete .. | .futureEntryFill .. | .bindTask ..
  | .stealRound .. | .dequeRefill .. | .arrivalRefill .. | .arrivalResend .. | .doomNotice ..
  | .gleanerVisit .. | .poolWaitTimeout .. | .reservationExpiry .. | .remoteRequestTimeout ..
  | .loomCmdWld .. | .loomCmdWswap .. | .loomCmdVclr .. | .loomCmdWeft .. | .loomCmdVadd ..
  | .loomCmdLgrp .. | .loomCmdLloop .. | .loomCmdVrd .. | .loomMarker .. | .loomPause ..
  | .scrivenerCpy .. | .scrivenerCpy2 .. | .scrivenerCpyg .. | .scrivenerPause ..
  | .tilePrefetch .. | .tailWrite .. | .queueEnable .. | .queueDisable .. | .queueSkip ..
  | .queueRetry .. | .queueReset .. | .launch .. | .feed .. | .copy .. | .semwait .. | .semsig ..
  | .futwait .. | .intr .. | .indirect .. | .fencePacket .. | .unknownOpcode .. | .heapAdmit ..
  | .heapTake | .launchPlacement .. | .launchComplete .. | .semaphoreWrite ..
  | .feedQueueEnable .. | .feedQueueDisable .. | .hostReadTimeout .. | .fabricRead ..
  | .fabricWrite .. | .fabricAmo .. | .fabricCas .. | .fabricRed .. | .fabricLrw ..
  | .fabricSch .. | .fabricXrdXclr .. | .fabricFutureRequest .. | .fabricFutureDelivery ..
  | .fabricReadReply .. | .fabricAck .. | .fabricErrorReply .. | .allowancePark ..
  | .packetForward .. | .linkDown .. | .linkUp .. | .featureWordAnnounce ..
  | .dieBoundaryFailure .. | .routeWordWrite .. | .rangeRegisterWrite .. | .versionPoolWrite ..
  | .drainWrite .. | .featureAcceptWrite .. | .dieStart .. | .interruptWordWrite ..
  | .debugHalt .. | .debugResume .. | .debugDtrapClear .. | .debugQuiesce .. | .registerWrite ..
  | .powerOn | .functionReady .. | .firmwareLoad .. | .firmwareUpdate .. | .spdmGetVersion ..
  | .spdmGetCapabilities .. | .spdmNegotiateAlgorithms .. | .spdmGetDigests ..
  | .spdmGetCertificate .. | .spdmChallenge .. | .spdmGetMeasurements .. | .thermalThrottleBegin
  | .thermalThrottleEnd | .thermalShutdown | .illegalInstruction .. | .fetchFault ..
  | .moduleReset | .hbmStackFailure .. | .commitExchange .. => none

/-- Decoding of the encoder's words. -/
def decodeEncoded : Encoded → Decoded
  | .h x => decode16 x
  | .w x => decode32 x

/-- The bytes of the encoder's words, the lowest address first (R8, R41). -/
def Encoded.bytes : Encoded → List Byte
  | .h x => [x.extractLsb' 0 8, x.extractLsb' 8 8]
  | .w x => [x.extractLsb' 0 8, x.extractLsb' 8 8, x.extractLsb' 16 8, x.extractLsb' 24 8]

/-- The low `n` bytes of a number, the lowest first (R8). -/
def natBytes : Nat → Nat → List Byte
  | 0, _ => []
  | n + 1, x => BitVec.ofNat 8 x :: natBytes n (x / 256)

/-- The instruction the decoder reads from a word of the opcode table: `nbits` bits, bit 0 the least
significant of the first byte, and zeros above them. -/
def decodeTableWord (nbits w : Nat) : Option Instr :=
  let bs := natBytes 8 (w % 2 ^ nbits)
  match bs with
  | x :: y :: z :: t :: _ =>
    if x.getLsbD 0 && fld (word32 x y z t) 1 6 = 63 then
      match decode32 (word32 x y z t) with
      | .ok i => some i
      | .error _ => none
    else match decodeBytes bs with
      | .ok u => some u.instr
      | .error _ => none
  | _ => none

end Sys2Proof
end

