-- ==== Sys2Proof/Config.lean ====
section
/-! DEFINITION. What the spec leaves open, as constants without a body: no proof can see their
values, so a claim holds whatever they are. Each is applied to what it may depend on, or to the
counter `fresh` of the state (log 3). -/

namespace Sys2Proof.Config

/-- A free choice among several allowed ones (log 3, log 8): read modulo the number of choices. -/
opaque pick : Nat → Nat

/-- A free word (log 3). -/
opaque freeWord : Nat → Word

/-- Whether an instruction-cache sector that a fetch finds is fetched again (R39, log 9). -/
opaque refetch : Nat → Bool

/-- The set of the memory-side cache a line falls in (R211: not visible; log 17). -/
opaque cacheSet : Nat → Nat

/-- Whether both signatures of a firmware image verify (R411, log 14). -/
opaque imageVerifies : List Byte → Bool

/-- The version of a firmware image (R411, log 14). -/
opaque imageVersion : List Byte → Nat

/-- The minimum version held in the module's fuses (R411, log 14). -/
opaque minVersion : Nat

/-- The body of an SPDM answer, by the request's code (R412, log 13). -/
opaque spdmBody : Nat → List Byte → List Byte

/-- Whether the output queue of a link is at least three-quarters full (R390, log 19). -/
opaque queueBusy : Nat → Bool

/-- The content a stopped COPY leaves in a destination word: old, or the source word (R368, log 20). -/
opaque copyWrote : Nat → Bool

/-- What a PCIe completion brings for a word of host memory: nothing, when it is clean, or the word that
comes with the poisoned-data mark or an error (R204, R401, log 55). -/
opaque hostPoison : Nat → Nat → Option Word

/-- The check code over a fabric header (R380, log 60). -/
opaque headerCheck : Nat → BitVec 16

end Sys2Proof.Config
end

