-- ==== Sys2Proof/Machine/SMap.lean ====
section
/-! DEFINITION. Sparse maps from Nat in one canonical form: keys strictly rising, and no entry
equal to the default, which is what an unlisted key reads as. Equal maps are equal lists. -/

namespace Sys2Proof.Machine

/-- A sparse map: pairs of key and value. -/
abbrev SMap (α : Type) := List (Nat × α)

/-- The value at key `k`, or the default `d`. -/
def SMap.get {α : Type} (m : SMap α) (d : α) (k : Nat) : α :=
  match m with
  | [] => d
  | (j, v) :: r => if j = k then v else SMap.get r d k

/-- `m` without key `k`. -/
def SMap.del {α : Type} (m : SMap α) (k : Nat) : SMap α :=
  match m with
  | [] => []
  | (j, v) :: r => if j = k then SMap.del r k else (j, v) :: SMap.del r k

/-- `m` with `(k, v)` placed before the first greater key. -/
def SMap.ins {α : Type} (m : SMap α) (k : Nat) (v : α) : SMap α :=
  match m with
  | [] => [(k, v)]
  | (j, w) :: r => if k < j then (k, v) :: (j, w) :: r else (j, w) :: SMap.ins r k v

/-- `m` with key `k` reading as `v`; a default value removes the entry. -/
def SMap.put {α : Type} [DecidableEq α] (m : SMap α) (d : α) (k : Nat) (v : α) : SMap α :=
  if v = d then SMap.del m k else SMap.ins (SMap.del m k) k v

/-- Every key of `m` lies above `k`. -/
def SMap.above {α : Type} (m : SMap α) (k : Nat) : Bool := m.all fun e => decide (k < e.1)

/-- The canonical form. -/
def SMap.wf {α : Type} [DecidableEq α] (m : SMap α) (d : α) : Bool :=
  match m with
  | [] => true
  | (k, v) :: r => SMap.above r k && decide (v ≠ d) && SMap.wf r d

end Sys2Proof.Machine
end

