-- ==== Sys2Proof/Machine/State.lean ====
section
/-! DEFINITION. The state of one CA-1 module (R1): strands, cores, clusters, memory, ports, engines,
Dispatch, fabric and management, as plain data. Registers and units are held sparsely: an unlisted
core, slot or register stands at its reset value. -/

namespace Sys2Proof.Machine

/-- Why the machine stops for good. -/
inductive Fault where
  /-- A thermal shutdown has stopped the module (R415): raised by every step and every instruction
  after it. Safe: the spec gives no further step. -/
  | moduleStopped
  deriving DecidableEq, Repr

/-- Why an instruction has no meaning. -/
inductive Refusal where
  /-- The instruction has no meaning in the model yet: raised by the dispatch. Safe. -/
  | notModelled (mnemonic : String)
  deriving DecidableEq, Repr

/-- A word and its poison bit (R19). -/
structure PW where
  v : Word
  p : Bool
  deriving DecidableEq, Repr

/-- The states of a strand slot (R131). -/
inductive SlotState where
  | free | ready | waiting | halted
  deriving DecidableEq, Repr

/-- A serving place (R223): a scratchpad, a memory port, the host interface, the device registers,
or another module. -/
inductive Place where
  | spad (core : Nat)
  | port (q : Nat)
  | host
  | dev
  | remote (m : Nat)
  deriving DecidableEq, Repr

/-- A leaf of the page tables (R217); `level` 1, 2 or 3 gives the page size (R216). -/
structure Leaf where
  pa : Nat
  level : Nat
  ver : Bool
  user : Bool
  exec : Bool
  write : Bool
  read : Bool
  deriving DecidableEq, Repr

/-- The outcome of a walk (R218, R221). -/
inductive WalkOut where
  | leaf (l : Leaf)
  | fault (c : Code)
  deriving DecidableEq, Repr

/-- An answer to an instruction in flight. -/
inductive Answer where
  /-- the bytes read, and the poison bit of each 8-byte word touched -/
  | data (bytes : List Byte) (poison : List Bool)
  | word (v : Word) (p : Bool)
  | pred (b : Bool)
  | trap (cause : BitVec 5) (code : Code) (v : Word)
  /-- progress of the instruction itself: what it has already done -/
  | note (n : Nat)
  deriving DecidableEq, Repr

/-- What a strand out of the rotation waits for (R134). -/
inductive WaitOn where
  | answers
  | walk (granule : Nat)
  | tag (core : Nat) (words : List Nat) (full : Bool)
  | chain (tiles : List Nat)
  | portIn
  | portOut
  | drain
  | bank (b : Nat)
  | ring
  | reservation
  | allowance (m : Nat)
  | object
  | irq
  | walks
  deriving DecidableEq, Repr

/-- An instruction in flight or held: it is run again with the answers it has got, or afresh once
what it waits for holds. -/
structure Flight where
  instr : Instr
  mw : Option MW
  len : Nat
  word : Word
  on : WaitOn
  /-- the order in which it began waiting (R167) -/
  since : Nat
  /-- the cycle in which it began waiting (R391) -/
  cyc : Nat
  /-- answers outstanding -/
  out : Nat
  got : List (Nat × Answer)
  /-- sr.xroot at its issue, whose context it keeps (R215), and the cycle of its issue (R28) -/
  root : Word := 0
  at_ : Nat := 0
  deriving DecidableEq, Repr

/-- A strand (R18) and the slot's own state (R131). -/
structure Strand where
  st : SlotState := .free
  /-- the model's number of this binding of the slot -/
  inst : Nat := 0
  g : SMap PW := []
  pred : BitVec 16 := 1
  pc : Word := 0
  priv : Bool := false
  pmode : Bool := false
  seed : Word := 0
  rctr : Word := 0
  shape : Word := 0x00800F07
  snap : Word := 0
  tx : Word := 0
  task : Word := 0
  epc : Word := 0
  cause : Word := 0
  tval : Word := 0
  estat : Word := 0
  kscr : Word := 0
  /-- the cycle of the last issue since it was bound (R132) -/
  last : Option Nat := none
  mig : Bool := false
  prio : BitVec 2 := 0
  parent : Word := 0
  /-- a store error to be raised at the next issue (R352) -/
  err : Option (Code × Word) := none
  /-- a failed future to be raised before anything issues (R186): fault word and trap address -/
  failed : Option (Word × Word × Nat) := none
  /-- outcomes of walks delivered and not yet used, by context and granule (R221) -/
  walked : List (Nat × WalkOut) := []
  /-- the granule a fetch waits for -/
  fetchWait : Option Nat := none
  flight : Option Flight := none
  /-- a TST or TSTI that waits for allowance with entries posted: its address, the entries already
  posted, their group (R391) -/
  posted : List (Word × Nat × Nat) := []
  deriving DecidableEq, Repr

/-- A tile register (R111, R112): data, strip poison, scale bytes, shape entry. -/
structure Tile where
  data : BitVec 8192 := 0
  pois : BitVec 32 := 0
  scales : List Byte := List.replicate 64 127
  entry : Word := 0x4000000000800F07
  deriving DecidableEq, Repr

/-- A write of TMOVG to a tile register (R124): element e of width w with its poison; scale word k; the
entry. -/
inductive TilePatch where
  | elem (w e v : Nat) (p : Bool)
  | scale (k : Nat) (v : Word)
  | entry (v : Word)
  deriving DecidableEq, Repr

/-- A tile register in use by an instruction in flight: a destination to be written, or a chain source
that it has emptied; `chain` when the register is a chain register, whose destination R117 claims. -/
structure Claim where
  tile : Nat
  slot : Nat
  write : Bool
  chain : Bool
  deriving DecidableEq, Repr

/-- A task descriptor (R139). -/
structure Desc where
  mig : Bool
  prio : BitVec 2
  tiles : BitVec 3
  pc : BitVec 56
  pois : BitVec 16
  resume : Bool
  ixk : BitVec 2
  index : BitVec 16
  pred : BitVec 16
  self : Word
  parent : Word
  carry : List Word
  deriving DecidableEq, Repr

/-- An entry of a translation cache (R220). -/
structure TlbEntry where
  ctx : BitVec 12
  /-- VA[55:16] of the page's first granule -/
  base : Nat
  leaf : Leaf
  use : Nat
  deriving DecidableEq, Repr

/-- What a posted store does at its place. -/
inductive StoreOp where
  /-- write the bytes -/
  | bytes
  /-- write 128 bytes of zero as clean granules (R272) -/
  | clear
  | red (op : RedOp) (w : Bool) (y : Word)
  deriving DecidableEq, Repr

/-- A write-buffer entry (R227): one store's bytes within one sector, in program order of the core. -/
structure WbEntry where
  id : Nat
  slot : Nat
  inst : Nat
  bank : Nat
  place : Place
  op : StoreOp
  /-- the local memory key, or the PA offset at the other module -/
  addr : Nat
  pa : Nat
  ea : Word
  bytes : List Byte
  /-- the poison bit of each 8-byte word touched -/
  poison : List Bool
  ver : Bool
  snap : Word
  tx : Word
  sup : Bool
  oflag : Bool
  /-- the instruction that made it: rows of one TST share it (R389) -/
  grp : Nat
  /-- packets sent: path and tag, and the time sent (R386, R388) -/
  sent : Option (Nat × Nat × Nat)
  deriving DecidableEq, Repr

/-- The format and rows of a plane (R289, R290). -/
structure Plane where
  rows : SMap (BitVec 2048) := []
  scales : SMap Byte := []
  fmt : LoomFmt := .f64
  count : Nat := 0
  deriving DecidableEq, Repr

/-- The mode of a vat (R289). -/
inductive VatMode where
  | none | l | x
  deriving DecidableEq, Repr

/-- A vat: 1,024 elements of 640 bits, x192 in the low 192 (R289). -/
structure Vat where
  mode : VatMode := .none
  elems : SMap Nat := []
  deriving DecidableEq, Repr

/-- The sequencer's state (R289, R348). -/
inductive Seq where
  | running | paused | stopped
  deriving DecidableEq, Repr

/-- The Loom of a core (R289). The point reached in a command paused or stopped lies in the progress
record of its block (R313). -/
structure Loom where
  warp : Plane := {}
  shadow : Plane := {}
  v0 : Vat := {}
  v1 : Vat := {}
  lc : SMap Word := []
  seq : Seq := .running
  code : Code := 0
  deriving DecidableEq, Repr

/-- A core. -/
structure Core where
  started : Bool := false
  returned : Bool := false
  resetAt : Nat := 0
  slotsize : Word := 0
  strands : SMap Strand := []
  tiles : SMap Tile := []
  claims : List Claim := []
  /-- the last whole write of a tile register: its cycle, the issue order of its writer, and that of the
  last writer of scale bytes in that cycle, 0 for none (R116) -/
  written : SMap (Nat × Nat × Nat) := []
  /-- the last cycle's writes of TMOVG to a tile register: cycle, issue order, and what it wrote (R116) -/
  moved : SMap (List (Nat × Nat × TilePatch)) := []
  layouts : SMap (BitVec 128) := []
  tags : SMap Word := []
  portQ : List PW := []
  owner : Option Nat := none
  /-- the park index of the owner while it is parked: its binding goes on (R135, R171; log 27) -/
  ownerPark : Option Nat := none
  discards : BitVec 32 := 0
  deque : List Desc := []
  arrivals : List Desc := []
  dqFill : Nat := 0
  arHead : Nat := 0
  arFill : Nat := 0
  /-- descriptors refused by a full arrival ring, held by their senders (R156) -/
  resend : List Desc := []
  probe : Word := 0
  backoff : Nat := 64
  due : Nat := 0
  counters : SMap Nat := []
  tvec : Word := 0
  xroot : Word := 0
  cctl : Word := 0
  ipend : Word := 0
  tcmp : Word := 0
  loomblk : Word := 0
  scrblk : Word := 0
  dqring : Word := 0
  arring : Word := 0
  tlb : List TlbEntry := []
  /-- sectors by PA, with the 128 bytes as fetched (R39) -/
  icache : SMap (List Byte) := []
  wb : List WbEntry := []
  loom : Loom := {}
  dbg : Word := 0
  corrected : Nat := 0
  /-- the descriptors whose tiles are being prefetched, oldest first, each with the slot held for it and how
  many tiles have landed (R330) -/
  prefetch : List (Desc × Nat × Nat) := []
  /-- the cycle of the core's last issue (R132) -/
  issued : Option Nat := none
  deriving DecidableEq, Repr

/-- An entry of a membership record (R177). -/
structure Member where
  addr : Word
  arr : Bool
  aphase : BitVec 32
  deriving DecidableEq, Repr

/-- A resident future entry with its membership record (R142, R177). -/
structure FutEntry where
  value : Word
  gen : BitVec 24
  kind : Byte
  refs : BitVec 16
  started : Bool
  cxreq : Bool
  state : BitVec 3
  head : Word
  tail : Word
  members : List Member
  dirty : Bool
  use : Nat
  deriving DecidableEq, Repr

/-- A hint of PREF that waits for a walk (R277): the core, the address and the level of the strand. -/
structure Pref where
  core : Nat
  va : Word
  sup : Bool
  deriving DecidableEq, Repr

/-- A walk in flight or queued (R221), with the strands that joined it. -/
structure Walk where
  ctx : BitVec 12
  granule : Nat
  root : Word
  waiters : List (Nat × Nat × Nat)
  /-- a TLBI was issued meanwhile: the leaf is delivered and not cached (R353) -/
  stale : Bool
  /-- cores that take the leaf into their translation cache -/
  cores : List Nat
  /-- hints that the leaf lets through (R277) -/
  prefs : List Pref
  deriving DecidableEq, Repr

/-- A send allowance (R390). -/
structure Allow where
  w : Nat := 64
  n : Nat := 0
  c : Nat := 0
  lastcut : Option Nat := none
  deriving DecidableEq, Repr

/-- What a task parked at supervisor level keeps beside its park record, which holds user state only
(R135; log 47). -/
structure ParkSup where
  priv : Bool := false
  epc : Word := 0
  cause : Word := 0
  tval : Word := 0
  estat : Word := 0
  kscr : Word := 0
  deriving DecidableEq, Repr

/-- A cluster. -/
structure Cluster where
  fut : SMap FutEntry := []
  parkbase : Word := 0
  futbase : Word := 0
  reeveblk : Word := 0
  /-- park indices in use (R136): one more than the number of the core whose task holds it -/
  parked : SMap Nat := []
  /-- logical slots whose entry has been lost (R152) -/
  lostSlots : SMap Bool := []
  /-- deliveries that came before their waiter had parked (R164): token, state, value -/
  early : List (Word × Nat × Word) := []
  /-- what the cluster keeps of a task parked for allowance, by park index (R391): the rows it has posted, and,
  while it is parked, its module × 65,536 and its place in park order × 2^25 -/
  parkRows : SMap Nat := []
  /-- the supervisor state of parked tasks, by park index (R135) -/
  parkSup : SMap ParkSup := []
  /-- pointer entries held by the walker, by (ctx, level, index path) (R221) -/
  ptrs : SMap Word := []
  /-- the walks in flight, 256 at most, and the misses that wait for one of them to end, in arrival
  order (R221) -/
  walks : List Walk := []
  walkQ : List Walk := []
  tdesc : SMap (Option (BitVec 256)) := []
  scrLast : SMap Code := []
  /-- the queue served last (R316) -/
  scrTurn : Nat := 24
  allow : SMap Allow := []
  /-- sectors in flight, by 4 × module + path (R388) -/
  flying : SMap Nat := []
  deriving DecidableEq, Repr

/-- An error met by a posted store, on its way to the core (R352). -/
structure StoreErr where
  core : Nat
  slot : Nat
  inst : Nat
  code : Code
  ea : Word
  deriving DecidableEq, Repr

/-- A request on its way to a serving place (R134, R210). -/
inductive ReqOp where
  | load
  | ldw
  | stw (d : PW)
  | amo (op : AmoOp) (w : Bool) (y : PW)
  | cas (w : Bool) (cmp : Word) (y : PW)
  | lrw
  | sch (y : Word)
  | xrd
  /-- a plain write to a versioned page, whose strand waits (R251) -/
  | write (op : StoreOp) (bytes : List Byte)
  /-- a request at a table port of another module: its code and operand, and the task it is for (R153) -/
  | future (code : Nat) (handle operand task : Word)
  /-- the membership record of a task whose future lies at another module, read or changed (R177) -/
  | members (handle : Word)
  | member (handle addr what : Word)
  /-- an operation on a barrier record of another module: its code, the barrier's address, the
  membership, and an operand or the waiter's token (R173) -/
  | barrier (code : Nat) (va mem operand : Word)
  /-- the release of a waiter of the barrier at `va` whose record lies at another module, by its token and
  with its outcome; the release goes on from there to the chain's tail (R173) -/
  | release (tok va v tail : Word) (ok : Bool)
  deriving DecidableEq, Repr

/-- A request with its requester. -/
structure Req where
  id : Nat
  core : Nat
  slot : Nat
  inst : Nat
  elem : Nat
  place : Place
  op : ReqOp
  addr : Nat
  pa : Nat
  ea : Word
  size : Nat
  ver : Bool
  snap : Word
  tx : Word
  /-- a write of an ordered-flag store (R389) -/
  oflag : Bool
  /-- order and cycle in which it began waiting at its place -/
  since : Nat
  cyc : Nat
  /-- waiting for a pool entry since the cycle given (R255) -/
  pool : Option Nat
  /-- sent to another module: path, tag, time (R386) -/
  sent : Option (Nat × Nat × Nat)
  /-- the packet that brought the request from another module -/
  pkt : Option Packet
  deriving DecidableEq, Repr

/-- A reply on its way back. -/
structure Reply where
  id : Nat
  core : Nat
  slot : Nat
  inst : Nat
  elem : Nat
  ans : Answer
  deriving DecidableEq, Repr

/-- A strand that waits in its slot for a future, a barrier or a feed queue (R134). -/
structure SlotWait where
  /-- 1 future, 2 barrier, 3 feed queue -/
  kind : Nat
  obj : Word
  core : Nat
  slot : Nat
  inst : Nat
  d : Reg
  q : Option Pred
  len : Nat
  pops : Bool
  /-- the waiter's token at another module, or 0 -/
  token : Word
  /-- the tail of the object's chain when it began waiting: it comes after that (R145) -/
  after : Word
  deriving DecidableEq, Repr

/-- A line held by the memory-side cache of its port (R211). -/
structure CLine where
  way : Nat
  dirty : Bool
  use : Nat
  deriving DecidableEq, Repr

/-- A memory port (R213, R214). -/
structure Port where
  range : SMap Word := []
  cnt : SMap Nat := []
  lines : SMap CLine := []
  deriving DecidableEq, Repr

/-- A value of a merge group with its storing strand, or the packet that brought it. -/
structure RedVal where
  v : Word
  core : Nat
  slot : Nat
  inst : Nat
  ea : Word
  pkt : Option Packet
  deriving DecidableEq, Repr

/-- A pending merge group of reductions at a port (R269). -/
structure Group where
  id : Nat
  port : Nat
  addr : Nat
  op : RedOp
  w : Bool
  vals : List RedVal
  deriving DecidableEq, Repr

/-- A reservation record (R273), in the order of its line's queue. A strand's record at another
module stands in the list of its own module too, by the line's PA there. -/
structure Resv where
  /-- PA div 128 -/
  line : Nat
  core : Nat
  slot : Nat
  inst : Nat
  /-- the LRW's request, while it is queued -/
  req : Option Nat
  granted : Option Nat
  intact : Bool
  deriving DecidableEq, Repr

/-- A version pool entry (R243), whose data lie in memory: the line's HBM offset, its stamp, the
transaction of a tentative version. A tentative version with a stamp has been committed, and its
exchange is due (R253). -/
structure PoolEntry where
  stamp : Word
  line : Nat
  tx : BitVec 16
  tentative : Bool
  /-- order in which the entry was taken (R254) -/
  born : Nat
  deriving DecidableEq, Repr

/-- A snapshot registry entry (R245). -/
structure Snap where
  stamp : Word := 0
  refs : Nat := 0
  deriving DecidableEq, Repr

/-- A transaction registry entry (R249). -/
structure Tx where
  rstamp : Word := 0
  cstamp : Word := 0
  future : Word := 0
  lines : Nat := 0
  cause : Byte := 0
  state : BitVec 2 := 0
  deriving DecidableEq, Repr

/-- The version unit (R240 to R258). -/
structure Versions where
  vclock : Word := 1
  vlow : Word := 1
  vpbase : Word := 0
  vpcount : Word := 0
  vreclaim : Word := 0
  pool : SMap (Option PoolEntry) := []
  snaps : SMap Snap := []
  txs : SMap Tx := []
  /-- doom notices on their way (R250) -/
  notices : List Nat := []
  /-- stamp of the newest version at a line's own address, 0 when unlisted (R240) -/
  stamps : SMap Word := []
  deriving DecidableEq, Repr

/-- A command of a Loom queue (R292, R295). -/
structure LoomCmd where
  instr : Instr
  word : BitVec 32
  core : Nat
  xroot : Word
  user : Bool
  a : Word
  b : Word
  mw : Option MW
  seed : Word
  rctr : Word
  groups : List (Word × Word)
  fut : Word
  records : Nat
  /-- it has been stopped or paused: the progress record holds the point reached (R313, R348) -/
  part : Bool := false
  deriving DecidableEq, Repr

/-- A copy of a Scrivener queue (R319): a form, its operands, its context. -/
structure CopyCmd where
  kind : Nat
  ops : List Word
  xroot : Word
  user : Bool
  core : Nat
  fut : Word
  /-- scratchpad words emptied at acceptance (R165, R321) -/
  emptied : List (Nat × Nat)
  /-- a tile of a prefetch: zero bytes appended (R329) -/
  pad : Nat
  /-- a tile of a prefetch: the descriptor entry as its prefetch read it when it began (R328), and whether
  its tile word is poisoned -/
  tile : Option (BitVec 256) := none
  bad : Bool := false
  /-- words have been asked for: the command is in progress -/
  begun : Bool := false
  deriving DecidableEq, Repr

/-- An engine queue by its block: the ring as last read, and what lies in it (R293, R317). -/
structure EngineQ (α : Type) where
  base : Word
  m : Nat
  cmds : List α
  deriving DecidableEq, Repr

/-- An indirect buffer whose INDIRECT has not completed (R373): its PA and count, the index of the next
packet, the INDIRECT's words, number and enabling, and the first nonzero code so far. -/
structure Indirect where
  pa : Nat
  count : Nat
  idx : Nat
  words : List Word
  pkt : BitVec 32
  era : Nat
  code : Code
  deriving DecidableEq, Repr

/-- A queue block of Dispatch (R358). -/
structure HQueue where
  base : Word := 0
  s : Nat := 4
  cbase : Word := 0
  tail : BitVec 32 := 0
  done : BitVec 32 := 0
  head : BitVec 32 := 0
  budget : Nat := 0
  e : Nat := 20
  prio : Nat := 0
  fn : Nat := 0
  en : Bool := false
  code : Code := 0
  inner : Nat := 0
  state : Nat := 0
  pkt : BitVec 32 := 0
  adm : Nat := 0
  ep : Option Nat := none
  /-- enablings so far: packets taken before one keep their own number -/
  era : Nat := 0
  /-- indirect buffers not completed; the last one may have packets left -/
  inds : List Indirect := []
  /-- the packets that retries run before the head, oldest first, with their index in a buffer (R370) -/
  redo : List (BitVec 32 × Option Nat) := []
  /-- of the stopping packet: how far a skip moves head or the buffer's index, and done (R370) -/
  skip : Nat × Nat := (0, 0)
  /-- the stopping packet lies in an indirect buffer -/
  inBuf : Bool := false
  /-- the stopping packet had been taken -/
  taken : Bool := false
  deriving DecidableEq, Repr

/-- A feed block (R372) with the FPOPs parked on it. -/
structure FeedQ where
  en : Bool := false
  base : Word := 0
  f : Nat := 4
  ftail : BitVec 32 := 0
  fhead : BitVec 32 := 0
  closing : Word := 0
  /-- park records of the poppers, oldest first; 0 stands for a strand waiting in its slot -/
  poppers : List (Word × Nat) := []
  deriving DecidableEq, Repr

/-- A packet admitted, in the heap, or taken and not completed (R364 to R368). -/
structure Job where
  q : Nat
  era : Nat
  words : List Word
  pkt : BitVec 32
  inner : Option Nat
  /-- a packet run again by a retry -/
  again : Bool
  seq : Nat
  /-- the root future of a launch that has been placed -/
  fut : Option Word
  /-- a launch that has waited for its cluster, or what a FUTWAIT was answered -/
  ans : Option (Word × Bool)
  deriving DecidableEq, Repr

/-- Dispatch (R357 to R376). -/
structure Dispatch where
  queues : SMap HQueue := []
  sems : SMap Word := []
  feeds : SMap FeedQ := []
  /-- admitted and waiting for room in the heap, in the order in which they became ready -/
  ready : List Job := []
  heap : List Job := []
  launches : List Job := []
  copies : List Job := []
  futwaits : List Job := []
  semwaits : List Job := []
  msix : List (Nat × Nat) := []
  seq : Nat := 0
  deriving DecidableEq, Repr

/-- A fabric link (R385, R402). -/
structure Link where
  peer : BitVec 9 := 0
  peerLink : Nat := 0
  state : Nat := 0
  retrains : Nat := 0
  errors : Nat := 0
  deriving DecidableEq, Repr

/-- The subsystems that the classes 1 to 14 of a fault code name (R333). -/
inductive Subsystem where
  | strand | memoryError | supervisor | dispatch | host | tasking | translation | versioned | ports
  | fabric | loom | scrivener | management | envelope
  deriving DecidableEq, Repr

/-- An entry of the fault history (R402). -/
structure FaultRec where
  time : Word
  code : Code
  loc : BitVec 16
  v : BitVec 32
  deriving DecidableEq, Repr

/-- An HBM stack as the census shows it (R402). -/
structure Stack where
  state : Nat := 0
  corrected : Nat := 0
  uncorrectable : Nat := 0
  temp : Nat := 0
  deriving DecidableEq, Repr

/-- A die boundary as the census shows it (R402). -/
structure Boundary where
  state : Nat := 0
  replays : Nat := 0
  deriving DecidableEq, Repr

/-- Paltis: the census and the control block (R397 to R415). -/
structure Manage where
  gen : Nat := 0
  updated : Word := 0
  revision : Byte := 0
  ready : BitVec 21 := 0
  boundaries : SMap Boundary := []
  links : SMap Link := []
  hbm : SMap Stack := []
  corrected : SMap Nat := []
  /-- events that are only counted, by code -/
  counts : SMap Nat := []
  history : List FaultRec := []
  written : Nat := 0
  drainModule : Nat := 0
  drainDie : SMap Nat := []
  drainCluster : SMap Nat := []
  accept : BitVec 256 := 0
  lock : Bool := false
  broot : Word := 0
  bvec : Word := 0
  start : BitVec 4 := 0
  windows : SMap Word := []
  image : List Byte := []
  update : Option (List Byte) := none
  running : Bool := false
  mgmtOnly : Bool := false
  spdm : List (List Byte) := []
  throttled : Bool := false
  stopped : Bool := false
  deriving DecidableEq, Repr

/-- A read of the device-register region from outside (R397, R399): by whom, at which offset of its BAR (of the
module's map for the management port), and of how many bytes. -/
structure HostRead where
  who : Agent
  at_ : Nat
  bytes : Nat
  deriving DecidableEq, Repr

/-- Which strand issues, and the instruction word it issues (the model's own record, not the spec's). -/
structure Issue where
  core : Nat := 0
  slot : Nat := 0
  len : Nat := 4
  mw : Option MW := none
  word : Word := 0
  /-- the instruction issued, and whether it takes the head word of the port (R170) -/
  instr : Instr := .modifierWord ⟨0, 0, 0, 0, false, false, false, false, false, 0⟩
  pops : Bool := false
  deriving DecidableEq, Repr

/-- The state of a module. -/
structure State where
  /-- the module's number (R27; log 5) -/
  modNo : BitVec 9
  /-- the clock in cycles; device time is a quarter of it (R9; log 4) -/
  now : Nat
  issue : Issue
  /-- counter for free values and choices (log 3) -/
  fresh : Nat
  /-- numbers given to requests, bindings and stores -/
  nextId : Nat
  /-- inputs from outside not yet taken (log 15) -/
  inbox : List Instr
  /-- reads from outside not yet taken, and the answers of those taken (R397, R399; log 15) -/
  hostReads : List HostRead := []
  hostAnswers : List (HostRead × List Byte) := []
  /-- memory by key: see `spadKey`; unlisted bytes read 0 (log 1) -/
  mem : List Host.Cell
  /-- poisoned 32-byte granules of HBM, by offset div 32 (R212) -/
  hbmPoison : SMap Bool
  /-- poisoned scratchpad words, by core × 131072 + word (R202) -/
  spadPoison : SMap Bool
  /-- empty tags, by core × 131072 + word (R165) -/
  empty : SMap Bool
  /-- errors that a read will find, by memory key div 8 (R202, R211, R212): 1 one bit, 2 uncorrectable,
  3 uncorrectable in a clean cached line, 4 an uncorrectable tag -/
  latent : SMap Nat
  cores : SMap Core
  clusters : SMap Cluster
  ports : SMap Port
  reqs : List Req
  replies : List Reply
  slotWaits : List SlotWait
  groups : List Group
  resv : List Resv
  errors : List StoreErr
  ver : Versions
  loomQ : SMap (EngineQ LoomCmd)
  scrQ : SMap (EngineQ CopyCmd)
  disp : Dispatch
  routes : SMap Word
  /-- packets that have set out, each with the link whose output queue it has entered (R383) -/
  fabricOut : List (Nat × Packet)
  /-- links of waiters whose park records lie on other modules, by token (R137) -/
  farLinks : SMap Word
  /-- descriptors sent by GO to cores of other modules: module, core there, descriptor (R161) -/
  migrations : List (Nat × Nat × Desc)
  nextTag : Nat
  man : Manage
  deriving DecidableEq, Repr

/-- The module right after reset: every unit at its reset value, nothing in memory, no core started
(R40, R142, R240, R289, R358, R404, R414). -/
def State.reset : State :=
  { modNo := 0, now := 0, issue := {}, fresh := 0, nextId := 1, inbox := [], mem := [],
    hbmPoison := [], spadPoison := [], empty := [], latent := [], cores := [], clusters := [],
    ports := [], reqs := [], replies := [], slotWaits := [], groups := [], resv := [], errors := [], ver := {},
    loomQ := [], scrQ := [], disp := {}, routes := [], fabricOut := [], farLinks := [], migrations := [],
    nextTag := 0, man := {} }

end Sys2Proof.Machine
end

