-- ==== Sys2Proof/Machine/Ops.lean ====
section
/-! DEFINITION. The shared operations: parts of the state, registers, memory bytes, fault records,
free choices, the results of an instruction, taking a trap and returning from one. -/

namespace Sys2Proof.Machine

/-- What exec answers. -/
abbrev Out := Host.Outcome State Fault Refusal

/-! ### Parts of the state -/

/-- Core `n` by its module-wide number (R397). -/
def State.core (s : State) (n : Nat) : Core := SMap.get s.cores {} n

def State.setCore (s : State) (n : Nat) (c : Core) : State :=
  { s with cores := SMap.put s.cores {} n c }

/-- Strand slot `k` of core `n`. -/
def State.strand (s : State) (n k : Nat) : Strand := SMap.get (s.core n).strands {} k

def Core.setStrand (c : Core) (k : Nat) (t : Strand) : Core :=
  { c with strands := SMap.put c.strands {} k t }

def State.setStrand (s : State) (n k : Nat) (t : Strand) : State :=
  s.setCore n ((s.core n).setStrand k t)

/-- The issuing strand. -/
def State.me (s : State) : Strand := s.strand s.issue.core s.issue.slot

def State.setMe (s : State) (t : Strand) : State := s.setStrand s.issue.core s.issue.slot t

/-- The core of the issuing strand. -/
def State.myCore (s : State) : Core := s.core s.issue.core

def State.setMyCore (s : State) (c : Core) : State := s.setCore s.issue.core c

def State.cluster (s : State) (c : Nat) : Cluster := SMap.get s.clusters {} c

def State.setCluster (s : State) (c : Nat) (k : Cluster) : State :=
  { s with clusters := SMap.put s.clusters {} c k }

def State.port (s : State) (q : Nat) : Port := SMap.get s.ports {} q

def State.setPort (s : State) (q : Nat) (p : Port) : State :=
  { s with ports := SMap.put s.ports {} q p }

/-- The cluster 24 × die + cluster of a core (R397). -/
def clusterOf (core : Nat) : Nat := core / 24

/-- The die of a cluster (R3). -/
def dieOf (cluster : Nat) : Nat := cluster / 24

/-- The cluster of the issuing strand. -/
def State.myCluster (s : State) : Nat := clusterOf s.issue.core

/-- Downstream neighbour in the ring of the cluster's cores (R169). -/
def downstream (core : Nat) : Nat := 24 * (core / 24) + (core % 24 + 1) % 24

/-- Device time in ns (R9). -/
def State.time (s : State) : Word := BitVec.ofNat 64 (s.now / 4)

/-! ### Free values and choices (log 3) -/

/-- A free number below `n`, with the state that has used it. -/
def State.choose (s : State) (n : Nat) : Nat × State :=
  (if n ≤ 1 then 0 else Config.pick s.fresh % n, { s with fresh := s.fresh + 1 })

/-- A number not given before. -/
def State.newId (s : State) : Nat × State := (s.nextId, { s with nextId := s.nextId + 1 })

/-! ### Bytes and words (R8) -/

/-- A little-endian number. -/
def leNat : List Byte → Nat
  | [] => 0
  | b :: r => b.toNat + 256 * leNat r

/-- The low `n` bytes of a number, little-endian. -/
def leBytes : Nat → Nat → List Byte
  | 0, _ => []
  | n + 1, v => BitVec.ofNat 8 v :: leBytes n (v / 256)

def leWord (bs : List Byte) : Word := BitVec.ofNat 64 (leNat bs)

/-- Bits [hi:lo] of a word, as a number. -/
def bits (w : Word) (hi lo : Nat) : Nat := w.toNat / 2 ^ lo % 2 ^ (hi + 1 - lo)

/-- Memory key of byte `off` of the scratchpad of `core`; HBM, device and host bytes have their
local offset as key (R207). -/
def spadKey (core off : Nat) : Nat := 2 ^ 50 + core * 2 ^ 20 + off

/-- One byte of memory (log 1: an unlisted byte reads 0). -/
def State.byte (s : State) (k : Nat) : Byte := SMap.get s.mem 0 k

/-- The canonical form of memory: addresses strictly rising, and no byte listed that is 0. -/
def Memory.wf (m : List Host.Cell) : Bool := SMap.wf m 0

/-- Memory with byte `k` written. -/
def putByte (m : List Host.Cell) (k : Nat) (b : Byte) : List Host.Cell := SMap.put m 0 k b

/-- Memory with bytes written from `k` on. -/
def putBytes (m : List Host.Cell) (k : Nat) : List Byte → List Host.Cell
  | [] => m
  | b :: r => putBytes (putByte m k b) (k + 1) r

def State.bytes (s : State) (k : Nat) : Nat → List Byte
  | 0 => []
  | n + 1 => s.byte k :: s.bytes (k + 1) n

def State.putBytes (s : State) (k : Nat) (bs : List Byte) : State :=
  { s with mem := Machine.putBytes s.mem k bs }

/-- The 8-byte word at key `k`. -/
def State.word (s : State) (k : Nat) : Word := leWord (s.bytes k 8)

def State.putWord (s : State) (k : Nat) (v : Word) : State := s.putBytes k (leBytes 8 v.toNat)

/-! ### Fault codes (R14, R16, R333) -/

/-- The grade of a fault code, bits [15:13]. -/
def codeGrade (c : Code) : Nat := (c.extractLsb' 13 3).toNat

/-- The class of a fault code, bits [12:8]. -/
def codeClass (c : Code) : Nat := (c.extractLsb' 8 5).toNat

/-- The subsystem that the class of a fault code names; none for classes 0 and 15 to 31, which the device
never emits (R333). -/
def codeSubsystem (c : Code) : Option Subsystem :=
  [none, some .strand, some .memoryError, some .supervisor, some .dispatch, some .host, some .tasking,
   some .translation, some .versioned, some .ports, some .fabric, some .loom, some .scrivener,
   some .management, some .envelope].getD (codeClass c) none

/-- The highest grade among a set of history entries (R16, R402): the grade summary of a job, a queue, a
cluster or the module, whose set of entries it is. -/
def gradeSummary : List FaultRec → Nat
  | [] => 0
  | r :: l => max (codeGrade r.code) (gradeSummary l)

/-- The grade summary of the entries of the fault history that `p` picks (R402). -/
def State.summary (s : State) (p : FaultRec → Bool) : Nat := gradeSummary (s.man.history.filter p)

/-! ### The fault history (R16, R402) -/

/-- Adds an entry, newest first; entries of one device time stand in ascending order of code. -/
def addRecord (r : FaultRec) : List FaultRec → List FaultRec
  | [] => [r]
  | x :: l => if x.time = r.time ∧ r.code < x.code then x :: addRecord r l else r :: x :: l

/-- Records a fault event (R402); the last 4,096 entries are kept. -/
def State.record (s : State) (code : Code) (loc : Nat) (v : Nat) : State :=
  let r : FaultRec := ⟨s.time, code, BitVec.ofNat 16 loc, BitVec.ofNat 32 v⟩
  { s with man := { s.man with history := (addRecord r s.man.history).take 4096,
                               written := s.man.written + 1, gen := s.man.gen + 2,
                               updated := s.time } }

/-- Counts an event that enters no history (R284, R402). -/
def State.tally (s : State) (code : Code) : State :=
  let n := SMap.get s.man.counts 0 code.toNat
  { s with man := { s.man with counts := SMap.put s.man.counts 0 code.toNat (n + 1) } }

/-- A core's counter of R179 raised by `n`, modulo 2^32. -/
def Core.count (c : Core) (w n : Nat) : Core :=
  { c with counters := SMap.put c.counters 0 w ((SMap.get c.counters 0 w + n) % 2 ^ 32) }

def State.count (s : State) (core w n : Nat) : State := s.setCore core ((s.core core).count w n)

/-! ### Registers (R19, R20, R170) -/

/-- A general register as it stands. -/
def Strand.reg (t : Strand) (r : Reg) : PW := SMap.get t.g ⟨0, false⟩ r.toNat

def Strand.setReg (t : Strand) (r : Reg) (x : PW) : Strand :=
  { t with g := SMap.put t.g ⟨0, false⟩ r.toNat x }

/-- Predicate n; p0 reads 1 (R20). -/
def Strand.p (t : Strand) (n : Pred) : Bool := n == 0 || t.pred.getLsbD n.toNat

/-- Predicate n written; a write to p0 is discarded (R20). -/
def Strand.setP (t : Strand) (n : Pred) (b : Bool) : Strand :=
  if n = 0 then t
  else
    let m := BitVec.ofNat 16 (2 ^ n.toNat)
    { t with pred := if b then t.pred ||| m else t.pred &&& ~~~m }

/-- A source register of the issuing strand: in port mode g30 is the head of the inbound queue. -/
def State.g (s : State) (r : Reg) : PW :=
  if s.me.pmode && r == 30 then s.myCore.portQ.headD ⟨0, false⟩ else s.me.reg r

/-- The value of a source register. -/
def State.gv (s : State) (r : Reg) : Word := (s.g r).v

/-- The poison bit of a source register. -/
def State.gp (s : State) (r : Reg) : Bool := (s.g r).p

/-- A destination written: in port mode g31 pushes into the downstream queue. -/
def State.setG (s : State) (d : Reg) (v : Word) (p : Bool) : State :=
  if s.me.pmode && d == 31 then
    let n := downstream s.issue.core
    let c := s.core n
    s.setCore n { c with portQ := c.portQ ++ [⟨v, p⟩] }
  else s.setMe (s.me.setReg d ⟨v, p⟩)

def State.p (s : State) (n : Pred) : Bool := s.me.p n

def State.setP (s : State) (n : Pred) (b : Bool) : State := s.setMe (s.me.setP n b)

/-- The register after `r` in a group (R45). -/
def Reg.plus (r : Reg) (n : Nat) : Reg := BitVec.ofNat 5 (r.toNat + n)

/-! ### Results of an instruction -/

/-- How an instruction ends. -/
inductive Res where
  /-- it completes, and the next instruction follows -/
  | done (s : State)
  /-- it completes, and the pc is as given -/
  | jump (s : State) (pc : Word)
  /-- it traps (R80): `s` is the state before it -/
  | trap (s : State) (cause : BitVec 5) (code : Code) (v : Word)
  /-- it waits and is issued again when what it waits for may hold (R134) -/
  | hold (s : State) (on : WaitOn) (got : List (Nat × Answer))
  /-- it waits for `n` answers -/
  | await (s : State) (n : Nat) (got : List (Nat × Answer))
  /-- the strand has left its slot, or the result is already whole -/
  | gone (s : State)
  deriving DecidableEq, Repr

/-- The traps of R334 by name, with their code. -/
def Res.illegal (s : State) : Res := .trap s 0 0x6101 s.issue.word
def Res.privilege (s : State) : Res := .trap s 1 0x6102 s.issue.word
def Res.operand (s : State) (v : Word) : Res := .trap s 2 0x6103 v
def Res.address (s : State) (v : Word) : Res := .trap s 3 0x6104 v
def Res.contain (s : State) (v : Word) : Res := .trap s 4 0x2105 v
def Res.misalign (s : State) (v : Word) : Res := .trap s 5 0x6106 v
def Res.reserved (s : State) (v : Word) : Res := .trap s 6 0x6107 v
def Res.stale (s : State) (v : Word) : Res := .trap s 12 0x6604 v
def Res.exhausted (s : State) (code : Code) : Res := .trap s 13 code 0

/-- Containment with a register number as v (R88, R352). -/
def Res.poisoned (s : State) (r : Reg) : Res := .contain s (r.setWidth 64)

/-- The answers the issuing instruction has got. -/
def State.got (s : State) : List (Nat × Answer) :=
  match s.me.flight with
  | some f => f.got
  | none => []

/-- The answer of element `n`. -/
def State.answer (s : State) (n : Nat) : Option Answer :=
  (s.got.find? (fun x => x.1 == n)).map (·.2)

/-- What an instruction that has issued keeps lies in its answers from this number on (R109, R116): that
its checks have passed, with the order of its issue; the entries done; the data; the index tile; the
group of its entries. -/
abbrev keepAt : Nat := 2 ^ 20

/-- What an instruction that is held keeps under a number of its own, beside its answers: 6 the PA of a
barrier record (R197), 7 the offset that a LOOKUP hit (R278), 8 a layout (R99). -/
def keepIn (n x : Nat) (got : List (Nat × Answer)) : List (Nat × Answer) :=
  if got.any fun y => y.1 == keepAt + n then got else got ++ [(keepAt + n, .note x)]

/-- What the issuing instruction has kept under a number. -/
def State.kept (s : State) (n : Nat) : Option Nat :=
  match s.answer (keepAt + n) with
  | some (.note x) => some x
  | _ => none

/-- An instruction that is held keeps a number. -/
def Res.keeps (n x : Nat) : Res → Res
  | .hold s on got => .hold s on (keepIn n x got)
  | .await s k got => .await s k (keepIn n x got)
  | r => r

/-- The instruction has passed its checks and issued. -/
def State.passed (s : State) : Bool := (s.answer keepAt).isSome

/-- The order of the instruction's issue. -/
def State.issueOrder (s : State) : Nat :=
  match s.answer keepAt with
  | some (.note n) => n
  | _ => s.nextId

/-! ### Taking a trap and returning (R339 to R342) -/

/-- The length code of sr.estat.ilen (R336); 2 for the 6 bytes of a refused pair of a modifier word and a
16-bit word too, which R336 does not code (log 56). -/
def ilenOf (len : Nat) : Word := if len = 2 then 0 else if len = 4 then 1 else 2

/-- The length an ilen gives. -/
def lenOf (ilen : Nat) : Nat := if ilen = 0 then 2 else if ilen = 1 then 4 else 8

/-- An address with bit 0 clear, as the program counter holds it (R18). -/
def evenPc (w : Word) : Word := w &&& ~~~1

/-- sr.tvec.entry as an address. -/
def vecEntry (tvec : Word) : Word := tvec &&& 0x00FFFFFFFFFFFFFE

/-- The strand of a slot entered bare: every register 0 (R347, R414). -/
def bareStrand : Strand := { shape := 0 }

/-- The strand of a slot that holds no task: one entered bare (R341, R347, R414; log 54). -/
def Strand.taskless (t : Strand) : Bool := t.estat.getLsbD 6 || t.task == 0

/-- The registers of a strand that takes a trap (R339); `bare` and `intr` as R347 and R414 set them. -/
def Strand.enter (t : Strand) (tvec : Word) (cause : BitVec 5) (code : Code) (v : Word) (pc : Word)
    (len : Nat) (intr bare : Bool) : Strand :=
  { t with
    epc := pc
    cause := BitVec.ofNat 64 (code.toNat * 2 ^ 16 + cause.toNat)
    tval := v
    estat := (if bare then 0x40 else 0) ||| (if intr then 0x20 else 0) |||
      (if t.priv then 0x10 else 0) ||| (ilenOf len <<< 2)
    priv := true
    pc := vecEntry tvec
    st := .ready
    flight := none
    walked := []
    fetchWait := none }

/-- The causes that enter the fault history (R402): all but the software trap, the breakpoint and
the interrupt. -/
def recorded (cause : BitVec 5) : Bool := !(cause == 17 || cause == 18 || cause == 31)

/-- A trap on the strand in slot `k` of core `n` at address `pc`. A trap at supervisor level with ok
clear is a double trap (R342). -/
def State.trap (s : State) (n k : Nat) (cause : BitVec 5) (code : Code) (v : Word) (pc : Word)
    (len : Nat) : State :=
  let t := s.strand n k
  let s := if recorded cause then s.record code n v.toNat else s
  if t.priv && !t.estat.getLsbD 7 then
    let c := s.core n
    let w := (c.dbg &&& ~~~0x0000000001F00000) ||| 0x40000000 |||
      BitVec.ofNat 64 (k * 2 ^ 20)
    ((s.setCore n { c with dbg := w }).setStrand n k
      { t with st := .halted, flight := none, walked := [], fetchWait := none }).record 0x6302 n v.toNat
  else s.setStrand n k (t.enter (s.core n).tvec cause code v pc len false false)

/-- The pc that ERET takes for acts 0 and 1 (R340), its bit 0 clear (R18). -/
def Strand.returnPc (t : Strand) : Word :=
  evenPc (if bits t.estat 1 0 = 1 then t.epc + BitVec.ofNat 64 (lenOf (bits t.estat 3 2)) else t.epc)

/-- A slot given up: nothing of an instruction is left, and the registers stand until the next task is
bound to it (R40, R162). -/
def Strand.freed (t : Strand) : Strand :=
  { t with st := .free, flight := none, walked := [], fetchWait := none, err := none, failed := none,
           posted := [], last := none }

/-- The state after an ERET of act 0 or 1 on the issuing strand (R340): level and pc restored, hold
cleared after an interrupt, a bare slot freed. -/
def State.eretReturn (s : State) : State :=
  let t := s.me
  let c := s.myCore
  let intr := t.estat.getLsbD 5
  let bare := t.estat.getLsbD 6
  let c := if intr then { c with cctl := c.cctl &&& ~~~1 } else c
  let c := if bare then { c with returned := true } else c
  (s.setMyCore c).setMe
    (if bare then t.freed else
      { t with pc := t.returnPc, priv := t.estat.getLsbD 4, flight := none, walked := [] })

/-! ### Ending an instruction -/

/-- The head word of the port is removed when an instruction that named g30 completes (R170). -/
def State.popPort (s : State) : State :=
  if s.issue.pops then
    let c := s.myCore
    s.setMyCore { c with portQ := c.portQ.drop 1 }
  else s

/-- The issuing strand completes its instruction and stands at `pc`. -/
def State.retire (s : State) (pc : Word) : State :=
  let s := s.popPort
  let t := s.me
  let rest := if t.priv then t.posted.filter (fun x => x.1 != t.pc) else []
  s.setMe { t with pc := pc, st := .ready, flight := none, walked := [], fetchWait := none,
                   posted := rest }

/-- The address after the issuing instruction. -/
def State.nextPc (s : State) : Word := s.me.pc + BitVec.ofNat 64 s.issue.len

/-- A wait before the issue: the instruction issues afresh once it may (R117, R391). -/
def WaitOn.unissued : WaitOn → Bool
  | .chain _ | .allowance _ => true
  | _ => false

/-- sr.xroot as the issuing instruction has it: that of its issue, whatever is written while it is held
(R215). -/
def State.root (s : State) : Word :=
  match s.me.flight with
  | some f => f.root
  | none => s.myCore.xroot

/-- The cycle in which the issuing instruction issued (R28). -/
def State.issuedAt (s : State) : Nat :=
  match s.me.flight with
  | some f => f.at_
  | none => s.now

/-- The flight of the issuing instruction: a wait for the same thing keeps its place in the order. -/
def State.flying (s : State) (on : WaitOn) (out : Nat) (got : List (Nat × Answer)) : Flight :=
  let same := match s.me.flight with
    | some f => if f.on = on then some (f.since, f.cyc) else none
    | none => none
  { instr := s.issue.instr, mw := s.issue.mw, len := s.issue.len, word := s.issue.word, on := on,
    since := (same.map (·.1)).getD s.nextId, cyc := (same.map (·.2)).getD s.now, out := out,
    got := got, root := s.root, at_ := s.issuedAt }

/-- The state a result leaves. -/
def Res.state : Res → State
  | .done s => s.retire s.nextPc
  | .jump s pc => s.retire pc
  | .trap s cause code v => s.trap s.issue.core s.issue.slot cause code v s.me.pc s.issue.len
  | .hold s on got =>
    { s.setMe { s.me with st := .waiting, flight := some (s.flying on 0 got) } with
      nextId := s.nextId + 1 }
  | .await s n got =>
    { s.setMe { s.me with st := .waiting, flight := some (s.flying .answers n got) } with
      nextId := s.nextId + 1 }
  | .gone s => s

/-- An event: nothing happens once the module has stopped (R415). -/
def event (s : State) (k : State) : Out :=
  if s.man.stopped then .fault .moduleStopped else .next k

end Sys2Proof.Machine
end

