-- ==== Sys2Proof/Machine/Operands.lean ====
section
/-! DEFINITION. What stands around every instruction: the registers it names (R170), its guard,
its privilege, the features it needs, and the operand forms and modifier fields it reads. -/

namespace Sys2Proof.Machine

/-- `n` registers from `r` on (R45). -/
def Reg.group (r : Reg) (n : Nat) : List Reg := (List.range n).map (Reg.plus r)

/-- The registers an instruction names as sources and as destinations. The groups of FPACK and FUNPACK
are known only at execution, and are tested there (R170). -/
def named : Instr → List Reg × List Reg
  | .add _ d a b | .sub _ d a b | .mul _ d a b | .mulhi _ d a b | .mulhn _ d a b | .div _ d a b
  | .divn _ d a b | .rem _ d a b | .remn _ d a b | .min _ d a b | .max _ d a b | .minn _ d a b
  | .maxn _ d a b | .and _ d a b | .or _ d a b | .xor _ d a b | .andn _ d a b
  | .shlRegister _ d a b | .shrRegister _ d a b | .shaRegister _ d a b | .rotRegister _ d a b
  | .sel _ d _ a b | .lea _ d a b _ | .fadd _ _ d a b | .fsub _ _ d a b | .fmul _ _ d a b
  | .fdiv _ _ d a b | .fmin _ _ d a b | .fmax _ _ d a b | .ldIndexed _ _ d a b
  | .amo _ _ _ d a b => ([a, b], [d])
  | .mov _ d a | .clz _ d a | .ctz _ d a | .popc _ d a | .brev _ d a | .bswap _ d a
  | .mix64 _ d a | .addi _ d a _ | .andi _ d a _ | .ori _ d a _ | .xori _ d a _
  | .shlImmediate _ d a _ | .shrImmediate _ d a _ | .shaImmediate _ d a _
  | .rotImmediate _ d a _ | .jmpl _ d a _ | .fext _ d a _ _ | .fsqrt _ _ d a | .fcvt _ _ _ d a
  | .frnd _ _ d a | .fclass _ _ d a | .ld _ _ d a _ | .ldaN32 _ d a | .ldaN64 _ d a
  | .xrdF32 _ d a | .xrdF64 _ d a | .lrw _ d a | .lookup _ d a | .alw _ d a _ | .spawn _ d a
  | .spawnq _ d a _ | .touch _ d a | .touchq _ d a _ | .fstat _ d a | .ldw _ d a
  | .bwait _ d a _ | .fpop _ d a | .fpopq _ d a _ | .cqstat _ d a => ([a], [d])
  | .fins _ d a _ _ => ([a, d], [d])
  | .cmp _ _ _ a b | .fcmp _ _ _ _ a b | .strN32 _ a b | .strN64 _ a b | .sch _ _ a b
  | .tagset _ a b | .red _ _ _ a b | .resolve _ a b | .poison _ a b | .stw _ a b
  | .bexpect _ a b | .wld _ _ _ a b | .weft _ _ _ _ a b | .vrd _ _ _ a b
  | .lgrp _ _ _ _ a b | .tlbi _ a b | .tld _ _ a b | .tst _ _ a b
  | .tmovgWrite _ _ a b => ([a, b], [])
  | .cmpi _ _ _ a _ | .jmp _ a _ | .layout _ _ a | .swr _ _ a | .swrp _ _ a | .xclr _ a
  | .tagclr _ a | .pref _ a | .snapx _ a | .cancel _ a | .fhold _ a | .fdrop _ a | .go _ a
  | .exit _ a | .pbind _ a | .bjoin _ a | .barv _ a | .bleave _ a | .tdset _ _ a
  | .vadd _ _ a | .lloop _ _ a | .lres _ a | .tldi _ _ _ a | .tsti _ _ _ a | .tsplat _ _ a
  | .ctxsv _ a | .ctxld _ a => ([a], [])
  | .movwZ d _ _ | .movwS d _ _ | .addpc d _ => ([], [d])
  | .movwK d _ _ => ([d], [d])
  | .brl _ _ => ([], [29])
  | .srd _ d _ | .srdp _ d _ | .snap _ d | .txs _ d | .self _ d | .pstat _ d | .lfut _ d
  | .lstat _ d => ([], [d])
  | .fmaF64 _ d a b c | .fmaF32 _ d a b c => ([a, b, c], [d])
  | .casN32 _ d a b | .casN64 _ d a b => ([a, b, d], [d])
  | .st _ _ d a _ => ([a, d], [])
  | .stIndexed _ _ d a b => ([a, b, d], [])
  | .ldp _ d a _ => ([a], Reg.group d 2)
  | .stp _ d a _ => (a :: Reg.group d 2, [])
  | .cpy _ d a => (Reg.group a 3, [d])
  | .cpy2 _ d a => (Reg.group a 6, [d])
  | .cpyg _ d a => (Reg.group a 4, [d])
  | .tmovgRead _ _ a b => ([b], [a])
  | .fpack _ d _ _ => ([], [d])
  | .funpack _ _ a _ => ([a], [])
  | _ => ([], [])

/-- The port rules of R170 over lists of sources and destinations, for a strand in port mode: the
register misused, 30 before 31. -/
def portMisuse (owns : Bool) (src dst : List Reg) : Option Word :=
  if dst.contains 30 || (!owns && src.contains 30) then some 30
  else if src.contains 31 || (!owns && dst.contains 31) then some 31
  else none

/-- The issuing strand owns its core's port (R169); an owner that is parked holds no slot. -/
def State.ownsPort (s : State) : Bool :=
  s.myCore.ownerPark.isNone && s.myCore.owner == some s.issue.slot

/-- The guard of the issuing strand's instruction passes (R21). -/
def State.passes (s : State) (g : Guard) : Bool := s.p g.n != g.inv

/-- A feature bit has been accepted (R410). -/
def State.feature (s : State) (bit : Nat) : Bool := s.man.accept.getLsbD bit

/-- A Loom format of R410's feature 4. -/
def narrowLoom : LoomFmt → Bool
  | .f8e4 | .f8e5 | .f4 => true
  | .f64 | .f32 | .bf16 | .f16 | .i8 => false

/-- The features an instruction needs (R410): without one it takes the illegal-instruction trap. -/
def featureOk (s : State) : Instr → Bool
  | .snap .. | .snapx .. | .txb .. | .txc .. | .txa .. | .txs .. => s.feature 2
  | .red _ _ .exact _ _ | .xrdF32 .. | .xrdF64 .. | .xclr .. => s.feature 3
  | .wld _ f _ _ _ | .weft _ f _ _ _ _ | .vrd _ f _ _ _ | .lgrp _ f _ _ _ _ =>
    !narrowLoom f || s.feature 4
  | _ => true

/-- Layout `lay` of the issuing strand's core as a field instruction reads it: as it stood in the cycle of its
issue (R99). -/
def State.layout (s : State) (lay : BitVec 4) : Nat :=
  (s.kept 8).getD (SMap.get s.myCore.layouts 0 lay.toNat).toNat

/-- What a field instruction held at a port keeps: its layout (R99; log 32). -/
def State.keptLayout (s : State) : List (Nat × Answer) :=
  match s.issue.instr with
  | .fext _ _ _ lay _ | .fins _ _ _ lay _ | .fpack _ _ _ lay | .funpack _ _ _ lay =>
    keepIn 8 (s.layout lay) s.got
  | _ => s.got

/-- The port rules of R170 around an instruction that names these registers: misuse traps, an empty
or a full queue is waited for, and a word read is popped when the instruction completes. -/
def portGate (s : State) (src dst : List Reg) (body : State → Res) : Res :=
  if !s.me.pmode then body s
  else match portMisuse s.ownsPort src dst with
    | some v => .operand s v
    | none =>
      if src.contains 30 && s.myCore.portQ.isEmpty then .hold s .portIn s.keptLayout
      else if dst.contains 31 && (s.core (downstream s.issue.core)).portQ.length ≥ 8 then
        .hold s .portOut s.keptLayout
      else body { s with issue := { s.issue with pops := src.contains 30 } }

/-- The checks before an instruction's own (R21, R33, R170, R410), and then its own meaning. -/
def begin (i : Instr) (g : Guard) (s : State) (body : State → Res) : Res :=
  let s := { s with issue := { s.issue with instr := i, pops := false } }
  if !featureOk s i || (s.issue.mw.any (fun m => m.rm == 5) && !s.feature 5) then .illegal s
  else if i.supervisor && !s.me.priv then .privilege s
  else if !s.passes g then .done s
  else portGate s (named i).1 (named i).2 body

/-- An instruction of the issuing strand. -/
def run (i : Instr) (g : Guard) (s : State) (body : State → Res) : Out :=
  event s (begin i g s body).state

/-- A form without a guard field (R21). -/
def always : Guard := ⟨0, false⟩

/-- The guard of a compact form: p[n] with sense 1 (R47). -/
def compactGuard (n : BitVec 3) : Guard := ⟨n.setWidth 4, false⟩

/-- A register of a compact form. -/
def compactReg (r : BitVec 4) : Reg := r.setWidth 5

/-- The modifier word before the instruction, or the one whose fields are all zero (R49). -/
def State.mw (s : State) : MW :=
  s.issue.mw.getD ⟨0, 0, 0, 0, false, false, false, false, false, 0⟩

/-! ### Integer types and saturation (R49, R66, R91) -/

/-- The least value of the type named by a sat code. -/
def satLo : Nat → Int
  | 1 => -2 ^ 7 | 2 => -2 ^ 15 | 3 => -2 ^ 31 | 4 => -2 ^ 63
  | _ => 0

/-- The greatest value of the type named by a sat code. -/
def satHi : Nat → Int
  | 1 => 2 ^ 7 - 1 | 2 => 2 ^ 15 - 1 | 3 => 2 ^ 31 - 1 | 4 => 2 ^ 63 - 1
  | 5 => 2 ^ 8 - 1 | 6 => 2 ^ 16 - 1 | 7 => 2 ^ 32 - 1
  | _ => 2 ^ 64 - 1

/-- A sat code naming a signed type (R91). -/
def satSigned (c : Nat) : Bool := decide (c ≤ 4)

/-- The exact value limited to the type of sat code c; unchanged for code 0. -/
def saturate (c : Nat) (v : Int) : Int := if c = 0 then v else min (max v (satLo c)) (satHi c)

/-- A register's value, signed or unsigned. -/
def asInt (signed : Bool) (w : Word) : Int := if signed then w.toInt else (w.toNat : Int)

/-- An arithmetic result written to g[d] with its poison (R87, R88). -/
def State.result (s : State) (d : Reg) (v : Word) (p : Bool) : Res := .done (s.setG d v p)

end Sys2Proof.Machine
end

