-- ==== Sys2Proof/Machine/Flags.lean ====
section
/-! DEFINITION. The predicates an instruction computes: the compare conditions (R55, R94). The
machine has no flag register; a compare writes one predicate. -/

namespace Sys2Proof.Machine

/-- cc of CMP and CMPI (R94). -/
def condHolds (cc : Cond) (x y : Word) : Bool :=
  match cc with
  | .eq => x == y
  | .ne => x != y
  | .lt => x.slt y
  | .ge => !x.slt y
  | .le => !y.slt x
  | .gt => y.slt x
  | .ltn => x.ult y
  | .gen => !x.ult y
  | .len => !y.ult x
  | .gtn => y.ult x
  | .tst => (x &&& y) != 0
  | .tsz => (x &&& y) == 0

/-- cc of FCMP over an ordering of the operands, none for an unordered pair (R103). -/
def fcondHolds (cc : FCond) (o : Option Ordering) : Bool :=
  match cc, o with
  | .ne, none => true
  | .un, none => true
  | _, none => false
  | .eq, some o => o == .eq
  | .ne, some o => o != .eq
  | .lt, some o => o == .lt
  | .ge, some o => o != .lt
  | .le, some o => o != .gt
  | .gt, some o => o == .gt
  | .un, some _ => false
  | .num, some _ => true

end Sys2Proof.Machine
end

