-- ==== Sys2Proof/Machine/ScalarInt.lean ====
section
/-! DEFINITION. Integer arithmetic, logic, shifts, counts, compares, predicates, selection, moves
and control transfers (R87 to R96, R110), and the compact forms of the arithmetic ones (R47). -/

namespace Sys2Proof.Machine

/-! ### Shared operations -/

/-- MIX64 (R78). -/
def mix64 (x : Word) : Word :=
  let z := (x ^^^ (x >>> 31)) * 0x9E6C63D0676A9A99
  let z := (z ^^^ (z >>> 29)) * 0xD3A2646CAB596F35
  z ^^^ (z >>> 32)

/-- A two-source result with its poison (R88). -/
def binary (s : State) (d a b : Reg) (f : Word → Word → Word) : Res :=
  s.result d (f (s.gv a) (s.gv b)) (s.gp a || s.gp b)

/-- A one-source result with its poison (R88). -/
def unary (s : State) (d a : Reg) (f : Word → Word) : Res := s.result d (f (s.gv a)) (s.gp a)

/-- ADD, SUB, MUL: the exact operation, cut to 64 bits or saturated (R89, R91). -/
def arith (s : State) (d a b : Reg) (f : Int → Int → Int) : Res :=
  let c := s.mw.sat.toNat
  binary s d a b fun x y =>
    BitVec.ofInt 64 (saturate c (f (asInt (satSigned c) x) (asInt (satSigned c) y)))

/-- ADDI: the immediate keeps its signed value (R91). -/
def arithImm (s : State) (d a : Reg) (e : Int) : Res :=
  let c := s.mw.sat.toNat
  unary s d a fun x => BitVec.ofInt 64 (saturate c (asInt (satSigned c) x + e))

/-- SHL by `n`: low 64 bits, or saturated (R91, R92). -/
def shiftLeft (c : Nat) (x : Word) (n : Nat) : Word :=
  BitVec.ofInt 64 (saturate c (asInt (satSigned c) x * 2 ^ n))

/-- DIV (R90). -/
def sdiv64 (x y : Word) : Word :=
  if y = 0 then BitVec.allOnes 64 else BitVec.ofInt 64 (x.toInt.tdiv y.toInt)

/-- REM (R90). -/
def srem64 (x y : Word) : Word := if y = 0 then x else BitVec.ofInt 64 (x.toInt.tmod y.toInt)

/-- DIVN (R90). -/
def udiv64 (x y : Word) : Word := if y = 0 then BitVec.allOnes 64 else x / y

/-- REMN (R90). -/
def urem64 (x y : Word) : Word := if y = 0 then x else x % y

/-- Leading zero bits below bit `n`. -/
def clzFrom (x : Word) : Nat → Nat
  | 0 => 0
  | n + 1 => if x.getLsbD n then 0 else clzFrom x n + 1

/-- Trailing zero bits, over the `n` bits from bit `64 - n` on. -/
def ctzFrom (x : Word) : Nat → Nat
  | 0 => 0
  | n + 1 => if x.getLsbD (63 - n) then 0 else ctzFrom x n + 1

/-- One bits among the low `n`. -/
def popFrom (x : Word) : Nat → Nat
  | 0 => 0
  | n + 1 => popFrom x n + (if x.getLsbD n then 1 else 0)

/-- A predicate computed from registers: a poisoned source is consumed (R88). -/
def testInto (s : State) (pd : Pred) (srcs : List Reg) (b : Bool) : Res :=
  match srcs.find? (fun r => s.gp r) with
  | some r => .poisoned s r
  | none => .done (s.setP pd b)

/-- A displacement in halfwords from the pc, which is the address of a pair's modifier word (R52, R56, R96,
log 21). -/
def branchTo (s : State) (disp : BitVec 20) : Word := s.me.pc + disp.signExtend 64 * 2

/-- The target of JMP and JMPL, with their traps (R38, R96): a poisoned register before an odd target
(log 56). -/
def jumpTo (s : State) (a : Reg) (imm : BitVec 10) (k : Word → Res) : Res :=
  let t := s.gv a + imm.signExtend 64
  if s.gp a then .poisoned s a
  else if t.getLsbD 0 then .trap s 7 0x6108 t
  else k t

/-! ### Integer arithmetic (R89) -/

def execAdd (g : Guard) (d a b : Reg) (s : State) : Out :=
  run (.add g d a b) g s fun s => arith s d a b (· + ·)

def execSub (g : Guard) (d a b : Reg) (s : State) : Out :=
  run (.sub g d a b) g s fun s => arith s d a b (· - ·)

def execMul (g : Guard) (d a b : Reg) (s : State) : Out :=
  run (.mul g d a b) g s fun s => arith s d a b (· * ·)

def execMulhi (g : Guard) (d a b : Reg) (s : State) : Out :=
  run (.mulhi g d a b) g s fun s =>
    binary s d a b fun x y => BitVec.ofInt 64 ((x.toInt * y.toInt) / 2 ^ 64)

def execMulhn (g : Guard) (d a b : Reg) (s : State) : Out :=
  run (.mulhn g d a b) g s fun s =>
    binary s d a b fun x y => BitVec.ofNat 64 ((x.toNat * y.toNat) / 2 ^ 64)

def execDiv (g : Guard) (d a b : Reg) (s : State) : Out :=
  run (.div g d a b) g s fun s => binary s d a b sdiv64

def execDivn (g : Guard) (d a b : Reg) (s : State) : Out :=
  run (.divn g d a b) g s fun s => binary s d a b udiv64

def execRem (g : Guard) (d a b : Reg) (s : State) : Out :=
  run (.rem g d a b) g s fun s => binary s d a b srem64

def execRemn (g : Guard) (d a b : Reg) (s : State) : Out :=
  run (.remn g d a b) g s fun s => binary s d a b urem64

def execMin (g : Guard) (d a b : Reg) (s : State) : Out :=
  run (.min g d a b) g s fun s => binary s d a b fun x y => if y.slt x then y else x

def execMax (g : Guard) (d a b : Reg) (s : State) : Out :=
  run (.max g d a b) g s fun s => binary s d a b fun x y => if x.slt y then y else x

def execMinn (g : Guard) (d a b : Reg) (s : State) : Out :=
  run (.minn g d a b) g s fun s => binary s d a b fun x y => if y.ult x then y else x

def execMaxn (g : Guard) (d a b : Reg) (s : State) : Out :=
  run (.maxn g d a b) g s fun s => binary s d a b fun x y => if x.ult y then y else x

def execAddi (g : Guard) (d a : Reg) (imm : BitVec 10) (s : State) : Out :=
  run (.addi g d a imm) g s fun s => arithImm s d a imm.toInt

/-! ### Logic, shifts, counts (R92) -/

def execAnd (g : Guard) (d a b : Reg) (s : State) : Out :=
  run (.and g d a b) g s fun s => binary s d a b (· &&& ·)

def execOr (g : Guard) (d a b : Reg) (s : State) : Out :=
  run (.or g d a b) g s fun s => binary s d a b (· ||| ·)

def execXor (g : Guard) (d a b : Reg) (s : State) : Out :=
  run (.xor g d a b) g s fun s => binary s d a b (· ^^^ ·)

def execAndn (g : Guard) (d a b : Reg) (s : State) : Out :=
  run (.andn g d a b) g s fun s => binary s d a b fun x y => x &&& ~~~y

def execShlRegister (g : Guard) (d a b : Reg) (s : State) : Out :=
  run (.shlRegister g d a b) g s fun s =>
    binary s d a b fun x y => shiftLeft s.mw.sat.toNat x (y.toNat % 64)

def execShrRegister (g : Guard) (d a b : Reg) (s : State) : Out :=
  run (.shrRegister g d a b) g s fun s => binary s d a b fun x y => x >>> (y.toNat % 64)

def execShaRegister (g : Guard) (d a b : Reg) (s : State) : Out :=
  run (.shaRegister g d a b) g s fun s => binary s d a b fun x y => x.sshiftRight (y.toNat % 64)

def execRotRegister (g : Guard) (d a b : Reg) (s : State) : Out :=
  run (.rotRegister g d a b) g s fun s => binary s d a b fun x y => x.rotateLeft (y.toNat % 64)

def execMov (g : Guard) (d a : Reg) (s : State) : Out :=
  run (.mov g d a) g s fun s => unary s d a id

def execClz (g : Guard) (d a : Reg) (s : State) : Out :=
  run (.clz g d a) g s fun s => unary s d a fun x => BitVec.ofNat 64 (clzFrom x 64)

def execCtz (g : Guard) (d a : Reg) (s : State) : Out :=
  run (.ctz g d a) g s fun s => unary s d a fun x => BitVec.ofNat 64 (ctzFrom x 64)

def execPopc (g : Guard) (d a : Reg) (s : State) : Out :=
  run (.popc g d a) g s fun s => unary s d a fun x => BitVec.ofNat 64 (popFrom x 64)

/-- Bits 0 to 63 of the operand, read from bit 63 down (R92). -/
def brev64 (x : Word) : Word :=
  BitVec.ofNat 64 ((List.range 64).foldl (fun n i => 2 * n + (if x.getLsbD i then 1 else 0)) 0)

def execBrev (g : Guard) (d a : Reg) (s : State) : Out :=
  run (.brev g d a) g s fun s => unary s d a brev64

def execBswap (g : Guard) (d a : Reg) (s : State) : Out :=
  run (.bswap g d a) g s fun s => unary s d a fun x => leWord (leBytes 8 x.toNat).reverse

def execMix64 (g : Guard) (d a : Reg) (s : State) : Out :=
  run (.mix64 g d a) g s fun s => unary s d a mix64

def execAndi (g : Guard) (d a : Reg) (imm : BitVec 10) (s : State) : Out :=
  run (.andi g d a imm) g s fun s => unary s d a fun x => x &&& imm.signExtend 64

def execOri (g : Guard) (d a : Reg) (imm : BitVec 10) (s : State) : Out :=
  run (.ori g d a imm) g s fun s => unary s d a fun x => x ||| imm.signExtend 64

def execXori (g : Guard) (d a : Reg) (imm : BitVec 10) (s : State) : Out :=
  run (.xori g d a imm) g s fun s => unary s d a fun x => x ^^^ imm.signExtend 64

def execShlImmediate (g : Guard) (d a : Reg) (sh : BitVec 6) (s : State) : Out :=
  run (.shlImmediate g d a sh) g s fun s => unary s d a fun x => shiftLeft s.mw.sat.toNat x sh.toNat

def execShrImmediate (g : Guard) (d a : Reg) (sh : BitVec 6) (s : State) : Out :=
  run (.shrImmediate g d a sh) g s fun s => unary s d a fun x => x >>> sh.toNat

def execShaImmediate (g : Guard) (d a : Reg) (sh : BitVec 6) (s : State) : Out :=
  run (.shaImmediate g d a sh) g s fun s => unary s d a fun x => x.sshiftRight sh.toNat

def execRotImmediate (g : Guard) (d a : Reg) (sh : BitVec 6) (s : State) : Out :=
  run (.rotImmediate g d a sh) g s fun s => unary s d a fun x => x.rotateLeft sh.toNat

/-! ### Compares and predicates (R94, R95) -/

def execCmp (g : Guard) (cc : Cond) (pd : Pred) (a b : Reg) (s : State) : Out :=
  run (.cmp g cc pd a b) g s fun s => testInto s pd [a, b] (condHolds cc (s.gv a) (s.gv b))

def execCmpi (g : Guard) (cc : Cond) (pd : Pred) (a : Reg) (imm : BitVec 7) (s : State) : Out :=
  run (.cmpi g cc pd a imm) g s fun s =>
    testInto s pd [a] (condHolds cc (s.gv a) (imm.signExtend 64))

def execPand (g : Guard) (pd pa pb : Pred) (s : State) : Out :=
  run (.pand g pd pa pb) g s fun s => .done (s.setP pd (s.p pa && s.p pb))

def execPor (g : Guard) (pd pa pb : Pred) (s : State) : Out :=
  run (.por g pd pa pb) g s fun s => .done (s.setP pd (s.p pa || s.p pb))

def execPxor (g : Guard) (pd pa pb : Pred) (s : State) : Out :=
  run (.pxor g pd pa pb) g s fun s => .done (s.setP pd (s.p pa != s.p pb))

def execPnot (g : Guard) (pd pa : Pred) (s : State) : Out :=
  run (.pnot g pd pa) g s fun s => .done (s.setP pd (!s.p pa))

def execPmov (g : Guard) (pd pa : Pred) (s : State) : Out :=
  run (.pmov g pd pa) g s fun s => .done (s.setP pd (s.p pa))

def execPset (g : Guard) (pd : Pred) (k : Bool) (s : State) : Out :=
  run (.pset g pd k) g s fun s => .done (s.setP pd k)

/-! ### Selection and moves (R93, R52) -/

def execSel (g : Guard) (d : Reg) (pn : Pred) (a b : Reg) (s : State) : Out :=
  run (.sel g d pn a b) g s fun s =>
    let r := if s.p pn then a else b
    s.result d (s.gv r) (s.gp r)

def execLea (g : Guard) (d a b : Reg) (sh : BitVec 3) (s : State) : Out :=
  run (.lea g d a b sh) g s fun s => binary s d a b fun x y => x + (y <<< sh.toNat)

def execMovwZ (d : Reg) (hw : BitVec 2) (imm : BitVec 16) (s : State) : Out :=
  run (.movwZ d hw imm) always s fun s =>
    s.result d (imm.setWidth 64 <<< (16 * hw.toNat)) false

/-- MOVW.k replaces one halfword and leaves the poison bit unchanged (R52, R88). -/
def execMovwK (d : Reg) (hw : BitVec 2) (imm : BitVec 16) (s : State) : Out :=
  run (.movwK d hw imm) always s fun s =>
    let m : Word := 0xFFFF <<< (16 * hw.toNat)
    s.result d ((s.gv d &&& ~~~m) ||| (imm.setWidth 64 <<< (16 * hw.toNat))) (s.gp d)

def execMovwS (d : Reg) (hw : BitVec 2) (imm : BitVec 16) (s : State) : Out :=
  run (.movwS d hw imm) always s fun s =>
    s.result d (imm.signExtend 64 <<< (16 * hw.toNat)) false

def execAddpc (d : Reg) (imm : BitVec 20) (s : State) : Out :=
  run (.addpc d imm) always s fun s => s.result d (branchTo s imm) false

/-! ### Control transfers (R96) -/

def execBr (g : Guard) (disp : BitVec 20) (s : State) : Out :=
  run (.br g disp) g s fun s => .jump s (branchTo s disp)

def execBrl (g : Guard) (disp : BitVec 20) (s : State) : Out :=
  run (.brl g disp) g s fun s => .jump (s.setG 29 s.nextPc false) (branchTo s disp)

def execJmp (g : Guard) (a : Reg) (imm : BitVec 10) (s : State) : Out :=
  run (.jmp g a imm) g s fun s => jumpTo s a imm fun t => .jump s t

def execJmpl (g : Guard) (d a : Reg) (imm : BitVec 10) (s : State) : Out :=
  run (.jmpl g d a imm) g s fun s => jumpTo s a imm fun t => .jump (s.setG d s.nextPc false) t

/-- NOP changes nothing but the program counter (R110). -/
def execNop (g : Guard) (s : State) : Out := run (.nop g) g s fun s => .done s

/-! ### Compact forms (R47) -/

def execMovC16 (n : BitVec 3) (d a : BitVec 4) (s : State) : Out :=
  execMov (compactGuard n) (compactReg d) (compactReg a) s

def execAddC16 (n : BitVec 3) (d a : BitVec 4) (s : State) : Out :=
  execAdd (compactGuard n) (compactReg d) (compactReg d) (compactReg a) s

def execSubC16 (n : BitVec 3) (d a : BitVec 4) (s : State) : Out :=
  execSub (compactGuard n) (compactReg d) (compactReg d) (compactReg a) s

def execAndC16 (n : BitVec 3) (d a : BitVec 4) (s : State) : Out :=
  execAnd (compactGuard n) (compactReg d) (compactReg d) (compactReg a) s

def execOrC16 (n : BitVec 3) (d a : BitVec 4) (s : State) : Out :=
  execOr (compactGuard n) (compactReg d) (compactReg d) (compactReg a) s

def execXorC16 (n : BitVec 3) (d a : BitVec 4) (s : State) : Out :=
  execXor (compactGuard n) (compactReg d) (compactReg d) (compactReg a) s

def execShlC16 (n : BitVec 3) (d a : BitVec 4) (s : State) : Out :=
  execShlRegister (compactGuard n) (compactReg d) (compactReg d) (compactReg a) s

def execShrC16 (n : BitVec 3) (d a : BitVec 4) (s : State) : Out :=
  execShrRegister (compactGuard n) (compactReg d) (compactReg d) (compactReg a) s

def execAddiC16 (n : BitVec 3) (d : BitVec 4) (imm : BitVec 4) (s : State) : Out :=
  execAddi (compactGuard n) (compactReg d) (compactReg d) (imm.signExtend 10) s

def execBrC16 (n : BitVec 3) (disp : BitVec 8) (s : State) : Out :=
  execBr (compactGuard n) (disp.signExtend 20) s

def execJmpC16 (n : BitVec 3) (a : BitVec 4) (s : State) : Out :=
  execJmp (compactGuard n) (compactReg a) 0 s

def execNopC16 (n : BitVec 3) (s : State) : Out := execNop (compactGuard n) s

end Sys2Proof.Machine
end

