-- ==== Sys2Proof/Machine/Numbers.lean ====
section
/-! DEFINITION. Numbers (R66 to R86): the float formats, the exact values, Round and Draw, Convert,
scaled blocks, classes, the long accumulator L640 and the extended format x192. -/

namespace Sys2Proof

open Machine

/-! ### Exact values -/

/-- A value: NaN, an infinity, or (-1)^neg × m × 2^e. A result that is no such number (a quotient, a
root, a function value) is given by its leading bits and one more bit 1 below them: every rounding
sees the same digits and the same inexactness. -/
inductive Val where
  | nan
  | inf (neg : Bool)
  | fin (neg : Bool) (m : Nat) (e : Int)
  deriving DecidableEq, Repr

/-- A signed integer times 2^e; `neg0` is the sign of zero. -/
def Val.ofInt (neg0 : Bool) (z e : Int) : Val :=
  .fin (decide (z < 0) || (z == 0 && neg0)) z.natAbs e

def signed (neg : Bool) (m : Nat) : Int := if neg then -(m : Int) else m

/-- 2^n for n ≥ 0, and 1 below. -/
def pow2 (n : Int) : Nat := 2 ^ n.toNat

def Val.neg : Val → Val
  | .nan => .nan
  | .inf s => .inf (!s)
  | .fin s m e => .fin (!s) m e

/-- x × 2^k, for finite x (R49). -/
def Val.scale (k : Int) : Val → Val
  | .fin s m e => .fin s m (e + k)
  | x => x

/-- a + b, with the zero of opposite signs taken by the mode (R76). -/
def Val.add (rm : Nat) : Val → Val → Val
  | .nan, _ => .nan
  | _, .nan => .nan
  | .inf a, .inf b => if a == b then .inf a else .nan
  | .inf a, _ => .inf a
  | _, .inf b => .inf b
  | .fin s m e, .fin t n f =>
    if m = 0 ∧ n = 0 ∧ s = t then .fin s 0 0
    else if m = 0 ∧ n ≠ 0 then .fin t n f
    else if n = 0 ∧ m ≠ 0 then .fin s m e
    else
      let k := min e f
      .ofInt (rm == 3) (signed s (m * pow2 (e - k)) + signed t (n * pow2 (f - k))) k

/-- a × b (R100). -/
def Val.mul : Val → Val → Val
  | .nan, _ => .nan
  | _, .nan => .nan
  | .inf a, .inf b => .inf (a != b)
  | .inf a, .fin t n _ => if n = 0 then .nan else .inf (a != t)
  | .fin s m _, .inf b => if m = 0 then .nan else .inf (s != b)
  | .fin s m e, .fin t n f => .fin (s != t) (m * n) (e + f)

/-- q × 2^e, with the bit below it when the rest is not zero. -/
def sticky (neg : Bool) (q : Nat) (e : Int) (exact : Bool) : Val :=
  if exact then .fin neg q e else .fin neg (2 * q + 1) (e - 1)

/-- a ÷ b (R100), with 192 bits or more of the quotient. -/
def Val.div : Val → Val → Val
  | .nan, _ => .nan
  | _, .nan => .nan
  | .inf _, .inf _ => .nan
  | .inf a, .fin t _ _ => .inf (a != t)
  | .fin s _ _, .inf b => .fin (s != b) 0 0
  | .fin s m e, .fin t n f =>
    if n = 0 then (if m = 0 then .nan else .inf (s != t))
    else if m = 0 then .fin (s != t) 0 0
    else
      let k := 192 + Nat.log2 n
      let a := m * 2 ^ k
      sticky (s != t) (a / n) (e - f - k) (a % n == 0)

/-- Bits of a root from bit `b - 1` down, added to `acc`. -/
def rootFrom (n : Nat) : Nat → Nat → Nat
  | 0, acc => acc
  | b + 1, acc =>
    let t := acc + 2 ^ b
    rootFrom n b (if t * t ≤ n then t else acc)

/-- The integer part of a square root. -/
def isqrt (n : Nat) : Nat := rootFrom n (Nat.log2 n / 2 + 1) 0

/-- √a (R100). -/
def Val.sqrt : Val → Val
  | .nan => .nan
  | .inf s => if s then .nan else .inf false
  | .fin s m e =>
    if m = 0 then .fin s 0 0
    else if s then .nan
    else
      let k : Nat := 384
      let odd := (e - k) % 2 != 0
      let n := m * 2 ^ (if odd then k + 1 else k)
      let e' := if odd then e - k - 1 else e - k
      let r := isqrt n
      sticky false r (e' / 2) (r * r == n)

/-- The order of two values; none when one is a NaN. The zeros are equal. -/
def Val.order : Val → Val → Option Ordering
  | .nan, _ => none
  | _, .nan => none
  | .inf a, .inf b => some (Ord.compare (!a) (!b))
  | .inf a, _ => some (if a then .lt else .gt)
  | _, .inf b => some (if b then .gt else .lt)
  | .fin s m e, .fin t n f =>
    let k := min e f
    some (Ord.compare (signed s (m * pow2 (e - k))) (signed t (n * pow2 (f - k))))

/-! ### The functions of the tile unit (R86, R127; log 12) -/

/-- Fraction bits of the fixed-point numbers the functions are computed in. -/
abbrev fixBits : Nat := 448
abbrev fixOne : Nat := 2 ^ 448

/-- Sum of y^(2j+1)/(2j+1) from j on: `p` is the power. -/
def atanhFrom (y2 : Nat) : Nat → Nat → Nat → Nat
  | 0, _, _ => 0
  | n + 1, j, p => p / (2 * j + 1) + atanhFrom y2 n (j + 1) (p * y2 / fixOne)

/-- ln of (1 + y)/(1 - y), for a fixed-point 0 ≤ y ≤ 1/3. -/
def lnRatio (y : Nat) : Nat := 2 * atanhFrom (y * y / fixOne) 150 0 y

/-- ln 2. -/
def ln2 : Nat := lnRatio (fixOne / 3)

/-- Sum of x^j/j! from j on: `p` is the term. -/
def expFrom (x : Nat) : Nat → Nat → Nat → Nat
  | 0, _, _ => 0
  | n + 1, j, p => p + expFrom x n (j + 1) (p * x / fixOne / (j + 1))

/-- e^x, for a fixed-point 0 ≤ x ≤ 1. -/
def expFix (x : Nat) : Nat := expFrom x 110 0 fixOne

/-- A value just above or just below 1. -/
def nearOne (above : Bool) : Val :=
  if above then sticky false fixOne (-448) false else sticky false (fixOne - 1) (-448) false

/-- m × 2^e as a fixed-point number, cut. -/
def toFix (m : Nat) (e : Int) : Nat :=
  if 0 ≤ e + 448 then m * pow2 (e + 448) else m / pow2 (-(e + 448))

/-- 2^x. -/
def Val.exp2 : Val → Val
  | .nan => .nan
  | .inf s => if s then .fin false 0 0 else .inf false
  | .fin s m e =>
    if m = 0 then .fin false 1 0
    else if 20 ≤ Nat.log2 m + e then
      (if s then sticky false 1 (-2000000) false else sticky false 1 2000000 false)
    else if Nat.log2 m + e < -200 then nearOne (!s)
    else
      let z := signed s (toFix m e)
      let n := z / fixOne
      let f := (z % fixOne).toNat
      if f = 0 then .fin false 1 n
      else sticky false (expFix (f * ln2 / fixOne)) (n - 448) false

/-- log2 x. -/
def Val.log2 : Val → Val
  | .nan => .nan
  | .inf s => if s then .nan else .inf false
  | .fin s m e =>
    if m = 0 then .inf true
    else if s then .nan
    else
      let l := Nat.log2 m
      if m = 2 ^ l then .ofInt false (l + e) 0
      else
        let big := decide (3 * 2 ^ l ≤ 2 * m)
        let n : Int := if big then l + e + 1 else l + e
        let one := if big then 2 ^ (l + 1) else 2 ^ l
        let y := (if big then one - m else m - one) * fixOne / (m + one)
        let t : Int := signed big (lnRatio y * fixOne / ln2)
        let z := n * fixOne + t
        sticky (decide (z < 0)) z.natAbs (-448) false

/-- tanh x. -/
def Val.tanh : Val → Val
  | .nan => .nan
  | .inf s => .fin s 1 0
  | .fin s m e =>
    if m = 0 then .fin s 0 0
    else
      let r :=
        if 7 ≤ Nat.log2 m + e then nearOne false
        else if Nat.log2 m + e < -100 then
          sticky false (m * 2 ^ 192 - 1) (e - 192) false
        else
          let x := 2 * toFix m e
          let n := x / ln2
          let u := fixOne * fixOne / expFix (x % ln2) / 2 ^ n
          sticky false ((fixOne - u) * fixOne / (fixOne + u)) (-448) false
      if s then r.neg else r

/-- 1 ÷ √x. -/
def Val.rsq (x : Val) : Val :=
  match x with
  | .fin s m _ =>
    if m = 0 then .inf s
    else match x with
      | .fin _ m e =>
        if s then .nan
        else
          let odd := e % 2 != 0
          let m := if odd then 2 * m else m
          let e := if odd then e - 1 else e
          let k := 192 + Nat.log2 m
          let q := isqrt (2 ^ (2 * k) / m)
          sticky false q (-(e / 2) - k) (q * q * m == 2 ^ (2 * k))
      | y => y
  | .inf s => if s then .nan else .fin false 0 0
  | .nan => .nan

/-! ### The float formats (R67, R68) -/

/-- Precision p. -/
def Fmt.prec : Fmt → Nat
  | .f64 => 53 | .f32 => 24 | .f16 => 11 | .bf16 => 8 | .f8e4 => 4 | .f8e5 => 3 | .f4 => 2
  | _ => 1

/-- Bits of an element. -/
def Fmt.width : Fmt → Nat
  | .f64 | .i64 | .n64 => 64
  | .f32 | .i32 | .n32 => 32
  | .f16 | .bf16 | .i16 | .n16 => 16
  | .f8e4 | .f8e5 | .i8 | .n8 => 8
  | .f4 => 4

def Fmt.bias : Fmt → Nat
  | .f64 => 1023 | .f32 => 127 | .bf16 => 127 | .f16 => 15 | .f8e5 => 15 | .f8e4 => 7 | .f4 => 1
  | _ => 0

def Fmt.emin (f : Fmt) : Int := 1 - (f.bias : Int)

def Fmt.isSigned : Fmt → Bool
  | .i8 | .i16 | .i32 | .i64 => true
  | _ => false

/-- The encoding of the greatest finite magnitude. -/
def Fmt.maxBits : Fmt → Nat
  | .f64 => 0x7FEFFFFFFFFFFFFF | .f32 => 0x7F7FFFFF | .f16 => 0x7BFF | .bf16 => 0x7F7F
  | .f8e4 => 0x7E | .f8e5 => 0x7B | .f4 => 0x7
  | _ => 0

/-- The canonical NaN; a NaN converted to f4 gives 0 (R69, R72). -/
def Fmt.nanBits : Fmt → Nat
  | .f64 => 0x7FF8000000000000 | .f32 => 0x7FC00000 | .f16 => 0x7E00 | .bf16 => 0x7FC0
  | .f8e4 => 0x7F | .f8e5 => 0x7E
  | _ => 0

/-- The magnitude an infinity takes: f8e4 has NaN, f4 has 6 (R72). -/
def Fmt.infBits (f : Fmt) : Nat :=
  match f with
  | .f4 => 0x7
  | .f8e4 => 0x7F
  | f => f.maxBits + 1

/-- A magnitude with its sign. -/
def Fmt.withSign (f : Fmt) (neg : Bool) (m : Nat) : Nat := if neg then 2 ^ (f.width - 1) + m else m

/-- An infinite result (R72, R76). -/
def Fmt.inf (f : Fmt) (neg clamp : Bool) : Nat :=
  f.withSign neg (if clamp then f.maxBits else f.infBits)

/-- The value of an encoding (R67, R68): float or integer. -/
def Fmt.value (f : Fmt) (x : Nat) : Val :=
  let x := x % 2 ^ f.width
  let neg := decide (2 ^ (f.width - 1) ≤ x)
  if f.isFloat then
    let m := x % 2 ^ (f.width - 1)
    let fr := f.prec - 1
    let e := m / 2 ^ fr
    if f.maxBits < m then (if m = f.infBits ∧ f ≠ .f8e4 then .inf neg else .nan)
    else if e = 0 then .fin neg m (f.emin - fr)
    else .fin neg (2 ^ fr + m % 2 ^ fr) ((e : Int) - f.bias - fr)
  else .ofInt false (if f.isSigned && neg then (x : Int) - 2 ^ f.width else x) 0

/-- The class of R75. -/
def Fmt.classOf (f : Fmt) (x : Nat) : Nat :=
  let x := x % 2 ^ f.width
  let neg := decide (2 ^ (f.width - 1) ≤ x)
  let m := x % 2 ^ (f.width - 1)
  match f.value x with
  | .nan => if f = .f8e4 ∨ m / 2 ^ (f.prec - 2) % 2 = 1 then 9 else 8
  | .inf _ => if neg then 0 else 7
  | .fin _ _ _ =>
    if m = 0 then (if neg then 3 else 4)
    else if m < 2 ^ (f.prec - 1) then (if neg then 2 else 5)
    else (if neg then 1 else 6)

/-- abs and neg on the sign bit (R49). -/
def Fmt.signSteps (f : Fmt) (abs neg : Bool) (x : Nat) : Nat :=
  let x := x % 2 ^ f.width
  let h := 2 ^ (f.width - 1)
  let x := if abs then x % h else x
  if neg then (if x < h then x + h else x - h) else x

/-! ### Round and Draw (R76, R77) -/

/-- Draw() at a value of sr.rctr (R77). -/
def drawAt (seed rctr : Word) : Word := mix64 (seed + mix64 rctr)

/-- Whether a magnitude with remainder rem of 2^sh, above the even or odd `lo`, moves away from 0. -/
def away (rm : Nat) (d : Word) (neg : Bool) (lo rem sh : Nat) : Bool :=
  match rm with
  | 0 => decide (2 ^ sh < 2 * rem) || (decide (2 * rem = 2 ^ sh) && lo % 2 == 1)
  | 2 => !neg && decide (0 < rem)
  | 3 => neg && decide (0 < rem)
  | 4 => decide (2 ^ sh ≤ 2 * rem)
  | 5 => decide (2 ^ 32 ≤ rem * 2 ^ 32 / 2 ^ sh + d.toNat / 2 ^ 32)
  | _ => false

/-- m × 2^e rounded to a multiple of 2^u, in units of 2^u. -/
def roundUnit (rm : Nat) (d : Word) (neg : Bool) (m : Nat) (e u : Int) : Nat :=
  if u ≤ e then m * pow2 (e - u)
  else
    let sh := (u - e).toNat
    let lo := m / 2 ^ sh
    if away rm d neg lo (m % 2 ^ sh) sh then lo + 1 else lo

/-- Overflow goes to an infinity in this mode (R76). -/
def overflowInf (rm : Nat) (neg : Bool) : Bool :=
  match rm with
  | 1 => false
  | 2 => !neg
  | 3 => neg
  | _ => true

/-- Round (R76), with the clamp of R49 and the word drawn in mode 5. -/
def Fmt.round (f : Fmt) (rm : Nat) (clamp : Bool) (d : Word) (v : Val) : Nat :=
  match v with
  | .nan => f.nanBits
  | .inf s => f.inf s clamp
  | .fin s m e =>
    if m = 0 then f.withSign s 0
    else
      let l := max (Nat.log2 m + e) f.emin
      let y := roundUnit rm d s m e (l - f.prec + 1)
      let b := (l - f.emin).toNat * 2 ^ (f.prec - 1) + y
      if f.maxBits < b then
        (if overflowInf rm s then f.inf s clamp else f.withSign s f.maxBits)
      else f.withSign s b

/-- RoundInt (R76) of a finite value; 0 for the others. -/
def roundInt (rm : Nat) (d : Word) : Val → Int
  | .fin s m e => signed s (roundUnit rm d s m e 0)
  | _ => 0

/-! ### Conversions (R79) -/

/-- An integer result in a register, by its type (R71). -/
def Fmt.widen (f : Fmt) (x : Nat) : Nat :=
  let x := x % 2 ^ f.width
  if f.isSigned && decide (2 ^ (f.width - 1) ≤ x) then 2 ^ 64 - 2 ^ f.width + x else x

/-- Convert of an exact value that has been scaled (R79): the low bits of the result. -/
def convert (v : Val) (integral : Bool) (tgt : Fmt) (rm : Nat) (clamp : Bool) (sat : Nat) (d : Word) :
    Nat :=
  if tgt.isFloat then tgt.round rm clamp d v
  else
    let cut := fun (n : Int) => (n % 2 ^ tgt.width).toNat
    match v with
    | .nan => 0
    | .inf s => if sat = 0 then 0 else cut (if s then satLo sat else satHi sat)
    | v => cut (saturate sat (roundInt (if integral then 1 else rm) d v))

/-! ### Scaled blocks (R73, R74) -/

/-- The exponent of the largest power of two of a block format. -/
def Fmt.emaxe : Fmt → Int
  | .f8e4 => 8
  | .f8e5 => 15
  | _ => 2

/-- The value of an element under its scale byte (R73). -/
def Fmt.scaled (f : Fmt) (scale : Byte) (x : Nat) : Val :=
  if scale = 0xFF then .nan else (f.value x).scale (scale.toNat - 127)

/-- floor(log2 |x|), none for zero. -/
def Val.log : Val → Option Int
  | .fin _ m e => if m = 0 then none else some (Nat.log2 m + e)
  | _ => none

def Val.isFin : Val → Bool
  | .fin .. => true
  | _ => false

/-- The greatest floor(log2 |x|) of a list. -/
def topLog (xs : List Val) : Option Int :=
  xs.foldl (fun a x => match a, x.log with
    | none, b => b
    | some a, some b => some (max a b)
    | a, none => a) none

/-- A scaled block formed from values, each with its draw (R74): the scale byte and the elements. -/
def Fmt.block (f : Fmt) (rm : Nat) (xs : List (Val × Word)) : Byte × List Nat :=
  if xs.any fun x => !x.1.isFin then (0xFF, xs.map fun _ => 0)
  else
    let k := match topLog (xs.map (·.1)) with
      | none => -127
      | some l => min (max (l - f.emaxe) (-127)) 127
    (BitVec.ofInt 8 (k + 127), xs.map fun x => f.round rm true x.2 (x.1.scale (-k)))

/-! ### The long accumulator L640 (R81 to R83) -/

/-- A field of one bit. -/
def natBit (x i : Nat) : Bool := x / 2 ^ i % 2 == 1

def setNatBit (x i : Nat) : Nat := if natBit x i then x else x + 2 ^ i

/-- The value field as a signed integer. -/
def l640Int (a : Nat) : Int :=
  let v : Nat := a % 2 ^ 616
  if v < 2 ^ 615 then v else (v : Int) - 2 ^ 616

/-- AddL640 (R82). -/
def addL640 (a : Nat) : Val → Nat
  | .nan => setNatBit a 617
  | .inf s => setNatBit a (if s then 619 else 618)
  | .fin s m e =>
    let u := l640Int a + signed s (m * pow2 (e + 298))
    let a := if u < -2 ^ 615 ∨ 2 ^ 615 ≤ u then setNatBit a 620 else a
    a / 2 ^ 616 * 2 ^ 616 + (u % 2 ^ 616).toNat

/-- The value an L640 reads out as (R83). -/
def l640Val (a : Nat) (rm : Nat) : Val :=
  if natBit a 617 || (natBit a 618 && natBit a 619) || natBit a 620 then .nan
  else if natBit a 618 then .inf false
  else if natBit a 619 then .inf true
  else .ofInt (rm == 3) (l640Int a) (-298)

/-- The sum of two L640, as of their terms (R82). -/
def joinL640 (a b : Nat) : Nat :=
  let u := l640Int a + l640Int b
  let flags := (a ||| b) / 2 ^ 616 * 2 ^ 616
  let flags := if u < -2 ^ 615 ∨ 2 ^ 615 ≤ u then setNatBit flags 620 else flags
  flags + (u % 2 ^ 616).toNat

/-! ### The extended format x192 (R84, R85) -/

/-- The canonical NaN. -/
def x192Nan : Nat := 0x7FFFF * 2 ^ 172 + 2 ^ 171

/-- The value of an x192 word; a word that does not arise reads as NaN. -/
def x192Val (x : Nat) : Val :=
  let s := natBit x 191
  let e : Nat := x / 2 ^ 172 % 2 ^ 19
  let m := x % 2 ^ 172
  if e = 0x7FFFF then (if m = 0 then .inf s else .nan)
  else if e = 0 then (if m < 2 ^ 171 then .fin s m (1 - 262143 - 171) else .nan)
  else if 2 ^ 171 ≤ m then .fin s m ((e : Int) - 262143 - 171)
  else .nan

/-- A value rounded to x192 by nearest-even. -/
def x192Of : Val → Nat
  | .nan => x192Nan
  | .inf s => (if s then 2 ^ 191 else 0) + 0x7FFFF * 2 ^ 172
  | .fin s m e =>
    let sg := if s then 2 ^ 191 else 0
    if m = 0 then sg
    else
      let l := max (Nat.log2 m + e) (-262142)
      let y := roundUnit 0 0 s m e (l - 171)
      let (y, l) := if y = 2 ^ 172 then (2 ^ 171, l + 1) else (y, l)
      let ex := if y < 2 ^ 171 then 0 else (l + 262143).toNat
      if 0x7FFFF ≤ ex then sg + 0x7FFFF * 2 ^ 172 else sg + ex * 2 ^ 172 + y

/-- AddX192 (R85). -/
def addX192 (a : Nat) (t : Val) : Nat := x192Of ((x192Val a).add 0 t)

/-- The value an x192 reads out as: the sign of a zero follows the mode (R85). -/
def x192Out (a rm : Nat) : Val :=
  match x192Val a with
  | .fin s m e => if m = 0 then .fin (rm == 3) 0 0 else .fin s m e
  | v => v

end Sys2Proof
end

