-- ==== Sys2Proof/Machine/Mem.lean ====
section
/-! DEFINITION. The levels of memory (R201 to R214): the regions of an address, the physical map, the
bytes of scratchpads and HBM with their poison, tags and check bits, and the memory-side caches. -/

namespace Sys2Proof.Machine

/-! ### Regions of the address space (R34) -/

/-- Where an address lies (R34), for a strand of a given core. -/
inductive Region where
  | global
  /-- offset in the scratchpad of a core, by its module-wide number -/
  | spad (core off : Nat)
  | trap
  deriving DecidableEq, Repr

/-- The region of address `a` as a strand of `core` sees it (R34, R35). -/
def regionOf (core : Nat) (a : Word) : Region :=
  let n := a.toNat
  if n < 2 ^ 56 then .global
  else if 0xFFFFFFFFFC000000 ≤ n ∧ n ≤ 0xFFFFFFFFFD7FFFFF then
    let o := n - 0xFFFFFFFFFC000000
    .spad (24 * clusterOf core + o / 2 ^ 20) (o % 2 ^ 20)
  else if 0xFFFFFFFFFF000000 ≤ n ∧ n ≤ 0xFFFFFFFFFF0FFFFF then .spad core (n - 0xFFFFFFFFFF000000)
  else .trap

/-- The regions of R34 as numbers: global, cluster window, near window, and the rest. -/
def regionClass (a : Word) : Nat :=
  let n := a.toNat
  if n < 2 ^ 56 then 0
  else if 0xFFFFFFFFFC000000 ≤ n ∧ n ≤ 0xFFFFFFFFFD7FFFFF then 1
  else if 0xFFFFFFFFFF000000 ≤ n ∧ n ≤ 0xFFFFFFFFFF0FFFFF then 2
  else 3

/-! ### The physical map (R207, R208) -/

def paModule (pa : Nat) : Nat := pa / 2 ^ 47 % 512
def paOffset (pa : Nat) : Nat := pa % 2 ^ 47

/-- Offsets of HBM, of the device registers and of the host window (R207). -/
def inHbm (o : Nat) : Bool := decide (o < 2 ^ 39)
def inDev (o : Nat) : Bool := decide (0x3FFF00000000 ≤ o ∧ o < 0x400000000000)
def inHost (o : Nat) : Bool := decide (0x400000000000 ≤ o ∧ o < 2 ^ 47)

/-- The first byte of the device-register region (R207). -/
abbrev devBase : Nat := 0x3FFF00000000

/-- The home port of an HBM offset (R208). -/
def homePort (o : Nat) : Nat :=
  let f := fun lo => o / 2 ^ lo % 64
  (f 12 ^^^ f 18 ^^^ f 24 ^^^ f 30 ^^^ (o / 2 ^ 36 % 8)) % 64

/-- The die and the stack of a port (R208). -/
def portDie (q : Nat) : Nat := q / 16
def portStack (q : Nat) : Nat := 2 * (q / 16) + q / 8 % 2

/-- The own module's PA of offset `o`. -/
def State.ownPa (s : State) (o : Nat) : Nat := s.modNo.toNat * 2 ^ 47 + o

/-- A PA names own-module HBM. -/
def State.ownHbm (s : State) (pa : Nat) : Bool := paModule pa == s.modNo.toNat && inHbm (paOffset pa)

/-- A path of a route word: valid, first link, hops (R382). -/
def pathBits (w : Word) (p : Nat) : Nat := bits w (12 * p + 11) (12 * p)
def pathValid (w : Word) (p : Nat) : Bool := pathBits w p / 2 ^ 11 == 1
def pathLink (w : Word) (p : Nat) : Nat := pathBits w p / 2 ^ 5 % 64
def pathHops (w : Word) (p : Nat) : Nat := pathBits w p / 4 % 8

def State.route (s : State) (m : Nat) : Word := SMap.get s.routes 0 m

def State.link (s : State) (l : Nat) : Link := SMap.get s.man.links {} l

def State.setLink (s : State) (l : Nat) (x : Link) : State :=
  { s with man := { s.man with links := SMap.put s.man.links {} l x } }

def State.linkUp (s : State) (l : Nat) : Bool := (s.link l).state == 2

/-- The path by which this module sends a packet on: the packet's own where it is valid and its link up, else
the lowest that is (R383). -/
def State.usablePath (s : State) (m path : Nat) : Option Nat :=
  let ok := fun p => pathValid (s.route m) p && s.linkUp (pathLink (s.route m) p)
  if ok path then some path else (List.range 4).find? ok

/-- Module `m` is present in the domain (R382, R410). -/
def State.present (s : State) (m : Nat) : Bool :=
  m == s.modNo.toNat ||
    (s.feature 1 && (List.range 4).any (fun p => pathValid (s.route m) p))

/-- The map of R207 allows this PA; presence of another module is tested at each access. -/
def mapAllows (own pa : Nat) : Bool :=
  let o := paOffset pa
  inHbm o || inDev o || (inHost o && paModule pa == own)

/-- The serving place of a PA (R223). -/
def State.placeOf (s : State) (pa : Nat) : Place :=
  let o := paOffset pa
  if paModule pa ≠ s.modNo.toNat then .remote (paModule pa)
  else if inHbm o then .port (homePort o)
  else if inDev o then .dev
  else .host

/-- The write-buffer bank of a place (R201). -/
def bankOf : Place → Nat
  | .spad c => c % 24 % 8
  | .port q => q % 8
  | .host => 0
  | .dev => 0
  | .remote m => m % 8

/-- The places within a scope (R230), for a strand of `core`. -/
def inScope (scope core : Nat) : Place → Bool
  | .spad c => if scope = 1 then c == core else true
  | .port q => scope = 0 || scope = 5 || scope = 4 ||
      (scope = 3 && portDie q == dieOf (clusterOf core))
  | .host => scope = 0 || scope = 5 || scope = 4
  | .dev => scope = 0 || scope = 5 || scope = 4
  | .remote _ => scope = 0 || scope = 5

/-! ### Scratchpads (R165, R202) -/

/-- The index of a scratchpad word in the tag and poison maps. -/
def spadWord (core w : Nat) : Nat := core * 131072 + w

/-- The words that `n` bytes from `o` touch, as word numbers. -/
def wordsOf (o n : Nat) : List Nat :=
  if n = 0 then [] else (List.range ((o + n - 1) / 8 + 1 - o / 8)).map (· + o / 8)

def State.tagFull (s : State) (core w : Nat) : Bool := !SMap.get s.empty false (spadWord core w)

def State.setTag (s : State) (core w : Nat) (full : Bool) : State :=
  { s with empty := SMap.put s.empty false (spadWord core w) (!full) }

def State.spadPois (s : State) (core w : Nat) : Bool := SMap.get s.spadPoison false (spadWord core w)

def State.setSpadPois (s : State) (core w : Nat) (b : Bool) : State :=
  { s with spadPoison := SMap.put s.spadPoison false (spadWord core w) b }

/-- The data part of a word's check bits after a write of the whole word: the tag's own stay (R202). -/
def State.freshWord (s : State) (core w : Nat) : State :=
  let k := spadKey core (8 * w) / 8
  { s with latent := SMap.put s.latent 0 k (SMap.get s.latent 0 k / 4 * 4) }

/-- The check bits of a word's data are applied when it is read (R202). -/
def State.checkData (s : State) (core w : Nat) : State :=
  let k := spadKey core (8 * w) / 8
  let e := SMap.get s.latent 0 k % 4
  let cleared := s.freshWord core w
  if e = 1 then
    let c := cleared.core core
    let d := dieOf (clusterOf core)
    let m := cleared.man
    let n := SMap.get m.corrected 0 d
    (({ cleared with man := { m with corrected := SMap.put m.corrected 0 d (n + 1) } }).setCore core
      { c with corrected := c.corrected + 1 }).tally 0x0201
  else if e = 2 then (cleared.setSpadPois core w true).record 0x2203 core (8 * w)
  else s

/-- The check bits of a word's tag: an uncorrectable tag reads full, and the word is poisoned (R165,
R202). -/
def State.checkTag (s : State) (core w : Nat) : State :=
  let k := spadKey core (8 * w) / 8
  let e := SMap.get s.latent 0 k
  if e < 4 then s
  else
    ((({ s with latent := SMap.put s.latent 0 k (e % 4) }).setTag core w true).setSpadPois core w
      true).record 0x2203 core (8 * w)

/-- The check bits of a word and of its tag, as a read meets them (R202). -/
def State.checkWord (s : State) (core w : Nat) : State := (s.checkTag core w).checkData core w

/-- The check bits of the tags of words, as an access that tests them meets them (R165, R202). -/
def State.checkTags (s : State) (core : Nat) (ws : List Nat) : State :=
  ws.foldl (fun s w => s.checkTag core w) s

/-- The check bits of every word touched. -/
def State.checkWords (s : State) (core : Nat) (ws : List Nat) : State :=
  ws.foldl (fun s w => s.checkWord core w) s

/-- Bytes of a scratchpad with the poison bit of each word touched (R108, R202). -/
def State.readSpad (s : State) (core off n : Nat) : List Byte × List Bool × State :=
  let ws := wordsOf off n
  let s := s.checkWords core ws
  (s.bytes (spadKey core off) n, ws.map (fun w => s.spadPois core w), s)

/-- A store to a scratchpad: data, and the poison of each word touched (R108, R202). -/
def State.writeSpad (s : State) (core off : Nat) (bs : List Byte) (ps : List Bool) : State :=
  let s := (wordsOf off bs.length).foldl (fun s w =>
    let p := ps.getD (w - off / 8) false
    if off ≤ 8 * w ∧ 8 * w + 8 ≤ off + bs.length then
      (s.freshWord core w).setSpadPois core w p
    else
      let s := s.checkData core w
      s.setSpadPois core w (s.spadPois core w || p)) s
  s.putBytes (spadKey core off) bs

/-! ### HBM and host memory (R204, R211, R212) -/

def State.granPois (s : State) (g : Nat) : Bool := SMap.get s.hbmPoison false g

def State.setGranPois (s : State) (g : Nat) (b : Bool) : State :=
  { s with hbmPoison := SMap.put s.hbmPoison false g b }

/-- The 32-byte granules that `n` bytes from `o` touch. -/
def gransOf (o n : Nat) : List Nat :=
  if n = 0 then [] else (List.range ((o + n - 1) / 32 + 1 - o / 32)).map (· + o / 32)

/-- An HBM stack as the census shows it. -/
def State.stack (s : State) (k : Nat) : Stack := SMap.get s.man.hbm {} k

def State.setStack (s : State) (k : Nat) (x : Stack) : State :=
  { s with man := { s.man with hbm := SMap.put s.man.hbm {} k x } }

/-- The location and value of a port event (R402). -/
def portLoc (o : Nat) : Nat := 0x0960 + homePort o
def portVal (o : Nat) : Nat := o / 2 ^ 7

/-- The granule lies in a line that its port's cache holds dirty (R211). -/
def State.inDirty (s : State) (g : Nat) : Bool :=
  (SMap.get (s.port (homePort (32 * g))).lines ⟨0, false, 0⟩ (g / 4)).dirty

/-- The check bits of a granule are applied when it is read (R211, R212): an uncorrectable error of a
cached line that is clean goes with the line, which is read again from HBM. -/
def State.checkGran (s : State) (g : Nat) : State :=
  let e := SMap.get s.latent 0 (4 * g)
  let k := portStack (homePort (32 * g))
  let x := s.stack k
  let cleared := { s with latent := SMap.put s.latent 0 (4 * g) 0 }
  if e = 1 then (cleared.setStack k { x with corrected := x.corrected + 1 }).tally 0x0201
  else if e = 2 ∨ (e = 3 ∧ s.inDirty g) then
    ((cleared.setStack k { x with uncorrectable := x.uncorrectable + 1 }).setGranPois g true).record
      0x2203 (portLoc (32 * g)) (portVal (32 * g))
  else if e = 3 then cleared.tally 0x0202
  else s

/-- Bytes of HBM with the poison of each 8-byte word touched (R204). -/
def State.readHbm (s : State) (o n : Nat) : List Byte × List Bool × State :=
  let s := (gransOf o n).foldl (fun s g => s.checkGran g) s
  (s.bytes o n, (wordsOf o n).map (fun w => s.granPois (w / 4)), s)

/-- Bytes of host memory with the poison of each 8-byte word touched, as the PCIe completion supplies
them (R204, R401, log 55). -/
def State.readHost (s : State) (o n : Nat) : List Byte × List Bool × State :=
  let mark := Config.hostPoison s.fresh
  let bs := (List.range n).map fun i => match mark ((o + i) / 8) with
    | none => s.byte (o + i)
    | some v => v.extractLsb' (8 * ((o + i) % 8)) 8
  let ps := (wordsOf o n).map fun w => (mark w).isSome
  let t : State := { s with fresh := s.fresh + 1 }
  (bs, ps, if ps.any id then t.record 0x4502 0x09F1 0 else t)

/-- A clean write to HBM: a granule covered whole loses its poison, one covered in part is read
first and keeps it (R212). -/
def State.writeGrans (s : State) (o : Nat) (bs : List Byte) : State :=
  let s := (gransOf o bs.length).foldl (fun s g =>
    if o ≤ 32 * g ∧ 32 * g + 32 ≤ o + bs.length then
      { s with latent := SMap.put s.latent 0 (4 * g) 0 }.setGranPois g false
    else s.checkGran g) s
  s.putBytes o bs

/-- The HBM offset of an engine's block by its key, PA[55:9]. -/
def blockOff (k : Nat) : Nat := paOffset (k * 512)

/-- A write of `n` bytes at `o` touches base or m of the block with key k. -/
def touchesBlock (o n k : Nat) : Bool := decide (0 < n ∧ o < blockOff k + 9 ∧ blockOff k < o + n)

/-- The queue of a block holds nothing any more: its head stands at its tail. -/
def State.emptyBlock (s : State) (k : Nat) : State :=
  s.putBytes (blockOff k + 16) (leBytes 8 (s.word (blockOff k + 24)).toNat)

/-- The slot number under which a Loom asks for words. -/
abbrev loomSlot : Nat := 1900

/-! ### Sectors that a fetch has asked other modules for (R39, R350) -/

/-- The slot numbers under which the fetches of a core's strands ask other modules. -/
abbrev fetchSlot : Nat := 5000

/-- A request or a reply belongs to a fetch of the core's strand. -/
def fetchMine (core slot c k i : Nat) : Bool :=
  c == 24 * clusterOf core && k == 1000 + fetchSlot + slot && i == core

/-- The answer to the fetch for which the strand of a slot waits. -/
def State.fetchReply (s : State) (core slot : Nat) : Option Reply :=
  (s.strand core slot).fetchWait.bind fun g => s.replies.find? fun r =>
    decide (2 ^ 60 ≤ g) && fetchMine core slot r.core r.slot r.inst && r.elem == g - 2 ^ 60

/-- The bytes of a sector as another module answered: free where its answer is no data (log 3). -/
def State.sectorIn (s : State) (a : Answer) : List Byte × State :=
  match a with
  | .data bs _ => (bs, s)
  | _ => ((List.range 16).flatMap fun i => leBytes 8 (Config.freeWord (s.fresh + i)).toNat,
      { s with fresh := s.fresh + 16 })

/-- A sector enters a core's instruction cache. -/
def Core.fillSector (c : Core) (sector : Nat) (bs : List Byte) : Core :=
  { c with icache := SMap.put c.icache [] sector bs }

/-- The answers to a strand's fetches are taken away. -/
def State.dropFetched (s : State) (core slot : Nat) : State :=
  { s with replies := s.replies.filter fun r => !fetchMine core slot r.core r.slot r.inst }

/-- A sector that has come for a strand that is about to be withdrawn stands in the core's cache. -/
def State.landFetch (s : State) (core slot : Nat) : State :=
  match s.fetchReply core slot with
  | none => s
  | some r =>
    let (bs, s) := s.sectorIn r.ans
    (s.setCore core ((s.core core).fillSector r.elem bs)).dropFetched core slot

/-- What the Looms of a block have asked for is taken back. -/
def State.dropLoomAsks (s : State) (k : Nat) : State :=
  let mine := fun (core slot : Nat) => slot == loomSlot && bits (s.core (core / 24)).loomblk 55 9 == k
  { s with reqs := s.reqs.filter fun r => !mine r.core r.slot,
           replies := s.replies.filter fun r => !mine r.core r.slot }

/-- The queue of its cluster in which a copy stands: its core's, or the Reeve's (R316). -/
def scrQueueOf (c : CopyCmd) : Nat := if c.kind = 3 then 24 else c.core % 24

/-- The code of a queue's most recent fault (R327). -/
def State.setScrLast (s : State) (cl q : Nat) (code : Code) : State :=
  let k := s.cluster cl
  s.setCluster cl { k with scrLast := SMap.put k.scrLast 0 q code }

/-- A write to base or m of a block loses the records between its head and its tail (R293, R317; log
40). -/
def State.loseRecords (s : State) (o n : Nat) : State :=
  let looms := s.loomQ.filter fun x => touchesBlock o n x.1
  let scrs := s.scrQ.filter fun x => touchesBlock o n x.1
  let s := looms.foldl (fun s x => match x.2.cmds with
    | [] => s
    | c :: _ =>
      let s := (s.dropLoomAsks x.1).emptyBlock x.1
      { s with loomQ := SMap.put s.loomQ ⟨0, 0, []⟩ x.1 ⟨0, 0, []⟩ }.record 0x8B08 c.core 0) s
  scrs.foldl (fun s x => match x.2.cmds with
    | [] => s
    | c :: _ =>
      let s := (s.emptyBlock x.1).setScrLast (clusterOf c.core) (scrQueueOf c) 0x8C05
      { s with scrQ := SMap.put s.scrQ ⟨0, 0, []⟩ x.1 ⟨0, 0, []⟩ }.record 0x8C05
        (if c.kind = 3 then 0x0900 + clusterOf c.core else c.core) 0) s

/-! ### The memory-side caches (R211, R214) -/

/-- Range register r of a port: enabled, base, ways, limit, ratio (R213). -/
def Port.word (p : Port) (r w : Nat) : Word := SMap.get p.range 0 (2 * r + w)
def Port.en (p : Port) (r : Nat) : Bool := (p.word r 0).getLsbD 63
def Port.ways (p : Port) (r : Nat) : Nat := bits (p.word r 0) 15 0

/-- The range register that classifies PA `pa` (R214). -/
def Port.classify (p : Port) (pa : Nat) : Option Nat :=
  (List.range 8).find? fun r =>
    p.en r && decide (bits (p.word r 0) 55 16 ≤ pa / 2 ^ 16 ∧ pa / 2 ^ 16 ≤ bits (p.word r 1) 55 16)

/-- The eligible ways of a miss, and the port with its counter advanced (R214). -/
def Port.eligible (p : Port) (pa : Nat) : Nat × Port :=
  let reserved := (List.range 8).foldl (fun m r => if p.en r then m ||| p.ways r else m) 0
  let free := 0xFFFF ^^^ reserved
  match p.classify pa with
  | none => (free, p)
  | some r =>
    let n := SMap.get p.cnt 0 r
    let kept := decide (n < bits (p.word r 1) 6 0)
    (if kept && p.ways r != 0 then p.ways r else free,
      { p with cnt := SMap.put p.cnt 0 r ((n + 1) % 64) })

/-- The way a missing line takes: a free eligible way of its set, else the least recently used
(R211, R214); none when no way is eligible. -/
def Port.victim (p : Port) (line ways : Nat) : Option (Nat × Option Nat) :=
  let mine := p.lines.filter fun x => Config.cacheSet x.1 % 4096 == Config.cacheSet line % 4096
  let ok := (List.range 16).filter fun w => ways / 2 ^ w % 2 == 1
  match ok.find? fun w => mine.all fun x => x.2.way != w with
  | some w => some (w, none)
  | none =>
    let cands := mine.filter fun x => ok.contains x.2.way
    match cands with
    | [] => none
    | x :: r =>
      let y := r.foldl (fun (a : Nat × CLine) b => if b.2.use < a.2.use then b else a) x
      some (y.2.way, some y.1)

/-- A line leaves the cache (R211): errors in its check bits go with a clean line, and to HBM with a
dirty one. -/
def State.evictLine (s : State) (line : Nat) (dirty : Bool) : State :=
  (List.range 4).foldl (fun s j =>
    let k := 4 * (4 * line + j)
    if SMap.get s.latent 0 k = 3 then
      { s with latent := SMap.put s.latent 0 k (if dirty then 2 else 0) }
    else s) s

/-- An access to the line of HBM offset `o` at its port: a hit marks it used, a miss allocates. A line is
dirty once it has been written. -/
def State.cacheAccess (s : State) (o : Nat) : State :=
  let q := homePort o
  let p := s.port q
  let line := o / 128
  match p.lines.find? (fun x => x.1 == line) with
  | some (_, c) =>
    let c := { c with use := s.now }
    s.setPort q { p with lines := SMap.ins (SMap.del p.lines line) line c }
  | none =>
    let (ways, p) := p.eligible (s.ownPa o)
    match p.victim line ways with
    | none => s.setPort q p
    | some (w, old) =>
      let s := match old with
        | some l => s.evictLine l (SMap.get p.lines ⟨0, false, 0⟩ l).dirty
        | none => s
      let lines := match old with
        | some l => SMap.del p.lines l
        | none => p.lines
      s.setPort q { p with lines := SMap.ins (SMap.del lines line) line ⟨w, false, s.now⟩ }

/-- A line has been written: a cached one is dirty. -/
def State.markDirty (s : State) (o : Nat) : State :=
  let q := homePort o
  let p := s.port q
  let line := o / 128
  match p.lines.find? (fun x => x.1 == line) with
  | some (_, c) =>
    s.setPort q { p with lines := SMap.ins (SMap.del p.lines line) line { c with dirty := true } }
  | none => s

/-- The lines that `n` bytes of HBM from `o` touch, each by its first byte. -/
def linesOf (o n : Nat) : List Nat :=
  if n = 0 then [] else (List.range ((o + n - 1) / 128 + 1 - o / 128)).map (fun i => 128 * (i + o / 128))

/-- Every line of a stretch of HBM accessed at its port. -/
def State.cacheLines (s : State) (o n : Nat) : State :=
  (linesOf o n).foldl (fun s l => s.cacheAccess l) s

/-- Bytes written to HBM, by an access that has been to its lines: check bits are met as the lines stood
before it (R211), and its lines are dirty. -/
def State.writeHbm (s : State) (o : Nat) (bs : List Byte) : State :=
  ((linesOf o bs.length).foldl (fun s l => s.markDirty l) (s.writeGrans o bs)).loseRecords o bs.length

/-- A write or read-write of a line, one that changes nothing too, breaks every other party's
reservation on it (R273). -/
def State.touchLine (s : State) (line core slot inst : Nat) : State :=
  { s with resv := s.resv.map fun r =>
      if r.line = line ∧ ¬(r.core = core ∧ r.slot = slot ∧ r.inst = inst)
      then { r with intact := false } else r }

/-- A writer that is no strand: it breaks every reservation on the line (R273). -/
def State.engineTouch (s : State) (o : Nat) : State := s.touchLine (s.ownPa o / 128) (2 ^ 40) 0 0

end Sys2Proof.Machine
end

