-- ==== Sys2Proof/Machine/Merge.lean ====
section
/-! DEFINITION. Memory ports in order of acceptance (R210, R224, R269): the arithmetic of read-writes,
exact cells, the merge groups of reductions, and every access of the device itself to HBM, which meets
the reductions accepted before it. -/

namespace Sys2Proof

/-- The tags of the packets that have been merged into a write packet (R381). -/
def Packet.merged (p : Packet) : List (BitVec 64) := if p.op = .write then p.args.drop 4 else []

end Sys2Proof

namespace Sys2Proof.Machine

/-! ### Replies and store errors -/

/-- A reply packet (R380, R383): tag, path and source cluster of the request. -/
def replyPacket (p : Packet) (op : PktOp) (aux : BitVec 7) (mark : Bool) (bytes : List (Nat × Byte))
    (poison : BitVec 16) (args : List Word) : Packet :=
  { p with op := op, dst := p.src, src := p.dst, hop := 0, oflag := false, mark := mark, aux := aux,
           bytes := bytes, poison := poison, args := args }

/-- The acknowledgement of a write-class packet: it echoes the mark and names every store merged into
the packet (R381, R388, R390). -/
def ackPacket (p : Packet) : Packet := replyPacket p .ack 0 p.mark [] 0 p.merged

/-- A packet leaves for the fabric on the link of its path; where no path has its link up it is discarded and
recorded (R383 to R385; log 60). -/
def State.emit (s : State) (p : Packet) : State :=
  match s.usablePath p.dst.toNat p.path with
  | some q => { s with fabricOut := s.fabricOut ++ [(pathLink (s.route p.dst.toNat) q, p)] }
  | none => s.record 0x6A05 0xFFFF 0

/-- An error in a posted store sets out for its core. -/
def State.storeError (s : State) (core slot inst : Nat) (code : Code) (ea : Word) : State :=
  { s with errors := s.errors ++ [⟨core, slot, inst, code, ea⟩] }

/-! ### Arithmetic of atomics (R265) -/

/-- The new value of an AMO on operands of 32 or 64 bits. -/
def amoNew (op : AmoOp) (w : Bool) (old y : Nat) : Nat :=
  let n := if w then 32 else 64
  let old := old % 2 ^ n
  let y := y % 2 ^ n
  let sg := fun (x : Nat) => if x < 2 ^ (n - 1) then (x : Int) else (x : Int) - 2 ^ n
  match op with
  | .add => (old + y) % 2 ^ n
  | .and => old &&& y
  | .or => old ||| y
  | .xor => old ^^^ y
  | .min => if sg y < sg old then y else old
  | .max => if sg old < sg y then y else old
  | .minn => if y < old then y else old
  | .maxn => if old < y then y else old
  | .swap => y
  | .fadd =>
    let f : Fmt := if w then .f32 else .f64
    f.round 0 false 0 ((f.value old).add 0 (f.value y))

/-- RED's operation as the AMO's of the same name; the exact cell has none. -/
def redAs : RedOp → AmoOp
  | .add => .add | .and => .and | .or => .or | .xor => .xor
  | .min => .min | .max => .max | .minn => .minn | .maxn => .maxn | .fadd => .fadd
  | .exact => .add

/-! ### Exact cells (R270 to R272) -/

def cellWord (bs : List Byte) : Nat := leNat (bs.drop 120)
def cellKind (bs : List Byte) : Nat := cellWord bs % 4
def cellMixed (bs : List Byte) : Bool := natBit (cellWord bs) 2 || cellKind bs == 3

/-- A malformed cell (R270). -/
def cellMalformed (bs : List Byte) : Bool :=
  ((bs.drop 80).take 40).any (· != 0) || decide (8 ≤ cellWord bs) ||
  (cellKind bs == 1 && (natBit (leNat (bs.take 80)) 616 || decide (2 ^ 621 ≤ leNat (bs.take 80)))) ||
  (cellKind bs == 2 && ((bs.drop 24).take 56).any (· != 0))

/-- The cell's bytes from an accumulator of `n` bytes and a cell word. -/
def cellBytes (acc n word : Nat) : List Byte :=
  leBytes n acc ++ leBytes (120 - n) 0 ++ leBytes 8 word

/-- A merge group of RED op 10 applied to a cell (R271). -/
def cellAdd (w : Bool) (xs : List Word) (bs : List Byte) : List Byte :=
  let mixed := bs.take 120 ++ leBytes 8 (setNatBit (cellWord bs) 2)
  if cellMalformed bs || cellMixed bs then mixed
  else
    let k := cellKind bs
    let kind := if k = 0 then (if w then 1 else 2) else k
    if (kind == 1) != w then mixed
    else if w then
      let a := if k = 0 then 0 else leNat (bs.take 80)
      cellBytes (xs.foldl (fun a x => addL640 a (Fmt.f32.value x.toNat)) a) 80 1
    else
      let a := if k = 0 then 0 else leNat (bs.take 24)
      cellBytes (x192Of (xs.foldl (fun v x => v.add 0 (Fmt.f64.value x.toNat)) (x192Val a))) 24 2

/-- What a cell reads out as, in mode rm (R272). -/
def cellVal (bs : List Byte) (rm : Nat) : Val :=
  if cellMalformed bs || cellMixed bs then .nan
  else match cellKind bs with
    | 0 => .fin (rm == 3) 0 0
    | 1 => l640Val (leNat (bs.take 80)) rm
    | _ => x192Out (leNat (bs.take 24)) rm

/-! ### Merge groups (R269, R271) -/

/-- The end of one RED: an acknowledgement or an error for one that came by packet, and a store
error for one of the own module (R267, R386). -/
def State.redEnd (s : State) (x : RedVal) (ok : Bool) : State :=
  match x.pkt with
  | some p =>
    if ok then s.emit (ackPacket p)
    else s.emit (replyPacket p .error 0 p.mark [] 0 [16, 0x4901, x.ea])
  | none => if ok then s else s.storeError x.core x.slot x.inst 0x4901 x.ea

/-- The operand of a reduction: a word, or the 128 bytes of a cell. -/
def redSize (op : RedOp) (w : Bool) : Nat := if op = .exact then 128 else if w then 4 else 8

/-- The bytes a group of reductions leaves. -/
def redBytes (op : RedOp) (w : Bool) (xs : List Word) (bs : List Byte) : List Byte :=
  if op = .exact then cellAdd w xs bs
  else leBytes (redSize op w) (xs.foldl (fun a x => amoNew (redAs op) w a x.toNat) (leNat bs))

/-- A merge group applied as one event; on a poisoned granule it is discarded (R267, R269). -/
def State.applyGroup (s : State) (g : Group) : State :=
  let n := redSize g.op g.w
  let s := { s with groups := s.groups.filter fun x => x.id != g.id }
  let (bs, ps, s) := (s.cacheAccess g.addr).readHbm g.addr n
  if ps.any id then g.vals.foldl (fun s x => s.redEnd x false) s
  else
    let s := s.writeHbm g.addr (redBytes g.op g.w (g.vals.map (·.v)) bs)
    g.vals.foldl (fun s x => s.redEnd x true) s

/-- Every pending group of a line is applied, oldest first, before another access to it. -/
def State.flushLine (s : State) (o : Nat) : State :=
  (s.groups.filter fun g => g.addr / 128 == o / 128).foldl (fun s g => s.applyGroup g) s

/-- Every line of a stretch of HBM with its pending groups applied. -/
def State.flushLines (s : State) (o n : Nat) : State :=
  (linesOf o n).foldl (fun s l => s.flushLine l) s

/-- HBM bytes read at their ports by the device itself, after every reduction accepted there (R210,
R224). -/
def State.hbmRead (s : State) (o n : Nat) : List Byte × List Bool × State :=
  ((s.flushLines o n).cacheLines o n).readHbm o n

/-- HBM bytes written at their ports by the device itself, after every reduction accepted there (R210,
R212); reservations on their lines are broken (R273). -/
def State.hbmWrite (s : State) (o : Nat) (bs : List Byte) : State :=
  let s := (s.flushLines o bs.length).cacheLines o bs.length
  ((linesOf o bs.length).foldl (fun s l => s.engineTouch l) s).writeHbm o bs

/-- HBM read by the device itself for its effect alone: check bits, marks and the cache (R212, R214). -/
def State.meet (s : State) (o n : Nat) : State := (s.hbmRead o n).2.2

/-- HBM bytes as their ports would give them now, every reduction accepted there among them (R210). The value
alone: where the device makes the access, `meet` goes before it. -/
def State.seen (s : State) (o n : Nat) : List Byte := (s.flushLines o n).bytes o n

/-- The 8-byte word at an HBM offset, so seen. -/
def State.seenWord (s : State) (o : Nat) : Word := leWord (s.seen o 8)

end Sys2Proof.Machine
end

