-- ==== Sys2Proof/Machine/Translate.lean ====
section
/-! DEFINITION. Translation (R215 to R222): the translation caches, the walk and its checks, the
permissions, and the address checks that every access shares (R107, R262). -/

namespace Sys2Proof.Machine

/-! ### Leaves and permissions -/

/-- The bytes a leaf of each level maps (R216). -/
def pageBytes (level : Nat) : Nat := if level = 1 then 2 ^ 30 else if level = 2 then 2 ^ 21 else 2 ^ 16

/-- The PA a leaf gives a virtual address. -/
def Leaf.paOf (l : Leaf) (va : Nat) : Nat := l.pa + va % pageBytes l.level

/-- The 64 KiB granule of an address (R221). -/
def granuleOf (va : Word) : Nat := va.toNat / 2 ^ 16

/-- What an access needs of a page (R218). -/
inductive Need where
  | read | write | both | fetch | any
  deriving DecidableEq, Repr

/-- The permission check of R218. -/
def Leaf.permits (l : Leaf) (need : Need) (sup : Bool) : Bool :=
  (sup || l.user) && match need with
    | .read => l.read
    | .write => l.write
    | .both => l.read && l.write
    | .fetch => l.exec
    | .any => true

/-! ### The walk (R216 to R218) -/

/-- sr.xroot fields (R215). -/
def rootCtx (x : Word) : BitVec 12 := x.extractLsb' 52 12
def rootEn (x : Word) : Bool := x.getLsbD 51
def rootPa (x : Word) : Nat := bits x 35 0 * 2 ^ 20

/-- A stack that is still training, and one that has failed (R404). -/
def State.stackTraining (s : State) (o : Nat) : Bool :=
  inHbm o && (s.stack (portStack (homePort o))).state == 0

def State.stackDead (s : State) (o : Nat) : Bool :=
  inHbm o && (s.stack (portStack (homePort o))).state == 2

/-- One table entry read at its home port as an 8-byte load, with its poison (R221). -/
def State.readEntry (s : State) (pa : Nat) : Word × Bool × State :=
  let o := paOffset pa
  let (bs, ps, s) := s.hbmRead o 8
  (leWord bs, ps.any id, s)

/-- The index of a level (R216). -/
def levelIndex (va level : Nat) : Nat :=
  if level = 0 then va / 2 ^ 39 % 2 ^ 17 else if level = 1 then va / 2 ^ 30 % 512
  else if level = 2 then va / 2 ^ 21 % 512 else va / 2 ^ 16 % 32

/-- Alignment of the table of a level (R216). -/
def tableAlign (level : Nat) : Nat := if level = 0 then 2 ^ 20 else if level = 3 then 256 else 4096

/-- The checks on an entry (R218); answers the leaf, or the PA of the next table. -/
def checkEntry (s : State) (level : Nat) (e : Word) (pois : Bool) : Code ⊕ (Leaf ⊕ Nat) :=
  let pa := bits e 55 8 * 256
  let leaf := e.getLsbD 7
  let ver := e.getLsbD 63
  if pois then .inl 0x6705
  else if !e.getLsbD 0 then .inl 0x2701
  else if bits e 62 56 ≠ 0 ∨ bits e 2 1 ≠ 0 ∨ (leaf ∧ level = 0) ∨ (¬leaf ∧ level = 3) then .inl 0x6703
  else if !leaf then
    if ver || bits e 6 3 != 0 || pa % tableAlign (level + 1) != 0 || !s.ownHbm pa then .inl 0x6703
    else .inr (.inr pa)
  else
    let l : Leaf := ⟨pa, level, ver, e.getLsbD 6, e.getLsbD 5, e.getLsbD 4, e.getLsbD 3⟩
    if pa % pageBytes level ≠ 0 ∨ (l.write ∧ ¬l.read) ∨ (ver ∧ l.exec) ∨ (ver ∧ ¬inHbm (paOffset pa))
        ∨ (ver ∧ ¬s.feature 2) then .inl 0x6703
    else if !mapAllows s.modNo.toNat pa then .inl 0x6704
    else .inr (.inl l)

/-- The key of a pointer entry in the walker's pointer cache (R221). -/
def ptrKey (ctx : BitVec 12) (va level : Nat) : Nat :=
  (ctx.toNat * 4 + level) * 2 ^ 56 + va / 2 ^ (if level = 1 then 30 else 21)

/-- A walk from the table at `pa` of `level`, with fuel (R216). Entries of levels 1 and 2 that are
pointers may come from the walker's own cache: which is a free choice (log 7). -/
def State.walk (s : State) (cl : Nat) (ctx : BitVec 12) (va : Nat) : Nat → Nat → Nat → WalkOut × State
  | 0, _, _ => (.fault 0x6703, s)
  | fuel + 1, level, pa =>
    let ea := pa + 8 * levelIndex va level
    let held := SMap.get (s.cluster cl).ptrs 0 (ptrKey ctx va level)
    let usable := (level == 1 || level == 2) && held != 0
    let (c, s) := if usable then s.choose 2 else (0, s)
    if !(usable && c == 1) && s.stackDead (paOffset ea) then (.fault 0x6704, s)
    else
    let (e, p, s) := if usable && c == 1 then (held, false, s) else s.readEntry ea
    match checkEntry s level e p with
    | .inl f => (.fault f, s)
    | .inr (.inl l) => (.leaf l, s)
    | .inr (.inr next) =>
      let k := s.cluster cl
      let s := if level = 1 ∨ level = 2 then
          s.setCluster cl { k with ptrs := SMap.put k.ptrs 0 (ptrKey ctx va level) e }
        else s
      s.walk cl ctx va fuel (level + 1) next

/-- The whole walk for a context's root, whose PA names an offset of the own module's HBM (R215; log 36). -/
def State.walkRoot (s : State) (cl : Nat) (root : Word) (va : Nat) : WalkOut × State :=
  if !rootEn root then (.fault 0x2701, s)
  else s.walk cl (rootCtx root) va 4 0 (s.ownPa (rootPa root % 2 ^ 47))

/-! ### The translation cache (R220) -/

/-- An entry covers an address in a context. -/
def TlbEntry.covers (e : TlbEntry) (ctx : BitVec 12) (g : Nat) : Bool :=
  e.ctx == ctx && decide (e.base ≤ g ∧ g < e.base + pageBytes e.leaf.level / 2 ^ 16)

/-- The cached leaf for a granule in a context. -/
def Core.tlbFind (c : Core) (ctx : BitVec 12) (g : Nat) : Option Leaf :=
  (c.tlb.find? fun e => e.covers ctx g).map (·.leaf)

/-- The entry for a granule marked as used. -/
def Core.tlbUse (c : Core) (ctx : BitVec 12) (g now : Nat) : Core :=
  { c with tlb := c.tlb.map fun e => if e.covers ctx g then { e with use := now } else e }

/-- The entry least recently used is dropped. -/
def dropOldest (l : List TlbEntry) : List TlbEntry :=
  match l with
  | [] => []
  | x :: r =>
    let y := r.foldl (fun (a : TlbEntry) b => if b.use < a.use then b else a) x
    l.erase y

/-- A leaf placed in a core's translation cache (R220). -/
def Core.tlbFill (c : Core) (ctx : BitVec 12) (g : Nat) (l : Leaf) (now : Nat) : Core :=
  let n := pageBytes l.level / 2 ^ 16
  let e : TlbEntry := ⟨ctx, g / n * n, l, now⟩
  let rest := c.tlb.filter fun x => !(x.ctx == ctx && x.base == e.base && x.leaf.level == l.level)
  { c with tlb := e :: (if rest.length ≥ 64 then dropOldest rest else rest) }

/-! ### Checking an access (R107, R262) -/

/-- The outcome of an address check: it passes, it traps, or a walk must come first. -/
inductive Chk where
  | ok
  | trap (cause : BitVec 5) (code : Code) (v : Word)
  | miss (granule : Nat)
  deriving DecidableEq, Repr

/-- The key of a walk's outcome: its context and granule (R221). -/
def walkKey (ctx : BitVec 12) (g : Nat) : Nat := ctx.toNat * 2 ^ 40 + g

/-- The context in which the issuing instruction translates. -/
def State.context (s : State) : BitVec 12 := rootCtx s.root

/-- The outcome of translating a granule for the issuing instruction in its context: a delivered walk first,
then the cache. -/
def State.translation (s : State) (g : Nat) : Option WalkOut :=
  match s.me.walked.find? (fun x => x.1 == walkKey s.context g) with
  | some (_, w) => some w
  | none => (s.myCore.tlbFind s.context g).map .leaf

/-- The fault of using a leaf at a PA at this access (R207, R404): an absent module, a failed stack. -/
def State.paFault (s : State) (pa : Nat) : Bool :=
  let o := paOffset pa
  !s.present (paModule pa) ||
    (paModule pa == s.modNo.toNat && s.stackDead o)

/-- Step 5 of R107 on one granule: translation, permission, map. An access that has issued passed its checks
then (R109). -/
def State.checkGranule (s : State) (g : Nat) (va : Word) (need : Need) : Chk :=
  if !rootEn s.root then .trap 9 0x2701 va
  else match s.translation g with
    | none => .miss g
    | some (.fault c) => .trap 9 c va
    | some (.leaf l) =>
      if !l.permits need s.me.priv then .trap 9 0x2702 va
      else if !s.passed && s.paFault (l.paOf va.toNat) then .trap 9 0x6704 va
      else .ok

/-- Step 5 over every granule of `n` bytes at a global address. -/
def State.checkPages (s : State) (ea : Word) (n : Nat) (need : Need) : Chk :=
  let g := granuleOf ea
  (List.range ((ea.toNat + n - 1) / 2 ^ 16 + 1 - g)).foldl (fun r i =>
    match r with
    | .ok => s.checkGranule (g + i) (if i = 0 then ea else BitVec.ofNat 64 ((g + i) * 2 ^ 16)) need
    | r => r) .ok

/-- The scratchpad bytes of R36 are touched. -/
def inReserved (off n : Nat) : Bool := decide (off + n > 0xF0000)

/-- Any byte of `n` at a window address lies in a scratchpad's reserved area (R36). -/
def touchesReserved (core : Nat) (ea : Word) (n : Nat) : Bool :=
  match regionOf core ea, regionOf core (ea + BitVec.ofNat 64 (n - 1)) with
  | .spad c o, .spad d p =>
    if c = d then inReserved o (p - o + 1) else true
  | _, _ => false

/-- The bytes from `ea` leave the region of R34 that holds `ea`. -/
def crosses (ea : Word) (n : Nat) : Bool :=
  decide (ea.toNat + n > 2 ^ 64) || regionClass ea != regionClass (ea + BitVec.ofNat 64 (n - 1))

/-- Steps 2 to 5 of R107 for an access of `n` bytes whose address must be a multiple of `align`. -/
def State.checkAccess (s : State) (ea : Word) (n align : Nat) (need : Need) : Chk :=
  if regionClass ea = 3 then .trap 3 0x6104 ea
  else if ea.toNat % align ≠ 0 ∨ crosses ea n then .trap 5 0x6106 ea
  else if regionClass ea ≠ 0 then
    if !s.me.priv && touchesReserved s.issue.core ea n then .trap 6 0x6107 ea else .ok
  else s.checkPages ea n need

/-! ### Walk requests (R221) -/

/-- A miss meets a walk in flight with its key. -/
def Walk.meets (w x : Walk) : Bool := w.ctx == x.ctx && w.granule == x.granule

/-- A walk with a miss that joins it. -/
def Walk.join (w x : Walk) : Walk :=
  { w with waiters := w.waiters ++ x.waiters, prefs := w.prefs ++ x.prefs,
           cores := w.cores ++ x.cores.filter fun c => !w.cores.contains c }

/-- A miss taken by the walker: it joins the walk that it meets, or starts one. -/
def Cluster.take (k : Cluster) (x : Walk) : Cluster :=
  if k.walks.any (·.meets x) then
    { k with walks := k.walks.map fun w => if w.meets x then w.join x else w }
  else { k with walks := k.walks ++ [x] }

/-- A miss reaches the walker: it joins or starts a walk, or waits while 256 are in flight (R221). -/
def Cluster.request (k : Cluster) (x : Walk) : Cluster :=
  if k.walks.any (·.meets x) || decide (k.walks.length < 256) then k.take x
  else { k with walkQ := k.walkQ ++ [x] }

/-- The walker has room again: misses that wait are taken in arrival order. -/
def Cluster.serveWalks (k : Cluster) : Cluster :=
  k.walkQ.foldl (fun k x =>
    if k.walkQ.isEmpty && (k.walks.any (·.meets x) || decide (k.walks.length < 256)) then k.take x
    else { k with walkQ := k.walkQ ++ [x] }) { k with walkQ := [] }

/-- A miss of the issuing strand reaches its cluster's walker: the strand waits for the outcome, or
leaves hints for it. -/
def State.startWalk (s : State) (g : Nat) (waits : Bool) (prefs : List Pref := []) : State :=
  let cl := s.myCluster
  let k := s.cluster cl
  let root := s.root
  let who := if waits then [(s.issue.core, s.issue.slot, s.me.inst)] else []
  s.setCluster cl (k.request ⟨rootCtx root, g, root, who, false, [s.issue.core], prefs⟩)

/-- What follows a check: the trap, the wait for a walk, or the rest. -/
def Chk.andThen (c : Chk) (s : State) (k : State → Res) : Res :=
  match c with
  | .ok => k s
  | .trap cause code v => .trap s cause code v
  | .miss g => .hold (s.startWalk g true) (.walk g) s.got

/-- The leaf of a global address that has passed its checks. -/
def State.leafAt (s : State) (ea : Word) : Option Leaf :=
  match s.translation (granuleOf ea) with
  | some (.leaf l) => some l
  | _ => none

/-- Where a checked access goes. -/
inductive Spot where
  | spad (core off : Nat)
  | glob (l : Leaf) (pa : Nat)
  deriving DecidableEq, Repr

/-- The spot of an address that has passed its checks; none before that. -/
def State.spot (s : State) (ea : Word) : Option Spot :=
  match regionOf s.issue.core ea with
  | .spad c o => some (.spad c o)
  | .global => (s.leafAt ea).map fun l => .glob l (l.paOf ea.toNat)
  | .trap => none

/-- The cached translations used by an access count as used (R220). -/
def State.useTlb (s : State) (ea : Word) : State :=
  if regionClass ea = 0 then s.setMyCore (s.myCore.tlbUse s.context (granuleOf ea) s.now) else s

/-! ### What an instruction keeps from its issue (R109) -/

/-- The leaf with which an access has been checked is kept while its instruction is held: it is used,
whatever the translation cache drops. -/
def State.pinned (s : State) (ea : Word) : Option (Nat × WalkOut) :=
  if regionClass ea = 0 then (s.leafAt ea).map fun l => (walkKey s.context (granuleOf ea), .leaf l) else none

/-- Leaves put among the outcomes of walks that the strand keeps. -/
def State.keepLeaves (s : State) (ls : List (Nat × WalkOut)) : State :=
  let t := s.me
  s.setMe { t with walked := t.walked ++ ls.eraseDups.filter fun x => !t.walked.contains x }

/-- An instruction with one access at `ea`, held after its issue, keeps its leaf, and that its checks have
passed (R109). One that waits to issue keeps neither. -/
def Res.issued (ea : Word) : Res → Res
  | .hold s on got =>
    let rest := got.filter fun x => x.1 != keepAt
    match on with
    | .walk _ => .hold s on got
    | _ => if on.unissued then .hold s on rest
      else .hold (s.keepLeaves (s.pinned ea).toList) on ((keepAt, .note s.issueOrder) :: rest)
  | r => r

end Sys2Proof.Machine
end

