-- ==== Sys2Proof/Machine/Version.lean ====
section
/-! DEFINITION. Versioned memory (R240 to R258): the stamp unit, the snapshot and transaction
registries, version chains, plain and tentative writes, dooms, and the Gleaner's rule. -/

namespace Sys2Proof.Machine

/-- The n-th number not in a rising list. -/
def nthFree : List Nat → Nat → Nat
  | [], n => n
  | k :: r, n => if k ≤ n then nthFree r (n + 1) else n

/-- A free choice among the numbers below `total` that are not used (log 8). -/
def State.pickFree (s : State) (used : List Nat) (total : Nat) : Option (Nat × State) :=
  if used.length ≥ total then none
  else
    let (n, s) := s.choose (total - used.length)
    some (nthFree used n, s)

/-! ### The stamp unit (R240, R241, R245, R254) -/

/-- The least stamp held, or vclock (R254). -/
def Versions.low (v : Versions) : Word :=
  v.snaps.foldl (fun m x => if x.2.stamp < m then x.2.stamp else m) v.vclock

/-- vlow follows the registry and the clock (log 23). -/
def State.setVer (s : State) (v : Versions) : State := { s with ver := { v with vlow := v.low } }

/-- Stamp() (R240). -/
def State.stamp (s : State) : Word × State :=
  let c := s.ver.vclock + 1
  (c, s.setVer { s.ver with vclock := c })

/-- The registry index of a held stamp (R245). -/
def State.snapIndex (s : State) (stamp : Word) : Option Nat :=
  (s.ver.snaps.find? fun x => x.2.stamp == stamp).map (·.1)

/-- One more holder of a stamp; none when the registry is full (R245). -/
def State.holdStamp (s : State) (stamp : Word) : Option State :=
  let v := s.ver
  match s.snapIndex stamp with
  | some i =>
    let e := SMap.get v.snaps {} i
    some (s.setVer { v with snaps := SMap.put v.snaps {} i { e with refs := e.refs + 1 } })
  | none =>
    match s.pickFree (v.snaps.map (·.1)) 4096 with
    | none => none
    | some (i, s) => some (s.setVer { v with snaps := SMap.put v.snaps {} i ⟨stamp, 1⟩ })

/-- One holder of a stamp less; the entry is freed at 0 (R245). Stamp 0 means none. -/
def State.releaseStamp (s : State) (stamp : Word) : State :=
  match if stamp = 0 then none else s.snapIndex stamp with
  | none => s
  | some i =>
    let v := s.ver
    let e := SMap.get v.snaps {} i
    let e := if e.refs ≤ 1 then {} else { e with refs := e.refs - 1 }
    s.setVer { v with snaps := SMap.put v.snaps {} i e }

/-- Transaction registry entry i (R249). -/
def State.tx (s : State) (i : Nat) : Tx := SMap.get s.ver.txs {} i

def State.setTx (s : State) (i : Nat) (t : Tx) : State :=
  s.setVer { s.ver with txs := SMap.put s.ver.txs {} i t }

/-- sr.tx fields (R32). -/
def txState (w : Word) : Nat := bits w 31 30
def txIndex (w : Word) : Nat := bits w 15 0

/-- sr.tx of a transaction as the registry has it (R250). -/
def txWord (state cause index : Nat) : Word := BitVec.ofNat 64 (state * 2 ^ 30 + cause * 2 ^ 16 + index)

/-- sr.tx refreshed from the registry (R250). -/
def State.refreshTx (s : State) (w : Word) : Word :=
  if txState w = 0 then w
  else
    let e := s.tx (txIndex w)
    txWord (if e.state = 2 then 2 else 1) (if e.state = 2 then e.cause.toNat else 0) (txIndex w)

/-! ### The pool and the chains (R243, R244) -/

/-- Entries not in use (R242). -/
def Versions.vpfree (v : Versions) : Nat := bits v.vpcount 23 0 - v.pool.length

/-- The HBM offset of pool entry i (R243). -/
def Versions.entryAt (v : Versions) (i : Nat) : Nat := paOffset (bits v.vpbase 55 8 * 256) + 160 * i

def State.poolEntry (s : State) (i : Nat) : Option PoolEntry := SMap.get s.ver.pool none i

def State.setPool (s : State) (i : Nat) (e : Option PoolEntry) : State :=
  s.setVer { s.ver with pool := SMap.put s.ver.pool none i e }

/-- The pool entries of a line, with their indices. -/
def Versions.ofLine (v : Versions) (line : Nat) : List (Nat × PoolEntry) :=
  v.pool.filterMap fun x => match x.2 with
    | some e => if e.line = line then some (x.1, e) else none
    | none => none

/-- The stamp of the version at a line's own address (R240: 0 for the base version). -/
def Versions.stampOf (v : Versions) (line : Nat) : Word := SMap.get v.stamps 0 line

/-- The committed pool version of a line with the greatest stamp below `t` (R243's link). -/
def Versions.olderThan (v : Versions) (line : Nat) (t : Option Word) : Option Nat :=
  ((v.ofLine line).foldl (fun (a : Option (Nat × PoolEntry)) x =>
    if x.2.tentative || t.any (fun u => !(x.2.stamp < u)) then a
    else match a with
      | some y => if y.2.stamp < x.2.stamp then some x else a
      | none => some x) none).map (·.1)

/-- The record bytes of pool entry i written after its data (R243); the link is a PA (log 22). -/
def State.poolImage (s : State) (i : Nat) : State :=
  match s.poolEntry i with
  | none => s
  | some e =>
    let v := s.ver
    let older := v.olderThan e.line (if e.tentative then none else some e.stamp)
    let link := match older with
      | some j => s.ownPa (v.entryAt j)
      | none => 0
    s.hbmWrite (v.entryAt i + 128)
      (leBytes 8 (if e.tentative then 0 else e.stamp.toNat) ++ leBytes 8 (s.ownPa e.line) ++
        leBytes 8 link ++ leBytes 2 (if e.tentative then e.tx.toNat else 0) ++
        leBytes 1 (if e.tentative then 1 else 0) ++ leBytes 5 0)

/-- The records of every pool version of a line written anew. -/
def State.relink (s : State) (line : Nat) : State :=
  (s.ver.ofLine line).foldl (fun s x => s.poolImage x.1) s

/-- A pool entry becomes free; its record reads dead (R243, R244). -/
def State.freeEntry (s : State) (i : Nat) : State :=
  match s.poolEntry i with
  | none => s
  | some e =>
    let a := s.ver.entryAt i
    ((s.hbmWrite (a + 154) [2]).setPool i none).relink e.line

/-- The data of a version and its granules' poison, its check bits applied (R212, R244). -/
def State.readVersion (s : State) (o : Nat) : List Byte × List Bool × State :=
  let (bs, _, s) := s.hbmRead o 128
  (bs, (List.range 4).map fun j => s.granPois (o / 32 + j), s)

/-- A version's data written whole, with its granules' poison (R244). -/
def State.writeVersion (s : State) (o : Nat) (bs : List Byte) (ps : List Bool) : State :=
  (List.range 4).foldl (fun t j => t.setGranPois (o / 32 + j) (ps.getD j false)) ((s.cacheLines o 128).writeHbm o bs)

/-- A line's data and granule poison copied (R244). -/
def State.copyLine (s : State) (src dst : Nat) : State :=
  let (bs, ps, s) := s.readVersion src
  s.writeVersion dst bs ps

/-- Two lines exchange data and granule poison (R244). -/
def State.swapLines (s : State) (x y : Nat) : State :=
  let (bx, px, s) := s.readVersion x
  let (by', py, s) := s.readVersion y
  (s.writeVersion x by' py).writeVersion y bx px

def State.setStamp (s : State) (line : Nat) (t : Word) : State :=
  s.setVer { s.ver with stamps := SMap.put s.ver.stamps 0 line t }

/-- The exchange due at a line after a commit, if any (R244, R253). -/
def State.settle (s : State) (line : Nat) : State :=
  match (s.ver.ofLine line).find? fun x => x.2.tentative && x.2.stamp != 0 with
  | none => s
  | some (i, e) =>
    let old := s.ver.stampOf line
    let s := s.swapLines line (s.ver.entryAt i)
    ((s.setStamp line e.stamp).setPool i
      (some { e with stamp := old, tentative := false, tx := 0 })).relink line

/-! ### Reads (R248) -/

/-- The tentative version of a live or doomed transaction at a line. -/
def State.tentative (s : State) (line tx : Nat) : Option Nat :=
  ((s.ver.ofLine line).find? fun x =>
    x.2.tentative && x.2.stamp == 0 && x.2.tx.toNat == tx).map (·.1)

/-- Where a read of a V line finds its version (R248): the HBM offset of the version's 128 bytes. -/
def State.versionAt (s : State) (line : Nat) (snap tx : Word) : Nat :=
  match if txState tx = 1 then s.tentative line (txIndex tx) else none with
  | some i => s.ver.entryAt i
  | none =>
    let own := (s.ver.stampOf line, line)
    let pool := ((s.ver.ofLine line).filter fun x => !(x.2.tentative && x.2.stamp == 0)).map
      fun x => (x.2.stamp, s.ver.entryAt x.1)
    let seen := (own :: pool).filter fun x => snap == 0 || !decide (snap < x.1)
    match seen with
    | [] => line
    | x :: r => (r.foldl (fun a y => if a.1 < y.1 then y else a) x).2

/-! ### Dooms and transactions (R250, R252, R253) -/

/-- The tentative entries of a transaction are freed (R252, R253). -/
def State.dropTentative (s : State) (tx : Nat) : State :=
  (s.ver.pool.filterMap fun x => match x.2 with
    | some e => if e.tentative && e.stamp == 0 && e.tx.toNat == tx then some x.1 else none
    | none => none).foldl (fun s i => s.freeEntry i) s

/-- Doom(T, c) (R252). -/
def State.doom (s : State) (tx : Nat) (c : Byte) : State :=
  let e := s.tx tx
  if e.state ≠ 1 then s
  else
    let s := (s.setTx tx { e with state := 2, cause := c, lines := 0 }).dropTentative tx
    ({ s with ver := { s.ver with notices := s.ver.notices ++ [tx] } }).record
      (0x2800 + c.setWidth 16) 0x09F2 tx

/-- Every live transaction with a tentative version of a line is doomed (R251). -/
def State.doomOthers (s : State) (line : Nat) (c : Byte) : State :=
  ((s.ver.ofLine line).filter fun x => x.2.tentative && x.2.stamp == 0).foldl
    (fun s x => s.doom x.2.tx.toNat c) s

/-- A pool entry taken for a line, holding a copy of the line as it stands. -/
def State.takeEntry (s : State) (line : Nat) (stamp : Word) (tx : Option Nat) : Option (Nat × State) :=
  match s.pickFree (s.ver.pool.map (·.1)) (bits s.ver.vpcount 23 0) with
  | none => none
  | some (i, s) =>
    let e : PoolEntry := ⟨stamp, line, BitVec.ofNat 16 (tx.getD 0), tx.isSome, s.nextId⟩
    some (i, (({ s with nextId := s.nextId + 1 }.copyLine line (s.ver.entryAt i)).setPool i
      (some e)).relink line)

/-- A plain write to a V line (R244, R251): the old version moves into the pool, `k` writes the
line, and the new version is committed with its own stamp. None when the pool is empty (R255). -/
def State.plainCommit (s : State) (line : Nat) (k : State → State) : Option State :=
  let s := s.settle line
  if s.ver.vpfree = 0 then none
  else
    let s := s.doomOthers line 3
    match s.takeEntry line (s.ver.stampOf line) none with
    | none => none
    | some (_, s) =>
      let (t, s) := (k s).stamp
      some ((s.setStamp line t).relink line)

/-- Entries that a tentative store may take: freed ones go first to the plain writes that wait (R254). -/
def State.poolSpare (s : State) : Nat := s.ver.vpfree - (s.reqs.filter fun r => r.pool.isSome).length

/-- A tentative store of transaction `tx` (R252): bytes at offset `off` of a line. -/
def State.tentativeStore (s : State) (line off : Nat) (bs : List Byte) (tx : Nat) : State :=
  let s := s.settle line
  let t := s.tx tx
  if t.state ≠ 1 then s
  else if t.rstamp < s.ver.stampOf line then s.doom tx 1
  else if (s.ver.ofLine line).any fun x =>
      x.2.tentative && x.2.stamp == 0 && x.2.tx.toNat != tx && (s.tx x.2.tx.toNat).state == 1 then
    s.doom tx 2
  else match s.tentative line tx with
    | some i => s.hbmWrite (s.ver.entryAt i + off) bs
    | none =>
      if s.poolSpare = 0 then s.doom tx 4
      else match s.takeEntry line 0 (some tx) with
        | none => s.doom tx 4
        | some (i, s) =>
          (s.setTx tx { t with lines := t.lines + 1 }).hbmWrite (s.ver.entryAt i + off) bs

/-- A live transaction commits (R253): one stamp, and every tentative version carries it at once. -/
def State.commitTx (s : State) (tx : Nat) : Word × State :=
  let (c, s) := s.stamp
  let pool := s.ver.pool.map fun x => (x.1, x.2.map fun e =>
    if e.tentative && e.stamp == 0 && e.tx.toNat == tx then { e with stamp := c } else e)
  (c, s.setVer { s.ver with pool := pool })

/-- A posted store of a transaction that has ended is discarded at its port, though the registry index
be used again (R251, R253). -/
def WbEntry.orphan (e : WbEntry) (tx : Nat) : WbEntry :=
  if txState e.tx ≠ 0 ∧ txIndex e.tx = tx then { e with tx := txWord 2 0 tx } else e

/-- The stores that a transaction has posted are its no more. -/
def State.orphanStores (s : State) (tx : Nat) : State :=
  let cores : SMap Core := s.cores.map fun x => (x.1, { x.2 with wb := x.2.wb.map (·.orphan tx) })
  { s with cores := cores }

/-- A transaction's registry entry is freed and its read stamp released (R249, R253). -/
def State.freeTx (s : State) (tx : Nat) : State :=
  let r := (s.tx tx).rstamp
  let s := ((s.orphanStores tx).setTx tx {}).releaseStamp r
  { s with ver := { s.ver with notices := s.ver.notices.filter (· != tx) } }

/-! ### The Gleaner (R254) -/

/-- A committed pool version is reclaimable: its next newer committed version is at vlow or below. -/
def State.reclaimable (s : State) (i : Nat) : Bool :=
  match s.poolEntry i with
  | none => false
  | some e =>
    if e.tentative then false
    else
      let newer := (s.ver.ofLine e.line).foldl (fun (m : Word) x =>
        if x.2.stamp != 0 && e.stamp < x.2.stamp && x.2.stamp < m then x.2.stamp else m)
        (s.ver.stampOf e.line)
      decide (e.stamp < newer) && !(s.ver.vlow < newer)

/-- The line that the Gleaner visits next: of those with a reclaimable version, the one that took its
oldest entry first (R254). -/
def State.gleanNext (s : State) : Option Nat :=
  let used := s.ver.pool.filterMap fun x => x.2.map fun e => (x.1, e)
  let lines := (used.filter fun x => s.reclaimable x.1).map (·.2.line)
  let due := used.filter fun x => lines.contains x.2.line
  match due with
  | [] => none
  | x :: r => some (r.foldl (fun (a : Nat × PoolEntry) y => if y.2.born < a.2.born then y else a) x).2.line

/-- A visit frees every reclaimable version of a line (R254). -/
def State.glean (s : State) (line : Nat) : State :=
  let is := ((s.ver.ofLine line).filter fun x => s.reclaimable x.1).map (·.1)
  let s := is.foldl (fun s i => s.freeEntry i) s
  { s with ver := { s.ver with vreclaim := s.ver.vreclaim + BitVec.ofNat 64 is.length } }

end Sys2Proof.Machine
end

