-- ==== Sys2Proof/Machine/Buffer.lean ====
section
/-! DEFINITION. The write buffer (R227, R228), releases and drains (R231), the sending of remote
stores with paths and allowances (R383, R388 to R391), and store errors (R352). -/

namespace Sys2Proof.Machine

/-! ### Sending to other modules (R380, R383, R388, R390) -/

def State.allow (s : State) (cl m : Nat) : Allow := SMap.get (s.cluster cl).allow {} m

def State.setAllow (s : State) (cl m : Nat) (a : Allow) : State :=
  let k := s.cluster cl
  s.setCluster cl { k with allow := SMap.put k.allow {} m a }

/-- Sectors in flight on a path (R388). -/
def State.inFlight (s : State) (cl m p : Nat) : Nat := SMap.get (s.cluster cl).flying 0 (4 * m + p)

def State.setInFlight (s : State) (cl m p n : Nat) : State :=
  let k := s.cluster cl
  s.setCluster cl { k with flying := SMap.put k.flying 0 (4 * m + p) n }

/-- The path a source cluster picks (R383): valid, its link up, fewest sectors in flight. -/
def State.pickPath (s : State) (cl m : Nat) : Option Nat :=
  let w := s.route m
  match (List.range 4).filter fun p => pathValid w p && s.linkUp (pathLink w p) with
  | [] => none
  | p :: r => some (r.foldl (fun a b => if s.inFlight cl m b < s.inFlight cl m a then b else a) p)

/-- A packet sent from a cluster, with a tag of its own (R380). -/
def State.sendPacket (s : State) (cl m path : Nat) (op : PktOp) (pa : Nat) (bs : List Byte)
    (oflag : Bool) (aux : BitVec 7) (args : List Word) : Nat × State :=
  let tag := s.nextTag
  let o := pa % 128
  let p : Packet :=
    { op := op, dst := BitVec.ofNat 9 m, src := s.modNo, sclus := cl, hop := 0, path := path,
      tag := tag, oflag := oflag, mark := false, aux := aux, line := BitVec.ofNat 49 (pa / 128),
      bytes := (List.range bs.length).map (fun i => (o + i, bs.getD i 0)), poison := 0, args := args }
  (tag, { s with nextTag := (tag + 1) % 65536 }.emit p)

/-- The op and w of R55 in aux (R380). -/
def redAux (op : RedOp) (w : Bool) : BitVec 7 := (op.code.setWidth 7 <<< 1) ||| (if w then 1 else 0)
def amoAux (op : AmoOp) (w : Bool) : BitVec 7 := (op.code.setWidth 7 <<< 1) ||| (if w then 1 else 0)

/-- The V bit of an access and who makes it, as every request packet lists them first (log 11). -/
def idArgs (ver : Bool) (core slot inst : Nat) : List Word :=
  [if ver then 1 else 0, BitVec.ofNat 64 core, BitVec.ofNat 64 slot, BitVec.ofNat 64 inst]

/-- The packet of a posted store (R380, R388, R390): one sector in flight more. -/
def State.sendStore (s : State) (core : Nat) (e : WbEntry) (m path : Nat) : State :=
  let cl := clusterOf core
  let ids := idArgs e.ver core e.slot e.inst
  let (tag, s) := match e.op with
    | .bytes => s.sendPacket cl m path .write e.pa e.bytes e.oflag 1 ids
    | .clear => s.sendPacket cl m path .xrdXclr e.pa (List.replicate 128 0) false 0 (ids ++ [1])
    | .red op w y => s.sendPacket cl m path .red e.pa (List.replicate (redSize op w) 0) false
        (redAux op w) (ids ++ [y])
  let a := s.allow cl m
  let s := (s.setAllow cl m { a with n := a.n + 1 }).setInFlight cl m path (s.inFlight cl m path + 1)
  let c := s.core core
  s.setCore core { c with wb := c.wb.map fun x =>
    if x.id = e.id then { x with sent := some (path, tag, s.now) } else x }

/-! ### Bank order (R227) -/

/-- The entries of a bank, oldest first. -/
def Core.bank (c : Core) (b : Nat) : List WbEntry := c.wb.filter fun e => e.bank == b

/-- Two places lie on one module. -/
def sameModule : Place → Place → Bool
  | .remote a, .remote b => a == b
  | .remote _, _ | _, .remote _ => false
  | _, _ => true

/-- An ordered-flag store waits for every earlier store of its strand to the module (R232, R389). -/
def Core.flagReady (c : Core) (e : WbEntry) : Bool :=
  !e.oflag || c.wb.all fun x =>
    !(decide (x.id < e.id) && x.slot == e.slot && x.inst == e.inst && sameModule x.place e.place
      && x.grp != e.grp)

/-- Whether the store directly after the given ones has every earlier store of its bank sent, the
list being the bank's earlier entries, newest first. One of the own module has been sent when it may be
applied, or follows one sent to its place. -/
def Core.allSent (c : Core) : List WbEntry → Bool
  | [] => true
  | p :: r =>
    match p.place with
    | .remote _ => p.sent.isSome && c.allSent r
    | _ => c.flagReady p && match r with
      | [] => true
      | x :: _ => decide (x.place = p.place) && c.allSent r

/-- The first remote entry that may be sent now (R227, R389, R391). -/
def State.sendable (s : State) (core : Nat) : Option (WbEntry × Nat × Nat) :=
  let c := s.core core
  c.wb.findSome? fun e =>
    match e.place with
    | .remote m =>
      let before := ((c.bank e.bank).takeWhile fun x => x.id != e.id).reverse
      let a := s.allow (clusterOf core) m
      if e.sent.isNone && c.allSent before && c.flagReady e && decide (a.n < a.w) then
        (s.pickPath (clusterOf core) m).map fun p => (e, m, p)
      else none
    | _ => none

/-- Every remote store that may be sent is sent, with fuel. -/
def State.pump (s : State) (core : Nat) : Nat → State
  | 0 => s
  | n + 1 =>
    match s.sendable core with
    | none => s
    | some (e, m, p) => (s.sendStore core e m p).pump core n

/-- The buffers' sendable stores are sent: 128 entries a core at most (R227). -/
def State.pumpCore (s : State) (core : Nat) : State := s.pump core 128

/-- An own-module entry may be applied when it is the first of its bank, and an ordered-flag store
after every earlier one of its strand on the module (R227, R232). -/
def State.applicable (s : State) (core : Nat) (e : WbEntry) : Bool :=
  match ((s.core core).bank e.bank).head? with
  | some x => x.id == e.id && (s.core core).flagReady e
  | none => false

/-- The sendable stores of every core of a cluster are sent. -/
def State.pumpCluster (s : State) (cl : Nat) : State :=
  (List.range 24).foldl (fun s i => s.pumpCore (24 * cl + i)) s

/-- An entry is accepted: it is freed, and the bank goes on (R224, R227). -/
def State.accepted (s : State) (core id : Nat) : State :=
  let c := s.core core
  (s.setCore core { c with wb := c.wb.filter fun e => e.id != id }).pumpCore core

/-! ### Posting (R109) -/

/-- The stores of the issuing strand still in the buffer. -/
def State.posted (s : State) : List WbEntry :=
  s.myCore.wb.filter fun e => e.slot == s.issue.slot && e.inst == s.me.inst

/-- A bank has room for `n` entries (R227). -/
def State.bankRoom (s : State) (b n : Nat) : Bool := decide ((s.myCore.bank b).length + n ≤ 16)

/-- An error of one of the strand's stores is still on its way to it (R352). -/
def State.errorDue (s : State) : Bool :=
  s.errors.any fun e => e.core == s.issue.core && e.slot == s.issue.slot && e.inst == s.me.inst

/-- Every earlier store of the strand to a place within a scope has been accepted (R231). -/
def State.releasedAt (s : State) (scope : Nat) : Bool :=
  (s.posted.all fun e => !inScope scope s.issue.core e.place) && !s.errorDue

/-- Every store of the strand has been accepted: what a drain waits for (R194). -/
def State.drained (s : State) : Bool := s.posted.isEmpty && !s.errorDue

/-- A store error that has reached the strand is raised at an instruction that drains, which does not
execute (R352). -/
def unlessError (s : State) (k : State → Res) : Res :=
  match s.me.err with
  | some (code, ea) => .trap (s.setMe { s.me with err := none }) 16 code ea
  | none => k s

/-- An instruction that drains (R194): it waits until the strand's stores have been accepted. -/
def draining (s : State) (got : List (Nat × Answer)) (k : State → Res) : Res :=
  if s.drained then unlessError s k else .hold s .drain got

/-- A release at a scope (R231). -/
def releasing (s : State) (scope : Nat) (k : State → Res) : Res :=
  if s.releasedAt scope then unlessError s k else .hold s .drain s.got

/-- Scope code 0 is system (R49). -/
def scopeOf (m : MW) : Nat := m.scope.toNat

/-- The pieces of a store that lie within one 128-byte sector each (R227): offset and length. -/
def sectors (a n : Nat) : List (Nat × Nat) :=
  let first := min n (128 - a % 128)
  if n = 0 then []
  else (0, first) :: (List.range ((n - first + 127) / 128)).map fun i =>
    (first + 128 * i, min 128 (n - first - 128 * i))

/-- An entry of the issuing strand for a place. -/
def State.wbEntry (s : State) (place : Place) (op : StoreOp) (addr pa : Nat) (ea : Word)
    (bs : List Byte) (p : List Bool) (ver oflag : Bool) (grp : Nat) : WbEntry :=
  { id := s.nextId, slot := s.issue.slot, inst := s.me.inst, bank := bankOf place, place := place,
    op := op, addr := addr, pa := pa, ea := ea, bytes := bs, poison := p, ver := ver,
    snap := s.me.snap, tx := s.me.tx, sup := s.me.priv, oflag := oflag, grp := grp, sent := none }

/-- An entry appended to the core's buffer, and sent when it may be. -/
def State.post (s : State) (e : WbEntry) : State :=
  let c := s.myCore
  ({ s with nextId := s.nextId + 1 }.setMyCore { c with wb := c.wb ++ [e] }).pumpCore s.issue.core

/-- The strand has an earlier store not accepted to a sector of its place (R228). -/
def State.ownSector (s : State) (place : Place) (addr n : Nat) : Bool :=
  s.posted.any fun e => decide (e.place = place) && decide (e.addr / 128 ≤ (addr + n - 1) / 128 ∧
    addr / 128 ≤ (e.addr + (max e.bytes.length 1) - 1) / 128)

/-- The strand has an earlier store not accepted on the module of a place. -/
def State.postedOn (s : State) (place : Place) : Bool := s.posted.any fun e => sameModule e.place place

/-- A remote store needs allowance at issue (R391). -/
def State.allowed (s : State) (place : Place) : Bool :=
  match place with
  | .remote m => let a := s.allow s.myCluster m; decide (a.n < a.w)
  | _ => true

/-! ### Store errors (R352) -/

/-- A strand with this binding is still there. -/
def State.alive (s : State) (core slot inst : Nat) : Bool :=
  let t := s.strand core slot
  t.st != .free && t.inst == inst

/-- The error reaches the core (R352). -/
def State.reportError (s : State) (e : StoreErr) : State :=
  let s := { s with errors := s.errors.erase e }
  if s.alive e.core e.slot e.inst then
    let t := s.strand e.core e.slot
    match t.err with
    | none => s.setStrand e.core e.slot { t with err := some (e.code, e.ea) }
    | some _ => s.record e.code e.core e.ea.toNat
  else
    let c := s.core e.core
    (s.setCore e.core { c with ipend := c.ipend ||| 0x10 }).record e.code e.core e.ea.toNat

end Sys2Proof.Machine
end

