-- ==== Sys2Proof/Machine/Tasks.lean ====
section
/-! DEFINITION. Tasks between bindings (R134 to R140, R156 to R158): descriptors and their bytes,
deques, arrival queues and their rings, park records, parking, waking and binding. -/

namespace Sys2Proof.Machine

/-! ### Descriptors (R139) -/

def b1 (b : Bool) : Nat := if b then 1 else 0

/-- The 32-byte header and the carry set (R139). -/
def Desc.bytes (d : Desc) : List Byte :=
  leBytes 8 (b1 d.mig * 2 ^ 63 + d.prio.toNat * 2 ^ 61 + d.tiles.toNat * 2 ^ 58 + d.pc.toNat) ++
  leBytes 8 (d.pois.toNat * 2 ^ 35 + b1 d.resume * 2 ^ 34 + d.ixk.toNat * 2 ^ 32 +
    d.index.toNat * 2 ^ 16 + d.pred.toNat) ++
  leBytes 8 d.self.toNat ++ leBytes 8 d.parent.toNat ++
  (List.range 16).flatMap fun i => leBytes 8 (d.carry.getD i 0).toNat

/-- The descriptor its bytes give. -/
def descOf (bs : List Byte) : Desc :=
  let w := fun i => leWord ((bs.drop (8 * i)).take 8)
  { mig := (w 0).getLsbD 63, prio := (w 0).extractLsb' 61 2, tiles := (w 0).extractLsb' 58 3,
    pc := (w 0).extractLsb' 0 56, pois := (w 1).extractLsb' 35 16, resume := (w 1).getLsbD 34,
    ixk := (w 1).extractLsb' 32 2, index := (w 1).extractLsb' 16 16, pred := (w 1).extractLsb' 0 16,
    self := w 2, parent := w 3, carry := (List.range 16).map fun i => w (4 + i) }

/-- The resume entry of a park index (R139). -/
def resumeDesc (mig : Bool) (prio : BitVec 2) (self parent : Word) (idx : Nat) : Desc :=
  { mig := mig, prio := prio, tiles := 0, pc := 0, pois := 0, resume := true, ixk := 0, index := 0,
    pred := 0, self := self, parent := parent,
    carry := BitVec.ofNat 64 idx :: List.replicate 15 0 }

/-- The park index a resume entry names. -/
def Desc.parkIndex (d : Desc) : Nat := (d.carry.headD 0).toNat % 2 ^ 32

/-! ### Rings (R156, R336; entries of 160 bytes, log 10) -/

def ringPa (w : Word) : Nat := bits w 55 8 * 256
/-- Entries a ring holds; 0 means no ring (R338). -/
def ringSize (w : Word) : Nat := if bits w 4 0 = 0 then 0 else 2 ^ bits w 4 0

/-- An entry written into a ring. -/
def State.ringPut (s : State) (ring : Word) (i : Nat) (d : Desc) : State :=
  s.hbmWrite (paOffset (ringPa ring) + 160 * i) d.bytes

/-- An entry read from a ring; none when its words are poisoned (R155). -/
def State.ringGet (s : State) (core : Nat) (ring : Word) (i : Nat) : Option Desc × State :=
  let (bs, ps, s) := s.hbmRead (paOffset (ringPa ring) + 160 * i) 160
  if ps.any id then (none, s.record 0x8607 (0x0900 + clusterOf core) i)
  else (some (descOf bs), s)

/-- A push at the young end of a deque needs room: 63 entries, or a ring with room (R156). -/
def Core.dequeRoom (c : Core) : Bool :=
  decide (c.deque.length < 64) || decide (c.dqFill < ringSize c.dqring)

/-- DEQUE_SPILL and the push itself (R156). -/
def State.pushDeque (s : State) (core : Nat) (d : Desc) : State :=
  let c := s.core core
  match c.deque with
  | old :: rest =>
    if c.deque.length ≥ 64 then
      let s := s.ringPut c.dqring c.dqFill old
      let c := (s.core core).count 2 1
      s.setCore core { c with deque := rest ++ [d], dqFill := c.dqFill + 1 }
    else s.setCore core { c with deque := c.deque ++ [d] }
  | [] => s.setCore core { c with deque := [d] }

/-- An arrival is accepted: into the queue, or its ring (R156). -/
def Core.arrivalRoom (c : Core) : Bool :=
  (decide (c.arrivals.length < 64) && decide (c.arFill = 0)) || decide (c.arFill < ringSize c.arring)

/-! ### Park records (R136, R137) -/

/-- The HBM offset of a cluster's park area. -/
def State.parkOff (s : State) (cl : Nat) : Nat := paOffset (bits (s.cluster cl).parkbase 55 12 * 4096)

/-- The PA of park record i. -/
def State.parkPa (s : State) (cl i : Nat) : Nat := s.ownPa (s.parkOff cl + 384 * i)

/-- A resume entry that a wake delivers, and no YIELD: its record does not have wait kind 5 (R137), which the
Reeve knows without a read. A park base that is not set names no record (R338). -/
def State.isWake (s : State) (core : Nat) (d : Desc) : Bool :=
  d.resume && (s.cluster (clusterOf core)).parkbase != 0 && s.seen (s.parkOff (clusterOf core) + 384 * d.parkIndex + 294) 1 != [5]

/-- An arrival (GO, a wake, YIELD) reaches its core; a full ring refuses it, and it is resent (R156, log
59). It is counted when it is taken, a wake as a wake too (R179). -/
def State.arrive (s : State) (core : Nat) (d : Desc) : State :=
  let c := s.core core
  let n := b1 (s.isWake core d)
  if c.arrivals.length < 64 ∧ c.arFill = 0 then
    s.setCore core { (c.count 4 1).count 11 n with arrivals := c.arrivals ++ [d] }
  else if c.arFill < ringSize c.arring then
    let s := s.ringPut c.arring ((c.arHead + c.arFill) % ringSize c.arring) d
    let c := (((s.core core).count 4 1).count 11 n).count 6 1
    s.setCore core { c with arFill := c.arFill + 1 }
  else s.setCore core { c with resend := c.resend ++ [d] }

/-- Requests that no strand waits for stand in the list of requests under this slot number, the first core
of their cluster making them (log 11). -/
abbrev errandSlot : Nat := 8000

/-- Park indices given back whose waiter another module is still asked to take out of a chain: they are not
taken again before it has answered (log 42). -/
def State.leavingParks (s : State) (cl : Nat) : List Nat :=
  s.reqs.filterMap fun r =>
    if r.pkt.isNone ∧ r.slot = errandSlot ∧ r.core = 24 * cl ∧ r.elem ≠ 0 then some (r.elem - 1) else none

/-- The park indices that cannot be taken, rising. -/
def State.heldParks (s : State) (cl : Nat) : List Nat :=
  ((s.leavingParks cl).foldl (fun m i => SMap.put m 0 i 1) (s.cluster cl).parked).map (·.1)

/-- A free park index, taken for a task of a core (R136, R338). -/
def State.takePark (s : State) (core : Nat) : Option (Nat × State) :=
  let cl := clusterOf core
  if (s.cluster cl).parkbase = 0 then none
  else match s.pickFree (s.heldParks cl) 65536 with
    | none => none
    | some (i, s) =>
      let k := s.cluster cl
      some (i, s.setCluster cl { k with parked := SMap.put k.parked 0 i (core + 1) })

/-- A park index is free again, and nothing is kept for it. -/
def State.givePark (s : State) (cl i : Nat) : State :=
  let k := s.cluster cl
  s.setCluster cl { k with parked := SMap.put k.parked 0 i 0, parkRows := SMap.put k.parkRows 0 i 0,
                           parkSup := SMap.put k.parkSup {} i {} }

/-- Header fields of a bound strand (R139, R161): the snapshot or transaction by its index. -/
def State.ixkOf (s : State) (t : Strand) : BitVec 2 × BitVec 16 :=
  if txState t.tx ≠ 0 then (2, BitVec.ofNat 16 (txIndex t.tx))
  else if t.snap ≠ 0 then (1, BitVec.ofNat 16 ((s.snapIndex t.snap).getD 0))
  else (0, 0)

/-- The descriptor of a strand as it stands, resuming at `pc` (R137, R161). -/
def State.descOfStrand (s : State) (t : Strand) (pc : Word) : Desc :=
  let (k, i) := s.ixkOf t
  { mig := t.mig, prio := t.prio, tiles := 0, pc := pc.setWidth 56,
    pois := BitVec.ofNat 16 ((List.range 16).foldl (fun m i =>
      if (t.reg (BitVec.ofNat 5 i)).p then m + 2 ^ i else m) 0),
    resume := false, ixk := k, index := i, pred := t.pred, self := t.task, parent := t.parent,
    carry := (List.range 16).map fun i => (t.reg (BitVec.ofNat 5 i)).v }

/-- What stands in bytes 294 to 303 and 344 to 383 of a record. -/
structure ParkTail where
  kind : Nat
  b295 : Nat := 0
  b296 : Nat := 0
  flags : Nat := 0
  code : Nat := 0
  obj : Word := 0
  link : Word := 0
  ea : Word := 0

/-- The 384 bytes of a record (R137, R351); cpois of the header repeats the poison of g0 to g15 (R139). -/
def State.recordBytes (s : State) (t : Strand) (pc : Word) (x : ParkTail) : List Byte :=
  let d := s.descOfStrand t pc
  d.bytes.take 32 ++
  (List.range 32).flatMap (fun i => leBytes 8 (t.reg (BitVec.ofNat 5 i)).v.toNat) ++
  leBytes 4 ((List.range 32).foldl (fun m i =>
    if (t.reg (BitVec.ofNat 5 i)).p then m + 2 ^ i else m) 0) ++
  leBytes 2 t.pred.toNat ++ leBytes 1 x.kind ++ leBytes 1 x.b295 ++ leBytes 1 x.b296 ++
  leBytes 1 x.flags ++ leBytes 2 0 ++ leBytes 2 x.code ++ leBytes 2 0 ++
  leBytes 8 t.seed.toNat ++ leBytes 8 t.rctr.toNat ++ leBytes 8 t.shape.toNat ++
  leBytes 8 t.snap.toNat ++ leBytes 8 t.tx.toNat ++
  leBytes 8 x.obj.toNat ++ leBytes 8 x.link.toNat ++ leBytes 8 x.ea.toNat ++ leBytes 16 0

/-- Byte 295 (R185). -/
def byte295 (d : Reg) (len : Nat) (q : Bool) : Nat :=
  d.toNat + (if len = 4 then 0 else if len = 2 then 1 else 2) * 32 + (if q then 128 else 0)

/-- The length byte 295 records (R185). -/
def len295 (b : Nat) : Nat := if b / 32 % 4 = 0 then 4 else if b / 32 % 4 = 1 then 2 else 8

/-- The strand a record holds (R135, R137, R247, R351), as its slot has it when it is bound. -/
def State.strandOf (s : State) (bs : List Byte) : Strand :=
  let w := fun o n => leNat ((bs.drop o).take n)
  let d := descOf (bs.take 32 ++ List.replicate 128 0)
  let pois := w 288 4
  { g := (List.range 32).foldl (fun m i =>
      SMap.put m ⟨0, false⟩ i ⟨BitVec.ofNat 64 (w (32 + 8 * i) 8), pois / 2 ^ i % 2 == 1⟩) [],
    pred := BitVec.ofNat 16 (w 292 2) ||| 1, pc := evenPc (d.pc.setWidth 64), seed := BitVec.ofNat 64 (w 304 8),
    rctr := BitVec.ofNat 64 (w 312 8), shape := BitVec.ofNat 64 (w 320 8),
    snap := BitVec.ofNat 64 (w 328 8), tx := s.refreshTx (BitVec.ofNat 64 (w 336 8)),
    task := d.self, mig := d.mig, prio := d.prio, parent := d.parent }

/-! ### Freeing a slot, and binding -/

/-- A chain register marked full. -/
def Core.refill (c : Core) (n : Nat) : Core :=
  let t := SMap.get c.tiles {} n
  { c with tiles := SMap.put c.tiles {} n { t with entry := t.entry ||| 0x4000000000000000 } }

/-- The claims of a slot's instruction are given up: the chain sources it had emptied are full
again, and its destination is no longer claimed. -/
def Core.unclaim (c : Core) (slot : Nat) : Core :=
  let mine := c.claims.filter fun x => x.slot == slot
  let c := { c with claims := c.claims.filter fun x => x.slot != slot }
  mine.foldl (fun c x => if x.write then c else c.refill x.tile) c

/-- The strand in a slot owns its core's port. -/
def Core.ownedBy (c : Core) (slot : Nat) : Bool := c.ownerPark.isNone && c.owner == some slot

/-- A slot that its task has left, the core's port owned as `owner` and `park` say. -/
def State.vacate (s : State) (core slot : Nat) (owner park : Option Nat) : State :=
  let c := s.core core
  let claims := c.claims.filter fun x => x.slot != slot
  s.setCore core ({ c with owner := owner, ownerPark := park, claims := claims }.setStrand slot
    (SMap.get c.strands {} slot).freed)

/-- A slot that holds no task: a port binding ends (R171). -/
def State.freeSlot (s : State) (core slot : Nat) : State :=
  let c := s.core core
  if c.ownedBy slot then s.vacate core slot none none
  else s.vacate core slot c.owner c.ownerPark

/-- The slot of a task parked under an index: its port binding goes on (R135, R171). -/
def State.parkSlot (s : State) (core slot idx : Nat) : State :=
  let c := s.core core
  if c.ownedBy slot then s.vacate core slot c.owner (some idx)
  else s.vacate core slot c.owner c.ownerPark

/-- The port binding of a parked task moves to the slot in which it resumes, or ends. -/
def State.moveOwner (s : State) (core idx : Nat) (slot : Option Nat) : State :=
  let c := s.core core
  if c.ownerPark = some idx then s.setCore core { c with owner := slot, ownerPark := none } else s

/-- The strand of a fresh descriptor (R40, R247). -/
def State.freshStrand (s : State) (d : Desc) : Strand :=
  let (snap, tx) :=
    if d.ixk = 1 then ((SMap.get s.ver.snaps {} d.index.toNat).stamp, (0 : Word))
    else if d.ixk = 2 then
      let e := s.tx d.index.toNat
      (e.rstamp, s.refreshTx (txWord 1 0 d.index.toNat))
    else (0, 0)
  { g := (List.range 16).foldl (fun m i =>
      SMap.put m ⟨0, false⟩ i ⟨d.carry.getD i 0, d.pois.getLsbD i⟩) [],
    pred := d.pred ||| 1, pc := evenPc (d.pc.setWidth 64), seed := d.self, snap := snap, tx := tx,
    task := d.self, mig := d.mig, prio := d.prio, parent := d.parent }

/-- A strand placed ready into a slot, as a new binding. -/
def State.place (s : State) (core slot : Nat) (t : Strand) : State :=
  let s' := s.setStrand core slot { t with st := .ready, inst := s.nextId }
  { s' with nextId := s.nextId + 1 }

end Sys2Proof.Machine
end

