-- ==== Sys2Proof/Machine/Places.lean ====
section
/-! DEFINITION. The serving places at work (R203, R210, R223 to R225): answers, reservations, merge
groups and exact cells, reads and read-writes at memory ports and scratchpads, tags and their order
(R165 to R167), and the application of posted stores. -/

namespace Sys2Proof.Machine

/-! ### Answers -/

/-- The poison bits of the words of a line, from those of the words read. -/
def linePoison (o : Nat) (ps : List Bool) : BitVec 16 :=
  BitVec.ofNat 16 ((List.range ps.length).foldl (fun m i =>
    if ps.getD i false then m + 2 ^ (o % 128 / 8 + i) else m) 0)

/-- An answer as a reply packet (R380, log 11): a predicate as a word, a trap as an error reply with
its code. -/
def answerPacket (p : Packet) (o : Nat) (a : Answer) : Packet :=
  match a with
  | .data bs ps =>
    replyPacket p .readReply 0 false
      ((List.range bs.length).map fun i => (o % 128 + i, bs.getD i 0)) (linePoison o ps) []
  | .word v b => replyPacket p .readReply 0 false [] (if b then 1 else 0) [v]
  | .pred b => replyPacket p .readReply 0 false [] 0 [if b then 1 else 0]
  | .trap cause code v =>
    replyPacket p .error 0 false [] 0 ([cause.setWidth 64, code.setWidth 64, v] ++ p.merged)
  | .note n =>
    if p.op = .futReq ∨ p.op = .futDel ∨ p.op = .lrw then replyPacket p .readReply 0 false [] 0 [BitVec.ofNat 64 n, 1]
    else ackPacket p

/-- A request is answered: it leaves the list, and its answer sets out. -/
def State.answerReq (s : State) (r : Req) (a : Answer) : State :=
  let s := { s with reqs := s.reqs.filter fun x => x.id != r.id }
  match r.pkt with
  | some p => s.emit (answerPacket p r.addr a)
  | none => { s with replies := s.replies ++ [⟨r.id, r.core, r.slot, r.inst, r.elem, a⟩] }

def State.setReq (s : State) (r : Req) : State :=
  { s with reqs := s.reqs.map fun x => if x.id = r.id then r else x }

/-! ### Reservations (R273 to R276) -/

/-- HBM bytes read at a port, by the version rules (R248); the line that holds the version is the one
accessed (R214). -/
def State.portRead (s : State) (o n : Nat) (ver : Bool) (snap tx : Word) :
    List Byte × List Bool × State :=
  let line := o / 128 * 128
  let src := if ver then s.versionAt line snap tx + o % 128 else o
  (s.cacheLines src n).readHbm src n

/-- The head of a line's queue is granted, if it is not yet: its LRW reads at the grant (R274). -/
def State.grant (s : State) (line : Nat) : State :=
  match s.resv.find? fun r => r.line == line with
  | none => s
  | some h =>
    match h.granted, h.req with
    | none, some id =>
      let held : Resv := { h with granted := some s.now, req := none, intact := true }
      let resv := s.resv.map fun r => if r = h then held else r
      let s := { s with resv := resv }
      match s.reqs.find? fun q => q.id == id with
      | none => s
      | some q =>
        let (bs, ps, s) := (s.flushLine q.addr).portRead q.addr 8 q.ver 0 0
        s.answerReq q (.data bs ps)
    | _, _ => s

/-- Whether a line lies at the own module. -/
def State.ownLine (s : State) (line : Nat) : Bool := line / 2 ^ 40 == s.modNo.toNat

/-- The reservations of a strand on some lines are released, and the next in each queue is granted
(R276). The record of a line of another module is released there by an SCH packet that stores nothing
(log 11). -/
def State.releaseLines (s : State) (core slot inst : Nat) (which : Nat → Bool) : State :=
  let hit := fun (r : Resv) => r.core == core && r.slot == slot && r.inst == inst && which r.line
  let mine := s.resv.filter hit
  let s := { s with resv := s.resv.filter fun r => !hit r }
  mine.foldl (fun s r =>
    if s.ownLine r.line then s.grant r.line
    else
      let m := r.line / 2 ^ 40
      let cl := clusterOf core
      match s.pickPath cl m with
      | none => s
      | some p => (s.sendPacket cl m p .sch (r.line * 128) [] false 0
          (idArgs false core slot inst ++ [1])).2) s

/-- Every reservation of a strand is released (R276). -/
def State.releaseResv (s : State) (core slot inst : Nat) : State :=
  s.releaseLines core slot inst fun _ => true

/-! ### Reductions at a port (R269) -/

/-- A RED to a line that is not versioned reaches its port: it joins the pending group it fits, or
stands by itself, a full write queue having applied its oldest group (R210, R269). -/
def State.joinRed (s : State) (o : Nat) (op : RedOp) (w : Bool) (x : RedVal) : State :=
  let line := s.ownPa o / 128
  let s := s.touchLine line x.core x.slot x.inst
  let fits := fun (g : Group) => g.addr == o && g.op == op && g.w == w && decide (g.vals.length < 256)
  let other := s.groups.any fun g => g.addr / 128 == o / 128 && !fits g
  if op ≠ .fadd ∧ ¬other ∧ s.groups.any fits then
    { s with groups := s.groups.map fun g => if fits g then { g with vals := g.vals ++ [x] } else g }
  else
    let s := s.flushLine o
    let port := s.groups.filter fun g => g.port == homePort o
    let s := match port.head? with
      | some g => if port.length ≥ 256 then s.applyGroup g else s
      | none => s
    let g : Group := ⟨s.nextId, homePort o, o, op, w, [x]⟩
    let s := { s with nextId := s.nextId + 1, groups := s.groups ++ [g] }
    if op = .fadd then s.applyGroup g else s

/-! ### Requests at a memory port (R210, R248, R251, R265 to R275) -/

/-- What a place makes of a request. -/
inductive Served where
  | answer (a : Answer) (s : State)
  /-- the request stays at the place -/
  | stay (s : State)

/-- The bytes of a line in runs without a gap, each with its first byte's number. -/
def byteRuns : List (Nat × Byte) → List (Nat × List Byte)
  | [] => []
  | (i, b) :: r => match byteRuns r with
    | (j, bs) :: t => if j = i + 1 then (i, b :: bs) :: t else (i, [b]) :: (j, bs) :: t
    | [] => [(i, [b])]

/-- The granules of poisoned words of a write are marked (R204, R379). -/
def State.markPoison (s : State) (p : Packet) : State :=
  p.bytes.foldl (fun s b =>
    if p.poison.getLsbD (b.1 / 8) then s.setGranPois ((paOffset (p.line.toNat * 128) + b.1) / 32) true
    else s) s

/-- The bytes that a write stores: its own, or those its packet's mask names, with their poison (R379). -/
def State.writeBytes (s : State) (o : Nat) (bs : List Byte) (pkt : Option Packet) : State :=
  match pkt with
  | none => s.writeHbm o bs
  | some p => ((byteRuns p.bytes).foldl (fun s x => s.writeHbm (o / 128 * 128 + x.1) x.2) s).markPoison p

/-- The write of an access that has been to its line, by `k`: plain, or as a commit of its own on a V line
(R251). -/
def State.commitLine (s : State) (o : Nat) (ver : Bool) (k : State → State) : Option State :=
  if ver then s.plainCommit (o / 128 * 128) k else some (k s)

/-- A write to a line. -/
def State.writeLine (s : State) (o : Nat) (ver : Bool) (core slot inst : Nat) (k : State → State) :
    Option State :=
  ((s.cacheAccess o).touchLine (s.ownPa o / 128) core slot inst).commitLine o ver k

/-- A plain write of a V line has its turn at the pool: fewer writes began waiting before it than
there are free entries (R254, R255). -/
def State.poolTurn (s : State) (r : Req) : Bool :=
  let before := s.reqs.filter fun x => x.pool.isSome && x.id != r.id &&
    (r.pool.isNone || decide (x.since < r.since))
  decide (before.length < s.ver.vpfree)

/-- The write waits for a pool entry (R255). -/
def State.poolWait (s : State) (r : Req) : Served :=
  if r.pool.isSome then .stay s
  else .stay ({ s with nextId := s.nextId + 1 }.setReq { r with pool := some s.now, since := s.nextId })

/-- The old value replaced by what `k` gives, unless it is poisoned; the old value is the answer
(R265 to R267). -/
def State.rmw (s : State) (r : Req) (k : Nat → Option Nat) : Served :=
  let o := r.addr
  let (bs, ps, s1) := (s.cacheAccess o).readHbm o r.size
  let old := leNat bs
  let ans := Answer.word (BitVec.ofNat 64 old) (ps.any id)
  let s1 := s1.touchLine (s.ownPa o / 128) r.core r.slot r.inst
  match if ps.any id then none else k old with
  | none => .answer ans s1
  | some new =>
    if r.ver && !s.poolTurn r then s.poolWait r
    else match s1.commitLine o r.ver fun s => s.writeHbm o (leBytes r.size new) with
      | none => s.poolWait r
      | some s => .answer ans s

/-- A reservation's holder: granted on this line, and intact (R275). -/
def State.holds (s : State) (r : Req) : Bool :=
  s.resv.any fun x => x.line == s.ownPa r.addr / 128 && x.core == r.core && x.slot == r.slot &&
    x.inst == r.inst && x.granted.isSome && x.intact

/-- An LRW may take a record at its port: one of the 1,024 is free, and no LRW that arrived earlier waits
for one (R273). -/
def State.recordFree (s : State) (r : Req) : Bool :=
  let q := homePort r.addr
  let here := s.resv.filter fun x => s.ownLine x.line && homePort (x.line % 2 ^ 40 * 128) == q
  let before := s.reqs.any fun x => decide (x.op = .lrw) && decide (x.place = .port q) && x.since != 0 &&
    x.id != r.id && (r.since == 0 || decide (x.since < r.since)) &&
    s.resv.all fun y => y.req != some x.id
  decide (here.length < 1024) && !before

/-- A request at a home port. On a V line a RED waits for the pool before it meets poison (log 63). -/
def State.serveHbm (s : State) (r : Req) : Served :=
  let o := r.addr
  if s.resv.any (fun x => x.req == some r.id) then .stay s else
  let s := s.flushLine o
  let s := if r.ver && r.snap == 0 then s.settle (o / 128 * 128) else s
  match r.op with
  | .load | .xrd | .ldw =>
    let (bs, ps, s) := s.portRead o r.size r.ver r.snap r.tx
    .answer (.data bs ps) s
  | .amo op w y => s.rmw r fun old => some (amoNew op w old y.v.toNat)
  | .cas _ cmp y =>
    s.rmw r fun old =>
      if old = cmp.toNat % 2 ^ (8 * r.size) then some (y.v.toNat % 2 ^ (8 * r.size)) else none
  | .lrw =>
    let s := s.releaseResv r.core r.slot r.inst
    if !s.recordFree r then
      .stay (if r.since = 0 then
        { s with nextId := s.nextId + 1 }.setReq { r with since := s.nextId } else s)
    else
      let line := s.ownPa o / 128
      let x : Resv := ⟨line, r.core, r.slot, r.inst, some r.id, none, true⟩
      .stay ({ s with resv := s.resv ++ [x] }.grant line)
  | .sch y =>
    if !s.holds r then
      .answer (.pred false) ((s.touchLine (s.ownPa o / 128) r.core r.slot r.inst).releaseResv
        r.core r.slot r.inst)
    else if r.ver && !s.poolTurn r then s.poolWait r
    else match s.writeLine o r.ver r.core r.slot r.inst fun s => s.writeHbm o (leBytes 8 y.toNat) with
      | none => s.poolWait r
      | some s => .answer (.pred true) (s.releaseResv r.core r.slot r.inst)
  | .write op bs =>
    if r.ver && !s.poolTurn r then s.poolWait r
    else
      let put := fun (s1 : State) (k : State → State) =>
        match s1.writeLine o r.ver r.core r.slot r.inst k with
        | none => s.poolWait r
        | some t => Served.answer (.note 0) t
      match op with
      | .bytes => put s fun s => s.writeBytes o bs r.pkt
      | .clear => put s fun s => s.writeHbm o (List.replicate 128 0)
      | .red op w y =>
        let (old, ps, s1) := (s.cacheAccess o).readHbm o (redSize op w)
        if ps.any id then .answer (.trap 16 0x4901 r.ea) s1
        else put s1 fun s => s.writeHbm o (redBytes op w [y] old)
  | .stw _ | .future .. | .members _ | .member .. | .barrier .. | .release .. => .answer (.note 0) s

/-- A request at the host interface: reads, and the AtomicOps of R263, which the host may refuse. -/
def State.serveHost (s : State) (r : Req) : Served :=
  let old := leNat (s.bytes r.addr r.size)
  let atomic := fun (new : Nat) =>
    let (c, s) := s.choose 2
    if c = 1 then Served.answer (.trap 15 0x2903 r.ea) s
    else .answer (.word (BitVec.ofNat 64 old) false) (s.putBytes r.addr (leBytes r.size new))
  match r.op with
  | .amo op w y => atomic (amoNew op w old y.v.toNat)
  | .cas _ cmp y =>
    atomic (if old = cmp.toNat % 2 ^ (8 * r.size) then y.v.toNat % 2 ^ (8 * r.size) else old)
  | _ =>
    let (bs, ps, s) := s.readHost r.addr r.size
    .answer (.data bs ps) s

/-! ### Tags and requests at a scratchpad (R165 to R168, R202, R203, R267) -/

/-- A waiter on tags: since when, its words, and the state it wants. -/
structure TagWaiter where
  since : Nat
  words : List Nat
  full : Bool

/-- The tag state a request wants of its words. -/
def ReqOp.wantsFull : ReqOp → Bool
  | .stw _ => false
  | _ => true

/-- The accesses that wait on tags of a scratchpad: strands of the core itself, and requests. -/
def State.tagWaiters (s : State) (core : Nat) : List TagWaiter :=
  ((s.core core).strands.filterMap fun x => match x.2.flight with
    | some f => match f.on with
      | .tag c ws full => if c = core then some (TagWaiter.mk f.since ws full) else none
      | _ => none
    | none => none) ++
  s.reqs.filterMap fun r =>
    if r.place = .spad core ∧ r.since ≠ 0 then
      some (TagWaiter.mk r.since (wordsOf r.addr r.size) r.op.wantsFull)
    else none

/-- Every word's tag is as wanted. -/
def State.tagsAre (s : State) (core : Nat) (ws : List Nat) (full : Bool) : Bool :=
  ws.all fun w => s.tagFull core w == full

/-- An access may proceed: its tags are right, and no access that waits for the same state of one of its
words began waiting before it (R167; log 32). -/
def State.tagsAllow (s : State) (core : Nat) (ws : List Nat) (full : Bool) (since : Nat) : Bool :=
  s.tagsAre core ws full && (s.tagWaiters core).all fun x =>
    !(decide (x.since < since) && x.full == full && x.words.any ws.contains)

/-- LDW on a scratchpad word whose turn it is (R196). -/
def State.takeWord (s : State) (core off : Nat) : PW × State :=
  let (bs, ps, s) := s.readSpad core off 8
  (⟨leWord bs, ps.any id⟩, s.setTag core (off / 8) false)

/-- STW on a scratchpad word whose turn it is (R196). -/
def State.fillWord (s : State) (core off : Nat) (d : PW) : State :=
  (s.writeSpad core off (leBytes 8 d.v.toNat) [d.p]).setTag core (off / 8) true

/-- A read-write on a scratchpad word (R267): the poison of the old word and of the operand meet. -/
def State.spadRmw (s : State) (core off n : Nat) (p : Bool) (k : Nat → Option Nat) : PW × State :=
  let (bs, ps, s) := s.readSpad core off n
  let old := leNat bs
  let op := ps.any id
  (⟨BitVec.ofNat 64 old, op⟩, match k old with
    | none => s
    | some new =>
      (s.putBytes (spadKey core off) (leBytes n new)).setSpadPois core (off / 8) (op || p))

/-- The new value of a CAS (R266). -/
def casNew (n : Nat) (cmp y : Word) (old : Nat) : Option Nat :=
  if old = cmp.toNat % 2 ^ (8 * n) then some (y.toNat % 2 ^ (8 * n)) else none

/-- A request through the cluster window at a scratchpad. -/
def State.serveSpad (s : State) (core : Nat) (r : Req) : Served :=
  let ws := wordsOf r.addr r.size
  let s := s.checkTags core ws
  let since := if r.since = 0 then s.nextId else r.since
  if !s.tagsAllow core ws r.op.wantsFull since then
    if r.since = 0 then
      .stay ({ s with nextId := s.nextId + 1 }.setReq { r with since := s.nextId, cyc := s.now })
    else .stay s
  else match r.op with
    | .ldw => let (x, s) := s.takeWord core r.addr; .answer (.word x.v x.p) s
    | .stw d => .answer (.note 0) (s.fillWord core r.addr d)
    | .amo op w y =>
      let (x, s) := s.spadRmw core r.addr r.size y.p fun old => some (amoNew op w old y.v.toNat)
      .answer (.word x.v x.p) s
    | .cas _ cmp y =>
      let (x, s) := s.spadRmw core r.addr r.size y.p (casNew r.size cmp y.v)
      .answer (.word x.v x.p) s
    | _ =>
      let (bs, ps, s) := s.readSpad core r.addr r.size
      .answer (.data bs ps) s

/-! ### Posted stores (R224, R227, R251) -/

/-- A store at its memory port: tentative in a live transaction, discarded in a doomed one, a
reduction into its merge group, bytes into the line. One discarded ends reservations too (log 63). -/
def State.storeHbm (s : State) (core : Nat) (e : WbEntry) : State :=
  let o := e.addr
  let bs := if e.op = .clear then List.replicate 128 0 else e.bytes
  if e.ver then
    let s := (s.flushLine o).touchLine (s.ownPa o / 128) core e.slot e.inst
    if txState e.tx ≠ 1 then s
    else (s.cacheAccess o).tentativeStore (o / 128 * 128) (o % 128) bs (txIndex e.tx)
  else match e.op with
    | .red op w y => s.joinRed o op w ⟨y, core, e.slot, e.inst, e.ea, none⟩
    | _ =>
      (((s.flushLine o).cacheAccess o).touchLine (s.ownPa o / 128) core e.slot e.inst).writeHbm
        o bs

/-- A posted store of the own module is applied at its place and accepted. -/
def State.applyStore (s : State) (core : Nat) (e : WbEntry) : State :=
  let s := match e.place with
    | .spad c => s.writeSpad c e.addr e.bytes e.poison
    | .port _ => s.storeHbm core e
    | .host => s.putBytes e.addr e.bytes
    | .dev | .remote _ => s
  s.accepted core e.id

/-- The core whose buffer holds the entry with a given number. -/
def State.findStore (s : State) (id : Nat) : Option (Nat × WbEntry) :=
  s.cores.findSome? fun x => (x.2.wb.find? fun e => e.id == id).map fun e => (x.1, e)

end Sys2Proof.Machine
end

