-- ==== Sys2Proof/Machine/Access.lean ====
section
/-! DEFINITION. How an instruction of a strand reaches memory (R22, R106 to R109, R201, R228, R251,
R256, R262, R263, R386, R387): the rules that follow the address checks, requests to places, and
posting of stores. -/

namespace Sys2Proof.Machine

/-! ### The rules after translation -/

/-- The first poisoned register of a list is consumed (R88, R107 step 1), g[a] before g[b] where no rule gives an
order (log 62). -/
def consume (s : State) (rs : List Reg) (k : State → Res) : Res :=
  match rs.find? fun r => s.gp r with
  | some r => .poisoned s r
  | none => k s

/-- What an access does, for the rules of versioned pages (R251) and of features (R387). -/
inductive Kind where
  | load | store | rmw
  deriving DecidableEq, Repr

/-- The feature word of module m (R387). -/
def State.featBit (s : State) (m bit : Nat) : Bool := (s.route m).getLsbD (48 + bit)

/-- The features of another module (R387): step 7 of R262, and with the last step of R107. An access that has
issued has passed it (R109). -/
def State.checkFeatures (s : State) (l : Leaf) (pa : Nat) (ea : Word) (bits : List Nat) : Chk :=
  let m := paModule pa
  let bits := if l.ver then 7 :: bits else bits
  if !s.passed ∧ m ≠ s.modNo.toNat ∧ !bits.all (s.featBit m) then .trap 2 0x6103 ea else .ok

/-- Versioned pages (R251, R256). -/
def State.checkVersion (s : State) (l : Leaf) (pa : Nat) (ea : Word) (k : Kind) : Chk :=
  let t := s.me
  let far := paModule pa != s.modNo.toNat
  let versioned := t.snap != 0 || txState t.tx != 0
  if !l.ver then .ok
  else if far then (if versioned then .trap 14 0x6808 ea else .ok)
  else match k with
    | .load => .ok
    | .store => if t.snap ≠ 0 ∧ txState t.tx = 0 then .trap 14 0x680A ea else .ok
    | .rmw => if versioned then .trap 14 0x680A ea else .ok

/-- Features, and then versioned pages: step 7 of R107 (log 56). -/
def State.checkPage (s : State) (l : Leaf) (pa : Nat) (ea : Word) (k : Kind) (bits : List Nat) : Chk :=
  match s.checkFeatures l pa ea bits with
  | .ok => s.checkVersion l pa ea k
  | c => c

/-- The modifier word's ord makes the access a release (R48, R231). -/
def State.isRelease (s : State) : Bool :=
  let o := s.mw.ord.toNat
  o == 2 || o == 3 || o == 5

/-- The ordered-flag bit of the modifier word (R389). -/
def State.oflag (s : State) : Bool :=
  let o := s.mw.ord.toNat
  o == 4 || o == 5

/-- An access waits for its release, when it is one (R231). -/
def releaseIf (s : State) (rel : Bool) (k : State → Res) : Res :=
  if rel then releasing s (scopeOf s.mw) k else k s

/-! ### Requests to a place beyond the core -/

/-- The operands of a request as a packet carries them (log 11). -/
def reqArgs (r : Req) : List Word :=
  idArgs r.ver r.core r.slot r.inst ++ match r.op with
  | .amo _ _ y => [y.v]
  | .cas _ cmp y => [cmp, y.v]
  | .sch y => [0, y]
  | .write (.red _ _ y) _ => [y]
  | .write .clear _ => [1]
  | .future code h x task => [BitVec.ofNat 64 code, h, x, task]
  | .members h => [12, h, 0, 0]
  | .member h a w => [13, h, a, w]
  | .barrier code va m x => [BitVec.ofNat 64 code, va, m, x]
  | .release tok va v _ ok => [tok, if ok then 2 else 3, v, va, 2]
  | _ => []

/-- The packet operation of a request (R380). -/
def reqPktOp : ReqOp → PktOp
  | .load | .ldw => .read
  | .stw _ => .write
  | .amo .. => .amo
  | .cas .. => .cas
  | .lrw => .lrw
  | .sch _ => .sch
  | .xrd => .xrdXclr
  | .write .bytes _ => .write
  | .write .clear _ => .xrdXclr
  | .write (.red ..) _ => .red
  | .future .. | .members _ | .member .. | .barrier .. => .futReq
  | .release .. => .futDel

/-- The bytes a request's packet carries or names. -/
def reqBytes (op : ReqOp) (size : Nat) : List Byte :=
  match op with
  | .write .bytes bs => bs
  | .write (.red op w _) _ => List.replicate (redSize op w) 0
  | .write .clear _ => List.replicate 128 0
  | .barrier .. => List.replicate 32 0
  | .future .. | .members _ | .member .. | .release .. => []
  | _ => List.replicate size 0

/-- aux of a request's packet (R380). -/
def reqAux : ReqOp → BitVec 7
  | .amo op w _ => amoAux op w
  | .cas w .. => if w then 1 else 0
  | .write (.red op w _) _ => redAux op w
  | .write .bytes _ => 1
  | _ => 0

/-- A request counts as a sector in flight when it is a write (R390). -/
def ReqOp.isWrite : ReqOp → Bool
  | .write .. => true
  | _ => false

/-- A request to another module is sent when a path can take it (R383). -/
def State.sendReq (s : State) (r : Req) : State :=
  match r.place with
  | .remote m =>
    let cl := clusterOf r.core
    match s.pickPath cl m with
    | none => s.setReq r
    | some p =>
      let (tag, s) := s.sendPacket cl m p (reqPktOp r.op) r.pa (reqBytes r.op r.size) r.oflag
        (reqAux r.op) (reqArgs r)
      let s := if r.op.isWrite then
          let a := s.allow cl m
          (s.setAllow cl m { a with n := a.n + 1 }).setInFlight cl m p (s.inFlight cl m p + 1)
        else s
      s.setReq { r with sent := some (p, tag, s.now) }
  | _ => s.setReq r

/-- A request to another module that no strand waits for, with the timeout of R386 all the same (log 11); `elem`
is 0, or one more than the park index that waits for its answer. -/
def State.errand (s : State) (cl elem : Nat) (op : ReqOp) (m pa size : Nat) : State :=
  let r : Req :=
    { id := s.nextId, core := 24 * cl, slot := errandSlot, inst := 0, elem := elem, place := .remote m,
      op := op, addr := paOffset pa, pa := pa, ea := 0, size := size, ver := false, snap := 0, tx := 0,
      oflag := false, since := 0, cyc := s.now, pool := none, sent := none, pkt := none }
  { s with nextId := s.nextId + 1, reqs := s.reqs ++ [r] }.sendReq r

/-- A module takes the requests of R153: it is present, and its feature word says so (R387). -/
def State.takesRequests (s : State) (m : Nat) : Bool := s.present m && s.featBit m 8

/-- A request of the issuing strand, for element `elem` of its instruction. -/
def State.ask (s : State) (elem : Nat) (op : ReqOp) (place : Place) (addr pa : Nat) (ea : Word)
    (size : Nat) (ver : Bool) : State :=
  let t := s.me
  let r : Req :=
    { id := s.nextId, core := s.issue.core, slot := s.issue.slot, inst := t.inst, elem := elem,
      place := place, op := op, addr := addr, pa := pa, ea := ea, size := size, ver := ver,
      snap := t.snap, tx := t.tx, oflag := op.isWrite && s.oflag, since := 0, cyc := s.now,
      pool := none, sent := none, pkt := none }
  let s := { s with nextId := s.nextId + 1, reqs := s.reqs ++ [r] }
  s.sendReq r

/-- The place, key and PA of a spot that is not the strand's own scratchpad. -/
def State.target (s : State) : Spot → Place × Nat × Nat × Bool
  | .spad c o => (.spad c, o, 0, false)
  | .glob l pa => (s.placeOf pa, paOffset pa, pa, l.ver)

/-- One request of the issuing strand to a place beyond its core, after its own stores to the same
sectors (R228); the strand waits for the answer. -/
def askOne (s : State) (x : Spot) (ea : Word) (op : ReqOp) (size : Nat) : Res :=
  let (place, addr, pa, ver) := s.target x
  if s.ownSector place addr size then .hold s .drain s.got
  else .await ((s.useTlb ea).ask 0 op place addr pa ea size ver) 1 s.got

/-! ### Own-scratchpad accesses (R109, R166, R167) -/

/-- When the issuing strand began waiting for this. -/
def State.tagSince (s : State) (on : WaitOn) : Nat :=
  match s.me.flight with
  | some f => if f.on = on then f.since else s.nextId
  | none => s.nextId

/-- An access to the own scratchpad that waits for tags (R166, R167). -/
def ownTag (s : State) (off n : Nat) (full : Bool) (k : State → Res) : Res :=
  let core := s.issue.core
  let ws := wordsOf off n
  let s := s.checkTags core ws
  let on := WaitOn.tag core ws full
  if s.tagsAllow core ws full (s.tagSince on) then k s else .hold s on s.got

/-! ### Loads and stores of one unit -/

/-- A read of `n` bytes at a checked address: at once in the own scratchpad, else by a request. -/
def readUnit (s : State) (ea : Word) (n : Nat) (op : ReqOp)
    (fin : State → List Byte → List Bool → Res) : Res :=
  match s.spot ea with
  | none => .address s ea
  | some (.spad c o) =>
    if c = s.issue.core then
      ownTag s o n true fun s => let (bs, ps, s) := s.readSpad c o n; fin s bs ps
    else askOne s (.spad c o) ea op n
  | some x => askOne s x ea op n

/-- The check of the page rules at a checked address; windows have none. -/
def State.pageRules (s : State) (ea : Word) (k : Kind) (bits : List Nat) : Chk :=
  match s.spot ea with
  | some (.glob l pa) => s.checkPage l pa ea k bits
  | _ => .ok

/-- A strand that waits for a reply finishes with it; before that it makes its checks and asks. -/
def answered (s : State) (fin : State → Answer → Res) (first : State → Res) : Res :=
  match s.answer 0 with
  | some (.trap cause code v) => .trap s cause code v
  | some a => fin s a
  | none => first s

/-- A load of `n` bytes at `ea` (R106 to R109), `fin` taking the bytes and their poison. -/
def loadAt (s : State) (srcs : List Reg) (ea : Word) (n : Nat)
    (fin : State → List Byte → List Bool → Res) : Res :=
  answered s (fun s a => match a with
    | .data bs ps => fin s bs ps
    | _ => .done s) fun s => Res.issued ea <|
  consume s srcs fun s =>
  (s.checkAccess ea n n .read).andThen s fun s =>
  (s.pageRules ea .load []).andThen s fun s =>
  readUnit s ea n .load fin

/-- A store posted into its bank, when the bank and the allowance have room (R109, R227, R391). -/
def postStore (s : State) (x : Spot) (ea : Word) (op : StoreOp) (bs : List Byte) (ps : List Bool) :
    Res :=
  let (place, addr, pa, ver) := s.target x
  if !s.bankRoom (bankOf place) 1 then .hold s (.bank (bankOf place)) s.got
  else if !s.allowed place then
    .hold s (.allowance (match place with | .remote m => m | _ => 0)) s.got
  else .done ((s.useTlb ea).post (s.wbEntry place op addr pa ea bs ps ver s.oflag s.nextId))

/-- An earlier store of the strand comes before a write to a V page at a place: one of the same bank, where
the place is on the own module (R229). -/
def State.behindBank (s : State) (place : Place) : Bool :=
  match place with
  | .remote _ => false
  | _ => s.posted.any fun e => e.bank == bankOf place

/-- A write to a V page outside a transaction is not posted: the strand waits for its answer (R251). It goes past
its bank, where it takes no entry and waits for no other strand's (log 65). -/
def askWrite (s : State) (x : Spot) (ea : Word) (op : StoreOp) (bs : List Byte) (size : Nat) : Res :=
  let (place, addr, pa, ver) := s.target x
  if s.behindBank place || (s.oflag && s.postedOn place) then .hold s .drain s.got
  else if !s.allowed place then
    .hold s (.allowance (match place with | .remote m => m | _ => 0)) s.got
  else .await ((s.useTlb ea).ask 0 (.write op bs) place addr pa ea size ver) 1 s.got

/-- A write at a checked address that is not the own scratchpad. -/
def writeUnit (s : State) (x : Spot) (ea : Word) (op : StoreOp) (bs : List Byte) (ps : List Bool)
    (size : Nat) : Res :=
  match x with
  | .glob l _ =>
    if l.ver && txState s.me.tx == 0 then askWrite s x ea op bs size
    else postStore s x ea op bs ps
  | _ => postStore s x ea op bs ps

/-- The register that a store to the global space reports when one of its data registers is poisoned: d
(R107 step 6). -/
def State.dirtyData (s : State) (d : Reg) (data : List Reg) : Option Reg :=
  if data.any s.gp then some d else none

/-- A store of `bs` at `ea` (R106 to R109, R262): `srcs` are the address registers, `dirty` the register to
report for poisoned data, `rel` tells a release, `addressed` STR, which tests the features of R387 before
its data. -/
def storeAt (s : State) (addressed rel : Bool) (srcs : List Reg) (dirty : Option Reg) (ea : Word)
    (bs : List Byte) (ps : List Bool) : Res :=
  answered s (fun s _ => .done s) fun s => Res.issued ea <|
  consume s srcs fun s =>
  (s.checkAccess ea bs.length bs.length .write).andThen s fun s =>
  match s.spot ea with
  | none => .address s ea
  | some (.spad c o) =>
    releaseIf s rel fun s =>
    if c = s.issue.core then
      if s.oflag && s.postedOn (.spad c) then .hold s .drain s.got else .done (s.writeSpad c o bs ps)
    else writeUnit s (.spad c o) ea .bytes bs ps bs.length
  | some (.glob l pa) =>
    let bits := if s.oflag then [9] else []
    (if addressed then s.checkFeatures l pa ea bits else .ok).andThen s fun s =>
    match dirty with
    | some r => .poisoned s r
    | none =>
    (s.checkPage l pa ea .store bits).andThen s fun s =>
    releaseIf s rel fun s =>
    writeUnit s (.glob l pa) ea .bytes bs ps bs.length

/-! ### The addressed forms of R262 -/

/-- Steps 2 to 6 of R262; `windows` tells whether the form may reach a scratchpad (R263). -/
def State.checkForm (s : State) (ea : Word) (n : Nat) (need : Need) (windows : Bool) : Chk :=
  if regionClass ea = 3 then .trap 3 0x6104 ea
  else if !windows && regionClass ea != 0 then .trap 2 0x6103 ea
  else s.checkAccess ea n n need

/-- Step 7 of R262: own or other module's HBM; host memory only where allowed. -/
def State.checkPlace (s : State) (ea : Word) (host : Bool) : Chk :=
  match s.spot ea with
  | some (.glob _ pa) =>
    let o := paOffset pa
    if inHbm o || (host && inHost o) then .ok else .trap 2 0x6103 ea
  | _ => .ok

/-- Steps 1 to 9 of R262 for a form served at memory ports or scratchpads. -/
def atForm (s : State) (srcs data : List Reg) (ea : Word) (n : Nat) (need : Need)
    (windows host : Bool) (kind : Kind) (bits : List Nat) (k : State → Spot → Res) : Res :=
  Res.issued ea <| consume s srcs fun s =>
  (s.checkForm ea n need windows).andThen s fun s =>
  (s.checkPlace ea host).andThen s fun s =>
  match s.spot ea with
  | none => .address s ea
  | some (.spad c o) => k s (.spad c o)
  | some (.glob l pa) =>
    (s.checkFeatures l pa ea bits).andThen s fun s =>
    consume s data fun s =>
    (s.checkVersion l pa ea kind).andThen s fun s => k s (.glob l pa)

end Sys2Proof.Machine
end

