-- ==== Sys2Proof/Machine/Future.lean ====
section
/-! DEFINITION. Futures at their table ports (R141 to R154), parking and waking (R134 to R137, R158),
barriers (R173 to R177), and the ends of a task (R151, R162, R253). -/

namespace Sys2Proof.Machine

/-! ### Handles (R141) -/

def hModule (h : Word) : Nat := bits h 63 55
def hDie (h : Word) : Nat := bits h 54 53
def hClusterField (h : Word) : Nat := bits h 52 48
def hSlot (h : Word) : Nat := bits h 47 32
def hGen (h : Word) : Nat := bits h 31 8
def hKind (h : Word) : Nat := bits h 7 0

/-- The cluster a handle names, 24 × die + cluster. -/
def hCluster (h : Word) : Nat := 24 * hDie h + hClusterField h

/-- A handle of the own module. -/
def State.handle (s : State) (cl slot : Nat) (gen : BitVec 24) (kind : Byte) : Word :=
  BitVec.ofNat 64 (s.modNo.toNat * 2 ^ 55 + cl / 24 * 2 ^ 53 + cl % 24 * 2 ^ 48 + slot * 2 ^ 32 +
    gen.toNat * 2 ^ 8 + kind.toNat)

/-! ### The table and its backing store (R142, R152, R177) -/

def State.futBase (s : State) (cl : Nat) : Nat := bits (s.cluster cl).futbase 55 12 * 4096
def State.futOff (s : State) (cl slot : Nat) : Nat := paOffset (s.futBase cl) + 32 * slot
def State.memberOff (s : State) (cl slot : Nat) : Nat :=
  paOffset (s.futBase cl) + 0x200000 + 64 * slot

/-- The 32 bytes of an entry (R142). -/
def FutEntry.bytes (e : FutEntry) : List Byte :=
  leBytes 8 e.value.toNat ++
  leBytes 8 (e.gen.toNat * 2 ^ 40 + e.kind.toNat * 2 ^ 32 + e.refs.toNat * 2 ^ 16 +
    b1 e.started * 2 ^ 15 + b1 e.cxreq * 2 ^ 14 + e.state.toNat) ++
  leBytes 8 e.head.toNat ++ leBytes 8 e.tail.toNat

/-- The 64 bytes of a membership record (R177). -/
def memberBytes (ms : List Member) : List Byte :=
  (List.range 4).flatMap fun j => match ms[j]? with
    | some m => leBytes 8 (m.addr.toNat / 32 * 32 + b1 m.arr * 2 + 1) ++ leBytes 4 m.aphase.toNat ++
        leBytes 4 0
    | none => leBytes 16 0

/-- The memberships a record gives. -/
def membersOf (bs : List Byte) : List Member :=
  (List.range 4).filterMap fun j =>
    let w := leWord ((bs.drop (16 * j)).take 8)
    let a : Nat := leNat ((bs.drop (16 * j + 8)).take 4)
    if w.getLsbD 0 then
      some ⟨BitVec.ofNat 64 (w.toNat / 32 * 32), w.getLsbD 1, BitVec.ofNat 32 a⟩
    else none

/-- The entry that backing bytes give. A generation of 0 is read as 1, its reset value (log 26). -/
def entryOf (bs ms : List Byte) (now : Nat) : FutEntry :=
  let w := fun i => leWord ((bs.drop (8 * i)).take 8)
  let g := (w 1).extractLsb' 40 24
  { value := w 0, gen := if g = 0 then 1 else g, kind := (w 1).extractLsb' 32 8,
    refs := (w 1).extractLsb' 16 16, started := (w 1).getLsbD 15, cxreq := (w 1).getLsbD 14,
    state := (w 1).extractLsb' 0 3, head := w 2, tail := w 3, members := membersOf ms,
    dirty := false, use := now }

/-- A resident entry goes to its backing store, when it has changed (R152). -/
def State.writeBack (s : State) (cl slot : Nat) (e : FutEntry) : State :=
  if e.dirty then
    (s.hbmWrite (s.futOff cl slot) e.bytes).hbmWrite (s.memberOff cl slot) (memberBytes e.members)
  else s

def FutEntry.empty : FutEntry :=
  { value := 0, gen := 1, kind := 0, refs := 0, started := false, cxreq := false, state := 0,
    head := 0, tail := 0, members := [], dirty := false, use := 0 }

/-- The table's map of resident entries changed at one slot: written or dropped. -/
def State.setFut (s : State) (cl slot : Nat) (e : Option FutEntry) : State :=
  let k := s.cluster cl
  let f := SMap.del k.fut slot
  s.setCluster cl { k with fut := match e with
    | some e => SMap.ins f slot e
    | none => f }

/-- The resident entry used longest ago. -/
def oldestEntry : SMap FutEntry → Option (Nat × FutEntry)
  | [] => none
  | x :: r => some (r.foldl (fun (a : Nat × FutEntry) b => if b.2.use < a.2.use then b else a) x)

/-- A fill evicts the least recently used entry when the table holds 4,096 (R152). -/
def State.evict (s : State) (cl : Nat) : State :=
  if (s.cluster cl).fut.length < 4096 then s
  else match oldestEntry (s.cluster cl).fut with
    | some (k, e) => (s.writeBack cl k e).setFut cl k none
    | none => s

/-- The census records a lost entry or record (R152, R155). -/
def State.lost (s : State) (cl slot : Nat) : State := s.record 0x8607 (0x0900 + cl) slot

/-- A logical entry is made resident; none when it is lost (R152). -/
def State.fill (s : State) (cl slot : Nat) : Option FutEntry × State :=
  let k := s.cluster cl
  if SMap.get k.lostSlots false slot then (none, s.lost cl slot)
  else match k.fut.find? fun x => x.1 == slot with
    | some (_, e) => (some e, s)
    | none =>
      let s := s.evict cl
      let (bs, ps, s) := s.hbmRead (s.futOff cl slot) 32
      let (ms, qs, s) := s.hbmRead (s.memberOff cl slot) 64
      if ps.any id || qs.any id then
        let k := s.cluster cl
        let s := s.setCluster cl { k with lostSlots := SMap.put k.lostSlots false slot true }
        (none, s.lost cl slot)
      else
        let e := entryOf bs ms s.now
        (some e, s.setFut cl slot (some e))

/-- An entry changed by a request at its port. -/
def State.putEntry (s : State) (cl slot : Nat) (e : FutEntry) : State :=
  s.setFut cl slot (some { e with dirty := true, use := s.now })

/-- Every resident entry is written back and dropped, as a write of sr.futbase does (R336). -/
def State.flushTable (s : State) (cl : Nat) : State :=
  let s := (s.cluster cl).fut.foldl (fun s x => s.writeBack cl x.1 x.2) s
  let k := s.cluster cl
  s.setCluster cl { k with fut := [], lostSlots := [] }

/-- The logical slots in use, rising: those the backing store shows, as the table corrects them. -/
def State.usedSlots (s : State) (cl : Nat) : List Nat :=
  let off := s.futOff cl 0
  let base : SMap Bool := s.mem.filterMap fun c =>
    if off ≤ c.1 ∧ c.1 < off + 0x200000 ∧ (c.1 - off) % 32 = 8 ∧ c.2.toNat % 8 ≠ 0 then
      some ((c.1 - off) / 32, true)
    else none
  let k := s.cluster cl
  let m := k.fut.foldl (fun m x => SMap.put m false x.1 (x.2.state != 0)) base
  (k.lostSlots.foldl (fun m x => SMap.put m false x.1 true) m).map (·.1)

/-- The entry a live handle of the own module names; `lost` when its entry is lost. -/
inductive Found where
  | stale
  | lost
  | entry (cl slot : Nat) (e : FutEntry)

/-- A request for a resident entry counts as a use of it (R152). -/
def State.renew (s : State) (cl slot : Nat) (e : FutEntry) : State :=
  s.setFut cl slot (some { e with use := s.now })

/-- R141 and R149 at the port, for a request that is no use of the entry: FSTAT's (R190). -/
def State.peek (s : State) (h : Word) : Found × State :=
  let cl := hCluster h
  if hModule h ≠ s.modNo.toNat ∨ 24 ≤ hClusterField h ∨ hGen h = 0 ∨ 4 < hKind h ∨ s.futBase cl = 0
  then (.stale, s)
  else match s.fill cl (hSlot h) with
    | (none, s) => (.lost, s)
    | (some e, s) =>
      if e.state = 0 ∨ e.gen.toNat ≠ hGen h ∨ e.kind.toNat ≠ hKind h then (.stale, s)
      else (.entry cl (hSlot h) e, s)

/-- R141 and R149 at the port: the entry that a request reaches, used by it (R152). -/
def State.find (s : State) (h : Word) : Found × State :=
  match s.peek h with
  | (.entry cl slot e, s) => (.entry cl slot e, s.renew cl slot e)
  | r => r

/-! ### Allocation and freeing (R144, R148) -/

/-- The entry of a slot that allocation takes (R144). -/
def FutEntry.fresh (e : FutEntry) (kind : Nat) : FutEntry :=
  { e with value := 0, kind := BitVec.ofNat 8 kind, refs := if kind = 4 then 1 else 2,
           started := false, cxreq := false, state := 1, head := 0, tail := 0, members := [] }

/-- Allocate in a cluster, with fuel for the slots whose backing words are found lost; no handle when no
slot is free. -/
def State.allocSlot (s : State) (cl : Nat) (kind : Nat) : Nat → Option Word × State
  | 0 => (none, s)
  | n + 1 =>
    match s.pickFree (s.usedSlots cl) 65536 with
    | none => (none, s)
    | some (slot, s) =>
      match s.fill cl slot with
      | (none, s) => s.allocSlot cl kind n
      | (some e, s) =>
        (some (s.handle cl slot e.gen (BitVec.ofNat 8 kind)), s.putEntry cl slot (e.fresh kind))

/-- Allocate in a cluster (R144). -/
def State.allocate (s : State) (cl : Nat) (kind : Nat) : Option Word × State :=
  if s.futBase cl = 0 then (none, s) else s.allocSlot cl kind 65536

/-- Freeing: state 0, the value cleared, the generation advanced (R148). -/
def FutEntry.freed (e : FutEntry) : FutEntry :=
  { e with value := 0, gen := if e.gen = 0xFFFFFF then 1 else e.gen + 1, refs := 0, started := false,
           cxreq := false, state := 0, head := 0, tail := 0, members := [] }

/-! ### Park records (R137, R145, R186) -/

/-- The cluster and index of the park record at a PA of the own module. -/
def State.parkOf (s : State) (pa : Nat) : Option (Nat × Nat) :=
  if paModule pa ≠ s.modNo.toNat then none
  else (s.clusters.filterMap fun x =>
    let b := s.parkOff x.1
    let o := paOffset pa
    if x.2.parkbase ≠ 0 ∧ b ≤ o ∧ o < b + 384 * 65536 ∧ (o - b) % 384 = 0 then
      some (x.1, (o - b) / 384)
    else none).head?

/-- The register image d of the record at offset o written, poison clear. -/
def State.putImage (s : State) (o d : Nat) (v : Word) : State :=
  let (bs, _, s) := s.hbmRead (o + 288) 4
  let m : Nat := leNat bs
  let m := if natBit m d then m - 2 ^ d else m
  (s.hbmWrite (o + 32 + 8 * d) (leBytes 8 v.toNat)).hbmWrite (o + 288) (leBytes 4 m)

/-- The predicate image n of the record at offset o written; p0 is left alone. -/
def State.putPred (s : State) (o n : Nat) (b : Bool) : State :=
  if n = 0 then s
  else
    let (bs, _, s) := s.hbmRead (o + 292) 2
    let m : Nat := leNat bs
    let m := if natBit m n then m - 2 ^ n else m
    s.hbmWrite (o + 292) (leBytes 2 (if b then m + 2 ^ n else m))

/-- A parked task is woken: its resume entry goes to the core on which it parked (R158). -/
def State.wake (s : State) (cl idx : Nat) : State :=
  match SMap.get (s.cluster cl).parked 0 idx with
  | 0 => s
  | n + 1 =>
    let (bs, _, s) := s.hbmRead (s.parkOff cl + 384 * idx) 160
    let d := descOf bs
    s.arrive n (resumeDesc d.mig d.prio d.self d.parent idx)

/-- A result delivered into a park record (R145, R186): the value, the predicate, and what a TOUCH
takes when the future has failed. -/
def State.deliverRecord (s : State) (pa : Nat) (ok : Bool) (v : Word) : State :=
  match s.parkOf pa with
  | none => s
  | some (cl, idx) =>
    let o := paOffset pa
    let (tail, _, s) := s.hbmRead (o + 294) 3
    let at_ := fun (i : Nat) => (tail.getD i 0).toNat
    let kind := at_ 0
    let b := at_ 1
    let s :=
      if natBit b 7 then
        (s.putImage o (b % 32) v).putPred o (at_ 2 % 16) ok
      else if ok || kind != 1 then s.putImage o (b % 32) v
      else (s.hbmWrite (o + 294) [6]).hbmWrite (o + 344) (leBytes 8 v.toNat)
    s.wake cl idx

/-- A message to another module that has no answer (R153, log 11). -/
def State.message (s : State) (cl m : Nat) (op : PktOp) (pa : Nat) (bs : List Byte)
    (args : List Word) : State :=
  (s.sendPacket cl m ((s.pickPath cl m).getD 0) op pa bs false 0 args).2

/-- Bit 63 of a chain entry: a waiter of another module (R153). -/
abbrev farBit : Word := 0x8000000000000000

/-- A chain entry that names a place of the own module where a park record may lie, whatever its bit 63
(R173). -/
def State.ownRecord (s : State) (t : Word) : Bool :=
  let pa := bits t 55 0
  paModule pa == s.modNo.toNat && decide (paOffset pa < 2 ^ 46)

/-- The last 96 bytes of a park record of the own module, its object and link among them, read at their port
(R212). -/
def State.meetTail (s : State) (t : Word) : State :=
  if (s.parkOf (bits t 55 0)).isSome then s.meet (paOffset (bits t 55 0) + 288) 96 else s

/-- The next link of a chain entry. -/
def State.linkOf (s : State) (t : Word) : Word :=
  if s.ownRecord t then s.seenWord (paOffset (bits t 55 0) + 352)
  else SMap.get s.farLinks 0 (t ||| farBit).toNat

/-- The token by which a future names a FUTWAIT of Dispatch, which waits as a remote waiter does (R153, R368;
log 11). -/
def State.futToken (s : State) (seq : Nat) : Word :=
  BitVec.ofNat 64 (2 ^ 63 + s.ownPa (2 ^ 46 + 2 ^ 45 + seq % 2 ^ 32))

/-- An outcome for the FUTWAIT that a token names. -/
def State.deliverDispatch (s : State) (t v : Word) (ok : Bool) : State :=
  let f := fun (j : Job) =>
    if s.futToken j.seq = t ∧ j.ans.isNone then { j with ans := some (v, ok) } else j
  { s with disp := { s.disp with futwaits := s.disp.futwaits.map f } }

/-- A chain entry with bit 63 set that is a FUTWAIT of the own module. -/
def State.ownToken (s : State) (t : Word) : Bool := paModule (bits t 55 0) == s.modNo.toNat

/-- The link of an entry that is no record of the own module, as its port keeps it. -/
def State.setFarLink (s : State) (t next : Word) : State :=
  { s with farLinks := SMap.put s.farLinks 0 (t ||| farBit).toNat next }

/-- The link of a chain entry written: into its record, or by a fabric write (R137). A waiter that has no
record, in its slot or at Dispatch, has its link at the port alone (log 11). -/
def State.putLink (s : State) (cl : Nat) (t next : Word) : State :=
  let pa := bits t 55 0
  if s.ownRecord t then s.hbmWrite (paOffset pa + 352) (leBytes 8 next.toNat)
  else
    let s := s.setFarLink t next
    if 2 ^ 46 ≤ paOffset pa then s
    else s.errand cl 0 (.write .bytes (leBytes 8 next.toNat)) (paModule pa) (pa + 352) 8

/-- An entry that joins a chain at its end: no link is kept for it. -/
def State.joinLink (s : State) (t : Word) : State := if s.ownRecord t then s else s.setFarLink t 0

/-- A waiter receives the outcome of the future of a handle (R145, R153). -/
def State.deliverTo (s : State) (cl : Nat) (h t : Word) (ok : Bool) (v : Word) : State :=
  if s.ownRecord t then s.deliverRecord (bits t 55 0) ok v
  else
    let s := s.setFarLink t 0
    if s.ownToken t then s.deliverDispatch t v ok
    else s.message cl (paModule (bits t 55 0)) .futDel 0 []
      (idArgs false 0 0 0 ++ [t ||| farBit, if ok then 2 else 3, v, h, 1])

/-- The strands waiting in their slots for an object, behind the chain entry `after`, are answered. -/
def State.answerSlots (s : State) (kind : Nat) (obj after : Word) (a : Answer) : State :=
  let mine := fun (w : SlotWait) => w.kind == kind && w.obj == obj && w.after == after
  let ws := s.slotWaits.filter mine
  let s := { s with slotWaits := s.slotWaits.filter fun w => !mine w }
  ws.foldl (fun s w =>
    let (id, s) := s.newId
    { s with replies := s.replies ++ [⟨id, w.core, w.slot, w.inst, 0, a⟩] }) s

/-- Every strand left in its slot for an object is answered. -/
def State.answerLeft (s : State) (kind : Nat) (obj : Word) (a : Answer) : State :=
  ((s.slotWaits.filter fun w => w.kind == kind && w.obj == obj).map (·.after)).eraseDups.foldl
    (fun s t => s.answerSlots kind obj t a) s

/-- The park records of a domain: 512 modules of 96 clusters of 65,536 (R136). -/
abbrev domainRecords : Nat := 512 * 96 * 65536

/-- A chain delivered from its head, with fuel; a strand that waits in its slot for the object follows
the entry behind which it came (R145). -/
def State.deliverChain (s : State) (cl : Nat) (h : Word) (ok : Bool) (v : Word) : Nat → Word → State
  | 0, _ => s
  | n + 1, t =>
    if t = 0 then s
    else
      let s := s.meetTail t
      let next := s.linkOf t
      ((s.deliverTo cl h t ok v).answerSlots 1 h t (.word v !ok)).deliverChain cl h ok v n next

/-- A pending future becomes final: state, value, and delivery to every waiter in chain order. -/
def State.finish (s : State) (cl slot : Nat) (e : FutEntry) (st : BitVec 3) (v : Word) : State :=
  let h := s.handle cl slot e.gen e.kind
  let s := s.putEntry cl slot { e with state := st, value := v, head := 0, tail := 0 }
  let s := s.answerSlots 1 h 0 (.word v (st != 2))
  (s.deliverChain cl h (st == 2) v domainRecords e.head).answerLeft 1 h (.word v (st != 2))

/-- A request to a table port of another module that no strand waits for: of a task that has come from there
and is killed (R161), or of a waiter that leaves. Its codes are those of `futureRequest` (log 11). Nothing is
sent to a module that takes no requests. -/
def State.farRequest (s : State) (cl elem : Nat) (h : Word) (code : Nat) (x : Word) : State :=
  if hGen h ≠ 0 ∧ s.takesRequests (hModule h) then s.errand cl elem (.future code h x h) (hModule h) 0 0 else s

/-- A request ends a future if it is still pending (R145). -/
def State.endFuture (s : State) (h : Word) (st : BitVec 3) (v : Word) : State :=
  if hModule h ≠ s.modNo.toNat then s.farRequest 0 0 h (if st = 2 then 4 else 5) v
  else match s.find h with
  | (.entry cl slot e, s) => if e.state = 1 then s.finish cl slot e st v else s
  | (_, s) => s

/-- One reference less (R148): at 0 a pending future is cancelled, and the slot is freed. -/
def State.dropRef (s : State) (h : Word) : State :=
  if hModule h ≠ s.modNo.toNat then s.farRequest 0 0 h 9 0
  else match s.find h with
  | (.entry cl slot e, s) =>
    if 1 < e.refs.toNat then s.putEntry cl slot { e with refs := e.refs - 1 }
    else
      let s := if e.state = 1 then s.finish cl slot e 4 0x0601 else s
      s.putEntry cl slot ((SMap.get (s.cluster cl).fut FutEntry.empty slot).freed)
  | (_, s) => s

/-- A waiter joins a chain at the tail (R137, R145). -/
def State.joinChain (s : State) (cl slot : Nat) (e : FutEntry) (t : Word) : State :=
  let s := s.joinLink t
  if e.head = 0 then s.putEntry cl slot { e with head := t, tail := t }
  else (s.putLink cl e.tail t).putEntry cl slot { e with tail := t }

/-- The strands in their slots that came behind chain entry `x` stand behind `prev` now (R145). -/
def State.moveAfter (s : State) (x prev : Word) : State :=
  { s with slotWaits := s.slotWaits.map fun w => if w.after = x then { w with after := prev } else w }

/-- An entry taken out of a chain that starts at `t`, with fuel: the chain's new head and tail (R137); none
where the chain does not hold it. -/
def State.unlink (s : State) (cl : Nat) (x : Word) (prev : Word) : Nat → Word → Word → Word →
    Option (Word × Word × State)
  | 0, _, _, _ => none
  | n + 1, t, head, tail =>
    let s := s.meetTail t
    if t = 0 then none
    else if t = x then
      let next := s.linkOf t
      let s := s.moveAfter x prev
      let s := if s.ownRecord t then s else s.setFarLink t 0
      let tail' := if tail = x then prev else tail
      some (if prev = 0 then (next, tail', s) else (head, tail', s.putLink cl prev next))
    else s.unlink cl x t n (s.linkOf t) head tail

/-- A waiter taken out of a future's chain; none where it does not hold it. -/
def State.unchain (s : State) (cl slot : Nat) (e : FutEntry) (tok : Word) : Option State :=
  (s.unlink cl tok 0 domainRecords e.head e.head e.tail).map fun x =>
    x.2.2.putEntry cl slot { e with head := x.1, tail := x.2.1 }

/-! ### Requests of R146, R150, R154, R187, R191 -/

/-- What the port answers. -/
inductive PortAns where
  | ok
  | stale
  | refused
  | pending
  | final (good : Bool) (v : Word)
  deriving DecidableEq, Repr

/-- What TOUCH and TOUCHQ find (R146); a lost entry answers as poisoned (log 24). -/
def State.touchPort (s : State) (h : Word) : PortAns × State :=
  match s.find h with
  | (.stale, s) => (.stale, s)
  | (.lost, s) => (.final false 0x8607, s)
  | (.entry _ _ e, s) =>
    if e.state = 1 then (.pending, s) else (.final (e.state == 2) e.value, s)

/-- RESOLVE and POISON at the port (R187). -/
def State.endPort (s : State) (h task : Word) (st : BitVec 3) (v : Word) : PortAns × State :=
  match s.find h with
  | (.stale, s) => (.stale, s)
  | (.lost, s) => (.ok, s)
  | (.entry cl slot e, s) =>
    if e.kind ≠ 0 ∧ e.kind ≠ 4 then (.refused, s)
    else if e.kind = 0 ∧ h ≠ task then (.refused, s)
    else if e.state ≠ 1 then (.ok, s)
    else (.ok, s.finish cl slot e st v)

/-- FSTAT's status word (R154, R190); a strand that waits in its slot is a waiter too (log 59). -/
def State.statPort (s : State) (h : Word) : Word × State :=
  match s.peek h with
  | (.entry _ _ e, s) =>
    let code := if e.state = 3 ∨ e.state = 4 then bits e.value 15 0 else 0
    let waits := e.head ≠ 0 ∨ s.slotWaits.any (fun w => w.kind == 1 && w.obj == h)
    (BitVec.ofNat 64 (code * 2 ^ 48 + e.refs.toNat * 2 ^ 32 + (if waits then 32 else 0) +
      b1 e.started * 16 + b1 e.cxreq * 8 + e.state.toNat), s)
  | (.stale, s) => (7, s)
  | (.lost, s) => (BitVec.ofNat 64 (0x8607 * 2 ^ 48 + 3), s)

/-- FHOLD at the port (R148, R191). -/
def State.holdPort (s : State) (h : Word) : PortAns × State :=
  match s.find h with
  | (.stale, s) => (.stale, s)
  | (.lost, s) => (.ok, s)
  | (.entry cl slot e, s) =>
    if e.refs = 0xFFFF then (.refused, s) else (.ok, s.putEntry cl slot { e with refs := e.refs + 1 })

/-- FDROP at the port (R191). -/
def State.dropPort (s : State) (h : Word) : PortAns × State :=
  match s.find h with
  | (.stale, s) => (.stale, s)
  | (.lost, s) => (.ok, s)
  | (.entry _ _ e, s) =>
    if e.state = 1 ∧ e.kind ≠ 4 ∧ e.refs.toNat ≤ 1 then (.refused, s) else (.ok, s.dropRef h)

/-- A scratchpad destination word that a copy will not write: poison bit 1, data kept, tag full
(R324, R325). -/
def State.spoilWord (s : State) (x : Nat × Nat) : State :=
  (s.setSpadPois x.1 x.2 true).setTag x.1 x.2 true

/-- A copy dropped before its start fills the tags it emptied, with poison (R325). -/
def State.dropCopy (s : State) (h : Word) : State :=
  let mine := s.scrQ.flatMap fun x => x.2.cmds.filter fun c => c.fut == h
  let s := { s with scrQ := s.scrQ.map fun x => (x.1, { x.2 with cmds := x.2.cmds.map fun c =>
    if c.fut = h then { c with emptied := [] } else c }) }
  (mine.flatMap (·.emptied)).foldl (fun s x => s.spoilWord x) s

/-- CANCEL at the port (R150, R188). -/
def State.cancelPort (s : State) (h : Word) : PortAns × State :=
  match s.find h with
  | (.stale, s) => (.stale, s)
  | (.lost, s) => (.ok, s)
  | (.entry cl slot e, s) =>
    if e.state ≠ 1 then (.ok, s)
    else if e.kind = 4 then (.ok, s.finish cl slot e 4 0x0601)
    else if e.kind = 3 then
      match s.ver.txs.find? fun x => x.2.future == h with
      | some (i, _) => (.ok, s.doom i 5)
      | none => (.ok, s)
    else if e.started then (.ok, s.putEntry cl slot { e with cxreq := true })
    else (.ok, (s.dropCopy h).finish cl slot e 4 0x0601)

/-- The start request of a task or a command (R143, R150): false when it must not run. One whose entry is
lost or stale passes (log 24). -/
def State.startFuture (s : State) (h : Word) : Bool × State :=
  match s.find h with
  | (.entry cl slot e, s) =>
    if e.started then (true, s)
    else if e.state = 1 then (true, s.putEntry cl slot { e with started := true })
    else (false, s)
  | (_, s) => (true, s)

/-! ### Parking (R134, R136, R137) -/

/-- What a strand keeps beside its record while it is parked (R135). -/
def Strand.supervisor (t : Strand) : ParkSup := ⟨t.priv, t.epc, t.cause, t.tval, t.estat, t.kscr⟩

/-- The supervisor state of a strand put back. -/
def Strand.withSup (t : Strand) (x : ParkSup) : Strand :=
  { t with priv := x.priv, epc := x.epc, cause := x.cause, tval := x.tval, estat := x.estat,
           kscr := x.kscr }

/-- The issuing strand parks under index `idx` of its cluster, resuming at `pc`: its record is
written and its slot freed. -/
def State.parkAs (s : State) (idx : Nat) (pc : Word) (x : ParkTail) : State :=
  let core := s.issue.core
  let cl := clusterOf core
  let t := s.me
  let s := s.hbmWrite (s.parkOff cl + 384 * idx) (s.recordBytes t pc x)
  let s := (s.releaseResv core s.issue.slot t.inst).count core 5 1
  let k := s.cluster cl
  let s := s.setCluster cl { k with parkSup := SMap.put k.parkSup {} idx t.supervisor }
  s.parkSlot core s.issue.slot idx

/-- The PA of a park record of the issuing strand's cluster, as a chain entry. -/
def State.parkToken (s : State) (idx : Nat) : Word := BitVec.ofNat 64 (s.parkPa s.myCluster idx)

/-- A park index for the issuing strand: none in port mode, or when none is free. -/
def State.parkIndex (s : State) : Option (Nat × State) :=
  if s.me.pmode then none else s.takePark s.issue.core

/-- The issuing strand waits in its slot for an object, behind the tail of its chain; its answer comes
as a reply, and takes the place of an earlier one that told it to wait. -/
def State.slotWait (s : State) (kind : Nat) (obj : Word) (d : Reg) (q : Option Pred)
    (token after : Word) : Res :=
  let w : SlotWait := ⟨kind, obj, s.issue.core, s.issue.slot, s.me.inst, d, q, s.issue.len,
    s.issue.pops, token, after⟩
  .await { s with slotWaits := s.slotWaits ++ [w] } 1 (s.got.filter fun x => x.1 != 0)

/-! ### Barriers (R173 to R177) -/

/-- A barrier record's counts. -/
structure Barrier where
  expected : Nat
  arrived : Nat
  phase : Nat
  last : Nat
  head : Word
  tail : Word
  deriving DecidableEq, Repr

def State.barrier (s : State) (o : Nat) : Barrier :=
  let n := fun (i k : Nat) => leNat (s.bytes (o + i) k)
  ⟨n 0 4, n 4 4, n 8 4, n 12 2, s.word (o + 16), s.word (o + 24)⟩

/-- A record as its port reads it: after every reduction accepted there, its check bits applied (R210,
R212). -/
def State.openBarrier (s : State) (o : Nat) : State := (s.hbmRead o 32).2.2

def State.putBarrier (s : State) (o : Nat) (b : Barrier) : State :=
  s.hbmWrite o
    (leBytes 4 b.expected ++ leBytes 4 b.arrived ++ leBytes 4 b.phase ++ leBytes 2 b.last ++
      leBytes 2 0 ++ leBytes 8 b.head.toNat ++ leBytes 8 b.tail.toNat)

/-- The record at a PA of the own module waits on an object of a kind: the handle of a future (1), or the
barrier at an address (2; R173), which is compared as the waiter named it (log 59). -/
def State.waitsOn (s : State) (pa kind : Nat) (obj : Word) : Bool :=
  (s.parkOf pa).isSome && s.seen (paOffset pa + 294) 1 == [BitVec.ofNat 8 kind] &&
    s.seenWord (paOffset pa + 344) == obj

/-- The chain of a barrier released from its head to its tail, with fuel. An entry of the own module that fails
the test of R173 ends the walk; one of another module is tested there, and the walk goes on with the answer
(log 59). -/
def State.releaseChain (s : State) (va v tail : Word) (ok : Bool) : Nat → Word → State
  | 0, _ => s
  | n + 1, t =>
    let pa := bits t 55 0
    if t = 0 ∨ bits t 62 56 ≠ 0 then s
    else if paModule pa = s.modNo.toNat then
      let s := s.meetTail t
      if !s.waitsOn pa 2 va then s
      else
        let next := s.linkOf t
        let s := s.deliverRecord pa ok v
        if t = tail then s else s.releaseChain va v tail ok n next
    else if s.takesRequests (paModule pa) then s.errand 0 0 (.release t va v tail ok) (paModule pa) 0 0
    else s

/-- The module of a waiter has released it, and names its record's link; the link that the port keeps itself
comes first, for its write may still be on its way. -/
def State.afterRelease (s : State) (t va v tail : Word) (ok : Bool) (link : Word) : State :=
  let kept := s.linkOf t
  let s := s.setFarLink t 0
  if t = tail then s else s.releaseChain va v tail ok domainRecords (if kept = 0 then link else kept)

/-- A phase ends (R174 to R176): its waiters are released with its number, or with 0x2602; those that wait in
their slots, which no entry names, all at once (log 59). -/
def State.endPhase (s : State) (o : Nat) (va : Word) (b : Barrier) (last : Nat) : State :=
  let ok := last == 0
  let v : Word := if ok then BitVec.ofNat 64 b.phase else 0x2602
  let s := s.putBarrier o { b with arrived := 0, phase := (b.phase + 1) % 2 ^ 32, last := last,
                                   head := 0, tail := 0 }
  (s.answerLeft 2 (BitVec.ofNat 64 o) (.word v !ok)).releaseChain va v b.tail ok domainRecords b.head

/-- A change of a record takes effect, and may end the phase (R174). -/
def State.settleBarrier (s : State) (o : Nat) (va : Word) (b : Barrier) : State :=
  if 0 < b.expected ∧ b.arrived = b.expected then s.endPhase o va b 0 else s.putBarrier o b

/-- A member gone (R176); a count that is 0 already stays 0 (log 61). -/
def Barrier.without (b : Barrier) (m : Member) : Barrier :=
  let here := m.arr && m.aphase.toNat == b.phase
  { b with expected := b.expected - 1, arrived := if here then b.arrived - 1 else b.arrived }

/-- What the port of a barrier record answers (R174, R175, R197): refused, for the operand too; done, in
a phase; the phase waited for has not ended; the outcome of a phase that has. -/
inductive BarAns where
  | refused (operand : Bool)
  | done (phase : Nat)
  | pending
  | ended (v : Word) (ok : Bool)
  deriving DecidableEq, Repr

/-- The operations of a barrier record at its port, by their codes (log 11): 14 BJOIN, 15 BARV,
16 BLEAVE or an exit, 17 BEXPECT by `x`, 19 a member killed; any other is BWAIT. `m` is the task's
membership. -/
def State.barrierPort (s : State) (o : Nat) (va : Word) (code : Nat) (m : Member) (x : Word) :
    BarAns × State :=
  let s := s.openBarrier o
  let b := s.barrier o
  match code with
  | 14 =>
    if b.expected = 2 ^ 32 - 1 ∨ b.expected + 1 < b.arrived then (.refused false, s)
    else (.done b.phase, s.settleBarrier o va { b with expected := b.expected + 1 })
  | 15 =>
    if m.arr ∧ m.aphase.toNat = b.phase then (.refused false, s)
    else (.done b.phase, s.settleBarrier o va { b with arrived := b.arrived + 1 })
  | 16 => (.done b.phase, s.settleBarrier o va (b.without m))
  | 17 =>
    let n : Int := b.expected + x.toInt
    if n < 0 ∨ 2 ^ 32 ≤ n ∨ n < b.arrived then (.refused true, s)
    else (.done b.phase, s.settleBarrier o va { b with expected := n.toNat })
  | 19 => (.done b.phase, s.endPhase o va (b.without m) 0x2602)
  | _ =>
    if m.aphase.toNat = b.phase then (.pending, s)
    else if (m.aphase.toNat + 1) % 2 ^ 32 = b.phase ∧ b.last = 0 then
      (.ended (m.aphase.setWidth 64) true, s)
    else (.ended 0x2602 false, s)

/-- A waiter joins a barrier's chain (R137, R173). -/
def State.joinBarrier (s : State) (cl o : Nat) (t : Word) : State :=
  let s := s.joinLink t
  let b := s.barrier o
  if b.head = 0 then s.putBarrier o { b with head := t, tail := t }
  else (s.putLink cl b.tail t).putBarrier o { b with tail := t }

/-- A membership as a packet carries it: the arrival, and its phase. -/
def Member.word (m : Member) : Word := BitVec.ofNat 64 (b1 m.arr * 2 ^ 32 + m.aphase.toNat)
def memberOfWord (va w : Word) : Member := ⟨va, w.getLsbD 32, w.extractLsb' 0 32⟩

/-- The memberships of a task, kept with its own future (R174, R177). -/
def State.members? (s : State) (task : Word) : Option (Nat × Nat × FutEntry) × State :=
  match s.find task with
  | (.entry cl slot e, s) => (if e.kind = 0 then some (cl, slot, e) else none, s)
  | (_, s) => (none, s)

def State.putMembers (s : State) (cl slot : Nat) (ms : List Member) : State :=
  s.putEntry cl slot { SMap.get (s.cluster cl).fut FutEntry.empty slot with members := ms }

/-- One membership of a list put in the place it has, a new one last, or taken out (R177; log 28). -/
def setMember (ms : List Member) (va : Word) (m : Option Member) : List Member :=
  match m with
  | none => ms.filter fun x => x.addr != va
  | some m => if ms.any fun x => x.addr == va then ms.map fun x => if x.addr = va then m else x
    else ms ++ [m]

/-- The PA of a barrier by its address, walked from a root (log 29). -/
def State.barrierPa (s : State) (cl : Nat) (root va : Word) : Option Nat × State :=
  match s.walkRoot cl root va.toNat with
  | (.leaf l, s) => (some (l.paOf va.toNat), s)
  | (.fault _, s) => (none, s)

/-- A request for a barrier record of another module that no strand waits for (log 11). -/
def State.farBarrier (s : State) (cl elem pa code : Nat) (va m x : Word) : State :=
  if s.takesRequests (paModule pa) then s.errand cl elem (.barrier code va m x) (paModule pa) pa 32 else s

/-- A member leaves a barrier at the record's port, with code 16, or is killed, with 19 (R162, R176); the PA of
a record of another module that is to be asked instead. -/
def State.leaveOne (s : State) (cl : Nat) (root : Word) (code : Nat) (m : Member) : Option Nat × State :=
  match s.barrierPa cl root m.addr with
  | (none, s) => (none, s)
  | (some pa, s) =>
    if s.ownHbm pa then (none, (s.barrierPort (paOffset pa) m.addr code m 0).2)
    else (if s.takesRequests (paModule pa) then some pa else none, s)

/-- A killed task's memberships are given up (R176), each barrier found under a root. -/
def State.killMembers (s : State) (cl : Nat) (root : Word) (ms : List Member) : State :=
  ms.foldl (fun s m => match s.leaveOne cl root 19 m with
    | (some pa, s) => s.farBarrier cl 0 pa 19 m.addr m.word 0
    | (none, s) => s) s

/-- The memberships of a task of this module, taken out of its record. -/
def State.takeMembers (s : State) (task : Word) : List Member × State :=
  match s.members? task with
  | (some (cl, slot, e), s) => (e.members, s.putMembers cl slot [])
  | (none, s) => ([], s)

/-! ### Waiters that leave a chain (R137, R350, R351) -/

/-- A waiter leaves the future it waits on; the port of another module is asked. -/
def State.leaveFuture (s : State) (cl elem : Nat) (h tok : Word) : State :=
  if hModule h ≠ s.modNo.toNat then s.farRequest cl elem h 1 (tok ||| farBit)
  else match s.find h with
    | (.entry cl slot e, s) => (s.unchain cl slot e tok).getD s
    | (_, s) => s

/-- A waiter taken out of the chain of a barrier record here; none where it does not hold it. -/
def State.unchainBarrier (s : State) (cl o : Nat) (tok : Word) : Option State :=
  let s := s.openBarrier o
  let b := s.barrier o
  (s.unlink cl tok 0 domainRecords b.head b.head b.tail).map fun x =>
    x.2.2.putBarrier o { b with head := x.1, tail := x.2.1 }

/-- A waiter leaves the barrier it waits on; the port of another module is asked. -/
def State.leaveBarrier (s : State) (core elem : Nat) (va tok : Word) : State :=
  let cl := clusterOf core
  match s.barrierPa cl (s.core core).xroot va with
  | (none, s) => s
  | (some pa, s) =>
    if s.ownHbm pa then (s.unchainBarrier cl (paOffset pa) tok).getD s
    else s.farBarrier cl elem pa 20 va (tok ||| farBit) 0

/-- A waiter leaves the chain of a future (kind 1) or a barrier (kind 2). A park index, given as `elem` - 1, is
not free before another module that keeps its token has answered (log 42). -/
def State.leaveObject (s : State) (core elem kind : Nat) (obj tok : Word) : State :=
  if kind = 2 then s.leaveBarrier core elem obj tok else s.leaveFuture (clusterOf core) elem obj tok

/-- What an instruction that may wait at another module keeps in its answers, by number: its token (2), the
object (3) and its kind (4) (log 11). -/
def keptWord (got : List (Nat × Answer)) (n : Nat) : Word :=
  (got.findSome? fun x => if x.1 = n then (match x.2 with
    | .word v _ => some v
    | .note k => some (BitVec.ofNat 64 k)
    | _ => none) else none).getD 0

/-- Another module may have chained the token of a request: it has said so, or its answer has not come. -/
def mayBeChained (got : List (Nat × Answer)) : Bool :=
  match got.find? fun x => x.1 == 0 with
  | none => true
  | some (_, .note n) => n == 3
  | some (_, .trap ..) => true
  | some _ => false

/-- A park index taken before a request to another module is given up: at once, unless that module may have
chained its token and has not delivered yet; then the waiter leaves that chain (R350; log 42). -/
def State.releaseIndex (s : State) (core idx : Nat) (got : List (Nat × Answer)) : State :=
  let cl := clusterOf core
  let k := s.cluster cl
  let tok := keptWord got 2
  let s := if !mayBeChained got then s
    else if k.early.any fun x => x.1 == tok then
      s.setCluster cl { k with early := k.early.filter fun x => x.1 != tok }
    else s.leaveObject core (idx + 1) (keptWord got 4).toNat (keptWord got 3) tok
  s.givePark cl idx

/-! ### Ends of tasks and transactions (R151, R162, R246, R253) -/

/-- A transaction is aborted: its tentative versions freed, its future ended, its references and
registry entry released (R253). -/
def State.abortTx (s : State) (i : Nat) (st : BitVec 3) (fw : Word) : State :=
  let h := (s.tx i).future
  (((s.dropTentative i).endFuture h st fw).dropRef h).freeTx i

/-- What a strand leaves behind when its task ends: its transaction or its snapshot (R246, R253). -/
def State.leaveVersions (s : State) (snap tx : Word) (fw : Word) : State :=
  if txState tx ≠ 0 then s.abortTx (txIndex tx) 3 fw else s.releaseStamp snap

/-- A task is killed (R151): `core` is where its context lies. The memberships of one whose future lies at
another module are asked for there, and its reference is released once they have come (log 11). -/
def State.killTask (s : State) (core : Nat) (task snap tx fw : Word) : State :=
  let root := (s.core core).xroot
  let s := (s.endFuture task 3 fw).leaveVersions snap tx fw
  if hModule task ≠ s.modNo.toNat then s.farRequest (clusterOf core) 0 task 11 root
  else
    let (ms, s) := s.takeMembers task
    (s.killMembers (clusterOf core) root ms).dropRef task

/-! ### Answers to requests that no strand waits for (R173, R176, R386) -/

/-- The answer to an errand: a release goes on from a waiter that has been released; the memberships of a killed
task are given up, and its reference is released; the code of a write that has failed is recorded. -/
def State.endErrand (s : State) (r : Req) (a : Answer) : State :=
  let s := { s with reqs := s.reqs.filter fun x => x.id != r.id }
  match r.op, a with
  | .release t va v tail ok, .data bs _ => s.afterRelease t va v tail ok (leWord bs)
  | .future 11 h root _, .data bs _ =>
    (s.killMembers (clusterOf r.core) root (membersOf bs)).dropRef h
  | .future 11 h _ _, _ => s.dropRef h
  | .write .., .trap _ c _ => s.record c 0xFFFF 0
  | _, _ => s

/-- A request to another module has its answer: its requester's, or an errand's. -/
def State.finishReq (s : State) (r : Req) (a : Answer) : State :=
  if r.slot = errandSlot ∧ r.pkt.isNone then s.endErrand r a else s.answerReq r a

/-- A future that a withdrawn instruction had allocated is freed unseen (R350). -/
def State.freeUnseen (s : State) (h : Word) : State :=
  match s.find h with
  | (.entry cl slot e, s) => s.putEntry cl slot e.freed
  | (_, s) => s

/-- What a waiting instruction has allocated is given up: a handle that nobody has seen under 7, a park index
under 1. -/
def State.giveBack (s : State) (core : Nat) (got : List (Nat × Answer)) : State :=
  got.foldl (fun s x => match x with
    | (7, .word h _) => s.freeUnseen h
    | (1, .note (n + 1)) => s.releaseIndex core n got
    | _ => s) s

/-- A cluster's walks without a strand among their waiters. -/
def Cluster.unwait (k : Cluster) (mine : Nat → Nat → Nat → Bool) : Cluster :=
  let left := fun (w : Walk) =>
    { w with waiters := w.waiters.filter fun y => !mine y.1 y.2.1 y.2.2 }
  { k with walks := k.walks.map left, walkQ := k.walkQ.map left }

/-! ### Feed queues (R178, R372) -/

def State.feed (s : State) (f : Nat) : FeedQ := SMap.get s.disp.feeds {} f

def State.setFeed (s : State) (f : Nat) (q : FeedQ) : State :=
  { s with disp := { s.disp with feeds := SMap.put s.disp.feeds {} f q } }

/-- A popper leaves the chain of a feed queue: the link of the one before it names its successor (R137). -/
def State.leaveFeed (s : State) (cl f : Nat) (x : Word × Nat) : State :=
  let q := s.feed f
  let before := (q.poppers.takeWhile fun y => y != x).getLast?
  let after := ((q.poppers.dropWhile fun y => y != x).drop 1).headD (0, 0)
  let s := match before with
    | some y => if y.1 = 0 then s else s.putLink cl y.1 after.1
    | none => s
  s.setFeed f { q with poppers := q.poppers.filter fun y => y != x }

/-- The waits of a strand in its slot are withdrawn: it leaves the feed queue, or the chain of another
module. -/
def State.unpop (s : State) (core : Nat) (ws : List SlotWait) : State :=
  ws.foldl (fun s w =>
    if w.kind = 3 then s.leaveFeed (clusterOf core) (w.obj.toNat % 1024) (0, w.token.toNat)
    else if w.token = 0 then s
    else s.leaveObject core 0 w.kind w.obj w.token) s

/-- The waits of a strand in its slot are taken back (R350): its instruction issues afresh. -/
def State.withdraw (s : State) (core slot : Nat) : State :=
  let s := s.landFetch core slot
  let t := s.strand core slot
  let mine := fun (c k i : Nat) => c == core && k == slot && i == t.inst
  let gone := s.slotWaits.filter fun w => mine w.core w.slot w.inst
  let waits := s.slotWaits.filter fun w => !mine w.core w.slot w.inst
  let reqs := s.reqs.filter fun r => r.pkt.isSome || !mine r.core r.slot r.inst
  let replies := s.replies.filter fun r => !mine r.core r.slot r.inst
  let clusters : SMap Cluster := s.clusters.map fun x => (x.1, x.2.unwait mine)
  let s := { s with slotWaits := waits, reqs := reqs, replies := replies }
  let s := match t.flight with
    | some f => match f.instr, f.on with
      | .lrw .., .answers => s.releaseResv core slot t.inst
      | _, _ => s
    | none => s
  let s := { s with clusters := clusters }
  let s : State := match t.flight with
    | some f => s.giveBack core f.got
    | none => s
  let s := (s.unpop core gone).setCore core ((s.core core).unclaim slot)
  let t := s.strand core slot
  let st := if t.st = .waiting then SlotState.ready else t.st
  s.setStrand core slot { t with st := st, flight := none, walked := [], fetchWait := none }

/-- A killed strand: R151 in order, with its reservation and its slot. -/
def State.killStrand (s : State) (core slot : Nat) (fw : Word) : State :=
  let t := s.strand core slot
  let s := (s.withdraw core slot).killTask core t.task t.snap t.tx fw
  (s.releaseResv core slot t.inst).freeSlot core slot

end Sys2Proof.Machine
end

