-- ==== Sys2Proof/Machine/ScalarFloat.lean ====
section
/-! DEFINITION. The field instructions (R97) and the scalar floating point (R100 to R104). -/

namespace Sys2Proof.Machine

/-! ### Fields (R63, R97) -/

/-- A present entry of a layout. -/
structure FieldSpec where
  lo : Nat
  width : Nat
  signed : Bool
  deriving DecidableEq, Repr

/-- Entry i of layout `lay` of the issuing strand's core; none when absent. -/
def State.field (s : State) (lay : BitVec 4) (i : Nat) : Option FieldSpec :=
  let x : Nat := s.layout lay / 2 ^ (16 * i) % 2 ^ 16
  let w := x / 64 % 128
  if w = 0 then none else some ⟨x % 64, w, x / 2 ^ 13 % 2 == 1⟩

/-- The members of a layout, in ascending entry index. -/
def State.members (s : State) (lay : BitVec 4) : List FieldSpec :=
  (List.range 8).filterMap (s.field lay)

/-- A field extracted, extended as its s says. -/
def FieldSpec.get (f : FieldSpec) (x : Word) : Word :=
  let v : Nat := x.toNat / 2 ^ f.lo % 2 ^ f.width
  if f.signed && decide (2 ^ (f.width - 1) ≤ v) then BitVec.ofInt 64 ((v : Int) - 2 ^ f.width)
  else BitVec.ofNat 64 v

/-- A field inserted. -/
def FieldSpec.put (f : FieldSpec) (x v : Word) : Word :=
  let m := BitVec.ofNat 64 ((2 ^ f.width - 1) * 2 ^ f.lo)
  (x &&& ~~~m) ||| ((v <<< f.lo) &&& m)

/-- Members inserted into `x` from consecutive registers. -/
def packFrom (s : State) (a : Reg) (x : Word) : Nat → List FieldSpec → Word
  | _, [] => x
  | j, f :: r => packFrom s a (f.put x (s.gv (Reg.plus a j))) (j + 1) r

/-- Members of `x` written to consecutive registers, each extended as its s says, as the table of R97 has
it (log 56). -/
def unpackFrom (d : Reg) (x : Word) (p : Bool) (s : State) : Nat → List FieldSpec → State
  | _, [] => s
  | j, f :: r => unpackFrom d x p (s.setG (Reg.plus d j) (f.get x) p) (j + 1) r

def execFext (g : Guard) (d a : Reg) (lay : BitVec 4) (f : BitVec 3) (s : State) : Out :=
  run (.fext g d a lay f) g s fun s =>
    match s.field lay f.toNat with
    | none => .operand s (f.setWidth 64)
    | some e => unary s d a e.get

def execFins (g : Guard) (d a : Reg) (lay : BitVec 4) (f : BitVec 3) (s : State) : Out :=
  run (.fins g d a lay f) g s fun s =>
    match s.field lay f.toNat with
    | none => .operand s (f.setWidth 64)
    | some e => s.result d (e.put (s.gv d) (s.gv a)) (s.gp a || s.gp d)

/-- FPACK (R97): its group's range is tested before the port rules of the group (log 56). -/
def execFpack (g : Guard) (d a : Reg) (lay : BitVec 4) (s : State) : Out :=
  run (.fpack g d a lay) g s fun s =>
    let ms := s.members lay
    let n := ms.length
    if 32 < a.toNat + n then .operand s (BitVec.ofNat 64 n)
    else portGate s (Reg.group a n) [d] fun s =>
      s.result d (packFrom s a 0 0 ms) ((Reg.group a n).any s.gp)

def execFunpack (g : Guard) (d a : Reg) (lay : BitVec 4) (s : State) : Out :=
  run (.funpack g d a lay) g s fun s =>
    let ms := s.members lay
    let n := ms.length
    if 32 < d.toNat + n then .operand s (BitVec.ofNat 64 n)
    else portGate s [a] (Reg.group d n) fun s =>
      .done (unpackFrom d (s.gv a) (s.gp a) s 0 ms)

/-! ### Scalar floating point (R100 to R104) -/

/-- The format an ft code names (R55). -/
def fmtOf : FloatTy → Fmt
  | .f64 => .f64
  | .f32 => .f32
  | .f16 => .f16
  | .bf16 => .bf16

/-- sr.rctr after the draws of `n` elements in mode rm (R77). -/
def State.drew (s : State) (rm n : Nat) : State :=
  if rm = 5 then s.setMe { s.me with rctr := s.me.rctr + BitVec.ofNat 64 n } else s

/-- The draw of the n-th element of the issuing strand's instruction (R77). -/
def State.draw (s : State) (n : Nat) : Word := drawAt s.me.seed (s.me.rctr + BitVec.ofNat 64 n)

/-- Operand a after the abs and neg steps (R49). -/
def operandA (s : State) (f : Fmt) (a : Reg) : Nat :=
  f.signSteps s.mw.absA s.mw.negA (s.gv a).toNat

/-- Operand b after the abs and neg steps (R49). -/
def operandB (s : State) (f : Fmt) (b : Reg) : Nat :=
  f.signSteps s.mw.absB s.mw.negB (s.gv b).toNat

/-- An exact result scaled, rounded once and written (R49, R76). -/
def floatResult (s : State) (f : Fmt) (d : Reg) (v : Val) (p : Bool) : Res :=
  let m := s.mw
  let x := f.round m.rm.toNat m.clamp (s.draw 0) (v.scale m.scale.toInt)
  (s.drew m.rm.toNat 1).result d (BitVec.ofNat 64 x) p

/-- A two-operand float operation (R100). -/
def floatBinary (s : State) (ft : FloatTy) (d a b : Reg) (op : Nat → Val → Val → Val) : Res :=
  let f := fmtOf ft
  floatResult s f d (op s.mw.rm.toNat (f.value (operandA s f a)) (f.value (operandB s f b)))
    (s.gp a || s.gp b)

/-- The lesser or greater of two encodings, -0 below +0, a lone NaN passed over (R101). -/
def pickFloat (f : Fmt) (least : Bool) (x y : Nat) : Nat :=
  match (f.value x).order (f.value y) with
  | some .lt => if least then x else y
  | some .gt => if least then y else x
  | some .eq => if (decide (2 ^ (f.width - 1) ≤ x)) == least then x else y
  | none =>
    if f.value x = .nan then (if f.value y = .nan then f.nanBits else y) else x

/-- FMIN and FMAX (R101). -/
def floatPick (s : State) (ft : FloatTy) (d a b : Reg) (least : Bool) : Res :=
  let f := fmtOf ft
  s.result d (BitVec.ofNat 64 (pickFloat f least (operandA s f a) (operandB s f b)))
    (s.gp a || s.gp b)

/-- Scalar FMA (R102): the product exact, abs and neg on a and b only. -/
def floatFma (s : State) (f : Fmt) (d a b c : Reg) : Res :=
  let prod := (f.value (operandA s f a)).mul (f.value (operandB s f b))
  floatResult s f d (prod.add s.mw.rm.toNat (f.value (s.gv c).toNat)) (s.gp a || s.gp b || s.gp c)

def execFadd (g : Guard) (ft : FloatTy) (d a b : Reg) (s : State) : Out :=
  run (.fadd g ft d a b) g s fun s => floatBinary s ft d a b fun rm x y => x.add rm y

def execFsub (g : Guard) (ft : FloatTy) (d a b : Reg) (s : State) : Out :=
  run (.fsub g ft d a b) g s fun s => floatBinary s ft d a b fun rm x y => x.add rm y.neg

def execFmul (g : Guard) (ft : FloatTy) (d a b : Reg) (s : State) : Out :=
  run (.fmul g ft d a b) g s fun s => floatBinary s ft d a b fun _ x y => x.mul y

def execFdiv (g : Guard) (ft : FloatTy) (d a b : Reg) (s : State) : Out :=
  run (.fdiv g ft d a b) g s fun s => floatBinary s ft d a b fun _ x y => x.div y

def execFmin (g : Guard) (ft : FloatTy) (d a b : Reg) (s : State) : Out :=
  run (.fmin g ft d a b) g s fun s => floatPick s ft d a b true

def execFmax (g : Guard) (ft : FloatTy) (d a b : Reg) (s : State) : Out :=
  run (.fmax g ft d a b) g s fun s => floatPick s ft d a b false

def execFsqrt (g : Guard) (ft : FloatTy) (d a : Reg) (s : State) : Out :=
  run (.fsqrt g ft d a) g s fun s =>
    floatResult s (fmtOf ft) d ((fmtOf ft).value (s.gv a).toNat).sqrt (s.gp a)

def execFmaF64 (g : Guard) (d a b c : Reg) (s : State) : Out :=
  run (.fmaF64 g d a b c) g s fun s => floatFma s .f64 d a b c

def execFmaF32 (g : Guard) (d a b c : Reg) (s : State) : Out :=
  run (.fmaF32 g d a b c) g s fun s => floatFma s .f32 d a b c

def execFcmp (g : Guard) (cc : FCond) (ft : FloatTy) (pd : Pred) (a b : Reg) (s : State) : Out :=
  run (.fcmp g cc ft pd a b) g s fun s =>
    let f := fmtOf ft
    testInto s pd [a, b]
      (fcondHolds cc ((f.value (operandA s f a)).order (f.value (operandB s f b))))

/-- FCVT: Convert, written by the target's type (R71, R79); a source in an integer format is read in that
format, its low bits (R104, log 56). -/
def execFcvt (g : Guard) (tgt src : Fmt) (d a : Reg) (s : State) : Out :=
  run (.fcvt g tgt src d a) g s fun s =>
    let m := s.mw
    let v := (src.value (s.gv a).toNat).scale m.scale.toInt
    let x := convert v (!src.isFloat) tgt m.rm.toNat m.clamp m.sat.toNat (s.draw 0)
    (s.drew m.rm.toNat 1).result d (BitVec.ofNat 64 (tgt.widen x)) (s.gp a)

/-- An encoding rounded to an integral value in its own format (R104). -/
def roundIntegral (f : Fmt) (rm : Nat) (d : Word) (x : Nat) : Nat :=
  let x := x % 2 ^ f.width
  match f.value x with
  | .nan => f.nanBits
  | .inf _ => x
  | .fin s m e => if m = 0 then x else f.round 1 false 0 (.fin s (roundUnit rm d s m e 0) 0)

def execFrnd (g : Guard) (fmt : Fmt) (d a : Reg) (s : State) : Out :=
  run (.frnd g fmt d a) g s fun s =>
    let rm := s.mw.rm.toNat
    (s.drew rm 1).result d (BitVec.ofNat 64 (roundIntegral fmt rm (s.draw 0) (s.gv a).toNat)) (s.gp a)

def execFclass (g : Guard) (fmt : Fmt) (d a : Reg) (s : State) : Out :=
  run (.fclass g fmt d a) g s fun s => unary s d a fun x => BitVec.ofNat 64 (fmt.classOf x.toNat)

end Sys2Proof.Machine
end

