-- ==== Sys2Proof/Machine/LoadStore.lean ====
section
/-! DEFINITION. Loads and stores (R106 to R109, R264), LAYOUT (R98), atomics, reductions, exact
cells, reservations, fences, the software cache and PREF (R259 to R279), LDW and STW (R196), and ALW
(R392). -/

namespace Sys2Proof.Machine

/-! ### Plain loads and stores -/

/-- Bytes of a load type (R55). -/
def ldSize : LdTy → Nat
  | .n8 | .i8 => 1
  | .n16 | .i16 => 2
  | .n32 | .i32 => 4
  | .n64 => 8

def stSize : StTy → Nat
  | .n8 => 1 | .n16 => 2 | .n32 => 4 | .n64 => 8

/-- A loaded value, extended by its type (R71, R106). -/
def ldExtend (ty : LdTy) (bs : List Byte) : Word :=
  match ty with
  | .i8 => (BitVec.ofNat 8 (leNat bs)).signExtend 64
  | .i16 => (BitVec.ofNat 16 (leNat bs)).signExtend 64
  | .i32 => (BitVec.ofNat 32 (leNat bs)).signExtend 64
  | _ => leWord bs

/-- EA of the offset forms: the offset counts units of the access (R106). -/
def State.offsetEa (s : State) (a : Reg) (off : BitVec 7) (size : Nat) : Word :=
  s.gv a + off.signExtend 64 * BitVec.ofNat 64 size

/-- A scalar load into g[d]. -/
def scalarLoad (s : State) (ty : LdTy) (d : Reg) (srcs : List Reg) (ea : Word) : Res :=
  loadAt s srcs ea (ldSize ty) fun s bs ps => s.result d (ldExtend ty bs) (ps.any id)

/-- A scalar store of g[d]. -/
def scalarStore (s : State) (addressed rel : Bool) (ty : StTy) (d : Reg) (srcs : List Reg) (ea : Word) :
    Res :=
  storeAt s addressed rel srcs (s.dirtyData d [d]) ea (leBytes (stSize ty) (s.gv d).toNat) [s.gp d]

def execLd (g : Guard) (ty : LdTy) (d a : Reg) (off : BitVec 7) (s : State) : Out :=
  run (.ld g ty d a off) g s fun s => scalarLoad s ty d [a] (s.offsetEa a off (ldSize ty))

def execSt (g : Guard) (ty : StTy) (d a : Reg) (off : BitVec 7) (s : State) : Out :=
  run (.st g ty d a off) g s fun s =>
    scalarStore s false s.isRelease ty d [a] (s.offsetEa a off (stSize ty))

def execLdIndexed (g : Guard) (ty : LdTy) (d a b : Reg) (s : State) : Out :=
  run (.ldIndexed g ty d a b) g s fun s => scalarLoad s ty d [a, b] (s.gv a + s.gv b)

def execStIndexed (g : Guard) (ty : StTy) (d a b : Reg) (s : State) : Out :=
  run (.stIndexed g ty d a b) g s fun s =>
    scalarStore s false s.isRelease ty d [a, b] (s.gv a + s.gv b)

def execLdp (g : Guard) (d a : Reg) (off : BitVec 7) (s : State) : Out :=
  run (.ldp g d a off) g s fun s =>
    loadAt s [a] (s.offsetEa a off 16) 16 fun s bs ps =>
      .done ((s.setG d (leWord (bs.take 8)) (ps.getD 0 false)).setG (Reg.plus d 1)
        (leWord (bs.drop 8)) (ps.getD 1 false))

def execStp (g : Guard) (d a : Reg) (off : BitVec 7) (s : State) : Out :=
  run (.stp g d a off) g s fun s =>
    let e := Reg.plus d 1
    storeAt s false s.isRelease [a] (s.dirtyData d [d, e]) (s.offsetEa a off 16)
      (leBytes 8 (s.gv d).toNat ++ leBytes 8 (s.gv e).toNat) [s.gp d, s.gp e]

def execLdN64C16 (n : BitVec 3) (d a : BitVec 4) (s : State) : Out :=
  run (.ldN64C16 n d a) (compactGuard n) s fun s =>
    scalarLoad s .n64 (compactReg d) [compactReg a] (s.gv (compactReg a))

/-- ST.n64 [gd], ga: the address comes from gd and the data from ga (R47). -/
def execStN64C16 (n : BitVec 3) (d a : BitVec 4) (s : State) : Out :=
  run (.stN64C16 n d a) (compactGuard n) s fun s =>
    scalarStore s false false .n64 (compactReg a) [compactReg d] (s.gv (compactReg d))

def execLdaN32 (g : Guard) (d a : Reg) (s : State) : Out :=
  run (.ldaN32 g d a) g s fun s => scalarLoad s .n32 d [a] (s.gv a)

def execLdaN64 (g : Guard) (d a : Reg) (s : State) : Out :=
  run (.ldaN64 g d a) g s fun s => scalarLoad s .n64 d [a] (s.gv a)

def execStrN32 (g : Guard) (a b : Reg) (s : State) : Out :=
  run (.strN32 g a b) g s fun s => scalarStore s true true .n32 b [a] (s.gv a)

def execStrN64 (g : Guard) (a b : Reg) (s : State) : Out :=
  run (.strN64 g a b) g s fun s => scalarStore s true true .n64 b [a] (s.gv a)

/-! ### LAYOUT (R98) -/

/-- An entry of a layout image is well formed (R98). -/
def entryOk (x : Nat) : Bool :=
  let w := x / 64 % 128
  decide (x < 2 ^ 14) && (if w = 0 then x == 0 else decide (w ≤ 64 ∧ x % 64 + w ≤ 64))

def execLayout (g : Guard) (lay : BitVec 4) (a : Reg) (s : State) : Out :=
  run (.layout g lay a) g s fun s =>
    loadAt s [a] (s.gv a) 16 fun s bs ps =>
      if ps.any id then .poisoned s a
      else match (List.range 8).find? fun i => !entryOk (leNat ((bs.drop (2 * i)).take 2)) with
        | some i => .operand s (BitVec.ofNat 64 i)
        | none =>
          let c := s.myCore
          .done (s.setMyCore { c with
            layouts := SMap.put c.layouts 0 lay.toNat (BitVec.ofNat 128 (leNat bs)) })

/-! ### Tag words (R196) -/

/-- The checks of LDW and STW. -/
def tagWord (s : State) (a : Reg) (k : State → Nat → Nat → Res) : Res :=
  let ea := s.gv a
  consume s [a] fun s =>
  if regionClass ea = 3 then .address s ea
  else if regionClass ea = 0 then .operand s ea
  else if ea.toNat % 8 ≠ 0 then .misalign s ea
  else if !s.me.priv && touchesReserved s.issue.core ea 8 then .reserved s ea
  else match regionOf s.issue.core ea with
    | .spad c o => k s c o
    | _ => .address s ea

def execLdw (g : Guard) (d a : Reg) (s : State) : Out :=
  run (.ldw g d a) g s fun s =>
    answered s (fun s x => match x with
      | .word v p => s.result d v p
      | _ => .done s) fun s =>
    tagWord s a fun s c o =>
      if c = s.issue.core then
        ownTag s o 8 true fun s => let (x, s) := s.takeWord c o; s.result d x.v x.p
      else askOne s (.spad c o) (s.gv a) .ldw 8

/-- STW (R196). One to another core's scratchpad is a request beside the write buffer's bank (log 65). -/
def execStw (g : Guard) (a b : Reg) (s : State) : Out :=
  run (.stw g a b) g s fun s =>
    answered s (fun s _ => .done s) fun s =>
    tagWord s a fun s c o =>
      let d : PW := ⟨s.gv b, s.gp b⟩
      releasing s (scopeOf s.mw) fun s =>
      if c = s.issue.core then ownTag s o 8 false fun s => .done (s.fillWord c o d)
      else if s.posted.any (fun e => decide (e.place = .spad c)) then .hold s .drain s.got
      else askOne s (.spad c o) (s.gv a) (.stw d) 8

/-! ### Atomics (R265 to R267) -/

/-- The old value written to g[d]; an AMO with d = 0 discards it (R265). -/
def oldValue (s : State) (amo : Bool) (d : Reg) (v : Word) (p : Bool) : Res :=
  if amo && d == 0 then .done s else s.result d v p

/-- A read-write of `n` bytes; its answer is the old value. -/
def atomic (s : State) (amo : Bool) (srcs : List Reg) (a b d : Reg) (n : Nat) (host : Bool)
    (bits : List Nat) (op : ReqOp) (new : Nat → Option Nat) : Res :=
  answered s (fun s x => match x with
    | .word v p => oldValue s amo d v p
    | _ => .done s) fun s =>
  let ea := s.gv a
  atForm s srcs [b] ea n .both true host .rmw bits fun s x =>
  releaseIf s s.isRelease fun s =>
  match x with
  | .spad c o =>
    if c = s.issue.core then
      ownTag s o n true fun s =>
        let (x, s) := s.spadRmw c o n (s.gp b) new
        oldValue s amo d x.v x.p
    else askOne s (.spad c o) ea op n
  | x => askOne s x ea op n

def execAmo (g : Guard) (w : Bool) (op : AmoOp) (d a b : Reg) (s : State) : Out :=
  run (.amo g w op d a b) g s fun s =>
    let y : PW := ⟨if w then BitVec.ofNat 64 (bits (s.gv b) 31 0) else s.gv b, s.gp b⟩
    atomic s true [a] a b d (if w then 4 else 8) (op = .add ∨ op = .swap)
      [if op = .fadd then 1 else 0] (.amo op w y) fun old => some (amoNew op w old y.v.toNat)

/-- CAS (R266): the comparand g[d] is consumed. -/
def compareSwap (s : State) (n : Nat) (d a b : Reg) : Res :=
  atomic s false [a, d] a b d n true [2] (.cas (n = 4) (s.gv d) ⟨s.gv b, s.gp b⟩)
    (casNew n (s.gv d) (s.gv b))

def execCasN32 (g : Guard) (d a b : Reg) (s : State) : Out :=
  run (.casN32 g d a b) g s fun s => compareSwap s 4 d a b

def execCasN64 (g : Guard) (d a b : Reg) (s : State) : Out :=
  run (.casN64 g d a b) g s fun s => compareSwap s 8 d a b

/-! ### Reductions and exact cells (R268 to R272) -/

/-- The feature of a RED op at another module (R387). -/
def redFeature : RedOp → Nat
  | .exact => 5
  | .fadd => 4
  | _ => 3

def execRed (g : Guard) (w : Bool) (op : RedOp) (a b : Reg) (s : State) : Out :=
  run (.red g w op a b) g s fun s =>
    answered s (fun s _ => .done s) fun s =>
    let ea := s.gv a
    let n := redSize op w
    atForm s [a] [b] ea n .both false false .rmw [redFeature op] fun s x =>
    releaseIf s s.isRelease fun s =>
    writeUnit s x ea (.red op w (s.gv b)) [] [] n

def execXclr (g : Guard) (a : Reg) (s : State) : Out :=
  run (.xclr g a) g s fun s =>
    answered s (fun s _ => .done s) fun s =>
    let ea := s.gv a
    atForm s [a] [] ea 128 .write false false .store [5] fun s x =>
    writeUnit s x ea .clear [] [] 128

/-- XRD (R272). -/
def readCell (s : State) (f : Fmt) (d a : Reg) : Res :=
  answered s (fun s x => match x with
    | .data bs ps => floatResult s f d (cellVal bs s.mw.rm.toNat) (ps.any id)
    | _ => .done s) fun s =>
  let ea := s.gv a
  atForm s [a] [] ea 128 .read false false .load [5] fun s x => askOne s x ea .xrd 128

def execXrdF32 (g : Guard) (d a : Reg) (s : State) : Out :=
  run (.xrdF32 g d a) g s fun s => readCell s .f32 d a

def execXrdF64 (g : Guard) (d a : Reg) (s : State) : Out :=
  run (.xrdF64 g d a) g s fun s => readCell s .f64 d a

/-! ### Reservations (R273 to R276) -/

/-- The reservations of the issuing strand are released. -/
def State.releaseMine (s : State) : State := s.releaseResv s.issue.core s.issue.slot s.me.inst

/-- An LRW that was still queued at another module has left its queue there: it issues afresh (R350). -/
def State.unqueued (s : State) : State :=
  let t := s.me
  let gone := fun (r : Resv) => r.core == s.issue.core && r.slot == s.issue.slot && r.inst == t.inst
  let s := { s with resv := s.resv.filter fun r => !gone r }
  s.setMe { t with st := .ready, flight := none, walked := [], fetchWait := none }

def execLrw (g : Guard) (d a : Reg) (s : State) : Out :=
  run (.lrw g d a) g s fun s =>
    answered s (fun s x => match x with
      | .data bs ps => s.result d (leWord bs) (ps.any id)
      | .word v p => s.result d v p
      | .note _ => .gone s.unqueued
      | _ => .done s) fun s =>
    let ea := s.gv a
    atForm s [a] [] ea 8 .both false false .rmw [6] fun s x =>
      let (place, addr, pa, _) := s.target x
      if s.ownSector place addr 8 then .hold s .drain s.got
      else
        let s := s.releaseMine
        let r : Resv := ⟨pa / 128, s.issue.core, s.issue.slot, s.me.inst, none, some s.now, true⟩
        match place with
        | .remote _ => askOne { s with resv := s.resv ++ [r] } x ea .lrw 8
        | _ => askOne s x ea .lrw 8

/-- An SCH to a line ends the strand's reservation wherever it is held (R275): that of another module than
the line's is released at once. -/
def State.releaseElsewhere (s : State) (pa : Nat) : State :=
  s.releaseLines s.issue.core s.issue.slot s.me.inst fun l => l / 2 ^ 40 != paModule pa

def execSch (g : Guard) (pd : Pred) (a b : Reg) (s : State) : Out :=
  run (.sch g pd a b) g s fun s =>
    answered s (fun s x =>
      let mine := fun (r : Resv) => r.core == s.issue.core && r.slot == s.issue.slot &&
        r.inst == s.me.inst
      match x with
      | .pred p =>
        .done (({ s with resv := s.resv.filter fun r => !(mine r && !s.ownLine r.line) }).releaseMine.setP
          pd p)
      | .word _ _ => .done (s.releaseMine.setP pd false)
      | _ => .done s) fun s =>
    let ea := s.gv a
    atForm s [a] [b] ea 8 .both false false .rmw [6] fun s x =>
    releaseIf s s.isRelease fun s =>
      let (place, addr, pa, _) := s.target x
      if s.ownSector place addr 8 then .hold s .drain s.got
      else askOne (s.releaseElsewhere pa) x ea (.sch (s.gv b)) 8

/-! ### Fences, tags and prefetch (R231, R277 to R279) -/

/-- FENCE.fetch discards the core's instruction cache, and what fetches have asked of other modules:
their strands ask again (R39, R231). -/
def State.dropFetches (s : State) : State :=
  let core := s.issue.core
  let c := s.myCore
  let strands : SMap Strand := c.strands.map fun x =>
    (x.1, match x.2.fetchWait with
      | some g => if 2 ^ 60 ≤ g then { x.2 with st := .ready, fetchWait := none } else x.2
      | none => x.2)
  let s := s.setMyCore { c with icache := [], strands := strands }
  let mine := fun (c k i : Nat) => decide (fetchSlot ≤ k) && fetchMine core (k - 1000 - fetchSlot) c k i
  { s with reqs := s.reqs.filter fun r => r.pkt.isSome || !mine r.core r.slot r.inst,
           replies := s.replies.filter fun r => !mine r.core r.slot r.inst }

def execFence (g : Guard) (kind : FenceKind) (scope : BitVec 3) (s : State) : Out :=
  run (.fence g kind scope) g s fun s =>
    match kind with
    | .loads => .done s
    | .all | .stores => releasing s scope.toNat .done
    | .fetch => releasing s scope.toNat fun s => .done s.dropFetches

/-- The slot-size exponent z of the software cache (R31, R206). -/
def Core.slotZ (c : Core) : Nat := bits c.slotsize 2 0

/-- The set of an address (R206). -/
def setOf (z : Nat) (a : Word) : Nat := a.toNat / 2 ^ (7 + z) % 256

def tagValid (e : Word) : Bool := e.getLsbD 63
def tagSlot (e : Word) : Nat := bits e 59 49
def tagTag (e : Word) : Nat := bits e 48 0

/-- The entry that matches an address (R206). -/
def Core.lookup (c : Core) (a : Word) : Option Word :=
  let z := c.slotZ
  let t := bits a 55 7 / 2 ^ z * 2 ^ z
  (c.tags.find? fun x => x.1 / 8 == setOf z a && tagValid x.2 && tagTag x.2 == t).map (·.2)

/-- The offset in the scratchpad of the byte that an address hits (R206, R278). -/
def Core.hit (c : Core) (x : Word) : Option Nat :=
  let size := 128 * 2 ^ c.slotZ
  (if bits x 63 56 = 0 then c.lookup x else none).map fun e => tagSlot e * size + x.toNat % size

/-- LOOKUP (R278): the offset hit is kept while the access waits at the scratchpad (R167). -/
def execLookup (g : Guard) (d a : Reg) (s : State) : Out :=
  run (.lookup g d a) g s fun s =>
    consume s [a] fun s =>
    match (s.kept 7).or (s.myCore.hit (s.gv a)) with
    | none => s.result d 0 false
    | some off => Res.keeps 7 off <|
      ownTag s (off / 8 * 8) 8 true fun s =>
        s.result d (0xFFFFFFFFFF000000 + BitVec.ofNat 64 off) false

/-- The refusals of R206 and R279 on a valid entry e for index n. -/
def Core.tagRefused (c : Core) (n : Nat) (e : Word) : Bool :=
  let z := c.slotZ
  let size := 128 * 2 ^ z
  let t := tagTag e
  decide (t / 2 ^ z % 256 ≠ n / 8) || decide (t % 2 ^ z ≠ 0) ||
  decide (tagSlot e * size + size > 0xF0000) ||
  c.tags.any fun x => decide (x.1 ≠ n) && x.1 / 8 == n / 8 && tagValid x.2 && tagTag x.2 == t

def execTagset (g : Guard) (a b : Reg) (s : State) : Out :=
  run (.tagset g a b) g s fun s =>
    consume s [a, b] fun s =>
    let n := (s.gv a).toNat
    let e := s.gv b
    let c := s.myCore
    if 2048 ≤ n then .operand s (s.gv a)
    else if bits e 62 60 ≠ 0 ∨ (tagValid e ∧ c.tagRefused n e) then .operand s e
    else .done (s.setMyCore { c with tags := SMap.put c.tags 0 n e })

def execTagclr (g : Guard) (a : Reg) (s : State) : Out :=
  run (.tagclr g a) g s fun s =>
    consume s [a] fun s =>
    let n := (s.gv a).toNat
    let c := s.myCore
    if 2048 ≤ n then .operand s (s.gv a)
    else .done (s.setMyCore { c with tags := SMap.put c.tags 0 n 0 })

/-- The line of a hint allocated at its port (R277), when its page may be read at this level and lies in
the own module's HBM. -/
def State.prefetchLine (s : State) (l : Leaf) (ea : Word) (sup : Bool) : State :=
  let pa := l.paOf ea.toNat
  if l.permits .read sup && s.ownHbm pa && !s.paFault pa then s.cacheAccess (paOffset pa) else s

def execPref (g : Guard) (a : Reg) (s : State) : Out :=
  run (.pref g a) g s fun s =>
    consume s [a] fun s =>
    let ea := s.gv a
    if regionClass ea ≠ 0 || !rootEn s.root then .done s
    else match s.myCore.tlbFind s.context (granuleOf ea) with
      | none => .done (s.startWalk (granuleOf ea) false [⟨s.issue.core, ea, s.me.priv⟩])
      | some l =>
        .done ((s.useTlb ea).prefetchLine l ea s.me.priv)

/-! ### Allowances (R392) -/

def execAlw (g : Guard) (d a : Reg) (pq : Pred) (s : State) : Out :=
  run (.alw g d a pq) g s fun s =>
    consume s [a] fun s =>
    let x := s.gv a
    let m := bits x 8 0
    let k := max (bits x 31 16) 1
    if bits x 63 32 ≠ 0 ∨ bits x 15 9 ≠ 0 then .operand s x
    else if m = s.modNo.toNat then .done ((s.setG d 0xFFFF false).setP pq true)
    else if !s.present m then .done ((s.setG d 0 false).setP pq false)
    else
      let w := s.allow s.myCluster m
      let v := w.w - w.n
      .done ((s.setG d (BitVec.ofNat 64 v) false).setP pq (decide (k ≤ v)))

end Sys2Proof.Machine
end

