-- ==== Sys2Proof/Machine/TaskInstr.lean ====
section
/-! DEFINITION. The task, future, port, barrier and feed instructions (R161 to R163, R181 to R198),
and the drain states they meet (R405, R406). -/

namespace Sys2Proof.Machine

/-! ### Drain states (R405) -/

/-- The block of a core's engine register, as the key of its queue. -/
def blockKey (r : Word) : Nat := bits r 55 9

/-- The cluster holds no bound, parked or queued task, and its engine queues are empty (R405). -/
def State.clusterEmpty (s : State) (cl : Nat) : Bool :=
  (s.cluster cl).parked.isEmpty && (List.range 24).all fun i =>
    let c := s.core (24 * cl + i)
    c.strands.all (fun x => x.2.st == .free || x.2.taskless) && c.deque.isEmpty && c.arrivals.isEmpty &&
      c.dqFill == 0 && c.arFill == 0 && c.resend.isEmpty && c.prefetch.isEmpty &&
      (match s.loomQ.find? fun x => x.1 == blockKey c.loomblk with
        | some (_, q) => q.cmds.isEmpty
        | none => true) &&
      (match s.scrQ.find? fun x => x.1 == blockKey c.scrblk with
        | some (_, q) => q.cmds.isEmpty
        | none => true)

/-- The effective state of a cluster: 0 open, 1 draining, 2 drained, 3 fenced (R405). -/
def State.drainState (s : State) (cl : Nat) : Nat :=
  let m := s.man
  let e := max (max m.drainModule (SMap.get m.drainDie 0 (dieOf cl))) (SMap.get m.drainCluster 0 cl)
  if e = 1 then (if s.clusterEmpty cl then 2 else 1) else e

/-! ### Requests at table ports (R153, R183) -/

/-- An answer of a table port of another module (log 11). -/
def portAnsOf : Answer → PortAns
  | .note 1 => .stale
  | .note 2 => .refused
  | .note 3 => .pending
  | .word v bad => .final (!bad) v
  | .trap _ _ v => .final false v
  | _ => .ok

/-- A request to a table port of another module; a handle of no module is stale (R141, R387). -/
def askPort (s : State) (h : Word) (code : Nat) (x : Word) (got : List (Nat × Answer)) : Res :=
  let m := hModule h
  if !s.present m then .stale s h
  else if !s.featBit m 8 then .operand s h
  else .await (s.ask 0 (.future code h x s.me.task) (.remote m) 0 0 0 0 false) 1 got

/-- A request of a handle, applied at once at a port of the own module (log 18). -/
def viaPort (s : State) (h : Word) (code : Nat) (x : Word) (here : State → PortAns × State)
    (k : State → PortAns → Res) : Res :=
  answered s (fun s a => k s (portAnsOf a)) fun s =>
  if hModule h = s.modNo.toNat then let (r, s) := here s; k s r
  else askPort s h code x s.got

/-- The fates of a request that only succeeds, is stale or is refused. -/
def plainPort (h : Word) (s : State) : PortAns → Res
  | .stale => .stale s h
  | .refused => .operand s h
  | _ => .done s

/-! ### Tasks (R140, R184, R189, R192, R193) -/

/-- The descriptor of a child (R140, R246). -/
def State.childDesc (s : State) (e h : Word) : Desc :=
  let t := s.me
  let pois := fun (m i : Nat) => if (t.reg (BitVec.ofNat 5 i)).p then m + 2 ^ i else m
  { mig := e.getLsbD 63, prio := e.extractLsb' 61 2, tiles := e.extractLsb' 58 3,
    pc := e.extractLsb' 0 56, pois := BitVec.ofNat 16 ((List.range 16).foldl pois 0),
    resume := false, ixk := if t.snap ≠ 0 then 1 else 0,
    index := BitVec.ofNat 16 (if t.snap ≠ 0 then (s.snapIndex t.snap).getD 0 else 0),
    pred := t.pred, self := h, parent := t.task,
    carry := (List.range 16).map fun i => (t.reg (BitVec.ofNat 5 i)).v }

/-- The end of a SPAWN or SPAWNQ. -/
def spawned (s : State) (d : Reg) (q : Option Pred) (h : Word) (ok : Bool) : Res :=
  let s := s.setG d h false
  match q with
  | some pq => .done (s.setP pq ok)
  | none => .done s

/-- SPAWN and SPAWNQ (R184): the future once allocated is kept while the deque ring is full. -/
def spawn (s : State) (d a : Reg) (q : Option Pred) : Res :=
  consume s [a] fun s =>
  let e := s.gv a
  let plain := bits e 55 0 == 0
  if bits e 57 56 ≠ 0 ∨ 4 < bits e 60 58 ∨ (plain ∧ bits e 63 56 ≠ 0) then .operand s e
  else draining s s.got fun s =>
  let push := fun (s : State) (h : Word) =>
    if !s.myCore.dequeRoom then Res.hold s .ring [(7, .word h false)]
    else
      let d0 := s.childDesc e h
      let s := if s.me.snap ≠ 0 then (s.holdStamp s.me.snap).getD s else s
      spawned ((s.pushDeque s.issue.core d0).count s.issue.core 1 1) d q h true
  match s.answer 7 with
  | some (.word h _) => push s h
  | _ =>
    match s.allocate s.myCluster (if plain then 4 else 0) with
    | (none, s) => match q with
      | some _ => spawned s d q 0 false
      | none => .exhausted s 0x2603
    | (some h, s) => if plain then spawned s d q h true else push s h

def execSpawn (g : Guard) (d a : Reg) (s : State) : Out :=
  run (.spawn g d a) g s fun s => spawn s d a none

def execSpawnq (g : Guard) (d a : Reg) (pq : Pred) (s : State) : Out :=
  run (.spawnq g d a pq) g s fun s => spawn s d a (some pq)

/-- What EXIT asks the port of a task of another module, whose answer its strand waits for (R134, R386); `got` are
its answers so far. A module that is absent, or takes no requests any more, is not asked. -/
def exitAsk (s : State) (elem code : Nat) (x : Word) (got : List (Nat × Answer))
    (k : State → Option Answer → Res) : Res :=
  let h := s.me.task
  match s.answer elem with
  | some a => k s (some a)
  | none =>
    if hGen h ≠ 0 && s.takesRequests (hModule h) then
      .await (s.ask elem (.future code h x h) (.remote (hModule h)) 0 0 0 0 false) 1 got
    else k s none

/-- Step 2 of EXIT (R162): the task's future ends resolved. A task whose module takes no requests cannot end
(R387; log 61). -/
def exitResolve (s : State) (v : Word) (k : State → Res) : Res :=
  let h := s.me.task
  if hModule h = s.modNo.toNat then k (s.endFuture h 2 v)
  else if s.answer 30 = none && hGen h ≠ 0 && s.present (hModule h) && !s.featBit (hModule h) 8 then .operand s h
  else exitAsk s 30 4 v s.got fun s _ => k s

/-- The task leaves each of these barriers (R176): at the records of this module, and by requests to others, so
many of which it waits for. -/
def State.exitLeaves (s : State) (ms : List Member) : Nat × State :=
  let root := s.root
  ms.foldl (fun (x : Nat × State) m => match x.2.leaveOne s.myCluster root 16 m with
    | (some pa, s) =>
      (x.1 + 1, s.ask (40 + x.1) (.barrier 16 m.addr m.word 0) (.remote (paModule pa)) (paOffset pa) pa m.addr
        32 false)
    | (none, s) => (x.1, s)) (0, s)

/-- Step 3 of EXIT; 33 in its answers tells that it has been made. -/
def exitLeave (s : State) (k : State → Res) : Res :=
  let leave := fun (s : State) (ms : List Member) => match s.exitLeaves ms with
    | (0, s) => k s
    | (n, s) => .await s n ((33, .note 0) :: s.got)
  if hModule s.me.task = s.modNo.toNat then let (ms, s) := s.takeMembers s.me.task; leave s ms
  else exitAsk s 31 10 0 s.got fun s a => match a with
    | some (.data bs _) => leave s (membersOf bs)
    | _ => k s

/-- The last step of EXIT: the task's reference is released. -/
def exitDrop (s : State) (k : State → Res) : Res :=
  let h := s.me.task
  if hModule h = s.modNo.toNat then k (s.dropRef h)
  else exitAsk s 34 9 0 ((33, .note 0) :: s.got) fun s _ => k s

/-- A task that has ended gives up its strand: the transaction or the snapshot of its versions, which ends with
0x280C (R189), its reservation, its port and its slot. -/
def State.quit (s : State) : State :=
  let t := s.me
  ((s.popPort.leaveVersions t.snap t.tx 0x280C).releaseResv s.issue.core s.issue.slot t.inst).freeSlot
    s.issue.core s.issue.slot

/-- EXIT (R162, R189), which waits for what it asks of other modules. -/
def execExit (g : Guard) (a : Reg) (s : State) : Out :=
  run (.exit g a) g s fun s =>
    consume s [a] fun s =>
    draining s s.got fun s =>
    let last := fun (s : State) => exitDrop s fun s => .gone s.quit
    if (s.answer 33).isSome then last s
    else exitResolve s (s.gv a) fun s => exitLeave s last

/-- The core that owns an address (R161, R209): its module and its module-wide number. -/
def State.home (s : State) (a : Word) : Option (Nat × Nat) :=
  match s.spot a with
  | some (.spad c _) => some (s.modNo.toNat, c)
  | some (.glob _ pa) =>
    let o := paOffset pa
    let g := o / 2 ^ 12
    some (paModule pa,
      if inHbm o then 24 * (24 * portDie (homePort o) + g % 24) + g / 24 % 24 else 0)
  | none => none

/-- The address checks of GO: those of a one-byte load, without alignment (R192). -/
def State.checkGo (s : State) (a : Word) : Chk :=
  if regionClass a = 3 then .trap 3 0x6104 a
  else if regionClass a ≠ 0 then
    if !s.me.priv && touchesReserved s.issue.core a 1 then .trap 6 0x6107 a else .ok
  else s.checkPages a 1 .read

def execGo (g : Guard) (a : Reg) (s : State) : Out :=
  run (.go g a) g s fun s =>
    consume s [a] fun s =>
    let x := s.gv a
    Res.issued x <| (s.checkGo x).andThen s fun s =>
    let s := s.useTlb x
    match s.home x with
    | none => .address s x
    | some (m, c) =>
      let t := s.me
      let core := s.issue.core
      let own := s.modNo.toNat
      if t.pmode || s.ownsPort then .operand s x
      else if m ≠ own ∧ (t.snap ≠ 0 ∨ txState t.tx ≠ 0) then .trap s 14 0x6808 x
      else if m = own ∧ clusterOf c ≠ s.myCluster ∧ 2 ≤ s.drainState (clusterOf c) then .operand s x
      else draining s s.got fun s =>
      let d := s.descOfStrand t s.nextPc
      if m = own ∧ c = core then
        let s := s.releaseResv core s.issue.slot t.inst
        let f := s.freshStrand d
        .gone (s.setMe { f with st := .ready, inst := t.inst, last := t.last })
      else if m = own ∧ !(s.core c).arrivalRoom then .hold s .ring s.got
      else
        let s := (s.releaseResv core s.issue.slot t.inst).freeSlot core s.issue.slot
        if m = own then .gone (s.arrive c d)
        else .gone { s with migrations := s.migrations ++ [(m, c, d)] }

def execYield (g : Guard) (s : State) : Out :=
  run (.yield g) g s fun s =>
    if s.ownsPort then .done s
    else if s.parkIndex.isNone then .done s
    else draining s s.got fun s => match s.parkIndex with
      | none => .done s
      | some (idx, s) =>
        let t := s.me
        let s := s.parkAs idx s.nextPc { kind := 5 }
        .gone (s.arrive s.issue.core (resumeDesc t.mig t.prio t.task t.parent idx))

def execSelf (g : Guard) (d : Reg) (s : State) : Out :=
  run (.self g d) g s fun s => s.result d s.me.task false

/-! ### Waiting on futures (R146, R185) -/

/-- The end of a TOUCH or TOUCHQ on a final or stale future. -/
def touched (s : State) (d : Reg) (q : Option Pred) (h : Word) : PortAns → Res
  | .final ok v =>
    match q with
    | some pq => .done ((s.setG d v false).setP pq ok)
    | none => if ok then s.result d v false else .trap s 11 (v.extractLsb' 0 16) v
  | _ =>
    match q with
    | some pq => .done ((s.setG d 0x6604 false).setP pq false)
    | none => .stale s h

/-- The tail of a park record (R137, R185). -/
def State.parkTail (s : State) (kind : Nat) (d : Reg) (q : Option Pred) (obj : Word) : ParkTail :=
  { kind := kind, b295 := byte295 d s.issue.len q.isSome, b296 := (q.getD 0).toNat, obj := obj }

/-- The tail of a future's chain, 0 where there is none. -/
def State.chainTail (s : State) (h : Word) : Word :=
  match (s.peek h).1 with
  | .entry _ _ e => if e.head = 0 then 0 else e.tail
  | _ => 0

/-- A wait parks where it can, after a drain, and otherwise stays in its slot and drains nothing (R134). -/
def parkOr (s : State) (stay : State → Res) (park : State → Nat → Res) : Res :=
  if s.parkIndex.isNone then stay s
  else draining s s.got fun s => match s.parkIndex with
    | none => stay s
    | some (idx, s) => park s idx

/-- TOUCH and TOUCHQ of a future of the own module (R146): a pending one is parked on. -/
def touchHere (s : State) (d : Reg) (q : Option Pred) (h : Word) : Res :=
  match s.touchPort h with
  | (.pending, s) =>
    parkOr s (fun s => s.slotWait 1 h d q 0 (s.chainTail h)) fun s idx =>
      let tok := s.parkToken idx
      let s := s.popPort.parkAs idx s.nextPc (s.parkTail 1 d q h)
      match s.find h with
      | (.entry cl slot e, s) => .gone (s.joinChain cl slot e tok)
      | (_, s) => .gone s
  | (r, s) => touched s d q h r

/-- The token of a waiter that stays in its slot, at another module: its own for each request (R146, R153;
log 11). -/
def State.slotToken (s : State) : Word :=
  BitVec.ofNat 64 (2 ^ 63 + s.ownPa
    (2 ^ 46 + s.nextId % 2 ^ 28 * 2 ^ 17 + s.issue.core * 32 + s.issue.slot))

/-- A delivery that came before its waiter was ready is taken (R164). -/
def State.takeEarly (s : State) (tok : Word) : Option (Bool × Word) × State :=
  let cl := s.myCluster
  let k := s.cluster cl
  match k.early.find? fun x => x.1 == tok with
  | none => (none, s)
  | some (_, st, v) =>
    (some (st == 2, v), s.setCluster cl { k with early := k.early.filter fun x => x.1 != tok })

/-- A task parks on an object of another module that has chained its token: a delivery that has come
meanwhile is taken at once (R164). `tail` is what its record holds. -/
def parkFar (s : State) (idx : Nat) (tail : ParkTail) : Res :=
  let tok := s.parkToken idx ||| farBit
  let s := s.popPort.parkAs idx s.nextPc tail
  match s.takeEarly tok with
  | (some (ok, v), s) => .gone (s.deliverRecord (bits tok 55 0) ok v)
  | (none, s) => .gone s

/-- A strand stays in its slot for an object of another module, unless its delivery has come. -/
def stayFar (s : State) (kind : Nat) (obj : Word) (d : Reg) (q : Option Pred)
    (fin : State → Bool → Word → Res) : Res :=
  let tok := keptWord s.got 2
  match s.takeEarly tok with
  | (some (ok, v), s) => fin s ok v
  | (none, s) => s.slotWait kind obj d q tok 0

/-- The wait for an object of another module that is pending there: the task parks under the index its
token names, after a drain, or stays in its slot (R134, R194). -/
def waitFar (s : State) (idx : Option Nat) (kind : Nat) (obj : Word) (d : Reg) (q : Option Pred)
    (fin : State → Bool → Word → Res) : Res :=
  match idx with
  | none => stayFar s kind obj d q fin
  | some i =>
    if s.drained ∧ s.me.err.isSome then unlessError (s.releaseIndex s.issue.core i s.got) Res.done
    else draining s s.got fun s => parkFar s i (s.parkTail kind d q obj)

/-- The park index taken before a request, that its token names (log 25). -/
def State.takenIndex (s : State) : Option Nat :=
  match s.answer 1 with
  | some (.note (n + 1)) => some n
  | _ => none

/-- A request to another module that may wait there for an object of a kind: `send` makes it, with the token
of the park index taken for it or of the slot (R153). -/
def askFar (s : State) (kind : Nat) (obj : Word) (send : State → Word → List (Nat × Answer) → Res) : Res :=
  let keep := fun (s : State) (n : Nat) (tok : Word) =>
    send s tok ([(1, .note n), (2, .word tok false), (3, .word obj false), (4, .note kind)] ++ s.got)
  match s.parkIndex with
  | none => keep s 0 s.slotToken
  | some (idx, s) => keep s (idx + 1) (s.parkToken idx ||| farBit)

/-- The index taken before a request is given back when the request does not wait. -/
def State.giveIndex (s : State) : State :=
  match s.takenIndex with
  | some i => s.releaseIndex s.issue.core i s.got
  | none => s

/-- TOUCH and TOUCHQ of a future of another module (R153). -/
def touchFar (s : State) (d : Reg) (q : Option Pred) (h : Word) : Res :=
  match s.answer 0 with
  | some a =>
    match portAnsOf a with
    | .pending => waitFar s s.takenIndex 1 h d q fun s ok v => touched s d q h (.final ok v)
    | r => touched s.giveIndex d q h r
  | none =>
    let code := if q.isSome then 3 else 2
    if !s.present (hModule h) || !s.featBit (hModule h) 8 then askPort s h code 0 s.got
    else askFar s 1 h fun s tok got => askPort s h code tok got

def touchAny (s : State) (d a : Reg) (q : Option Pred) : Res :=
  consume s [a] fun s =>
  let h := s.gv a
  if hModule h = s.modNo.toNat then
    match s.answer 0 with
    | some x => touched s d q h (portAnsOf x)
    | none => touchHere s d q h
  else if s.answer 0 = none ∧ !s.present (hModule h) then touched s d q h .stale
  else touchFar s d q h

def execTouch (g : Guard) (d a : Reg) (s : State) : Out :=
  run (.touch g d a) g s fun s => touchAny s d a none

def execTouchq (g : Guard) (d a : Reg) (pq : Pred) (s : State) : Out :=
  run (.touchq g d a pq) g s fun s => touchAny s d a (some pq)

def execTouchC16 (n : BitVec 3) (d a : BitVec 4) (s : State) : Out :=
  run (.touchC16 n d a) (compactGuard n) s fun s => touchAny s (compactReg d) (compactReg a) none

/-! ### Ending futures, references, status (R187 to R191) -/

def execResolve (g : Guard) (a b : Reg) (s : State) : Out :=
  run (.resolve g a b) g s fun s =>
    consume s [a, b] fun s =>
    draining s s.got fun s =>
    let h := s.gv a
    viaPort s h 4 (s.gv b) (fun s => s.endPort h s.me.task 2 (s.gv b)) (plainPort h)

/-- A fault word's code is legal (R147). -/
def faultWordOk (v : Word) : Bool := decide (bits v 15 0 ≠ 0 ∧ bits v 15 13 < 5)

def execPoison (g : Guard) (a b : Reg) (s : State) : Out :=
  run (.poison g a b) g s fun s =>
    consume s [a, b] fun s =>
    if !faultWordOk (s.gv b) then .operand s (s.gv b)
    else draining s s.got fun s =>
    let h := s.gv a
    viaPort s h 5 (s.gv b) (fun s => s.endPort h s.me.task 3 (s.gv b)) (plainPort h)

def execCancel (g : Guard) (a : Reg) (s : State) : Out :=
  run (.cancel g a) g s fun s =>
    consume s [a] fun s =>
    let h := s.gv a
    viaPort s h 6 0 (fun s => s.cancelPort h) (plainPort h)

def execFstat (g : Guard) (d a : Reg) (s : State) : Out :=
  run (.fstat g d a) g s fun s =>
    consume s [a] fun s =>
    let h := s.gv a
    answered s (fun s x => match x with
      | .word v bad => s.result d (if bad then BitVec.ofNat 64 (bits v 15 0 * 2 ^ 48 + 3) else v) false
      | _ => s.result d 7 false) fun s =>
    if hModule h = s.modNo.toNat then let (v, s) := s.statPort h; s.result d v false
    else if !s.present (hModule h) then s.result d 7 false
    else askPort s h 7 0 s.got

def execFhold (g : Guard) (a : Reg) (s : State) : Out :=
  run (.fhold g a) g s fun s =>
    consume s [a] fun s =>
    let h := s.gv a
    viaPort s h 8 0 (fun s => s.holdPort h) (plainPort h)

def execFdrop (g : Guard) (a : Reg) (s : State) : Out :=
  run (.fdrop g a) g s fun s =>
    consume s [a] fun s =>
    let h := s.gv a
    viaPort s h 9 0 (fun s => s.dropPort h) (plainPort h)

/-! ### Ports (R169 to R172, R195) -/

def execPmode (g : Guard) (k : Bool) (s : State) : Out :=
  run (.pmode g k) g s fun s => .done (s.setMe { s.me with pmode := k })

def execPbind (g : Guard) (a : Reg) (s : State) : Out :=
  run (.pbind g a) g s fun s =>
    consume s [a] fun s =>
    let c := s.myCore
    let x := s.gv a
    if x = 1 then
      match c.owner with
      | none =>
        let lost := c.discards + BitVec.ofNat 32 c.portQ.length
        .done (s.setMyCore { c with owner := some s.issue.slot, portQ := [], discards := lost })
      | some k => if s.ownsPort then .done s else .operand s (BitVec.ofNat 64 k)
    else if x = 0 then
      if s.ownsPort then .done (s.setMyCore { c with owner := none }) else .operand s 0
    else .operand s x

/-- The port status word (R172); of a parked owner, the slot it held (log 27). -/
def State.portStatus (s : State) : Word :=
  let c := s.myCore
  BitVec.ofNat 64 (c.discards.toNat * 2 ^ 32 + (c.owner.getD 0) * 2 ^ 9 + b1 c.owner.isSome * 2 ^ 8 +
    (s.core (downstream s.issue.core)).portQ.length * 16 + c.portQ.length)

def execPstat (g : Guard) (d : Reg) (s : State) : Out :=
  run (.pstat g d) g s fun s => s.result d s.portStatus false

/-! ### Barriers (R197) -/

/-- Where a barrier record lies: at an offset of the own module's HBM, or at a PA of another module. -/
inductive BarSpot where
  | here (o : Nat)
  | far (pa : Nat)
  deriving DecidableEq, Repr

/-- The memberships of the issuing task: at its own future's port, here or at another module (R177), which
must take requests (R387); `lost` follows a request there that has failed (R386; log 61). -/
def withMembers (s : State) (lost : State → Word → Res) (k : State → Option (List Member) → Res) : Res :=
  let task := s.me.task
  if hModule task = s.modNo.toNat then
    match s.members? task with
    | (some (_, _, e), s) => k s (some e.members)
    | (none, s) => k s none
  else match s.answer 20 with
    | some (.data bs _) => k s (some (membersOf bs))
    | some (.word v _) => lost s v
    | some _ => k s none
    | none =>
      if !s.present (hModule task) || !s.featBit (hModule task) 8 then k s none
      else .await (s.ask 20 (.members task) (.remote (hModule task)) 0 0 0 0 false) 1 s.got

/-- A membership of the issuing task changed at its own future's port, before the instruction ends; `got`
are its answers so far. -/
def putMember (s : State) (va : Word) (m : Option Member) (got : List (Nat × Answer)) (k : State → Res) :
    Res :=
  let task := s.me.task
  if hModule task = s.modNo.toNat then
    match s.members? task with
    | (some (cl, slot, e), s) => k (s.putMembers cl slot (setMember e.members va m))
    | (none, s) => k s
  else match s.answer 21 with
    | some _ => k s
    | none =>
      let w := (m.map Member.word).getD (BitVec.ofNat 64 (2 ^ 33))
      .await (s.ask 21 (.member task va w) (.remote (hModule task)) 0 0 0 0 false) 1 got

/-- The checks of a barrier instruction, after which its record's PA is known; `dr` tells a form that drains. A
record in host memory or among the device registers has no memory port that serves it (log 30). -/
def checkBarrier (s : State) (a : Reg) (extra : List Reg) (dr : Bool) (k : State → Nat → Res) : Res :=
  consume s (a :: extra) fun s =>
  let x := s.gv a
  if x.toNat % 32 ≠ 0 ∨ regionClass x ≠ 0 then .operand s x
  else Res.issued x <| (s.checkPages x 32 .write).andThen s fun s =>
  match s.spot x with
  | some (.glob l pa) =>
    (s.checkFeatures l pa x [8]).andThen s fun s =>
    let s := s.useTlb x
    if !inHbm (paOffset pa) then .operand s x
    else if dr then draining s s.got fun s => k s pa
    else k s pa
  | _ => .operand s x

/-- The record of a barrier instruction and the task's memberships. One of them at another module is asked for,
and the checks are not made again once it has been (R183): the record's PA is kept. -/
def atBarrier (s : State) (a : Reg) (extra : List Reg) (dr : Bool) (lost : State → Word → Res)
    (k : State → BarSpot → Option (List Member) → Res) : Res :=
  let go := fun (s : State) (pa : Nat) =>
    let here := s.ownHbm pa
    let r := withMembers s lost fun s m => k s (if here then .here (paOffset pa) else .far pa) m
    if here && hModule s.me.task == s.modNo.toNat then r else r.keeps 6 pa
  match s.kept 6 with
  | some pa => go s pa
  | none => checkBarrier s a extra dr go

/-- What a barrier record's port answers, in a reply (log 11). -/
def answerOfBarrier : BarAns → Answer
  | .refused operand => .note (if operand then 4 else 2)
  | .done n => .data (leBytes 8 n) [false]
  | .pending => .note 3
  | .ended v ok => .word v (!ok)

/-- The answer of a barrier record of another module (log 11). -/
def barAnsOf : Answer → BarAns
  | .note 3 => .pending
  | .note 4 => .refused true
  | .word v bad => .ended v (!bad)
  | .trap _ _ v => .ended v false
  | .data bs _ => .done (leNat bs)
  | _ => .refused false

/-- An operation at the record's port, here or at another module: it is done once, and its answer kept while
the instruction goes on. -/
def barrierOp (s : State) (y : BarSpot) (va : Word) (code : Nat) (m : Member) (x : Word)
    (k : State → BarAns → List (Nat × Answer) → Res) : Res :=
  match s.answer 0, y with
  | some a, _ => k s (barAnsOf a) s.got
  | none, .here o =>
    let (r, s) := s.barrierPort o va code m x
    k s r ((0, answerOfBarrier r) :: s.got)
  | none, .far pa =>
      .await (s.ask 0 (.barrier code va m.word x) (.remote (paModule pa)) (paOffset pa) pa va 32 false) 1
        s.got

/-- A barrier instruction without a result ends, where a request to another module has failed: whether it was
applied there is not known (R386; log 61). -/
def barrierLost (s : State) (_ : Word) : Res := .done s

/-- A membership of a barrier, among a task's. -/
def memberOf (va : Word) (ms : Option (List Member)) : Option Member :=
  ms.bind fun l => l.find? fun x => x.addr == va

def execBjoin (g : Guard) (a : Reg) (s : State) : Out :=
  run (.bjoin g a) g s fun s =>
    atBarrier s a [] false barrierLost fun s y ms =>
      let va := s.gv a
      match ms with
      | none => .operand s va
      | some l =>
        if s.answer 0 = none ∧ (4 ≤ l.length ∨ l.any (fun x => x.addr == va)) then .operand s va
        else barrierOp s y va 14 ⟨va, false, 0⟩ 0 fun s r got => match r with
          | .done _ => putMember s va (some ⟨va, false, 0⟩) got .done
          | .ended v _ => barrierLost s v
          | _ => .operand s va

def execBarv (g : Guard) (a : Reg) (s : State) : Out :=
  run (.barv g a) g s fun s =>
    atBarrier s a [] true barrierLost fun s y ms =>
      let va := s.gv a
      match memberOf va ms with
      | none => .operand s va
      | some m => barrierOp s y va 15 m 0 fun s r got => match r with
        | .done n => putMember s va (some ⟨va, true, BitVec.ofNat 32 n⟩) got .done
        | .ended v _ => barrierLost s v
        | _ => .operand s va

def execBleave (g : Guard) (a : Reg) (s : State) : Out :=
  run (.bleave g a) g s fun s =>
    atBarrier s a [] true barrierLost fun s y ms =>
      let va := s.gv a
      match memberOf va ms with
      | none => .operand s va
      | some m => barrierOp s y va 16 m 0 fun s r got => match r with
        | .ended v _ => barrierLost s v
        | _ => putMember s va none got .done

def execBexpect (g : Guard) (a b : Reg) (s : State) : Out :=
  run (.bexpect g a b) g s fun s =>
    atBarrier s a [b] false barrierLost fun s y ms =>
      let va := s.gv a
      match memberOf va ms with
      | none => .operand s va
      | some m => barrierOp s y va 17 m (s.gv b) fun s r _ => match r with
        | .done _ => .done s
        | .ended v _ => barrierLost s v
        | _ => .operand s (s.gv b)

/-- BWAIT at a record of the own module: the outcome, or a wait that parks where it can (R175). -/
def waitHere (s : State) (o : Nat) (va : Word) (m : Member) (d : Reg) (pq : Pred)
    (fin : State → Bool → Word → Res) : Res :=
  match s.barrierPort o va 18 m 0 with
  | (.ended v ok, s) => fin s ok v
  | (_, s) =>
    let b := s.barrier o
    parkOr s (fun s => s.slotWait 2 (BitVec.ofNat 64 o) d (some pq) 0 (if b.head = 0 then 0 else b.tail))
      fun s idx =>
        let tok := s.parkToken idx
        let s := s.popPort.parkAs idx s.nextPc (s.parkTail 2 d (some pq) va)
        .gone (s.joinBarrier s.myCluster o tok)

/-- BWAIT at a record of another module. -/
def waitThere (s : State) (pa : Nat) (va : Word) (m : Member) (d : Reg) (pq : Pred)
    (fin : State → Bool → Word → Res) : Res :=
  match s.answer 0 with
  | some a => match barAnsOf a with
    | .pending => waitFar s s.takenIndex 2 va d (some pq) fin
    | .ended v ok => fin s.giveIndex ok v
    | _ => .operand s.giveIndex va
  | none => askFar s 2 va fun s tok got =>
    .await (s.ask 0 (.barrier 18 va m.word tok) (.remote (paModule pa)) (paOffset pa) pa va 32 false) 1 got

def execBwait (g : Guard) (d a : Reg) (pq : Pred) (s : State) : Out :=
  run (.bwait g d a pq) g s fun s =>
    let fin := fun (s : State) (ok : Bool) (v : Word) => Res.done ((s.setG d v false).setP pq ok)
    let start := fun (s : State) =>
      atBarrier s a [] false (fun s v => fin s false v) fun s y ms =>
        let va := s.gv a
        match memberOf va ms with
        | none => .operand s va
        | some m =>
          if !m.arr then .operand s va
          else match y with
            | .here o => waitHere s o va m d pq fin
            | .far pa => waitThere s pa va m d pq fin
    match s.got.getLast? with
    | some (0, .word v bad) => if s.takenIndex.isSome then start s else fin s (!bad) v
    | _ => start s

/-! ### Feed queues (R178, R198, R372) -/

/-- The HBM offset of record number i of a feed queue (R372). -/
def FeedQ.recordAt (q : FeedQ) (i : Nat) : Nat :=
  paOffset (bits q.base 55 8 * 256) + 8 * (i % 2 ^ q.f)

/-- The oldest record taken at the feed port; none when the queue is empty. -/
def State.popFeed (s : State) (f : Nat) : Option (Word × State) :=
  let q := s.feed f
  if q.ftail = q.fhead then none
  else
    let (bs, _, s) := s.hbmRead (q.recordAt q.fhead.toNat) 8
    some (leWord bs, s.setFeed f { q with fhead := q.fhead + 1 })

/-- The link of a parked popper to the one behind it (R137). -/
def State.linkPopper (s : State) (q : FeedQ) (t : Word) : State :=
  match q.poppers.getLast? with
  | some (p, _) => if p = 0 then s else s.putLink s.myCluster p t
  | none => s

/-- FPOP and FPOPQ at the feed port. -/
def feedPop (s : State) (d a : Reg) (q : Option Pred) : Res :=
  answered s (fun s x => match x with
    | .word v _ => s.result d v false
    | _ => .done s) fun s =>
  consume s [a] fun s =>
  let x := s.gv a
  let f := x.toNat % 1024
  if bits x 63 10 ≠ 0 || !(s.feed f).en then .operand s x
  else match s.popFeed f, q with
    | some (v, s), some pq => .done ((s.setG d v false).setP pq true)
    | some (v, s), none => s.result d v false
    | none, some pq => .done (s.setP pq false)
    | none, none =>
      parkOr s (fun s =>
        let (id, s) := s.newId
        let fq := s.feed f
        (s.setFeed f { fq with poppers := fq.poppers ++ [(0, id)] }).slotWait 3 (BitVec.ofNat 64 f) d
          none (BitVec.ofNat 64 id) 0) fun s idx =>
        let tok := s.parkToken idx
        let s := s.popPort.parkAs idx s.nextPc (s.parkTail 3 d none (BitVec.ofNat 64 f))
        let fq := s.feed f
        .gone ((s.linkPopper fq tok).setFeed f { fq with poppers := fq.poppers ++ [(tok, 0)] })

def execFpop (g : Guard) (d a : Reg) (s : State) : Out :=
  run (.fpop g d a) g s fun s => feedPop s d a none

def execFpopq (g : Guard) (d a : Reg) (pq : Pred) (s : State) : Out :=
  run (.fpopq g d a pq) g s fun s => feedPop s d a (some pq)

end Sys2Proof.Machine
end

