-- ==== Sys2Proof/Machine/Engine.lean ====
section
/-! DEFINITION. The engine blocks and rings of the Loom and the Scrivener (R293, R294, R317, R338),
the pause and stop states of the engines (R348, R354), and interrupts pending (R336, R347). -/

namespace Sys2Proof.Machine

/-! ### Blocks (R293, R317, R338) -/

/-- A block that is set: its HBM offset, the base and m it holds. -/
structure Block where
  off : Nat
  base : Word
  m : Nat
  deriving DecidableEq, Repr

/-- The block a register names, when it is set (R338), as its port would read it now (R210). -/
def State.block (s : State) (r : Word) : Option Block :=
  let pa := bits r 55 9 * 512
  let o := paOffset pa
  let base := s.seenWord o
  let m := leNat (s.seen (o + 8) 1)
  let good := decide (pa ≠ 0) && s.ownHbm pa && decide (base.toNat % 64 = 0) &&
    decide (base.toNat < 2 ^ 56) && s.ownHbm base.toNat && decide (6 ≤ m) && decide (m ≤ 16)
  if good then some ⟨o, base, m⟩ else none

def emptyQ (α : Type) : EngineQ α := ⟨0, 0, []⟩

def State.loomQueue (s : State) (k : Nat) : EngineQ LoomCmd := SMap.get s.loomQ (emptyQ LoomCmd) k
def State.scrQueue (s : State) (k : Nat) : EngineQ CopyCmd := SMap.get s.scrQ (emptyQ CopyCmd) k

def State.setLoomQ (s : State) (k : Nat) (q : EngineQ LoomCmd) : State :=
  { s with loomQ := SMap.put s.loomQ (emptyQ LoomCmd) k q }

def State.setScrQ (s : State) (k : Nat) (q : EngineQ CopyCmd) : State :=
  { s with scrQ := SMap.put s.scrQ (emptyQ CopyCmd) k q }

/-- head and tail of a block (R293). -/
def State.blockHead (s : State) (o : Nat) : Word := s.seenWord (o + 16)
def State.blockTail (s : State) (o : Nat) : Word := s.seenWord (o + 24)

/-- A block read at its port, as an engine does when it accepts or completes a command (R210, R212). -/
def State.openBlock (s : State) (o : Nat) : State := (s.hbmRead o 32).2.2

def State.setHead (s : State) (o : Nat) (v : Word) : State := s.hbmWrite (o + 16) (leBytes 8 v.toNat)
def State.setTail (s : State) (o : Nat) (v : Word) : State := s.hbmWrite (o + 24) (leBytes 8 v.toNat)

/-- Records in use of a Loom queue. -/
def recordsOf (cs : List LoomCmd) : Nat := cs.foldl (fun n c => n + c.records) 0

/-- The block that a register names is read, and counts as not set (R212, R293). -/
def State.tryBlock (s : State) (r : Word) : State :=
  let pa := bits r 55 9 * 512
  if pa ≠ 0 && s.ownHbm pa then s.openBlock (paOffset pa) else s

/-- A command accepted at the tail of a Loom queue (R292). -/
def State.loomPush (s : State) (k : Nat) (b : Block) (c : LoomCmd) : State :=
  let s := s.openBlock b.off
  let q := s.loomQueue k
  (s.setLoomQ k ⟨b.base, b.m, q.cmds ++ [c]⟩).setTail b.off
    (s.blockTail b.off + BitVec.ofNat 64 c.records)

/-- A copy accepted at the tail of a Scrivener queue (R321). -/
def State.scrPush (s : State) (k : Nat) (b : Block) (c : CopyCmd) : State :=
  let s := s.openBlock b.off
  let q := s.scrQueue k
  (s.setScrQ k ⟨b.base, b.m, q.cmds ++ [c]⟩).setTail b.off (s.blockTail b.off + 1)

/-- The command at the head of a Loom queue has completed. -/
def State.loomPop (s : State) (k : Nat) : State :=
  let o := blockOff k
  let s := s.openBlock o
  let q := s.loomQueue k
  let n := (q.cmds.map (·.records)).headD 0
  (s.setLoomQ k { q with cmds := q.cmds.drop 1 }).setHead o (s.blockHead o + BitVec.ofNat 64 n)

/-- The command at the head of a Scrivener queue has completed. -/
def State.scrPop (s : State) (k : Nat) : State :=
  let o := blockOff k
  let s := s.openBlock o
  let q := s.scrQueue k
  (s.setScrQ k { q with cmds := q.cmds.drop 1 }).setHead o (s.blockHead o + 1)

/-! ### Pauses (R336, R348, R354) -/

def lpauseOf (cctl : Word) : Nat := bits cctl 3 2

/-- The Loom is asked to pause, by lpause or by the debug word. -/
def Core.wantsLoomPause (c : Core) : Bool := lpauseOf c.cctl != 0 || c.dbg.getLsbD 2

/-- sr.cctl.lpaused: paused, or stopped on a fault under a pause (R348). -/
def Core.lpaused (c : Core) : Bool :=
  c.loom.seq == .paused || (c.loom.seq == .stopped && c.wantsLoomPause)

/-- sr.cctl as it reads. -/
def Core.readCctl (c : Core) : Word := (c.cctl &&& ~~~2) ||| (if c.lpaused then 2 else 0)

/-- A pause that is no longer asked for ends (R348). -/
def Core.unpause (c : Core) : Core :=
  if c.loom.seq = .paused ∧ !c.wantsLoomPause then
    { c with loom := { c.loom with seq := .running } }
  else c

/-- The debug word of some core pauses every queue of the cluster's Scrivener (R354). -/
def State.sqSet (s : State) (cl : Nat) : Bool :=
  (List.range 24).any fun i => (s.core (24 * cl + i)).dbg.getLsbD 3

/-- The core's Scrivener queue is asked to pause. -/
def State.wantsScrPause (s : State) (core : Nat) : Bool :=
  (s.core core).cctl.getLsbD 4 || s.sqSet (clusterOf core)

/-- spaused cleared where no pause is asked for. -/
def State.scrUnpause (s : State) (core : Nat) : State :=
  let c := s.core core
  if s.wantsScrPause core then s else s.setCore core { c with cctl := c.cctl &&& ~~~0x20 }

/-! ### Interrupts pending (R336, R347) -/

/-- The timer bit of sr.ipend. -/
def State.timerDue (s : State) (c : Core) : Bool := c.tcmp != 0 && !decide (s.time < c.tcmp)

/-- sr.ipend as it reads. -/
def State.ipendOf (s : State) (c : Core) : Word :=
  (c.ipend &&& ~~~2) ||| (if s.timerDue c then 2 else 0)

/-- sr.ipend AND sr.cctl.ien. -/
def State.pending (s : State) (core : Nat) : Word :=
  let c := s.core core
  s.ipendOf c &&& BitVec.ofNat 64 (bits c.cctl 15 8)

end Sys2Proof.Machine
end

