-- ==== Sys2Proof/Machine/Csr.lean ====
section
/-! DEFINITION. The state registers (R23 to R32, R105, R215, R336 to R338): SRD, SWR, SRDP, SWRP and
SHAPE. -/

namespace Sys2Proof.Machine

/-! ### User state registers (R23 to R32) -/

/-- sr.status (R27). -/
def State.status (s : State) : Word :=
  let t := s.me
  let c := s.issue.core
  BitVec.ofNat 64 (s.modNo.toNat * 2 ^ 19 + dieOf (clusterOf c) * 2 ^ 17 + clusterOf c % 24 * 2 ^ 12 +
    c % 24 * 2 ^ 7 + s.issue.slot * 4 + b1 t.pmode * 2 + b1 t.priv)

/-- User register n as SRD reads it; none for a number not assigned (R23). -/
def State.userReg (s : State) (n : Nat) : Option Word :=
  let t := s.me
  match n with
  | 0x00 => some ((t.pred ||| 1).setWidth 64)
  | 0x01 => some s.status
  | 0x02 => some (BitVec.ofNat 64 (s.issuedAt - s.myCore.resetAt))
  | 0x03 => some (BitVec.ofNat 64 (s.issuedAt / 4))
  | 0x04 => some t.seed
  | 0x05 => some t.rctr
  | 0x06 => some t.shape
  | 0x07 => some s.myCore.slotsize
  | 0x08 => some t.snap
  | 0x09 => some t.tx
  | 0x0A => some t.task
  | _ => none

/-- Bits of an element of format code f. -/
def codeBits (f : Nat) : Nat :=
  if f = 0 ∨ f = 4 then 8
  else if f = 1 ∨ f = 5 then 16
  else if f = 2 ∨ f = 6 then 32
  else if f = 3 ∨ f = 7 ∨ f = 8 then 64
  else if f = 9 then 32
  else if f = 10 ∨ f = 11 then 16
  else if f = 12 ∨ f = 13 then 8
  else 4

/-- The fields of a shape word (R30). -/
def shapeRows (w : Word) : Nat := bits w 4 0 + 1
def shapeCols (w : Word) : Nat := bits w 15 8 + 1
def shapeCode (w : Word) : Nat := bits w 23 20

/-- The tests of R30. -/
def shapeOk (w : Word) : Bool :=
  decide (w.toNat < 2 ^ 24) && decide (bits w 19 16 = 0) && decide (bits w 7 5 = 0) &&
    decide (shapeCode w ≠ 15) &&
    decide (shapeRows w * shapeCols w * codeBits (shapeCode w) ≤ 8192)

def execSrd (g : Guard) (d : Reg) (n : BitVec 8) (s : State) : Out :=
  run (.srd g d n) g s fun s =>
    match s.userReg n.toNat with
    | some v => s.result d v false
    | none => .illegal s

/-- SWR (R23 to R25, R30, R31). -/
def execSwr (g : Guard) (n : BitVec 8) (a : Reg) (s : State) : Out :=
  run (.swr g n a) g s fun s =>
    consume s [a] fun s =>
    let v := s.gv a
    let t := s.me
    match n.toNat with
    | 0x00 =>
      if v.toNat < 2 ^ 16 then .done (s.setMe { t with pred := v.setWidth 16 ||| 1 })
      else .operand s v
    | 0x04 => .done (s.setMe { t with seed := v })
    | 0x05 => .done (s.setMe { t with rctr := v })
    | 0x06 => if shapeOk v then .done (s.setMe { t with shape := v }) else .operand s v
    | 0x07 =>
      if v.toNat ≤ 5 then
        let c := s.myCore
        let tags := c.tags.filter fun x => !tagValid x.2
        .done (s.setMyCore { c with slotsize := v, tags := tags })
      else .operand s v
    | _ => .illegal s

/-- SHAPE (R120). -/
def execShape (g : Guard) (fmt : BitVec 4) (cols1 : BitVec 8) (rows1 : BitVec 5) (s : State) : Out :=
  run (.shape g fmt cols1 rows1) g s fun s =>
    let v : Word := BitVec.ofNat 64 (fmt.toNat * 2 ^ 20 + cols1.toNat * 2 ^ 8 + rows1.toNat)
    if shapeOk v then .done (s.setMe { s.me with shape := v }) else .operand s v

/-! ### Supervisor state registers (R215, R336, R338) -/

/-- sr.slots (R131, R336). -/
def Core.slots (c : Core) : Word :=
  BitVec.ofNat 64 ((List.range 32).foldl (fun m k =>
    let t := SMap.get c.strands {} k
    let x := match t.st with
      | .free => 0
      | .ready => 1
      | .waiting => 2
      | .halted => 3
    m + x * 2 ^ (2 * k)) 0)

/-- Supervisor register n as SRDP reads it. -/
def State.superReg (s : State) (n : Nat) : Option Word :=
  let t := s.me
  let c := s.myCore
  let k := s.cluster s.myCluster
  match n with
  | 0x00 => some t.epc
  | 0x01 => some t.cause
  | 0x02 => some t.tval
  | 0x03 => some t.estat
  | 0x04 => some t.kscr
  | 0x10 => some c.tvec
  | 0x11 => some c.xroot
  | 0x12 => some c.readCctl
  | 0x13 => some (s.ipendOf c)
  | 0x14 => some c.tcmp
  | 0x15 => some c.loomblk
  | 0x16 => some c.scrblk
  | 0x17 => some c.dqring
  | 0x18 => some c.arring
  | 0x19 => some c.slots
  | 0x20 => some k.parkbase
  | 0x21 => some k.futbase
  | 0x22 => some k.reeveblk
  | _ => none

def execSrdp (g : Guard) (d : Reg) (n : BitVec 8) (s : State) : Out :=
  run (.srdp g d n) g s fun s =>
    match s.superReg n.toNat with
    | some v => s.result d v false
    | none => .illegal s

/-- Bits hi to lo of a value that are nonzero are reserved. -/
def clearBits (v : Word) (hi lo : Nat) : Bool := decide (bits v hi lo = 0)

/-- A ring register's value (R336). -/
def ringOk (v : Word) : Bool :=
  clearBits v 63 56 && clearBits v 7 5 &&
    (decide (bits v 4 0 = 0) || (decide (8 ≤ bits v 4 0) && decide (bits v 4 0 ≤ 16)))

/-- A block register's value. -/
def blockOk (v : Word) : Bool := clearBits v 63 56 && clearBits v 8 0

/-- A park or future base's value. -/
def baseOk (v : Word) : Bool := clearBits v 63 56 && clearBits v 11 0

/-- sr.cctl's value: lpause 3 is invalid. -/
def cctlOk (v : Word) : Bool :=
  clearBits v 63 16 && clearBits v 7 6 && decide (bits v 3 2 ≠ 3)

/-- sr.cctl written: its read-only bits stay, and pauses no longer asked for end (R336, R348). -/
def State.writeCctl (s : State) (core : Nat) (v : Word) : State :=
  let c := s.core core
  let w := (v &&& 0xFF1D) ||| (c.cctl &&& 0x20)
  (s.setCore core ({ c with cctl := w }.unpause)).scrUnpause core

/-- sr.ipend written: bits that clear by writing 1 (R336). -/
def Core.clearIpend (c : Core) (v : Word) : Core := { c with ipend := c.ipend &&& ~~~(v &&& 0x1D) }

/-- What may keep sr.loomblk or sr.scrblk from being rewritten (R348). -/
def State.loomBusy (s : State) : Bool :=
  let c := s.myCore
  !(s.loomQueue (blockKey c.loomblk)).cmds.isEmpty && !c.lpaused

def State.scrBusy (s : State) : Bool :=
  let c := s.myCore
  !(s.scrQueue (blockKey c.scrblk)).cmds.isEmpty && !c.cctl.getLsbD 5

/-- The writes of SWRP: none when refused with the operand trap (R336, R338, R348). One that sets a block leaves
its head and tail as memory holds them (log 40). -/
def State.writeSuper (s : State) (n : Nat) (v : Word) : Option State :=
  let t := s.me
  let c := s.myCore
  let cl := s.myCluster
  let k := s.cluster cl
  let ok := fun (b : Bool) (x : State) => if b then some x else none
  match n with
  | 0x00 => some (s.setMe { t with epc := v })
  | 0x01 => ok (clearBits v 63 32 && clearBits v 15 5) (s.setMe { t with cause := v })
  | 0x02 => some (s.setMe { t with tval := v })
  | 0x03 => ok (clearBits v 63 8)
      (s.setMe { t with estat := (v &&& 0x93) ||| (t.estat &&& 0x6C) })
  | 0x04 => some (s.setMe { t with kscr := v })
  | 0x10 => ok (clearBits v 63 56 && clearBits v 0 0) (s.setMyCore { c with tvec := v })
  | 0x11 => ok (clearBits v 50 36) (s.setMyCore { c with xroot := v })
  | 0x12 => ok (cctlOk v) (s.writeCctl s.issue.core v)
  | 0x13 => ok (clearBits v 63 5) (s.setMyCore (c.clearIpend v))
  | 0x14 => some (s.setMyCore { c with tcmp := v })
  | 0x15 => ok (blockOk v && !s.loomBusy) (s.setMyCore { c with loomblk := v })
  | 0x16 => ok (blockOk v && !s.scrBusy) (s.setMyCore { c with scrblk := v })
  | 0x17 => ok (ringOk v && c.dqFill == 0) (s.setMyCore { c with dqring := v })
  | 0x18 => ok (ringOk v && c.arFill == 0) (s.setMyCore { c with arring := v, arHead := 0 })
  | 0x19 => some s
  | 0x20 => ok (baseOk v && k.parked.isEmpty) (s.setCluster cl { k with parkbase := v })
  | 0x21 =>
    let s := s.flushTable cl
    ok (baseOk v) (s.setCluster cl { s.cluster cl with futbase := v })
  | 0x22 => ok (blockOk v) (s.setCluster cl { k with reeveblk := v })
  | _ => none

def execSwrp (g : Guard) (n : BitVec 8) (a : Reg) (s : State) : Out :=
  run (.swrp g n a) g s fun s =>
    consume s [a] fun s =>
    match s.writeSuper n.toNat (s.gv a) with
    | some s => .done s
    | none => if (s.superReg n.toNat).isSome then .operand s (s.gv a) else .illegal s

end Sys2Proof.Machine
end

