-- ==== Sys2Proof/Machine/Tile.lean ====
section
/-! DEFINITION. The tile registers and the tile instructions that reach no memory (R111 to R119,
R123 to R130). -/

namespace Sys2Proof.Machine

/-! ### Tile registers (R111 to R114) -/

def Core.tile (c : Core) (n : Nat) : Tile := SMap.get c.tiles {} n

def State.tile (s : State) (t : TReg) : Tile := s.myCore.tile t.toNat

def State.setTile (s : State) (t : TReg) (x : Tile) : State :=
  let c := s.myCore
  s.setMyCore { c with tiles := SMap.put c.tiles {} t.toNat x }

def Tile.chain (t : Tile) : Bool := t.entry.getLsbD 63
def Tile.full (t : Tile) : Bool := t.entry.getLsbD 62

def Tile.setFull (t : Tile) (b : Bool) : Tile :=
  { t with entry := if b then t.entry ||| 0x4000000000000000 else t.entry &&& ~~~0x4000000000000000 }

/-- A shape as the tile instructions use it. -/
structure Shape where
  rows : Nat
  cols : Nat
  fmt : Fmt
  deriving DecidableEq, Repr

def Shape.size (h : Shape) : Nat := h.rows * h.cols
def Shape.width (h : Shape) : Nat := h.fmt.width

/-- The shape word (R30). -/
def Shape.word (h : Shape) : Nat := h.fmt.code.toNat * 2 ^ 20 + (h.cols - 1) * 2 ^ 8 + (h.rows - 1)

/-- The shape a word gives; none when its format is invalid. -/
def shapeOf (w : Word) : Option Shape :=
  (Sys2Proof.fmtOf (shapeCode w)).map fun f => ⟨shapeRows w, shapeCols w, f⟩

/-- Element e of width w of the data (R113). -/
def elemAt (d : BitVec 8192) (w e : Nat) : Nat := d.toNat / 2 ^ (e * w) % 2 ^ w

/-- The strip that holds element e of width w (R111, R113). -/
def stripOf (w e : Nat) : Nat := e * w / 256

/-- The raw elements of a register read in a shape. -/
def Tile.elems (t : Tile) (h : Shape) : List Nat :=
  (List.range h.size).map fun e => elemAt t.data h.width e

/-- The poison of each element (R115). -/
def Tile.poisons (t : Tile) (h : Shape) : List Bool :=
  (List.range h.size).map fun e => t.pois.getLsbD (stripOf h.width e)

/-- Scaled-block formats (R73). -/
def isNarrow : Fmt → Bool
  | .f8e4 | .f8e5 | .f4 => true
  | _ => false

/-- The value of element e from its raw bits (R114). -/
def Tile.valueOf (t : Tile) (f : Fmt) (e raw : Nat) : Val :=
  if isNarrow f then f.scaled (t.scales.getD (e / 32) 127) raw else f.value raw

/-- Elements packed from element `e` on. -/
def packElems (w : Nat) : Nat → List Nat → Nat
  | _, [] => 0
  | e, x :: r => x % 2 ^ w * 2 ^ (e * w) + packElems w (e + 1) r

/-- Strip poison from the poison of the elements (R115). -/
def stripPoison (w : Nat) (ps : List Bool) : BitVec 32 :=
  (List.range ps.length).foldl (fun (m : BitVec 32) e =>
    if ps.getD e false then m ||| BitVec.ofNat 32 (2 ^ stripOf w e) else m) 0

/-- Scale bytes above the last block read 127 (R114). -/
def padScales (l : List Byte) : List Byte := l.take 64 ++ List.replicate (64 - l.length) 127

/-- A whole write (R113): elements, tail 0, strip poison, shape, full, and scale bytes for a narrow
format. -/
def Tile.write (t : Tile) (h : Shape) (raws : List Nat) (ps : List Bool) (scales : List Byte) : Tile :=
  { data := BitVec.ofNat 8192 (packElems h.width 0 raws), pois := stripPoison h.width ps,
    scales := if isNarrow h.fmt then padScales scales else t.scales,
    entry := (t.entry &&& 0x8000000000000000) ||| 0x4000000000000000 ||| BitVec.ofNat 64 h.word }

/-- The orders of issue of the last whole write of a register in this cycle, and of the last one that wrote
its scale bytes; 0 for none. -/
def State.writtenNow (s : State) (t : TReg) : Nat × Nat :=
  let x := SMap.get s.myCore.written (0, 0, 0) t.toNat
  if x.1 = s.now then x.2 else (0, 0)

/-- The orders of the last writers of a register in this cycle are noted. -/
def State.setWritten (s : State) (t : TReg) (x : Nat × Nat) : State :=
  let c := s.myCore
  s.setMyCore { c with written := SMap.put c.written (0, 0, 0) t.toNat (s.now, x) }

/-- A whole write of a tile register is noted: its cycle, the order of its writer's issue, and whether it
writes the scale bytes (R113, R116). -/
def State.noteWrite (s : State) (t : TReg) (order : Nat) (scales : Bool) : State :=
  s.setWritten t (order, if scales then order else (s.writtenNow t).2)

/-- The data with element e of width w replaced. -/
def putElem (d : BitVec 8192) (w e v : Nat) : BitVec 8192 :=
  BitVec.ofNat 8192 (d.toNat - elemAt d w e * 2 ^ (e * w) + v % 2 ^ w * 2 ^ (e * w))

/-- A register after a write of TMOVG (R124). -/
def Tile.patch (x : Tile) : TilePatch → Tile
  | .elem w e v p =>
    { x with data := putElem x.data w e v,
             pois := if p then x.pois ||| BitVec.ofNat 32 (2 ^ stripOf w e) else x.pois }
  | .scale k v => { x with scales := x.scales.take (8 * k) ++ leBytes 8 v.toNat ++ x.scales.drop (8 * k + 8) }
  | .entry v => { x with entry := v }

/-- The writes of TMOVG to a register in this cycle by instructions issued after `order`. -/
def State.movesAfter (s : State) (t : TReg) (order : Nat) : List TilePatch :=
  (SMap.get s.myCore.moved [] t.toNat).filterMap fun x =>
    if x.1 = s.now ∧ order < x.2.1 then some x.2.2 else none

/-- A write of TMOVG, noted with its cycle and the order of its issue (R116). -/
def State.moveTile (s : State) (t : TReg) (p : TilePatch) : State :=
  let c := s.myCore
  let l := (SMap.get c.moved [] t.toNat).filter fun x => x.1 == s.now
  (s.setMyCore { c with moved := SMap.put c.moved [] t.toNat (l ++ [(s.now, s.nextId, p)]) }).setTile t
    ((s.tile t).patch p)

/-- A whole write of an instruction issued later has fallen due in this cycle. -/
def State.overWritten (s : State) (t : TReg) (order : Nat) : Bool := decide (order < (s.writtenNow t).1)

/-- A write of an instruction issued later has fallen due in this cycle: it stands (R116). -/
def State.outWritten (s : State) (t : TReg) (order : Nat) : Bool :=
  s.overWritten t order || !(s.movesAfter t order).isEmpty

/-- The whole write `y`, in format `f`, of an instruction after whose issue others have written in this cycle:
theirs stand; scale bytes that a narrow format writes stand where none of the whole writes issued later has
written any (R113, R116, R123). -/
def State.writeUnder (s : State) (t : TReg) (f : Fmt) (y : Tile) (order : Nat) : State :=
  let z := (s.movesAfter t order).foldl Tile.patch y
  if s.overWritten t order then
    let x := s.writtenNow t
    if isNarrow f && decide (x.2 < order) then
      (s.setWritten t (x.1, order)).setTile t { s.tile t with scales := z.scales }
    else s
  else (s.noteWrite t order (isNarrow f)).setTile t z

def State.writeTile (s : State) (t : TReg) (h : Shape) (raws : List Nat) (ps : List Bool)
    (scales : List Byte) : State :=
  (s.noteWrite t s.nextId (isNarrow h.fmt)).setTile t ((s.tile t).write h raws ps scales)

/-! ### Chain registers (R117) -/

/-- A slot that a CTXSV of the core is waiting to save: its strand issues nothing more (R350). -/
def Core.saving (c : Core) (slot : Nat) : Bool :=
  c.strands.any fun x => match x.2.flight with
    | some f => match f.instr with
      | .ctxsv _ a => let w := (x.2.reg a).v; bits w 63 60 == 0 && bits w 59 44 == slot
      | _ => false
    | none => false

/-- A slot is kept from issuing: a debugger halts it, a context save stops it, or its core holds user
level back (R346, R350, R354). -/
def State.heldBack (s : State) (core slot : Nat) : Bool :=
  let c := s.core core
  c.dbg.getLsbD (32 + slot) || c.saving slot || (c.cctl.getLsbD 0 && !(s.strand core slot).priv)

/-- One condition: tile x to be full, or tile x - 64 to be empty and not claimed. -/
def Core.chainHolds (c : Core) (x : Nat) : Bool :=
  let t := c.tile (x % 64)
  let claimed := c.claims.any fun k => k.tile == x % 64 && k.write && k.chain
  !t.chain || (if x < 64 then t.full else !t.full && !claimed)

/-- Two sets of conditions name one chain register. -/
def Core.shareChain (c : Core) (xs ys : List Nat) : Bool :=
  xs.any fun x => (c.tile (x % 64)).chain && ys.any fun y => y % 64 == x % 64

/-- A strand may issue in this cycle, as far as its own last issue goes (R132). -/
def State.rested (s : State) (t : Strand) : Bool :=
  match t.last with
  | none => true
  | some c => decide (c + 8 ≤ s.now)

/-- The conditions hold, and no strand that began waiting earlier on one of these registers could issue
itself, nor, where this strand waits too, one on any other in this cycle; one that its core holds back could
not (R117; log 32). -/
def State.chainAllows (s : State) (core : Nat) (xs : List Nat) (since : Nat) : Bool :=
  let c := s.core core
  let waits := decide (since < s.nextId)
  xs.all c.chainHolds && c.strands.all fun y => match y.2.flight with
    | some f => match f.on with
      | .chain zs => s.heldBack core y.1 ||
        !(decide (f.since < since) && zs.all c.chainHolds &&
          (c.shareChain xs zs || (waits && s.rested y.2)))
      | _ => true
    | none => true

/-- The conditions of an instruction with these sources and destinations. -/
def chainNeeds (srcs dests : List TReg) : List Nat :=
  srcs.map (·.toNat) ++ (dests.filter fun d => !srcs.contains d).map (64 + ·.toNat)

/-- A tile instruction waits for its chain registers. -/
def chainGate (s : State) (srcs dests : List TReg) (k : State → Res) : Res :=
  let xs := chainNeeds srcs dests
  let on := WaitOn.chain xs
  if s.chainAllows s.issue.core xs (s.tagSince on) then k s else .hold s on s.got

/-- The chain registers an instruction reads are emptied at its issue. -/
def State.emptySources (s : State) (srcs : List TReg) : State :=
  srcs.foldl (fun s t =>
    let x := s.tile t
    if x.chain then s.setTile t (x.setFull false) else s) s

/-! ### Checks (R50, R118, R119) -/

/-- Modifier groups the format accepts (R50): sat an integer format, every other one but ord a float
format, scope too. -/
def fmtAccepts (m : MW) (isFloat : Bool) : Bool :=
  let grp := m.rm != 0 || m.scale != 0 || m.clamp || m.absA || m.absB || m.negA || m.negB || m.scope != 0
  (m.sat == 0 || !isFloat) && (!grp || isFloat)

/-- A source's recorded shape agrees (R119). -/
def Tile.agrees (t : Tile) (h : Shape) : Bool :=
  match shapeOf (t.entry &&& 0xFFFFFF) with
  | some k => k.rows == h.rows && k.cols == h.cols && k.width == h.width
  | none => false

/-- The operand trap of a source that disagrees (R118 step 4); where several do, the first in the order ta,
tb, td, and tst's t before ti (log 65). -/
def agree (s : State) (h : Shape) (srcs : List TReg) (k : State → Res) : Res :=
  match srcs.find? fun t => !(s.tile t).agrees h with
  | some t => .operand s (t.setWidth 64)
  | none => k s

/-- Steps 2 to 4 of R118 around an instruction's own tests and effect. -/
def tileSteps (s : State) (ok : Fmt → Bool) (mods : Fmt → Bool) (srcs dests : List TReg)
    (k : State → Shape → Res) : Res :=
  match shapeOf s.me.shape with
  | none => .operand s s.me.shape
  | some h =>
    if !ok h.fmt || !mods h.fmt then .operand s s.me.shape
    else chainGate s srcs dests fun s => agree s h srcs fun s => k s h

/-- The usual modifier test. -/
def State.usualMods (s : State) (f : Fmt) : Bool := fmtAccepts s.mw f.isFloat

/-- Any format. -/
def anyFmt (_ : Fmt) : Bool := true

/-! ### Results (R113 to R115) -/

/-- Values rounded into a format, with the scale bytes of a narrow one (R114): one draw an element. -/
def State.formTile (s : State) (f : Fmt) (rm : Nat) (clamp : Bool) (vs : List Val) :
    List Nat × List Byte :=
  let n := vs.length
  let xs := (List.range n).map fun e => (vs.getD e .nan, s.draw e)
  if isNarrow f then
    let blocks := (List.range ((n + 31) / 32)).map fun k => f.block rm ((xs.drop (32 * k)).take 32)
    (blocks.flatMap (·.2), blocks.map (·.1))
  else (xs.map fun x => f.round rm clamp x.2 x.1, [])

/-- The end of a tile instruction that reads and writes inside the core: sources emptied, the
destination written whole, in the event of the issue (R116 allows up to 8 cycles; log 57). -/
def tileDone (s : State) (srcs : List TReg) (td : TReg) (h : Shape) (raws : List Nat)
    (ps : List Bool) (scales : List Byte) : Res :=
  .done ((s.emptySources srcs).writeTile td h raws ps scales)

/-- A float result: each value scaled and rounded once (R49, R125). -/
def floatTile (s : State) (srcs : List TReg) (td : TReg) (h : Shape) (vs : List Val) (ps : List Bool) :
    Res :=
  let m := s.mw
  let rm := m.rm.toNat
  let (raws, scales) := s.formTile h.fmt rm m.clamp (vs.map (Val.scale m.scale.toInt))
  tileDone (s.drew rm vs.length) srcs td h raws ps scales

/-- Integer results, limited by sat, low bits kept (R125). -/
def intTile (s : State) (srcs : List TReg) (td : TReg) (h : Shape) (vs : List Int) (ps : List Bool) :
    Res :=
  let cut := fun (v : Int) => (saturate s.mw.sat.toNat v % 2 ^ h.width).toNat
  tileDone s srcs td h (vs.map cut) ps []

/-- The poison of element-wise results (R115). -/
def State.elementPoison (s : State) (h : Shape) (ts : List TReg) : List Bool :=
  let ps := ts.map fun t => (s.tile t).poisons h
  (List.range h.size).map fun e => ps.any fun l => l.getD e false

/-- Raw elements of operand a after abs and neg (R49). -/
def State.rawA (s : State) (h : Shape) (t : TReg) : List Nat :=
  ((s.tile t).elems h).map (h.fmt.signSteps s.mw.absA s.mw.negA)

def State.rawB (s : State) (h : Shape) (t : TReg) : List Nat :=
  ((s.tile t).elems h).map (h.fmt.signSteps s.mw.absB s.mw.negB)

/-- The values of raw elements of a register. -/
def Tile.values (t : Tile) (f : Fmt) (raws : List Nat) : List Val :=
  (List.range raws.length).map fun e => t.valueOf f e (raws.getD e 0)

def State.valsA (s : State) (h : Shape) (t : TReg) : List Val := (s.tile t).values h.fmt (s.rawA h t)
def State.valsB (s : State) (h : Shape) (t : TReg) : List Val := (s.tile t).values h.fmt (s.rawB h t)
def State.vals (s : State) (h : Shape) (t : TReg) : List Val :=
  (s.tile t).values h.fmt ((s.tile t).elems h)

/-- An element as an integer; under sat its sign is the named type's (R91, log 37). -/
def intElem (f : Fmt) (sat x : Nat) : Int :=
  let sg := if sat = 0 then f.isSigned else satSigned sat
  if sg && decide (2 ^ (f.width - 1) ≤ x) then (x : Int) - 2 ^ f.width else x

def State.ints (s : State) (h : Shape) (t : TReg) : List Int :=
  ((s.tile t).elems h).map (intElem h.fmt s.mw.sat.toNat)

/-! ### Element-wise instructions (R125) -/

/-- An element-wise arithmetic instruction on two sources. -/
def tileArith (s : State) (td ta tb : TReg) (fop : Nat → Val → Val → Val) (iop : Int → Int → Int) :
    Res :=
  tileSteps s anyFmt s.usualMods [ta, tb] [td] fun s h =>
    let ps := s.elementPoison h [ta, tb]
    if h.fmt.isFloat then
      floatTile s [ta, tb] td h (List.zipWith (fop s.mw.rm.toNat) (s.valsA h ta) (s.valsB h tb)) ps
    else intTile s [ta, tb] td h (List.zipWith iop (s.ints h ta) (s.ints h tb)) ps

def execTadd (g : Guard) (td ta tb : TReg) (s : State) : Out :=
  run (.tadd g td ta tb) g s fun s => tileArith s td ta tb (fun rm x y => x.add rm y) (· + ·)

def execTsub (g : Guard) (td ta tb : TReg) (s : State) : Out :=
  run (.tsub g td ta tb) g s fun s => tileArith s td ta tb (fun rm x y => x.add rm y.neg) (· - ·)

def execTmul (g : Guard) (td ta tb : TReg) (s : State) : Out :=
  run (.tmul g td ta tb) g s fun s => tileArith s td ta tb (fun _ x y => x.mul y) (· * ·)

/-- Integer division (R90). -/
def intDiv (x y : Int) : Int := if y = 0 then -1 else x.tdiv y

def execTdiv (g : Guard) (td ta tb : TReg) (s : State) : Out :=
  run (.tdiv g td ta tb) g s fun s => tileArith s td ta tb (fun _ x y => x.div y) intDiv

/-- TFMA: td is a source (R125). -/
def execTfma (g : Guard) (td ta tb : TReg) (s : State) : Out :=
  run (.tfma g td ta tb) g s fun s =>
    tileSteps s anyFmt s.usualMods [ta, tb, td] [td] fun s h =>
      let ps := s.elementPoison h [ta, tb, td]
      if h.fmt.isFloat then
        let prods := List.zipWith Val.mul (s.valsA h ta) (s.valsB h tb)
        floatTile s [ta, tb, td] td h (List.zipWith (Val.add s.mw.rm.toNat) prods (s.vals h td)) ps
      else
        let prods := List.zipWith (· * ·) (s.ints h ta) (s.ints h tb)
        intTile s [ta, tb, td] td h (List.zipWith (· + ·) prods (s.ints h td)) ps

/-- The lesser or greater of two values (R101). -/
def pickVal (least : Bool) (x y : Val) : Val :=
  match x.order y with
  | some .lt => if least then x else y
  | some .gt => if least then y else x
  | some .eq =>
    let neg := match x with
      | .fin s _ _ => s
      | _ => false
    if neg == least then x else y
  | none => if x = .nan then y else x

/-- TMIN and TMAX: operand bits unchanged, or blocks of a narrow format (R125). -/
def tilePick (s : State) (td ta tb : TReg) (least : Bool) : Res :=
  tileSteps s anyFmt s.usualMods [ta, tb] [td] fun s h =>
    let ps := s.elementPoison h [ta, tb]
    let f := h.fmt
    if isNarrow f then
      floatTile s [ta, tb] td h (List.zipWith (pickVal least) (s.valsA h ta) (s.valsB h tb)) ps
    else if f.isFloat then
      tileDone s [ta, tb] td h (List.zipWith (pickFloat f least) (s.rawA h ta) (s.rawB h tb)) ps []
    else
      let pick := fun (x y : Int) => if decide (x < y) == least then x else y
      intTile s [ta, tb] td h (List.zipWith pick (s.ints h ta) (s.ints h tb)) ps

def execTmin (g : Guard) (td ta tb : TReg) (s : State) : Out :=
  run (.tmin g td ta tb) g s fun s => tilePick s td ta tb true

def execTmax (g : Guard) (td ta tb : TReg) (s : State) : Out :=
  run (.tmax g td ta tb) g s fun s => tilePick s td ta tb false

/-- One of two lists' elements by a third list. -/
def chooseBy {α : Type} : List Bool → List α → List α → List α
  | b :: bs, x :: xs, y :: ys => (if b then x else y) :: chooseBy bs xs ys
  | _, _, _ => []

def execTsel (g : Guard) (td ta tb : TReg) (s : State) : Out :=
  run (.tsel g td ta tb) g s fun s =>
    tileSteps s anyFmt s.usualMods [ta, tb, td] [td] fun s h =>
      let ps := s.elementPoison h [ta, tb, td]
      let cs := ((s.tile td).elems h).map (· != 0)
      if isNarrow h.fmt then
        floatTile s [ta, tb, td] td h (chooseBy cs (s.vals h ta) (s.vals h tb)) ps
      else
        tileDone s [ta, tb, td] td h (chooseBy cs ((s.tile ta).elems h) ((s.tile tb).elems h)) ps []

/-- TAND, TOR and TXOR: raw bits, with the scale bytes of ta (R114). -/
def tileLogic (s : State) (td ta tb : TReg) (op : Nat → Nat → Nat) : Res :=
  tileSteps s anyFmt s.usualMods [ta, tb] [td] fun s h =>
    let raws := List.zipWith op ((s.tile ta).elems h) ((s.tile tb).elems h)
    tileDone s [ta, tb] td h raws (s.elementPoison h [ta, tb]) (s.tile ta).scales

def execTand (g : Guard) (td ta tb : TReg) (s : State) : Out :=
  run (.tand g td ta tb) g s fun s => tileLogic s td ta tb (· &&& ·)

def execTor (g : Guard) (td ta tb : TReg) (s : State) : Out :=
  run (.tor g td ta tb) g s fun s => tileLogic s td ta tb (· ||| ·)

def execTxor (g : Guard) (td ta tb : TReg) (s : State) : Out :=
  run (.txor g td ta tb) g s fun s => tileLogic s td ta tb (· ^^^ ·)

/-- TSHL and TSHR: integer formats, the amount modulo the width (R125). -/
def tileShift (s : State) (td ta tb : TReg) (op : Int → Nat → Int) : Res :=
  tileSteps s (fun f => !f.isFloat) s.usualMods [ta, tb] [td] fun s h =>
    let amounts := ((s.tile tb).elems h).map (· % h.width)
    intTile s [ta, tb] td h (List.zipWith op (s.ints h ta) amounts) (s.elementPoison h [ta, tb])

def execTshl (g : Guard) (td ta tb : TReg) (s : State) : Out :=
  run (.tshl g td ta tb) g s fun s => tileShift s td ta tb fun x n => x * 2 ^ n

def execTshr (g : Guard) (td ta tb : TReg) (s : State) : Out :=
  run (.tshr g td ta tb) g s fun s => tileShift s td ta tb fun x n => x / 2 ^ n

/-- TCMP: all bits of the element set where the comparison holds (R125). -/
def tileCmp (s : State) (td ta tb : TReg) (cc : FCond) : Res :=
  tileSteps s anyFmt s.usualMods [ta, tb] [td] fun s h =>
    let ones := 2 ^ h.width - 1
    let out := fun (b : Bool) => if b then ones else 0
    let raws := if h.fmt.isFloat then
        List.zipWith (fun x y => out (fcondHolds cc (Val.order x y))) (s.valsA h ta) (s.valsB h tb)
      else
        List.zipWith (fun x y => out (fcondHolds cc (some (Ord.compare x y)))) (s.ints h ta)
          (s.ints h tb)
    tileDone s [ta, tb] td h raws (s.elementPoison h [ta, tb]) []

def execTcmpEq (g : Guard) (td ta tb : TReg) (s : State) : Out :=
  run (.tcmpEq g td ta tb) g s fun s => tileCmp s td ta tb .eq

def execTcmpNe (g : Guard) (td ta tb : TReg) (s : State) : Out :=
  run (.tcmpNe g td ta tb) g s fun s => tileCmp s td ta tb .ne

def execTcmpLt (g : Guard) (td ta tb : TReg) (s : State) : Out :=
  run (.tcmpLt g td ta tb) g s fun s => tileCmp s td ta tb .lt

def execTcmpLe (g : Guard) (td ta tb : TReg) (s : State) : Out :=
  run (.tcmpLe g td ta tb) g s fun s => tileCmp s td ta tb .le

/-! ### Conversion (R126) -/

/-- Modifier groups TCVT accepts from `f` to `tgt` (R50). -/
def cvtAccepts (m : MW) (tgt f : Fmt) : Bool :=
  let any := f.isFloat || tgt.isFloat
  (any || (m.rm == 0 && m.scale == 0)) && (tgt.isFloat || !m.clamp) && (!tgt.isFloat || m.sat == 0)

def execTcvt (g : Guard) (tgt : Fmt) (td ta : TReg) (s : State) : Out :=
  run (.tcvt g tgt td ta) g s fun s =>
    tileSteps s anyFmt (cvtAccepts s.mw tgt) [ta] [td] fun s h =>
      if 8192 < h.size * tgt.width then .operand s s.me.shape
      else
        let m := s.mw
        let rm := m.rm.toNat
        let k : Shape := { h with fmt := tgt }
        let vs := (s.vals h ta).map (Val.scale m.scale.toInt)
        let ps := s.elementPoison h [ta]
        if tgt.isFloat then
          let (raws, scales) := s.formTile tgt rm m.clamp vs
          tileDone (s.drew rm h.size) [ta] td k raws ps scales
        else
          let conv := fun e => convert (vs.getD e .nan) (!h.fmt.isFloat) tgt rm m.clamp m.sat.toNat
            (s.draw e)
          let s := if h.fmt.isFloat then s.drew rm h.size else s
          tileDone s [ta] td k ((List.range h.size).map conv) ps []

/-! ### Correctly rounded functions (R127) -/

/-- A function of one float source, rounded once. -/
def tileFunction (s : State) (td ta : TReg) (fn : Val → Val) : Res :=
  tileSteps s Fmt.isFloat s.usualMods [ta] [td] fun s h =>
    floatTile s [ta] td h ((s.vals h ta).map fn) (s.elementPoison h [ta])

def execTexp2 (g : Guard) (td ta : TReg) (s : State) : Out :=
  run (.texp2 g td ta) g s fun s => tileFunction s td ta Val.exp2

def execTlog2 (g : Guard) (td ta : TReg) (s : State) : Out :=
  run (.tlog2 g td ta) g s fun s => tileFunction s td ta Val.log2

def execTrcp (g : Guard) (td ta : TReg) (s : State) : Out :=
  run (.trcp g td ta) g s fun s => tileFunction s td ta (Val.div (.fin false 1 0))

def execTrsq (g : Guard) (td ta : TReg) (s : State) : Out :=
  run (.trsq g td ta) g s fun s => tileFunction s td ta Val.rsq

def execTsqrt (g : Guard) (td ta : TReg) (s : State) : Out :=
  run (.tsqrt g td ta) g s fun s => tileFunction s td ta Val.sqrt

def execTtanh (g : Guard) (td ta : TReg) (s : State) : Out :=
  run (.ttanh g td ta) g s fun s => tileFunction s td ta Val.tanh

/-! ### Reductions and scans (R86, R128) -/

/-- Row i of a list of elements. -/
def rowOf {α : Type} (h : Shape) (l : List α) (i : Nat) : List α := (l.drop (i * h.cols)).take h.cols

/-- The exact sum of values as R86 forms it, ready to be rounded in mode rm. -/
def sumVals (f : Fmt) (rm : Nat) (vs : List Val) : Val :=
  if f = .f64 then x192Out (vs.foldl addX192 0) rm else l640Val (vs.foldl addL640 0) rm

/-- The non-empty beginnings of a list, shortest first. -/
def prefixes {α : Type} (l : List α) : List (List α) :=
  (List.range l.length).map fun j => l.take (j + 1)

/-- A sum over pieces of the rows, each piece giving one result. -/
def tileSum (s : State) (td ta : TReg) (pieces : {α : Type} → Shape → List α → List (List α))
    (cols : Shape → Nat) : Res :=
  tileSteps s anyFmt s.usualMods [ta] [td] fun s h =>
    let k : Shape := { h with cols := cols h }
    let ps := (pieces h ((s.tile ta).poisons h)).map fun l => l.any id
    if h.fmt.isFloat then
      floatTile s [ta] td k ((pieces h (s.vals h ta)).map (sumVals h.fmt s.mw.rm.toNat)) ps
    else
      intTile s [ta] td k ((pieces h (s.ints h ta)).map fun l => l.foldl (· + ·) 0) ps

def rowsOf {α : Type} (h : Shape) (l : List α) : List (List α) :=
  (List.range h.rows).map (rowOf h l)

def scansOf {α : Type} (h : Shape) (l : List α) : List (List α) :=
  (List.range h.rows).flatMap fun i => prefixes (rowOf h l i)

def execTredAdd (g : Guard) (td ta : TReg) (s : State) : Out :=
  run (.tredAdd g td ta) g s fun s => tileSum s td ta (fun h l => rowsOf h l) (fun _ => 1)

def execTscanAdd (g : Guard) (td ta : TReg) (s : State) : Out :=
  run (.tscanAdd g td ta) g s fun s => tileSum s td ta (fun h l => scansOf h l) (·.cols)

/-- A non-empty list folded from its first element. -/
def foldRow {α : Type} (op : α → α → α) (d : α) : List α → α
  | [] => d
  | x :: r => r.foldl op x

/-- TRED.min and TRED.max (R128): a NaN result is canonical (R69), also that of a row of one column. -/
def tileExtreme (s : State) (td ta : TReg) (least : Bool) : Res :=
  tileSteps s (fun f => !isNarrow f) s.usualMods [ta] [td] fun s h =>
    let k : Shape := { h with cols := 1 }
    let ps := (rowsOf h ((s.tile ta).poisons h)).map fun l => l.any id
    if h.fmt.isFloat then
      let rows := rowsOf h ((s.tile ta).elems h)
      let out := fun (x : Nat) => if h.fmt.value x = .nan then h.fmt.nanBits else x
      tileDone s [ta] td k (rows.map fun l => out (foldRow (pickFloat h.fmt least) 0 l)) ps []
    else
      let pick := fun (x y : Int) => if decide (x < y) == least then x else y
      intTile s [ta] td k ((rowsOf h (s.ints h ta)).map (foldRow pick 0)) ps

def execTredMin (g : Guard) (td ta : TReg) (s : State) : Out :=
  run (.tredMin g td ta) g s fun s => tileExtreme s td ta true

def execTredMax (g : Guard) (td ta : TReg) (s : State) : Out :=
  run (.tredMax g td ta) g s fun s => tileExtreme s td ta false

/-! ### Selection and transpose (R129, R130) -/

/-- Whether x ranks strictly above y: NaNs below everything. -/
def ranksAbove (x y : Val) : Bool :=
  match x.order y with
  | some o => o == .gt
  | none => x != .nan

/-- An entry placed into a descending list, after the entries equal to it. -/
def rankIn (x : Val × Nat × Nat) : List (Val × Nat × Nat) → List (Val × Nat × Nat)
  | [] => [x]
  | y :: r => if ranksAbove x.1 y.1 then x :: y :: r else y :: rankIn x r

/-- The k greatest entries of a row: raw element and column, in descending order. -/
def topOf (vs : List Val) (raws : List Nat) (k : Nat) : List (Nat × Nat) :=
  let es := (List.range raws.length).map fun j => (vs.getD j .nan, raws.getD j 0, j)
  ((es.foldl (fun l x => rankIn x l) []).take k).map (·.2)

def execTtopk (g : Guard) (td ta : TReg) (k1 : BitVec 6) (s : State) : Out :=
  run (.ttopk g td ta k1) g s fun s =>
    let k := k1.toNat + 1
    let te := td + 1
    tileSteps s anyFmt s.usualMods [ta] [td, te] fun s h =>
      if isNarrow h.fmt ∨ h.cols < k ∨ 8192 < h.rows * k * h.width ∨ 8192 < h.rows * k * 16 then
        .operand s s.me.shape
      else
        let raws := (s.tile ta).elems h
        let vs := s.vals h ta
        let tops := (List.range h.rows).flatMap fun i => topOf (rowOf h vs i) (rowOf h raws i) k
        let ps := (rowsOf h ((s.tile ta).poisons h)).flatMap fun l => List.replicate k (l.any id)
        let keys : Shape := { h with cols := k }
        let idx : Shape := { h with cols := k, fmt := .n16 }
        let s := (s.emptySources [ta]).writeTile td keys (tops.map (·.1)) ps []
        .done (s.writeTile te idx (tops.map (·.2)) ps [])

def execTxpose (g : Guard) (td ta : TReg) (s : State) : Out :=
  run (.txpose g td ta) g s fun s =>
    tileSteps s anyFmt s.usualMods [ta] [td] fun s h =>
      if 32 < h.cols then .operand s s.me.shape
      else
        let k : Shape := ⟨h.cols, h.rows, h.fmt⟩
        let order := (List.range h.cols).flatMap fun j => (List.range h.rows).map fun i => i * h.cols + j
        let ps := (s.tile ta).poisons h
        let qs := order.map fun e => ps.getD e false
        if isNarrow h.fmt then
          let vs := s.vals h ta
          let (raws, scales) := s.formTile h.fmt 0 true (order.map fun e => vs.getD e .nan)
          tileDone s [ta] td k raws qs scales
        else
          let xs := (s.tile ta).elems h
          tileDone s [ta] td k (order.map fun e => xs.getD e 0) qs []

/-! ### Moves, fills and single elements (R123, R124) -/

/-- TMOV: the register whole; sr.shape is not consulted. -/
def execTmov (g : Guard) (td ta : TReg) (s : State) : Out :=
  run (.tmov g td ta) g s fun s =>
    chainGate s [ta] [td] fun s =>
      let x := s.tile ta
      let s := s.emptySources [ta]
      let e := ((s.tile td).entry &&& 0x8000000000000000) ||| 0x4000000000000000 |||
        (x.entry &&& 0xFFFFFF)
      .done ((s.noteWrite td s.nextId true).setTile td { x with entry := e })

def execTsplat (g : Guard) (t : TReg) (a : Reg) (s : State) : Out :=
  run (.tsplat g t a) g s fun s =>
    tileSteps s anyFmt s.usualMods [] [t] fun s h =>
      tileDone s [] t h (List.replicate h.size (s.gv a).toNat) (List.replicate h.size (s.gp a)) []

def execTiota (g : Guard) (td : TReg) (s : State) : Out :=
  run (.tiota g td) g s fun s =>
    tileSteps s anyFmt s.usualMods [] [td] fun s h =>
      let ps := List.replicate h.size false
      if h.fmt.isFloat then
        let vs := (List.range h.size).map fun e => Val.fin false e 0
        let (raws, scales) := s.formTile h.fmt 0 true vs
        tileDone s [] td h raws ps scales
      else tileDone s [] td h (List.range h.size) ps []

/-- An element of TRAND from its draw. -/
def randElem (f : Fmt) (d : Word) : Nat :=
  if f.isFloat then f.round 0 false 0 (.fin false (d.toNat / 2 ^ (64 - f.prec)) (-f.prec))
  else d.toNat / 2 ^ (64 - f.width)

def execTrand (g : Guard) (td : TReg) (s : State) : Out :=
  run (.trand g td) g s fun s =>
    tileSteps s (fun f => !isNarrow f) s.usualMods [] [td] fun s h =>
      let raws := (List.range h.size).map fun e => randElem h.fmt (s.draw e)
      tileDone (s.drew 5 h.size) [] td h raws (List.replicate h.size false) []

/-- The tests of TMOVG's index word (R124): what it selects, and the index. -/
def moveIndex (h : Shape) (x : Word) : Option (Nat × Nat) :=
  let sel := bits x 17 16
  let e := bits x 15 0
  if bits x 63 18 ≠ 0 ∨ sel = 3 then none
  else if sel = 0 then (if e < h.size then some (0, e) else none)
  else if sel = 1 then (if e < 8 then some (1, e) else none)
  else if e = 0 then some (2, 0) else none

/-- The recorded shape of a register. -/
def Tile.shape (t : Tile) : Option Shape := shapeOf (t.entry &&& 0xFFFFFF)

def execTmovgRead (g : Guard) (t : TReg) (a b : Reg) (s : State) : Out :=
  run (.tmovgRead g t a b) g s fun s =>
    consume s [b] fun s =>
    let x := s.tile t
    match x.shape with
    | none => .operand s (s.gv b)
    | some h =>
      match moveIndex h (s.gv b) with
      | none => .operand s (s.gv b)
      | some (0, e) =>
        let v := h.fmt.widen (elemAt x.data h.width e)
        s.result a (BitVec.ofNat 64 v) (x.pois.getLsbD (stripOf h.width e))
      | some (1, e) => s.result a (leWord ((x.scales.drop (8 * e)).take 8)) false
      | some _ => s.result a x.entry false

/-- An entry TMOVG may write (R112, R124). -/
def entryGood (v : Word) : Bool := decide (bits v 61 24 = 0) && shapeOk (v &&& 0xFFFFFF)

/-- A write of TMOVG (R124): the index word is tested before the poison of g[a] (log 65). -/
def execTmovgWrite (g : Guard) (t : TReg) (a b : Reg) (s : State) : Out :=
  run (.tmovgWrite g t a b) g s fun s =>
    consume s [b] fun s =>
    let x := s.tile t
    let v := s.gv a
    match x.shape with
    | none => .operand s (s.gv b)
    | some h =>
      match moveIndex h (s.gv b) with
      | none => .operand s (s.gv b)
      | some (0, e) => .done (s.moveTile t (.elem h.width e v.toNat (s.gp a)))
      | some (1, e) => consume s [a] fun s => .done (s.moveTile t (.scale e v))
      | some _ =>
        consume s [a] fun s =>
        if entryGood v then .done (s.moveTile t (.entry v)) else .operand s v

end Sys2Proof.Machine
end

