-- ==== Sys2Proof/Machine/TileMem.lean ====
section
/-! DEFINITION. The tile instructions that reach memory: TLD, TST, TLDI and TSTI (R121, R122), with
the posting and sending of their entries (R227, R251, R391). -/

namespace Sys2Proof.Machine

/-- A run of bytes an instruction reads or writes: its offset in the tile, its address and its
length; `bad` for an element whose index is poisoned. -/
structure Run where
  off : Nat
  ea : Word
  n : Nat
  bad : Bool := false
  deriving DecidableEq, Repr

/-- Bytes of an element; a byte of two f4 elements. -/
def Shape.unit (h : Shape) : Nat := max 1 (h.width / 8)

/-- Bytes of a row. -/
def Shape.rowBytes (h : Shape) : Nat := h.cols * h.width / 8

/-- The rows of TLD and TST (R121). -/
def rowRuns (h : Shape) (base stride : Word) : List Run :=
  (List.range h.rows).map fun i =>
    { off := i * h.rowBytes, ea := base + BitVec.ofNat 64 i * stride, n := h.rowBytes }

/-- The elements of TLDI and TSTI (R122). -/
def indexRuns (h : Shape) (base : Word) (idx : List Int) (bads : List Bool) : List Run :=
  let u := h.unit
  (List.range h.size).map fun e =>
    { off := e * u, ea := base + BitVec.ofInt 64 (idx.getD e 0 * u), n := u, bad := bads.getD e false }

/-- A run cut at the 128-byte sectors. -/
def Run.pieces (r : Run) : List Run :=
  (sectors r.ea.toNat r.n).map fun x =>
    { off := r.off + x.1, ea := r.ea + BitVec.ofNat 64 x.1, n := x.2 }

/-- A run cut into units. -/
def Run.units (r : Run) (u : Nat) : List Run :=
  (List.range (r.n / u)).map fun i =>
    { off := r.off + i * u, ea := r.ea + BitVec.ofNat 64 (i * u), n := u }

/-! ### Checks (R107, R118 step 6) -/

/-- The page rules of every piece of a run. -/
def checkPieces (s : State) (kind : Kind) (fs : List Nat) (k : State → Res) : List Run → Res
  | [] => k s
  | p :: r => (s.pageRules p.ea kind fs).andThen s fun s => checkPieces s kind fs k r

/-- Every run checked in order: a poisoned index, the address checks, data that must not be poisoned
in the global space, the page rules. -/
def checkRuns (s : State) (u : Nat) (need : Need) (kind : Kind) (fs : List Nat) (ti t : TReg)
    (dirty : Bool) (k : State → Res) : List Run → Res
  | [] => k s
  | x :: r =>
    if x.bad then .contain s (ti.setWidth 64)
    else (s.checkAccess x.ea x.n u need).andThen s fun s =>
    if dirty && regionClass x.ea == 0 then .contain s (t.setWidth 64)
    else checkPieces s kind fs (fun s => checkRuns s u need kind fs ti t dirty k r) x.pieces

/-- The strided forms' own checks: an odd row of f4, poisoned or misaligned operands, g[a] before g[b]
(R121; log 57). -/
def stridedRuns (s : State) (h : Shape) (a b : Reg) (k : State → List Run → Res) : Res :=
  let u := h.unit
  if h.fmt = .f4 ∧ h.cols % 2 = 1 then .operand s s.me.shape
  else consume s [a, b] fun s =>
  if (s.gv a).toNat % u ≠ 0 then .misalign s (s.gv a)
  else if (s.gv b).toNat % u ≠ 0 then .misalign s (s.gv b)
  else k s (rowRuns h (s.gv a) (s.gv b))

/-- The index tile's shape (R122): rows and cols of sr.shape, an integer format. -/
def indexShape (h : Shape) (x : Tile) : Option Shape :=
  match x.shape with
  | some k => if k.rows = h.rows ∧ k.cols = h.cols ∧ !k.fmt.isFloat then some k else none
  | none => none

/-- The index tile: as it was at the issue of an instruction in flight, or as it stands. -/
def State.indexTile (s : State) (ti : TReg) : Tile :=
  match s.answer (keepAt + 3), s.answer (keepAt + 4) with
  | some (.data bs ps), some (.word e _) =>
    let pois := (List.range 32).foldl (fun m q => if ps.getD q false then m + 2 ^ q else m) 0
    { data := BitVec.ofNat 8192 (leNat bs), pois := BitVec.ofNat 32 pois, scales := [], entry := e }
  | _, _ => s.tile ti

/-- What an instruction in flight keeps of its index tile. -/
def State.keepIndex (s : State) (ti : TReg) : List (Nat × Answer) :=
  let x := s.indexTile ti
  [(keepAt + 3, .data (leBytes 1024 x.data.toNat) ((List.range 32).map x.pois.getLsbD)),
    (keepAt + 4, .word x.entry false)]

/-- The indexed forms' own checks (R122). -/
def indexedRuns (s : State) (h : Shape) (ti : TReg) (a : Reg) (k : State → List Run → Res) : Res :=
  let x := s.indexTile ti
  match indexShape h x with
  | none => .operand s (ti.setWidth 64)
  | some ks =>
    consume s [a] fun s =>
    if (s.gv a).toNat % h.unit ≠ 0 then .misalign s (s.gv a)
    else
      let idx := (x.elems ks).map (intElem ks.fmt 0)
      k s (indexRuns h (s.gv a) idx (x.poisons ks))

/-- Steps 2 and 3 of R118 for the indexed forms, whose index tile has a rule of its own. -/
def indexedSteps (s : State) (srcs dests : List TReg) (k : State → Shape → Res) : Res :=
  match shapeOf s.me.shape with
  | none => .operand s s.me.shape
  | some h =>
    if h.fmt = .f4 ∨ !s.usualMods h.fmt then .operand s s.me.shape
    else chainGate s srcs dests fun s => k s h

/-! ### Claims of an instruction in flight (R117) -/

/-- The sources are emptied and remembered, and the destinations in use: claimed, where they are chain
registers. -/
def State.claimTiles (s : State) (srcs dests : List TReg) : State :=
  let s1 := s.emptySources srcs
  let c := s1.myCore
  let read := (srcs.filter fun t => (s.tile t).chain).map fun t =>
    (⟨t.toNat, s.issue.slot, false, true⟩ : Claim)
  let write := dests.map fun t => (⟨t.toNat, s.issue.slot, true, (s.tile t).chain⟩ : Claim)
  s1.setMyCore { c with claims := c.claims ++ read ++ write }

/-- The claims of an instruction as it issues; one that waits for the second time has made them. -/
def State.claimOnce (s : State) (srcs dests : List TReg) : State :=
  if s.passed then s else s.claimTiles srcs dests

/-- The leaves that an instruction has been checked with are kept while it waits (R109): its accesses use
them, whatever the translation cache drops. -/
def State.pin (s : State) (runs : List Run) : State := s.keepLeaves (runs.filterMap fun r => s.pinned r.ea)

/-- The chain sources emptied as the instruction issues, unless it has issued already. -/
def State.emptyOnce (s : State) (srcs : List TReg) : State :=
  if s.passed then s else s.emptySources srcs

/-- The instruction has read or written its tiles: its claims end. -/
def State.endClaims (s : State) : State :=
  let c := s.myCore
  s.setMyCore { c with claims := c.claims.filter fun x => x.slot != s.issue.slot }

/-- The instruction traps after its issue: its claims are undone. -/
def State.undoClaims (s : State) : State := s.setMyCore (s.myCore.unclaim s.issue.slot)

/-! ### TLD and TLDI -/

/-- The runs an instruction reads apart: elements, but whole sectors of another module. -/
def readRuns (s : State) (u : Nat) (r : Run) : List Run :=
  r.pieces.flatMap fun p => match s.spot p.ea with
    | some (.glob _ pa) => if paModule pa = s.modNo.toNat then p.units u else [p]
    | _ => p.units u

/-- The run lies in the issuing strand's own scratchpad: its offset there. -/
def State.ownOff (s : State) (ea : Word) : Option Nat :=
  match s.spot ea with
  | some (.spad c o) => if c = s.issue.core then some o else none
  | _ => none

/-- The run touches a sector where the strand has an earlier store not accepted (R228). -/
def State.runWaits (s : State) (r : Run) : Bool :=
  match s.spot r.ea with
  | some x =>
    let (place, addr, _, _) := s.target x
    (s.ownOff r.ea).isNone && s.ownSector place addr r.n
  | none => false

/-- One run read at once, or asked for. -/
def readRun (x : State × List (Nat × Answer)) (r : Run) : State × List (Nat × Answer) :=
  let (s, got) := x
  let core := s.issue.core
  match s.ownOff r.ea with
  | some o =>
    let ws := wordsOf o r.n
    let s := s.checkTags core ws
    if s.tagsAllow core ws true s.nextId then
      let (bs, ps, s) := s.readSpad core o r.n
      (s, got ++ [(r.off, .data bs ps)])
    else
      let n := s.nextId
      let s := s.ask r.off .load (.spad core) o 0 r.ea r.n false
      let since := fun (q : Req) => if q.id = n then { q with since := n } else q
      ({ s with reqs := s.reqs.map since }, got)
  | none =>
    match s.spot r.ea with
    | some y =>
      let (place, addr, pa, ver) := s.target y
      ((s.useTlb r.ea).ask r.off .load place addr pa r.ea r.n ver, got)
    | none => (s, got)

/-- The data of a tile from the bytes its runs brought. -/
def gatherData (got : List (Nat × Answer)) : Nat :=
  got.foldl (fun n x => match x.2 with
    | .data bs _ => n + leNat bs * 2 ^ (8 * x.1)
    | _ => n) 0

/-- Strip poison from the runs' poison: `addr` gives the address of an offset of the tile. -/
def gatherPoison (addr : Nat → Nat) (got : List (Nat × Answer)) : BitVec 32 :=
  got.foldl (fun (m : BitVec 32) x => match x.2 with
    | .data bs ps => (List.range bs.length).foldl (fun (m : BitVec 32) j =>
        if ps.getD ((addr x.1 % 8 + j) / 8) false then m ||| BitVec.ofNat 32 (2 ^ ((x.1 + j) / 32))
        else m) m
    | _ => m) 0

/-- The address a run list gives to an offset of the tile. -/
def addrOf (runs : List Run) (off : Nat) : Nat :=
  match runs.find? fun r => decide (r.off ≤ off ∧ off < r.off + r.n) with
  | some r => r.ea.toNat + (off - r.off)
  | none => 0

/-- The whole write of a load, once every run has been read (R113, R121). A write of an instruction that
issued later, fallen due in the same cycle, stands (R116). -/
def loadDone (s : State) (t : TReg) (h : Shape) (runs : List Run) (got : List (Nat × Answer)) : Res :=
  let x := s.tile t
  let e := (x.entry &&& 0x8000000000000000) ||| 0x4000000000000000 ||| BitVec.ofNat 64 h.word
  let y : Tile :=
    { data := BitVec.ofNat 8192 (gatherData got), pois := gatherPoison (addrOf runs) got,
      scales := if isNarrow h.fmt then padScales [] else x.scales, entry := e }
  if s.outWritten t s.issueOrder then .done (s.writeUnder t h.fmt y s.issueOrder).endClaims
  else .done ((s.noteWrite t s.issueOrder (isNarrow h.fmt)).setTile t y).endClaims

/-- The issue of a load: what can be read at once is, the rest is asked for. A run that touches a sector
of an earlier store waits for it, with `extra` kept (R228). -/
def loadIssue (s : State) (t : TReg) (srcs : List TReg) (h : Shape) (extra : List (Nat × Answer))
    (runs : List Run) : Res :=
  let parts := runs.flatMap (readRuns s h.unit)
  let kept : Nat × Answer := (keepAt, .note s.issueOrder)
  if parts.any s.runWaits then .hold ((s.pin parts).claimOnce srcs [t]) .drain (kept :: extra)
  else match parts.find? fun r => (s.spot r.ea).isNone with
  | some r =>
    .hold (((s.claimOnce srcs [t]).startWalk (granuleOf r.ea) true)) (.walk (granuleOf r.ea))
      (kept :: extra)
  | none =>
    let (u, got) := parts.foldl readRun (s, [])
    if got.length = parts.length then loadDone (u.emptyOnce srcs) t h runs got
    else .await (u.claimOnce srcs [t]) (parts.length - got.length) (kept :: got)

/-- The answers of a load have come. -/
def loadAnswered (s : State) (t : TReg) (h : Shape) (runs : List Run) : Res :=
  match s.got.findSome? fun x => match x.2 with
    | .trap cause code v => some (cause, code, v)
    | _ => none with
  | some (cause, code, v) => .trap s.undoClaims cause code v
  | none => loadDone s t h runs s.got

/-- What the issuing strand's instruction waited for when it was held. -/
def State.heldOn (s : State) : Option WaitOn := s.me.flight.map (·.on)

/-- A load that has issued goes on: with its answers, or after the stores it waited for. -/
def loadOn (s : State) (t : TReg) (srcs : List TReg) (h : Shape) (extra : List (Nat × Answer))
    (runs : List Run) : Res :=
  if s.heldOn = some .answers then loadAnswered s t h runs else loadIssue s t srcs h extra runs

def execTld (g : Guard) (t : TReg) (a b : Reg) (s : State) : Out :=
  run (.tld g t a b) g s fun s =>
    match shapeOf s.me.shape, s.passed with
    | some h, true => loadOn s t [] h [] (rowRuns h (s.gv a) (s.gv b))
    | _, _ =>
      tileSteps s anyFmt s.usualMods [] [t] fun s h =>
      stridedRuns s h a b fun s runs =>
      checkRuns s h.unit .read .load [] 0 t false (fun s => loadIssue s t [] h [] runs) runs

/-- The runs of an indexed form that has issued, by the index tile that it keeps. -/
def State.keptRuns (s : State) (h : Shape) (ti : TReg) (a : Reg) : List Run :=
  let x := s.indexTile ti
  match indexShape h x with
  | none => []
  | some ks => indexRuns h (s.gv a) ((x.elems ks).map (intElem ks.fmt 0)) (x.poisons ks)

def execTldi (g : Guard) (t ti : TReg) (a : Reg) (s : State) : Out :=
  run (.tldi g t ti a) g s fun s =>
    match shapeOf s.me.shape, s.passed with
    | some h, true => loadOn s t [ti] h (s.keepIndex ti) (s.keptRuns h ti a)
    | _, _ =>
      indexedSteps s [ti] [t] fun s h =>
      indexedRuns s h ti a fun s runs =>
      checkRuns s h.unit .read .load [] ti t false
        (fun s => loadIssue s t [ti] h (s.keepIndex ti) runs) runs

/-! ### TST and TSTI -/

/-- What a store takes from its tile at issue: bytes, and the poison of each byte's strip. -/
structure Cargo where
  data : BitVec 8192
  pois : BitVec 32
  deriving DecidableEq, Repr

def Cargo.bytes (c : Cargo) (off n : Nat) : List Byte := leBytes n (c.data.toNat / 2 ^ (8 * off))

/-- The poison of each 8-byte word a run touches (R108, R121). -/
def Cargo.poison (c : Cargo) (r : Run) : List Bool :=
  let o := r.ea.toNat % 8
  (wordsOf o r.n).map fun w => (List.range r.n).any fun j =>
    (o + j) / 8 == w && c.pois.getLsbD ((r.off + j) / 32)

/-- The used area has a poisoned strip (R121). -/
def Cargo.dirty (c : Cargo) (h : Shape) : Bool :=
  (List.range 32).any fun q => decide (q * 256 < h.size * h.width) && c.pois.getLsbD q

/-- The contents a store sends: those taken at its issue, or the register's (R116). -/
def State.cargo (s : State) (t : TReg) : Cargo :=
  match s.answer (keepAt + 2) with
  | some (.data bs ps) =>
    ⟨BitVec.ofNat 8192 (leNat bs), BitVec.ofNat 32 ((List.range 32).foldl (fun m q =>
      if ps.getD q false then m + 2 ^ q else m) 0)⟩
  | _ => ⟨(s.tile t).data, (s.tile t).pois⟩

/-- Entries done, and the group of those posted: of a store in flight, or of one that waited for
allowance with entries posted (R391). -/
def State.progress (s : State) : Nat × Nat :=
  let t := s.me
  match s.answer (keepAt + 1), s.answer (keepAt + 5) with
  | some (.note n), some (.note grp) => (n, grp)
  | _, _ => match t.posted.find? fun x => x.1 == t.pc with
    | some (_, n, grp) => (n, grp)
    | none => (0, s.nextId)

/-- What a store keeps once it has issued. -/
def State.keepStore (s : State) (c : Cargo) (n grp : Nat) (extra : List (Nat × Answer)) :
    List (Nat × Answer) :=
  (keepAt, .note s.issueOrder) :: (keepAt + 1, .note n) :: (keepAt + 5, .note grp) ::
    (keepAt + 2, .data (leBytes 1024 c.data.toNat) ((List.range 32).map c.pois.getLsbD)) :: extra

/-- A store that has issued waits with `n` entries done (R109). -/
def storePause (s : State) (c : Cargo) (srcs : List TReg) (extra : List (Nat × Answer)) (on : WaitOn)
    (n grp : Nat) (runs : List Run) : Res :=
  .hold ((s.pin runs).claimOnce srcs []) on (s.keepStore c n grp extra)

/-- The entries posted are kept in mind, or forgotten. -/
def Strand.keepPosted (t : Strand) (n grp : Nat) : Strand :=
  let rest := t.posted.filter fun x => x.1 != t.pc
  { t with posted := if n = 0 then rest else (t.pc, n, grp) :: rest }

/-- A store waits for allowance with `n` entries posted: it has not issued, and issues afresh for the
entries that are left (R391; log 41). -/
def storeStop (s : State) (m n grp : Nat) : Res :=
  let s := s.undoClaims
  .hold (s.setMe (s.me.keepPosted n grp)) (.allowance m) []

/-- The module of a place that needs allowance. -/
def moduleOf : Place → Nat
  | .remote m => m
  | _ => 0

/-- The entries of a store from number `n` on: own-scratchpad runs are written at once, an entry of
a V page outside a transaction is sent and awaited, the others are posted as their bank and the
allowance have room. -/
def storeRuns (s : State) (c : Cargo) (srcs : List TReg) (extra : List (Nat × Answer)) (grp : Nat) :
    Nat → List Run → Res
  | _, [] => .done ((s.emptyOnce srcs).endClaims)
  | n, r :: rest =>
    let bs := c.bytes r.off r.n
    let ps := c.poison r
    match s.spot r.ea with
    | none => match s.checkAccess r.ea r.n 1 .write with
      | .trap cause code v => .trap s.undoClaims cause code v
      | .miss g => storePause (s.startWalk g true) c srcs extra (.walk g) n grp (r :: rest)
      | .ok => .address s.undoClaims r.ea
    | some (.spad k o) =>
      if k = s.issue.core then
        if s.oflag && s.postedOn (.spad k) then storePause s c srcs extra .drain n grp (r :: rest)
        else storeRuns (s.writeSpad k o bs ps) c srcs extra grp (n + 1) rest
      else if !s.bankRoom (bankOf (.spad k)) 1 then
        storePause s c srcs extra (.bank (bankOf (.spad k))) n grp (r :: rest)
      else
        let e := s.wbEntry (.spad k) .bytes o 0 r.ea bs ps false s.oflag grp
        storeRuns (s.post e) c srcs extra grp (n + 1) rest
    | some (.glob l pa) =>
      let place := s.placeOf pa
      let b := bankOf place
      if l.ver && txState s.me.tx == 0 then
        if s.behindBank place || (s.oflag && s.postedOn place) then storePause s c srcs extra .drain n grp (r :: rest)
        else if !s.allowed place then storeStop s (moduleOf place) n grp
        else
          let keep := s.keepStore c n grp extra
          let s := (s.pin (r :: rest)).claimOnce srcs []
          let s := (s.useTlb r.ea).ask 0 (.write .bytes bs) place (paOffset pa) pa r.ea r.n true
          .await s 1 keep
      else if !s.bankRoom b 1 then storePause s c srcs extra (.bank b) n grp (r :: rest)
      else if !s.allowed place then storeStop s (moduleOf place) n grp
      else
        let e := s.wbEntry place .bytes (paOffset pa) pa r.ea bs ps l.ver s.oflag grp
        storeRuns ((s.useTlb r.ea).post e) c srcs extra grp (n + 1) rest

/-- A store goes on after the answer to an entry of a V page, or begins, after its release (R231). A trap
at an entry leaves the entries before it written, and a replay writes them all again (R251). -/
def storeFrom (s : State) (t : TReg) (srcs : List TReg) (extra : List (Nat × Answer))
    (runs : List Run) : Res :=
  match s.answer 0 with
  | some (.trap cause code v) =>
    let s := s.undoClaims
    .trap (s.setMe (s.me.keepPosted 0 0)) cause code v
  | a =>
    let (n, grp) := s.progress
    let n := if a.isSome then n + 1 else n
    let todo := (runs.flatMap Run.pieces).drop n
    let go := fun (s : State) => storeRuns s (s.cargo t) srcs extra grp n todo
    if !s.isRelease || n != 0 then go s
    else if !s.releasedAt (scopeOf s.mw) then storePause s (s.cargo t) srcs extra .drain n grp todo
    else if s.me.err.isSome then unlessError s.undoClaims go
    else go s

/-- The features a store needs of another module (R387). -/
def State.storeBits (s : State) : List Nat := if s.oflag then [9] else []

def execTst (g : Guard) (t : TReg) (a b : Reg) (s : State) : Out :=
  run (.tst g t a b) g s fun s =>
    match shapeOf s.me.shape, s.passed with
    | some h, true => storeFrom s t [t] [] (rowRuns h (s.gv a) (s.gv b))
    | _, _ =>
      tileSteps s anyFmt s.usualMods [t] [] fun s h =>
      stridedRuns s h a b fun s runs =>
      checkRuns s h.unit .write .store s.storeBits 0 t ((s.cargo t).dirty h)
        (fun s => storeFrom s t [t] [] runs) runs

def execTsti (g : Guard) (t ti : TReg) (a : Reg) (s : State) : Out :=
  run (.tsti g t ti a) g s fun s =>
    match shapeOf s.me.shape, s.passed with
    | some h, true => storeFrom s t [t, ti] (s.keepIndex ti) (s.keptRuns h ti a)
    | _, _ =>
      indexedSteps s [t, ti] [] fun s h =>
      agree s h [t] fun s =>
      indexedRuns s h ti a fun s runs =>
      checkRuns s h.unit .write .store [] ti t ((s.cargo t).dirty h)
        (fun s => storeFrom s t [t, ti] (s.keepIndex ti) runs) runs

end Sys2Proof.Machine
end

