-- ==== Sys2Proof/Machine/LoomInstr.lean ====
section
/-! DEFINITION. The Loom instructions at issue (R292 to R300, R306, R309 to R311): their checks, the
acceptance of commands, LRES and LSTAT. -/

namespace Sys2Proof.Machine

/-! ### Formats (R290) -/

def loomAlign : LoomFmt → Nat
  | .f64 => 8
  | .f32 => 4
  | .bf16 | .f16 => 2
  | .f8e4 | .f8e5 | .i8 | .f4 => 1

def loomDepth : LoomFmt → Nat
  | .f64 => 64
  | .f32 => 128
  | .bf16 | .f16 => 256
  | .f8e4 | .f8e5 | .i8 => 512
  | .f4 => 1024

/-- Alignment of a VRD's rows: its code 6 writes i64 (R296). -/
def vrdAlign (f : LoomFmt) : Nat := if f = .i8 then 8 else loomAlign f

/-! ### Acceptance (R292 to R294) -/

/-- The 32-bit word of an instruction. -/
def wordOf (i : Instr) : BitVec 32 :=
  match encode i with
  | some (.w w) => w
  | _ => 0

/-- The issuing strand's command, its operands as they stand. -/
def State.command (s : State) (i : Instr) (a b : Word) : LoomCmd :=
  let t := s.me
  { instr := i, word := wordOf i, core := s.issue.core, xroot := s.root, user := !t.priv,
    a := a, b := b, mw := s.issue.mw, seed := t.seed, rctr := t.rctr, groups := [], fut := 0,
    records := 1 }

/-- The block of the core's Loom, with its key. -/
def State.myLoom (s : State) : Option (Nat × Block) :=
  let r := s.myCore.loomblk
  (s.block r).map fun b => (blockKey r, b)

/-- Steps 2 and 3 of R300 as far as they are common: poison, and the block. -/
def loomSteps (s : State) (rs : List Reg) (k : State → Nat → Block → Res) : Res :=
  consume s rs fun s =>
    match s.myLoom with
    | none => .operand (s.tryBlock s.myCore.loomblk) 0
    | some (key, b) => k s key b

/-- Step 7 of R300: the strand waits for room in the ring, and then goes on. -/
def loomRoom (s : State) (key : Nat) (b : Block) (c : LoomCmd) (got : List (Nat × Answer))
    (k : State → Res) : Res :=
  if 2 ^ b.m < recordsOf (s.loomQueue key).cmds + c.records then .hold s .ring got else k s

/-- Step 7 of R300 and the acceptance, at which the strand's stores have drained. -/
def acceptLoom (s : State) (key : Nat) (b : Block) (c : LoomCmd) (got : List (Nat × Answer))
    (fin : State → Res) : Res :=
  loomRoom s key b c got fun s => draining s got fun s => fin (s.loomPush key b c)

/-- Step 4 of R300: g[a] alone. -/
def loomAddress (s : State) (ea : Word) (align : Nat) (k : State → Res) : Res :=
  if regionClass ea = 3 then .address s ea
  else if ea.toNat % align ≠ 0 then .misalign s ea
  else if !s.me.priv && touchesReserved s.issue.core ea 1 then .reserved s ea
  else k s

/-! ### WLD, WEFT and VRD (R299) -/

/-- The fields of a geometry word. -/
def geoRow0 (w : Word) : Nat := bits w 47 43
def geoRows (w : Word) : Nat := bits w 42 32
def geoStride (w : Word) : Word := (w.extractLsb' 0 32).signExtend 64

/-- The geometry word of WLD and WEFT. -/
def geoOk (f : LoomFmt) (lp : Option (BitVec 3)) (w : Word) : Bool :=
  clearBits w 63 48 && decide (geoRow0 w = 0) && decide (geoRows w ≤ loomDepth f) &&
    (lp.isNone || decide (geoRows w = 0)) && decide (bits w 31 0 % loomAlign f = 0)

/-- The geometry word of VRD. -/
def geoReadOk (f : LoomFmt) (w : Word) : Bool :=
  clearBits w 63 48 && decide (geoRow0 w + geoRows w ≤ 32) && decide (bits w 31 0 % vrdAlign f = 0)

/-- WLD and WEFT at issue. -/
def loomStream (s : State) (i : Instr) (f : LoomFmt) (lp : Option (BitVec 3)) (a b : Reg) : Res :=
  loomSteps s [a, b] fun s key blk =>
    if !geoOk f lp (s.gv b) then .operand s (s.gv b)
    else loomAddress s (s.gv a) (loomAlign f) fun s =>
    acceptLoom s key blk (s.command i (s.gv a) (s.gv b)) s.got .done

def execWld (g : Guard) (fmt : LoomFmt) (lp : Option (BitVec 3)) (a b : Reg) (s : State) : Out :=
  run (.wld g fmt lp a b) g s fun s => loomStream s (.wld g fmt lp a b) fmt lp a b

def execWeft (g : Guard) (fmt : LoomFmt) (v : Bool) (lp : Option (BitVec 3)) (a b : Reg) (s : State) :
    Out :=
  run (.weft g fmt v lp a b) g s fun s => loomStream s (.weft g fmt v lp a b) fmt lp a b

/-- VRD: in mode 5 the draws are taken at issue (R308). -/
def execVrd (g : Guard) (fmt : LoomFmt) (v : Bool) (a b : Reg) (s : State) : Out :=
  run (.vrd g fmt v a b) g s fun s =>
    loomSteps s [a, b] fun s key blk =>
    let w := s.gv b
    if !geoReadOk fmt w then .operand s w
    else loomAddress s (s.gv a) (vrdAlign fmt) fun s =>
    acceptLoom s key blk (s.command (.vrd g fmt v a b) (s.gv a) w) s.got fun s =>
      .done (s.drew s.mw.rm.toNat (geoRows w * 32))

/-! ### LGRP (R306) -/

/-- A group of the table. -/
def grpRows (g : Word × Word) : Nat := bits g.2 37 32
def grpW0 (g : Word × Word) : Nat := bits g.2 47 38
def grpK (g : Word × Word) : Nat := bits g.2 58 48
def grpStride (g : Word × Word) : Word := (g.2.extractLsb' 0 32).signExtend 64

/-- The tests of one entry. -/
def groupOk (f : LoomFmt) (g : Word × Word) : Bool :=
  clearBits g.2 63 59 && decide (grpRows g ≤ 32) && decide (grpW0 g + grpK g ≤ loomDepth f) &&
    (decide (grpRows g = 0) || (decide (g.1.toNat % loomAlign f = 0) &&
      decide (bits g.2 31 0 % loomAlign f = 0)))

/-- The entries read, in order, with their poison. -/
def groupsOf (n : Nat) (got : List (Nat × Answer)) : List ((Word × Word) × Bool) :=
  (List.range n).map fun i => match got.find? fun x => x.1 == 16 * i with
    | some (_, .data bs ps) => ((leWord (bs.take 8), leWord (bs.drop 8)), ps.any id)
    | _ => ((0, 0), false)

/-- The fate of the first entry that fails; none when all pass. -/
def groupFault (s : State) (f : LoomFmt) (ea : Word) : Nat → List ((Word × Word) × Bool) → Option Res
  | _, [] => none
  | i, (g, bad) :: r =>
    let at' := ea + BitVec.ofNat 64 (16 * i)
    if bad then some (.contain s at')
    else if !groupOk f g then some (.operand s at')
    else groupFault s f ea (i + 1) r

/-- LGRP once its table has been read. -/
def lgrpAccept (s : State) (i : Instr) (f : LoomFmt) (ea cnt : Word) (n key : Nat) (blk : Block)
    (got : List (Nat × Answer)) : Res :=
  let es := groupsOf n got
  match groupFault s f ea 0 es with
  | some r => r
  | none =>
    if 32 < (es.map fun x => grpRows x.1).foldl (· + ·) 0 then .operand s ea
    else
      let c := { s.command i ea cnt with groups := es.map (·.1), records := 1 + (16 * n + 63) / 64 }
      acceptLoom s key blk c got .done

/-- The first trap among the answers got. -/
def State.trapAnswer (s : State) : Option (BitVec 5 × Code × Word) :=
  s.got.findSome? fun x => match x.2 with
    | .trap cause code v => some (cause, code, v)
    | _ => none

def execLgrp (g : Guard) (fmt : LoomFmt) (v : Bool) (lp : Option (BitVec 3)) (a b : Reg) (s : State) :
    Out :=
  run (.lgrp g fmt v lp a b) g s fun s =>
    loomSteps s [a, b] fun s key blk =>
    let ea := s.gv a
    let cnt := s.gv b
    let n := if lp.isSome then 32 else bits cnt 5 0
    let i : Instr := .lgrp g fmt v lp a b
    loomAddress s ea 16 fun s =>
    if 32 < n ∨ !clearBits cnt 63 6 ∨ (lp.isSome ∧ cnt ≠ 0) then .operand s cnt
    else match s.trapAnswer with
    | some (cause, code, w) => .trap s cause code w
    | none =>
      if !s.got.isEmpty then lgrpAccept s i fmt ea cnt n key blk s.got
      else
        let runs := (List.range n).map fun j =>
          (⟨16 * j, ea + BitVec.ofNat 64 (16 * j), 16, false⟩ : Run)
        checkRuns s 16 .read .load [] 0 0 false (fun s =>
          if runs.any s.runWaits then .hold (s.pin runs) .drain s.got
          else
            let (s, got) := runs.foldl readRun (s, [])
            if got.length = runs.length then lgrpAccept s i fmt ea cnt n key blk got
            else .await s (runs.length - got.length) got) runs

/-! ### WSWAP, VCLR, VADD, LLOOP -/

def execWswap (g : Guard) (s : State) : Out :=
  run (.wswap g) g s fun s =>
    loomSteps s [] fun s key blk => acceptLoom s key blk (s.command (.wswap g) 0 0) s.got .done

def execVclr (g : Guard) (k : Bool) (s : State) : Out :=
  run (.vclr g k) g s fun s =>
    loomSteps s [] fun s key blk => acceptLoom s key blk (s.command (.vclr g k) 0 0) s.got .done

def execVadd (g : Guard) (k : Bool) (a : Reg) (s : State) : Out :=
  run (.vadd g k a) g s fun s =>
    loomSteps s [a] fun s key blk =>
    loomAddress s (s.gv a) 8 fun s =>
    acceptLoom s key blk (s.command (.vadd g k a) (s.gv a) 0) s.got .done

def execLloop (g : Guard) (k : BitVec 3) (a : Reg) (s : State) : Out :=
  run (.lloop g k a) g s fun s =>
    loomSteps s [a] fun s key blk =>
    loomAddress s (s.gv a) 8 fun s =>
    acceptLoom s key blk (s.command (.lloop g k a) (s.gv a) 0) s.got .done

/-! ### LFUT, LRES, LSTAT (R309 to R312) -/

/-- The fault word of a stop with code c: PA[55:8] of the progress record above it (R313). -/
def loomFaultWord (pa : Nat) (c : Code) : Word :=
  BitVec.ofNat 64 ((pa + 256) / 2 ^ 8 % 2 ^ 48 * 2 ^ 16 + c.toNat)

/-- A marker accepted once there is room: its future is poisoned at once while the sequencer is stopped on a
fault. -/
def lfutAccept (s : State) (i : Instr) (d : Reg) (key : Nat) (blk : Block) (h : Word) : Res :=
  let m := s.myCore.loom
  let stopped := m.seq == .stopped
  let c := { s.command i 0 0 with fut := if stopped then 0 else h }
  loomRoom s key blk c [(7, .word h false)] fun s =>
    let s := s.loomPush key blk c
    let s := if stopped then (s.endFuture h 3 (loomFaultWord (key * 512) m.code)).dropRef h else s
    s.result d h false

/-- LFUT (R309): its stores drain before it allocates, so that a store error leaves no future behind. -/
def execLfut (g : Guard) (d : Reg) (s : State) : Out :=
  run (.lfut g d) g s fun s =>
    let s := match s.answer 7, s.myLoom with
      | some (.word h _), none => s.freeUnseen h
      | _, _ => s
    loomSteps s [] fun s key blk =>
    let i : Instr := .lfut g d
    match s.answer 7 with
    | some (.word h _) => lfutAccept s i d key blk h
    | _ => draining s s.got fun s =>
      match s.allocate s.myCluster 2 with
      | (none, s) => .exhausted s 0x2603
      | (some h, s) => lfutAccept s i d key blk h

/-- The sequencer runs on after LRES. -/
def State.loomRun (s : State) : State :=
  let c := s.myCore
  s.setMyCore { c with loom := { c.loom with seq := .running, code := 0 } }

/-- Every command of a queue is discarded (R310). -/
def State.loomFlush (s : State) (key : Nat) (b : Block) : State :=
  (s.setLoomQ key { s.loomQueue key with cmds := [] }).setHead b.off (s.blockTail b.off)

def execLres (g : Guard) (a : Reg) (s : State) : Out :=
  run (.lres g a) g s fun s =>
    loomSteps s [a] fun s key blk =>
    let v := s.gv a
    if s.myCore.loom.seq ≠ .stopped then .done s
    else if 2 < v.toNat then .operand s v
    else if v = 0 then .done s.loomRun
    else if v = 1 then .done (s.loomPop key).loomRun
    else .done (s.loomFlush key blk).loomRun

def vatCode : VatMode → Nat
  | .none => 0
  | .l => 1
  | .x => 2

/-- The status word of LSTAT (R311). -/
def State.loomStatus (s : State) : Word :=
  match s.myLoom with
  | none => 0
  | some (key, _) =>
    let m := s.myCore.loom
    let n := min (s.loomQueue key).cmds.length 32767
    BitVec.ofNat 64 (b1 (m.seq != .running) * 2 ^ 63 + n * 2 ^ 48 + vatCode m.v1.mode * 2 ^ 46 +
      vatCode m.v0.mode * 2 ^ 44 + m.shadow.fmt.code.toNat * 2 ^ 41 + m.shadow.count * 2 ^ 30 +
      m.warp.fmt.code.toNat * 2 ^ 27 + m.warp.count * 2 ^ 16 + m.code.toNat)

def execLstat (g : Guard) (d : Reg) (s : State) : Out :=
  run (.lstat g d) g s fun s =>
    s.result d s.loomStatus false

end Sys2Proof.Machine
end

