-- ==== Sys2Proof/Machine/ScrivInstr.lean ====
section
/-! DEFINITION. The Scrivener instructions at issue (R317 to R321, R327, R328): the checks of a copy
and its acceptance, TDSET and CQSTAT. -/

namespace Sys2Proof.Machine

/-! ### The ranges of a copy (R319) -/

/-- A range of bytes. -/
structure Range where
  a : Word
  n : Nat
  deriving DecidableEq, Repr

/-- Operand j of a copy. -/
def opOf (ops : List Word) (j : Nat) : Word := ops.getD j 0

/-- Bytes of an element of CPYG, and of an index. -/
def gatherSize (geo : Word) : Nat := 8 * 2 ^ bits geo 39 36
def gatherCount (geo : Word) : Nat := bits geo 23 0
def indexSize (geo : Word) : Nat := if geo.getLsbD 40 then 8 else 4

/-- Row i of CPY2 from `a` with stride `st`. -/
def copyRow (a st b : Word) (i : Nat) : Range := ⟨a + BitVec.ofNat 64 i * st, b.toNat⟩

/-- The destination ranges of a copy of kind 0 CPY, 1 CPY2, 2 CPYG. -/
def copyDests (kind : Nat) (ops : List Word) : List Range :=
  let x := opOf ops
  if kind = 0 then [⟨x 0, (x 2).toNat⟩]
  else if kind = 1 then (List.range (x 5).toNat).map (copyRow (x 0) (x 2) (x 4))
  else [⟨x 0, gatherCount (x 3) * gatherSize (x 3)⟩]

/-- The ranges known at issue, in the order of step 3 of R320. -/
def copyRanges (kind : Nat) (ops : List Word) : List Range :=
  let x := opOf ops
  if kind = 0 then [⟨x 0, (x 2).toNat⟩, ⟨x 1, (x 2).toNat⟩]
  else if kind = 1 then
    (List.range (x 5).toNat).flatMap fun i =>
      [copyRow (x 0) (x 2) (x 4) i, copyRow (x 1) (x 3) (x 4) i]
  else copyDests 2 ops ++ [⟨x 2, gatherCount (x 3) * indexSize (x 3)⟩]

/-- Step 2 of R320: the first value beyond its limit. -/
def copyLimit (kind : Nat) (ops : List Word) : Option Word :=
  let x := opOf ops
  if kind = 0 then (if 2 ^ 32 < (x 2).toNat then some (x 2) else none)
  else if kind = 1 then [x 4, x 5].find? fun v => decide (2 ^ 20 < v.toNat)
  else
    let g := x 3
    if bits g 63 41 ≠ 0 ∨ bits g 35 24 ≠ 0 ∨ 9 < bits g 39 36 then some g else none

/-- Step 4 of R320: the first value out of alignment. -/
def copyMisaligned (kind : Nat) (ops : List Word) : Option Word :=
  let x := opOf ops
  let odd := fun (v : Word) => decide (v.toNat % 8 ≠ 0)
  if kind = 0 then [x 0, x 1, x 2].find? odd
  else if kind = 1 then [x 0, x 1, x 2, x 3, x 4].find? odd
  else match [x 0, x 1].find? odd with
    | some v => some v
    | none => if (x 2).toNat % indexSize (x 3) ≠ 0 then some (x 2) else none

/-- The end of the region of R34 that a class names; what follows is a trap region. -/
def regionEnd (k : Nat) : Nat :=
  if k = 0 then 2 ^ 56 else if k = 1 then 0xFFFFFFFFFD800000 else 0xFFFFFFFFFF100000

/-- The first byte of a range in a trap region. -/
def Range.trapByte (r : Range) : Option Word :=
  let k := regionClass r.a
  if r.n = 0 then none
  else if k = 3 then some r.a
  else if regionEnd k < r.a.toNat + r.n then some (BitVec.ofNat 64 (regionEnd k))
  else none

/-- The fate of a range that begins in a window and leaves what it may reach there: true for the
reserved area. -/
def Range.windowByte (r : Range) (core : Nat) (user : Bool) : Option (Bool × Word) :=
  match regionOf core r.a with
  | .spad _ o =>
    if r.n = 0 then none
    else if user ∧ 0xF0000 < o + r.n then some (true, r.a + BitVec.ofNat 64 (max o 0xF0000 - o))
    else if 2 ^ 20 < o + r.n then some (false, r.a + BitVec.ofNat 64 (2 ^ 20 - o))
    else none
  | _ => none

/-- The scratchpad words of a range, as core and word. -/
def Range.words (r : Range) (core : Nat) : List (Nat × Nat) :=
  match regionOf core r.a with
  | .spad c o => (wordsOf o r.n).map fun w => (c, w)
  | _ => []

/-! ### Acceptance (R320, R321) -/

/-- The block of the core's Scrivener queue, with its key. -/
def State.myScr (s : State) : Option (Nat × Block) :=
  let r := s.myCore.scrblk
  (s.block r).map fun b => (blockKey r, b)

/-- Steps 1 to 5 of R320. -/
def copyChecks (s : State) (kind : Nat) (rs : List Reg) (k : State → List Word → Res) : Res :=
  consume s rs fun s =>
  let ops := rs.map s.gv
  match copyLimit kind ops with
  | some v => .operand s v
  | none =>
    let ranges := copyRanges kind ops
    match ranges.findSome? Range.trapByte with
    | some v => .address s v
    | none =>
      match copyMisaligned kind ops with
      | some v => .misalign s v
      | none =>
        match ranges.findSome? fun r => r.windowByte s.issue.core (!s.me.priv) with
        | some (true, v) => .reserved s v
        | some (false, v) => .operand s v
        | none => k s ops

/-- The copy accepted once there is room: tags emptied, the record written, the handle in g[d] (R321). -/
def acceptCopy (s : State) (kind : Nat) (ops : List Word) (d : Reg) (key : Nat) (b : Block)
    (h : Word) : Res :=
  let core := s.issue.core
  if 2 ^ b.m ≤ (s.scrQueue key).cmds.length then .hold s .ring [(7, .word h false)]
  else
    let words := (copyDests kind ops).flatMap fun r => r.words core
    let s := words.foldl (fun s x => s.setTag x.1 x.2 false) s
    let c : CopyCmd :=
      { kind := kind, ops := ops, xroot := s.root, user := !s.me.priv, core := core, fut := h,
        emptied := words, pad := 0 }
    (s.scrPush key b c).result d h false

/-- CPY, CPY2 and CPYG (R320): the stores drain before the future is allocated, which is kept while the ring is
full. -/
def copyAt (s : State) (kind n : Nat) (d a : Reg) : Res :=
  copyChecks s kind (Reg.group a n) fun s ops =>
  match s.myScr, s.answer 7 with
  | some (key, b), some (.word h _) => acceptCopy s kind ops d key b h
  | some (key, b), _ => draining s s.got fun s =>
    match s.allocate s.myCluster 1 with
    | (none, s) => .exhausted s 0x2603
    | (some h, s) => acceptCopy s kind ops d key b h
  | none, some (.word h _) => .operand ((s.tryBlock s.myCore.scrblk).freeUnseen h) 0
  | none, _ => .operand (s.tryBlock s.myCore.scrblk) 0

def execCpy (g : Guard) (d a : Reg) (s : State) : Out :=
  run (.cpy g d a) g s fun s => copyAt s 0 3 d a

def execCpy2 (g : Guard) (d a : Reg) (s : State) : Out :=
  run (.cpy2 g d a) g s fun s => copyAt s 1 6 d a

def execCpyg (g : Guard) (d a : Reg) (s : State) : Out :=
  run (.cpyg g d a) g s fun s => copyAt s 2 4 d a

/-! ### Faults of copies (R324) -/

/-- The fault word of R324. -/
def copyFaultWord (code : Code) (va : Nat) : Word :=
  BitVec.ofNat 64 (va / 256 % 2 ^ 48 * 65536 + code.toNat)

/-- A fault is noted: the queue's last code, the core's pending bit, the record. -/
def State.scrFault (s : State) (cl q : Nat) (code : Code) (va : Nat) : State :=
  let s := s.setScrLast cl q code
  let loc := if q = 24 then 0x0900 + cl else 24 * cl + q
  let s := s.record code loc (bits (copyFaultWord code va) 47 16)
  if q = 24 then s
  else
    let c := s.core (24 * cl + q)
    s.setCore (24 * cl + q) { c with ipend := c.ipend ||| 8 }

/-! ### CQSTAT (R327) -/

/-- The block register of a queue of a cluster: a core's, or the Reeve's. -/
def State.queueReg (s : State) (cl q : Nat) : Word :=
  if q = 24 then (s.cluster cl).reeveblk else (s.core (24 * cl + q)).scrblk

/-- The status of queue q of a cluster; of a queue without a block, a core's reads 0, and the Reeve's
shows its last code (R327, R338). -/
def State.copyStatus (s : State) (cl q : Nat) : Word :=
  let r := s.queueReg cl q
  let last : Nat := (SMap.get (s.cluster cl).scrLast 0 q).toNat
  match s.block r with
  | none => if q = 24 then BitVec.ofNat 64 last else 0
  | some b =>
    let n := min (s.scrQueue (blockKey r)).cmds.length 65535
    BitVec.ofNat 64 (bits (s.blockHead b.off) 31 0 * 2 ^ 32 + n * 2 ^ 16 + last)

def execCqstat (g : Guard) (d a : Reg) (s : State) : Out :=
  run (.cqstat g d a) g s fun s =>
    consume s [a] fun s =>
    let q := (s.gv a).toNat
    if 24 < q then .operand s (s.gv a) else s.result d (s.copyStatus s.myCluster q) false

/-! ### TDSET (R328) -/

/-- The fields of a tile descriptor (R64). -/
def tdWord (bs : List Byte) (i : Nat) : Word := leWord ((bs.drop (8 * i)).take 8)

/-- The tests of an image. -/
def tdOk (bs : List Byte) : Bool :=
  let u := max (codeBits (shapeCode (tdWord bs 2)) / 8) 1
  decide (tdWord bs 3 = 0) && shapeOk (tdWord bs 2) && decide ((tdWord bs 0).toNat % u = 0) &&
    decide ((tdWord bs 1).toNat % u = 0)

def execTdset (g : Guard) (k : BitVec 5) (a : Reg) (s : State) : Out :=
  run (.tdset g k a) g s fun s =>
    loadAt s [a] (s.gv a) 32 fun s bs ps =>
      if ps.any id then .poisoned s a
      else if !tdOk bs then .operand s (s.gv a)
      else
        let cl := s.myCluster
        let c := s.cluster cl
        let e : Option (BitVec 256) :=
          if (bs.take 24).all (· == 0) then none else some (BitVec.ofNat 256 (leNat bs))
        .done (s.setCluster cl { c with tdesc := SMap.put c.tdesc none k.toNat e })

end Sys2Proof.Machine
end

