-- ==== Sys2Proof/Machine/Ctx.lean ====
section
/-! DEFINITION. Context parts (R348 to R351): the images of every part, CTXSV and CTXLD. -/

namespace Sys2Proof.Machine

/-! ### The context word (R349) -/

def ctxPart (w : Word) : Nat := bits w 63 60
def ctxIndex (w : Word) : Nat := bits w 59 44
def ctxCode (w : Word) : Nat := bits w 31 16
def ctxOff (w : Word) : Nat := bits w 15 0

/-- Bytes of a part. -/
def partBytes (part index : Nat) : Nat :=
  match part with
  | 0 => 384 | 1 => 1152 | 2 => 256 | 3 => 4096 | 4 => 224 | 5 => 17472 | 6 => 20480
  | 7 => if index = 0 then 128 else 12296
  | 8 => 384
  | _ => 0

/-- The greatest index of a part. -/
def partTop (part : Nat) : Nat :=
  match part with
  | 0 => 31 | 1 => 63 | 3 => 3 | 5 => 1 | 6 => 7 | 7 => 2 | 9 => 65535
  | _ => 0

/-- The tests of a context word that do not look at the machine; `last` is the greatest part. -/
def ctxWordOk (w : Word) (last : Nat) : Bool :=
  let p := ctxPart w
  let off := ctxOff w
  clearBits w 43 32 && decide (p ≤ last) && decide (ctxIndex w ≤ partTop p) && decide (off % 64 = 0) &&
    decide (off + partBytes p (ctxIndex w) ≤ 0x10000) && (decide (p ≠ 4) || decide (off = 0)) &&
    (if p = 8 ∨ p = 9 then faultWordOk (BitVec.ofNat 64 (ctxCode w)) else decide (ctxCode w = 0))

/-- The address of byte `off` of the reserved area, as the strand sees it. -/
def areaVa (off : Nat) : Word := BitVec.ofNat 64 (0xFFFFFFFFFF0F0000 + off)

/-- An image written into the reserved area: whole words, tags full, poison clear. -/
def State.saveArea (s : State) (off : Nat) (bs : List Byte) : State :=
  let core := s.issue.core
  let o := 0xF0000 + off
  let ws := wordsOf o bs.length
  ws.foldl (fun s w => s.setTag core w true) (s.writeSpad core o bs (ws.map fun _ => false))

/-- The first poisoned word of an image among those given. -/
def firstPoison (ws : List Nat) (ps : List Bool) : Option Nat := ws.find? fun w => ps.getD w false

/-- An image read from the reserved area; a poisoned control word raises the containment trap. -/
def readArea (s : State) (off n : Nat) (control : List Nat) (k : State → List Byte → List Bool → Res) :
    Res :=
  let o := 0xF0000 + off
  ownTag s o n true fun s =>
    let (bs, ps, s) := s.readSpad s.issue.core o n
    match firstPoison control ps with
    | some w => .contain s (areaVa (off + 8 * w))
    | none => k s bs ps

/-- The words from a to b - 1. -/
def wordRange (a b : Nat) : List Nat := (List.range (b - a)).map (· + a)

/-! ### Part 0: strand records (R350, R351) -/

/-- A slot that no task and no prefetch holds. -/
def State.slotFree (s : State) (core k : Nat) : Bool :=
  (s.strand core k).st == .free && !(s.core core).prefetch.any fun x => x.2.1 == k

/-- A request that a withdrawal takes back: an LRW still queued, or an access that waits on tags. An LRW at
another module is asked back first, for it may have been granted there (R350; log 11). -/
def State.withdrawable (s : State) (r : Req) : Bool :=
  match r.place with
  | .remote _ => decide (r.op = .lrw) && r.sent.isNone
  | .spad _ => r.since != 0
  | _ => s.resv.any (fun x => x.req == some r.id) || (decide (r.op = .lrw) && r.since != 0)

/-- The LRW of a strand at another module that has not been asked back yet. -/
def State.farLrw (s : State) (core slot : Nat) : Option (Nat × Req) :=
  s.reqs.findSome? fun r =>
    if r.pkt.isNone ∧ r.core = core ∧ r.slot = slot ∧ r.op = .lrw ∧ r.sent.isSome ∧ r.since = 0 then
      match r.place with
      | .remote m => some (m, r)
      | _ => none
    else none

/-- It is asked back: by an SCH packet with operand 2, which its port answers if it is still queued. -/
def State.recallLrw (s : State) (core slot : Nat) : State :=
  match s.farLrw core slot with
  | none => s
  | some (m, r) =>
    let s := s.message (clusterOf core) m .sch r.pa [] (idArgs false core slot r.inst ++ [2])
    { s with nextId := s.nextId + 1 }.setReq { r with since := s.nextId }

/-- No reply is in flight to a strand: nothing keeps it from being withdrawn (R350). -/
def State.canStop (s : State) (core slot : Nat) : Bool :=
  let t := s.strand core slot
  let mine := fun (c k i : Nat) => c == core && k == slot && i == t.inst
  let walking := t.st == .waiting &&
    ((t.fetchWait.isSome && (s.fetchReply core slot).isNone) || (match t.flight with
      | some f => (match f.on with
        | .walk _ => true
        | _ => false)
      | none => false))
  !walking && !s.replies.any (fun r => mine r.core r.slot r.inst) &&
    s.reqs.all fun r => r.pkt.isSome || !mine r.core r.slot r.inst || s.withdrawable r

/-- Every store of a strand has been accepted, with no error on its way. -/
def State.strandDrained (s : State) (core slot : Nat) : Bool :=
  let t := s.strand core slot
  (s.core core).wb.all (fun e => !(e.slot == slot && e.inst == t.inst)) &&
    !s.errors.any fun e => e.core == core && e.slot == slot && e.inst == t.inst

/-- The bytes of a stopped strand's record: a failed TOUCH issues afresh (R186). -/
def State.strandImage (s : State) (core slot : Nat) : List Byte :=
  let t := s.strand core slot
  let pc := match t.failed with
    | some x => x.2.1
    | none => t.pc
  let err : Code × Word := t.err.getD (0, 0)
  let x : ParkTail :=
    { kind := 0, flags := b1 t.pmode + 4 * b1 t.err.isSome, code := err.1.toNat, ea := err.2 }
  s.recordBytes t pc x

/-- CTXSV of a strand, once it and the issuer have drained. -/
def State.saveStrand (s : State) (slot off : Nat) : State :=
  let core := s.issue.core
  let s := s.withdraw core slot
  let t := s.strand core slot
  let s := s.saveArea off (s.strandImage core slot)
  (s.releaseResv core slot t.inst).freeSlot core slot

/-- CTXLD of a strand: the record bound to a free slot at user level, its pending store error with the code that
the record holds (log 65). -/
def State.loadStrand (s : State) (slot : Nat) (bs : List Byte) (ps : List Bool) : State :=
  let t := s.strandOf bs
  let flags := (bs.getD 297 0).toNat
  let err : Option (Code × Word) :=
    if natBit flags 2 then
      some (BitVec.ofNat 16 (leNat ((bs.drop 300).take 2)), leWord ((bs.drop 360).take 8))
    else none
  let bad := (List.range 32).foldl (fun (t : Strand) (i : Nat) =>
    let r : Reg := BitVec.ofNat 5 i
    if ps.getD (4 + i) false then t.setReg r ⟨(t.reg r).v, true⟩ else t) t
  s.place s.issue.core slot { bad with pmode := natBit flags 0, err := err }

/-! ### Parts 1 to 3: tiles, layouts, tags -/

def Tile.image (t : Tile) : List Byte :=
  leBytes 1024 t.data.toNat ++ padScales t.scales ++ leBytes 8 t.entry.toNat ++
    leBytes 4 t.pois.toNat ++ leBytes 52 0

/-- A tile from its image; a poisoned data word poisons its strip. -/
def tileOf (bs : List Byte) (ps : List Bool) : Tile :=
  let strips := (List.range 32).foldl (fun m q =>
    if (List.range 4).any fun i => ps.getD (4 * q + i) false then m + 2 ^ q else m) 0
  { data := BitVec.ofNat 8192 (leNat (bs.take 1024)),
    pois := BitVec.ofNat 32 (leNat ((bs.drop 1096).take 4)) ||| BitVec.ofNat 32 strips,
    scales := (bs.drop 1024).take 64, entry := leWord ((bs.drop 1088).take 8) }

def Core.layoutImage (c : Core) : List Byte :=
  (List.range 16).flatMap fun i => leBytes 16 (SMap.get c.layouts 0 i).toNat

def Core.loadLayouts (c : Core) (bs : List Byte) : Core :=
  let put := fun (m : SMap (BitVec 128)) (i : Nat) =>
    SMap.put m 0 i (BitVec.ofNat 128 (leNat ((bs.drop (16 * i)).take 16)))
  { c with layouts := (List.range 16).foldl put c.layouts }

def Core.tagImage (c : Core) (q : Nat) : List Byte :=
  (List.range 512).flatMap fun i => leBytes 8 (SMap.get c.tags 0 (512 * q + i)).toNat

def Core.loadTags (c : Core) (q : Nat) (bs : List Byte) : Core :=
  let put := fun (m : SMap Word) (i : Nat) =>
    SMap.put m 0 (512 * q + i) (leWord ((bs.drop (8 * i)).take 8))
  { c with tags := (List.range 512).foldl put c.tags }

/-! ### Parts 4 to 6: the Loom (R289, R349) -/

/-- Bits of an element of a Loom format. -/
def loomBits : LoomFmt → Nat
  | .f64 => 64
  | .f32 => 32
  | .bf16 | .f16 => 16
  | .f8e4 | .f8e5 | .i8 => 8
  | .f4 => 4

/-- Element bytes of a row of 32. -/
def rowBytesOf (f : LoomFmt) : Nat := 4 * loomBits f

def seqCode : Seq → Nat
  | .running => 0
  | .paused => 1
  | .stopped => 2

def seqOf (n : Nat) : Seq := if n = 1 then .paused else if n = 2 then .stopped else .running
def vatModeOf (n : Nat) : VatMode := if n = 1 then .l else if n = 2 then .x else .none

/-- Bytes 32 to 255 of the Loom block. -/
def Loom.image (m : Loom) : List Byte :=
  let f := fun (p : Plane) => leBytes 1 p.fmt.code.toNat
  f m.warp ++ f m.shadow ++ leBytes 2 m.warp.count ++ leBytes 2 m.shadow.count ++
    leBytes 1 (vatCode m.v0.mode) ++ leBytes 1 (vatCode m.v1.mode) ++
    (List.range 8).flatMap (fun i => leBytes 8 (SMap.get m.lc 0 i).toNat) ++
    leBytes 1 (seqCode m.seq) ++ leBytes 1 0 ++ leBytes 2 m.code.toNat ++ leBytes 148 0

/-- The Loom's small image loaded; a stop code is taken as it stands, whatever its grade (log 65). -/
def Loom.loadImage (m : Loom) (bs : List Byte) : Loom :=
  let b := fun o => (bs.getD o 0).toNat
  let h := fun o => leNat ((bs.drop o).take 2)
  let f := fun o => loomFmtOf (BitVec.ofNat 3 (b o))
  let lc := (List.range 8).foldl (fun (l : SMap Word) i =>
    SMap.put l 0 i (leWord ((bs.drop (8 + 8 * i)).take 8))) m.lc
  { m with warp := { m.warp with fmt := f 0, count := h 2 },
           shadow := { m.shadow with fmt := f 1, count := h 4 },
           v0 := { m.v0 with mode := vatModeOf (b 6) }, v1 := { m.v1 with mode := vatModeOf (b 7) },
           lc := lc, seq := seqOf (b 72), code := BitVec.ofNat 16 (h 74) }

/-- A plane's image: rows, scale bytes, and format and count at 17,408 and 17,410 (log 43). -/
def Plane.image (p : Plane) : List Byte :=
  (List.range (loomDepth p.fmt)).flatMap (fun r =>
    leBytes (rowBytesOf p.fmt) (SMap.get p.rows 0 r).toNat) ++
    (List.range 1024).map (fun r => SMap.get p.scales 0 r) ++
    leBytes 2 p.fmt.code.toNat ++ leBytes 2 p.count ++ leBytes 60 0

def planeOf (bs : List Byte) : Plane :=
  let f := loomFmtOf (BitVec.ofNat 3 (bs.getD 17408 0).toNat)
  let n := rowBytesOf f
  { rows := (List.range (loomDepth f)).foldl (fun m r =>
      SMap.put m 0 r (BitVec.ofNat 2048 (leNat ((bs.drop (n * r)).take n)))) [],
    scales := (List.range 1024).foldl (fun m r => SMap.put m 0 r (bs.getD (16384 + r) 0)) [],
    fmt := f, count := leNat ((bs.drop 17410).take 2) }

/-- Eight rows of a vat. -/
def Vat.image (v : Vat) (q : Nat) : List Byte :=
  (List.range 256).flatMap fun i => leBytes 80 (SMap.get v.elems 0 (256 * q + i))

/-- An element without its reserved bits [639:621] and [616], which are always 0 (R81). -/
def elemBits (x : Nat) : Nat := x % 2 ^ 616 + x / 2 ^ 617 % 16 * 2 ^ 617

def Vat.loadRows (v : Vat) (q : Nat) (bs : List Byte) : Vat :=
  { v with elems := (List.range 256).foldl (fun m i =>
      SMap.put m 0 (256 * q + i) (elemBits (leNat ((bs.drop (80 * i)).take 80)))) v.elems }

/-! ### Part 7: queues (R156, R169, R349) -/

/-- The inbound port: words, then poison mask, count, held flag and discards at 64 to 79 (log 43). -/
def Core.portImage (c : Core) : List Byte :=
  (List.range 8).flatMap (fun i => leBytes 8 (c.portQ.getD i ⟨0, false⟩).v.toNat) ++
    leBytes 1 ((List.range 8).foldl (fun m i =>
      if (c.portQ.getD i ⟨0, false⟩).p then m + 2 ^ i else m) 0) ++
    leBytes 1 c.portQ.length ++ leBytes 1 (b1 c.owner.isNone) ++ leBytes 1 0 ++
    leBytes 4 c.discards.toNat ++ leBytes 56 0

/-- The port's queue and counter from their image; the words are held (R171). -/
def Core.loadPort (c : Core) (bs : List Byte) (ps : List Bool) : Core :=
  let n := min (bs.getD 65 0).toNat 8
  let q := (List.range n).map fun i =>
    (⟨leWord ((bs.drop (8 * i)).take 8), (bs.getD 64 0).getLsbD i || ps.getD i false⟩ : PW)
  { c with portQ := q, discards := BitVec.ofNat 32 (leNat ((bs.drop 68).take 4)) }

/-- A queue of descriptors. -/
def queueImage (l : List Desc) : List Byte :=
  leBytes 8 l.length ++ l.flatMap (fun d => d.bytes ++ leBytes 32 0) ++
    List.replicate ((64 - l.length) * 192) 0

/-- A queue from its image; a poisoned carry word keeps its poison in cpois. -/
def queueOf (bs : List Byte) (ps : List Bool) : List Desc :=
  (List.range (min (leNat (bs.take 8)) 64)).map fun i =>
    let d := descOf ((bs.drop (8 + 192 * i)).take 160)
    let m := (List.range 16).foldl (fun m j =>
      if ps.getD (1 + 24 * i + 4 + j) false then m + 2 ^ j else m) 0
    { d with pois := d.pois ||| BitVec.ofNat 16 m }

/-- The count and the headers of a queue's image. -/
def queueControl : List Nat :=
  0 :: (List.range 64).flatMap fun i => (List.range 4).map fun j => 1 + 24 * i + j

/-! ### CTXSV -/

/-- A tile has a write pending, or a strand waits on it. -/
def Core.tilePending (c : Core) (n : Nat) : Bool := c.claims.any fun x => x.write && x.tile == n
def Core.tileWaited (c : Core) (n : Nat) : Bool :=
  c.strands.any fun x => match x.2.flight with
    | some f => match f.on with
      | .chain ts => ts.contains n || ts.contains (64 + n)
      | _ => false
    | none => false

/-- The conditions of a save; a wait is none of them. -/
def State.saveOk (s : State) (w : Word) : Bool :=
  let c := s.myCore
  match ctxPart w with
  | 0 =>
    let t := SMap.get c.strands {} (ctxIndex w)
    ctxIndex w != s.issue.slot && t.st != .free && t.st != .halted && !t.priv
  | 4 => c.lpaused && s.myLoom.isSome
  | 5 | 6 => c.lpaused
  | _ => true

/-- A vat or a plane of a Loom, by its number. -/
def Loom.vat (m : Loom) (k : Nat) : Vat := if k = 0 then m.v0 else m.v1
def Loom.plane (m : Loom) (k : Nat) : Plane := if k = 0 then m.warp else m.shadow

def State.setLoom (s : State) (m : Loom) : State := s.setMyCore { s.myCore with loom := m }

/-- The save of a part. -/
def savePart (s : State) (w : Word) : Res :=
  let c := s.myCore
  let i := ctxIndex w
  let off := ctxOff w
  match ctxPart w with
  | 0 =>
    if s.canStop s.issue.core i && s.strandDrained s.issue.core i then .done (s.saveStrand i off)
    else .hold s .object s.got
  | 1 =>
    if c.tilePending i then .hold s .object s.got
    else .done (s.saveArea off (SMap.get c.tiles {} i).image)
  | 2 => .done (s.saveArea off c.layoutImage)
  | 3 => .done (s.saveArea off (c.tagImage i))
  | 4 => match s.myLoom with
    | some (_, b) => .done (s.hbmWrite (b.off + 32) c.loom.image)
    | none => .operand s w
  | 5 => .done (s.saveArea off (c.loom.plane i).image)
  | 6 => .done (s.saveArea off ((c.loom.vat (i / 4)).image (i % 4)))
  | _ =>
    if i = 0 then .done ((s.saveArea off c.portImage).setMyCore { c with portQ := [] })
    else if i = 1 then .done ((s.saveArea off (queueImage c.deque)).setMyCore { c with deque := [] })
    else .done ((s.saveArea off (queueImage c.arrivals)).setMyCore { c with arrivals := [] })

def execCtxsv (g : Guard) (a : Reg) (s : State) : Out :=
  run (.ctxsv g a) g s fun s =>
    consume s [a] fun s =>
    let w := s.gv a
    if !ctxWordOk w 7 || !s.saveOk w then .operand s w
    else draining s s.got fun s => savePart s w

/-! ### CTXLD -/

/-- The descriptors in a core's arrival ring, oldest first. -/
def State.ringList (s : State) (core : Nat) : List Desc :=
  let c := s.core core
  (List.range c.arFill).map fun j =>
    descOf (s.seen (paOffset (ringPa c.arring) + 160 * ((c.arHead + j) % ringSize c.arring)) 160)

/-- A core's arrival ring read entry by entry (R212). -/
def State.meetRing (s : State) (core : Nat) : State :=
  let c := s.core core
  (List.range c.arFill).foldl (fun s j =>
    s.meet (paOffset (ringPa c.arring) + 160 * ((c.arHead + j) % ringSize c.arring)) 160) s

/-- The resume entry of a park index is taken from the arrivals of a core, wherever it stands. -/
def State.takeArrived (s : State) (idx core : Nat) : State :=
  let keep := fun (d : Desc) => !(d.resume && d.parkIndex == idx)
  let c := s.core core
  let ring := s.ringList core
  let s := s.setCore core
    { c with arrivals := c.arrivals.filter keep, resend := c.resend.filter keep }
  if ring.all keep then s
  else
    let l := ring.filter keep
    let s := (List.range l.length).foldl (fun s j =>
      match l[j]? with
      | some d => s.ringPut c.arring ((c.arHead + j) % ringSize c.arring) d
      | none => s) s
    s.setCore core { s.core core with arFill := l.length }

/-- The resume entry of a park index stands among the arrivals of a core of its cluster. -/
def State.arrived (s : State) (cl idx : Nat) : Bool :=
  (List.range 24).any fun i =>
    let c := s.core (24 * cl + i)
    (c.arrivals ++ c.resend ++ s.ringList (24 * cl + i)).any fun d => d.resume && d.parkIndex == idx

/-- The kill of a parked task (R349 part 9): out of what it waits on, then R151. -/
def State.killParked (s : State) (idx : Nat) (fw : Word) : State :=
  let cl := s.myCluster
  match SMap.get (s.cluster cl).parked 0 idx with
  | 0 => s
  | core + 1 =>
    let o := s.parkOff cl + 384 * idx
    let (bs, _, s) := s.hbmRead o 384
    let s := (List.range 24).foldl (fun s i => s.meetRing (24 * cl + i)) s
    let wd := fun i => leWord ((bs.drop i).take 8)
    let kind := (bs.getD 294 0).toNat
    let obj := wd 344
    let tok := s.parkToken idx
    let task := wd 16
    let snap := wd 328
    let tx := wd 336
    let s :=
      if s.arrived cl idx then s
      else if kind = 1 ∨ kind = 2 then s.leaveObject core (idx + 1) kind obj tok
      else if kind = 3 then s.leaveFeed cl (obj.toNat % 1024) (tok, 0)
      else s
    let s := (List.range 24).foldl (fun s i => s.takeArrived idx (24 * cl + i)) s
    let s := s.moveOwner core idx none
    let s := s.givePark cl idx
    s.killTask core task snap (s.refreshTx tx) fw

/-- A strand of a cluster that has taken park index `idx` for a request to another module, and has not
parked. -/
def State.parkingSoon (s : State) (cl idx : Nat) : Bool :=
  (List.range 24).any fun i => ((s.core (24 * cl + i)).strands).any fun x =>
    match x.2.flight with
    | some f => f.got.any fun a => a == (1, Answer.note (idx + 1))
    | none => false

/-- A task is parked or arrived under an index: no strand that may park holds it. -/
def State.isParked (s : State) (cl idx : Nat) : Bool :=
  SMap.get (s.cluster cl).parked 0 idx != 0 && !s.parkingSoon cl idx

/-- The conditions of a load. -/
def State.loadOk (s : State) (w : Word) : Bool :=
  let c := s.myCore
  let i := ctxIndex w
  match ctxPart w with
  | 0 => s.slotFree s.issue.core i
  | 1 => !c.tileWaited i
  | 4 => c.lpaused && s.myLoom.isSome
  | 5 | 6 => c.lpaused
  | 7 =>
    if i = 0 then c.portQ.isEmpty && c.owner.isNone
    else if i = 1 then c.deque.isEmpty
    else c.arrivals.isEmpty
  | 9 => s.isParked s.myCluster i
  | _ => true

/-- The header and state words of a strand record. -/
def recordControl : List Nat := wordRange 0 4 ++ wordRange 36 48

/-- The load of the Loom's small image from its block; a poisoned word's PA is v (log 64). -/
def loadSmall (s : State) (b : Block) : Res :=
  let (bs, ps, s) := s.hbmRead (b.off + 32) 224
  match firstPoison (wordRange 0 28) ps with
  | some w => .contain s (BitVec.ofNat 64 (s.ownPa (b.off + 32 + 8 * w)))
  | none => .done (s.setLoom (s.myCore.loom.loadImage bs))

/-- The load of a part; which of its words are control words is log 64's. -/
def loadPart (s : State) (w : Word) : Res :=
  let i := ctxIndex w
  let off := ctxOff w
  let n := partBytes (ctxPart w) i
  let all := wordRange 0 (n / 8)
  let fw : Word := BitVec.ofNat 64 (ctxCode w)
  match ctxPart w with
  | 0 => readArea s off n recordControl fun s bs ps => .done (s.loadStrand i bs ps)
  | 1 => readArea s off n (wordRange 128 138) fun s bs ps =>
      let c := s.myCore
      .done (s.setMyCore { c with tiles := SMap.put c.tiles {} i (tileOf bs ps) })
  | 2 => readArea s off n all fun s bs _ => .done (s.setMyCore (s.myCore.loadLayouts bs))
  | 3 => readArea s off n all fun s bs _ => .done (s.setMyCore (s.myCore.loadTags i bs))
  | 4 => match s.myLoom with
    | some (_, b) => loadSmall s b
    | none => .operand s w
  | 5 => readArea s off n all fun s bs _ =>
      let m := s.myCore.loom
      .done (s.setLoom (if i = 0 then { m with warp := planeOf bs } else { m with shadow := planeOf bs }))
  | 6 => readArea s off n all fun s bs _ =>
      let m := s.myCore.loom
      let v := (m.vat (i / 4)).loadRows (i % 4) bs
      .done (s.setLoom (if i / 4 = 0 then { m with v0 := v } else { m with v1 := v }))
  | 7 =>
    if i = 0 then readArea s off n [8, 9] fun s bs ps => .done (s.setMyCore (s.myCore.loadPort bs ps))
    else readArea s off n queueControl fun s bs ps =>
      let c := s.myCore
      let l := queueOf bs ps
      .done (s.setMyCore (if i = 1 then { c with deque := l } else { c with arrivals := l }))
  | 8 => readArea s off n recordControl fun s bs _ =>
      let d := descOf (bs.take 160)
      let wd := fun o => leWord ((bs.drop o).take 8)
      .done (s.killTask s.issue.core d.self (wd 328) (s.refreshTx (wd 336)) fw)
  | _ => .done (s.killParked i fw)

def execCtxld (g : Guard) (a : Reg) (s : State) : Out :=
  run (.ctxld g a) g s fun s =>
    consume s [a] fun s =>
    let w := s.gv a
    if !ctxWordOk w 9 || !s.loadOk w then .operand s w else loadPart s w

end Sys2Proof.Machine
end

