-- ==== Sys2Proof/Machine/Sys.lean ====
section
/-! DEFINITION. The rest of major 44 (R110, R340 to R345, R353) and the modifier word (R48): NOP
stands with the scalar instructions. -/

namespace Sys2Proof.Machine

/-! ### TRAP, ERET, WFI, DBGB -/

def execTrap (g : Guard) (k : BitVec 5) (s : State) : Out :=
  run (.trap g k) g s fun s => .trap s 17 (0x0120 + k.setWidth 16) (k.setWidth 64)

/-- The code K of a kill (R341). -/
def Strand.killCode (t : Strand) : Word := BitVec.ofNat 64 (bits t.cause 31 16)

/-- A kill by ERET: a bare slot is only freed (R341). -/
def eretKill (s : State) : Res :=
  let t := s.me
  let core := s.issue.core
  if t.estat.getLsbD 6 then .gone (s.freeSlot core s.issue.slot)
  else if !faultWordOk t.killCode then .operand s t.killCode
  else
    let fw : Word := BitVec.ofNat 64 (bits t.tval 47 0 * 2 ^ 16 + t.killCode.toNat)
    .gone (s.killStrand core s.issue.slot fw)

/-- A store posted in part does not go on when its instruction is skipped. -/
def State.skipPosted (s : State) : State :=
  let t := s.me
  if bits t.estat 1 0 = 1 then s.setMe { t with posted := t.posted.filter fun x => x.1 != t.epc }
  else s

def execEret (g : Guard) (s : State) : Out :=
  run (.eret g) g s fun s =>
    match bits s.me.estat 1 0 with
    | 0 | 1 => .gone s.skipPosted.eretReturn
    | 2 => eretKill s
    | _ => .operand s s.me.estat

def execWfi (g : Guard) (s : State) : Out :=
  run (.wfi g) g s fun s =>
    if s.pending s.issue.core ≠ 0 then .done s else .hold s .irq s.got

/-- The debug word after a DBGB under catch (R345). -/
def Core.caught (c : Core) (slot k : Nat) : Core :=
  let w := c.dbg &&& ~~~0x0000000001FF8000
  { c with dbg := w ||| BitVec.ofNat 64 (2 ^ (32 + slot) + slot * 2 ^ 20 + k * 2 ^ 15) }

def execDbgb (g : Guard) (k : BitVec 5) (s : State) : Out :=
  run (.dbgb g k) g s fun s =>
    if s.myCore.dbg.getLsbD 31 then
      let s := s.retire s.nextPc
      let s := s.setMe { s.me with st := .halted }
      .gone (s.setMyCore (s.myCore.caught s.issue.slot k.toNat))
    else .trap s 18 (0x0140 + k.setWidth 16) (k.setWidth 64)

/-! ### TLBI (R353) -/

/-- The cores within the reach of a TLBI. -/
def reachCores (core reach : Nat) : List Nat :=
  if reach = 0 then [core]
  else if reach = 1 then (List.range 24).map (· + 24 * clusterOf core)
  else List.range 2304

/-- The entries that a TLBI names. -/
def TlbEntry.named (e : TlbEntry) (kind : Nat) (ctx : BitVec 12) (va : Word) : Bool :=
  if kind = 0 then true
  else if kind = 1 then e.ctx == ctx
  else e.covers ctx (granuleOf va)

/-- A core's cached translations invalidated, with the outcomes delivered to fetches; those of an access
that has issued are its own (R222, R353). -/
def Core.invalidate (c : Core) (kind : Nat) (ctx : BitVec 12) (va : Word) : Core :=
  let strands : SMap Strand := c.strands.map fun x =>
    (x.1, { x.2 with walked := if x.2.flight.isSome then x.2.walked else [] })
  { c with tlb := c.tlb.filter (fun e => !e.named kind ctx va), strands := strands }

/-- A walk lies within the reach. -/
def Walk.within (w : Walk) (core reach : Nat) : Bool :=
  reach != 0 || w.cores.contains core

/-- A walker's pointers forgotten and its walks marked. -/
def Cluster.invalidate (k : Cluster) (core reach : Nat) : Cluster :=
  let walks := k.walks.map fun w => if w.within core reach then { w with stale := true } else w
  { k with ptrs := if reach = 0 then k.ptrs else [], walks := walks }

/-- The clusters within the reach of a TLBI. -/
def inReach (core reach cl : Nat) : Bool := reach == 2 || cl == clusterOf core

/-- The invalidations of a TLBI. -/
def State.tlbi (s : State) (reach kind : Nat) (ctx : BitVec 12) (va : Word) : State :=
  let core := s.issue.core
  let near := reachCores core reach
  let cores : SMap Core := s.cores.map fun x =>
    (x.1, if near.contains x.1 then x.2.invalidate kind ctx va else x.2)
  let clusters : SMap Cluster := s.clusters.map fun x =>
    (x.1, if inReach core reach x.1 then x.2.invalidate core reach else x.2)
  { s with cores := cores, clusters := clusters }

/-- A walk that was in flight is still there. -/
def State.walksLeft (s : State) (reach : Nat) : Bool :=
  let core := s.issue.core
  s.clusters.any fun x => inReach core reach x.1 &&
    x.2.walks.any fun w => w.stale && w.within core reach

def execTlbi (g : Guard) (a b : Reg) (s : State) : Out :=
  run (.tlbi g a b) g s fun s =>
    consume s [a, b] fun s =>
    let w := s.gv b
    let reach := bits w 3 2
    let kind := bits w 1 0
    if bits w 51 4 ≠ 0 ∨ reach = 3 ∨ kind = 3 then .operand s w
    else
      let s := if s.got.isEmpty then s.tlbi reach kind (w.extractLsb' 52 12) (s.gv a) else s
      if s.walksLeft reach then .hold s .walks [(0, .note 0)] else .done s

/-! ### The modifier word (R48, R49) -/

/-- A modifier word opens a pair: the instruction that follows it issues with its fields. The pair is
one instruction of eight bytes (R41). -/
def execModifierWord (m : MW) (s : State) : Out :=
  event s { s with issue := { s.issue with mw := some m, len := 8 } }

end Sys2Proof.Machine
end

