-- ==== Sys2Proof/Machine/VersionInstr.lean ====
section
/-! DEFINITION. The snapshot and transaction instructions SNAP, SNAPX, TXB, TXC, TXA and TXS
(R280 to R283), over the stamp unit of R240 to R254. -/

namespace Sys2Proof.Machine

/-- The strand takes a hold on a stamp and gives up the one before (R246): none when the registry
has no room. -/
def State.changeSnap (s : State) (stamp : Word) : Option State :=
  let old := s.me.snap
  (s.holdStamp stamp).map fun s =>
    let s := s.releaseStamp old
    s.setMe { s.me with snap := stamp }

def execSnap (g : Guard) (d : Reg) (s : State) : Out :=
  run (.snap g d) g s fun s =>
    if txState s.me.tx ≠ 0 then .operand s 0
    else
      let c := s.ver.vclock
      match s.changeSnap c with
      | none => .exhausted s 0x2806
      | some s => s.result d c false

def execSnapx (g : Guard) (a : Reg) (s : State) : Out :=
  run (.snapx g a) g s fun s =>
    if txState s.me.tx ≠ 0 then .operand s 0
    else consume s [a] fun s =>
    let x := s.gv a
    if x = 0 then
      let s := s.releaseStamp s.me.snap
      .done (s.setMe { s.me with snap := 0 })
    else if x < s.ver.vlow ∨ s.ver.vclock < x then .trap s 14 0x680B x
    else match s.changeSnap x with
      | none => .exhausted s 0x2806
      | some s => .done s

/-- TXB (R281, R249): the checks in order, and then all of it at once. -/
def execTxb (g : Guard) (s : State) : Out :=
  run (.txb g) g s fun s =>
    if txState s.me.tx ≠ 0 then .operand s 0
    else
      let c := s.ver.vclock
      match s.pickFree (s.ver.txs.map (·.1)) 4096 with
      | none => .exhausted s 0x2807
      | some (i, s1) =>
        match s1.changeSnap c with
        | none => .exhausted s 0x2806
        | some _ =>
          match s1.allocate s.myCluster 3 with
          | (none, s) => .exhausted s 0x2603
          | (some h, s2) =>
            let s3 := (s2.changeSnap c).getD s2
            let e : Tx := { rstamp := c, cstamp := 0, future := h, lines := 0, cause := 0, state := 1 }
            let s4 := s3.setTx i e
            .done (s4.setMe { s4.me with tx := txWord 1 0 i })

/-- The strand is left without a transaction or a snapshot (R253). -/
def State.clearTx (s : State) : State := s.setMe { s.me with snap := 0, tx := 0 }

def execTxc (g : Guard) (pd : Pred) (s : State) : Out :=
  run (.txc g pd) g s fun s =>
    if txState s.me.tx = 0 then .operand s 0
    else draining s s.got fun s =>
    let i := txIndex s.me.tx
    let e := s.tx i
    if e.state = 1 then
      let (c, s) := s.commitTx i
      let s := ((s.endFuture e.future 2 c).dropRef e.future).freeTx i
      .done (s.clearTx.setP pd true)
    else
      let w : Word := BitVec.ofNat 64 (0x2800 + e.cause.toNat)
      .done ((s.abortTx i 3 w).clearTx.setP pd false)

/-- TXA (R282): without a transaction it does nothing. -/
def execTxa (g : Guard) (s : State) : Out :=
  run (.txa g) g s fun s =>
    if txState s.me.tx = 0 then .done s
    else draining s s.got fun s => .done ((s.abortTx (txIndex s.me.tx) 4 0x0601).clearTx)

def execTxs (g : Guard) (d : Reg) (s : State) : Out :=
  run (.txs g d) g s fun s =>
    let t := s.me
    let h : Word := if txState t.tx = 0 then 0 else (s.tx (txIndex t.tx)).future
    let w := s.refreshTx t.tx
    (s.setMe { t with tx := w }).result d h false

end Sys2Proof.Machine
end

