-- ==== Sys2Proof/Machine/Resume.lean ====
section
/-! DEFINITION. LOAD_REPLY (R22, R109, R134): an answer reaches the strand that waits for it, and the
instruction goes on with its last answer. -/

namespace Sys2Proof.Machine

/-- The instruction that goes on with the answers its strand has got: those that wait for answers. -/
def resumeInstr (i : Instr) (s : State) : Out :=
  match i with
  | .ld g ty d a off => execLd g ty d a off s
  | .st g ty d a off => execSt g ty d a off s
  | .ldp g d a off => execLdp g d a off s
  | .stp g d a off => execStp g d a off s
  | .ldIndexed g ty d a b => execLdIndexed g ty d a b s
  | .stIndexed g ty d a b => execStIndexed g ty d a b s
  | .ldN64C16 n d a => execLdN64C16 n d a s
  | .stN64C16 n d a => execStN64C16 n d a s
  | .ldaN32 g d a => execLdaN32 g d a s
  | .ldaN64 g d a => execLdaN64 g d a s
  | .strN32 g a b => execStrN32 g a b s
  | .strN64 g a b => execStrN64 g a b s
  | .layout g l a => execLayout g l a s
  | .ldw g d a => execLdw g d a s
  | .stw g a b => execStw g a b s
  | .amo g w op d a b => execAmo g w op d a b s
  | .casN32 g d a b => execCasN32 g d a b s
  | .casN64 g d a b => execCasN64 g d a b s
  | .red g w op a b => execRed g w op a b s
  | .xclr g a => execXclr g a s
  | .xrdF32 g d a => execXrdF32 g d a s
  | .xrdF64 g d a => execXrdF64 g d a s
  | .lrw g d a => execLrw g d a s
  | .sch g pd a b => execSch g pd a b s
  | .exit g a => execExit g a s
  | .touch g d a => execTouch g d a s
  | .touchq g d a pq => execTouchq g d a pq s
  | .touchC16 n d a => execTouchC16 n d a s
  | .resolve g a b => execResolve g a b s
  | .poison g a b => execPoison g a b s
  | .cancel g a => execCancel g a s
  | .fstat g d a => execFstat g d a s
  | .fhold g a => execFhold g a s
  | .fdrop g a => execFdrop g a s
  | .bjoin g a => execBjoin g a s
  | .barv g a => execBarv g a s
  | .bleave g a => execBleave g a s
  | .bexpect g a b => execBexpect g a b s
  | .bwait g d a pq => execBwait g d a pq s
  | .fpop g d a => execFpop g d a s
  | .tld g t a b => execTld g t a b s
  | .tldi g t ti a => execTldi g t ti a s
  | .tst g t a b => execTst g t a b s
  | .tsti g t ti a => execTsti g t ti a s
  | .lgrp g f v lp a b => execLgrp g f v lp a b s
  | .tdset g k a => execTdset g k a s
  | _ => event s s

/-- The issue record of an instruction in flight. -/
def Flight.issue (f : Flight) (core slot : Nat) : Issue :=
  { core := core, slot := slot, len := f.len, mw := f.mw, word := f.word, instr := f.instr,
    pops := false }

/-- An answer reaches a strand: with the last one its instruction goes on. -/
def deliver (s : State) (r : Reply) : Out :=
  let t := s.strand r.core r.slot
  if !s.alive r.core r.slot r.inst then event s s
  else match t.flight with
    | none => event s s
    | some f =>
      if f.on ≠ .answers then event s s
      else
        let f' := { f with got := f.got ++ [(r.elem, r.ans)], out := f.out - 1 }
        let s := s.setStrand r.core r.slot { t with flight := some f' }
        if f'.out = 0 then resumeInstr f.instr { s with issue := f.issue r.core r.slot } else event s s

/-- The replies of the strands; those of an engine wait for it (log 48). -/
def execLoadReply (id : Nat) (s : State) : Out :=
  match s.replies.find? fun r => r.id == id && decide (r.slot < 1000) with
  | none => event s s
  | some r => deliver { s with replies := s.replies.filter fun x => x.id != id } r

end Sys2Proof.Machine
end

