-- ==== Sys2Proof/Machine/CoreEvents.lean ====
section
/-! DEFINITION. The events of cores and Reeves: timers (R336), store errors (R352),
binding, stealing and rings (R156 to R160), dooms, the Gleaner, pool waits, reservation
expiry (R250, R254, R255, R276), the timeout of remote requests (R386), table walks (R221), future
entries (R152), scratchpad requests (R203) and merge groups (R269). -/

namespace Sys2Proof.Machine

/-! ### Timers and store errors (R336, R352) -/

/-- TIMER_EXPIRY: the timer bit follows tcmp and the time. -/
def execTimerExpiry (core : Nat) (s : State) : Out :=
  let c := s.core core
  let w := (c.ipend &&& ~~~2) ||| (if s.timerDue c then 2 else 0)
  event s (s.setCore core { c with ipend := w })

/-- STORE_ERROR_REPORT: the first error on its way to a core (R352). -/
def execStoreErrorReport (core : Nat) (s : State) : Out :=
  event s (match s.errors.find? fun e => e.core == core with
    | some e => s.reportError e
    | none => s)

/-! ### Binding (R157) -/

def State.freeSlots (s : State) (core : Nat) : List Nat :=
  (List.range 32).filter fun k => s.slotFree core k

/-- The head that the Reeve chooses: true for the arrival queue's. -/
def Core.nextTask (c : Core) : Option (Bool × Desc) :=
  match c.arrivals.head?, c.deque.getLast? with
  | some x, some y => if x.prio < y.prio then some (false, y) else some (true, x)
  | some x, none => some (true, x)
  | none, some y => some (false, y)
  | none, none => none

/-- The chosen descriptor leaves its queue. -/
def Core.takeTask (c : Core) (arrival : Bool) : Core :=
  if arrival then { c with arrivals := c.arrivals.drop 1 } else { c with deque := c.deque.dropLast }

/-- A binding is counted, and the steal wait is 64 again (R159, R179). -/
def State.bound (s : State) (core : Nat) : State :=
  let c := (s.core core).count 0 1
  s.setCore core { c with backoff := 64, due := s.now }

/-- The rows kept for a task parked for allowance. -/
def State.keptRows (s : State) (cl idx : Nat) : Nat :=
  SMap.get (s.cluster cl).parkRows 0 idx % 65536

/-- A parked task resumes from its record, with what it keeps beside it (R135, R171; log 47); a lost record
is recorded (R155, log 45). -/
def State.bindResume (s : State) (core slot : Nat) (d : Desc) : State :=
  let cl := clusterOf core
  let idx := d.parkIndex
  let (bs, ps, s) := s.hbmRead (s.parkOff cl + 384 * idx) 384
  if ps.any id then s.record 0x8607 (0x0900 + cl) idx
  else
    let k := s.cluster cl
    let t := (s.strandOf bs).withSup (SMap.get k.parkSup {} idx)
    let kind := (bs.getD 294 0).toNat
    let len := len295 (bs.getD 295 0).toNat
    let failed : Option (Word × Word × Nat) :=
      if kind = 6 then some (leWord ((bs.drop 344).take 8), t.pc - BitVec.ofNat 64 len, len) else none
    let n := s.keptRows cl idx
    let rows : List (Word × Nat × Nat) := if kind = 4 ∧ n ≠ 0 then [(t.pc, n, s.nextId)] else []
    let s := { s.givePark cl idx with nextId := s.nextId + 1 }.moveOwner core idx (some slot)
    (s.place core slot { t with failed := failed, posted := rows }).bound core

/-- The snapshot hold that a descriptor carries is given up (R246). -/
def State.releaseDesc (s : State) (d : Desc) : State :=
  if d.ixk = 1 then s.releaseStamp (SMap.get s.ver.snaps {} d.index.toNat).stamp else s

/-- A fresh descriptor after its start request; a cancelled one is discarded (R150, R157). -/
def State.bindFresh (s : State) (core slot : Nat) (d : Desc) : State :=
  match s.startFuture d.self with
  | (true, s) => (s.place core slot (s.freshStrand d)).bound core
  | (false, s) => ((s.releaseDesc d).dropRef d.self).count core 7 1

/-- A descriptor whose tiles must come first. -/
def Desc.needsTiles (d : Desc) : Bool := !d.resume && d.tiles != 0

/-! ### Prefetches of tile arguments (R329, R330) -/

/-- The tile word's fields. -/
def tileDesc (w : Word) : Nat := bits w 36 32
def tileIndex (w : Word) : Nat := bits w 31 20
def tileOff (w : Word) : Nat := bits w 19 0

/-- Bytes of a row of a tile descriptor's shape. -/
def tileRow (shape : Word) : Nat := shapeCols shape * codeBits (shapeCode shape) / 8

/-- The bytes of a tile, to a multiple of 8. -/
def tileBytes (shape : Word) : Nat := (shapeRows shape * tileRow shape + 7) / 8 * 8

/-- The faults of a tile word (R330). -/
def tileFault (w : Word) (e : Option (BitVec 256)) : Option Code :=
  if bits w 63 37 ≠ 0 ∨ tileOff w % 8 ≠ 0 then some 0x6C01
  else match e with
    | none => some 0x6C02
    | some e =>
      let shape := e.extractLsb' 128 64
      if (codeBits (shapeCode shape) = 4 ∧ shapeCols shape % 2 = 1) ∨
          0xF0000 < tileOff w + tileBytes shape then some 0x6C01
      else none

/-- The copy of tile n of a descriptor, as the prefetch queue carries it: its descriptor entry is read as
the prefetch begins (R328). A tile that is no fault has destination words, which its acceptance empties
(R165). -/
def State.tileCopy (s : State) (core : Nat) (d : Desc) (n : Nat) : CopyCmd :=
  let w := d.carry.getD (12 + n) 0
  let e := SMap.get (s.cluster (clusterOf core)).tdesc none (tileDesc w)
  let shape := (e.getD 0).extractLsb' 128 64
  let bad := d.pois.getLsbD (12 + n)
  let words := if bad || (tileFault w e).isSome then [] else wordsOf (tileOff w) (tileBytes shape)
  { kind := 3, ops := [w], xroot := (s.core core).xroot, user := true, core := core, fut := d.self,
    emptied := words.map fun x => (core, x), pad := tileBytes shape - shapeRows shape * tileRow shape,
    tile := e, bad := bad }

/-- The code with which a tile ends its prefetch before it moves. -/
def CopyCmd.tileCode (c : CopyCmd) : Option Code :=
  if c.bad then some 0x4C03 else tileFault (c.ops.headD 0) c.tile

/-- The prefetch of a task: its descriptor, the slot held for it, and its tiles landed. -/
def Core.prefetchOf (c : Core) (self : Word) : Option (Desc × Nat × Nat) :=
  c.prefetch.find? fun x => x.1.self == self

/-- A tile of a task has landed. -/
def Core.tileLanded (c : Core) (self : Word) : Core :=
  { c with prefetch := c.prefetch.map fun x => if x.1.self = self then (x.1, x.2.1, x.2.2 + 1) else x }

/-- A prefetch is over, and the slot is no longer held for it. -/
def Core.endPrefetch (c : Core) (self : Word) : Core :=
  { c with prefetch := c.prefetch.filter fun x => x.1.self != self }

/-- A prefetch of a core ends with a fault: the task never runs. -/
def State.prefetchFault (s : State) (cl core : Nat) (d : Desc) (code : Code) (va : Nat) : State :=
  let s := s.scrFault cl 24 code va
  let s := s.setCore core ((s.core core).endPrefetch d.self)
  ((s.releaseDesc d).endFuture d.self 3 (copyFaultWord code va)).dropRef d.self

/-- A tile's copy accepted: its destination words are emptied (R165; log 49). -/
def State.tilePush (s : State) (key : Nat) (b : Block) (c : CopyCmd) : State :=
  (c.emptied.foldl (fun s x => s.setTag x.1 x.2 false) s).scrPush key b c

/-- A prefetch begins: its slot is held, and the prefetch queue carries a copy for each tile; without a
Reeve block it has failed. -/
def State.beginPrefetch (s : State) (core slot : Nat) (d : Desc) : State :=
  let cl := clusterOf core
  let r := (s.cluster cl).reeveblk
  let s := s.setCore core { s.core core with prefetch := (s.core core).prefetch ++ [(d, slot, 0)] }
  match s.block r with
  | none => (s.tryBlock r).prefetchFault cl core d 0x6C06 0
  | some b => (List.range d.tiles.toNat).foldl (fun s n =>
      s.tilePush (blockKey r) b (s.tileCopy core d n)) s

/-- The prefetch queue has room for the tiles of a descriptor, or no block, in which case they fail. -/
def State.tileRoom (s : State) (cl : Nat) (d : Desc) : Bool :=
  let r := (s.cluster cl).reeveblk
  match s.block r with
  | none => true
  | some b => decide ((s.scrQueue (blockKey r)).cmds.length + d.tiles.toNat ≤ 2 ^ b.m)

/-- The first descriptor whose tiles have all landed, with the slot held for it. -/
def Core.landed (c : Core) : Option (Nat × Desc) :=
  (c.prefetch.find? fun x => decide (x.1.tiles.toNat ≤ x.2.2)).map fun x => (x.2.1, x.1)

/-- The Reeve may bind to a core: it has started, is not held, its cluster is not fenced (R346, R406). -/
def State.binds (s : State) (core : Nat) : Bool :=
  let c := s.core core
  c.started && !c.cctl.getLsbD 0 && s.drainState (clusterOf core) != 3

/-- The task that can be taken for a free slot of a core now; one with tiles waits for room in the prefetch
queue. -/
def State.bindable (s : State) (core : Nat) : Option (Bool × Desc) :=
  let c := s.core core
  if !s.binds core || (s.freeSlots core).isEmpty then none
  else match c.nextTask with
    | some (a, d) =>
      if d.needsTiles && !s.tileRoom (clusterOf core) d then none else some (a, d)
    | none => none

/-- The next task of a core is bound, or its prefetch begins. -/
def State.bindNext (s : State) (core : Nat) : State :=
  match s.bindable core with
  | none => s
  | some (a, d) =>
    let free := s.freeSlots core
    let (i, s) := s.choose free.length
    let slot := free.getD i 0
    let s := s.setCore core ((s.core core).takeTask a)
    if d.needsTiles then s.beginPrefetch core slot d
    else if d.resume then s.bindResume core slot d
    else s.bindFresh core slot d

/-- What the Reeve does for a core: the task whose tiles have landed takes the slot held for it, unless
the core is held (R346); otherwise the next task is taken. -/
def State.bind (s : State) (core : Nat) : State :=
  match (s.core core).landed with
  | some (slot, d) =>
    if s.binds core then (s.setCore core ((s.core core).endPrefetch d.self)).bindFresh core slot d
    else s
  | none => s.bindNext core

def execBindTask (core : Nat) (s : State) : Out := event s (s.bind core)

/-! ### Stealing (R159, R160) -/

/-- The victim of probe j, from 1 to 12. -/
def victim (core j : Nat) (z : Word) : Nat :=
  let z := z.toNat
  let skip := fun (self k : Nat) => if k < self then k else k + 1
  if j ≤ 4 then 24 * clusterOf core + skip (core % 24) (z % 23)
  else if j ≤ 8 then
    let cl := clusterOf core
    24 * (24 * dieOf cl + skip (cl % 24) (z % 23)) + z / 2 ^ 8 % 24
  else 24 * (24 * skip (dieOf (clusterOf core)) (z % 3) + z / 2 ^ 8 % 24) + z / 2 ^ 16 % 24

/-- Entries a probe takes. -/
def takeCount (j : Nat) (l : List Desc) : Nat :=
  let half := (l.length + 1) / 2
  if j ≤ 8 then half else min half (l.takeWhile fun d => d.mig).length

/-- The probes of a round from number j on, with fuel; true when one succeeds. -/
def State.probes (s : State) (core : Nat) : Nat → Nat → Bool × State
  | 0, _ => (false, s)
  | n + 1, j =>
    let c := s.core core
    let z := mix64 (c.probe ^^^ BitVec.ofNat 64 (core * 2 ^ 32))
    let s := s.setCore core ({ c with probe := c.probe + 1 }.count 8 1)
    let v := victim core j z
    let x := s.core v
    let k := if s.drainState (clusterOf v) = 3 then 0 else takeCount j x.deque
    if k = 0 then s.probes core n (j + 1)
    else
      let s := s.setCore v ({ x with deque := x.deque.drop k }.count 10 k)
      let c := s.core core
      (true, s.setCore core ({ c with deque := x.deque.take k }.count 9 k))

/-- A core runs a steal round when it is idle, its wait is over and its cluster is open. -/
def State.mayStealNow (s : State) (core : Nat) : Bool :=
  let c := s.core core
  c.started && !c.cctl.getLsbD 0 && c.deque.isEmpty && c.arrivals.isEmpty && c.dqFill == 0 &&
    c.arFill == 0 && decide (c.due ≤ s.now) && s.drainState (clusterOf core) == 0 &&
    !(s.freeSlots core).isEmpty

def State.stealRound (s : State) (core : Nat) : State :=
  if !s.mayStealNow core then s
  else match s.probes core 12 1 with
    | (true, s) => s
    | (false, s) =>
      let c := s.core core
      s.setCore core { c with due := s.now + c.backoff, backoff := min (2 * c.backoff) 4096 }

def execStealRound (core : Nat) (s : State) : Out := event s (s.stealRound core)

/-! ### Rings (R156) -/

/-- Entries move back from the deque ring, newest first, with fuel. -/
def State.refillDeque (s : State) (core : Nat) : Nat → State
  | 0 => s
  | n + 1 =>
    let c := s.core core
    if c.dqFill = 0 ∨ 32 ≤ c.deque.length then s
    else
      let (d, s) := s.ringGet core c.dqring (c.dqFill - 1)
      let c := s.core core
      let c := { c with dqFill := c.dqFill - 1 }
      let c := match d with
        | some d => { c with deque := d :: c.deque }.count 3 1
        | none => c
      (s.setCore core c).refillDeque core n

def execDequeRefill (core : Nat) (s : State) : Out :=
  event s (if (s.core core).deque.length ≤ 16 then s.refillDeque core 65536 else s)

/-- The arrival ring's head moves to the arrival queue. -/
def State.refillArrivals (s : State) (core : Nat) : State :=
  let c := s.core core
  if c.arFill = 0 ∨ 64 ≤ c.arrivals.length then s
  else
    let (d, s) := s.ringGet core c.arring c.arHead
    let c := s.core core
    let c := { c with arFill := c.arFill - 1, arHead := (c.arHead + 1) % ringSize c.arring }
    s.setCore core (match d with
      | some d => { c with arrivals := c.arrivals ++ [d] }
      | none => c)

def execArrivalRefill (core : Nat) (s : State) : Out := event s (s.refillArrivals core)

/-- A refused arrival is resent. -/
def State.resendArrival (s : State) (core : Nat) : State :=
  let c := s.core core
  match c.resend with
  | d :: rest => if c.arrivalRoom then (s.setCore core { c with resend := rest }).arrive core d else s
  | [] => s

def execArrivalResend (core : Nat) (s : State) : Out := event s (s.resendArrival core)

/-! ### Versioned memory (R250, R254, R255) -/

/-- The strand of a transaction, if it is bound. -/
def State.ownerOfTx (s : State) (i : Nat) : Option (Nat × Nat) :=
  s.cores.findSome? fun x => (x.2.strands.find? fun y =>
    y.2.st != .free && txState y.2.tx != 0 && txIndex y.2.tx == i).map fun y => (x.1, y.1)

/-- DOOM_NOTICE (R250): sr.tx is refreshed; a task not bound is refreshed when it is (R257). -/
def execDoomNotice (index : Nat) (s : State) : Out :=
  if !s.ver.notices.contains index then event s s
  else
    let s := { s with ver := { s.ver with notices := s.ver.notices.filter (· != index) } }
    event s (match s.ownerOfTx index with
      | some (c, k) =>
        let t := s.strand c k
        s.setStrand c k { t with tx := s.refreshTx t.tx }
      | none => s)

def execGleanerVisit (line : Nat) (s : State) : Out := event s (s.glean line)

/-- POOL_WAIT_TIMEOUT (R255): 65,536 cycles. -/
def State.poolLate (s : State) (r : Req) : Bool :=
  match r.pool with
  | some t => decide (t + 65536 ≤ s.now)
  | none => false

/-- The wait is over: no entry has been freed for the write in that time. -/
def State.poolOver (s : State) (r : Req) : Bool := s.poolLate r && !s.poolTurn r

def execPoolWaitTimeout (id : Nat) (s : State) : Out :=
  event s (match s.reqs.find? fun r => r.id == id with
    | some r => if s.poolOver r then s.answerReq r (.trap 14 0x4809 r.ea) else s
    | none => s)

/-! ### Reservations (R276) -/

/-- The record of a line held for 16,384 cycles. -/
def State.expired (s : State) (line : Nat) : Option Resv :=
  match s.resv.find? fun r => r.line == line with
  | some r => match r.granted with
    | some t => if s.ownLine line ∧ t + 16384 ≤ s.now then some r else none
    | none => none
  | none => none

def execReservationExpiry (line : Nat) (s : State) : Out :=
  event s (match s.expired line with
    | some r => (({ s with resv := s.resv.erase r }).tally 0x0902).grant line
    | none => s)

/-! ### Remote requests without an answer (R386) -/

/-- The outcome of a remote access that has failed: the value is free, its poison is set. That of a request that
may have chained a token differs in form from the answer of its port (log 42). -/
def State.failedAnswer (s : State) (r : Req) : Answer :=
  let v := Config.freeWord s.fresh
  match r.op with
  | .load | .xrd | .ldw =>
    let ws := (List.range ((r.size + 7) / 8)).flatMap fun i =>
      leBytes 8 (Config.freeWord (s.fresh + i)).toNat
    .data (ws.take r.size) ((wordsOf r.addr r.size).map fun _ => true)
  | .write .. => .trap 16 0x6A04 r.ea
  | .future 2 .. | .future 3 .. | .barrier 18 .. => .trap 11 0x6A04 0x6A04
  | .future .. | .barrier .. | .members _ | .member .. => .word 0x6A04 true
  | _ => .word v true

/-- The code recorded with it; that of a write is recorded with its store error. -/
def failedCode : ReqOp → Option Code
  | .load | .xrd | .ldw => some 0x4A03
  | .write .. => none
  | _ => some 0x6A04

/-- A remote request ends without success. -/
def State.failReq (s : State) (r : Req) : State :=
  let a := s.failedAnswer r
  let s := { s with fresh := s.fresh + 32 }.finishReq r a
  match failedCode r.op with
  | some c => s.record c 0xFFFF 0
  | none => s

/-- 1,048,576 ns have passed since a packet was sent. -/
def State.lateSince (s : State) (sent : Option (Nat × Nat × Nat)) : Bool :=
  match sent with
  | some x => decide (x.2.2 + 4 * 1048576 ≤ s.now)
  | none => false

/-- A remote posted store ends with an error. -/
def State.failStore (s : State) (core : Nat) (e : WbEntry) (code : Code) : State :=
  (s.storeError core e.slot e.inst code e.ea).accepted core e.id

def execRemoteRequestTimeout (id : Nat) (s : State) : Out :=
  event s (match s.reqs.find? fun r => r.id == id with
    | some r => if s.lateSince r.sent then s.failReq r else s
    | none => match s.findStore id with
      | some (c, e) => if s.lateSince e.sent then s.failStore c e 0x6A04 else s
      | none => s)

/-! ### Walks (R221) and future entries (R152) -/

/-- An outcome reaches a strand that waits for it, under the key of its context and granule. -/
def State.deliverWalk (s : State) (ctx : BitVec 12) (g : Nat) (w : WalkOut) (who : Nat × Nat × Nat) :
    State :=
  let (c, k, i) := who
  if !s.alive c k i then s
  else
    let t := s.strand c k
    let key := walkKey ctx g
    let t := { t with walked := (key, w) :: t.walked.filter fun x => x.1 != key }
    let mine := t.st == .waiting && t.fetchWait == some g
    s.setStrand c k (if mine then { t with st := .ready, fetchWait := none } else t)

/-- The core whose context a leaf belongs to caches it (R220). -/
def State.cacheLeaf (s : State) (ctx : BitVec 12) (g : Nat) (l : Leaf) (core : Nat) : State :=
  s.setCore core ((s.core core).tlbFill ctx g l s.now)

def execTableWalkComplete (cluster : Nat) (ctx : BitVec 12) (granule : BitVec 40) (s : State) : Out :=
  let k := s.cluster cluster
  let g := granule.toNat
  match k.walks.find? fun w => w.ctx == ctx && w.granule == g with
  | none => event s s
  | some w =>
    let s := s.setCluster cluster ({ k with walks := k.walks.erase w }).serveWalks
    let (out, s) := s.walkRoot cluster w.root (g * 2 ^ 16)
    let s := w.waiters.foldl (fun s x => s.deliverWalk ctx g out x) s
    event s (match out with
      | .leaf l =>
        let s := if w.stale then s else w.cores.foldl (fun s c => s.cacheLeaf ctx g l c) s
        w.prefs.foldl (fun s x => s.prefetchLine l x.va x.sup) s
      | .fault _ => s)

/-- FUTURE_ENTRY_FILL: a logical entry is made resident (R152, log 35), where the cluster has a table (R338). -/
def execFutureEntryFill (cluster slot : Nat) (s : State) : Out :=
  event s (if s.futBase cluster = 0 then s else (s.fill cluster slot).2)

/-! ### Scratchpads and merge groups (R203, R224, R269) -/

/-- What follows the serving of a request. -/
def Served.apply (x : Served) (r : Req) : State :=
  match x with
  | .answer a s => s.answerReq r a
  | .stay s => s

/-- A store of the own module, when it is the first of its bank. -/
def State.storeEvent (s : State) (id : Nat) (here : Place → Bool) : State :=
  match s.findStore id with
  | some (c, e) => if here e.place && s.applicable c e then s.applyStore c e else s
  | none => s

def Place.isSpad : Place → Bool
  | .spad _ => true
  | _ => false

def execScratchpadRequest (id : Nat) (s : State) : Out :=
  event s (match s.reqs.find? fun r => r.id == id with
    | some r => match r.place with
      | .spad c => (s.serveSpad c r).apply r
      | _ => s
    | none => s.storeEvent id Place.isSpad)

def execRedMergeGroupApply (id : Nat) (s : State) : Out :=
  event s (match s.groups.find? fun g => g.id == id with
    | some g => s.applyGroup g
    | none => s)

end Sys2Proof.Machine
end

