-- ==== Sys2Proof/Machine/EngineMem.lean ====
section
/-! DEFINITION. How the engines reach memory (R218, R220, R295, R322): leaves in a command's own
context, and the words of a row. -/

namespace Sys2Proof.Machine

/-- The outcome of translating an address in a command's context: a leaf the core has cached, or a
fresh walk; where both are possible the choice is free (R222, log 3). -/
def State.engLeaf (s : State) (core : Nat) (root : Word) (va : Nat) : WalkOut × State :=
  match (s.core core).tlb.find? fun e => e.covers (rootCtx root) (va / 2 ^ 16) with
  | some e =>
    let (n, s) := s.choose 2
    if rootEn root && n == 0 then (.leaf e.leaf, s) else s.walkRoot (clusterOf core) root va
  | none => s.walkRoot (clusterOf core) root va

/-! ### Words that an engine waits for (R166, R167) -/

/-- The context a command runs in, and the engine's name in requests: queue and command. -/
structure CopyCtx where
  core : Nat
  xroot : Word
  user : Bool
  cl : Nat
  q : Nat
  id : Nat

/-- The slot number that stands for the engine in requests and replies. -/
def engineSlot (q : Nat) : Nat := 1000 + q

def CopyCtx.mine (x : CopyCtx) (core slot inst : Nat) : Bool :=
  core == 24 * x.cl && slot == engineSlot x.q && inst == x.id

/-- The answer a request of the command has got. -/
def State.engineGot (s : State) (x : CopyCtx) (elem : Nat) : Option Answer :=
  (s.replies.find? fun r => x.mine r.core r.slot r.inst && r.elem == elem).map (·.ans)

/-- A request of the command, once: at another module, or at a scratchpad, where it takes its place among
those that wait on the tag (R167). -/
def State.engineAsk (s : State) (x : CopyCtx) (elem : Nat) (op : ReqOp) (place : Place)
    (addr pa va n : Nat) (ver : Bool) : State :=
  if s.reqs.any fun r => x.mine r.core r.slot r.inst && r.elem == elem then s
  else
    let since := match place with
      | .spad _ => s.nextId
      | _ => 0
    let r : Req :=
      { id := s.nextId, core := 24 * x.cl, slot := engineSlot x.q, inst := x.id, elem := elem,
        place := place, op := op, addr := addr, pa := pa, ea := BitVec.ofNat 64 va,
        size := n, ver := ver, snap := 0, tx := 0, oflag := false, since := since, cyc := s.now,
        pool := none, sent := none, pkt := none }
    let s := { s with nextId := s.nextId + 1, reqs := s.reqs ++ [r] }
    s.sendReq r

/-- A request of the command to another module. -/
def State.engineAskFar (s : State) (x : CopyCtx) (elem : Nat) (op : ReqOp) (ver : Bool)
    (pa va n : Nat) : State :=
  s.engineAsk x elem op (s.placeOf pa) (paOffset pa) pa va n ver

/-- A read of a scratchpad word for the command, which waits for its tag and its turn. -/
def State.engineAskSpad (s : State) (x : CopyCtx) (elem core off va n : Nat) : State :=
  s.engineAsk x elem .load (.spad core) off 0 va n false

/-- The answers of a finished command are taken away. -/
def State.dropAnswers (s : State) (x : CopyCtx) : State :=
  { s with replies := s.replies.filter fun r => !x.mine r.core r.slot r.inst }

/-- The command's requests at scratchpads are taken back, with the answers it has got. -/
def State.withdrawAsks (s : State) (x : CopyCtx) : State :=
  { s.dropAnswers x with reqs := s.reqs.filter fun r => !x.mine r.core r.slot r.inst }

/-- The Loom's name in requests. -/
def loomCtx (core : Nat) : CopyCtx := ⟨core, 0, false, core, loomSlot - 1000, 0⟩

/-- The value of an answer to a read. -/
def answerVal : Answer → Nat × Bool
  | .data bs ps => (leNat bs, ps.any id)
  | .word v p => (v.toNat, p)
  | _ => (0, true)

/-! ### Rows -/

/-- The aligned 8-byte words that `n` bytes from `ea` touch. -/
def alignedWords (ea n : Nat) : List Nat := (wordsOf ea n).map (8 * ·)

/-- Where an engine finds a word: its place, or the code of its fault. -/
inductive EngSpot where
  | spad (core off : Nat)
  | glob (l : Leaf) (pa : Nat)
  | fault (c : Code)
  deriving DecidableEq, Repr

/-- The first and the last byte of a row within an aligned word. -/
def wordLo (ea wa : Nat) : Nat := max ea wa
def wordHi (ea n wa : Nat) : Nat := min (ea + n - 1) (wa + 7)

/-- A word stays in the region of the row's first byte, and in its core's image (R312). -/
def sameRegion (core : Nat) (ea : Word) (b : Nat) : Bool :=
  match regionOf core ea, regionOf core (BitVec.ofNat 64 b) with
  | .global, .global => decide (b < 2 ^ 64)
  | .spad c _, .spad d _ => c == d && decide (b < 2 ^ 64)
  | _, _ => false

/-- The scratchpad bytes of a word lie in the reserved area. -/
def wordReserved (core : Nat) (b : Nat) : Bool :=
  match regionOf core (BitVec.ofNat 64 b) with
  | .spad _ o => inReserved o 1
  | _ => false

/-- A PA whose stack has failed (R404). -/
def State.stackFailed (s : State) (pa : Nat) : Bool :=
  (s.stack (portStack (homePort (paOffset pa)))).state == 2

/-- The rules of R295 and R312 on one word of a row. -/
def State.loomSpot (s : State) (c : LoomCmd) (need : Need) (ea : Word) (n wa : Nat) :
    EngSpot × State :=
  let lo := wordLo ea.toNat wa
  let hi := wordHi ea.toNat n wa
  if !sameRegion c.core ea lo || !sameRegion c.core ea hi || (c.user && wordReserved c.core hi) then
    (.fault 0x6B07, s)
  else match regionOf c.core (BitVec.ofNat 64 lo) with
    | .spad k o => (.spad k o, s)
    | .trap => (.fault 0x6B07, s)
    | .global =>
      match s.engLeaf c.core c.xroot lo with
      | (.fault f, s) => (.fault f, s)
      | (.leaf l, s) =>
        let pa := l.paOf lo
        if !l.permits need (!c.user) then (.fault 0x2702, s)
        else if !s.ownHbm pa then (.fault 0x6B06, s)
        else if s.stackFailed pa then (.fault 0x6704, s)
        else (.glob l pa, s)

/-- A word of a row: its first byte, its bytes in the row, where it lies. -/
structure RowWord where
  wa : Nat
  lo : Nat
  n : Nat
  spot : EngSpot
  deriving DecidableEq, Repr

/-- The words of a row up to the first that fails. -/
def State.loomRow (s : State) (c : LoomCmd) (need : Need) (ea : Word) (n : Nat) :
    List Nat → List RowWord × Option (Code × Nat) × State
  | [] => ([], none, s)
  | wa :: r =>
    match s.loomSpot c need ea n wa with
    | (.fault f, s) => ([], some (f, wa), s)
    | (x, s) =>
      let lo := wordLo ea.toNat wa
      let w : RowWord := ⟨wa, lo, wordHi ea.toNat n wa + 1 - lo, x⟩
      let (ws, f, s) := s.loomRow c need ea n r
      (w :: ws, f, s)

/-- The check bits of the tags of a row's scratchpad words, as its reads meet them (R202). -/
def State.checkRowWord (s : State) (w : RowWord) : State :=
  match w.spot with
  | .spad c o => s.checkTag c (o / 8)
  | _ => s

/-- A word of a row read: its bytes and its poison. One that the sequencer has waited for is read as its
scratchpad gave it. -/
def State.readRowWord (s : State) (core : Nat) (w : RowWord) : List Byte × Bool × State :=
  match w.spot with
  | .spad c o =>
    match s.engineGot (loomCtx core) w.lo with
    | some a => (leBytes w.n (answerVal a).1, (answerVal a).2, s)
    | none =>
      let (bs, ps, s) := s.readSpad c o w.n
      (bs, ps.any id, s)
  | .glob l pa =>
    let o := paOffset pa
    let (bs, ps, s) := (s.flushLine o).portRead o w.n l.ver 0 0
    (bs, ps.any id, s)
  | .fault _ => ([], false, s)

/-- A scratchpad word whose tag is empty, or whose turn it is not, and that has not come: the sequencer
waits for it (R166, R167). -/
def State.rowWaits (s : State) (core : Nat) (w : RowWord) : Bool :=
  match w.spot with
  | .spad c o => !s.tagsAllow c [o / 8] true s.nextId && (s.engineGot (loomCtx core) w.lo).isNone
  | _ => false

/-- The sequencer asks for a word it waits for. -/
def State.askRowWord (s : State) (core : Nat) (w : RowWord) : State :=
  match w.spot with
  | .spad c o => s.engineAskSpad (loomCtx core) w.lo c o w.lo w.n
  | _ => s

/-- The outcome of reading a row. -/
inductive RowRead where
  | ok (bytes : List Byte) (s : State)
  | fault (c : Code) (va : Nat) (s : State)
  /-- words that must come first -/
  | wait (ws : List RowWord)

/-- The words read in order, until one is poisoned. -/
def State.readWords (s : State) (core : Nat) (acc : List Byte) :
    List RowWord → List Byte × Option Nat × State
  | [] => (acc, none, s)
  | w :: r =>
    let (bs, p, s) := s.readRowWord core w
    if p then (acc, some w.wa, s) else s.readWords core (acc ++ bs) r

/-- A row read for a Loom command (R295, R312): no word is read before every word has been found to lie
where a row may. -/
def State.readRow (s : State) (c : LoomCmd) (ea : Word) (n : Nat) : RowRead :=
  match s.loomRow c .read ea n (alignedWords ea.toNat n) with
  | (_, some (f, va), s) => .fault f va s
  | (ws, none, s) =>
    let s := ws.foldl State.checkRowWord s
    match ws.filter (s.rowWaits c.core) with
    | [] => match s.readWords c.core [] ws with
      | (_, some va, s) => .fault 0x4B05 va s
      | (bs, none, s) => .ok bs s
    | l => .wait l

/-- A word of an output row written; a scratchpad word takes poison 0 and keeps its tag (R295). One
written in part keeps the poison of an error that its merge has just found (R202; log 47). -/
def State.writeRowWord (s : State) (w : RowWord) (bs : List Byte) : State :=
  match w.spot with
  | .spad c o => (s.setSpadPois c (o / 8) false).writeSpad c o bs [false]
  | .glob _ pa =>
    let o := paOffset pa
    (((s.flushLine o).cacheAccess o).engineTouch o).writeHbm o bs
  | .fault _ => s

/-- The bytes of a row written word by word. -/
def State.writeWords (s : State) (bs : List Byte) : List RowWord → State
  | [] => s
  | w :: r => (s.writeRowWord w (bs.take w.n)).writeWords (bs.drop w.n) r

/-- An output row written whole, or the first word that fails. -/
def State.writeRow (s : State) (c : LoomCmd) (ea : Word) (bs : List Byte) :
    Option (Code × Nat) × State :=
  let (ws, f, s) := s.loomRow c .write ea bs.length (alignedWords ea.toNat bs.length)
  match f with
  | some x => (some x, s)
  | none => (none, s.writeWords bs ws)

/-- The first of some words that lies on a V page, whatever else its access would meet (R256, R308). -/
def State.firstOnV (s : State) (core : Nat) (root : Word) : List Nat → Option Nat × State
  | [] => (none, s)
  | wa :: r =>
    match regionOf core (BitVec.ofNat 64 wa) with
    | .global =>
      match s.engLeaf core root wa with
      | (.leaf l, s) => if l.ver then (some wa, s) else s.firstOnV core root r
      | (.fault _, s) => s.firstOnV core root r
    | _ => s.firstOnV core root r

end Sys2Proof.Machine
end

