-- ==== Sys2Proof/Machine/Loom.lean ====
section
/-! DEFINITION. The Loom's sequencer (R289 to R291, R301 to R309, R312 to R314, R348): its commands,
faults, markers and pauses. Each command is one event (log 16). -/

namespace Sys2Proof

/-- The number format of a Loom format. -/
def LoomFmt.fmt : LoomFmt → Fmt
  | .f64 => .f64 | .f32 => .f32 | .bf16 => .bf16 | .f16 => .f16
  | .f8e4 => .f8e4 | .f8e5 => .f8e5 | .i8 => .i8 | .f4 => .f4

end Sys2Proof

namespace Sys2Proof.Machine

/-! ### Rows and values (R290, R291) -/

/-- Bytes of a row as read: the elements, and the scale byte of a narrow format. -/
def rowLen (f : LoomFmt) : Nat := rowBytesOf f + (if narrowLoom f then 1 else 0)

def modeOf (f : LoomFmt) : VatMode := if f = .f64 then .x else .l

/-- The values of a row from its element data and its scale byte. -/
def rowVals (f : LoomFmt) (data : Nat) (scale : Byte) : List Val :=
  (List.range 32).map fun i =>
    let raw := data / 2 ^ (i * loomBits f) % 2 ^ loomBits f
    if narrowLoom f then f.fmt.scaled scale raw else f.fmt.value raw

/-- The values of a row of bytes. -/
def bytesVals (f : LoomFmt) (bs : List Byte) : List Val :=
  rowVals f (leNat (bs.take (rowBytesOf f))) (bs.getD (rowBytesOf f) 127)

/-- Row k of a plane. -/
def Plane.vals (p : Plane) (k : Nat) : List Val :=
  rowVals p.fmt (SMap.get p.rows 0 k).toNat (SMap.get p.scales 0 k)

/-- A term added to a vat element (R82, R85). -/
def addTerm (m : VatMode) (a : Nat) (t : Val) : Nat := if m = .x then addX192 a t else addL640 a t

/-- A term added to every element of some vat rows, from row `base` on. -/
def Vat.add (v : Vat) (m : VatMode) (base rows : Nat) (t : Nat → Nat → Val) : Vat :=
  { mode := m,
    elems := (List.range 1024).filterMap fun e =>
      let a := SMap.get v.elems 0 e
      let i := e / 32
      let y := if base ≤ i ∧ i < base + rows then addTerm m a (t (i - base) (e % 32)) else a
      if y = 0 then none else some (e, y) }

/-- The products of a weft row and a warp row (R291). -/
def products (x w : List Val) (i j : Nat) : Val := (x.getD i .nan).mul (w.getD j .nan)

/-! ### Running a command -/

/-- Where a command stops: code (0 for a pause), group, row, and the address of R313. -/
structure LStop where
  code : Code
  g : Nat
  k : Nat
  va : Nat
  deriving DecidableEq, Repr

/-- The outcome of running a command: done, stopped, or waiting for words of a row. -/
inductive LRes where
  | done (s : State)
  | stop (s : State) (x : LStop)
  | wait (ws : List RowWord) (s : State) (g k : Nat)

def State.loom (s : State) (core : Nat) : Loom := (s.core core).loom

def State.putLoom (s : State) (core : Nat) (m : Loom) : State :=
  s.setCore core { s.core core with loom := m }

def State.putVat (s : State) (core v : Nat) (x : Vat) : State :=
  let m := s.loom core
  s.putLoom core (if v = 0 then { m with v0 := x } else { m with v1 := x })

/-- The rows of one stretch of a command: `n` rows from row `k` of group `g`, at most `b` of them;
`ea` gives a row's address, `len` its bytes, `act` applies it. -/
def loomRows (c : LoomCmd) (g len : Nat) (ea : Nat → Word) (act : State → Nat → List Byte → State) :
    Nat → Nat → Option Nat → State → LRes × Option Nat
  | 0, _, b, s => (.done s, b)
  | n + 1, k, b, s =>
    if b = some 0 then (.stop s ⟨0, g, k, 0⟩, b)
    else match s.readRow c (ea k) len with
      | .wait ws => (.wait ws s g k, b)
      | .fault f va s => (.stop s ⟨f, g, k, va⟩, b)
      | .ok bs s => loomRows c g len ea act n (k + 1) (b.map (· - 1)) (act s k bs)

/-- Address of row k. -/
def rowAt (a st : Word) (k : Nat) : Word := a + BitVec.ofNat 64 k * st

/-- The count of rows a command runs: its own, or that of lcN (R299). -/
def State.rowCount (s : State) (core : Nat) (lp : Option (BitVec 3)) (rows : Nat) : Nat :=
  match lp with
  | some n => bits (SMap.get (s.loom core).lc 0 n.toNat) 15 0
  | none => rows

/-- A fault before any access. -/
def early (s : State) (c : Code) (g : Nat) : LRes := .stop s ⟨c, g, 0, 0⟩

/-- A row of the shadow plane loaded. -/
def State.loadShadow (s : State) (core : Nat) (f : LoomFmt) (k : Nat) (bs : List Byte) : State :=
  let m := s.loom core
  let p := m.shadow
  let n := rowBytesOf f
  let scales := if narrowLoom f then SMap.put p.scales 0 k (bs.getD n 0) else p.scales
  let rows := SMap.put p.rows 0 k (BitVec.ofNat 2048 (leNat (bs.take n)))
  s.putLoom core { m with shadow := { p with rows := rows, scales := scales, count := k + 1 } }

/-- WLD (R301) from row k on. -/
def runWld (s : State) (c : LoomCmd) (f : LoomFmt) (lp : Option (BitVec 3)) (k : Nat)
    (b : Option Nat) : LRes :=
  let n := s.rowCount c.core lp (geoRows c.b)
  if loomDepth f < n then early s 0x6B04 0
  else
    let m := s.loom c.core
    let count := if n = 0 then 0 else m.shadow.count
    let s := s.putLoom c.core { m with shadow := { m.shadow with fmt := f, count := count } }
    (loomRows c 0 (rowLen f) (rowAt c.a (geoStride c.b)) (fun s k bs => s.loadShadow c.core f k bs)
      (n - k) k b s).1

/-- A vat of a mode other than the command's. -/
def Vat.clashes (v : Vat) (m : VatMode) : Bool := v.mode != .none && v.mode != m

/-- WEFT (R304) from row k on. -/
def runWeft (s : State) (c : LoomCmd) (f : LoomFmt) (v : Nat) (lp : Option (BitVec 3)) (k : Nat)
    (b : Option Nat) : LRes :=
  let n := s.rowCount c.core lp (geoRows c.b)
  let m := s.loom c.core
  if loomDepth f < n then early s 0x6B04 0
  else if f ≠ m.warp.fmt ∧ 0 < n then early s 0x6B01 0
  else if m.warp.count < n then early s 0x6B02 0
  else if (m.vat v).clashes (modeOf f) then early s 0x6B03 0
  else
    let act := fun (s : State) (k : Nat) (bs : List Byte) =>
      let x := bytesVals f bs
      let w := (s.loom c.core).warp.vals k
      s.putVat c.core v (((s.loom c.core).vat v).add (modeOf f) 0 32 (products x w))
    (loomRows c 0 (rowLen f) (rowAt c.a (geoStride c.b)) act (n - k) k b s).1

/-- VADD (R305) from row k on: the vat's mode chooses the format. -/
def runVadd (s : State) (c : LoomCmd) (v k : Nat) (b : Option Nat) : LRes :=
  let f : LoomFmt := if ((s.loom c.core).vat v).mode = .l then .f32 else .f64
  let act := fun (s : State) (k : Nat) (bs : List Byte) =>
    let x := bytesVals f bs
    s.putVat c.core v (((s.loom c.core).vat v).add (modeOf f) k 1 (fun _ j => x.getD j .nan))
  (loomRows c 0 (rowBytesOf f) (rowAt c.a (BitVec.ofNat 64 (rowBytesOf f))) act (32 - k) k b s).1

/-- The groups of LGRP from number g on (R306): `k` is the first row of the first of them. -/
def runGroups (c : LoomCmd) (f : LoomFmt) (v : Nat) :
    List (Word × Word) → Nat → Nat → Nat → Option Nat → State → LRes
  | [], _, _, _, _, s => .done s
  | x :: r, g, k, base, b, s =>
    let rows := grpRows x
    if rows = 0 then runGroups c f v r (g + 1) 0 base b s
    else if (s.loom c.core).warp.count < grpW0 x + grpK x then early s 0x6B02 g
    else
      let act := fun (s : State) (k : Nat) (bs : List Byte) =>
        let w := (s.loom c.core).warp.vals (grpW0 x + k)
        s.putVat c.core v (((s.loom c.core).vat v).add (modeOf f) base rows (products (bytesVals f bs) w))
      match loomRows c g (rowLen f) (rowAt x.1 (grpStride x)) act (grpK x - k) k b s with
      | (.done s, b) => runGroups c f v r (g + 1) 0 (base + rows) b s
      | (e, _) => e

def runLgrp (s : State) (c : LoomCmd) (f : LoomFmt) (v : Nat) (lp : Option (BitVec 3)) (g k : Nat)
    (b : Option Nat) : LRes :=
  let n := s.rowCount c.core lp c.groups.length
  let gs := c.groups.take n
  let m := s.loom c.core
  if 32 < n then early s 0x6B04 0
  else if f ≠ m.warp.fmt ∧ gs.any (fun x => grpRows x != 0 && grpK x != 0) then early s 0x6B01 0
  else if (m.vat v).clashes (modeOf f) then early s 0x6B03 0
  else
    let base := ((gs.take g).map grpRows).foldl (· + ·) 0
    runGroups c f v (gs.drop g) g k base b s

/-- LLOOP (R307). -/
def runLloop (s : State) (c : LoomCmd) (k : Nat) : LRes :=
  match s.readRow c c.a 8 with
  | .wait ws => .wait ws s 0 0
  | .fault f va s => .stop s ⟨f, 0, 0, va⟩
  | .ok bs s =>
    let w := leWord bs
    if bits w 63 16 ≠ 0 then .stop s ⟨0x6B04, 0, 0, c.a.toNat⟩
    else
      let m := s.loom c.core
      .done (s.putLoom c.core { m with lc := SMap.put m.lc 0 k w })

/-! ### VRD (R308) -/

/-- A row's values as read out: scaled (R83, R85). -/
def Vat.readOut (v : Vat) (row rm : Nat) (scale : BitVec 6) : List Val :=
  (List.range 32).map fun j =>
    let a := SMap.get v.elems 0 (32 * row + j)
    (if v.mode = .x then x192Out a rm else l640Val a rm).scale scale.toInt

/-- The bytes of an output row; code 6 writes i64. -/
def outRow (f : LoomFmt) (rm : Nat) (clamp : Bool) (xs : List (Val × Word)) : List Byte :=
  if f = .i8 then xs.flatMap fun x => leBytes 8 (convert x.1 false .i64 rm clamp 0 x.2)
  else if narrowLoom f then
    let (e, ys) := f.fmt.block rm xs
    leBytes (rowBytesOf f) (packElems (loomBits f) 0 ys) ++ [e]
  else xs.flatMap fun x => leBytes (loomBits f / 8) (f.fmt.round rm clamp x.2 x.1)

/-- Output row t of a VRD. -/
def State.vrdRow (s : State) (c : LoomCmd) (f : LoomFmt) (v t : Nat) : List Byte :=
  let m : MW := c.mw.getD ⟨0, 0, 0, 0, false, false, false, false, false, 0⟩
  let rm := m.rm.toNat
  let xs := ((s.loom c.core).vat v).readOut (geoRow0 c.b + t) rm m.scale
  outRow f rm m.clamp ((List.range 32).map fun j =>
    (xs.getD j .nan, drawAt c.seed (c.rctr + BitVec.ofNat 64 (32 * t + j))))

/-- Bytes of an output row. -/
def outLen (f : LoomFmt) : Nat := if f = .i8 then 256 else rowLen f

/-- The words that the output rows from k on would write. -/
def vrdWords (c : LoomCmd) (f : LoomFmt) (n k : Nat) : List Nat :=
  (List.range n).flatMap fun i =>
    alignedWords (rowAt c.a (geoStride c.b) (k + i)).toNat (outLen f)

/-- The output rows from row k on. -/
def vrdRows (c : LoomCmd) (f : LoomFmt) (v : Nat) : Nat → Nat → Option Nat → State → LRes
  | 0, _, _, s => .done s
  | n + 1, k, b, s =>
    if b = some 0 then .stop s ⟨0, 0, k, 0⟩
    else match s.writeRow c (rowAt c.a (geoStride c.b) k) (s.vrdRow c f v k) with
      | (some (e, va), s) => .stop s ⟨e, 0, k, va⟩
      | (none, s) => vrdRows c f v n (k + 1) (b.map (· - 1)) s

def runVrd (s : State) (c : LoomCmd) (f : LoomFmt) (v k : Nat) (b : Option Nat) : LRes :=
  let n := geoRows c.b - k
  match s.firstOnV c.core c.xroot (vrdWords c f n k) with
  | (some va, s) => .stop s ⟨0x680D, 0, k, va⟩
  | (none, s) => vrdRows c f v n k b s

/-! ### The head of the queue -/

/-- A command run from group g and row k, with at most b rows. -/
def runLoom (s : State) (c : LoomCmd) (g k : Nat) (b : Option Nat) : LRes :=
  match c.instr with
  | .wld _ f lp _ _ => runWld s c f lp k b
  | .weft _ f v lp _ _ => runWeft s c f (b1 v) lp k b
  | .vrd _ f v _ _ => runVrd s c f (b1 v) k b
  | .lgrp _ f v lp _ _ => runLgrp s c f (b1 v) lp g k b
  | .wswap _ =>
    let m := s.loom c.core
    .done (s.putLoom c.core { m with warp := m.shadow, shadow := m.warp })
  | .vclr _ v => .done (s.putVat c.core (b1 v) {})
  | .vadd _ v _ => runVadd s c (b1 v) k b
  | .lloop _ n _ => runLloop s c n.toNat
  | _ => .done s

/-- The Loom of a core with its queue: the block's key and block, and the head command, which runs on the
planes and the window of this core, on whichever core it was accepted (R314, R349). -/
def State.loomHead (s : State) (core : Nat) : Option (Nat × Block × LoomCmd) :=
  let r := (s.core core).loomblk
  match s.block r, (s.loomQueue (blockKey r)).cmds.head? with
  | some b, some c => some (blockKey r, b, { c with core := core })
  | _, _ => none

/-- Where the head command goes on: at the progress record, when it has been stopped or paused there
(R313, R314). -/
def State.resumePoint (s : State) (o : Nat) (c : LoomCmd) : Nat × Nat :=
  if c.part ∧ s.seenWord (o + 256) = s.blockHead o then
    (leNat (s.seen (o + 270) 1), leNat (s.seen (o + 272) 4))
  else (0, 0)

/-- The progress record read, where the head command goes on from it (R212, R313). -/
def State.meetProgress (s : State) (o : Nat) (c : LoomCmd) : State := if c.part then s.meet (o + 256) 32 else s

/-- The head command of a queue has a point reached in the progress record. -/
def State.markPart (s : State) (key : Nat) : State :=
  let q := s.loomQueue key
  s.setLoomQ key { q with cmds := match q.cmds with
    | c :: r => { c with part := true } :: r
    | [] => [] }

/-- The progress record of the head command of a queue (R313). -/
def State.writeProgress (s : State) (key o : Nat) (w : BitVec 32) (x : LStop) : State :=
  (s.markPart key).hbmWrite (o + 256) (leBytes 8 (s.blockHead o).toNat ++ leBytes 4 w.toNat ++
    leBytes 2 x.code.toNat ++ leBytes 1 x.g ++ leBytes 1 0 ++ leBytes 4 x.k ++ leBytes 4 0 ++
    leBytes 8 x.va ++ leBytes 32 0)

/-- Every marker of a queue is poisoned, in order (R312). -/
def State.poisonMarkers (s : State) (key : Nat) (fw : Word) : State :=
  let q := s.loomQueue key
  let s := q.cmds.foldl (fun s c => if c.fut = 0 then s else (s.endFuture c.fut 3 fw).dropRef c.fut) s
  s.setLoomQ key { q with cmds := q.cmds.map fun c => { c with fut := 0 } }

/-- The sequencer stops on a fault. -/
def State.loomFault (s : State) (core key : Nat) (b : Block) (w : BitVec 32) (x : LStop) : State :=
  let s := s.writeProgress key b.off w x
  let fw := loomFaultWord (key * 512) x.code
  let c := s.core core
  let m := { c.loom with seq := .stopped, code := x.code }
  let s := s.setCore core { c with loom := m, ipend := c.ipend ||| 4 }
  (s.poisonMarkers key fw).record x.code core (bits fw 47 16)

/-- The sequencer is paused with code 0. -/
def State.loomPaused (s : State) (core : Nat) : State :=
  let m := s.loom core
  s.putLoom core { m with seq := .paused, code := 0 }

/-- The head command is in progress: it goes on from its progress record, or has asked for words
(log 16). -/
def State.loomMidway (s : State) (core : Nat) : Bool :=
  let x := loomCtx core
  match s.loomHead core with
  | some (_, _, c) => c.part || s.reqs.any (fun r => x.mine r.core r.slot r.inst) ||
      s.replies.any fun r => x.mine r.core r.slot r.inst
  | none => false

/-- The head command may run: the sequencer runs and nobody asks it to pause, or asks it to pause only when
the command in progress completes (R348). -/
def State.loomReady (s : State) (core : Nat) : Bool :=
  (s.loom core).seq == .running && (!(s.core core).wantsLoomPause ||
    (lpauseOf (s.core core).cctl != 1 && s.loomMidway core))

/-- A marker reached (R309): its future is resolved with 0, unless it has been cancelled. -/
def State.reachMarker (s : State) (key : Nat) (c : LoomCmd) : State :=
  let s := s.loomPop key
  if c.fut = 0 then s
  else match s.startFuture c.fut with
    | (true, s) => (s.endFuture c.fut 2 0).dropRef c.fut
    | (false, s) => s.dropRef c.fut

/-- The head command has completed: a marker has been reached. -/
def State.loomDone (s : State) (key : Nat) (c : LoomCmd) : State :=
  match c.instr with
  | .lfut .. => s.reachMarker key c
  | _ => s.loomPop key

/-- The head command executed whole; while it waits for words it has only asked for them. -/
def State.loomStep (s : State) (core : Nat) : State :=
  match s.loomHead core with
  | none => s
  | some (key, b, c) =>
    let s := s.meetProgress b.off c
    let (g, k) := s.resumePoint b.off c
    match runLoom s c g k none with
    | .done t => (t.dropAnswers (loomCtx core)).loomDone key c
    | .stop t x => (t.withdrawAsks (loomCtx core)).loomFault core key b c.word x
    | .wait ws .. => ws.foldl (fun s w => s.askRowWord core w) s

/-- A Loom event: the head command is of its kind and may run. -/
def loomEvent (core : Nat) (mine : Instr → Bool) (s : State) : Out :=
  event s (match s.loomHead core with
    | some (_, _, c) => if s.loomReady core && mine c.instr then s.loomStep core else s
    | none => s)

def execLoomCmdWld (core : Nat) (s : State) : Out :=
  loomEvent core (fun i => match i with | .wld .. => true | _ => false) s

def execLoomCmdWswap (core : Nat) (s : State) : Out :=
  loomEvent core (fun i => match i with | .wswap .. => true | _ => false) s

def execLoomCmdVclr (core : Nat) (s : State) : Out :=
  loomEvent core (fun i => match i with | .vclr .. => true | _ => false) s

def execLoomCmdWeft (core : Nat) (s : State) : Out :=
  loomEvent core (fun i => match i with | .weft .. => true | _ => false) s

def execLoomCmdVadd (core : Nat) (s : State) : Out :=
  loomEvent core (fun i => match i with | .vadd .. => true | _ => false) s

def execLoomCmdLgrp (core : Nat) (s : State) : Out :=
  loomEvent core (fun i => match i with | .lgrp .. => true | _ => false) s

def execLoomCmdLloop (core : Nat) (s : State) : Out :=
  loomEvent core (fun i => match i with | .lloop .. => true | _ => false) s

def execLoomCmdVrd (core : Nat) (s : State) : Out :=
  loomEvent core (fun i => match i with | .vrd .. => true | _ => false) s

def execLoomMarker (core : Nat) (s : State) : Out :=
  event s (match s.loomHead core with
    | some (key, _, c) => match c.instr with
      | .lfut .. => if s.loomReady core then s.reachMarker key c else s
      | _ => s
    | none => s)

/-- LOOM_PAUSE (R348): for lpause = 1 the head command runs on for `rows` rows and then pauses; otherwise the
pause comes when no command is in progress. -/
def State.loomPause (s : State) (core rows : Nat) : State :=
  let c := s.core core
  let x := loomCtx core
  if lpauseOf c.cctl ≠ 1 then (if s.loomMidway core then s else s.loomPaused core)
  else match s.loomHead core with
    | none => s.loomPaused core
    | some (key, b, c) =>
      let s := s.meetProgress b.off c
      let (g, k) := s.resumePoint b.off c
      let atStart := ((s.withdrawAsks x).writeProgress key b.off c.word ⟨0, g, k, 0⟩).loomPaused core
      match runLoom s c g k (some rows) with
      | .done t => if rows = 0 then atStart
        else ((t.withdrawAsks x).loomDone key c).loomPaused core
      | .stop t y =>
        if y.code = 0 then ((t.withdrawAsks x).writeProgress key b.off c.word y).loomPaused core
        else if rows = 0 then atStart
        else (t.withdrawAsks x).loomFault core key b c.word y
      | .wait _ t g k => ((t.withdrawAsks x).writeProgress key b.off c.word ⟨0, g, k, 0⟩).loomPaused core

def execLoomPause (core rows : Nat) (s : State) : Out :=
  event s (if (s.loom core).seq == .running && (s.core core).wantsLoomPause then s.loomPause core rows
    else s)

end Sys2Proof.Machine
end

