-- ==== Sys2Proof/Machine/Scrivener.lean ====
section
/-! DEFINITION. The Scrivener at work (R316, R322 to R326) and the prefetch of tile arguments (R329,
R330). A command is one event; words of other modules are asked for first (log 16, log 48). -/

namespace Sys2Proof.Machine

/-! ### The words a command moves (R319, R329) -/

/-- A destination word and the source byte of each of its bytes; none stands for a zero byte. -/
structure CopyWord where
  dst : Nat
  srcs : List (Option Nat)
  deriving DecidableEq, Repr

/-- `n` bytes from `src` copied to `dst`, word by word. -/
def copyRange (dst src : Word) (n : Nat) : List CopyWord :=
  (List.range (n / 8)).map fun i =>
    let o := BitVec.ofNat 64 (8 * i)
    ⟨(dst + o).toNat, (List.range 8).map fun j => some ((src + o).toNat + j)⟩

/-- The source element that an index names (R319). -/
def gatherSrc (ops : List Word) (x : Word) : Word :=
  opOf ops 1 + x * BitVec.ofNat 64 (gatherSize (opOf ops 3))

/-- The words of a command; `xs` are the indices of CPYG. -/
def copyWords (kind : Nat) (ops : List Word) (xs : List Word) : List CopyWord :=
  let x := opOf ops
  if kind = 0 then copyRange (x 0) (x 1) (x 2).toNat
  else if kind = 1 then
    (List.range (x 5).toNat).flatMap fun i =>
      let k := BitVec.ofNat 64 i
      copyRange (x 0 + k * x 2) (x 1 + k * x 3) (x 4).toNat
  else
    let z := gatherSize (x 3)
    (List.range xs.length).flatMap fun i =>
      copyRange (x 0 + BitVec.ofNat 64 (i * z)) (gatherSrc ops (xs.getD i 0)) z

/-- The index addresses of CPYG. -/
def indexAddrs (ops : List Word) : List Nat :=
  let x := opOf ops
  (List.range (gatherCount (x 3))).map fun i =>
    (x 2 + BitVec.ofNat 64 (i * indexSize (x 3))).toNat

/-! ### Reaching a word (R322) -/

/-- A PA in the device-register region of any module (R207). -/
def inDevPa (pa : Nat) : Bool := inDev (paOffset pa)

/-- Where a word lies, by the class of its access (R36, R216, R218, R207). A form's ranges are checked at
issue; a tile's words lie where its descriptor says, and in a trap region end it with 0x6C04 (log 47). -/
def State.copySpot (s : State) (x : CopyCtx) (need : Need) (va : Nat) : EngSpot × State :=
  match regionOf x.core (BitVec.ofNat 64 va) with
  | .spad c o => if need = .read ∧ x.user ∧ inReserved o 1 then (.fault 0x6C04, s) else (.spad c o, s)
  | .trap => (.fault 0x6C04, s)
  | .global =>
    match s.engLeaf x.core x.xroot va with
    | (.fault f, s) => (.fault f, s)
    | (.leaf l, s) =>
      let pa := l.paOf va
      if !l.permits need (!x.user) then (.fault 0x2702, s)
      else if s.paFault pa || inDevPa pa then (.fault 0x6704, s)
      else if l.ver && paModule pa != s.modNo.toNat && !s.featBit (paModule pa) 7 then (.fault 0x6103, s)
      else (.glob l pa, s)

/-- What has been read: address, value, poison. -/
abbrev ReadList := List (Nat × Nat × Bool)

/-- The outcome of a list of reads. -/
inductive CopyRead where
  | ok (vals : ReadList) (s : State)
  /-- not all can be read yet; the flag tells whether a request has set out -/
  | wait (s : State)
  | fault (code : Code) (va : Nat) (s : State)

/-- Bytes of a word of the own module, and their poison. -/
def State.copyFetch (s : State) (sp : EngSpot) (n : Nat) : List Byte × Bool × State :=
  match sp with
  | .spad c o =>
    let (bs, ps, s) := s.readSpad c o n
    (bs, ps.any id, s)
  | .glob l pa =>
    let o := paOffset pa
    let (bs, ps, s) :=
      if inHbm o then (s.flushLine o).portRead o n l.ver 0 0 else s.readHost o n
    (bs, ps.any id, s)
  | .fault _ => ([], false, s)

/-- Reads of `n` bytes at each address, in order; `cls` tells index reads (1) from source reads (0),
`own` the words that the command's acceptance has emptied. -/
def State.copyReads (s : State) (x : CopyCtx) (own : List (Nat × Nat)) (cls n : Nat) (acc : ReadList)
    (waits : Bool) : List Nat → CopyRead
  | [] => if waits then .wait s else .ok acc.reverse s
  | va :: r =>
    match s.copySpot x .read va with
    | (.fault f, s) => .fault f va s
    | (.spad c o, s) =>
      let elem := 4 * va + cls
      let s := s.checkTag c (o / 8)
      match s.engineGot x elem with
      | some a => s.copyReads x own cls n ((va, answerVal a) :: acc) waits r
      | none =>
        if own.contains (c, o / 8) || s.tagsAllow c [o / 8] true s.nextId then
          let (bs, p, s) := s.copyFetch (.spad c o) n
          s.copyReads x own cls n ((va, leNat bs, p) :: acc) waits r
        else (s.engineAskSpad x elem c o va n).copyReads x own cls n acc true r
    | (.glob l pa, s) =>
      match s.placeOf pa with
      | .remote _ =>
        let elem := 4 * va + cls
        match s.engineGot x elem with
        | some a => s.copyReads x own cls n ((va, answerVal a) :: acc) waits r
        | none => (s.engineAskFar x elem .load l.ver pa va n).copyReads x own cls n acc true r
      | _ =>
        let (bs, p, s) := s.copyFetch (.glob l pa) n
        s.copyReads x own cls n ((va, leNat bs, p) :: acc) waits r

/-! ### Writing (R322, R324) -/

/-- A destination word with its value and poison, and where it lies. -/
structure CopyStore where
  dst : Nat
  v : Nat
  p : Bool
  spot : EngSpot
  deriving DecidableEq, Repr

/-- The value of a destination word from the words read. -/
def CopyWord.value (w : CopyWord) (vals : ReadList) : Nat × Bool :=
  let byteOf := fun (b : Nat) =>
    match vals.find? fun (y : Nat × Nat × Bool) => y.1 == b / 8 * 8 with
    | some y => (y.2.1 / 2 ^ (8 * (b % 8)) % 256, y.2.2)
    | none => (0, false)
  let bs := w.srcs.map fun o => match o with
    | some b => byteOf b
    | none => (0, false)
  (leNat (bs.map fun y => BitVec.ofNat 8 y.1), bs.any (·.2))

/-- The aligned words the sources touch, each once. -/
def copySources (ws : List CopyWord) : List Nat :=
  ((ws.flatMap (·.srcs)).filterMap fun o => o.map fun b => b / 8 * 8).eraseDups

/-- The stores of a command up to the first that fails, and that one's code and address. -/
def State.copyStores (s : State) (x : CopyCtx) (vals : ReadList) :
    List CopyWord → List CopyStore × Option (Code × Nat) × State
  | [] => ([], none, s)
  | w :: r =>
    match s.copySpot x .write w.dst with
    | (.fault f, s) => ([], some (f, w.dst), s)
    | (sp, s) =>
      let (v, p) := w.value vals
      let glob := match sp with
        | .glob _ _ => true
        | _ => false
      if glob && p then ([], some (0x4C03, w.dst), s)
      else
        let (l, f, s) := s.copyStores x vals r
        (⟨w.dst, v, p, sp⟩ :: l, f, s)

/-- A destination word written; a scratchpad word's tag fills in the same event (R237). -/
def State.copyStore (s : State) (w : CopyStore) : State :=
  let bs := leBytes 8 w.v
  match w.spot with
  | .spad c o => ((s.writeSpad c o bs [w.p]).setSpadPois c (o / 8) w.p).setTag c (o / 8) true
  | .glob _ pa =>
    let o := paOffset pa
    match s.placeOf pa with
    | .remote _ => s
    | .port _ => (((s.flushLine o).cacheAccess o).engineTouch o).writeHbm o bs
    | _ => s.putBytes o bs
  | .fault _ => s

/-- The destination words of a command (R319). -/
def copyDsts (kind : Nat) (ops : List Word) : List Nat :=
  (copyDests kind ops).flatMap fun r =>
    (List.range (r.n / 8)).map fun i => (r.a + BitVec.ofNat 64 (8 * i)).toNat

/-- The stores to other modules that have no answer yet are asked for; false when all have. Of
stores to one word the last stands (R319). -/
def State.copyFar (s : State) (x : CopyCtx) : List CopyStore → Bool × State
  | [] => (false, s)
  | w :: r =>
    match w.spot with
    | .glob l pa =>
      match s.placeOf pa with
      | .remote _ =>
        if r.any fun y => y.dst == w.dst then s.copyFar x r
        else
          let elem := 4 * w.dst + 2
          match s.engineGot x elem with
          | some _ => s.copyFar x r
          | none =>
            let op : ReqOp := .write .bytes (leBytes 8 w.v)
            let (_, s) := (s.engineAskFar x elem op l.ver pa w.dst 8).copyFar x r
            (true, s)
      | _ => s.copyFar x r
    | _ => s.copyFar x r

/-- The first store to another module that has failed (R386). -/
def State.farFault (s : State) (x : CopyCtx) (l : List CopyStore) : Option (Code × Nat) :=
  l.findSome? fun w =>
    match s.engineGot x (4 * w.dst + 2) with
    | some (.trap _ c _) => some (c, w.dst)
    | _ => none

/-- The outcome of a command. -/
inductive CopyRes where
  | done (n : Nat) (s : State)
  | fault (code : Code) (va : Nat) (written : List CopyStore) (s : State)
  | wait (s : State)

/-- The words of a command moved: every read, and then the writes. -/
def State.moveWords (s : State) (x : CopyCtx) (own : List (Nat × Nat)) (ws : List CopyWord) : CopyRes :=
  match s.copyReads x own 0 8 [] false (copySources ws) with
  | .wait s => .wait s
  | .fault c va s => .fault c va [] s
  | .ok vals s =>
    let (l, f, s) := s.copyStores x vals ws
    match s.copyFar x l with
    | (true, s) => .wait s
    | (false, s) =>
      let t := l.foldl State.copyStore s
      match s.farFault x l, f with
      | some (c, va), _ => .fault c va l t
      | none, some (c, va) => .fault c va l t
      | none, none => .done (8 * ws.length) t

/-- A CPYG source element in a trap region, leaving its window or in the reserved area (R326). -/
def gatherBad (x : CopyCtx) (ops : List Word) (xs : List Word) : Option Word :=
  xs.findSome? fun i =>
    let r : Range := ⟨gatherSrc ops i, gatherSize (opOf ops 3)⟩
    match r.trapByte with
    | some v => some v
    | none => (r.windowByte x.core x.user).map (·.2)

/-- The words that CPYG moves, once its indices are read. -/
def State.gatherWords (s : State) (x : CopyCtx) (c : CopyCmd) (k : State → List CopyWord → CopyRes) :
    CopyRes :=
  match s.copyReads x c.emptied 1 (indexSize (opOf c.ops 3)) [] false (indexAddrs c.ops) with
  | .wait s => .wait s
  | .fault f va s => .fault f va [] s
  | .ok vals s =>
    match vals.find? fun y => y.2.2 with
    | some y => .fault 0x4C03 y.1 [] s
    | none =>
      let xs := vals.map fun y => BitVec.ofNat 64 y.2.1
      match gatherBad x c.ops xs with
      | some v => .fault 0x6C04 v.toNat [] s
      | none => k s (copyWords 2 c.ops xs)

/-- A command run as far as it can be: a V page among its destinations refuses it before anything else
(R256). -/
def State.runCopy (s : State) (x : CopyCtx) (c : CopyCmd) : CopyRes :=
  match s.firstOnV x.core x.xroot (copyDsts c.kind c.ops) with
  | (some va, s) => .fault 0x680D va [] s
  | (none, s) =>
    if c.kind = 2 then s.gatherWords x c fun s ws => s.moveWords x c.emptied ws
    else s.moveWords x c.emptied (copyWords c.kind c.ops [])

/-! ### Completion and faults (R323, R324) -/

/-- Scratchpad words that a faulted command has not written (R324). -/
def State.spoilRest (s : State) (words : List (Nat × Nat)) (written : List CopyStore) : State :=
  let done := written.filterMap fun w => match w.spot with
    | .spad c o => some (c, o / 8)
    | _ => none
  (words.filter fun w => !done.contains w).foldl (fun s w => s.spoilWord w) s

/-- The next command in the queues' rotation comes after queue q (R316). -/
def State.scrServed (s : State) (cl q : Nat) : State :=
  s.setCluster cl { s.cluster cl with scrTurn := q }

/-- Whether a future's work may start: it has started, or is still pending (R143, R150). -/
def State.mayStart (s : State) (h : Word) : Bool := (s.startFuture h).1

/-- The head command of a queue is in progress: it has asked for words. -/
def State.beginHead (s : State) (key : Nat) : State :=
  let q := s.scrQueue key
  s.setScrQ key { q with cmds := match q.cmds with
    | c :: r => { c with begun := true } :: r
    | [] => [] }

/-- A command that cannot finish yet has asked for words, or changes nothing. -/
def State.copyWaits (s t u : State) (key : Nat) : State :=
  if u.reqs = t.reqs then s else u.beginHead key

/-- The head command of queue q of a cluster executes (R322 to R325). -/
def State.serveCopy (s : State) (cl q key : Nat) (c : CopyCmd) : State :=
  let x : CopyCtx := ⟨c.core, c.xroot, c.user, cl, q, c.fut.toNat⟩
  if !s.mayStart c.fut then (((s.startFuture c.fut).2.dropCopy c.fut).scrPop key).dropRef c.fut
  else
    let t := (s.startFuture c.fut).2
    match t.runCopy x c with
    | .wait u => s.copyWaits t u key
    | .done n u =>
      let u := (((u.dropAnswers x).scrPop key).endFuture c.fut 2 (BitVec.ofNat 64 n)).dropRef c.fut
      u.scrServed cl q
    | .fault code va l u =>
      let u := ((u.withdrawAsks x).spoilRest c.emptied l).scrFault cl q code va
      let u := ((u.scrPop key).endFuture c.fut 3 (copyFaultWord code va)).dropRef c.fut
      u.scrServed cl q

/-- A queue is asked to pause, or paused: a core's by its own bits, any by the debug word of some core
(R336, R354). -/
def State.scrHeld (s : State) (cl q : Nat) : Bool :=
  s.sqSet cl || (decide (q < 24) && (s.wantsScrPause (24 * cl + q) ||
    (s.core (24 * cl + q)).cctl.getLsbD 5))

/-- The command at the head of a queue, when the engine may take it: its block set, and the queue not
paused; a command in progress goes on to its end first. -/
def State.scrHead (s : State) (cl q : Nat) : Option (Nat × CopyCmd) :=
  let r := s.queueReg cl q
  let k := blockKey r
  match s.block r, (s.scrQueue k).cmds.head? with
  | some _, some c => if s.scrHeld cl q && !c.begun then none else some (k, c)
  | _, _ => none

/-- A copy of the given kind at the head of a queue executes. -/
def State.scrEvent (s : State) (cl q kind : Nat) : State :=
  match s.scrHead cl q with
  | some (key, c) => if c.kind = kind then s.serveCopy cl q key c else s
  | none => s

def execScrivenerCpy (cluster q : Nat) (s : State) : Out := event s (s.scrEvent cluster q 0)
def execScrivenerCpy2 (cluster q : Nat) (s : State) : Out := event s (s.scrEvent cluster q 1)
def execScrivenerCpyg (cluster q : Nat) (s : State) : Out := event s (s.scrEvent cluster q 2)

/-- A command of the core's queue is in progress. -/
def State.scrMidway (s : State) (core : Nat) : Bool :=
  (s.scrQueue (blockKey (s.core core).scrblk)).cmds.head?.any fun c => c.begun

/-- SCRIVENER_PAUSE (R336, R354): at a command boundary the queue shows that it is paused. -/
def execScrivenerPause (core : Nat) (s : State) : Out :=
  let c := s.core core
  event s (if s.wantsScrPause core && !s.scrMidway core then
    s.setCore core { c with cctl := c.cctl ||| 0x20 } else s)

/-! ### Tile prefetch (R329, R330) -/

/-- The source byte of byte j of a tile. -/
def tileSrc (e : BitVec 256) (w : Word) (j : Nat) : Option Nat :=
  let base := e.extractLsb' 0 64
  let stride := e.extractLsb' 64 64
  let shape := e.extractLsb' 128 64
  let n := tileRow shape
  if j < shapeRows shape * n then
    let k := BitVec.ofNat 64 (tileIndex w * shapeRows shape + j / n)
    some (base + k * stride + BitVec.ofNat 64 (j % n)).toNat
  else none

/-- The words of a tile at its place in the near window. -/
def tileWords (e : BitVec 256) (w : Word) : List CopyWord :=
  (List.range (tileBytes (e.extractLsb' 128 64) / 8)).map fun i =>
    ⟨0xFFFFFFFFFF000000 + tileOff w + 8 * i, (List.range 8).map fun j => tileSrc e w (8 * i + j)⟩

/-- The tile that stands at the head of the Reeve's queue moves (R330). One whose prefetch has ended does
not: the words that it has emptied fill with poison (R325; log 49). -/
def State.serveTile (s : State) (cl key : Nat) (c : CopyCmd) : State :=
  let gone := (s.spoilRest c.emptied []).scrPop key
  match (s.core c.core).prefetchOf c.fut, c.tileCode with
  | none, _ => gone.scrServed cl 24
  | some (d, _), some f => (gone.scrServed cl 24).prefetchFault cl c.core d f 0
  | some (d, _, n), none =>
    let x : CopyCtx := ⟨c.core, c.xroot, true, cl, 24, 32 * c.fut.toNat + n⟩
    match s.moveWords x c.emptied (tileWords (c.tile.getD 0) (opOf c.ops 0)) with
    | .wait u => s.copyWaits s u key
    | .done _ u =>
      let u := ((u.dropAnswers x).scrPop key).scrServed cl 24
      u.setCore c.core ((u.core c.core).tileLanded c.fut)
    | .fault code va l u =>
      let u := (((u.withdrawAsks x).spoilRest c.emptied l).scrPop key).scrServed cl 24
      u.prefetchFault cl c.core d code va

def execTilePrefetch (cluster : Nat) (s : State) : Out :=
  event s (match s.scrHead cluster 24 with
    | some (key, c) => s.serveTile cluster key c
    | none => s)

end Sys2Proof.Machine
end

