-- ==== Sys2Proof/Machine/Queues.lean ====
section
/-! DEFINITION. Dispatch (R357 to R376): queue blocks, packets, completion records, stops, the
deadline heap, launches, semaphores and feeds. COPY stands in Registers, since it may reach a
device register. -/

namespace Sys2Proof

/-- The function an agent is: 0 the physical one. -/
def Agent.fn : Agent → Option Nat
  | .pf => some 0
  | .vf v => some v
  | _ => none

end Sys2Proof

namespace Sys2Proof.Machine

/-! ### Blocks, refusals and records (R358, R369) -/

def State.queue (s : State) (n : Nat) : HQueue := SMap.get s.disp.queues {} n
def State.setQueue (s : State) (n : Nat) (q : HQueue) : State :=
  { s with disp := { s.disp with queues := SMap.put s.disp.queues {} n q } }
def State.setDisp (s : State) (d : Dispatch) : State := { s with disp := d }

/-- A refused or discarded access to the device-register region (R402). -/
def State.refuse (s : State) (code : Code) (off : Nat) : State :=
  s.record code 0xFFFF ((off - devBase) % 2 ^ 32)

/-- Device-register offsets of the blocks (R357). -/
def queueOff (n k : Nat) : Nat := 0x3FFF00100000 + 64 * n + 8 * k
def semOff (i : Nat) : Nat := 0x3FFF00300000 + 8 * i
def feedOff (f k : Nat) : Nat := 0x3FFF00310000 + 32 * f + 8 * k

/-- The packet store (R357). -/
def inStore (o : Nat) : Bool := decide (0x3FFF00400000 ≤ o ∧ o < 0x3FFF00800000)

/-- Window word i of the COPY windows (R400): function f's window w has words 8 f + 2 w and the next. -/
def State.windowWord (s : State) (i : Nat) : Word := SMap.get s.man.windows 0 i

/-- `n` bytes at a PA lie wholly in some window of function f that is in force (R400). -/
def State.inWindow (s : State) (f pa n : Nat) : Bool :=
  (List.range 4).any fun w =>
    let a := s.windowWord (8 * f + 2 * w)
    let b := s.windowWord (8 * f + 2 * w + 1)
    a.getLsbD 63 && decide (bits a 55 12 ≤ pa / 4096) && decide ((pa + n - 1) / 4096 ≤ bits b 55 12)

/-- Bytes of the own module read by Dispatch, and their poison; a failed stack gives none (R404). -/
def State.dispRead (s : State) (pa n : Nat) : List Byte × Bool × State :=
  let o := paOffset pa
  if s.stackDead o then (List.replicate n 0, true, s)
  else if inHbm o then
    let (bs, ps, s) := (s.flushLine o).portRead o n false 0 0
    (bs, ps.any id, s)
  else if inHost o then
    let (bs, ps, s) := s.readHost o n
    (bs, ps.any id, s)
  else (s.bytes o n, false, s)

/-- Bytes written by Dispatch: on a V line in place, as the newest committed version, after any exchange that
is due there (R253, R368); on a failed stack nothing is written, and its port records it (R404, log 54). -/
def State.dispWrite (s : State) (pa : Nat) (bs : List Byte) : State :=
  let o := paOffset pa
  if paModule pa ≠ s.modNo.toNat then s.errand 0 0 (.write .bytes bs) (paModule pa) pa bs.length
  else if s.stackDead o then s.record 0x6704 (0x0960 + homePort o) (o / 128)
  else if inHbm o then
    ((((s.flushLine o).settle (o / 128 * 128)).cacheAccess o).engineTouch o).writeHbm o bs
  else s.putBytes o bs

/-- Header fields (R362). -/
def hdrOp (ws : List Word) : Nat := bits (ws.getD 0 0) 7 0
def hdrExt (ws : List Word) : Nat := bits (ws.getD 0 0) 23 16
def hdrSkip (ws : List Word) : Bool := (ws.getD 0 0).getLsbD 8
def hdrFence (ws : List Word) : Bool := (ws.getD 0 0).getLsbD 9
def hdrCmpl (ws : List Word) : Bool := (ws.getD 0 0).getLsbD 10

/-- The completion record of packet number t (R369). -/
def State.putRecord (s : State) (n : Nat) (t : BitVec 32) (ws : List Word) (code : Code) (v : Word) :
    State :=
  let q := s.queue n
  if q.cbase = 0 then s
  else
    let late := ws.getD 1 0 != 0 && decide ((ws.getD 1 0).toNat < s.time.toNat)
    let w0 := bits (ws.getD 0 0) 63 32 * 2 ^ 32 + t.toNat
    let w1 := (if late then 65536 else 0) + code.toNat
    s.dispWrite (q.cbase.toNat + 32 * (t.toNat % 2 ^ q.s))
      (leBytes 8 w0 ++ leBytes 8 w1 ++ leBytes 8 v.toNat ++ leBytes 8 s.time.toNat)

/-- Every packet admitted or taken and not completed. -/
def Dispatch.jobs (d : Dispatch) : List Job :=
  d.ready ++ d.heap ++ d.launches ++ d.copies ++ d.futwaits ++ d.semwaits

/-- A job belongs to an indirect buffer. -/
def Indirect.owns (x : Indirect) (n : Nat) (j : Job) : Bool :=
  j.q == n && j.era == x.era && j.pkt == x.pkt && j.inner.isSome

/-- The queue has stopped on a packet of this buffer, or will run it again. -/
def HQueue.holdsBuffer (q : HQueue) (x : Indirect) : Bool :=
  (q.state == 2 && q.inBuf && q.pkt == x.pkt) ||
    q.redo.any fun y => y.1 == x.pkt && y.2.isSome

/-- A packet of the ring completes: `k` packets are counted (R365, R369). -/
def State.completeRing (s : State) (n era : Nat) (t : BitVec 32) (ws : List Word) (k : Nat)
    (code : Code) (v : Word) : State :=
  let q := s.queue n
  let s := if q.era = era then s.setQueue n { q with done := q.done + BitVec.ofNat 32 k } else s
  if hdrCmpl ws then s.putRecord n t ws code v else s

/-- Indirect buffers whose last packet has completed end, each with its record (R373). -/
def State.settleBuffers (s : State) (n : Nat) : State :=
  let q := s.queue n
  let isOver := fun (x : Indirect) =>
    decide (x.count ≤ x.idx) && !(s.disp.jobs.any (x.owns n)) && !q.holdsBuffer x
  let ended := q.inds.filter isOver
  let s := s.setQueue n { q with inds := q.inds.filter fun x => !isOver x }
  ended.foldl (fun s x => s.completeRing n x.era x.pkt x.words 1 x.code 0) s

/-- A buffer's code, the first nonzero one (R373). -/
def HQueue.noteCode (q : HQueue) (t : BitVec 32) (era : Nat) (code : Code) : HQueue :=
  { q with inds := q.inds.map fun x =>
      if x.pkt = t ∧ x.era = era ∧ x.code = 0 then { x with code := code } else x }

/-- A packet completes, in the ring or in a buffer. -/
def State.completePacket (s : State) (n era : Nat) (t : BitVec 32) (inner : Option Nat)
    (ws : List Word) (k : Nat) (code : Code) (v : Word) : State :=
  match inner with
  | none => s.completeRing n era t ws k code v
  | some _ =>
    (s.setQueue n ((s.queue n).noteCode t era code)).settleBuffers n

/-! ### Stops (R370) -/

/-- Packets that wait for room enter the heap, in the order in which they became ready, with fuel (R366). -/
def State.refillHeap (s : State) : Nat → State
  | 0 => s
  | n + 1 =>
    let d := s.disp
    match d.ready with
    | [] => s
    | j :: r =>
      if 256 ≤ d.heap.length then s
      else (s.setDisp { d with ready := r, heap := d.heap ++ [{ j with seq := d.seq }],
                               seq := d.seq + 1 }).refillHeap n

/-- The packets of a queue that have been admitted and not taken are given back. -/
def State.unadmit (s : State) (n : Nat) : State :=
  let q := s.queue n
  let d := s.disp
  let mine := fun (j : Job) => j.q == n && j.era == q.era
  if (d.ready ++ d.heap).any mine then
    let s := s.setDisp { d with ready := d.ready.filter fun j => !mine j,
                                heap := d.heap.filter fun j => !mine j }
    (s.setQueue n { q with adm := q.adm - 1 }).refillHeap 256
  else s

/-- The value of a record written at a stop: of a COPY its length, of a FEED its count, else `v`; an INDIRECT
has none (R369). -/
def stopValue (inner : Option Nat) (ws : List Word) (v : Word) : Word :=
  if inner.isSome then 0
  else if hdrOp ws = 3 then ws.getD 4 0
  else if hdrOp ws = 2 then BitVec.ofNat 64 (bits (ws.getD 2 0) 31 16)
  else v

/-- Stop(q, c) on a packet, whose words are given where it has a record to write; `skip` tells what a
skip moves, `taken` whether it had been taken. On a queue that has been disabled since, the code of a packet in
a buffer still counts for its INDIRECT's record (R373). -/
def State.stopQueue (s : State) (n era : Nat) (t : BitVec 32) (inner : Option Nat)
    (ws : Option (List Word)) (code : Code) (v : Word) (skip : Nat × Nat) (taken : Bool) : State :=
  let s := s.record code 0x09F0 n
  let q := s.queue n
  let tagged := match inner with
    | none => ws
    | some _ => (q.inds.find? fun x => x.pkt == t && x.era == era).map (·.words)
  let s := match tagged with
    | some x => s.putRecord n t x code (stopValue inner (ws.getD []) v)
    | none => s
  if q.era ≠ era ∨ q.state = 0 then
    if inner.isSome then (s.setQueue n (q.noteCode t era code)).settleBuffers n else s
  else
    let s := s.unadmit n
    let q := if inner.isSome then (s.queue n).noteCode t era code else s.queue n
    s.setQueue n { q with state := 2, code := code, pkt := t, inner := inner.getD 0,
                          redo := q.redo.filter fun x => x != (t, inner), skip := skip,
                          inBuf := inner.isSome, taken := taken }

/-- The last buffer moved on by `k` packets. -/
def HQueue.bufferOn (q : HQueue) (k : Nat) : List Indirect :=
  match q.inds.getLast? with
  | some x => q.inds.dropLast ++ [{ x with idx := x.idx + k }]
  | none => []

/-- Control action 1 (R370). -/
def State.skipStop (s : State) (n : Nat) : State :=
  let q := s.queue n
  if q.inBuf then
    let l := if q.taken then q.inds else q.bufferOn q.skip.1
    (s.setQueue n { q with state := 1, inds := l }).settleBuffers n
  else
    s.setQueue n { q with state := 1, head := q.head + BitVec.ofNat 32 q.skip.1,
                          done := q.done + BitVec.ofNat 32 q.skip.2 }

/-- A packet of the ring by its distance behind the head: the greater, the earlier. -/
def HQueue.behind (q : HQueue) (t : BitVec 32) : Nat := (q.head - t).toNat

/-- The packets to be run again, an earlier one first. -/
def HQueue.again (q : HQueue) (x : BitVec 32 × Option Nat) : List (BitVec 32 × Option Nat) :=
  let before := fun (y : BitVec 32 × Option Nat) =>
    decide (q.behind x.1 < q.behind y.1) || (y.1 == x.1 && decide (y.2.getD 0 < x.2.getD 0))
  q.redo.filter before ++ x :: q.redo.filter fun y => !before y

/-- Control action 2 (R370): a packet that had been taken is run again before the head; one of the ring that
had completed as it stopped, a FUTWAIT, has then not completed. -/
def State.retryStop (s : State) (n : Nat) : State :=
  let q := s.queue n
  let redo := if q.taken then q.again (q.pkt, if q.inBuf then some q.inner else none) else q.redo
  let undone := if q.taken && !q.inBuf && decide (q.skip.2 = 0) then 1 else 0
  s.setQueue n { q with state := 1, redo := redo, done := q.done - BitVec.ofNat 32 undone }

/-- Control action 3 (R370): untaken packets count as completed, those to be run again among them, and so does
the stopping one. -/
def State.resetStop (s : State) (n : Nat) : State :=
  let q := s.queue n
  let own := (if q.taken && !q.inBuf then q.skip.2 else 0) + (q.redo.filter fun x => x.2.isNone).length
  let l := q.inds.map fun x => { x with idx := x.count }
  (s.setQueue n { q with state := 1, redo := [], head := q.tail,
                         done := q.done + (q.tail - q.head) + BitVec.ofNat 32 own,
                         inds := l }).settleBuffers n

/-- A write of the control word; actions 1 to 3 need a stopped queue (R370). -/
def State.writeControl (s : State) (n : Nat) (v : Word) : State :=
  if (s.queue n).state ≠ 2 then s.refuse 0x0409 (queueOff n 6)
  else if v = 1 then s.skipStop n
  else if v = 2 then s.retryStop n
  else if v = 3 then s.resetStop n
  else s.refuse 0x0409 (queueOff n 6)

/-! ### Writes of a queue block (R358, R360, R399, R400) -/

/-- A tail write that has been accepted as an access (R360). -/
def State.writeTail (s : State) (n : Nat) (v : Word) : State :=
  let q := s.queue n
  if bits v 63 32 ≠ 0 then s.refuse 0x0409 (queueOff n 2)
  else if q.state = 0 then s
  else if 2 ^ q.s < ((v.setWidth 32 : BitVec 32) - q.head).toNat then
    s.stopQueue n q.era q.head none none 0x6403 0 (0, 0) false
  else s.setQueue n { q with tail := v.setWidth 32 }

/-- A ring of 2^k packets may lie at a PA: the host window, own-module HBM, or the packet store. -/
def State.ringPlace (s : State) (pa k : Nat) : Bool :=
  let o := paOffset pa
  let e := o + 64 * 2 ^ k - 1
  paModule pa == s.modNo.toNat &&
    ((inHbm o && inHbm e) || (inHost o && inHost e) || (inStore o && inStore e))

/-- A virtual function's rings and completion areas lie in its windows (R400). -/
def State.queueInWindows (s : State) (f : Nat) (base cbase : Word) (k : Nat) : Bool :=
  decide (f = 0) ||
    ((inStore (paOffset base.toNat) || s.inWindow f base.toNat (64 * 2 ^ k)) &&
      (cbase == 0 || s.inWindow f cbase.toNat (32 * 2 ^ k)))

/-- Dword 0 written by the owner. -/
def State.writeBase (s : State) (n : Nat) (v : Word) : State :=
  let q := s.queue n
  let base := v &&& 0x00FFFFFFFFFFFFC0
  let k := bits v 4 0
  let bad := decide (bits v 63 56 ≠ 0) || v.getLsbD 5 || decide (q.state ≠ 0) || decide (k < 4) ||
    decide (16 < k) || !s.ringPlace base.toNat k || !s.queueInWindows q.fn base q.cbase k
  if bad then s.refuse 0x0409 (queueOff n 0) else s.setQueue n { q with base := base, s := k }

/-- Dword 1 written by the owner: a virtual function's ring is tested too (R400; log 54). -/
def State.writeCbase (s : State) (n : Nat) (v : Word) : State :=
  let q := s.queue n
  let bad := decide (bits v 63 56 ≠ 0) || decide (bits v 4 0 ≠ 0) || decide (q.state ≠ 0) ||
    !s.queueInWindows q.fn q.base v q.s
  if bad then s.refuse 0x0409 (queueOff n 1) else s.setQueue n { q with cbase := v }

/-- A queue is disabled: packets not yet taken are discarded (R358). -/
def State.disableQueue (s : State) (n : Nat) : State :=
  let s := s.unadmit n
  let q := s.queue n
  let l := q.inds.map fun x => { x with idx := x.count }
  (s.setQueue n { q with en := false, state := 0, redo := [], inds := l }).settleBuffers n

/-- A queue is enabled (R358). -/
def State.enableQueue (s : State) (n : Nat) : State :=
  let q := s.queue n
  s.setQueue n { q with en := true, head := 0, done := 0, tail := 0, state := 1, era := q.era + 1,
                        redo := [] }

/-- Word 4 is refused: a reserved bit, an epoch or a function out of range, a function without its
feature, or an enable before the lock (R358, R410). -/
def State.badWord4 (s : State) (n : Nat) (v : Word) : Bool :=
  let e := bits v 47 43
  let fn := bits v 40 34
  decide (bits v 32 0 ≠ 0) || decide (e < 10) || decide (30 < e) || decide (64 < fn) ||
    (fn != 0 && !s.feature 0) || (v.getLsbD 33 && !(s.queue n).en && !s.man.lock)

/-- Word 4 written by Laninak. -/
def State.writeWord4 (s : State) (n : Nat) (v : Word) : State :=
  if s.badWord4 n v then s.refuse 0x0409 (queueOff n 4)
  else
    let q := s.queue n
    let s := s.setQueue n { q with budget := bits v 63 48, e := bits v 47 43, prio := bits v 42 41,
                                   fn := bits v 40 34 }
    if v.getLsbD 33 && !q.en then s.enableQueue n
    else if !v.getLsbD 33 && q.en then s.disableQueue n
    else s

/-- An agent may write a word of a queue block (R399). -/
def State.mayWriteQueue (s : State) (who : Agent) (n k : Nat) : Bool :=
  if k = 4 then who == .laninak
  else (k == 0 || k == 1 || k == 2 || k == 6) && who.fn == some (s.queue n).fn

/-- An aligned 8-byte write of word k of a queue block. -/
def State.writeQueue (s : State) (who : Agent) (n k : Nat) (v : Word) : State :=
  if !s.mayWriteQueue who n k then s.refuse 0x0503 (queueOff n k)
  else if k = 0 then s.writeBase n v
  else if k = 1 then s.writeCbase n v
  else if k = 2 then s.writeTail n v
  else if k = 4 then s.writeWord4 n v
  else s.writeControl n v

/-- An agent may read a word of a queue block (R399). -/
def State.mayReadQueue (s : State) (who : Agent) (n : Nat) : Bool :=
  match who with
  | .vf v => v == (s.queue n).fn
  | .mgmt => false
  | _ => true

/-- Word k of a queue block as it reads (R358). -/
def State.queueWord (s : State) (n k : Nat) : Word :=
  let q := s.queue n
  let adm := if q.ep = some (s.time.toNat / 2 ^ q.e) then q.adm else 0
  if k = 0 then q.base + BitVec.ofNat 64 q.s
  else if k = 1 then q.cbase
  else if k = 2 then q.tail.setWidth 64
  else if k = 3 then BitVec.ofNat 64 (q.done.toNat * 2 ^ 32 + q.head.toNat)
  else if k = 4 then
    BitVec.ofNat 64 (q.budget * 2 ^ 48 + q.e * 2 ^ 43 + q.prio * 2 ^ 41 + q.fn * 2 ^ 34 + b1 q.en * 2 ^ 33)
  else if k = 5 then
    BitVec.ofNat 64 (q.code.toNat * 2 ^ 48 + q.inner * 2 ^ 36 + q.state * 2 ^ 34 + q.pkt.toNat)
  else if k = 7 then BitVec.ofNat 64 adm
  else 0

def execTailWrite (who : Agent) (q bytes : Nat) (v : Word) (s : State) : Out :=
  event s (if bytes = 8 then s.writeQueue who q 2 v
    else if s.mayWriteQueue who q 2 then s.refuse 0x0409 (queueOff q 2)
    else s.refuse 0x0503 (queueOff q 2))

/-- QUEUE_ENABLE: a write of word 4 that sets en. -/
def execQueueEnable (who : Agent) (q : Nat) (v : Word) (s : State) : Out :=
  event s (s.writeQueue who q 4 (v ||| 0x200000000))

/-- QUEUE_DISABLE: a write of word 4 that clears en. -/
def execQueueDisable (who : Agent) (q : Nat) (v : Word) (s : State) : Out :=
  event s (s.writeQueue who q 4 (v &&& ~~~0x200000000))

def execQueueSkip (who : Agent) (q : Nat) (s : State) : Out := event s (s.writeQueue who q 6 1)
def execQueueRetry (who : Agent) (q : Nat) (s : State) : Out := event s (s.writeQueue who q 6 2)
def execQueueReset (who : Agent) (q : Nat) (s : State) : Out := event s (s.writeQueue who q 6 3)

/-! ### The packet a queue stands at (R359, R363, R364) -/

/-- A packet to be examined: its number, its index in a buffer, where it lies, how many packets stand
from it on, and whether it is run again. -/
structure Cur where
  pkt : BitVec 32
  inner : Option Nat
  pa : Nat
  avail : Nat
  again : Bool
  deriving DecidableEq, Repr

/-- An admitted or waiting packet keeps its queue at it. -/
def State.queueBlocked (s : State) (n : Nat) : Bool :=
  let d := s.disp
  (d.ready ++ d.heap ++ d.futwaits ++ d.semwaits).any fun j => j.q == n && j.era == (s.queue n).era

/-- The buffer whose packets come next. -/
def HQueue.buffer (q : HQueue) : Option Indirect :=
  match q.inds.getLast? with
  | some x => if x.idx < x.count ∧ x.era = q.era then some x else none
  | none => none

def HQueue.slotPa (q : HQueue) (t : BitVec 32) : Nat := q.base.toNat + 64 * (t.toNat % 2 ^ q.s)

/-- The packet a queue stands at; none before Dispatch is ready (R404, R413). -/
def State.current (s : State) (n : Nat) : Option Cur :=
  let q := s.queue n
  if !s.man.ready.getLsbD 0 || q.state != 1 || s.queueBlocked n then none
  else match q.redo.head? with
    | some (t, none) => some ⟨t, none, q.slotPa t, (q.tail - t).toNat, true⟩
    | some (t, some i) =>
      (q.inds.find? fun x => x.pkt == t && x.era == q.era).map fun x =>
        ⟨t, some i, x.pa + 64 * i, x.count - i, true⟩
    | none => match q.buffer with
      | some x => some ⟨x.pkt, some x.idx, x.pa + 64 * x.idx, x.count - x.idx, false⟩
      | none => if q.tail = q.head then none
        else some ⟨q.head, none, q.slotPa q.head, (q.tail - q.head).toNat, false⟩

/-- The queue passes `k` packets at the one it stands at. -/
def State.passPacket (s : State) (n : Nat) (c : Cur) (k : Nat) : State :=
  let q := s.queue n
  if c.again then s.setQueue n { q with redo := q.redo.drop 1 }
  else if c.inner.isSome then s.setQueue n { q with inds := q.bufferOn k }
  else s.setQueue n { q with head := q.head + BitVec.ofNat 32 k }

def wordsOfBytes (bs : List Byte) : List Word := (List.range (bs.length / 8)).map fun i => tdWord bs i

/-- Packets of 64 bytes from PA `pa` on; a ring's continue at its start. -/
def State.readPackets (s : State) (n : Nat) (c : Cur) : Nat → List Word × Bool × State
  | 0 => ([], false, s)
  | k + 1 =>
    let (ws, p, s) := s.readPackets n c k
    let pa := if c.inner.isSome then c.pa + 64 * k
      else (s.queue n).slotPa (c.pkt + BitVec.ofNat 32 k)
    let (bs, x, s) := s.dispRead pa 64
    (ws ++ wordsOfBytes bs, p || x, s)

def zeroFrom (ws : List Word) (i : Nat) : Bool := (ws.drop i).all (· == 0)

/-- A LAUNCH out of its limits. -/
def badLaunch (ws : List Word) : Bool :=
  let d2 := ws.getD 2 0
  let d3 := ws.getD 3 0
  let t := bits d3 7 0
  let nc := bits d3 15 8
  decide (bits d2 60 56 ≠ 0) || decide (bits d2 55 0 = 0) || (decide (96 ≤ t) && decide (t ≤ 254)) ||
    decide (4 < nc) || decide (bits d3 63 16 ≠ 0) || !zeroFrom ws (4 + nc)

/-- A FEED out of its limits; `ws` holds its continuation packets too. -/
def State.badFeed (s : State) (ws : List Word) : Bool :=
  let d2 := ws.getD 2 0
  let n := bits d2 31 16
  let ext := hdrExt ws
  decide (bits d2 63 32 ≠ 0) || decide (bits d2 15 10 ≠ 0) || decide (n = 0) || decide (5 + 8 * ext < n) ||
    (decide (0 < ext) && decide (n ≤ 5 + 8 * (ext - 1))) || !zeroFrom ws (3 + n) ||
    decide (2 ^ (s.feed (bits d2 9 0)).f < n)

/-- An opcode's own limits (R363). -/
def State.badPacket (s : State) (ws : List Word) (c : Cur) : Bool :=
  let d := fun i => ws.getD i 0
  match hdrOp ws with
  | 1 => badLaunch ws
  | 2 => s.badFeed ws || (c.inner.isSome && decide (c.avail < 1 + hdrExt ws))
  | 3 => decide ((d 2).toNat % 8 ≠ 0) || decide ((d 3).toNat % 8 ≠ 0) || decide ((d 4).toNat % 8 ≠ 0) ||
      decide (2 ^ 32 < (d 4).toNat) || !zeroFrom ws 5
  | 4 => decide (bits (d 2) 63 12 ≠ 0) || !zeroFrom ws 4
  | 5 => decide (bits (d 2) 17 16 = 3) || decide (bits (d 2) 15 12 ≠ 0) || decide (bits (d 2) 63 18 ≠ 0) ||
      !zeroFrom ws 4
  | 6 => decide (bits (d 3) 63 1 ≠ 0) || !zeroFrom ws 4
  | 7 => decide (bits (d 2) 7 6 ≠ 0) || decide (bits (d 2) 63 9 ≠ 0) || decide (bits (d 4) 63 32 ≠ 0) ||
      !zeroFrom ws 5
  | 8 => decide ((d 2).toNat % 64 ≠ 0) || decide (2 ^ 56 ≤ (d 2).toNat) || !s.ownHbm (d 2).toNat ||
      decide (bits (d 3) 12 0 = 0) || decide (4096 < bits (d 3) 12 0) || decide (bits (d 3) 63 13 ≠ 0) ||
      !zeroFrom ws 4 || c.inner.isSome
  | _ => !zeroFrom ws 2

/-- The check of a packet by R363: 0, or the code of its fate. -/
def State.packetCode (s : State) (ws : List Word) (c : Cur) : Code :=
  let h := ws.getD 0 0
  let op := hdrOp ws
  if bits h 31 24 ≠ 0 ∨ bits h 15 11 ≠ 0 ∨ (hdrExt ws ≠ 0 ∧ op ≠ 2) then 0x6401
  else if op = 0 ∨ 9 < op then (if hdrSkip ws then 0x0406 else 0x6402)
  else if s.badPacket ws c then 0x6401
  else 0

/-- Packets a header spans: a FEED's continuations with it. -/
def packetSpan (ws : List Word) : Nat := if hdrOp ws = 2 then 1 + hdrExt ws else 1

/-- The packet a queue stands at, read whole with its continuations; none while it must wait for
them (R364). -/
def State.headPacket (s : State) (n : Nat) : Option (Cur × List Word × Bool × State) :=
  match s.current n with
  | none => none
  | some c =>
    let (ws, p, t) := s.readPackets n c 1
    if packetSpan ws = 1 ∨ p then some (c, ws, p, t)
    else if c.avail < packetSpan ws then (if c.inner.isSome then some (c, ws, p, t) else none)
    else
      let (ws, p, t) := s.readPackets n c (packetSpan ws)
      some (c, ws, p, t)

/-- A job stands before the packet at hand, in the ring or in one buffer. -/
def HQueue.earlier (q : HQueue) (c : Cur) (j : Job) : Bool :=
  decide (q.behind c.pkt < q.behind j.pkt) ||
    (j.pkt == c.pkt && match j.inner, c.inner with
      | some a, some b => decide (a < b)
      | _, _ => false)

/-- Every earlier packet of the queue has completed (R364, R365); a packet run again has been taken, and so
have packets after it. -/
def State.allDone (s : State) (n : Nat) (c : Cur) : Bool :=
  let q := s.queue n
  let mine := fun (j : Job) => j.q == n && j.era == q.era
  if c.again then
    !(s.disp.jobs.any fun j => mine j && q.earlier c j) &&
      q.inds.all fun x => !(x.era == q.era && decide (q.behind c.pkt < q.behind x.pkt))
  else if c.inner.isSome then !(s.disp.jobs.any mine)
  else q.done == q.head

/-- What a skip of the packet at hand moves: of one run again, its own completion alone; never more than
stands there (R370). -/
def Cur.skips (c : Cur) (span : Nat) : Nat × Nat :=
  if c.again then (0, 1) else (min span c.avail, min span c.avail)

/-- The code with which a packet that cannot be read stops its queue: a failed stack, or poison (R376, R404). -/
def State.unreadCode (s : State) (c : Cur) : Code :=
  if s.stackDead (paOffset c.pa) then 0x6704 else 0x4405

/-- A packet that is no LAUNCH or COPY runs when it is one of `op`: its stop, its wait, or `k`. -/
def State.packetEvent (s : State) (n : Nat) (op : Nat → Bool)
    (k : State → Cur → List Word → State) : State :=
  match s.headPacket n with
  | none => s
  | some (c, ws, p, t) =>
    let o := hdrOp ws
    let era := (s.queue n).era
    let span := packetSpan ws
    if !op o then s
    else if p then t.stopQueue n era c.pkt c.inner (some ws) (s.unreadCode c) 0 (c.skips span) c.again
    else
      let code := t.packetCode ws c
      if code ≠ 0 ∧ code ≠ 0x0406 then
        t.stopQueue n era c.pkt c.inner (some ws) code 0 (c.skips span) c.again
      else if code = 0x0406 then k t c ws
      else if (hdrFence ws || o == 5 || o == 7 || o == 9) && !t.allDone n c then s
      else k t c ws

/-- A packet that acts and completes at once. -/
def State.finishPacket (s : State) (n : Nat) (c : Cur) (ws : List Word) (span : Nat) (code : Code)
    (v : Word) : State :=
  (s.passPacket n c span).completePacket n (s.queue n).era c.pkt c.inner ws (c.skips span).2 code v

/-- The job of a packet at the head. -/
def State.jobOf (s : State) (n : Nat) (c : Cur) (ws : List Word) : Job :=
  { q := n, era := (s.queue n).era, words := ws, pkt := c.pkt, inner := c.inner, again := c.again,
    seq := s.disp.seq, fut := none, ans := none }

/-- UNKNOWN_OPCODE (R363): the stop, or the no-op of skip. -/
def execUnknownOpcode (q : Nat) (s : State) : Out :=
  event s (s.packetEvent q (fun o => decide (o = 0 ∨ 9 < o)) fun s c ws =>
    (s.record 0x0406 0x09F0 q).finishPacket q c ws 1 0x0406 0)

def execFencePacket (q : Nat) (s : State) : Out :=
  event s (s.packetEvent q (· == 9) fun s c ws => s.finishPacket q c ws 1 0 0)

/-- INDIRECT (R373): taken, and its packets run next. -/
def execIndirect (q : Nat) (s : State) : Out :=
  event s (s.packetEvent q (· == 8) fun s c ws =>
    let s := s.passPacket q c 1
    let x := s.queue q
    let i : Indirect :=
      { pa := (ws.getD 2 0).toNat, count := bits (ws.getD 3 0) 12 0, idx := 0, words := ws, pkt := c.pkt,
        era := x.era, code := 0 }
    s.setQueue q { x with inds := x.inds ++ [i] })

/-! ### Semaphores (R371) -/

def State.sem (s : State) (i : Nat) : Word := SMap.get s.disp.sems 0 i

/-- A SEMWAIT's condition. -/
def State.semHolds (s : State) (j : Job) : Bool :=
  decide ((j.words.getD 3 0).toNat ≤ (s.sem (bits (j.words.getD 2 0) 11 0)).toNat)

/-- Every SEMWAIT that holds completes, oldest first. -/
def State.retest (s : State) : State :=
  let held := s.disp.semwaits.filter s.semHolds
  let s := s.setDisp { s.disp with semwaits := s.disp.semwaits.filter fun j => !s.semHolds j }
  held.foldl (fun s j => s.completePacket j.q j.era j.pkt j.inner j.words 1 0 0) s

def State.setSem (s : State) (i : Nat) (v : Word) : State :=
  (s.setDisp { s.disp with sems := SMap.put s.disp.sems 0 i v }).retest

/-- SEMWAIT (R364): taken; it completes now, or when the semaphore allows it. -/
def execSemwait (q : Nat) (s : State) : Out :=
  event s (s.packetEvent q (· == 4) fun s c ws =>
    let j := s.jobOf q c ws
    if s.semHolds j then s.finishPacket q c ws 1 0 0
    else
      let s := s.passPacket q c 1
      s.setDisp { s.disp with semwaits := s.disp.semwaits ++ [j] })

/-- The value a SEMSIG leaves: set, add or max. -/
def semNew (mode : Nat) (old v : Word) : Word :=
  if mode = 0 then v else if mode = 1 then old + v else if old.toNat < v.toNat then v else old

def execSemsig (q : Nat) (s : State) : Out :=
  event s (s.packetEvent q (· == 5) fun s c ws =>
    let d2 := ws.getD 2 0
    let i := bits d2 11 0
    (s.setSem i (semNew (bits d2 17 16) (s.sem i) (ws.getD 3 0))).finishPacket q c ws 1 0 0)

/-- A write of a semaphore: the physical function and any strand (R371, R399). -/
def State.writeSem (s : State) (who : Agent) (i : Nat) (v : Word) : State :=
  match who with
  | .pf | .sup | .user => s.setSem i v
  | _ => s.refuse 0x0D05 (semOff i)

def execSemaphoreWrite (who : Agent) (i bytes : Nat) (v : Word) (s : State) : Out :=
  event s (if bytes = 8 then s.writeSem who i v else s.refuse 0x0409 (semOff i))

/-! ### Interrupts (R371) -/

/-- The cores of the clusters of a mask take an interrupt request. -/
def State.requestCores (s : State) (mask : Nat) : State :=
  ((List.range 2304).filter fun n => natBit mask (clusterOf n)).foldl (fun s n =>
    let c := s.core n
    s.setCore n { c with ipend := c.ipend ||| 1 }) s

def execIntr (q : Nat) (s : State) : Out :=
  event s (s.packetEvent q (· == 7) fun s c ws =>
    let d2 := ws.getD 2 0
    let s :=
      if d2.getLsbD 8 then
        s.requestCores ((ws.getD 3 0).toNat + bits (ws.getD 4 0) 31 0 * 2 ^ 64)
      else s.setDisp { s.disp with msix := s.disp.msix ++ [((s.queue q).fn, bits d2 5 0)] }
    s.finishPacket q c ws 1 0 0)

/-! ### Futures (R368) -/

def State.dropFutwait (s : State) (seq : Nat) : State :=
  s.setDisp { s.disp with futwaits := s.disp.futwaits.filter fun j => j.seq != seq }

/-- A FUTWAIT on a stale handle stops its queue. -/
def State.staleFutwait (s : State) (j : Job) : State :=
  (s.dropFutwait j.seq).stopQueue j.q j.era j.pkt j.inner (some j.words) 0x6604 0 (0, 1) true

/-- A FUTWAIT on a future of a module that takes no requests stops its queue with the operand trap's code, and
nothing is sent (R387; log 61). -/
def State.bareFutwait (s : State) (j : Job) : State :=
  (s.dropFutwait j.seq).stopQueue j.q j.era j.pkt j.inner (some j.words) 0x6103 0 (0, 1) true

/-- A FUTWAIT completes on an outcome, and may stop its queue (R368). In a buffer the stop comes first, so that
the buffer does not end before it; its code is that of the outcome (R373). -/
def State.endFutwait (s : State) (j : Job) (v : Word) (ok : Bool) : State :=
  let code : Code := if ok then 0 else v.setWidth 16
  let s := s.dropFutwait j.seq
  let done := fun (s : State) => s.completePacket j.q j.era j.pkt j.inner j.words 1 code v
  let stop := fun (s : State) => s.stopQueue j.q j.era j.pkt j.inner (some j.words) 0x2407 v (0, 0) true
  if ok || !(j.words.getD 3 0).getLsbD 0 then done s
  else if j.inner.isNone then stop (done s)
  else done (stop (s.setQueue j.q ((s.queue j.q).noteCode j.pkt j.era code)))

/-- Dispatch's requests stand in the list of requests under this slot number (log 11). -/
def futSlot : Nat := 2000

def State.replyFor (s : State) (j : Job) : Option Reply :=
  s.replies.find? fun r => r.slot == futSlot && r.inst == j.seq

/-- A FUTWAIT is registered at its table port: on a pending future it joins the chain as a remote waiter does
(R153, R368). -/
def State.registerFutwait (s : State) (j : Job) : State :=
  let h := j.words.getD 2 0
  let m := hModule h
  let s := s.setDisp { s.disp with futwaits := s.disp.futwaits ++ [j], seq := s.disp.seq + 1 }
  if m ≠ s.modNo.toNat then
    if !s.present m then s.staleFutwait j
    else if !s.featBit m 8 then s.bareFutwait j
    else
      let op := ReqOp.future 2 h (s.futToken j.seq) h
      let r : Req :=
        { id := s.nextId, core := 0, slot := futSlot, inst := j.seq, elem := 0, place := .remote m,
          op := op, addr := 0, pa := 0, ea := 0, size := 0, ver := false, snap := 0, tx := 0,
          oflag := false, since := 0, cyc := s.now, pool := none, sent := none, pkt := none }
      let s := { s with nextId := s.nextId + 1, reqs := s.reqs ++ [r] }
      s.sendReq r
  else match s.touchPort h with
    | (.stale, s) => s.staleFutwait j
    | (.final ok v, s) => s.endFutwait j v ok
    | (_, s) => match s.find h with
      | (.entry cl slot e, s) => s.joinChain cl slot e (s.futToken j.seq)
      | (_, s) => s

/-- A FUTWAIT that has its answer: from the port of its own module, or by the fabric. -/
def State.readyFutwait (s : State) (n : Nat) : Option Job :=
  s.disp.futwaits.find? fun j => j.q == n && (j.ans.isSome || (s.replyFor j).isSome)

/-- The answer of a FUTWAIT is taken. -/
def State.answerFutwait (s : State) (j : Job) : State :=
  match j.ans, s.replyFor j with
  | some (v, ok), _ => s.endFutwait j v ok
  | none, some r =>
    let s := { s with replies := s.replies.filter fun x => x.id != r.id }
    match portAnsOf r.ans with
    | .stale => s.staleFutwait j
    | .final ok v => s.endFutwait j v ok
    | _ => s
  | none, none => s

def execFutwait (q : Nat) (s : State) : Out :=
  event s (match s.readyFutwait q with
    | some j => s.answerFutwait j
    | none => s.packetEvent q (· == 6) fun s c ws =>
      (s.passPacket q c 1).registerFutwait (s.jobOf q c ws))

/-! ### Feed queues (R178, R372) -/

/-- A record handed to a parked FPOP: into its park record, or to its strand. -/
def State.givePopper (s : State) (p : Word × Nat) (v : Word) : State :=
  if p.1 = 0 then
    let mine := fun (w : SlotWait) => w.kind == 3 && w.token.toNat == p.2
    match s.slotWaits.find? mine with
    | none => s
    | some w =>
      let (id, s) := s.newId
      { s with slotWaits := s.slotWaits.filter fun w => !mine w,
               replies := s.replies ++ [⟨id, w.core, w.slot, w.inst, 0, .word v false⟩] }
  else s.deliverRecord (bits p.1 55 0) true v

/-- Parked FPOPs take records in park order, with fuel. -/
def State.feedPoppers (s : State) (f : Nat) : Nat → State
  | 0 => s
  | k + 1 =>
    match (s.feed f).poppers with
    | [] => s
    | p :: r =>
      match s.popFeed f with
      | none => s
      | some (v, s) => ((s.setFeed f { s.feed f with poppers := r }).givePopper p v).feedPoppers f k

/-- Records appended as one request. -/
def State.appendRecords (s : State) (f : Nat) : List Word → State
  | [] => s
  | v :: r =>
    let q := s.feed f
    let o := q.recordAt q.ftail.toNat
    ((s.hbmWrite o (leBytes 8 v.toNat)).setFeed f { q with ftail := q.ftail + 1 }).appendRecords f r

/-- FEED (R364, R372): it waits for the queue's earlier COPYs and for room. -/
def execFeed (q : Nat) (s : State) : Out :=
  event s (s.packetEvent q (· == 2) fun t c ws =>
    let f := bits (ws.getD 2 0) 9 0
    let n := bits (ws.getD 2 0) 31 16
    let x := t.feed f
    let span := packetSpan ws
    let era := (t.queue q).era
    if t.disp.copies.any fun j => j.q == q && j.era == era then s
    else if !x.en then t.stopQueue q era c.pkt c.inner (some ws) 0x640B 0 (c.skips span) c.again
    else if 2 ^ x.f < (x.ftail - x.fhead).toNat + n then s
    else
      let t := t.appendRecords f ((ws.drop 3).take n)
      (t.feedPoppers f x.poppers.length).finishPacket q c ws span 0 (BitVec.ofNat 64 n))

/-- A feed block's word 0 is refused (R358, R372). -/
def State.badFeedWord (s : State) (v : Word) : Bool :=
  let base := bits v 55 8 * 256
  let f := bits v 4 0
  decide (bits v 62 56 ≠ 0) || decide (bits v 7 5 ≠ 0) || decide (f < 4) || decide (20 < f) ||
    !s.ownHbm base || !s.ownHbm (base + 8 * 2 ^ f - 1)

/-- A disable hands closing to each parked FPOP (R372). -/
def State.disableFeed (s : State) (f : Nat) : State :=
  let q := s.feed f
  let s := s.setFeed f { q with en := false, fhead := q.ftail, poppers := [] }
  q.poppers.foldl (fun s p => s.givePopper p q.closing) s

/-- An aligned 8-byte write of word k of a feed block, by Laninak alone. -/
def State.writeFeed (s : State) (who : Agent) (f k : Nat) (v : Word) : State :=
  let q := s.feed f
  if who ≠ .laninak then s.refuse 0x0D05 (feedOff f k)
  else if k = 2 then s.setFeed f { q with closing := v }
  else if k ≠ 0 ∨ s.badFeedWord v then s.refuse 0x0409 (feedOff f k)
  else
    let q' := { q with base := v &&& 0x00FFFFFFFFFFFF00, f := bits v 4 0 }
    if v.getLsbD 63 && !q.en then s.setFeed f { q' with en := true, ftail := 0, fhead := 0 }
    else if !v.getLsbD 63 && q.en then (s.disableFeed f).setFeed f { q' with en := false, fhead := q.ftail,
                                                                             poppers := [] }
    else s.setFeed f q'

/-- Word k of a feed block as it reads. -/
def State.feedWord (s : State) (f k : Nat) : Word :=
  let q := s.feed f
  if k = 0 then BitVec.ofNat 64 (b1 q.en * 2 ^ 63 + q.base.toNat + q.f)
  else if k = 1 then BitVec.ofNat 64 (q.ftail.toNat * 2 ^ 32 + q.fhead.toNat)
  else if k = 2 then q.closing
  else BitVec.ofNat 64 q.poppers.length

def execFeedQueueEnable (who : Agent) (f : Nat) (v : Word) (s : State) : Out :=
  event s (s.writeFeed who f 0 (v ||| 0x8000000000000000))

def execFeedQueueDisable (who : Agent) (f : Nat) (v : Word) (s : State) : Out :=
  event s (s.writeFeed who f 0 (v &&& ~~~0x8000000000000000))

/-! ### The deadline heap (R366, R367) -/

/-- The queue's epoch and admissions brought up to the time (R366). -/
def State.epoch (s : State) (n : Nat) : State :=
  let q := s.queue n
  let ep := s.time.toNat / 2 ^ q.e
  if q.ep = some ep then s else s.setQueue n { q with ep := some ep, adm := 0 }

/-- The budget admits one more packet. -/
def HQueue.admits (q : HQueue) : Bool := q.budget == 0 || decide (q.adm < q.budget)

/-- An admitted packet enters the heap, or waits for room there behind those that wait. -/
def State.enterHeap (s : State) (j : Job) : State :=
  let d := s.disp
  (s.setDisp { d with ready := d.ready ++ [j] }).refillHeap 256

def execHeapAdmit (q : Nat) (s : State) : Out :=
  event s (s.packetEvent q (fun o => o == 1 || o == 3) fun t c ws =>
    let t := t.epoch q
    let x := t.queue q
    if x.admits then (t.setQueue q { x with adm := x.adm + 1 }).enterHeap (t.jobOf q c ws) else s)

/-- The key of a heap entry, with the queue's priority as it stands. -/
def State.heapKey (s : State) (j : Job) : Nat × Nat × Nat :=
  let d := (j.words.getD 1 0).toNat
  (if d = 0 then 2 ^ 64 - 1 else d, 3 - (s.queue j.q).prio, j.seq)

/-- Lexicographic order of keys. -/
def keyLess (a b : Nat × Nat × Nat) : Bool :=
  decide (a.1 < b.1) || (a.1 == b.1 && (decide (a.2.1 < b.2.1) ||
    (a.2.1 == b.2.1 && decide (a.2.2 < b.2.2))))

/-- The unit of a packet has room: 8 launches that wait for their place, 16 copies (log 52). -/
def State.unitRoom (s : State) (j : Job) : Bool :=
  if hdrOp j.words = 1 then decide ((s.disp.launches.filter fun x => x.fut.isNone).length < 8)
  else decide (s.disp.copies.length < 16)

/-- The entry that Dispatch takes next. -/
def State.heapBest (s : State) : Option Job :=
  (s.disp.heap.filter fun j => (s.queue j.q).state == 1 && s.unitRoom j).foldl (fun b j =>
    match b with
    | none => some j
    | some x => if keyLess (s.heapKey j) (s.heapKey x) then some j else b) none

/-- The queue passes a packet that has been taken. -/
def State.passJob (s : State) (j : Job) : State :=
  s.passPacket j.q ⟨j.pkt, j.inner, 0, 0, j.again⟩ 1

/-- A COPY lies in the windows of its queue's owner (R368, R400). -/
def State.copyAllowed (s : State) (j : Job) : Bool :=
  let d := fun i => (j.words.getD i 0).toNat
  let f := (s.queue j.q).fn
  d 4 == 0 || (s.inWindow f (d 2) (d 4) && s.inWindow f (d 3) (d 4))

/-- An entry is taken into its unit; a COPY outside the windows stops its queue. -/
def State.takeJob (s : State) (j : Job) : State :=
  let d := s.disp
  let s := (s.setDisp { d with heap := d.heap.filter fun x => x.seq != j.seq }).refillHeap 256
  let s := s.passJob j
  let d := s.disp
  if hdrOp j.words = 1 then s.setDisp { d with launches := d.launches ++ [j] }
  else if s.copyAllowed j then s.setDisp { d with copies := d.copies ++ [j] }
  else s.stopQueue j.q j.era j.pkt j.inner (some j.words) 0x6404 0 (0, 1) true

def execHeapTake (s : State) : Out :=
  event s (match s.heapBest with
    | some j => s.takeJob j
    | none => s)

/-! ### Launches (R368, R404, R406) -/

/-- Free strand slots of the cores of a cluster. -/
def State.clusterFree (s : State) (cl : Nat) : Nat :=
  ((List.range 24).map fun i => (s.freeSlots (24 * cl + i)).length).sum

/-- The number below `n` with the greatest score above 0 or equal, the lowest number winning ties. -/
def bestOf (score : Nat → Nat) : Nat → Nat
  | 0 => 0
  | n + 1 => let b := bestOf score n; if score b < score n then n else b

/-- The core of a cluster with the most free slots. -/
def State.freeCore (s : State) (cl : Nat) : Nat :=
  24 * cl + bestOf (fun i => (s.freeSlots (24 * cl + i)).length) 24

/-- A die's ready bit (R404). -/
def State.dieReady (s : State) (cl : Nat) : Bool := s.man.ready.getLsbD (2 + dieOf cl)

/-- A cluster whose future table has a free slot (R368). -/
def State.hasRoom (s : State) (cl : Nat) : Bool := (s.allocate cl 0).1.isSome

/-- The cluster chosen for any (R368). -/
def State.anyCluster (s : State) : Option Nat :=
  let l := (List.range 96).filter fun c => s.dieReady c && s.drainState c == 0 && s.hasRoom c
  l.foldl (fun b c => match b with
    | none => some c
    | some x => if s.clusterFree x < s.clusterFree c then some c else b) none

/-- The root's descriptor. -/
def rootDesc (ws : List Word) (h : Word) : Desc :=
  let d2 := ws.getD 2 0
  { mig := d2.getLsbD 63, prio := d2.extractLsb' 61 2, tiles := 0, pc := d2.extractLsb' 0 56, pois := 0,
    resume := false, ixk := 0, index := 0, pred := 0, self := h, parent := 0,
    carry := ws.drop 4 ++ List.replicate 12 0 }

def State.setLaunch (s : State) (j : Job) : State :=
  let f := fun (x : Job) => if x.seq = j.seq then j else x
  s.setDisp { s.disp with launches := s.disp.launches.map f }

/-- A launch placed in a cluster; without room there it waits. -/
def State.placeIn (s : State) (j : Job) (cl : Nat) : State :=
  let core := s.freeCore cl
  let waits := { j with ans := some (0, false) }
  if !(s.core core).dequeRoom then s.setLaunch waits
  else match s.allocate cl 0 with
    | (some h, t) => (t.pushDeque core (rootDesc j.words h)).setLaunch { j with fut := some h }
    | (none, t) => t.setLaunch waits

/-- A launch in its unit: placed, waiting, or stopping its queue at a fenced cluster. -/
def State.tryLaunch (s : State) (j : Job) : State :=
  let t := bits (j.words.getD 3 0) 7 0
  if t = 0xFF then
    match s.anyCluster with
    | some cl => s.placeIn j cl
    | none => s.setLaunch { j with ans := some (0, false) }
  else
    let st := s.drainState t
    if st = 3 then
      let d := s.disp
      (s.setDisp { d with launches := d.launches.filter fun x => x.seq != j.seq }).stopQueue
        j.q j.era j.pkt j.inner (some j.words) 0x640A 0 (0, 1) true
    else if st = 0 ∧ s.dieReady t then s.placeIn j t
    else s.setLaunch { j with ans := some (0, false) }

/-- LAUNCH: a launch that has just been taken. -/
def execLaunch (seq : Nat) (s : State) : Out :=
  event s (match s.disp.launches.find? fun j => j.seq == seq && j.fut.isNone && j.ans.isNone with
    | some j => s.tryLaunch j
    | none => s)

/-- LAUNCH_PLACEMENT: a launch that has waited. -/
def execLaunchPlacement (seq : Nat) (s : State) : Out :=
  event s (match s.disp.launches.find? fun j => j.seq == seq && j.fut.isNone && j.ans.isSome with
    | some j => s.tryLaunch j
    | none => s)

/-- The outcome of a launch's root future, once it is final. -/
def State.rootOutcome (s : State) (h : Word) : Option (Word × Bool) :=
  match (s.touchPort h).1 with
  | .final ok v => some (v, ok)
  | _ => none

def execLaunchComplete (seq : Nat) (s : State) : Out :=
  event s (match s.disp.launches.find? fun j => j.seq == seq && j.fut.isSome with
    | some j =>
      let h := j.fut.getD 0
      match s.rootOutcome h with
      | some (v, ok) =>
        let d := s.disp
        let s := s.setDisp { d with launches := d.launches.filter fun x => x.seq != seq }
        let code : Code := if ok then 0 else v.setWidth 16
        (s.completePacket j.q j.era j.pkt j.inner j.words 1 code v).dropRef h
      | none => s
    | none => s)

/-- A COPY of a queue in its unit whose source lies in the host window. -/
def State.hostCopy (s : State) (q : Nat) : Option Job :=
  s.disp.copies.find? fun j =>
    j.q == q && s.placeOf (j.words.getD 3 0).toNat == .host && (j.words.getD 4 0) != 0

/-- The packet at which a queue reads its ring in the host window. -/
def State.hostPacket (s : State) (q : Nat) : Option Cur := (s.current q).filter fun c => inHost (paOffset c.pa)

/-- A ring read that fails stops its queue (R359); the header's tag has not been read. -/
def State.packetTimeout (s : State) (q : Nat) (c : Cur) : State :=
  let tag := Config.freeWord s.fresh
  let s := { s with fresh := s.fresh + 1 }
  s.stopQueue q (s.queue q).era c.pkt c.inner (some [tag]) 0x2501 0 (c.skips 1) c.again

/-- A COPY whose read of host memory fails stops its queue before it has written anything (R376, R401). -/
def State.copyTimeout (s : State) (j : Job) : State :=
  (s.setDisp { s.disp with copies := s.disp.copies.filter fun x => x.seq != j.seq }).stopQueue j.q j.era
    j.pkt j.inner (some j.words) 0x2501 0 (0, 1) true

/-- HOST_READ_TIMEOUT (R359, R376, R401): a read of a ring in the host window fails, or that of a COPY; where
a queue makes both, a free choice says which (log 3). -/
def execHostReadTimeout (q : Nat) (s : State) : Out :=
  event s (match s.hostCopy q, s.hostPacket q with
    | some j, none => s.copyTimeout j
    | none, some c => s.packetTimeout q c
    | some j, some c =>
      let (n, s) := s.choose 2
      if n = 0 then s.copyTimeout j else s.packetTimeout q c
    | none, none => s)

end Sys2Proof.Machine
end

