-- ==== Sys2Proof/Machine/Registers.lean ====
section
/-! DEFINITION. The device-register region (R357, R397 to R400, R402, R404, R405, R408, R410, R418): what each
word reads, what a write does and what is refused; the start of a die (R414); and COPY (R368), which
may reach a register. -/

namespace Sys2Proof

/-- The physical function or the management port (R397). -/
def Agent.manages (a : Agent) : Bool := a == .pf || a == .mgmt

/-- A strand. -/
def Agent.isStrand (a : Agent) : Bool := a == .sup || a == .user

end Sys2Proof

namespace Sys2Proof.Machine

/-! ### Objects by offset (R398) -/

/-- The object an offset of the region lies in, with its index and its word or byte. -/
inductive DevObj where
  | queue (n k : Nat)
  | sem (i : Nat)
  | feed (f k : Nat)
  | store
  | route (m : Nat)
  | version (i : Nat)
  | port (q w : Nat)
  | census (o : Nat)
  | control (o : Nat)
  | debugWord (n : Nat)
  | interrupt (n : Nat)
  | readback (o : Nat)
  | hole
  deriving DecidableEq, Repr

def devObj (o : Nat) : DevObj :=
  if 0x3FFF00100000 ≤ o ∧ o < 0x3FFF00300000 then
    .queue ((o - 0x3FFF00100000) / 64) ((o - 0x3FFF00100000) / 8 % 8)
  else if 0x3FFF00300000 ≤ o ∧ o < 0x3FFF00308000 then .sem ((o - 0x3FFF00300000) / 8)
  else if 0x3FFF00310000 ≤ o ∧ o < 0x3FFF00318000 then
    .feed ((o - 0x3FFF00310000) / 32) ((o - 0x3FFF00310000) / 8 % 4)
  else if inStore o then .store
  else if 0x3FFF00800000 ≤ o ∧ o < 0x3FFF00801000 then .route ((o - 0x3FFF00800000) / 8)
  else if 0x3FFF00810000 ≤ o ∧ o < 0x3FFF00810030 then .version ((o - 0x3FFF00810000) / 8)
  else if 0x3FFF00820000 ≤ o ∧ o < 0x3FFF00824000 then
    .port ((o - 0x3FFF00820000) / 256) ((o - 0x3FFF00820000) / 8 % 32)
  else if 0x3FFF01000000 ≤ o ∧ o < 0x3FFF01100000 then .census ((o - 0x3FFF01000000) / 8 * 8)
  else if 0x3FFF02000000 ≤ o ∧ o < 0x3FFF02010000 then .control ((o - 0x3FFF02000000) / 8 * 8)
  else if 0x3FFF03000000 ≤ o ∧ o < 0x3FFF03000000 + 64 * 2304 then
    let n := (o - 0x3FFF03000000) / 64
    let k := (o - 0x3FFF03000000) / 8 % 8
    if k = 0 then .debugWord n else if k = 1 then .interrupt n else .hole
  else if 0x3FFF80000000 ≤ o ∧ o < 0x400000000000 then .readback ((o - 0x3FFF80000000) / 8 * 8)
  else .hole

/-! ### The census (R402, R404) -/

/-- Word i of the cluster drain states: 32 clusters of two bits. -/
def State.drainWord (s : State) (i : Nat) : Nat :=
  (List.range 32).foldl (fun m j => m + s.drainState (32 * i + j) * 4 ^ j) 0

def Link.word0 (l : Link) : Nat :=
  l.peer.toNat + l.peerLink * 2 ^ 16 + l.state * 2 ^ 24 + l.retrains * 2 ^ 32

/-- The history entry at place j of the ring: the newest whose number has that place. -/
def Manage.entryAt (m : Manage) (j : Nat) : Option FaultRec :=
  let back := (m.written + 4095 - j) % 4096
  if back < m.written then m.history[back]? else none

/-- Word k, 0 or 1, of a history entry. -/
def FaultRec.word (r : FaultRec) (k : Nat) : Word :=
  if k = 0 then r.time
  else BitVec.ofNat 64 (r.v.toNat * 2 ^ 32 + r.loc.toNat * 2 ^ 16 + r.code.toNat)

def State.censusWord (s : State) (o : Nat) : Word :=
  let m := s.man
  if o = 0 then BitVec.ofNat 64 m.gen
  else if o = 8 then m.updated
  else if o = 0x10 then BitVec.ofNat 64 (s.modNo.toNat + m.revision.toNat * 2 ^ 16)
  else if o = 0x40 then m.ready.setWidth 64
  else if 0x100 ≤ o ∧ o < 0x120 then
    let b := SMap.get m.boundaries {} ((o - 0x100) / 8)
    BitVec.ofNat 64 (b.state + b.replays * 2 ^ 32)
  else if 0x200 ≤ o ∧ o < 0x440 then
    let l := SMap.get m.links {} ((o - 0x200) / 16)
    BitVec.ofNat 64 (if o / 8 % 2 = 0 then l.word0 else l.errors)
  else if 0x500 ≤ o ∧ o < 0x600 then
    let k := SMap.get m.hbm {} ((o - 0x500) / 32)
    BitVec.ofNat 64 ([k.state, k.corrected, k.uncorrectable, k.temp].getD (o / 8 % 4) 0)
  else if 0x600 ≤ o ∧ o < 0x618 then BitVec.ofNat 64 (s.drainWord ((o - 0x600) / 8))
  else if 0x700 ≤ o ∧ o < 0x720 then BitVec.ofNat 64 (SMap.get m.corrected 0 ((o - 0x700) / 8))
  else if o = 0xF00 then BitVec.ofNat 64 m.written
  else if 0x1000 ≤ o ∧ o < 0x11000 then
    ((m.entryAt ((o - 0x1000) / 16)).map fun r => r.word (o / 8 % 2)).getD 0
  else 0

/-! ### The control block (R400, R405, R410, R414) -/

/-- Settings of 32 clusters or 4 dies as one word. -/
def settingsWord (m : SMap Nat) (base n : Nat) : Word :=
  BitVec.ofNat 64 ((List.range n).foldl (fun w i => w + SMap.get m 0 (base + i) * 4 ^ i) 0)

def State.controlWord (s : State) (o : Nat) : Word :=
  let m := s.man
  if o = 0 then 0x7F
  else if 0x20 ≤ o ∧ o < 0x40 then m.accept.extractLsb' (8 * (o - 0x20)) 64
  else if o = 0x40 then BitVec.ofNat 64 (b1 m.lock)
  else if o = 0x100 then BitVec.ofNat 64 m.drainModule
  else if o = 0x108 then settingsWord m.drainDie 0 4
  else if 0x110 ≤ o ∧ o < 0x128 then settingsWord m.drainCluster (32 * ((o - 0x110) / 8)) 32
  else if o = 0x200 then m.broot
  else if o = 0x208 then m.bvec
  else if o = 0x210 then m.start.setWidth 64
  else if 0x400 ≤ o ∧ o < 0x400 + 64 * 65 then s.windowWord ((o - 0x400) / 8)
  else 0

/-- The control block holds an object at this offset. -/
def controlObject (o : Nat) : Bool :=
  decide (o ≤ 0x40) || decide (0x100 ≤ o ∧ o < 0x128) || decide (0x200 ≤ o ∧ o < 0x218) ||
    decide (0x400 ≤ o ∧ o < 0x400 + 64 * 65)

/-! ### The readback window (R408, R409) -/

/-- The 8-byte word at byte `o` of an image. -/
def imageWord (bs : List Byte) (o : Nat) : Word := leWord ((bs.drop o).take 8)

/-- A strand record with the slot's state in byte 294. -/
def State.slotImage (s : State) (core slot : Nat) : List Byte :=
  let bs := s.strandImage core slot
  let x := match (s.strand core slot).st with
    | .free => 0
    | .ready => 1
    | .waiting => 2
    | .halted => 3
  bs.take 294 ++ leBytes 1 x ++ bs.drop 295

/-- The Loom's small image, planes and vats one after the other (log 53). -/
def Loom.wholeImage (m : Loom) : List Byte :=
  m.image ++ m.warp.image ++ m.shadow.image ++ (List.range 4).flatMap m.v0.image ++
    (List.range 4).flatMap m.v1.image

/-- Port status of a core (R172). -/
def State.portStatusOf (s : State) (n : Nat) : Word :=
  let c := s.core n
  BitVec.ofNat 64 (c.discards.toNat * 2 ^ 32 + (c.owner.getD 0) * 2 ^ 9 + b1 c.owner.isSome * 2 ^ 8 +
    (s.core (downstream n)).portQ.length * 16 + c.portQ.length)

def State.coreWord (s : State) (n o : Nat) : Word :=
  let c := s.core n
  if o < 0x3000 then imageWord (s.slotImage n (o / 384)) (o % 384)
  else if 0x4000 ≤ o ∧ o < 0x4000 + 64 * 1152 then
    imageWord (SMap.get c.tiles {} ((o - 0x4000) / 1152)).image ((o - 0x4000) % 1152)
  else if 0x18000 ≤ o ∧ o < 0x18100 then imageWord c.layoutImage (o - 0x18000)
  else if 0x19000 ≤ o ∧ o < 0x1D000 then SMap.get c.tags 0 ((o - 0x19000) / 8)
  else if 0x20000 ≤ o ∧ o < 0x60000 then imageWord c.loom.wholeImage (o - 0x20000)
  else if 0x60000 ≤ o ∧ o < 0x60030 then
    let k := (o - 0x60000) / 4
    BitVec.ofNat 64 (SMap.get c.counters 0 k + SMap.get c.counters 0 (k + 1) * 2 ^ 32)
  else if o = 0x60030 then s.portStatusOf n
  else if o = 0x60038 then c.slots
  else if 0x70000 ≤ o ∧ o < 0x70000 + 12296 then imageWord (queueImage c.deque) (o - 0x70000)
  else if 0x74000 ≤ o ∧ o < 0x74000 + 12296 then imageWord (queueImage c.arrivals) (o - 0x74000)
  else 0

/-- The allowance word of R390. -/
def Allow.word (a : Allow) : Word :=
  BitVec.ofNat 64 (a.w * 2 ^ 36 + a.n % 2 ^ 11 * 2 ^ 25 + a.c * 2 ^ 14)

/-- A logical entry as it stands: resident, in the backing store, or as at reset (R142). -/
def State.shownEntry (s : State) (cl slot : Nat) : FutEntry :=
  match (s.cluster cl).fut.find? fun x => x.1 == slot with
  | some x => x.2
  | none =>
    if s.futBase cl = 0 then FutEntry.empty
    else entryOf (s.seen (s.futOff cl slot) 32) (s.seen (s.memberOff cl slot) 64) 0

def State.clusterWord (s : State) (cl o : Nat) : Word :=
  let k := s.cluster cl
  if o < 0x200000 then imageWord (s.shownEntry cl (o / 32)).bytes (o % 32)
  else if 0x200000 ≤ o ∧ o < 0x200400 then
    match SMap.get k.tdesc none ((o - 0x200000) / 32) with
    | some e => e.extractLsb' (8 * (o % 32)) 64
    | none => 0
  else if 0x201000 ≤ o ∧ o < 0x2010C8 then s.copyStatus cl ((o - 0x201000) / 8)
  else if 0x210000 ≤ o ∧ o < 0x211000 then (s.allow cl ((o - 0x210000) / 8)).word
  else if 0x400000 ≤ o ∧ o < 0x800000 then
    imageWord (memberBytes (s.shownEntry cl ((o - 0x400000) / 64)).members) (o % 64)
  else 0

/-- The version registers (R242). -/
def State.versionWord (s : State) (i : Nat) : Word :=
  let v := s.ver
  [v.vclock, v.vlow, v.vpbase, v.vpcount, BitVec.ofNat 64 v.vpfree, v.vreclaim].getD i 0

/-- A word of a port's control block (R213). -/
def State.portWord (s : State) (q w : Nat) : Word :=
  if w < 16 then SMap.get (s.port q).range 0 w else 0

def Snap.word (x : Snap) (k : Nat) : Word :=
  if k = 0 then x.stamp else BitVec.ofNat 64 (x.refs * 2 ^ 32 + b1 (x.refs != 0))

def Tx.word (x : Tx) (k : Nat) : Word :=
  if k = 0 then x.rstamp else if k = 1 then x.cstamp else if k = 2 then x.future
  else BitVec.ofNat 64 (x.lines * 2 ^ 32 + x.cause.toNat * 2 ^ 16 + x.state.toNat)

def State.moduleWord (s : State) (o : Nat) : Word :=
  if o < 0x30 then s.versionWord (o / 8)
  else if 0x10000 ≤ o ∧ o < 0x20000 then (SMap.get s.ver.snaps {} ((o - 0x10000) / 16)).word (o / 8 % 2)
  else if 0x20000 ≤ o ∧ o < 0x40000 then (s.tx ((o - 0x20000) / 32)).word (o / 8 % 4)
  else if 0x40000 ≤ o ∧ o < 0x44000 then s.portWord ((o - 0x40000) / 256) (o / 8 % 32)
  else 0

def State.readbackWord (s : State) (o : Nat) : Word :=
  if o < 2304 * 0x80000 then s.coreWord (o / 0x80000) (o % 0x80000)
  else if 0x48000000 ≤ o ∧ o < 0x48000000 + 96 * 0x800000 then
    s.clusterWord ((o - 0x48000000) / 0x800000) ((o - 0x48000000) % 0x800000)
  else if 0x78000000 ≤ o then s.moduleWord (o - 0x78000000)
  else 0

/-! ### Reads (R397 to R399) -/

/-- A virtual function's bytes of the packet store: rings of the queues it owns. -/
def State.ownsStore (s : State) (f o n : Nat) : Bool :=
  s.disp.queues.any fun x =>
    let b := paOffset x.2.base.toNat
    x.2.fn == f && decide (b ≤ o) && decide (o + n ≤ b + 64 * 2 ^ x.2.s)

/-- An agent may read an object; `n` bytes from offset `o`. -/
def State.mayRead (s : State) (who : Agent) (x : DevObj) (o n : Nat) : Bool :=
  match x with
  | .queue q _ => s.mayReadQueue who q
  | .sem _ => who != .mgmt
  | .feed _ _ => match who with
    | .vf _ | .mgmt => false
    | _ => true
  | .store => match who with
    | .vf v => s.ownsStore v o n
    | .mgmt => false
    | _ => true
  | .route _ | .version _ | .port _ _ => who == .pf || who.isStrand
  | .census _ => true
  | .control c => (who.manages || who == .laninak) && controlObject c
  | .debugWord _ | .interrupt _ | .readback _ => who.manages
  | .hole => false

/-- An aligned word of the region. -/
def State.devWord (s : State) (o : Nat) : Word :=
  match devObj o with
  | .queue n k => s.queueWord n k
  | .sem i => s.sem i
  | .feed f k => s.feedWord f k
  | .store => s.word o
  | .route m => s.route m
  | .version i => s.versionWord i
  | .port q w => s.portWord q w
  | .census c => s.censusWord c
  | .control c => s.controlWord c
  | .debugWord n => (s.core n).dbg
  | .readback r => s.readbackWord r
  | _ => 0

/-- The code of a discarded access (R399). -/
def deniedCode : DevObj → Code
  | .queue _ _ => 0x0503
  | _ => 0x0D05

/-- The bytes of a range that lie in one word: where they begin in it, and how many. -/
def partOf (o n w : Nat) : Nat × Nat := (max o w - w, min (o + n) (w + 8) - max o w)

/-- An agent may read what a range holds of an aligned word. -/
def State.mayReadPart (s : State) (who : Agent) (o n w : Nat) : Bool :=
  let x := partOf o n w
  s.mayRead who (devObj w) (w + x.1) x.2

/-- The words of a range that an agent may not read. -/
def State.deniedWords (s : State) (who : Agent) (o n : Nat) : List Nat :=
  ((wordsOf o n).map (8 * ·)).filter fun w => !s.mayReadPart who o n w

/-- The first word denied with each code is counted: one read is one event for each (R399; log 54). -/
def State.countDenied (s : State) (ws : List Nat) : State :=
  ([0x0503, 0x0D05] : List Code).foldl (fun s c =>
    match ws.find? fun w => deniedCode (devObj w) == c with
    | some w => s.refuse c w
    | none => s) s

/-- A die boundary that is up has replayed a free number of flits since its count was last read (R378; log
60). -/
def State.replay (s : State) (b : Nat) : State :=
  let x := SMap.get s.man.boundaries {} b
  if x.state = 1 then
    let edges := SMap.put s.man.boundaries {} b { x with replays := x.replays + Config.pick s.fresh }
    { s with fresh := s.fresh + 1, man := { s.man with boundaries := edges } }
  else s

/-- A link that is up has met a free number of flit errors since their count was last read (R402; log 60). -/
def State.flitErrors (s : State) (l : Nat) : State :=
  let x := s.link l
  if x.state = 2 then
    { s with fresh := s.fresh + 1 }.setLink l { x with errors := x.errors + Config.pick s.fresh }
  else s

/-- The temperature of a stack is free whenever it is read (R402; log 2). -/
def State.warm (s : State) (k : Nat) : State :=
  { s with fresh := s.fresh + 1 }.setStack k { s.stack k with temp := Config.pick s.fresh }

/-- The backing bytes of a logical entry that is not resident are read to be shown (R142, R212). -/
def State.meetEntry (s : State) (cl slot : Nat) : State :=
  if s.futBase cl = 0 || (s.cluster cl).fut.any fun x => x.1 == slot then s
  else (s.meet (s.futOff cl slot) 32).meet (s.memberOff cl slot) 64

/-- What a read of a word of the region finds moved: by what this model does not hold, a boundary's replays, a
link's flit errors, a stack's temperature (R402); and by the read of a future entry in HBM. -/
def State.drift (s : State) (w : Nat) : State :=
  match devObj w with
  | .census o =>
    if 0x100 ≤ o ∧ o < 0x120 then s.replay ((o - 0x100) / 8)
    else if 0x200 ≤ o ∧ o < 0x440 ∧ o % 16 = 8 then s.flitErrors ((o - 0x200) / 16)
    else if 0x500 ≤ o ∧ o < 0x600 ∧ o % 32 = 24 then s.warm ((o - 0x500) / 32)
    else s
  | .readback r =>
    if r < 0x48000000 ∨ 0x78000000 ≤ r then s
    else
      let cl := (r - 0x48000000) / 0x800000
      let o := (r - 0x48000000) % 0x800000
      if o < 0x200000 then s.meetEntry cl (o / 32)
      else if 0x400000 ≤ o then s.meetEntry cl ((o - 0x400000) / 64)
      else s
  | _ => s

/-- Bytes of the region as an agent reads them: of words that it may not read 0, and they are counted
(R398, R399). -/
def State.devRead (s : State) (who : Agent) (o n : Nat) : List Byte × State :=
  let s := ((wordsOf o n).filter fun w => s.mayReadPart who o n (8 * w)).foldl (fun s w => s.drift (8 * w)) s
  ((List.range n).map fun i =>
      let w := (o + i) / 8 * 8
      if s.mayReadPart who o n w then BitVec.ofNat 8 ((s.devWord w).toNat / 2 ^ (8 * ((o + i) % 8))) else 0,
    s.countDenied (s.deniedWords who o n))

/-! ### Writes of the route table and the ports (R382, R213, R242) -/

/-- A path of a route word that is refused: valid with a bad link or hop count, or a reserved bit. -/
def badPath (v : Word) (p : Nat) : Bool :=
  decide (pathBits v p % 4 ≠ 0) ||
    (pathValid v p && (decide (35 < pathLink v p) || pathHops v p == 0 || pathHops v p == 7))

/-- The stores and requests to a module that could not be sent set out when a path can take them. -/
def State.resend (s : State) : State :=
  let s := s.reqs.foldl (fun s r => match r.place, r.sent with
    | .remote _, none => s.sendReq r
    | _, _ => s) s
  s.cores.foldl (fun s x => s.pumpCore x.1) s

/-- The task parked first for a module's allowance: its index (R391). -/
def State.firstParked (s : State) (cl m : Nat) : Option Nat :=
  let k := s.cluster cl
  let mine := k.parkRows.filter fun x => decide (2 ^ 25 ≤ x.2) && x.2 / 65536 % 512 == m
  (mine.foldl (fun (b : Option (Nat × Nat)) x => match b with
    | none => some x
    | some y => if x.2 / 2 ^ 25 < y.2 / 2 ^ 25 then some x else some y) none).map (·.1)

/-- Tasks parked for allowance are woken in park order, one for each sector (R391). -/
def State.wakeParked (s : State) (cl m : Nat) : Nat → State
  | 0 => s
  | k + 1 =>
    match s.firstParked cl m with
    | none => s
    | some i =>
      let c := s.cluster cl
      let rows := SMap.get c.parkRows 0 i % 65536
      ((s.setCluster cl { c with parkRows := SMap.put c.parkRows 0 i rows }).wake cl i).wakeParked cl m k

/-- A word of the route table: the paths; feat stays (R382). The allowances of the destination are
as at reset (R390). -/
def State.writeRoute (s : State) (who : Agent) (m : Nat) (v : Word) : State :=
  let off := 0x3FFF00800000 + 8 * m
  let own := m == s.modNo.toNat && (List.range 4).any (pathValid v)
  if who ≠ .pf then s.refuse 0x0D05 off
  else if (List.range 4).any (badPath v) || own then s.refuse 0x0A07 off
  else
    let w := (v &&& 0x0000FFFFFFFFFFFF) ||| (s.route m &&& 0xFFFF000000000000)
    let s := { s with routes := SMap.put s.routes 0 m w }
    (s.clusters.foldl (fun s x =>
      let a := s.allow x.1 m
      (s.setAllow x.1 m {}).wakeParked x.1 m (64 - (a.w - a.n))) s).resend

def execRouteWordWrite (who : Agent) (m bytes : Nat) (v : Word) (s : State) : Out :=
  event s (if bytes = 8 ∨ who ≠ .pf then s.writeRoute who m v
    else s.refuse 0x0A07 (0x3FFF00800000 + 8 * m))

/-- A range register's two words are refused (R213). -/
def badRange (w0 w1 : Word) : Bool :=
  decide (64 < bits w1 6 0) || decide (bits w0 62 56 ≠ 0) || decide (bits w1 63 56 ≠ 0) ||
    decide (bits w1 15 7 ≠ 0) || (w0.getLsbD 63 && decide (bits w1 55 16 < bits w0 55 16))

/-- A write of a word of a port's control block (R213); one of bytes 128 to 255, which read 0, is refused as a bad
one is (log 54). -/
def State.writeRange (s : State) (who : Agent) (q w : Nat) (v : Word) : State :=
  let p := s.port q
  let other := SMap.get p.range 0 (if w % 2 = 0 then w + 1 else w - 1)
  let bad := if w % 2 = 0 then badRange v other else badRange other v
  if !(who == .pf || who == .sup) || decide (16 ≤ w) || bad then s.record 0x0701 (0x0960 + q) (8 * w)
  else
    s.setPort q { p with range := SMap.put p.range 0 w v, cnt := SMap.put p.cnt 0 (w / 2) 0 }

def execRangeRegisterWrite (who : Agent) (port word bytes : Nat) (v : Word) (s : State) : Out :=
  event s (if bytes = 8 then s.writeRange who port word v
    else s.record 0x0701 (0x0960 + port) (8 * word))

/-- A write of vpbase or vpcount is refused (R242). -/
def State.badPool (s : State) (i : Nat) (v : Word) : Bool :=
  let base := bits (if i = 2 then v else s.ver.vpbase) 55 8 * 256
  let count := bits (if i = 3 then v else s.ver.vpcount) 23 0
  let top := base + 160 * count - 1
  let reserved := if i = 2 then decide (bits v 63 56 ≠ 0) || decide (bits v 7 0 ≠ 0)
    else decide (bits v 63 24 ≠ 0)
  !s.ver.pool.isEmpty || reserved || (count != 0 && !(s.ownHbm base && s.ownHbm top))

/-- A write of version register i: 2 is vpbase, 3 is vpcount (R242). -/
def State.writeVersionReg (s : State) (who : Agent) (i : Nat) (v : Word) : State :=
  let allowed := (who == .pf || who == .sup) && (i == 2 || i == 3)
  if !allowed || s.badPool i v then s.refuse 0x0801 (0x3FFF00810000 + 8 * i)
  else if i = 2 then { s with ver := { s.ver with vpbase := v, pool := [] } }
  else { s with ver := { s.ver with vpcount := v, pool := [] } }

def execVersionPoolWrite (who : Agent) (reg bytes : Nat) (v : Word) (s : State) : Out :=
  event s (if bytes = 8 then s.writeVersionReg who reg v else s.refuse 0x0801 (0x3FFF00810000 + 8 * reg))

/-! ### Writes of the control block -/

def controlOff (o : Nat) : Nat := 0x3FFF02000000 + o

/-- The settings a word of R405 gives. -/
def settingsOf (v : Word) (n : Nat) : List Nat := (List.range n).map fun i => v.toNat / 4 ^ i % 4

/-- The management state with the settings a word gives: 0x100, 0x108, 0x110 to 0x120. -/
def Manage.settings (m : Manage) (o : Nat) (v : Word) : Manage :=
  let put := fun (x : SMap Nat) (base n : Nat) =>
    (List.range n).foldl (fun x i => SMap.put x 0 (base + i) ((settingsOf v n).getD i 0)) x
  if o = 0x100 then { m with drainModule := v.toNat % 4 }
  else if o = 0x108 then { m with drainDie := put m.drainDie 0 4 }
  else { m with drainCluster := put m.drainCluster (32 * ((o - 0x110) / 8)) 32 }

/-- A drain write is refused: a setting of 2, a reserved bit, or a cluster fenced while it is not
drained (R405). -/
def State.badDrain (s : State) (o : Nat) (v : Word) : Bool :=
  let n := if o = 0x100 then 1 else if o = 0x108 then 4 else 32
  let t := { s with man := s.man.settings o v }
  decide (4 ^ n ≤ v.toNat) || (settingsOf v n).contains 2 ||
    (List.range 96).any fun c => t.drainState c == 3 && s.drainState c != 3 && s.drainState c != 2

def State.writeDrain (s : State) (who : Agent) (o : Nat) (v : Word) : State :=
  if !(who.manages || who == .laninak) then s.refuse 0x0D05 (controlOff o)
  else if s.badDrain o v then s.refuse 0x0D01 (controlOff o)
  else { s with man := s.man.settings o v }

/-- DRAIN_WRITE; `off` is the offset in the control block. -/
def execDrainWrite (who : Agent) (off : Nat) (v : Word) (s : State) : Out :=
  event s (if off = 0x100 ∨ off = 0x108 ∨ off = 0x110 ∨ off = 0x118 ∨ off = 0x120 then s.writeDrain who off v
    else s)

/-- Word i of the feature accept (R410). -/
def State.writeAccept (s : State) (who : Agent) (i : Nat) (v : Word) : State :=
  let offered : Word := if i = 0 then 0x7F else 0
  if who ≠ .pf then s.refuse 0x0D05 (controlOff (0x20 + 8 * i))
  else if s.man.lock || decide (v &&& ~~~offered ≠ 0) then s.refuse 0x0D04 (controlOff (0x20 + 8 * i))
  else
    let w := (v.setWidth 256 : BitVec 256) <<< (64 * i)
    { s with man := { s.man with accept := s.man.accept ||| w, lock := true } }

def execFeatureAcceptWrite (who : Agent) (i : Nat) (v : Word) (s : State) : Out :=
  event s (if i < 4 then s.writeAccept who i v else s)

/-- A core taken out of reset into its start entry (R414). -/
def State.startCore (s : State) (n : Nat) : State :=
  let c := s.core n
  let c := { c with started := true, resetAt := s.now, xroot := s.man.broot, tvec := s.man.bvec, cctl := 1,
                    ipend := 0, tcmp := 0, loomblk := 0, scrblk := 0, dqring := 0, arring := 0 }
  (s.setCore n c).place n 0 (bareStrand.enter s.man.bvec 31 0x0301 0 0 2 true true)

/-- Every core and cluster of a die leaves reset (R414). -/
def State.startDie (s : State) (d : Nat) : State :=
  let s := (List.range 24).foldl (fun s i =>
    let k := s.cluster (24 * d + i)
    s.setCluster (24 * d + i) { k with parkbase := 0, futbase := 0, reeveblk := 0 }) s
  (List.range 576).foldl (fun s i => s.startCore (576 * d + i)) s

/-- The start word: bits newly written as 1 start their dies, once the module runs its firmware (R413). -/
def State.writeStart (s : State) (who : Agent) (v : Word) : State :=
  if !s.man.running then s
  else if !who.manages ∨ bits v 63 4 ≠ 0 then s.refuse 0x0D05 (controlOff 0x210)
  else
    let fresh := (List.range 4).filter fun d => v.getLsbD d && !s.man.start.getLsbD d
    let s := { s with man := { s.man with start := s.man.start ||| v.setWidth 4 } }
    fresh.foldl State.startDie s

def execDieStart (who : Agent) (v : Word) (s : State) : Out := event s (s.writeStart who v)

/-- broot and bvec (R414). -/
def State.writeBoot (s : State) (who : Agent) (o : Nat) (v : Word) : State :=
  let bad := if o = 0x200 then decide (bits v 50 36 ≠ 0)
    else decide (bits v 63 56 ≠ 0) || v.getLsbD 0
  if !who.manages || bad then s.refuse 0x0D05 (controlOff o)
  else if o = 0x200 then { s with man := { s.man with broot := v } }
  else { s with man := { s.man with bvec := v } }

/-- A COPY window's word (R400). -/
def State.writeWindow (s : State) (who : Agent) (i : Nat) (v : Word) : State :=
  let a := if i % 2 = 0 then v else s.windowWord (i - 1)
  let b := if i % 2 = 0 then s.windowWord (i + 1) else v
  let reserved := if i % 2 = 0 then decide (bits v 62 56 ≠ 0) || decide (bits v 11 0 ≠ 0)
    else decide (bits v 63 56 ≠ 0) || decide (bits v 11 0 ≠ 0)
  if !who.manages || reserved || (a.getLsbD 63 && decide (bits b 55 12 < bits a 55 12)) then
    s.refuse 0x0D05 (controlOff (0x400 + 8 * i))
  else { s with man := { s.man with windows := SMap.put s.man.windows 0 i v } }

def State.writeControlBlock (s : State) (who : Agent) (o : Nat) (v : Word) : State :=
  if 0x20 ≤ o ∧ o < 0x40 then s.writeAccept who ((o - 0x20) / 8) v
  else if 0x100 ≤ o ∧ o < 0x128 then s.writeDrain who o v
  else if o = 0x200 ∨ o = 0x208 then s.writeBoot who o v
  else if o = 0x210 then s.writeStart who v
  else if 0x400 ≤ o ∧ o < 0x400 + 64 * 65 then s.writeWindow who ((o - 0x400) / 8) v
  else s.refuse 0x0D05 (controlOff o)

/-! ### The debug and interrupt words (R354, R347, R397) -/

/-- A slot asked to halt does so once nothing is in flight to its strand: its waits are withdrawn. -/
def State.haltSlot (s : State) (core slot : Nat) : State :=
  let t := s.strand core slot
  if (s.core core).dbg.getLsbD (32 + slot) && (t.st == .ready || t.st == .waiting) &&
      s.canStop core slot then
    let s := s.withdraw core slot
    s.setStrand core slot { s.strand core slot with st := .halted }
  else s

/-- A halted slot whose hmask bit has been cleared resumes. -/
def State.resumeSlot (s : State) (core slot : Nat) : State :=
  let t := s.strand core slot
  if t.st = .halted then s.setStrand core slot { t with st := .ready } else s

/-- The debug word written. -/
def State.setDebug (s : State) (core : Nat) (v : Word) : State :=
  let c := s.core core
  let old := c.dbg
  let w := (v &&& 0xFFFFFFFF8000000C) ||| (old &&& 0x0000000001FF8000) |||
    (old &&& ~~~v &&& 0x0000000040000000)
  let s := s.setCore core ({ c with dbg := w }.unpause)
  let s := (List.range 24).foldl (fun s i => s.scrUnpause (24 * clusterOf core + i)) s
  (List.range 32).foldl (fun s k =>
    if w.getLsbD (32 + k) then s.haltSlot core k
    else if old.getLsbD (32 + k) then s.resumeSlot core k
    else s) s

def debugOff (core k : Nat) : Nat := 0x3FFF03000000 + 64 * core + 8 * k

def State.writeDebug (s : State) (who : Agent) (core : Nat) (v : Word) : State :=
  if who.manages then s.setDebug core v else s.refuse 0x0D05 (debugOff core 0)

/-- Any write of an interrupt word requests an interrupt (R397). -/
def State.writeInterrupt (s : State) (who : Agent) (core : Nat) : State :=
  let c := s.core core
  if who.manages then s.setCore core { c with ipend := c.ipend ||| 1 }
  else s.refuse 0x0D05 (debugOff core 1)

def execInterruptWordWrite (who : Agent) (core : Nat) (s : State) : Out :=
  event s (s.writeInterrupt who core)

/-- The debug word without its dtrap bit, so that writing it back clears nothing. -/
def State.debugKeep (s : State) (core : Nat) : Word := (s.core core).dbg &&& ~~~0x40000000

/-- DEBUG_HALT: the bit is set, and the slot halts as soon as it can. -/
def execDebugHalt (who : Agent) (core slot : Nat) (s : State) : Out :=
  event s (s.writeDebug who core (s.debugKeep core ||| BitVec.ofNat 64 (2 ^ (32 + slot))))

def execDebugResume (who : Agent) (core slot : Nat) (s : State) : Out :=
  event s (s.writeDebug who core (s.debugKeep core &&& ~~~(BitVec.ofNat 64 (2 ^ (32 + slot)))))

def execDebugDtrapClear (who : Agent) (core : Nat) (s : State) : Out :=
  event s (s.writeDebug who core (s.debugKeep core ||| 0x40000000))

def execDebugQuiesce (who : Agent) (core : Nat) (sq lq : Bool) (s : State) : Out :=
  event s (s.writeDebug who core ((s.debugKeep core &&& ~~~0xC) |||
    BitVec.ofNat 64 (8 * b1 sq + 4 * b1 lq)))

/-! ### Writes by offset (R398, R399, R418) -/

/-- The code of a write of a width or alignment that its object does not take. -/
def widthCode : DevObj → Code
  | .queue _ _ | .sem _ | .feed _ _ => 0x0409
  | .route _ => 0x0A07
  | .version _ => 0x0801
  | .port _ _ => 0x0701
  | _ => 0x0D05

/-- An aligned 8-byte write of a word. -/
def State.devWriteWord (s : State) (who : Agent) (o : Nat) (v : Word) : State :=
  match devObj o with
  | .queue n k => s.writeQueue who n k v
  | .sem i => s.writeSem who i v
  | .feed f k => s.writeFeed who f k v
  | .route m => s.writeRoute who m v
  | .version i => s.writeVersionReg who i v
  | .port q w => s.writeRange who q w v
  | .control c => s.writeControlBlock who c v
  | .debugWord n => s.writeDebug who n v
  | .interrupt n => s.writeInterrupt who n
  | _ => s.refuse 0x0D05 o

/-- Bytes of the packet store written by a function that may (R399). -/
def State.storeBytes (s : State) (who : Agent) (o : Nat) (bs : List Byte) : State :=
  let allowed := match who with
    | .pf => true
    | .vf v => s.ownsStore v o bs.length
    | _ => false
  if allowed then s.putBytes o bs else s.refuse 0x0D05 o

/-- A write of the packet store: aligned, of a power of 2 up to 64 bytes (R418). -/
def State.writeStore (s : State) (who : Agent) (o : Nat) (bs : List Byte) : State :=
  let n := bs.length
  if [1, 2, 4, 8, 16, 32, 64].contains n && o % n == 0 then s.storeBytes who o bs else s.refuse 0x0D05 o

/-- A write of bytes at an offset of the region. -/
def State.devWrite (s : State) (who : Agent) (o : Nat) (bs : List Byte) : State :=
  match devObj o with
  | .store => s.writeStore who o bs
  | .interrupt n => s.writeInterrupt who n
  | .hole => s.refuse 0x0D05 o
  | .census _ => s.refuse 0x0D05 o
  | .readback _ => s.refuse 0x0D05 o
  | .port q _ =>
    if bs.length = 8 ∧ o % 8 = 0 then s.devWriteWord who o (leWord bs)
    else s.record 0x0701 (0x0960 + q) (o % 256)
  | x => if bs.length = 8 ∧ o % 8 = 0 then s.devWriteWord who o (leWord bs)
    else s.refuse (widthCode x) o

/-- A host write of the packet store longer than a packet, in its aligned pieces of 64 bytes (R373, R418),
with fuel. -/
def State.storePieces (s : State) (who : Agent) (o : Nat) (bs : List Byte) : Nat → State
  | 0 => s
  | k + 1 =>
    if bs.isEmpty then s
    else
      let n := 64 - o % 64
      let s := if devObj o = .store then s.storeBytes who o (bs.take n) else s.devWrite who o (bs.take n)
      s.storePieces who (o + n) (bs.drop n) k

/-! ### What a function's BAR reaches (R399) -/

/-- The offset in the module's map that an offset of a function's BAR0 reaches; the management port names the
map's own. -/
def barReach (who : Agent) (x : Nat) : Option Nat :=
  match who with
  | .pf => if x < 2 ^ 32 then some (devBase + x) else none
  | .vf _ =>
    if x < 0x700000 then some (0x3FFF00100000 + x)
    else if x < 0x800000 then some (0x3FFF01000000 + x - 0x700000)
    else none
  | _ => some x

/-- Some offset of the agent's BAR reaches this one. -/
def barReaches (who : Agent) (o : Nat) : Bool :=
  match who with
  | .pf => decide (devBase ≤ o ∧ o < devBase + 2 ^ 32)
  | .vf _ => decide (0x3FFF00100000 ≤ o ∧ o < 0x3FFF00800000) ||
      decide (0x3FFF01000000 ≤ o ∧ o < 0x3FFF01100000)
  | _ => true

/-- REGISTER_WRITE: a write to the device-register region at an offset of the module's map; one that no
offset of its function's BAR reaches does not arrive (R399). -/
def execRegisterWrite (who : Agent) (off bytes : Nat) (v : List Byte) (s : State) : Out :=
  let bs := v.take bytes
  event s (if !barReaches who off then s
    else if devObj off = .store ∧ 64 < bs.length then s.storePieces who off bs (bs.length + 1)
    else s.devWrite who off bs)

/-! ### Reads from outside (R397, R399) -/

/-- A read that a function or the management port makes: its answer is listed, with the request; one that
its rights do not grant reads 0 and is counted. -/
def State.hostRead (s : State) (r : HostRead) : State :=
  match barReach r.who r.at_ with
  | none => s
  | some o =>
    let (bs, t) := s.devRead r.who o r.bytes
    { t with hostAnswers := t.hostAnswers ++ [(r, bs)] }

/-- The first read from outside is taken. -/
def takeHostRead (s : State) : Out :=
  match s.hostReads with
  | [] => event s s
  | r :: l => event s ({ s with hostReads := l }.hostRead r)

/-! ### COPY (R368) -/

/-- The name of a COPY in requests to other modules. -/
def copyCtx (j : Job) : CopyCtx := ⟨0, 0, false, 0, 2000, j.seq⟩

/-- The agent that a queue's accesses stand for (R401). -/
def State.copyAgent (s : State) (j : Job) : Agent :=
  let f := (s.queue j.q).fn
  if f = 0 then .pf else .vf f

/-- Words of a COPY read in order: address, value, poison; a word of another module is asked for
first. -/
def State.paReads (s : State) (j : Job) (acc : ReadList) (waits : Bool) : List Nat → CopyRead
  | [] => if waits then .wait s else .ok acc.reverse s
  | pa :: r =>
    match s.placeOf pa with
    | .remote m =>
      if !s.present m then s.paReads j ((pa, 0, true) :: acc) waits r
      else
        match s.engineGot (copyCtx j) (4 * pa) with
        | some a => s.paReads j ((pa, answerVal a) :: acc) waits r
        | none =>
          (s.engineAskFar (copyCtx j) (4 * pa) .load false pa pa 8).paReads j acc true r
    | .dev =>
      let (bs, s) := s.devRead (s.copyAgent j) (paOffset pa) 8
      s.paReads j ((pa, leNat bs, false) :: acc) waits r
    | _ =>
      let (bs, p, s) := s.dispRead pa 8
      s.paReads j ((pa, leNat bs, p) :: acc) waits r

/-- Words of a COPY written; those of other modules are asked for, and true means they are not all
answered. -/
def State.paWrites (s : State) (j : Job) : List (Nat × Nat) → Bool × State
  | [] => (false, s)
  | (pa, v) :: r =>
    let bs := leBytes 8 v
    match s.placeOf pa with
    | .remote m =>
      if !s.present m then s.paWrites j r
      else
        match s.engineGot (copyCtx j) (4 * pa + 2) with
        | some _ => s.paWrites j r
        | none =>
          let op : ReqOp := .write .bytes bs
          let (_, s) := (s.engineAskFar (copyCtx j) (4 * pa + 2) op false pa pa 8).paWrites j r
          (true, s)
    | .dev => (s.devWrite (s.copyAgent j) (paOffset pa) bs).paWrites j r
    | _ => (s.dispWrite pa bs).paWrites j r

/-- The words a COPY stores: every word, or, where a source word is poisoned, those of the others
that a free choice says (R368, log 20). -/
def copyStored (dst : Nat) (fresh : Nat) (vals : ReadList) : List (Nat × Nat) :=
  let bad := vals.any fun y => y.2.2
  (List.range vals.length).filterMap fun i =>
    let y := vals.getD i (0, 0, true)
    if y.2.2 || (bad && !Config.copyWrote (fresh + i)) then none else some (dst + 8 * i, y.2.1)

def State.dropCopyJob (s : State) (j : Job) : State :=
  let s := s.setDisp { s.disp with copies := s.disp.copies.filter fun x => x.seq != j.seq }
  s.dropAnswers (copyCtx j)

/-- A PA of the own module on a failed stack. -/
def State.deadAt (s : State) (pa : Nat) : Bool := paModule pa == s.modNo.toNat && s.stackDead (paOffset pa)

/-- A COPY in its unit is carried out: every source word is read before any is written; one that would reach a
failed stack stops its queue instead (R404). -/
def State.runPaCopy (s : State) (j : Job) : State :=
  let d := fun i => (j.words.getD i 0).toNat
  let n := d 4 / 8
  if (List.range n).any fun i => s.deadAt (d 3 + 8 * i) || s.deadAt (d 2 + 8 * i) then
    (s.dropCopyJob j).stopQueue j.q j.era j.pkt j.inner (some j.words) 0x6704 0 (0, 1) true
  else match s.paReads j [] false ((List.range n).map fun i => d 3 + 8 * i) with
  | .wait t => if t.reqs = s.reqs then s else t
  | .fault _ _ t => t
  | .ok vals t =>
    match t.paWrites j (copyStored (d 2) t.fresh vals) with
    | (true, t) => if t.reqs = s.reqs then s else { s with reqs := t.reqs, nextId := t.nextId,
                                                           fabricOut := t.fabricOut, nextTag := t.nextTag,
                                                           clusters := t.clusters }
    | (false, t) =>
      let t := { t with fresh := t.fresh + n }.dropCopyJob j
      if vals.any fun y => y.2.2 then
        t.stopQueue j.q j.era j.pkt j.inner (some j.words) 0x4405 0 (0, 1) true
      else t.completePacket j.q j.era j.pkt j.inner j.words 1 0 (BitVec.ofNat 64 (d 4))

/-- COPY by its number in the copy unit. -/
def execCopy (seq : Nat) (s : State) : Out :=
  event s (match s.disp.copies.find? fun j => j.seq == seq with
    | some j => s.runPaCopy j
    | none => s)

end Sys2Proof.Machine
end

