-- ==== Sys2Proof/Machine/Fabric.lean ====
section
/-! DEFINITION. The fabric (R378 to R391): packets from other modules at their home ports and table
ports, replies and acknowledgements, allowances and their parking, forwarding, links, feature
words. The operands of a packet stand as log 11 says. -/

namespace Sys2Proof

/-- Operand i of a packet: the V bit and the requester's core, slot and binding come first. -/
def Packet.arg (p : Packet) (i : Nat) : BitVec 64 := p.args.getD i 0

/-- The first byte the mask names, and the PA of it. -/
def Packet.off (p : Packet) : Nat := (p.bytes.head?.map (·.1)).getD 0
def Packet.pa (p : Packet) : Nat := p.line.toNat * 128 + p.off

/-- The bytes carried. -/
def Packet.data (p : Packet) : List Byte := p.bytes.map (·.2)

/-- The requester as a party of a port: a number that no strand of this module has. -/
def Packet.party (p : Packet) : Nat := 2 ^ 20 + p.src.toNat * 4096 + (p.arg 1).toNat

/-- The packet is of the request class. -/
def Packet.isRequest (p : Packet) : Bool :=
  match p.op with
  | .readReply | .ack | .error => false
  | _ => true

/-! ### The header flit (R379, R380) -/

/-- The op field. -/
def PktOp.code : PktOp → Nat
  | .read => 0 | .write => 1 | .amo => 2 | .cas => 3 | .red => 4 | .lrw => 5 | .sch => 6
  | .xrdXclr => 7 | .futReq => 8 | .futDel => 9 | .readReply => 10 | .ack => 11 | .error => 12

/-- The byte mask. -/
def Packet.mask (p : Packet) : Nat := p.bytes.foldl (fun m b => m ||| 2 ^ b.1) 0

/-- Data flits that follow: those with a byte of theirs in the mask (R379). -/
def Packet.flits (p : Packet) : Nat :=
  ((List.range 4).filter fun i => p.bytes.any fun b => b.1 / 32 == i).length

/-- The header above its check field, from bit 16 on. -/
def Packet.fields (p : Packet) : Nat :=
  p.aux.toNat + (if p.mark then 2 ^ 7 else 0) + p.tag % 2 ^ 16 * 2 ^ 8 + (if p.oflag then 2 ^ 24 else 0) +
    p.flits * 2 ^ 25 + p.op.code * 2 ^ 28 + p.path % 4 * 2 ^ 32 + (if p.isRequest then 0 else 2 ^ 34) +
    p.hop % 8 * 2 ^ 35 + p.sclus % 128 * 2 ^ 38 + p.src.toNat * 2 ^ 45 + p.dst.toNat * 2 ^ 54 +
    p.line.toNat * 2 ^ 63 + p.mask * 2 ^ 112

/-- The 256 bits of the header, with the device's own check code (log 60). -/
def Packet.header (p : Packet) : BitVec 256 :=
  BitVec.ofNat 256 ((Config.headerCheck p.fields).toNat + p.fields * 2 ^ 16)

end Sys2Proof

namespace Sys2Proof.Machine

/-! ### Requests that arrive (R207, R386) -/

/-- The error reply of a request that has no serving place here. -/
def noPlace : Answer := .trap 16 0x6A04 0

/-- A request of another module: listed, and served at its place. -/
def State.remoteReq (s : State) (p : Packet) (op : ReqOp) (size : Nat) : State :=
  let o := paOffset p.pa
  let r : Req :=
    { id := s.nextId, core := p.party, slot := (p.arg 2).toNat, inst := (p.arg 3).toNat, elem := 0,
      place := s.placeOf p.pa, op := op, addr := o, pa := p.pa, ea := 0, size := size,
      ver := p.arg 0 == 1, snap := 0, tx := 0, oflag := false, since := 0, cyc := s.now, pool := none,
      sent := none, pkt := some p }
  let s := { s with nextId := s.nextId + 1, reqs := s.reqs ++ [r] }
  match r.place with
  | .port _ =>
    if s.stackDead o then s.answerReq r noPlace
    else if s.stackTraining o then s
    else (s.serveHbm r).apply r
  | .dev => match op with
    | .load =>
      let (bs, s) := s.devRead .user o size
      s.answerReq r (.data bs ((wordsOf o size).map fun _ => false))
    | .write .bytes _ =>
      ((byteRuns p.bytes).foldl (fun s x => s.devWrite .user (o / 128 * 128 + x.1) x.2) s).answerReq r
        (.note 0)
    | _ => s.answerReq r noPlace
  | _ => s.answerReq r noPlace

/-- An event of a packet for this module, of the given operation. -/
def State.onPacket (s : State) (p : Packet) (op : PktOp) (k : State) : Out :=
  event s (if p.dst = s.modNo ∧ p.op = op then k else s)

def execFabricRead (p : Packet) (s : State) : Out :=
  s.onPacket p .read (s.remoteReq p .load p.bytes.length)

/-- FABRIC_WRITE: the bytes of a line that the mask names, as one event. -/
def execFabricWrite (p : Packet) (s : State) : Out :=
  s.onPacket p .write (s.remoteReq p (.write .bytes p.data) p.bytes.length)

/-- op and w of an AMO or a RED from aux (R380). -/
def auxW (p : Packet) : Bool := p.aux.getLsbD 0
def amoOfAux (p : Packet) : Option AmoOp := amoOpOf (p.aux.toNat / 2 % 16)
def redOfAux (p : Packet) : Option RedOp := redOpOf (p.aux.toNat / 2 % 16)

def execFabricAmo (p : Packet) (s : State) : Out :=
  s.onPacket p .amo (match amoOfAux p with
    | some op => s.remoteReq p (.amo op (auxW p) ⟨p.arg 4, false⟩) (if auxW p then 4 else 8)
    | none => s)

def execFabricCas (p : Packet) (s : State) : Out :=
  s.onPacket p .cas
    (s.remoteReq p (.cas (auxW p) (p.arg 4) ⟨p.arg 5, false⟩) (if auxW p then 4 else 8))

/-- FABRIC_RED: on a V line a write of its own, elsewhere into the port's merge group (R269). -/
def execFabricRed (p : Packet) (s : State) : Out :=
  s.onPacket p .red (match redOfAux p with
    | some op =>
      let o := paOffset p.pa
      let w := auxW p
      let size := if op = .exact then 128 else if w then 4 else 8
      if p.arg 0 = 1 ∨ !inHbm o ∨ s.stackDead o ∨ s.stackTraining o then
        s.remoteReq p (.write (.red op w (p.arg 4)) []) size
      else s.joinRed o op w ⟨p.arg 4, p.party, (p.arg 2).toNat, (p.arg 3).toNat, 0, some p⟩
    | none => s)

def execFabricLrw (p : Packet) (s : State) : Out := s.onPacket p .lrw (s.remoteReq p .lrw 8)

/-- The LRW of a packet's strand on the packet's line that is still queued here. -/
def State.queuedLrw (s : State) (p : Packet) : Option Req :=
  s.reqs.find? fun r => r.pkt.isSome && decide (r.op = .lrw) && r.core == p.party &&
    r.slot == (p.arg 2).toNat && r.inst == (p.arg 3).toNat && r.pa / 128 == p.line.toNat

/-- It leaves its queue, with its record. -/
def State.dropQueued (s : State) (r : Req) : State :=
  { s with resv := s.resv.filter fun x => x.req != some r.id, reqs := s.reqs.filter fun x => x.id != r.id }

/-- A strand's reservation of a line is released here, or its LRW leaves the queue (R276). -/
def State.releaseFor (s : State) (p : Packet) : State :=
  match s.queuedLrw p with
  | some r => s.dropQueued r
  | none => s.releaseLines p.party (p.arg 2).toNat (p.arg 3).toNat (· == p.line.toNat)

/-- An LRW that its strand asks back leaves its queue and is answered; one that has been granted is not
(R350). -/
def State.recalled (s : State) (p : Packet) : State :=
  match s.queuedLrw p with
  | some r => (s.dropQueued r).answerReq r (.note 5)
  | none => s

/-- FABRIC_SCH: decided by the reservation; the packet of a release, or of an LRW asked back, stores nothing
(log 11). -/
def execFabricSch (p : Packet) (s : State) : Out :=
  s.onPacket p .sch (
    if p.arg 4 = 1 then s.releaseFor p
    else if p.arg 4 = 2 then s.recalled p
    else s.remoteReq p (.sch (p.arg 5)) 8)

/-- FABRIC_XRD_XCLR: an operand of 1 tells XCLR. -/
def execFabricXrdXclr (p : Packet) (s : State) : Out :=
  s.onPacket p .xrdXclr
    (if p.arg 4 = 1 then s.remoteReq p (.write .clear []) 128 else s.remoteReq p .xrd 128)

/-! ### Futures (R153) -/

/-- What a port's answer is in a reply. -/
def answerOfPort : PortAns → Answer
  | .ok => .note 0
  | .stale => .note 1
  | .refused => .note 2
  | .pending => .note 3
  | .final ok v => .word v (!ok)

/-- An operation on a barrier record of this module for a task of another: a BWAIT whose phase has not ended
chains its token (R173; log 11); with code 20 the token leaves the chain. -/
def State.barrierRequest (s : State) (pa code : Nat) (va m x : Word) : Answer × State :=
  if !s.ownHbm pa then (.note 2, s)
  else if code = 20 then (.note 0, (s.unchainBarrier 0 (paOffset pa) m).getD s)
  else
    let o := paOffset pa
    match s.barrierPort o va code (memberOfWord va m) x with
    | (.pending, s) => (.note 3, s.joinBarrier 0 o x)
    | (r, s) => (answerOfBarrier r, s)

/-- The memberships of a task of this module read, or one of them changed or taken out (R177). -/
def State.membersRequest (s : State) (h : Word) : Answer × State :=
  match s.members? h with
  | (some (_, _, e), s) => (.data (memberBytes e.members) (List.replicate 8 false), s)
  | (none, s) => (.note 2, s)

def State.memberRequest (s : State) (h va w : Word) : Answer × State :=
  match s.members? h with
  | (some (cl, slot, e), s) =>
    let m := if w.getLsbD 33 then none else some (memberOfWord va w)
    (.note 0, s.putMembers cl slot (setMember e.members va m))
  | (none, s) => (.note 2, s)

/-- The memberships of a task that has ended at another module leave its record, and go there (R176). -/
def State.giveMembers (s : State) (h : Word) : Answer × State :=
  match s.members? h with
  | (some (cl, slot, e), s) =>
    (.data (memberBytes e.members) (List.replicate 8 false), s.putMembers cl slot [])
  | (none, s) => (.note 2, s)

/-- A waiter of another module leaves a future's chain here. -/
def State.leaveRequest (s : State) (h tok : Word) : State :=
  match s.find h with
  | (.entry cl slot e, s) => (s.unchain cl slot e tok).getD s
  | (_, s) => s

/-- A request at a table port, for a party of another module: 1 a waiter leaves; 2 and 3 touch, with the
waiter's token; 4 RESOLVE; 5 POISON; 6 CANCEL; 7 FSTAT; 8 FHOLD; 9 FDROP; 10 and 11 memberships given up;
12 and 13 memberships read and changed. -/
def State.futureRequest (s : State) (code : Nat) (h x task : Word) : Answer × State :=
  match code with
  | 1 => (.note 0, s.leaveRequest h x)
  | 12 => s.membersRequest h
  | 13 => s.memberRequest h x task
  | 2 | 3 =>
    match s.touchPort h with
    | (.pending, s) => match s.find h with
      | (.entry cl slot e, s) => (.note 3, s.joinChain cl slot e x)
      | (_, s) => (.note 1, s)
    | (a, s) => (answerOfPort a, s)
  | 4 => let (a, s) := s.endPort h task 2 x; (answerOfPort a, s)
  | 5 => let (a, s) := s.endPort h task 3 x; (answerOfPort a, s)
  | 6 => let (a, s) := s.cancelPort h; (answerOfPort a, s)
  | 7 => let (v, s) := s.statPort h; (.word v false, s)
  | 8 => let (a, s) := s.holdPort h; (answerOfPort a, s)
  | 9 => let (a, s) := s.dropPort h; (answerOfPort a, s)
  | 10 | 11 => s.giveMembers h
  | _ => (.note 0, s)

def execFabricFutureRequest (p : Packet) (s : State) : Out :=
  s.onPacket p .futReq (
    let code := (p.arg 4).toNat
    let (a, s) :=
      if code < 14 then s.futureRequest code (p.arg 5) (p.arg 6) (p.arg 7)
      else s.barrierRequest p.pa code (p.arg 5) (p.arg 6) (p.arg 7)
    s.emit (answerPacket p 0 a))

/-- The strand in a slot has asked another module with this token, and does not wait yet (R153, R164). -/
def State.awaitsPort (s : State) (core slot : Nat) (t : Word) : Bool :=
  (s.strand core slot).flight.any fun f => f.got.contains (2, .word t false)

/-- A strand that has taken a park index for a request to another module, and has not parked, waits for an
object of a kind. -/
def State.awaitsObject (s : State) (cl idx kind : Nat) (obj : Word) : Bool :=
  (List.range 24).any fun i => ((s.core (24 * cl + i)).strands).any fun x =>
    x.2.flight.any fun f => f.got.contains (1, .note (idx + 1)) && keptWord f.got 3 == obj &&
      (keptWord f.got 4).toNat == kind

/-- A delivery that is held until its waiter has parked (R164). -/
def State.holdDelivery (s : State) (cl : Nat) (t st v : Word) : State :=
  let k := s.cluster cl
  s.setCluster cl { k with early := k.early ++ [(t, st.toNat, v)] }

/-- An outcome for a strand that waits in its slot, or will; none where no strand does. -/
def State.deliverSlot (s : State) (core slot : Nat) (t st v : Word) : Option State :=
  let mine := fun (w : SlotWait) => w.kind != 3 && w.token == t
  match s.slotWaits.find? mine with
  | some w =>
    let (id, s) := s.newId
    some { s with slotWaits := s.slotWaits.filter fun w => !mine w,
                  replies := s.replies ++ [⟨id, w.core, w.slot, w.inst, 0, .word v (st != 2)⟩] }
  | none => if s.awaitsPort core slot t then some (s.holdDelivery (clusterOf core) t st v) else none

/-- An outcome for a park record of this module, or for the strand that will park under its index; none where
neither waits on the object: a record that waits on something else takes nothing (R146, R173). -/
def State.deliverPark (s : State) (t st v obj : Word) (kind : Nat) : Option State :=
  let pa := bits t 55 0
  match s.parkOf pa with
  | none => none
  | some (cl, idx) =>
    if s.parkingSoon cl idx then
      if s.awaitsObject cl idx kind obj then some (s.holdDelivery cl t st v) else none
    else if s.waitsOn pa kind obj then some (s.deliverRecord pa (st == 2) v)
    else none

/-- An outcome of an object of a kind by the token of a FUTWAIT, a slot or a park record (R153), and the link of
the record that has taken it; none where nothing has. -/
def State.deliverToken (s : State) (t st v obj : Word) (kind : Nat) : Option (Word × State) :=
  let o := paOffset (bits t 55 0)
  if 2 ^ 46 + 2 ^ 45 ≤ o then some (0, s.deliverDispatch t v (st == 2))
  else if 2 ^ 46 ≤ o then (s.deliverSlot (o % 2 ^ 17 / 32) (o % 32) t st v).map fun u => (0, u)
  else (s.deliverPark t st v obj kind).map fun u => (s.seenWord (o + 352), u)

/-- FABRIC_FUTURE_DELIVERY: an outcome by a token, with the object it is of. The release of a barrier's waiter is
answered: with the link that its chain goes on to, or that it has failed the test (R173; log 11). -/
def execFabricFutureDelivery (p : Packet) (s : State) : Out :=
  s.onPacket p .futDel (
    let s := s.meetTail (p.arg 4)
    let (a, s) := match s.deliverToken (p.arg 4) (p.arg 5) (p.arg 6) (p.arg 7) (p.arg 8).toNat with
      | some (link, s) => (Answer.data (leBytes 8 link.toNat) [false], s)
      | none => (Answer.note 2, s)
    if p.arg 8 = 2 then s.emit (answerPacket p 0 a) else s)

/-! ### Replies and acknowledgements (R386, R388, R390) -/

/-- The request that a tag of a reply names, with the reply's path. -/
def State.reqNamed (s : State) (p : Packet) (tag : Nat) : Option Req :=
  s.reqs.find? fun r => r.place == .remote p.src.toNat &&
    (match r.sent with
      | some (path, t, _) => path == p.path && t == tag
      | none => false)

/-- The request that a reply names by its own tag. -/
def State.reqOf (s : State) (p : Packet) : Option Req := s.reqNamed p p.tag

/-- The answer that a read reply carries. -/
def answerOf (r : Req) (p : Packet) : Answer :=
  let first := p.arg 0
  if 2 ≤ p.args.length then .note first.toNat
  else if p.bytes.isEmpty then
    match r.op with
    | .sch _ => .pred (first == 1)
    | _ => .word first (p.poison.getLsbD 0)
  else .data p.data ((wordsOf p.off p.bytes.length).map fun w => p.poison.getLsbD w)

def execFabricReadReply (p : Packet) (s : State) : Out :=
  s.onPacket p .readReply (match s.reqOf p with
    | some r => s.finishReq r (answerOf r p)
    | none => s)

/-- The posted stores of a cluster that a packet names by path and tag. -/
def State.storesOf (s : State) (p : Packet) (tag : Nat) : List (Nat × WbEntry) :=
  ((List.range 24).map (24 * p.sclus + ·)).flatMap fun core =>
    ((s.core core).wb.filter fun e => e.place == .remote p.src.toNat &&
      (match e.sent with
        | some (path, t, _) => path == p.path && t == tag
        | none => false)).map fun e => (core, e)

/-- The allowance after an acknowledgement of `k` sectors (R390). -/
def Allow.acked (a : Allow) (k : Nat) (mark : Bool) (time : Nat) : Allow :=
  let n := a.n - k
  if !mark then
    let c := a.c + k
    if a.w ≤ c then { a with n := n, c := c - a.w, w := min (a.w + 1) 1024 } else { a with n := n, c := c }
  else
    let cut := match a.lastcut with
      | none => true
      | some t => decide (t + 256 ≤ time)
    if cut then { w := max 4 (a.w - a.w / 8), n := n, c := 0, lastcut := some time } else { a with n := n }

/-- `k` sectors of a cluster have been answered by module m on a path. -/
def State.sectorsDone (s : State) (cl m path k : Nat) (mark : Bool) : State :=
  let a := s.allow cl m
  let b := a.acked k mark s.time.toNat
  let s := (s.setAllow cl m b).setInFlight cl m path (s.inFlight cl m path - k)
  (s.wakeParked cl m ((b.w - b.n) - (a.w - a.n))).pumpCluster cl

/-- What a tag of a reply names: a request that waits, or posted stores. -/
def State.tagNames (s : State) (p : Packet) (tag : Nat) : Option Req × List (Nat × WbEntry) :=
  match s.reqNamed p tag with
  | some r => (some r, [])
  | none => (none, s.storesOf p tag)

/-- The sectors among them. -/
def sectorsNamed : Option Req × List (Nat × WbEntry) → Nat
  | (some r, _) => if r.op.isWrite then 1 else 0
  | (none, l) => l.length

/-- A reply that counts: the allowance follows the sectors its tags name, and then `k` each of them. -/
def State.tagged (s : State) (p : Packet) (tags : List Nat)
    (k : State → Option Req × List (Nat × WbEntry) → State) : State :=
  let named := tags.map (s.tagNames p)
  let n := (named.map sectorsNamed).sum
  named.foldl k (if n = 0 then s else s.sectorsDone p.sclus p.src.toNat p.path n p.mark)

/-- What a tag names has been accepted. -/
def State.ackNamed (s : State) : Option Req × List (Nat × WbEntry) → State
  | (some r, _) => s.finishReq r (.note 0)
  | (none, l) => l.foldl (fun s x => s.accepted x.1 x.2.id) s

/-- FABRIC_ACK: every store the packet names is accepted, those merged into one packet too (R381, R388), and
the allowance follows. -/
def execFabricAck (p : Packet) (s : State) : Out :=
  s.onPacket p .ack (s.tagged p (p.tag :: p.args.map (·.toNat)) State.ackNamed)

/-- The code with which an error reply ends what it names: that of R386, but for a reduction that met poison at
its port (R267), and a wait for a pool entry that is over (R255). -/
def errorCode (p : Packet) : Code :=
  if p.arg 1 = 0x4901 then 0x4901 else if p.arg 1 = 0x4809 then 0x4809 else 0x6A04

/-- What a tag names ends with an error: a write, or a read-write, that has waited for a pool entry of the other
module takes the trap of R255. -/
def State.failNamed (s : State) (c : Code) : Option Req × List (Nat × WbEntry) → State
  | (some r, _) =>
    if c = 0x4809 then s.finishReq r (.trap 14 c r.ea)
    else if r.op.isWrite then s.finishReq r (.trap 16 c r.ea)
    else s.failReq r
  | (none, l) => l.foldl (fun s x => s.failStore x.1 x.2 c) s

/-- FABRIC_ERROR_REPLY (R386): after its three operands it names the stores merged into the packet. -/
def execFabricErrorReply (p : Packet) (s : State) : Out :=
  s.onPacket p .error
    (s.tagged p (p.tag :: (p.args.drop 3).map (·.toNat)) fun s x => s.failNamed (errorCode p) x)

/-! ### Parking for allowance (R391) -/

/-- The rows of the instruction at hand that have been posted. -/
def Strand.rowsPosted (t : Strand) : Nat :=
  ((t.posted.find? fun x => x.1 == t.pc).map (·.2.1)).getD 0

/-- The next number in park order. -/
def Cluster.nextOrder (k : Cluster) : Nat := k.parkRows.foldl (fun m x => max m (x.2 / 2 ^ 25)) 0 + 1

/-- The module a strand has waited for 1,024 cycles or more, with its store not issued. One with a store error
to raise issues instead (R352). -/
def State.lateAllowance (s : State) (core slot : Nat) : Option (Flight × Nat) :=
  let t := s.strand core slot
  match t.flight with
  | some f => match f.on with
    | .allowance m =>
      if f.cyc + 1024 ≤ s.now ∧ !t.pmode ∧ t.st = .waiting ∧ t.err = none ∧ s.strandDrained core slot then
        some (f, m)
      else none
    | _ => none
  | none => none

/-- ALLOWANCE_PARK: the task parks with wait kind 4, to issue the instruction afresh. -/
def execAllowancePark (core slot : Nat) (s : State) : Out :=
  event s (match s.lateAllowance core slot with
    | none => s
    | some (f, m) =>
      match s.takePark core with
      | none => s
      | some (idx, t) =>
        let t := { t with issue := f.issue core slot }
        let cl := clusterOf core
        let k := t.cluster cl
        let rows := (k.nextOrder * 512 + m) * 65536 + t.me.rowsPosted
        let t := t.setCluster cl { k with parkRows := SMap.put k.parkRows 0 idx rows }
        t.parkAs idx t.me.pc { kind := 4, obj := BitVec.ofNat 64 m })

/-! ### Forwarding (R381, R383, R384) -/

/-- The path by which a packet goes on (R383). -/
def State.forwardPath (s : State) (p : Packet) : Option Nat := s.usablePath p.dst.toNat p.path

/-- Two writes may become one packet (R381). -/
def mergeable (a b : Packet) : Bool :=
  a.op == .write && b.op == .write && a.dst == b.dst && a.line == b.line && a.src == b.src &&
    a.sclus == b.sclus && a.path == b.path && !a.oflag && !b.oflag &&
    decide (a.aux.toNat + b.aux.toNat ≤ 64)

/-- Word w as a packet carries it: whether it does, and poisoned. -/
def carries (p : Packet) (w : Nat) : Bool := p.bytes.any fun x => x.1 / 8 == w
def carriesPoison (p : Packet) (w : Nat) : Bool := carries p w && p.poison.getLsbD w

/-- The masks of two packets overlap in word w. -/
def overlaps (a b : Packet) (w : Nat) : Bool :=
  a.bytes.any fun x => x.1 / 8 == w && b.bytes.any fun y => y.1 == x.1

/-- The later packet's bytes stand, and its poison where the masks overlap. Its tag is named beside the
earlier one's. -/
def mergePackets (a b : Packet) : Packet :=
  let kept := a.bytes.filter fun x => !(b.bytes.any fun y => y.1 == x.1)
  let bytes := (List.range 128).filterMap fun i => (b.bytes ++ kept).find? fun x => x.1 == i
  let pois := (List.range 16).foldl (fun m w =>
    if carriesPoison b w || (!overlaps a b w && carriesPoison a w) then m + 2 ^ w else m) 0
  { a with bytes := bytes, poison := BitVec.ofNat 16 pois, aux := a.aux + b.aux, mark := a.mark || b.mark,
           args := a.args ++ BitVec.ofNat 64 b.tag :: b.args.drop 4 }

/-- The packet last in the output queue that a packet enters, with its place in the list: of its link, its
class and its hop level (R384). -/
def State.lastOn (s : State) (l : Nat) (q : Packet) : Option (Nat × Packet) :=
  (((List.range s.fabricOut.length).zip s.fabricOut).filter fun x =>
    x.2.1 == l && x.2.2.hop == q.hop && x.2.2.isRequest == q.isRequest).getLast?.map fun x => (x.1, x.2.2)

/-- PACKET_FORWARD: one hop level higher, on the link of the path taken, merged or discarded as the rules
say. Whether the packet before it on the link still stands in the output queue is a free choice. -/
def State.forward (s : State) (p : Packet) : State :=
  if 5 ≤ p.hop then s.record 0x6A05 0xFFFF 0
  else match s.forwardPath p with
    | none => s.record 0x6A05 0xFFFF 0
    | some path =>
      let link := pathLink (s.route p.dst.toNat) path
      let busy := p.isRequest && Config.queueBusy s.fresh
      let q := { p with hop := p.hop + 1, mark := p.mark || busy }
      let s := { s with fresh := s.fresh + 1 }
      match s.lastOn link q with
      | some (i, l) =>
        let (c, s) := s.choose 2
        if mergeable l q && l.src != s.modNo && c == 1 then
          { s with fabricOut := s.fabricOut.set i (link, mergePackets l q) }
        else s.emit q
      | none => s.emit q

def execPacketForward (p : Packet) (s : State) : Out :=
  event s (if p.dst = s.modNo then s else s.forward p)

/-! ### Links, features and boundaries (R378, R385, R387) -/

/-- Some link of the module is up. -/
def State.anyLink (s : State) : Bool := (List.range 36).any s.linkUp

/-- A ready bit that no longer holds (R404). -/
def State.unready (s : State) (bit : Nat) : State :=
  { s with man := { s.man with ready := s.man.ready &&& ~~~(BitVec.ofNat 21 (2 ^ bit)) } }

/-- LINK_DOWN: the link trains again, and the packets on it are lost (R385); the last one takes the fabric's
ready bit with it (R404). -/
def execLinkDown (l : Nat) (s : State) : Out :=
  event s (if l < 36 ∧ s.linkUp l then
    let s := (s.setLink l { s.link l with state := 1 }).record 0x4A02 (0x09B0 + l) 0
    let s := { s with fabricOut := s.fabricOut.filter fun x => x.1 != l }
    if s.anyLink then s else s.unready 18
  else s)

/-- The feature word that a CA-1 announces (R387). -/
abbrev ownFeatures : Word := 0x03FF

/-- The feature word kept for a module. -/
def State.setFeature (s : State) (m : Nat) (w : Word) : State :=
  let r := (s.route m &&& 0x0000FFFFFFFFFFFF) ||| (w <<< 48)
  { s with routes := SMap.put s.routes 0 m r }

/-- LINK_UP: the first training, or a retraining, which is counted (R385, R410), of a module that runs its
firmware (R413). It announces its feature word, which its own route entry shows too (R387; log 60). -/
def execLinkUp (l : Nat) (s : State) : Out :=
  event s (if 36 ≤ l ∨ s.linkUp l ∨ !s.feature 1 ∨ !s.man.running then s
    else
      let x := s.link l
      let y := { x with state := 2, retrains := x.retrains + (if x.state = 1 then 1 else 0) }
      let t := (s.setLink l y).setFeature s.modNo.toNat ownFeatures
      (if x.state = 1 then t.record 0x0A06 (0x09B0 + l) 0 else t).resend)

def execFeatureWordAnnounce (m : BitVec 9) (w : BitVec 16) (s : State) : Out :=
  event s (s.setFeature m.toNat (w.setWidth 64))

/-- DIE_BOUNDARY_FAILURE: the boundary has spent its replays, whose number is free (R378; log 60). -/
def execDieBoundaryFailure (b : Nat) (s : State) : Out :=
  let x := SMap.get s.man.boundaries {} b
  let y : Boundary := { state := 2, replays := x.replays + 1 + Config.pick s.fresh }
  let s := { s with fresh := s.fresh + 1 }
  event s (if b < 4 then
    ({ s with man := { s.man with boundaries := SMap.put s.man.boundaries {} b y } }.record
      0x8A01 (0x09A0 + b) 0).unready (14 + b)
    else s)

end Sys2Proof.Machine
end

