-- ==== Sys2Proof/Machine/Interrupts.lean ====
section
/-! DEFINITION. Interrupts (R347): the slot that one takes, the length of the instruction that it puts off
(R336), and its entry. -/

namespace Sys2Proof.Machine

/-- The strand's slot can take an interrupt. -/
def Strand.eligible (t : Strand) : Bool := !t.priv && (t.st == .ready || t.st == .waiting)

/-- The slot an interrupt of a core takes, and whether bare. -/
def State.interruptSlot (s : State) (core : Nat) : Option (Nat × Bool) :=
  match (List.range 32).find? fun k => (s.strand core k).eligible with
  | some k => some (k, false)
  | none => ((List.range 32).find? fun k => s.slotFree core k).map fun k => (k, true)

/-- The leaf of an address in a core's context: cached, or as the tables give it. -/
def State.peekLeaf (s : State) (core : Nat) (va : Word) : Option Leaf :=
  if regionClass va ≠ 0 then none
  else match (s.core core).tlbFind (rootCtx (s.core core).xroot) (granuleOf va) with
    | some l => some l
    | none => match (s.walkRoot (clusterOf core) (s.core core).xroot va.toNat).1 with
      | .leaf l => some l
      | .fault _ => none

/-- The first byte of the instruction at a strand's pc, where the core holds its sector or the own module has
it. -/
def State.peekByte (s : State) (core : Nat) (t : Strand) : Option Byte :=
  (s.peekLeaf core t.pc).bind fun l =>
    let pa := l.paOf t.pc.toNat
    let held := SMap.get (s.core core).icache [] (pa / 128)
    if !held.isEmpty then held[pa % 128]?
    else match s.placeOf pa with
      | .port _ => (s.seen (paOffset pa) 1).head?
      | .host => some (s.byte (paOffset pa))
      | .dev => (s.devRead (if t.priv then .sup else .user) (paOffset pa) 8).1.head?
      | _ => none

/-- The length of the instruction at a strand's pc can be told now: only a sector of another module that
the core does not hold must come first (R336; log 44). -/
def State.lengthKnown (s : State) (core : Nat) (t : Strand) : Bool :=
  t.flight.isSome || (s.peekByte core t).isSome || match s.peekLeaf core t.pc with
    | some l => (match s.placeOf (l.paOf t.pc.toNat) with
      | .remote _ => !l.permits .fetch t.priv || s.paFault (l.paOf t.pc.toNat)
      | _ => true)
    | none => true

/-- The length of the instruction at a strand's pc (R336); a free choice where no instruction can be read
there (log 3). -/
def State.lengthAt (s : State) (core : Nat) (t : Strand) : Nat × State :=
  match t.flight with
  | some f => (f.len, s)
  | none =>
    match s.peekByte core t with
    | some b => (if !b.getLsbD 0 then 2 else if b.toNat / 2 % 64 = 63 then 8 else 4, s)
    | none =>
      let (n, s) := s.choose 3
      (lenOf n, s)

/-- Where a strand with a failed TOUCH not yet raised stands: at the TOUCH. -/
def Strand.unfail (t : Strand) : Strand :=
  match t.failed with
  | some x => { t with pc := x.2.1, failed := none }
  | none => t

/-- The conditions of R347, none of the strand's replies in flight, and its instruction's length known (R336,
R350; log 44). -/
def State.interruptDue (s : State) (core : Nat) : Option (Nat × Bool) :=
  let c := s.core core
  if !c.started || c.cctl.getLsbD 0 || s.pending core == 0 then none
  else match s.interruptSlot core with
    | some (k, bare) =>
      if bare || (s.canStop core k &&
          (s.landFetch core k).lengthKnown core (s.strand core k).unfail) then some (k, bare)
      else none
    | none => none

def State.interrupt (s : State) (core k : Nat) (bare : Bool) : State :=
  let v := s.pending core
  let s := if bare then s else s.withdraw core k
  let t := if bare then bareStrand else (s.strand core k).unfail
  let (len, s) := if bare then (2, s) else s.lengthAt core t
  let c := s.core core
  let c := { c with cctl := c.cctl ||| 1 }
  let x := t.enter c.tvec 31 0x0301 v t.pc len true bare
  if bare then (s.setCore core c).place core k x else (s.setCore core c).setStrand core k x

def execInterruptTaken (core : Nat) (s : State) : Out :=
  event s (match s.interruptDue core with
    | some (k, bare) => s.interrupt core k bare
    | none => s)

end Sys2Proof.Machine
end

