-- ==== Sys2Proof/Machine/Manage.lean ====
section
/-! DEFINITION. Bring-up, firmware, attestation and the envelope (R404, R411 to R413, R415), the reset of
a module, the failure of a stack, and the exchange after a commit (R244, R253). -/

namespace Sys2Proof.Machine

/-! ### Firmware and power-on (R411, R413) -/

/-- Both signatures verify, and the version is at least the minimum in the fuses (R411). -/
def imageGood (bs : List Byte) : Bool :=
  Config.imageVerifies bs && decide (Config.minVersion ≤ Config.imageVersion bs)

/-- The boot ROM runs the image, or brings up the management port alone. -/
def State.boot (s : State) : State :=
  if imageGood s.man.image then { s with man := { s.man with running := true } }
  else ({ s with man := { s.man with mgmtOnly := true } }).record 0x8D02 0xFFFF 0

/-- POWER_ON: the boot ROM verifies the image, once. -/
def execPowerOn (s : State) : Out :=
  event s (if s.man.running || s.man.mgmtOnly then s else s.boot)

/-- FIRMWARE_LOAD: a good image, while the module waits for one. -/
def execFirmwareLoad (image : List Byte) (s : State) : Out :=
  event s (if s.man.mgmtOnly && imageGood image then
    { s with man := { s.man with image := image, running := true, mgmtOnly := false } }
  else s)

/-- FIRMWARE_UPDATE: kept for the next module reset, or refused below the minimum version. -/
def execFirmwareUpdate (image : List Byte) (s : State) : Out :=
  event s (if Config.imageVersion image < Config.minVersion then s.record 0x0D03 0xFFFF 0
    else { s with man := { s.man with update := some image } })

/-! ### Ready bits (R404, R413, R414) -/

/-- A die has started, and every one of its cores has returned from its start entry (R414). -/
def State.dieBack (s : State) (d : Nat) : Bool :=
  s.man.start.getLsbD d && (List.range 576).all fun i => (s.core (576 * d + i)).returned

/-- A link is up and a feature word of another module has come (R404). -/
def State.fabricBack (s : State) : Bool :=
  s.anyLink && s.routes.any fun x => x.1 != s.modNo.toNat && bits x.2 63 48 != 0

/-- A function may set its ready bit. -/
def State.mayReady (s : State) (b : Nat) : Bool :=
  if b = 19 then s.man.running || s.man.mgmtOnly
  else s.man.running &&
    (if 2 ≤ b ∧ b < 6 then s.dieBack (b - 2)
     else if 6 ≤ b ∧ b < 14 then (s.stack (b - 6)).state != 2
     else if 14 ≤ b ∧ b < 18 then (SMap.get s.man.boundaries {} (b - 14)).state != 2
     else if b = 18 then s.fabricBack
     else decide (b < 21))

/-- A stack or a die boundary that sets its ready bit stands ready, or up, in the census. -/
def State.bringUp (s : State) (b : Nat) : State :=
  if 6 ≤ b ∧ b < 14 then s.setStack (b - 6) { s.stack (b - 6) with state := 1 }
  else if 14 ≤ b ∧ b < 18 then
    let x := SMap.get s.man.boundaries {} (b - 14)
    { s with man := { s.man with boundaries := SMap.put s.man.boundaries {} (b - 14) { x with state := 1 } } }
  else s

/-- FUNCTION_READY: a function sets its own bit. -/
def execFunctionReady (bit : Nat) (s : State) : Out :=
  event s (if s.mayReady bit then
    let t := s.bringUp bit
    { t with man := { t.man with ready := t.man.ready ||| BitVec.ofNat 21 (2 ^ bit) } }
  else s)

/-! ### Attestation (R412) -/

/-- What the measurements cover: the image, its version and the feature offer. -/
def State.measured (s : State) : List Byte :=
  s.man.image ++ leBytes 8 (Config.imageVersion s.man.image) ++ leBytes 32 0x7F

/-- An SPDM request answered, when the responder is ready (R404; log 13). -/
def State.spdmAnswer (s : State) (code : Nat) (req : List Byte) : State :=
  if s.man.ready.getLsbD 20 then
    { s with man := { s.man with spdm := s.man.spdm ++ [Config.spdmBody code req] } }
  else s

def execSpdmGetVersion (req : List Byte) (s : State) : Out := event s (s.spdmAnswer 0x84 req)
def execSpdmGetCapabilities (req : List Byte) (s : State) : Out := event s (s.spdmAnswer 0xE1 req)
def execSpdmNegotiateAlgorithms (req : List Byte) (s : State) : Out := event s (s.spdmAnswer 0xE3 req)
def execSpdmGetDigests (req : List Byte) (s : State) : Out := event s (s.spdmAnswer 0x81 req)
def execSpdmGetCertificate (req : List Byte) (s : State) : Out := event s (s.spdmAnswer 0x82 req)
def execSpdmChallenge (req : List Byte) (s : State) : Out := event s (s.spdmAnswer 0x83 req)

/-- SPDM_GET_MEASUREMENTS: over the image, its version and the feature offer. -/
def execSpdmGetMeasurements (req : List Byte) (s : State) : Out :=
  event s (s.spdmAnswer 0xE0 (req ++ s.measured))

/-! ### The envelope (R415) -/

def execThermalThrottleBegin (s : State) : Out :=
  event s (if s.man.throttled then s
    else ({ s with man := { s.man with throttled := true } }).record 0x0E01 0xFFFF 0)

def execThermalThrottleEnd (s : State) : Out :=
  event s (if s.man.throttled then
    ({ s with man := { s.man with throttled := false } }).record 0x0E02 0xFFFF 0 else s)

/-- THERMAL_SHUTDOWN: the module stops and records 0x8E03. -/
def execThermalShutdown (s : State) : Out :=
  event s (let t := s.record 0x8E03 0xFFFF 0; { t with man := { t.man with stopped := true } })

/-! ### Module reset, and failures -/

/-- The module after a reset: the reset state with the contents of memory, device time at 0 (R28); a pending
update is the image (R240, R411; log 54). -/
def State.moduleReset (s : State) : State :=
  let m : Manage := { image := s.man.update.getD s.man.image, revision := s.man.revision }
  { State.reset with modNo := s.modNo, fresh := s.fresh, nextId := s.nextId, inbox := s.inbox,
                     mem := s.mem, hbmPoison := s.hbmPoison, latent := s.latent, man := m }

/-- MODULE_RESET, of a module that has stopped too. -/
def execModuleReset (s : State) : Out := .next s.moduleReset

/-- HBM_STACK_FAILURE: the stack stands failed in the census (R404). -/
def execHbmStackFailure (stack : Nat) (s : State) : Out :=
  event s (if stack < 8 then (s.setStack stack { s.stack stack with state := 2 }).unready (6 + stack) else s)

/-! ### The exchange after a commit (R244, R253) -/

/-- The lines of a port with a committed tentative version that is still in the pool. -/
def State.dueLines (s : State) (port : Nat) : List Nat :=
  s.ver.pool.filterMap fun x => match x.2 with
    | some e => if e.tentative && e.stamp != 0 && homePort e.line == port then some e.line else none
    | none => none

/-- COMMIT_EXCHANGE: every exchange due at a port. -/
def execCommitExchange (port : Nat) (s : State) : Out :=
  event s ((s.dueLines port).foldl (fun s l => s.settle l) s)

end Sys2Proof.Machine
end

