-- ==== Sys2Proof/Machine/Ports.lean ====
section
/-! DEFINITION. MEMORY_PORT_READ, WRITE and ATOMIC (R210, R224, R265): requests and posted stores served at
memory ports, at the host interface and at the device registers; and the traps of words that are no
instructions, and of fetches (R38, R56). -/

namespace Sys2Proof.Machine

/-- The three kinds of request. -/
def ReqOp.isRead : ReqOp → Bool
  | .load | .xrd | .ldw => true
  | _ => false

def ReqOp.isAtomic : ReqOp → Bool
  | .amo .. | .cas .. | .lrw | .sch _ => true
  | _ => false

/-- The agent a strand's access stands for (R398). -/
def agentOf (sup : Bool) : Agent := if sup then .sup else .user

/-- A request at the device registers (R398, R399): a read or a write; no other form reaches them. -/
def State.serveDev (s : State) (r : Req) : State :=
  let who := agentOf (s.strand r.core r.slot).priv
  match r.op with
  | .write .bytes bs => (s.devWrite who r.addr bs).answerReq r (.note 0)
  | .write _ _ => s.answerReq r (.note 0)
  | _ =>
    let (bs, s) := s.devRead who r.addr r.size
    s.answerReq r (.data bs ((wordsOf r.addr r.size).map fun _ => false))

/-- A request at its place, other than a scratchpad or another module. One to a stack in training
waits, and one to a failed stack takes 0x6704 (R404). -/
def State.servePlace (s : State) (r : Req) : State :=
  match r.place with
  | .port _ =>
    if s.stackTraining r.addr then s
    else if s.stackDead r.addr then s.answerReq r (.trap 9 0x6704 r.ea)
    else (s.serveHbm r).apply r
  | .host => (s.serveHost r).apply r
  | .dev => s.serveDev r
  | .spad _ | .remote _ => s

/-- A posted store at a place of this kind. -/
def Place.isMemory : Place → Bool
  | .port _ | .host | .dev => true
  | _ => false

/-- A posted store, when it is the first of its bank and its stack is ready. -/
def State.portStore (s : State) (id : Nat) : State :=
  match s.findStore id with
  | none => s
  | some (c, e) =>
    if !e.place.isMemory || !s.applicable c e then s
    else match e.place with
      | .port _ =>
        if s.stackTraining e.addr then s
        else if s.stackDead e.addr then s.failStore c e 0x6704
        else s.applyStore c e
      | .dev => (s.devWrite (agentOf e.sup) e.addr e.bytes).accepted c e.id
      | _ => s.applyStore c e

/-- A request of one of the kinds, by its number. -/
def State.portEvent (s : State) (id : Nat) (kind : ReqOp → Bool) (other : State) : State :=
  match s.reqs.find? fun r => r.id == id with
  | some r => if kind r.op then s.servePlace r else s
  | none => other

def execMemoryPortRead (id : Nat) (s : State) : Out := event s (s.portEvent id ReqOp.isRead s)

/-- MEMORY_PORT_WRITE: a waiting write, or a posted store. -/
def execMemoryPortWrite (id : Nat) (s : State) : Out :=
  event s (s.portEvent id ReqOp.isWrite (s.portStore id))

def execMemoryPortAtomic (id : Nat) (s : State) : Out := event s (s.portEvent id ReqOp.isAtomic s)

/-- ILLEGAL_INSTRUCTION (R56): v is the refused bits. -/
def execIllegalInstruction (v : Word) (s : State) : Out :=
  event s (Res.trap s 0 0x6101 v).state

/-- FETCH_FAULT (R38): the fetch trap, or the fetch translation fault. -/
def execFetchFault (cause : BitVec 5) (code : Code) (v : Word) (s : State) : Out :=
  event s (Res.trap s cause code v).state

/-! ### Stacks in training (R404) -/

/-- A step has reached a memory port whose stack is still training. -/
def State.touchedTraining (s t : State) : Bool :=
  (List.range 8).any (fun k => (s.stack k).state == 0) &&
    (List.range 64).any fun q => (s.stack (portStack q)).state == 0 && decide (t.port q ≠ s.port q)

end Sys2Proof.Machine
end

