-- ==== Sys2Proof/Machine/Dispatch.lean ====
section
/-! DEFINITION. The dispatch: one arm per operation or event, each a direct call of its meaning. -/

namespace Sys2Proof.Machine

def exec (i : Instr) (s : State) : Host.Outcome State Fault Refusal :=
  match i with
  | .add g d a b => Sys2Proof.Machine.execAdd g d a b s
  | .sub g d a b => Sys2Proof.Machine.execSub g d a b s
  | .mul g d a b => Sys2Proof.Machine.execMul g d a b s
  | .mulhi g d a b => Sys2Proof.Machine.execMulhi g d a b s
  | .mulhn g d a b => Sys2Proof.Machine.execMulhn g d a b s
  | .div g d a b => Sys2Proof.Machine.execDiv g d a b s
  | .divn g d a b => Sys2Proof.Machine.execDivn g d a b s
  | .rem g d a b => Sys2Proof.Machine.execRem g d a b s
  | .remn g d a b => Sys2Proof.Machine.execRemn g d a b s
  | .min g d a b => Sys2Proof.Machine.execMin g d a b s
  | .max g d a b => Sys2Proof.Machine.execMax g d a b s
  | .minn g d a b => Sys2Proof.Machine.execMinn g d a b s
  | .maxn g d a b => Sys2Proof.Machine.execMaxn g d a b s
  | .and g d a b => Sys2Proof.Machine.execAnd g d a b s
  | .or g d a b => Sys2Proof.Machine.execOr g d a b s
  | .xor g d a b => Sys2Proof.Machine.execXor g d a b s
  | .andn g d a b => Sys2Proof.Machine.execAndn g d a b s
  | .shlRegister g d a b => Sys2Proof.Machine.execShlRegister g d a b s
  | .shrRegister g d a b => Sys2Proof.Machine.execShrRegister g d a b s
  | .shaRegister g d a b => Sys2Proof.Machine.execShaRegister g d a b s
  | .rotRegister g d a b => Sys2Proof.Machine.execRotRegister g d a b s
  | .mov g d a => Sys2Proof.Machine.execMov g d a s
  | .clz g d a => Sys2Proof.Machine.execClz g d a s
  | .ctz g d a => Sys2Proof.Machine.execCtz g d a s
  | .popc g d a => Sys2Proof.Machine.execPopc g d a s
  | .brev g d a => Sys2Proof.Machine.execBrev g d a s
  | .bswap g d a => Sys2Proof.Machine.execBswap g d a s
  | .mix64 g d a => Sys2Proof.Machine.execMix64 g d a s
  | .addi g d a imm => Sys2Proof.Machine.execAddi g d a imm s
  | .andi g d a imm => Sys2Proof.Machine.execAndi g d a imm s
  | .ori g d a imm => Sys2Proof.Machine.execOri g d a imm s
  | .xori g d a imm => Sys2Proof.Machine.execXori g d a imm s
  | .shlImmediate g d a sh => Sys2Proof.Machine.execShlImmediate g d a sh s
  | .shrImmediate g d a sh => Sys2Proof.Machine.execShrImmediate g d a sh s
  | .shaImmediate g d a sh => Sys2Proof.Machine.execShaImmediate g d a sh s
  | .rotImmediate g d a sh => Sys2Proof.Machine.execRotImmediate g d a sh s
  | .cmp g cc pd a b => Sys2Proof.Machine.execCmp g cc pd a b s
  | .cmpi g cc pd a imm => Sys2Proof.Machine.execCmpi g cc pd a imm s
  | .pand g pd pa pb => Sys2Proof.Machine.execPand g pd pa pb s
  | .por g pd pa pb => Sys2Proof.Machine.execPor g pd pa pb s
  | .pxor g pd pa pb => Sys2Proof.Machine.execPxor g pd pa pb s
  | .pnot g pd pa => Sys2Proof.Machine.execPnot g pd pa s
  | .pmov g pd pa => Sys2Proof.Machine.execPmov g pd pa s
  | .pset g pd k => Sys2Proof.Machine.execPset g pd k s
  | .sel g d pn a b => Sys2Proof.Machine.execSel g d pn a b s
  | .lea g d a b sh => Sys2Proof.Machine.execLea g d a b sh s
  | .movwZ d hw imm => Sys2Proof.Machine.execMovwZ d hw imm s
  | .movwK d hw imm => Sys2Proof.Machine.execMovwK d hw imm s
  | .movwS d hw imm => Sys2Proof.Machine.execMovwS d hw imm s
  | .addpc d imm => Sys2Proof.Machine.execAddpc d imm s
  | .br g disp => Sys2Proof.Machine.execBr g disp s
  | .brl g disp => Sys2Proof.Machine.execBrl g disp s
  | .jmp g a imm => Sys2Proof.Machine.execJmp g a imm s
  | .jmpl g d a imm => Sys2Proof.Machine.execJmpl g d a imm s
  | .fext g d a lay f => Sys2Proof.Machine.execFext g d a lay f s
  | .fins g d a lay f => Sys2Proof.Machine.execFins g d a lay f s
  | .fpack g d a lay => Sys2Proof.Machine.execFpack g d a lay s
  | .funpack g d a lay => Sys2Proof.Machine.execFunpack g d a lay s
  | .layout g lay a => Sys2Proof.Machine.execLayout g lay a s
  | .fadd g ft d a b => Sys2Proof.Machine.execFadd g ft d a b s
  | .fsub g ft d a b => Sys2Proof.Machine.execFsub g ft d a b s
  | .fmul g ft d a b => Sys2Proof.Machine.execFmul g ft d a b s
  | .fdiv g ft d a b => Sys2Proof.Machine.execFdiv g ft d a b s
  | .fmin g ft d a b => Sys2Proof.Machine.execFmin g ft d a b s
  | .fmax g ft d a b => Sys2Proof.Machine.execFmax g ft d a b s
  | .fsqrt g ft d a => Sys2Proof.Machine.execFsqrt g ft d a s
  | .fcvt g tgt src d a => Sys2Proof.Machine.execFcvt g tgt src d a s
  | .frnd g fmt d a => Sys2Proof.Machine.execFrnd g fmt d a s
  | .fclass g fmt d a => Sys2Proof.Machine.execFclass g fmt d a s
  | .fmaF64 g d a b c => Sys2Proof.Machine.execFmaF64 g d a b c s
  | .fmaF32 g d a b c => Sys2Proof.Machine.execFmaF32 g d a b c s
  | .fcmp g cc ft pd a b => Sys2Proof.Machine.execFcmp g cc ft pd a b s
  | .srd g d n => Sys2Proof.Machine.execSrd g d n s
  | .swr g n a => Sys2Proof.Machine.execSwr g n a s
  | .srdp g d n => Sys2Proof.Machine.execSrdp g d n s
  | .swrp g n a => Sys2Proof.Machine.execSwrp g n a s
  | .ld g ty d a off => Sys2Proof.Machine.execLd g ty d a off s
  | .st g ty d a off => Sys2Proof.Machine.execSt g ty d a off s
  | .ldp g d a off => Sys2Proof.Machine.execLdp g d a off s
  | .stp g d a off => Sys2Proof.Machine.execStp g d a off s
  | .ldIndexed g ty d a b => Sys2Proof.Machine.execLdIndexed g ty d a b s
  | .stIndexed g ty d a b => Sys2Proof.Machine.execStIndexed g ty d a b s
  | .ldaN32 g d a => Sys2Proof.Machine.execLdaN32 g d a s
  | .ldaN64 g d a => Sys2Proof.Machine.execLdaN64 g d a s
  | .strN32 g a b => Sys2Proof.Machine.execStrN32 g a b s
  | .strN64 g a b => Sys2Proof.Machine.execStrN64 g a b s
  | .casN32 g d a b => Sys2Proof.Machine.execCasN32 g d a b s
  | .casN64 g d a b => Sys2Proof.Machine.execCasN64 g d a b s
  | .xclr g a => Sys2Proof.Machine.execXclr g a s
  | .xrdF32 g d a => Sys2Proof.Machine.execXrdF32 g d a s
  | .xrdF64 g d a => Sys2Proof.Machine.execXrdF64 g d a s
  | .lrw g d a => Sys2Proof.Machine.execLrw g d a s
  | .sch g pd a b => Sys2Proof.Machine.execSch g pd a b s
  | .fence g kind scope => Sys2Proof.Machine.execFence g kind scope s
  | .lookup g d a => Sys2Proof.Machine.execLookup g d a s
  | .tagset g a b => Sys2Proof.Machine.execTagset g a b s
  | .tagclr g a => Sys2Proof.Machine.execTagclr g a s
  | .pref g a => Sys2Proof.Machine.execPref g a s
  | .snap g d => Sys2Proof.Machine.execSnap g d s
  | .snapx g a => Sys2Proof.Machine.execSnapx g a s
  | .txb g => Sys2Proof.Machine.execTxb g s
  | .txc g pd => Sys2Proof.Machine.execTxc g pd s
  | .txa g => Sys2Proof.Machine.execTxa g s
  | .txs g d => Sys2Proof.Machine.execTxs g d s
  | .alw g d a pq => Sys2Proof.Machine.execAlw g d a pq s
  | .amo g w op d a b => Sys2Proof.Machine.execAmo g w op d a b s
  | .red g w op a b => Sys2Proof.Machine.execRed g w op a b s
  | .spawn g d a => Sys2Proof.Machine.execSpawn g d a s
  | .spawnq g d a pq => Sys2Proof.Machine.execSpawnq g d a pq s
  | .touch g d a => Sys2Proof.Machine.execTouch g d a s
  | .touchq g d a pq => Sys2Proof.Machine.execTouchq g d a pq s
  | .resolve g a b => Sys2Proof.Machine.execResolve g a b s
  | .poison g a b => Sys2Proof.Machine.execPoison g a b s
  | .cancel g a => Sys2Proof.Machine.execCancel g a s
  | .fstat g d a => Sys2Proof.Machine.execFstat g d a s
  | .fhold g a => Sys2Proof.Machine.execFhold g a s
  | .fdrop g a => Sys2Proof.Machine.execFdrop g a s
  | .go g a => Sys2Proof.Machine.execGo g a s
  | .yield g => Sys2Proof.Machine.execYield g s
  | .exit g a => Sys2Proof.Machine.execExit g a s
  | .self g d => Sys2Proof.Machine.execSelf g d s
  | .pmode g k => Sys2Proof.Machine.execPmode g k s
  | .pbind g a => Sys2Proof.Machine.execPbind g a s
  | .pstat g d => Sys2Proof.Machine.execPstat g d s
  | .ldw g d a => Sys2Proof.Machine.execLdw g d a s
  | .stw g a b => Sys2Proof.Machine.execStw g a b s
  | .bjoin g a => Sys2Proof.Machine.execBjoin g a s
  | .barv g a => Sys2Proof.Machine.execBarv g a s
  | .bwait g d a pq => Sys2Proof.Machine.execBwait g d a pq s
  | .bleave g a => Sys2Proof.Machine.execBleave g a s
  | .bexpect g a b => Sys2Proof.Machine.execBexpect g a b s
  | .fpop g d a => Sys2Proof.Machine.execFpop g d a s
  | .fpopq g d a pq => Sys2Proof.Machine.execFpopq g d a pq s
  | .cpy g d a => Sys2Proof.Machine.execCpy g d a s
  | .cpy2 g d a => Sys2Proof.Machine.execCpy2 g d a s
  | .cpyg g d a => Sys2Proof.Machine.execCpyg g d a s
  | .tdset g k a => Sys2Proof.Machine.execTdset g k a s
  | .cqstat g d a => Sys2Proof.Machine.execCqstat g d a s
  | .wld g fmt lp a b => Sys2Proof.Machine.execWld g fmt lp a b s
  | .weft g fmt v lp a b => Sys2Proof.Machine.execWeft g fmt v lp a b s
  | .vrd g fmt v a b => Sys2Proof.Machine.execVrd g fmt v a b s
  | .lgrp g fmt v lp a b => Sys2Proof.Machine.execLgrp g fmt v lp a b s
  | .wswap g => Sys2Proof.Machine.execWswap g s
  | .vclr g k => Sys2Proof.Machine.execVclr g k s
  | .vadd g k a => Sys2Proof.Machine.execVadd g k a s
  | .lloop g k a => Sys2Proof.Machine.execLloop g k a s
  | .lfut g d => Sys2Proof.Machine.execLfut g d s
  | .lres g a => Sys2Proof.Machine.execLres g a s
  | .lstat g d => Sys2Proof.Machine.execLstat g d s
  | .tadd g td ta tb => Sys2Proof.Machine.execTadd g td ta tb s
  | .tsub g td ta tb => Sys2Proof.Machine.execTsub g td ta tb s
  | .tmul g td ta tb => Sys2Proof.Machine.execTmul g td ta tb s
  | .tfma g td ta tb => Sys2Proof.Machine.execTfma g td ta tb s
  | .tdiv g td ta tb => Sys2Proof.Machine.execTdiv g td ta tb s
  | .tmin g td ta tb => Sys2Proof.Machine.execTmin g td ta tb s
  | .tmax g td ta tb => Sys2Proof.Machine.execTmax g td ta tb s
  | .tsel g td ta tb => Sys2Proof.Machine.execTsel g td ta tb s
  | .tand g td ta tb => Sys2Proof.Machine.execTand g td ta tb s
  | .tor g td ta tb => Sys2Proof.Machine.execTor g td ta tb s
  | .txor g td ta tb => Sys2Proof.Machine.execTxor g td ta tb s
  | .tshl g td ta tb => Sys2Proof.Machine.execTshl g td ta tb s
  | .tshr g td ta tb => Sys2Proof.Machine.execTshr g td ta tb s
  | .tcvt g tgt td ta => Sys2Proof.Machine.execTcvt g tgt td ta s
  | .ttopk g td ta k1 => Sys2Proof.Machine.execTtopk g td ta k1 s
  | .tcmpEq g td ta tb => Sys2Proof.Machine.execTcmpEq g td ta tb s
  | .tcmpNe g td ta tb => Sys2Proof.Machine.execTcmpNe g td ta tb s
  | .tcmpLt g td ta tb => Sys2Proof.Machine.execTcmpLt g td ta tb s
  | .tcmpLe g td ta tb => Sys2Proof.Machine.execTcmpLe g td ta tb s
  | .tmov g td ta => Sys2Proof.Machine.execTmov g td ta s
  | .txpose g td ta => Sys2Proof.Machine.execTxpose g td ta s
  | .texp2 g td ta => Sys2Proof.Machine.execTexp2 g td ta s
  | .tlog2 g td ta => Sys2Proof.Machine.execTlog2 g td ta s
  | .trcp g td ta => Sys2Proof.Machine.execTrcp g td ta s
  | .trsq g td ta => Sys2Proof.Machine.execTrsq g td ta s
  | .tsqrt g td ta => Sys2Proof.Machine.execTsqrt g td ta s
  | .ttanh g td ta => Sys2Proof.Machine.execTtanh g td ta s
  | .tredAdd g td ta => Sys2Proof.Machine.execTredAdd g td ta s
  | .tredMin g td ta => Sys2Proof.Machine.execTredMin g td ta s
  | .tredMax g td ta => Sys2Proof.Machine.execTredMax g td ta s
  | .tscanAdd g td ta => Sys2Proof.Machine.execTscanAdd g td ta s
  | .tiota g td => Sys2Proof.Machine.execTiota g td s
  | .trand g td => Sys2Proof.Machine.execTrand g td s
  | .tld g t a b => Sys2Proof.Machine.execTld g t a b s
  | .tst g t a b => Sys2Proof.Machine.execTst g t a b s
  | .tsplat g t a => Sys2Proof.Machine.execTsplat g t a s
  | .tmovgRead g t a b => Sys2Proof.Machine.execTmovgRead g t a b s
  | .tmovgWrite g t a b => Sys2Proof.Machine.execTmovgWrite g t a b s
  | .tldi g t ti a => Sys2Proof.Machine.execTldi g t ti a s
  | .tsti g t ti a => Sys2Proof.Machine.execTsti g t ti a s
  | .shape g fmt cols1 rows1 => Sys2Proof.Machine.execShape g fmt cols1 rows1 s
  | .nop g => Sys2Proof.Machine.execNop g s
  | .trap g k => Sys2Proof.Machine.execTrap g k s
  | .eret g => Sys2Proof.Machine.execEret g s
  | .wfi g => Sys2Proof.Machine.execWfi g s
  | .tlbi g a b => Sys2Proof.Machine.execTlbi g a b s
  | .ctxsv g a => Sys2Proof.Machine.execCtxsv g a s
  | .ctxld g a => Sys2Proof.Machine.execCtxld g a s
  | .dbgb g k => Sys2Proof.Machine.execDbgb g k s
  | .modifierWord m => Sys2Proof.Machine.execModifierWord m s
  | .movC16 n d a => Sys2Proof.Machine.execMovC16 n d a s
  | .addC16 n d a => Sys2Proof.Machine.execAddC16 n d a s
  | .subC16 n d a => Sys2Proof.Machine.execSubC16 n d a s
  | .andC16 n d a => Sys2Proof.Machine.execAndC16 n d a s
  | .orC16 n d a => Sys2Proof.Machine.execOrC16 n d a s
  | .xorC16 n d a => Sys2Proof.Machine.execXorC16 n d a s
  | .shlC16 n d a => Sys2Proof.Machine.execShlC16 n d a s
  | .shrC16 n d a => Sys2Proof.Machine.execShrC16 n d a s
  | .addiC16 n d imm => Sys2Proof.Machine.execAddiC16 n d imm s
  | .ldN64C16 n d a => Sys2Proof.Machine.execLdN64C16 n d a s
  | .stN64C16 n d a => Sys2Proof.Machine.execStN64C16 n d a s
  | .brC16 n disp => Sys2Proof.Machine.execBrC16 n disp s
  | .touchC16 n d a => Sys2Proof.Machine.execTouchC16 n d a s
  | .jmpC16 n a => Sys2Proof.Machine.execJmpC16 n a s
  | .nopC16 n => Sys2Proof.Machine.execNopC16 n s
  | .interruptTaken core => Sys2Proof.Machine.execInterruptTaken core s
  | .timerExpiry core => Sys2Proof.Machine.execTimerExpiry core s
  | .storeErrorReport core => Sys2Proof.Machine.execStoreErrorReport core s
  | .loadReply id => Sys2Proof.Machine.execLoadReply id s
  | .scratchpadRequest id => Sys2Proof.Machine.execScratchpadRequest id s
  | .memoryPortRead id => Sys2Proof.Machine.execMemoryPortRead id s
  | .memoryPortWrite id => Sys2Proof.Machine.execMemoryPortWrite id s
  | .memoryPortAtomic id => Sys2Proof.Machine.execMemoryPortAtomic id s
  | .redMergeGroupApply id => Sys2Proof.Machine.execRedMergeGroupApply id s
  | .tableWalkComplete cluster ctx granule => Sys2Proof.Machine.execTableWalkComplete cluster ctx granule s
  | .futureEntryFill cluster slot => Sys2Proof.Machine.execFutureEntryFill cluster slot s
  | .bindTask core => Sys2Proof.Machine.execBindTask core s
  | .stealRound core => Sys2Proof.Machine.execStealRound core s
  | .dequeRefill core => Sys2Proof.Machine.execDequeRefill core s
  | .arrivalRefill core => Sys2Proof.Machine.execArrivalRefill core s
  | .arrivalResend core => Sys2Proof.Machine.execArrivalResend core s
  | .doomNotice index => Sys2Proof.Machine.execDoomNotice index s
  | .gleanerVisit line => Sys2Proof.Machine.execGleanerVisit line s
  | .poolWaitTimeout id => Sys2Proof.Machine.execPoolWaitTimeout id s
  | .reservationExpiry line => Sys2Proof.Machine.execReservationExpiry line s
  | .remoteRequestTimeout id => Sys2Proof.Machine.execRemoteRequestTimeout id s
  | .loomCmdWld core => Sys2Proof.Machine.execLoomCmdWld core s
  | .loomCmdWswap core => Sys2Proof.Machine.execLoomCmdWswap core s
  | .loomCmdVclr core => Sys2Proof.Machine.execLoomCmdVclr core s
  | .loomCmdWeft core => Sys2Proof.Machine.execLoomCmdWeft core s
  | .loomCmdVadd core => Sys2Proof.Machine.execLoomCmdVadd core s
  | .loomCmdLgrp core => Sys2Proof.Machine.execLoomCmdLgrp core s
  | .loomCmdLloop core => Sys2Proof.Machine.execLoomCmdLloop core s
  | .loomCmdVrd core => Sys2Proof.Machine.execLoomCmdVrd core s
  | .loomMarker core => Sys2Proof.Machine.execLoomMarker core s
  | .loomPause core rows => Sys2Proof.Machine.execLoomPause core rows s
  | .scrivenerCpy cluster q => Sys2Proof.Machine.execScrivenerCpy cluster q s
  | .scrivenerCpy2 cluster q => Sys2Proof.Machine.execScrivenerCpy2 cluster q s
  | .scrivenerCpyg cluster q => Sys2Proof.Machine.execScrivenerCpyg cluster q s
  | .scrivenerPause core => Sys2Proof.Machine.execScrivenerPause core s
  | .tilePrefetch cluster => Sys2Proof.Machine.execTilePrefetch cluster s
  | .tailWrite who q bytes v => Sys2Proof.Machine.execTailWrite who q bytes v s
  | .queueEnable who q v => Sys2Proof.Machine.execQueueEnable who q v s
  | .queueDisable who q v => Sys2Proof.Machine.execQueueDisable who q v s
  | .queueSkip who q => Sys2Proof.Machine.execQueueSkip who q s
  | .queueRetry who q => Sys2Proof.Machine.execQueueRetry who q s
  | .queueReset who q => Sys2Proof.Machine.execQueueReset who q s
  | .launch seq => Sys2Proof.Machine.execLaunch seq s
  | .feed q => Sys2Proof.Machine.execFeed q s
  | .copy seq => Sys2Proof.Machine.execCopy seq s
  | .semwait q => Sys2Proof.Machine.execSemwait q s
  | .semsig q => Sys2Proof.Machine.execSemsig q s
  | .futwait q => Sys2Proof.Machine.execFutwait q s
  | .intr q => Sys2Proof.Machine.execIntr q s
  | .indirect q => Sys2Proof.Machine.execIndirect q s
  | .fencePacket q => Sys2Proof.Machine.execFencePacket q s
  | .unknownOpcode q => Sys2Proof.Machine.execUnknownOpcode q s
  | .heapAdmit q => Sys2Proof.Machine.execHeapAdmit q s
  | .heapTake => Sys2Proof.Machine.execHeapTake s
  | .launchPlacement seq => Sys2Proof.Machine.execLaunchPlacement seq s
  | .launchComplete seq => Sys2Proof.Machine.execLaunchComplete seq s
  | .semaphoreWrite who k bytes v => Sys2Proof.Machine.execSemaphoreWrite who k bytes v s
  | .feedQueueEnable who f v => Sys2Proof.Machine.execFeedQueueEnable who f v s
  | .feedQueueDisable who f v => Sys2Proof.Machine.execFeedQueueDisable who f v s
  | .hostReadTimeout q => Sys2Proof.Machine.execHostReadTimeout q s
  | .fabricRead p => Sys2Proof.Machine.execFabricRead p s
  | .fabricWrite p => Sys2Proof.Machine.execFabricWrite p s
  | .fabricAmo p => Sys2Proof.Machine.execFabricAmo p s
  | .fabricCas p => Sys2Proof.Machine.execFabricCas p s
  | .fabricRed p => Sys2Proof.Machine.execFabricRed p s
  | .fabricLrw p => Sys2Proof.Machine.execFabricLrw p s
  | .fabricSch p => Sys2Proof.Machine.execFabricSch p s
  | .fabricXrdXclr p => Sys2Proof.Machine.execFabricXrdXclr p s
  | .fabricFutureRequest p => Sys2Proof.Machine.execFabricFutureRequest p s
  | .fabricFutureDelivery p => Sys2Proof.Machine.execFabricFutureDelivery p s
  | .fabricReadReply p => Sys2Proof.Machine.execFabricReadReply p s
  | .fabricAck p => Sys2Proof.Machine.execFabricAck p s
  | .fabricErrorReply p => Sys2Proof.Machine.execFabricErrorReply p s
  | .allowancePark core slot => Sys2Proof.Machine.execAllowancePark core slot s
  | .packetForward p => Sys2Proof.Machine.execPacketForward p s
  | .linkDown l => Sys2Proof.Machine.execLinkDown l s
  | .linkUp l => Sys2Proof.Machine.execLinkUp l s
  | .featureWordAnnounce m w => Sys2Proof.Machine.execFeatureWordAnnounce m w s
  | .dieBoundaryFailure b => Sys2Proof.Machine.execDieBoundaryFailure b s
  | .routeWordWrite who m bytes v => Sys2Proof.Machine.execRouteWordWrite who m bytes v s
  | .rangeRegisterWrite who port word bytes v => Sys2Proof.Machine.execRangeRegisterWrite who port word bytes v s
  | .versionPoolWrite who reg bytes v => Sys2Proof.Machine.execVersionPoolWrite who reg bytes v s
  | .drainWrite who off v => Sys2Proof.Machine.execDrainWrite who off v s
  | .featureAcceptWrite who k v => Sys2Proof.Machine.execFeatureAcceptWrite who k v s
  | .dieStart who v => Sys2Proof.Machine.execDieStart who v s
  | .interruptWordWrite who core => Sys2Proof.Machine.execInterruptWordWrite who core s
  | .debugHalt who core slot => Sys2Proof.Machine.execDebugHalt who core slot s
  | .debugResume who core slot => Sys2Proof.Machine.execDebugResume who core slot s
  | .debugDtrapClear who core => Sys2Proof.Machine.execDebugDtrapClear who core s
  | .debugQuiesce who core sq lq => Sys2Proof.Machine.execDebugQuiesce who core sq lq s
  | .registerWrite who off bytes v => Sys2Proof.Machine.execRegisterWrite who off bytes v s
  | .powerOn => Sys2Proof.Machine.execPowerOn s
  | .functionReady bit => Sys2Proof.Machine.execFunctionReady bit s
  | .firmwareLoad image => Sys2Proof.Machine.execFirmwareLoad image s
  | .firmwareUpdate image => Sys2Proof.Machine.execFirmwareUpdate image s
  | .spdmGetVersion req => Sys2Proof.Machine.execSpdmGetVersion req s
  | .spdmGetCapabilities req => Sys2Proof.Machine.execSpdmGetCapabilities req s
  | .spdmNegotiateAlgorithms req => Sys2Proof.Machine.execSpdmNegotiateAlgorithms req s
  | .spdmGetDigests req => Sys2Proof.Machine.execSpdmGetDigests req s
  | .spdmGetCertificate req => Sys2Proof.Machine.execSpdmGetCertificate req s
  | .spdmChallenge req => Sys2Proof.Machine.execSpdmChallenge req s
  | .spdmGetMeasurements req => Sys2Proof.Machine.execSpdmGetMeasurements req s
  | .thermalThrottleBegin => Sys2Proof.Machine.execThermalThrottleBegin s
  | .thermalThrottleEnd => Sys2Proof.Machine.execThermalThrottleEnd s
  | .thermalShutdown => Sys2Proof.Machine.execThermalShutdown s
  | .illegalInstruction v => Sys2Proof.Machine.execIllegalInstruction v s
  | .fetchFault cause code v => Sys2Proof.Machine.execFetchFault cause code v s
  | .moduleReset => Sys2Proof.Machine.execModuleReset s
  | .hbmStackFailure stack => Sys2Proof.Machine.execHbmStackFailure stack s
  | .commitExchange port => Sys2Proof.Machine.execCommitExchange port s

end Sys2Proof.Machine
end

