-- ==== Sys2Proof/Machine/Fetch.lean ====
section
/-! DEFINITION. Fetching an instruction (R38, R39, R56) and issuing it: the halfwords at the program
counter through the core's instruction cache, the modifier word before it, and what stands before an
issue (R186, R352). -/

namespace Sys2Proof.Machine

/-! ### The instruction cache (R39) -/

/-- The requests of a fetch to another module stand under this slot number. -/
def fetchCtx (core slot : Nat) : CopyCtx := ⟨core, 0, false, clusterOf core, fetchSlot + slot, core⟩

/-- Where a strand waits for a sector of another module. -/
def farFetch (sector : Nat) : Nat := 2 ^ 60 + sector

/-- A sector as a fetch found it: its number and its bytes. -/
abbrev Sector := Nat × List Byte

/-- What fetching a halfword gives. -/
inductive HalfFetch where
  | ok (x y : Byte) (from_ : Sector) (s : State)
  | fault (cause : BitVec 5) (code : Code) (s : State)
  /-- a walk or a sector of another module must come first -/
  | miss (granule : Nat) (s : State)

/-- A sector as its serving place gives it, of this module. -/
def State.readSector (s : State) (pa : Nat) : List Byte × State :=
  let o := paOffset pa / 128 * 128
  match s.placeOf pa with
  | .port _ =>
    let (bs, _, s) := (s.flushLine o).portRead o 128 false 0 0
    (bs, s)
  | .dev => s.devRead (agentOf s.me.priv) o 128
  | .host =>
    let (bs, _, s) := s.readHost o 128
    (bs, s)
  | _ => (s.bytes o 128, s)

def State.fillSector (s : State) (sector : Nat) (bs : List Byte) : State :=
  s.setMyCore (s.myCore.fillSector sector bs)

/-- A sector of another module: held, or come, or asked for. -/
def State.farSector (s : State) (k : Nat) : Option (List Byte) × State :=
  let x := fetchCtx s.issue.core s.issue.slot
  match s.engineGot x k with
  | some a =>
    let (bs, s) := s.sectorIn a
    (some bs, (s.dropFetched s.issue.core s.issue.slot).fillSector k bs)
  | none =>
    (none, s.engineAskFar x k .load false (128 * k) 0 128)

/-- A sector held that may no longer be what its place holds (R39). -/
def State.staleSector (s : State) (pa : Nat) (held : List Byte) : Bool :=
  match s.placeOf pa with
  | .port _ | .host => decide (held ≠ s.bytes (paOffset pa / 128 * 128) 128)
  | _ => true

/-- A sector read afresh at its place, or asked for at another module. -/
def State.newSector (s : State) (pa : Nat) : Option (List Byte) × State :=
  match s.placeOf pa with
  | .remote _ => s.farSector (pa / 128)
  | _ =>
    let (bs, s) := s.readSector pa
    (some bs, s.fillSector (pa / 128) bs)

/-- The sector of a PA through the core's cache; one held that may be stale is read again or not, as a
free choice has it (log 9). None when it must come from another module first. -/
def State.sectorOf (s : State) (pa : Nat) : Option (List Byte) × State :=
  let k := pa / 128
  let held := SMap.get s.myCore.icache [] k
  if held.isEmpty then s.newSector pa
  else if s.staleSector pa held then
    let t := { s with fresh := s.fresh + 1 }
    if Config.refetch s.fresh then t.newSector pa else (some held, t)
  else (some held, s)

/-- The sector from which a halfword comes: the one that the halfword before it came from, where they lie
in one, so that no instruction within a sector mixes old and new (R39). -/
def State.sectorFor (s : State) (pa : Nat) (last : Option Sector) : Option (List Byte) × State :=
  match last with
  | some (k, bs) => if k = pa / 128 then (some bs, s) else s.sectorOf pa
  | none => s.sectorOf pa

/-- The halfword at an address, for the issuing strand (R38), after one of the sector `last`. -/
def State.fetchHalf (s : State) (a : Word) (last : Option Sector) : HalfFetch :=
  if regionClass a ≠ 0 then .fault 8 0x6109 s
  else if !rootEn s.myCore.xroot then .fault 10 0x2701 s
  else match s.translation (granuleOf a) with
    | none => .miss (granuleOf a) (s.startWalk (granuleOf a) true)
    | some (.fault c) => .fault 10 c s
    | some (.leaf l) =>
      let pa := l.paOf a.toNat
      if !l.permits .fetch s.me.priv then .fault 10 0x2702 s
      else if s.paFault pa then .fault 10 0x6704 s
      else match (s.useTlb a).sectorFor pa last with
        | (some bs, s) => .ok (bs.getD (pa % 128) 0) (bs.getD (pa % 128 + 1) 0) (pa / 128, bs) s
        | (none, s) => .miss (farFetch (pa / 128)) s

/-! ### One unit (R41, R56) -/

/-- More halfwords belong to what has been read. -/
def moreBytes : List Byte → Bool
  | [] => true
  | [x, _] => x.getLsbD 0
  | [x, _, _, _] => decide (x.toNat / 2 % 64 = 63)
  | [_, _, _, _, x, _] => x.getLsbD 0
  | _ => false

/-- What a fetch gives: the bytes of a unit, a fault after `bytes`, or a wait. -/
inductive UnitFetch where
  | ok (bytes : List Byte) (s : State)
  | fault (cause : BitVec 5) (code : Code) (bytes : List Byte) (s : State)
  | miss (granule : Nat) (s : State)

/-- The halfwords of a unit from its first on, with fuel. -/
def State.fetchUnit (s : State) (pc : Word) (acc : List Byte) (last : Option Sector) :
    Nat → UnitFetch
  | 0 => .ok acc s
  | k + 1 =>
    if !moreBytes acc then .ok acc s
    else match s.fetchHalf (pc + BitVec.ofNat 64 acc.length) last with
      | .ok x y sec s => s.fetchUnit pc (acc ++ [x, y]) (some sec) k
      | .fault cause code s => .fault cause code acc s
      | .miss g s => .miss g s

/-! ### Issuing -/

/-- The issuing strand waits for a walk, or for a sector. -/
def State.waitFetch (s : State) (g : Nat) : State :=
  s.setMe { s.me with st := .waiting, fetchWait := some g }

/-- The length of an instruction of which `bytes` were read: a free choice where they do not tell it
(log 3). -/
def State.lengthOf (s : State) (bytes : List Byte) : Nat × State :=
  if 4 ≤ bytes.length then (8, s)
  else
    let (n, s) := s.choose (if bytes.isEmpty then 3 else 2)
    (lenOf (if bytes.isEmpty then n else n + 1), s)

/-- The record of what issues. -/
def State.issuing (s : State) (len : Nat) (word : Word) (i : Instr) : State :=
  { s with issue := { s.issue with len := len, mw := none, word := word, instr := i, pops := false } }

/-- The instruction of a unit, after its modifier word. -/
def runUnit (u : Unit32) (s : State) : Out :=
  match u.mw with
  | none => exec u.instr s
  | some m =>
    match exec (.modifierWord m) s with
    | .next s => exec u.instr s
    | r => r

/-- What follows the fetch of a unit's bytes. -/
def issueBytes (s : State) (bs : List Byte) : Out :=
  let v := refusedBits bs
  match decodeBytes bs with
  | .ok u => runUnit u (s.issuing u.len v u.instr)
  | .error _ =>
    Sys2Proof.Machine.execIllegalInstruction v (s.issuing (unitLen bs) v s.issue.instr)

/-- A fetch and what it gives. -/
def fetchIssue (s : State) : Out :=
  match s.fetchUnit s.me.pc [] none 5 with
  | .ok bs s => issueBytes s bs
  | .miss g s => event s (s.waitFetch g)
  | .fault cause code bs s =>
    let (n, s) := s.lengthOf bs
    execFetchFault cause code s.me.pc (s.issuing n 0 s.issue.instr)

/-- The slot issues in this cycle: the state names it, and its strand stands in the rotation. -/
def State.atSlot (s : State) (core slot : Nat) : State :=
  let c := s.core core
  let t : Strand := { s.strand core slot with last := some s.now, st := .ready, fetchWait := none }
  let s := s.setCore core ({ c with issued := some s.now }.setStrand slot t)
  { s with issue := { s.issue with core := core, slot := slot } }

/-- The strand waits with an instruction that has not issued, or that it has not fetched. -/
def Strand.unissued (t : Strand) : Bool :=
  t.st == .waiting && (t.fetchWait.isSome || t.flight.any fun f => f.on.unissued)

/-- A slot whose instruction could not issue has taken no cycle of its core (R117, R132). -/
def State.ifIssued (s : State) (core slot : Nat) (o : Out) : Out :=
  match o with
  | .next u =>
    let t := u.strand core slot
    if t.unissued then
      .next ((u.setCore core { u.core core with issued := (s.core core).issued }).setStrand core slot
        { t with last := (s.strand core slot).last })
    else .next u
  | r => r

/-- An instruction that has not issued yet issues in this cycle, in its core's present context, with nothing
kept of an earlier try (R28, R215, R391). -/
def State.afresh (s : State) : State :=
  let t := s.me
  s.setMe { t with walked := [], flight := t.flight.map fun f =>
    { f with root := s.myCore.xroot, at_ := s.now } }

/-- The slot issues: a failed TOUCH and then a store error trap first (R186, R352); then what could not
issue before tries again, or the next instruction is fetched. -/
def State.issueRun (s : State) (core slot : Nat) : Out :=
  let s := s.atSlot core slot
  let t := s.me
  match t.failed with
  | some (fw, pc, len) =>
    event s ((s.setMe { t with failed := none }).trap core slot 11 (fw.extractLsb' 0 16) fw pc len)
  | none =>
    match t.err with
    | some (code, ea) =>
      let trapped := fun (s : State) (len : Nat) =>
        event s ((s.setMe { s.me with err := none }).trap core slot 16 code ea t.pc len)
      if s.lengthKnown core t then
        let (len, s) := s.lengthAt core t
        trapped s len
      else match s.fetchUnit t.pc [] none 5 with
        | .ok bs s => trapped s (unitLen bs)
        | .fault _ _ bs s =>
          let (len, s) := s.lengthOf bs
          trapped s len
        | .miss g s => event s (s.waitFetch g)
    | none =>
      match t.flight with
      | some f => exec f.instr { s.afresh with issue := f.issue core slot }
      | none => fetchIssue s

/-- What issuing a slot leaves. -/
def State.issueSlot (s : State) (core slot : Nat) : Out :=
  s.ifIssued core slot (s.issueRun core slot)

/-- An instruction that has issued and is held goes on once what it waits for holds: no issue of its
own (R109, R134, R167). -/
def State.proceedSlot (s : State) (core slot : Nat) : Out :=
  let t := s.strand core slot
  match t.flight with
  | some f =>
    exec f.instr { s.setStrand core slot { t with st := .ready } with issue := f.issue core slot }
  | none => event s s

/-! ### A word placed for the next step (log 6) -/

/-- A module whose firmware runs, with its stacks and boundaries up and their ready bits set. -/
def Manage.broughtUp (m : Manage) : Manage :=
  let hbm := (List.range 8).foldl (fun x k =>
    SMap.put x {} k { SMap.get x {} k with state := 1 }) m.hbm
  let edges := (List.range 4).foldl (fun x k =>
    SMap.put x {} k { SMap.get x {} k with state := 1 }) m.boundaries
  { m with running := true, ready := m.ready ||| 0x1BFFC3, hbm := hbm, boundaries := edges,
           broot := 0x0008000000000000, bvec := 0x10000 }

/-- Bytes at offset 65,536 of the module's HBM, where core 0 of a module brought up takes its start
entry (R414), with its page in the core's translation cache. -/
def State.loadWord (s : State) (bs : List Byte) : State :=
  let s := { s with man := s.man.broughtUp }.startCore 0
  let l : Leaf := ⟨s.ownPa 0x10000, 3, false, true, true, true, true⟩
  let c := s.core 0
  (s.setCore 0 ({ c with icache := [] }.tlbFill 0 1 l s.now)).putBytes 0x10000 bs

end Sys2Proof.Machine
end

