-- ==== Sys2Proof/Machine/Schedule.lean ====
section
/-! DEFINITION. What can happen next (R9, R10, R132, R134, R224): which strand of a core issues, the
events that must happen now, those that may happen, and the step of the clock. Where several may, a
free choice takes one (log 3). -/

namespace Sys2Proof.Machine

/-- What a step may be: the meaning of an instruction or event. -/
abbrev Move := State → Out

/-- It changes more than the counter of free choices, and reaches no stack in training: an access to one
waits at its port (R404). -/
def State.does (s : State) (m : Move) : Bool :=
  match m s with
  | .next t => decide ({ t with fresh := s.fresh } ≠ s) && !s.touchedTraining t
  | _ => true

/-- Some stack of the module is in training. -/
def State.training (s : State) : Bool := (List.range 8).any fun k => (s.stack k).state == 0

/-! ### Issuing (R131, R132, R134, R346, R354) -/

/-- A move leaves the strand of a slot held as it was. -/
def State.stillHeld (u : State) (core slot : Nat) (f : Flight) : Bool :=
  let t := u.strand core slot
  t.st == .waiting && t.flight.any fun x => decide (x.on = f.on ∧ x.since = f.since)

/-- What a strand that could not issue waits for holds: its sector has come, or its instruction would
issue now (R117, R391). -/
def State.waitOver (s : State) (core slot : Nat) : Bool :=
  let t := s.strand core slot
  match t.fetchWait with
  | some _ => (s.fetchReply core slot).isSome
  | none =>
    match t.flight with
    | none => false
    | some f =>
      f.on.unissued && match s.issueSlot core slot with
        | .next u => !u.stillHeld core slot f
        | _ => true

/-- A walk that the strand has joined, or asked for, is not over. -/
def State.walking (s : State) (core slot : Nat) : Bool :=
  let k := s.cluster (clusterOf core)
  (k.walks ++ k.walkQ).any fun w => w.waiters.contains (core, slot, (s.strand core slot).inst)

/-- What a held instruction waits for holds: it goes on, unless a debugger or a context save stops its
strand. -/
def State.canProceed (s : State) (core slot : Nat) : Bool :=
  let t := s.strand core slot
  let c := s.core core
  t.st == .waiting && !c.dbg.getLsbD (32 + slot) && !c.saving slot && match t.flight with
    | none => false
    | some f =>
      if f.on = .answers ∨ f.on.unissued then false
      else match f.on with
        | .walk _ => !s.walking core slot
        | _ => match s.proceedSlot core slot with
          | .next u => !u.stillHeld core slot f
          | _ => true

/-- The held instructions of a core that can go on. -/
def State.proceeds (s : State) (core : Nat) : List Move :=
  ((s.core core).strands.filter fun x => s.canProceed core x.1).map fun x s => s.proceedSlot core x.1

/-- The slot can issue in this cycle (R132). -/
def State.canIssue (s : State) (core slot : Nat) (t : Strand) : Bool :=
  s.rested t && !s.heldBack core slot && (t.st == .ready || (t.st == .waiting && s.waitOver core slot))

/-- One strand's last issue is older than another's; none counts as oldest. -/
def older (a b : Option Nat) : Bool :=
  match a, b with
  | none, some _ => true
  | some x, some y => decide (x < y)
  | _, none => false

/-- What a slot would issue reaches no stack in training: such an issue waits, and the core's other strands go
on (R180, R404). -/
def State.reaches (s : State) (core slot : Nat) : Bool :=
  !s.training || s.does fun s => s.issueSlot core slot

/-- The strand a core issues next: the oldest, and of these the lowest slot. -/
def State.issueOf (s : State) (core : Nat) : Option Nat :=
  let c := s.core core
  if !c.started || c.issued == some s.now then none
  else
    let can := c.strands.filter fun x => s.canIssue core x.1 x.2 && s.reaches core x.1
    (can.foldl (fun (b : Option (Nat × Option Nat)) x => match b with
      | none => some (x.1, x.2.last)
      | some y => if older x.2.last y.2 then some (x.1, x.2.last) else b) none).map (·.1)

/-- Every core that issues in this cycle, with its slot. -/
def State.issues (s : State) : List (Nat × Nat) :=
  s.cores.filterMap fun x => (s.issueOf x.1).map fun k => (x.1, k)

/-! ### Events that must happen now -/

/-- The slot whose issue in this cycle takes a trap from user level: it goes before an interrupt of its
core (R347). -/
def State.trapFirst (s : State) (core : Nat) : Option Nat :=
  (s.issueOf core).filter fun k => match s.issueSlot core k with
    | .next u => (u.strand core k).priv && !(s.strand core k).priv
    | _ => false

/-- An interrupt that is due, after a trap of the same cycle. -/
def State.interruptNow (s : State) (core : Nat) : List Move :=
  if (s.interruptDue core).isNone then []
  else match s.trapFirst core with
    | some k => [fun s => s.issueSlot core k]
    | none => [execInterruptTaken core]

/-- A strand is to stop: an interrupt, a debugger or a context save takes its slot (R347, R350, R354). -/
def State.mustStop (s : State) (core slot : Nat) : Bool :=
  let c := s.core core
  c.dbg.getLsbD (32 + slot) || c.saving slot ||
    (c.started && !c.cctl.getLsbD 0 && s.pending core != 0 && s.interruptSlot core == some (slot, false))

/-- The forced events of a core: its timer bit, an interrupt, an LRW asked back for a strand that is to stop,
a halt that is due, a steal round, a task parked for allowance. -/
def State.forcedAt (s : State) (core : Nat) : List Move :=
  let c := s.core core
  let slots := c.strands.map (·.1)
  let halts := slots.filter fun k => c.dbg.getLsbD (32 + k) && s.canStop core k &&
    ((s.strand core k).st == .ready || (s.strand core k).st == .waiting)
  let parks := slots.filter fun k => (s.lateAllowance core k).isSome
  let recalls := slots.filter fun k => (s.farLrw core k).isSome && s.mustStop core k
  (if c.ipend.getLsbD 1 != s.timerDue c then [execTimerExpiry core] else []) ++
    s.interruptNow core ++
    recalls.map (fun k s => event s (s.recallLrw core k)) ++ halts.map (execDebugHalt .mgmt core ·) ++
    (if s.mayStealNow core then [execStealRound core] else []) ++ parks.map (execAllowancePark core ·)

/-- Timeouts that have come (R255, R276, R386). -/
def State.timeouts (s : State) : List Move :=
  (s.reqs.filter s.poolOver).map (fun r => execPoolWaitTimeout r.id) ++
    ((s.resv.map (·.line)).eraseDups.filter fun l => (s.expired l).isSome).map execReservationExpiry ++
    (s.reqs.filter fun r => s.lateSince r.sent).map (fun r => execRemoteRequestTimeout r.id) ++
    s.cores.flatMap fun x => (x.2.wb.filter fun e => s.lateSince e.sent).map fun e =>
      execRemoteRequestTimeout e.id

/-- The Gleaner works while any reclaimable version remains, and a commit's exchanges are made as soon as
they are due (R253, R254; log 58). -/
def State.versionWork (s : State) : List Move :=
  ((s.ver.pool.filterMap fun x => x.2.bind fun e =>
    if e.tentative && e.stamp != 0 then some (homePort e.line) else none).eraseDups.map
      execCommitExchange) ++
    s.gleanNext.toList.map execGleanerVisit

/-- The first event that must happen now. -/
def State.forced (s : State) : Option Move :=
  ((s.cores.flatMap fun x => s.forcedAt x.1) ++ s.timeouts ++ s.versionWork).find? s.does

/-! ### Events that may happen -/

/-- The event of a Loom command. -/
def loomEventOf (core : Nat) : Instr → Move
  | .wld .. => execLoomCmdWld core
  | .wswap .. => execLoomCmdWswap core
  | .vclr .. => execLoomCmdVclr core
  | .weft .. => execLoomCmdWeft core
  | .vadd .. => execLoomCmdVadd core
  | .lgrp .. => execLoomCmdLgrp core
  | .lloop .. => execLoomCmdLloop core
  | .vrd .. => execLoomCmdVrd core
  | _ => execLoomMarker core

/-- A pause of a Loom after a number of rows that is a free choice. -/
def pauseLoom (core : Nat) (s : State) : Out :=
  execLoomPause core (Config.pick s.fresh) { s with fresh := s.fresh + 1 }

/-- The events of a core: held instructions, a store error, its Reeve, its Loom, its Scrivener queue. -/
def State.eventsAt (s : State) (core : Nat) : List Move :=
  let c := s.core core
  let pause := (c.loom.seq == .running) && c.wantsLoomPause
  s.proceeds core ++ (if s.errors.any fun e => e.core == core then [execStoreErrorReport core] else []) ++
    (if (s.bindable core).isSome || (c.landed.isSome && s.binds core) then [execBindTask core] else []) ++
    (if c.dqFill ≠ 0 ∧ c.deque.length ≤ 16 then [execDequeRefill core] else []) ++
    (if c.arFill ≠ 0 then [execArrivalRefill core] else []) ++
    (if c.resend.isEmpty then [] else [execArrivalResend core]) ++
    (match s.loomHead core with
      | some (_, _, x) => if s.loomReady core then [loomEventOf core x.instr] else []
      | none => []) ++
    (if pause then [pauseLoom core] else []) ++
    (if s.wantsScrPause core && !s.scrMidway core then [execScrivenerPause core] else [])

/-- The event of the head of a Scrivener queue. -/
def State.scrEventOf (s : State) (cl q : Nat) : List Move :=
  match s.scrHead cl q with
    | some (_, c) =>
      if c.kind = 3 then [execTilePrefetch cl]
      else if c.kind = 0 then [execScrivenerCpy cl q]
      else if c.kind = 1 then [execScrivenerCpy2 cl q]
      else [execScrivenerCpyg cl q]
    | none => []

/-- The events of a cluster: its walker, and the first queue in rotation that can go on (R316). -/
def State.eventsOf (s : State) (cl : Nat) : List Move :=
  let k := s.cluster cl
  let turns := (List.range 25).map fun i => (k.scrTurn + 1 + i) % 25
  k.walks.map (fun w => execTableWalkComplete cl w.ctx (BitVec.ofNat 40 w.granule)) ++
    ((turns.flatMap fun q => s.scrEventOf cl q).find? s.does).toList

/-- The event of a request at its place; one to another module waits for its reply. -/
def requestEvent (r : Req) : List Move :=
  match r.place with
  | .spad _ => [execScratchpadRequest r.id]
  | .remote _ => []
  | _ =>
    if r.op.isRead then [execMemoryPortRead r.id]
    else if r.op.isWrite then [execMemoryPortWrite r.id]
    else [execMemoryPortAtomic r.id]

/-- The event of a posted store. -/
def storeEventOf (e : WbEntry) : List Move :=
  match e.place with
  | .spad _ => [execScratchpadRequest e.id]
  | .remote _ => []
  | _ => [execMemoryPortWrite e.id]

/-- Requests, replies, stores, merge groups, versions. -/
def State.memoryEvents (s : State) : List Move :=
  (s.replies.filter fun r => decide (r.slot < 1000)).map (fun r => execLoadReply r.id) ++
    s.reqs.flatMap requestEvent ++
    s.cores.flatMap (fun x => (x.2.wb.filter (s.applicable x.1)).flatMap storeEventOf) ++
    s.groups.map (fun g => execRedMergeGroupApply g.id) ++
    s.ver.notices.map execDoomNotice

/-- The events of Dispatch. -/
def State.dispatchEvents (s : State) : List Move :=
  s.disp.queues.flatMap (fun x =>
    [execUnknownOpcode x.1, execFencePacket x.1, execIndirect x.1, execSemwait x.1, execSemsig x.1, execIntr x.1,
      execFutwait x.1, execFeed x.1, execHeapAdmit x.1]) ++
    (if s.disp.heap.isEmpty then [] else [execHeapTake]) ++
    s.disp.launches.flatMap (fun j =>
      [execLaunch j.seq, execLaunchPlacement j.seq, execLaunchComplete j.seq]) ++
    s.disp.copies.map fun j => execCopy j.seq

/-- Power-on, and the functions that set their ready bits. -/
def State.bringUpEvents (s : State) : List Move :=
  (if s.man.running || s.man.mgmtOnly then [] else [execPowerOn]) ++
    ((List.range 21).filter fun b => !s.man.ready.getLsbD b && s.mayReady b).map execFunctionReady

/-- The clusters that the state lists, or a listed core lies in. -/
def State.clusterNumbers (s : State) : List Nat :=
  (s.clusters.map (·.1) ++ s.cores.map fun x => clusterOf x.1).eraseDups

/-- Every event that may happen and does something. -/
def State.events (s : State) : List Move :=
  ((s.cores.flatMap fun x => s.eventsAt x.1) ++ s.clusterNumbers.flatMap s.eventsOf ++
    s.memoryEvents ++ s.dispatchEvents ++ s.bringUpEvents).filter s.does

/-! ### The choice -/

/-- The next cycle. -/
def State.tick (s : State) : State := { s with now := s.now + 1 }

/-- The next cycle begins. -/
def nextCycle (s : State) : Out := .next s.tick

/-- An event that reaches a module whose firmware does not run: its power-on, a load of its firmware, a reset,
or the envelope (R411, R413, R415). -/
def reachesBare : Instr → Bool
  | .powerOn | .firmwareLoad _ | .moduleReset | .thermalThrottleBegin | .thermalThrottleEnd | .thermalShutdown => true
  | _ => false

/-- The first input is taken: an event; a word of an instruction is no input, and until the firmware runs others
are lost (R411, R413; log 13). -/
def takeInput (s : State) : Out :=
  match s.inbox with
  | [] => .next s
  | i :: r =>
    let t := { s with inbox := r }
    if (encode i).isSome || (!s.man.running && !reachesBare i) then .next t else exec i t

/-- The first read from outside is taken; until the firmware runs it is lost, but for one by a management port
that is up (R411, R413). -/
def takeRead (s : State) : Out :=
  match s.hostReads with
  | [] => .next s
  | x :: r => if s.man.running || (s.man.mgmtOnly && x.who == .mgmt) then takeHostRead s
    else .next { s with hostReads := r }

/-- The moves among which a free choice is made; the next cycle begins once no strand issues. -/
def State.moves (s : State) : List Move :=
  let is := s.issues.map fun (x : Nat × Nat) (s : State) => s.issueSlot x.1 x.2
  is ++ s.events ++ (if s.inbox.isEmpty then [] else [takeInput].filter fun m => !s.training || s.does m) ++
    (if s.hostReads.isEmpty then [] else [takeRead]) ++
    (if is.isEmpty then [nextCycle] else [])

/-- The move that comes next, by a number that a free choice gives. -/
def State.moveOf (s : State) (n : Nat) : Move :=
  match s.forced with
  | some m => m
  | none =>
    let l := s.moves
    l.getD (if l.length ≤ 1 then 0 else n % l.length) nextCycle

/-- A step that reaches a stack in training is not taken yet: its access waits at its port (R404). -/
def State.unlessTraining (s : State) (o : Out) : Out :=
  match o with
  | .next t => if s.touchedTraining t then .next s.tick else .next t
  | r => r

/-- A module that has stopped: only a reset from outside goes on (R415). -/
def State.stoppedStep (s : State) : Out :=
  match s.inbox with
  | .moduleReset :: r => exec .moduleReset { s with inbox := r }
  | _ => .fault .moduleStopped

/-- The state in which a step is made: one more choice has been counted. -/
def State.stir (s : State) : State := { s with fresh := s.fresh + 1 }

/-- What the census shows besides its history (R402). -/
structure CensusBody where
  ready : BitVec 21
  boundaries : SMap Boundary
  links : SMap Link
  hbm : SMap Stack
  /-- the three words of drain states; none while no setting is in force -/
  drains : List Nat
  corrected : SMap Nat
  deriving DecidableEq, Repr

def State.censusBody (s : State) : CensusBody :=
  let m := s.man
  let drains := if m.drainModule = 0 ∧ m.drainDie.isEmpty ∧ m.drainCluster.isEmpty then []
    else (List.range 3).map s.drainWord
  ⟨m.ready, m.boundaries, m.links, m.hbm, drains, m.corrected⟩

/-- An update of the census: gen is even again, and the time is kept (R402, R403). -/
def State.censusUpdate (s : State) : State :=
  { s with man := { s.man with gen := s.man.gen + 2, updated := s.time } }

/-- The state t that a step from s leaves, its census updated where a section has changed and no fault has
been recorded, which updates it itself. -/
def State.noted (s t : State) : State :=
  if t.man.gen = s.man.gen ∧ t.censusBody ≠ s.censusBody then t.censusUpdate else t

/-- What a step answers, its census up to date. -/
def State.withCensus (s : State) (o : Out) : Out :=
  match o with
  | .next t => .next (s.noted t)
  | r => r

/-- A step of a module that has not stopped. -/
def State.goOn (s : State) : Out :=
  s.withCensus (s.stir.unlessTraining (s.stir.moveOf (Config.pick s.fresh) s.stir))

end Sys2Proof.Machine
end

