-- ==== Sys2Proof/Machine/Step.lean ====
section
/-! DEFINITION. One step of a module, and a word placed where the next step fetches. -/

namespace Sys2Proof.Machine

/-- One step: the instruction or event chosen (R10, R132), or the next cycle. -/
def step (s : State) : Out :=
  if s.man.stopped then s.stoppedStep
  else s.goOn

/-- The state with an instruction's bits where the next step fetches (log 6). -/
def State.withFetchWord (s : State) (nbits w : Nat) : State :=
  s.loadWord (natBytes 8 (w % 2 ^ nbits))

end Sys2Proof.Machine
end

