-- ==== Sys2Proof/Safety.lean ====
section
/-! DEFINITION. What counts as a safe run, and the conditions in which the statements about single
instructions are made. -/

namespace Sys2Proof.Machine

/-- What every step keeps: memory stands in its canonical form. -/
def State.Inv (s : State) : Prop := Memory.wf s.mem = true

/-- A safe outcome of a step: a state with the invariant, or the stop of a thermal shutdown. -/
def SafeOut (o : Out) : Prop :=
  match o with
  | .next t => t.Inv
  | .fault .moduleStopped => True
  | .refused _ => False

/-- The port of the issuing strand serves what an instruction names (R170): outside port mode always. -/
def State.portServes (s : State) (i : Instr) : Prop :=
  s.me.pmode = false ∨
    (portMisuse s.ownsPort (named i).1 (named i).2 = none ∧
      ((named i).1.contains 30 = true → s.myCore.portQ ≠ []) ∧
      ((named i).2.contains 31 = true → (s.core (downstream s.issue.core)).portQ.length < 8))

/-- The issuing strand may carry out `i` under guard `g`: the module runs, the features it needs have
been accepted, its level allows it, its guard passes, and its port serves it (R21, R33, R170, R410). -/
structure State.Issues (s : State) (i : Instr) (g : Guard) : Prop where
  running : s.man.stopped = false
  feature : featureOk s i = true
  stochastic : s.issue.mw.any (fun m => m.rm == 5) = true → s.feature 5 = true
  level : i.supervisor = true → s.me.priv = true
  guard : s.passes g = true
  port : s.portServes i

/-- The state in which an instruction that may be carried out acts: it is recorded as the one issued,
and whether it takes the head of the port. -/
def State.opened (s : State) (i : Instr) : State :=
  { s with issue := { s.issue with instr := i, pops := s.me.pmode && (named i).1.contains 30 } }

/-- The issuing strand's instruction has completed, and the next one follows. -/
def State.completes (s : State) : State := s.retire s.nextPc

/-- The state after a result `v` with poison `p` has been written to g[d] and `i` has completed. -/
def State.gives (s : State) (i : Instr) (d : Reg) (v : Word) (p : Bool) : State :=
  ((s.opened i).setG d v p).completes

/-- The state after a predicate has been written and `i` has completed. -/
def State.sets (s : State) (i : Instr) (pd : Pred) (b : Bool) : State :=
  ((s.opened i).setP pd b).completes

/-- The issuing strand takes a trap in `i` (R339, R342). -/
def State.traps (s : State) (i : Instr) (cause : BitVec 5) (code : Code) (v : Word) : State :=
  (s.opened i).trap s.issue.core s.issue.slot cause code v s.me.pc s.issue.len

/-- What an instruction of a strand leaves alone, whatever its outcome, but for the general registers
`rs` and the predicates `ps` of its own strand, for sr.rctr in mode 5, and in port mode for words in port
queues: memory, every other core, every other slot, the special registers, the write buffers, the queues of
tasks, and what is asked of other places. -/
structure Keeps (s t : State) (rs : List Reg) (ps : List Pred) : Prop where
  memory : ∀ k, t.byte k = s.byte k
  poison : t.hbmPoison = s.hbmPoison ∧ t.spadPoison = s.spadPoison ∧ t.empty = s.empty
  units : t.clusters = s.clusters ∧ t.ports = s.ports ∧ t.ver = s.ver ∧ t.disp = s.disp ∧
    t.loomQ = s.loomQ ∧ t.scrQ = s.scrQ ∧ t.routes = s.routes
  registers : ∀ r, r ∉ rs → t.me.reg r = s.me.reg r
  predicates : ∀ n, n ∉ ps → t.me.p n = s.me.p n
  state : t.me.shape = s.me.shape ∧ t.me.snap = s.me.snap ∧ t.me.tx = s.me.tx ∧
    t.me.task = s.me.task ∧ t.me.pmode = s.me.pmode ∧ t.me.kscr = s.me.kscr
  draws : t.me.seed = s.me.seed ∧ (s.mw.rm ≠ 5 → t.me.rctr = s.me.rctr)
  requests : t.reqs = s.reqs ∧ t.replies = s.replies ∧ t.groups = s.groups ∧ t.resv = s.resv ∧
    t.slotWaits = s.slotWaits
  buffers : ∀ n, (t.core n).wb = (s.core n).wb ∧ (t.core n).deque = (s.core n).deque ∧
    (t.core n).arrivals = (s.core n).arrivals ∧ (t.core n).owner = (s.core n).owner
  queues : s.me.pmode = false → ∀ n, (t.core n).portQ = (s.core n).portQ
  slots : ∀ k, k ≠ s.issue.slot → t.strand s.issue.core k = s.strand s.issue.core k
  cores : ∀ n, n ≠ s.issue.core → (t.core n).strands = (s.core n).strands ∧
    (t.core n).tiles = (s.core n).tiles
  core : ∀ n, (t.core n).tvec = (s.core n).tvec ∧ (t.core n).xroot = (s.core n).xroot ∧
    (t.core n).cctl = (s.core n).cctl ∧ (t.core n).ipend = (s.core n).ipend ∧
    (t.core n).tcmp = (s.core n).tcmp ∧ (t.core n).slotsize = (s.core n).slotsize ∧
    (t.core n).loomblk = (s.core n).loomblk ∧ (t.core n).scrblk = (s.core n).scrblk ∧
    (t.core n).dqring = (s.core n).dqring ∧ (t.core n).arring = (s.core n).arring
  tiles : (t.core s.issue.core).tiles = (s.core s.issue.core).tiles ∧
    (t.core s.issue.core).layouts = (s.core s.issue.core).layouts ∧
    (t.core s.issue.core).tags = (s.core s.issue.core).tags ∧
    (t.core s.issue.core).loom = (s.core s.issue.core).loom

/-- The state s with the user register that SWR of number `n` writes as t has it (R23). -/
def State.withUserReg (s t : State) (n : Nat) : State :=
  match n with
  | 0x00 => s.setMe { s.me with pred := t.me.pred }
  | 0x04 => s.setMe { s.me with seed := t.me.seed }
  | 0x05 => s.setMe { s.me with rctr := t.me.rctr }
  | 0x06 => s.setMe { s.me with shape := t.me.shape }
  | 0x07 => s.setMyCore { s.myCore with slotsize := t.myCore.slotsize, tags := t.myCore.tags }
  | _ => s

/-- The exception registers and the level of the issuing strand stand as they were. -/
def KeepsTrapState (s t : State) : Prop :=
  t.me.epc = s.me.epc ∧ t.me.cause = s.me.cause ∧ t.me.tval = s.me.tval ∧ t.me.estat = s.me.estat ∧
    t.me.priv = s.me.priv

/-! ### Forms of one shape -/

/-- A form with two sources completes with `f` of them in g[d], poisoned when either is (R87, R88). -/
def Computes3 (mk : Guard → Reg → Reg → Reg → Instr) (f : MW → Word → Word → Word) : Prop :=
  ∀ (s : State) (g : Guard) (d a b : Reg), s.Issues (mk g d a b) g →
    exec (mk g d a b) s =
      .next (s.gives (mk g d a b) d (f s.mw (s.gv a) (s.gv b)) (s.gp a || s.gp b))

/-- A form with one source completes with `f` of it in g[d], poisoned when it is (R87, R88). -/
def Computes2 (mk : Guard → Reg → Reg → Instr) (f : MW → Word → Word) : Prop :=
  ∀ (s : State) (g : Guard) (d a : Reg), s.Issues (mk g d a) g →
    exec (mk g d a) s = .next (s.gives (mk g d a) d (f s.mw (s.gv a)) (s.gp a))

/-- A form with one source completes with a value in g[d] of which `f` holds. -/
def Finds2 (mk : Guard → Reg → Reg → Instr) (f : Word → Word → Prop) : Prop :=
  ∀ (s : State) (g : Guard) (d a : Reg), s.Issues (mk g d a) g →
    ∃ v, exec (mk g d a) s = .next (s.gives (mk g d a) d v (s.gp a)) ∧ f (s.gv a) v

/-- A compact form completes as the 32-bit form `full` with g[d] as its first source (R47). -/
def Short3 (mk : BitVec 3 → BitVec 4 → BitVec 4 → Instr) (full : Guard → Reg → Reg → Reg → Instr)
    (f : MW → Word → Word → Word) : Prop :=
  ∀ (s : State) (n : BitVec 3) (d a : BitVec 4),
    let i := full (compactGuard n) (compactReg d) (compactReg d) (compactReg a)
    s.Issues i (compactGuard n) → exec (mk n d a) s =
      .next (s.gives i (compactReg d) (f s.mw (s.gv (compactReg d)) (s.gv (compactReg a)))
        (s.gp (compactReg d) || s.gp (compactReg a)))

/-- Every store of the issuing strand has been accepted, and no error of one is left to raise: an
instruction that drains goes on (R194, R352). -/
def State.settled (s : State) : Prop := s.drained = true ∧ s.me.err = none

/-- The same of the stores that a release at `scope` waits for (R231). -/
def State.released (s : State) (scope : Nat) : Prop := s.releasedAt scope = true ∧ s.me.err = none

/-- A store of the issuing strand to its own scratchpad need not wait: a release has nothing to wait for
(R231), nor has an ordered-flag store (R232). -/
def State.mayStore (s : State) (rel : Bool) : Prop :=
  (rel = true → s.released s.mw.scope.toNat) ∧
    (s.oflag = true → s.postedOn (.spad s.issue.core) = false)

/-- Sources of the issuing strand are not poisoned. -/
def State.clean (s : State) (rs : List Reg) : Prop := ∀ r ∈ rs, s.gp r = false

/-- An exact value limited to the type of a modifier word's sat code (R91), or cut to 64 bits. -/
def limited (m : MW) (exact : Int) : Word :=
  if m.sat = 0 then BitVec.ofInt 64 exact
  else BitVec.ofInt 64 (min (max exact (satLo m.sat.toNat)) (satHi m.sat.toNat))

/-- An operand read with the signedness that a modifier word's sat code names (R91). -/
def operandInt (m : MW) (x : Word) : Int :=
  if m.sat.toNat ≤ 4 then x.toInt else (x.toNat : Int)

/-! ### Accesses -/

/-- No error stands in the check bits of words of the issuing strand's own scratchpad (R202). -/
abbrev State.soundWords (s : State) (ws : List Nat) : Prop :=
  ∀ w ∈ ws, SMap.get s.latent 0 (spadKey s.issue.core (8 * w) / 8) = 0

/-- The strand reaches `n` bytes at `ea` in its own scratchpad, at offset `o`, at once: the address is
a multiple of `n` (R107), it may touch the reserved area or does not (R36), no word there waits to be
corrected (R202), and its tags and its turn allow it (R166, R167). -/
structure State.OwnWords (s : State) (ea : Word) (o n : Nat) : Prop where
  region : regionOf s.issue.core ea = .spad s.issue.core o
  aligned : ea.toNat % n = 0
  within : crosses ea n = false
  allowed : s.me.priv = true ∨ touchesReserved s.issue.core ea n = false
  sound : s.soundWords (wordsOf o n)
  afresh : s.me.flight = none

/-- The tags of the words an own-scratchpad access touches let it go on now (R166, R167). -/
def State.tagsReady (s : State) (o n : Nat) (full : Bool) : Prop :=
  s.tagsAllow s.issue.core (wordsOf o n) full s.nextId = true

/-- The strand reaches `n` bytes at `ea` beyond its core: the address checks have passed, and none of
its stores to the same sectors is still in the write buffer (R107, R228). -/
structure State.FarWords (s : State) (ea : Word) (n : Nat) (need : Need) (x : Spot) : Prop where
  checked : s.checkAccess ea n n need = .ok
  spot : s.spot ea = some x
  away : ∀ o, x ≠ .spad s.issue.core o
  clear : s.ownSector (s.target x).1 (s.target x).2.1 n = false
  afresh : s.me.flight = none

/-- The issuing strand has sent one request and waits for its answer (R134). -/
def State.asks (s t : State) (op : ReqOp) (x : Spot) (ea : Word) (n : Nat) : Prop :=
  t.me.st = .waiting ∧ (t.me.flight.map (·.out)) = some 1 ∧
    ∃ r ∈ t.reqs, r.core = s.issue.core ∧ r.slot = s.issue.slot ∧ r.inst = s.me.inst ∧ r.op = op ∧
      r.place = (s.target x).1 ∧ r.addr = (s.target x).2.1 ∧ r.ea = ea ∧ r.size = n

/-! ### Futures and barriers -/

/-- A handle names a live future whose entry is held at its table port (R141, R149, R152). -/
structure State.Live (s : State) (h : Word) (e : FutEntry) : Prop where
  own : hModule h = s.modNo.toNat
  cluster : hClusterField h < 24
  gen : hGen h ≠ 0 ∧ e.gen.toNat = hGen h
  kind : hKind h ≤ 4 ∧ e.kind.toNat = hKind h
  base : s.futBase (hCluster h) ≠ 0
  kept : SMap.get (s.cluster (hCluster h)).lostSlots false (hSlot h) = false
  held : (s.cluster (hCluster h)).fut.find? (fun x => x.1 == hSlot h) = some (hSlot h, e)
  live : e.state ≠ 0

/-- A barrier's record lies at offset `o` of the own HBM, and the checks of R197 pass. -/
structure State.BarrierAt (s : State) (va : Word) (o : Nat) : Prop where
  aligned : va.toNat % 32 = 0
  global : regionClass va = 0
  checked : s.checkPages va 32 .write = .ok
  spot : ∃ l pa, s.spot va = some (.glob l pa) ∧ s.ownHbm pa = true ∧ paOffset pa = o

/-! ### Engines -/

/-- The Loom of the issuing strand's core has its block set, room for `n` records more, and the strand's
stores have been accepted (R292, R293, R300). -/
structure State.LoomTakes (s : State) (key : Nat) (b : Block) (n : Nat) : Prop where
  block : s.myLoom = some (key, b)
  room : recordsOf (s.loomQueue key).cmds + n ≤ 2 ^ b.m
  settled : s.settled

/-- The checks of an engine's address pass (R300). -/
def State.engineAddress (s : State) (ea : Word) (align : Nat) : Prop :=
  regionClass ea ≠ 3 ∧ ea.toNat % align = 0 ∧
    (s.me.priv = true ∨ touchesReserved s.issue.core ea 1 = false)

/-- What a running engine asks of a scratchpad word that it is to read: no error waits to be corrected in the
words of `n` bytes there (R202), and its tag and its turn allow it, or the command has emptied it itself
(R166, R167, R320). -/
def State.takes (s : State) (own : List (Nat × Nat)) (k o n : Nat) : Prop :=
  (∀ w ∈ o / 8 :: wordsOf o n, SMap.get s.latent 0 (spadKey k (8 * w) / 8) = 0) ∧
    (own.contains (k, o / 8) = true ∨ s.tagsAllow k [o / 8] true s.nextId = true)

/-- No answer for an engine's command waits for it. -/
def State.quiet (s : State) (x : CopyCtx) : Prop := ∀ r ∈ s.replies, x.mine r.core r.slot r.inst = false

/-- The words of a row lie in scratchpads; one that is to be read can be read now and is not poisoned
(R295). -/
def State.RowHere (s : State) (c : LoomCmd) (need : Need) (ea : Word) (n : Nat) : Prop :=
  ∀ wa ∈ alignedWords ea.toNat n, ∃ k o, s.loomSpot c need ea n wa = (.spad k o, s) ∧
    (need = .read → s.takes [] k o (wordHi ea.toNat n wa + 1 - wordLo ea.toNat wa) ∧
      s.spadPois k (o / 8) = false)

/-- The bytes of such a row. -/
def State.rowBytes (s : State) (c : LoomCmd) (ea : Word) (n : Nat) : List Byte :=
  (alignedWords ea.toNat n).flatMap fun wa => match (s.loomSpot c .read ea n wa).1 with
    | .spad k o => s.bytes (spadKey k o) (wordHi ea.toNat n wa + 1 - wordLo ea.toNat wa)
    | _ => []

/-- The products of a row of bytes and row `w` of the warp added to `rows` rows of a vat (R291). -/
def State.addProducts (s : State) (core : Nat) (f : LoomFmt) (v base rows w : Nat) (bs : List Byte) :
    State :=
  let m := s.loom core
  s.putVat core v ((m.vat v).add (modeOf f) base rows (products (bytesVals f bs) (m.warp.vals w)))

/-- The Loom's head command has completed. -/
def State.loomEnds (s : State) (core key : Nat) : State := (s.dropAnswers (loomCtx core)).loomPop key

/-- The words of a copy lie in scratchpads and can be moved now (R322). -/
structure State.CopyHere (s : State) (x : CopyCtx) (own : List (Nat × Nat)) (ws : List CopyWord) :
    Prop where
  quiet : s.quiet x
  reads : ∀ va ∈ copySources ws, ∃ k o, s.copySpot x .read va = (.spad k o, s) ∧ s.takes own k o 8
  writes : ∀ w ∈ ws, ∃ k o, s.copySpot x .write w.dst = (.spad k o, s)

/-- A word of `n` bytes as a copy reads it: its address, value and poison. -/
def State.copyGot (s : State) (x : CopyCtx) (n va : Nat) : Nat × Nat × Bool :=
  match (s.copySpot x .read va).1 with
  | .spad k o => (va, leNat (s.bytes (spadKey k o) n), ((wordsOf o n).map (s.spadPois k)).any id)
  | _ => (va, 0, true)

/-- The state after the words of a copy have been moved (R319, R322). -/
def State.copied (s : State) (x : CopyCtx) (ws : List CopyWord) : State :=
  let vals := (copySources ws).map (s.copyGot x 8)
  (ws.map fun w => (⟨w.dst, (w.value vals).1, (w.value vals).2, (s.copySpot x .write w.dst).1⟩ :
    CopyStore)).foldl State.copyStore s

/-- A copy has completed: its future is resolved with the number of its bytes (R323). -/
def State.copyEnds (s : State) (x : CopyCtx) (key : Nat) (fut : Word) (n : Nat) : State :=
  ((((s.dropAnswers x).scrPop key).endFuture fut 2 (BitVec.ofNat 64 n)).dropRef fut).scrServed x.cl x.q

/-! ### Memory ports -/

/-- An access to `n` bytes at HBM offset `o` finds them as they stand: no reduction is pending on the line, no
error waits to be corrected, and no queue of an engine has its block there (R202, R211, R269, R293). -/
structure State.SoundAt (s : State) (o n : Nat) : Prop where
  line : 0 < n ∧ (o + n - 1) / 128 = o / 128
  groups : ∀ g ∈ s.groups, g.addr / 128 ≠ o / 128
  sound : ∀ g ∈ gransOf o n, SMap.get s.latent 0 (4 * g) = 0
  looms : ∀ x ∈ s.loomQ, touchesBlock o n x.1 = false
  copies : ∀ x ∈ s.scrQ, touchesBlock o n x.1 = false

/-- The same of bytes without poison. -/
structure State.CleanAt (s : State) (o n : Nat) : Prop extends s.SoundAt o n where
  clean : ∀ g ∈ gransOf o n, s.granPois g = false

/-- The device's own writes to `n` bytes at HBM offset `o` meet nothing there: no pending reduction, no error to
be corrected, no block of an engine's queue (R202, R269, R293). -/
structure State.QuietAt (s : State) (o n : Nat) : Prop where
  groups : ∀ g ∈ s.groups, g.addr / 128 < o / 128 ∨ (o + n - 1) / 128 < g.addr / 128
  sound : ∀ g ∈ gransOf o n, SMap.get s.latent 0 (4 * g) = 0
  looms : ∀ x ∈ s.loomQ, touchesBlock o n x.1 = false
  copies : ∀ x ∈ s.scrQ, touchesBlock o n x.1 = false

/-- HBM offset `o` holds the park record of the issuing strand of `s`, which waits for the future `h` (R137,
R139, R185): the resume address `pc`, the task's handle, the registers, the wait, the destination `d` and
`q`, the handle waited on, and the link 0. -/
structure State.HoldsPark (t s : State) (o : Nat) (pc : Word) (d : Reg) (q : Option Pred) (h : Word) : Prop where
  header : t.bytes o 32 = (s.descOfStrand s.me pc).bytes.take 32
  resume : bits (t.word o) 55 0 = pc.toNat % 2 ^ 56
  task : t.word (o + 16) = s.me.task
  registers : ∀ r : Reg, t.word (o + 32 + 8 * r.toNat) = (s.me.reg r).v
  poison : ∀ r : Reg, (t.word (o + 288)).getLsbD r.toNat = (s.me.reg r).p
  preds : leNat (t.bytes (o + 292) 2) = s.me.pred.toNat
  kind : t.byte (o + 294) = 1
  dest : (t.byte (o + 295)).toNat = d.toNat + (if s.issue.len = 4 then 0 else if s.issue.len = 2 then 1 else 2) * 32 +
    (if q.isSome then 128 else 0)
  pred : (t.byte (o + 296)).toNat = (q.getD 0).toNat
  object : t.word (o + 344) = h
  link : t.word (o + 352) = 0

/-! ### Tiles -/

/-- The checks of R118 pass for a tile instruction with these sources and destinations: `sr.shape` names
shape `h`, its format takes the modifiers, the chain registers allow it, and the sources agree. -/
structure State.TileReady (s : State) (h : Shape) (srcs dests : List TReg) : Prop where
  shape : shapeOf s.me.shape = some h
  modifiers : s.usualMods h.fmt = true
  afresh : s.me.flight = none
  chains : s.chainAllows s.issue.core (chainNeeds srcs dests) s.nextId = true
  agree : ∀ t ∈ srcs, (s.tile t).agrees h = true

/-- The state after instruction `i` has read tiles `srcs`, written tile `td` whole and completed. -/
def State.fills (s : State) (i : Instr) (srcs : List TReg) (td : TReg) (h : Shape) (raws : List Nat)
    (ps : List Bool) (scales : List Byte) : State :=
  (((s.opened i).emptySources srcs).writeTile td h raws ps scales).completes

/-- The same of values to be scaled and rounded, with the draws they take (R49, R114). -/
def State.fillsRounded (s : State) (i : Instr) (srcs : List TReg) (td : TReg) (h : Shape)
    (vs : List Val) (ps : List Bool) : State :=
  let r := s.formTile h.fmt s.mw.rm.toNat s.mw.clamp (vs.map (Val.scale s.mw.scale.toInt))
  ((((s.opened i).drew s.mw.rm.toNat vs.length).emptySources srcs).writeTile td h r.1 ps r.2).completes

/-- The same of integers, limited by sat and cut to the element (R125). -/
def State.fillsInts (s : State) (i : Instr) (srcs : List TReg) (td : TReg) (h : Shape)
    (vs : List Int) (ps : List Bool) : State :=
  s.fills i srcs td h (vs.map fun v => (saturate s.mw.sat.toNat v % 2 ^ h.width).toNat) ps []

/-- The bytes of run `r` lie in the issuing strand's own scratchpad and may be read or written now. -/
structure State.OwnRun (s : State) (u : Nat) (need : Need) (r : Run) : Prop where
  index : r.bad = false
  checked : s.checkAccess r.ea r.n u need = .ok
  own : ∀ p ∈ r.pieces, ∀ q ∈ p :: p.units u, ∃ o, s.ownOff q.ea = some o ∧
    s.soundWords (wordsOf o q.n) ∧
    (need = .read → s.tagsReady o q.n true)

end Sys2Proof.Machine

/-! ### What an instruction writes -/

namespace Sys2Proof

/-- The general registers and predicates that a register-only scalar instruction may write. -/
def Instr.targets : Instr → Option (List Reg × List Pred)
  | .add _ d _ _ | .sub _ d _ _ | .mul _ d _ _ | .mulhi _ d _ _ | .mulhn _ d _ _ | .div _ d _ _
  | .divn _ d _ _ | .rem _ d _ _ | .remn _ d _ _ | .min _ d _ _ | .max _ d _ _ | .minn _ d _ _
  | .maxn _ d _ _ | .and _ d _ _ | .or _ d _ _ | .xor _ d _ _ | .andn _ d _ _
  | .shlRegister _ d _ _ | .shrRegister _ d _ _ | .shaRegister _ d _ _ | .rotRegister _ d _ _ => some ([d], [])
  | .mov _ d _ | .clz _ d _ | .ctz _ d _ | .popc _ d _ | .brev _ d _ | .bswap _ d _
  | .mix64 _ d _ => some ([d], [])
  | .addi _ d _ _ | .andi _ d _ _ | .ori _ d _ _ | .xori _ d _ _ | .shlImmediate _ d _ _
  | .shrImmediate _ d _ _ | .shaImmediate _ d _ _ | .rotImmediate _ d _ _ => some ([d], [])
  | .cmp _ _ pd _ _ | .cmpi _ _ pd _ _ => some ([], [pd])
  | .pand _ pd _ _ | .por _ pd _ _ | .pxor _ pd _ _ => some ([], [pd])
  | .pnot _ pd _ | .pmov _ pd _ | .pset _ pd _ => some ([], [pd])
  | .sel _ d _ _ _ | .lea _ d _ _ _ => some ([d], [])
  | .movwZ d _ _ | .movwK d _ _ | .movwS d _ _ | .addpc d _ => some ([d], [])
  | .br _ _ | .jmp _ _ _ | .nop _ => some ([], [])
  | .brl _ _ => some ([29], [])
  | .jmpl _ d _ _ => some ([d], [])
  | .fext _ d _ _ _ | .fins _ d _ _ _ | .fpack _ d _ _ => some ([d], [])
  | .fadd _ _ d _ _ | .fsub _ _ d _ _ | .fmul _ _ d _ _ | .fdiv _ _ d _ _ | .fmin _ _ d _ _
  | .fmax _ _ d _ _ => some ([d], [])
  | .fsqrt _ _ d _ | .frnd _ _ d _ | .fclass _ _ d _ | .fcvt _ _ _ d _ => some ([d], [])
  | .fmaF64 _ d _ _ _ | .fmaF32 _ d _ _ _ => some ([d], [])
  | .fcmp _ _ _ pd _ _ => some ([], [pd])
  | .self _ d | .pstat _ d | .srd _ d _ => some ([d], [])
  | .movC16 _ d _ | .addC16 _ d _ | .subC16 _ d _ | .andC16 _ d _ | .orC16 _ d _ | .xorC16 _ d _
  | .shlC16 _ d _ | .shrC16 _ d _ | .addiC16 _ d _ => some ([d.setWidth 5], [])
  | .brC16 _ _ | .jmpC16 _ _ | .nopC16 _ => some ([], [])
  | _ => none

/-- The guard of an instruction (R21, R47); none for a form without a guard field, and for an event. -/
def Instr.guardOf : Instr → Option Guard
  | .add g .. | .sub g .. | .mul g .. | .mulhi g .. | .mulhn g .. | .div g .. | .divn g ..
  | .rem g .. | .remn g .. | .min g .. | .max g .. | .minn g .. | .maxn g .. | .and g .. | .or g ..
  | .xor g .. | .andn g .. | .shlRegister g .. | .shrRegister g .. | .shaRegister g ..
  | .rotRegister g .. | .mov g .. | .clz g .. | .ctz g .. | .popc g .. | .brev g .. | .bswap g ..
  | .mix64 g .. | .addi g .. | .andi g .. | .ori g .. | .xori g .. | .shlImmediate g ..
  | .shrImmediate g .. | .shaImmediate g .. | .rotImmediate g .. | .cmp g .. | .cmpi g ..
  | .pand g .. | .por g .. | .pxor g .. | .pnot g .. | .pmov g .. | .pset g .. | .sel g ..
  | .lea g .. | .br g .. | .brl g .. | .jmp g .. | .jmpl g .. | .fext g .. | .fins g ..
  | .fpack g .. | .funpack g .. | .layout g .. | .fadd g .. | .fsub g .. | .fmul g .. | .fdiv g ..
  | .fmin g .. | .fmax g .. | .fsqrt g .. | .fcvt g .. | .frnd g .. | .fclass g .. | .fmaF64 g ..
  | .fmaF32 g .. | .fcmp g .. | .srd g .. | .swr g .. | .srdp g .. | .swrp g .. | .ld g ..
  | .st g .. | .ldp g .. | .stp g .. | .ldIndexed g .. | .stIndexed g .. | .ldaN32 g ..
  | .ldaN64 g .. | .strN32 g .. | .strN64 g .. | .casN32 g .. | .casN64 g .. | .xclr g ..
  | .xrdF32 g .. | .xrdF64 g .. | .lrw g .. | .sch g .. | .fence g .. | .lookup g .. | .tagset g ..
  | .tagclr g .. | .pref g .. | .snap g .. | .snapx g .. | .txb g | .txc g .. | .txa g | .txs g ..
  | .alw g .. | .amo g .. | .red g .. | .spawn g .. | .spawnq g .. | .touch g .. | .touchq g ..
  | .resolve g .. | .poison g .. | .cancel g .. | .fstat g .. | .fhold g .. | .fdrop g .. | .go g ..
  | .yield g | .exit g .. | .self g .. | .pmode g .. | .pbind g .. | .pstat g .. | .ldw g ..
  | .stw g .. | .bjoin g .. | .barv g .. | .bwait g .. | .bleave g .. | .bexpect g .. | .fpop g ..
  | .fpopq g .. | .cpy g .. | .cpy2 g .. | .cpyg g .. | .tdset g .. | .cqstat g .. | .wld g ..
  | .weft g .. | .vrd g .. | .lgrp g .. | .wswap g | .vclr g .. | .vadd g .. | .lloop g ..
  | .lfut g .. | .lres g .. | .lstat g .. | .tadd g .. | .tsub g .. | .tmul g .. | .tfma g ..
  | .tdiv g .. | .tmin g .. | .tmax g .. | .tsel g .. | .tand g .. | .tor g .. | .txor g ..
  | .tshl g .. | .tshr g .. | .tcvt g .. | .ttopk g .. | .tcmpEq g .. | .tcmpNe g .. | .tcmpLt g ..
  | .tcmpLe g .. | .tmov g .. | .txpose g .. | .texp2 g .. | .tlog2 g .. | .trcp g .. | .trsq g ..
  | .tsqrt g .. | .ttanh g .. | .tredAdd g .. | .tredMin g .. | .tredMax g .. | .tscanAdd g ..
  | .tiota g .. | .trand g .. | .tld g .. | .tst g .. | .tsplat g .. | .tmovgRead g ..
  | .tmovgWrite g .. | .tldi g .. | .tsti g .. | .shape g .. | .nop g | .trap g .. | .eret g
  | .wfi g | .tlbi g .. | .ctxsv g .. | .ctxld g .. | .dbgb g .. => some g
  | .movC16 n .. | .addC16 n .. | .subC16 n .. | .andC16 n .. | .orC16 n .. | .xorC16 n ..
  | .shlC16 n .. | .shrC16 n .. | .addiC16 n .. | .ldN64C16 n .. | .stN64C16 n .. | .brC16 n ..
  | .touchC16 n .. | .jmpC16 n .. | .nopC16 n => some ⟨n.setWidth 4, false⟩
  | _ => none

/-- The tile registers that a tile instruction without memory may write or empty (R117, R119). -/
def Instr.tilesNamed : Instr → Option (List TReg)
  | .tadd _ td ta tb | .tsub _ td ta tb | .tmul _ td ta tb | .tfma _ td ta tb | .tdiv _ td ta tb
  | .tmin _ td ta tb | .tmax _ td ta tb | .tsel _ td ta tb | .tand _ td ta tb | .tor _ td ta tb
  | .txor _ td ta tb | .tshl _ td ta tb | .tshr _ td ta tb | .tcmpEq _ td ta tb
  | .tcmpNe _ td ta tb | .tcmpLt _ td ta tb | .tcmpLe _ td ta tb => some [td, ta, tb]
  | .tmov _ td ta | .txpose _ td ta | .texp2 _ td ta | .tlog2 _ td ta | .trcp _ td ta
  | .trsq _ td ta | .tsqrt _ td ta | .ttanh _ td ta | .tredAdd _ td ta | .tredMin _ td ta
  | .tredMax _ td ta | .tscanAdd _ td ta => some [td, ta]
  | .tcvt _ _ td ta => some [td, ta]
  | .tiota _ td | .trand _ td | .tsplat _ td _ => some [td]
  | _ => none

end Sys2Proof
end

