-- ==== Sys2Proof/Certificates/Slice0/Obligations.lean ====
section
/-! DEFINITION. The statements for the provers, in the order of the specification: what each instruction
and event does where it may, where it traps, what it leaves alone, and the machine as a whole. -/

open Sys2Proof Sys2Proof.Machine

/-! ### Scalar integer instructions (spec/04) -/

/-- R89, R91, R47: ADD, SUB, MUL and ADDI, cut to 64 bits or saturated, with their compact forms. R89,
R90: high products, quotients and remainders with the fixed results of division by 0, and the least
and the greatest of two values. -/
def Obligations.IntegerArithmeticCompletes : Prop :=
  (Computes3 .add (fun m x y => if m.sat = 0 then x + y else limited m (operandInt m x + operandInt m y)) ∧
  Computes3 .sub (fun m x y => if m.sat = 0 then x - y else limited m (operandInt m x - operandInt m y)) ∧
  Computes3 .mul (fun m x y => if m.sat = 0 then x * y else limited m (operandInt m x * operandInt m y)) ∧
  (∀ imm : BitVec 10, Computes2 (fun g d a => .addi g d a imm) (fun m x =>
    if m.sat = 0 then x + imm.signExtend 64 else limited m (operandInt m x + imm.toInt))) ∧
  Short3 .addC16 .add (fun m x y => if m.sat = 0 then x + y else limited m (operandInt m x + operandInt m y)) ∧
  Short3 .subC16 .sub (fun m x y => if m.sat = 0 then x - y else limited m (operandInt m x - operandInt m y)) ∧
  (∀ (s : State) (n : BitVec 3) (d imm : BitVec 4),
    let i := Instr.addi (compactGuard n) (compactReg d) (compactReg d) (imm.signExtend 10)
    s.Issues i (compactGuard n) → s.mw.sat = 0 → exec (.addiC16 n d imm) s =
      .next (s.gives i (compactReg d) (s.gv (compactReg d) + imm.signExtend 64) (s.gp (compactReg d))))) ∧
  (Computes3 .mulhi (fun _ x y => (x.signExtend 128 * y.signExtend 128).extractLsb' 64 64) ∧
  Computes3 .mulhn (fun _ x y => (x.setWidth 128 * y.setWidth 128).extractLsb' 64 64) ∧
  Computes3 .div (fun _ x y => if y = 0 then BitVec.allOnes 64 else x.sdiv y) ∧
  Computes3 .divn (fun _ x y => if y = 0 then BitVec.allOnes 64 else x / y) ∧
  Computes3 .rem (fun _ x y => if y = 0 then x else x.srem y) ∧
  Computes3 .remn (fun _ x y => if y = 0 then x else x % y) ∧
  Computes3 .min (fun _ x y => if x.toInt ≤ y.toInt then x else y) ∧
  Computes3 .max (fun _ x y => if x.toInt ≤ y.toInt then y else x) ∧
  Computes3 .minn (fun _ x y => if x.toNat ≤ y.toNat then x else y) ∧
  Computes3 .maxn (fun _ x y => if x.toNat ≤ y.toNat then y else x))

/-- R92, R47: logic, and shifts by an amount taken modulo 64, with their compact forms. R92, R78: bit
counts, bit and byte reversal, and the mixing function. -/
def Obligations.LogicShiftsAndCountsComplete : Prop :=
  (Computes3 .and (fun _ x y => x &&& y) ∧ Computes3 .or (fun _ x y => x ||| y) ∧
  Computes3 .xor (fun _ x y => x ^^^ y) ∧ Computes3 .andn (fun _ x y => x &&& ~~~y) ∧
  Computes3 .shlRegister (fun m x y => if m.sat = 0 then x <<< (y.toNat % 64)
    else limited m (operandInt m x * 2 ^ (y.toNat % 64))) ∧
  Computes3 .shrRegister (fun _ x y => x >>> (y.toNat % 64)) ∧
  Computes3 .shaRegister (fun _ x y => BitVec.ofInt 64 (x.toInt / 2 ^ (y.toNat % 64))) ∧
  Computes3 .rotRegister (fun _ x y => x.rotateLeft (y.toNat % 64)) ∧
  (∀ imm : BitVec 10,
    Computes2 (fun g d a => .andi g d a imm) (fun _ x => x &&& imm.signExtend 64) ∧
    Computes2 (fun g d a => .ori g d a imm) (fun _ x => x ||| imm.signExtend 64) ∧
    Computes2 (fun g d a => .xori g d a imm) (fun _ x => x ^^^ imm.signExtend 64)) ∧
  (∀ sh : BitVec 6,
    Computes2 (fun g d a => .shlImmediate g d a sh) (fun m x => if m.sat = 0 then x <<< sh.toNat
      else limited m (operandInt m x * 2 ^ sh.toNat)) ∧
    Computes2 (fun g d a => .shrImmediate g d a sh) (fun _ x => x >>> sh.toNat) ∧
    Computes2 (fun g d a => .shaImmediate g d a sh)
      (fun _ x => BitVec.ofInt 64 (x.toInt / 2 ^ sh.toNat)) ∧
    Computes2 (fun g d a => .rotImmediate g d a sh) (fun _ x => x.rotateLeft sh.toNat)) ∧
  Short3 .andC16 .and (fun _ x y => x &&& y) ∧ Short3 .orC16 .or (fun _ x y => x ||| y) ∧
  Short3 .xorC16 .xor (fun _ x y => x ^^^ y) ∧
  Short3 .shlC16 .shlRegister (fun m x y => if m.sat = 0 then x <<< (y.toNat % 64)
    else limited m (operandInt m x * 2 ^ (y.toNat % 64))) ∧
  Short3 .shrC16 .shrRegister (fun _ x y => x >>> (y.toNat % 64))) ∧
  (Finds2 .clz (fun x v => v.toNat ≤ 64 ∧ (∀ j, j < v.toNat → x.getLsbD (63 - j) = false) ∧
    (v.toNat < 64 → x.getLsbD (63 - v.toNat) = true)) ∧
  Finds2 .ctz (fun x v => v.toNat ≤ 64 ∧ (∀ j, j < v.toNat → x.getLsbD j = false) ∧
    (v.toNat < 64 → x.getLsbD v.toNat = true)) ∧
  Computes2 .popc (fun _ x => BitVec.ofNat 64 ((List.range 64).countP x.getLsbD)) ∧
  Finds2 .brev (fun x v => ∀ j, j < 64 → v.getLsbD j = x.getLsbD (63 - j)) ∧
  Finds2 .bswap (fun x v => ∀ j, j < 8 → v.extractLsb' (8 * j) 8 = x.extractLsb' (8 * (7 - j)) 8) ∧
  Computes2 .mix64 (fun _ x =>
    let y := (x ^^^ x >>> 31) * 0x9E6C63D0676A9A99
    let z := (y ^^^ y >>> 29) * 0xD3A2646CAB596F35
    z ^^^ z >>> 32))

/-- A compare of clean sources writes its predicate (R94), and each predicate operation its own (R95).
R93, R52, R47: moves, addresses, selection. Choices of the model it rests on: log 21. -/
def Obligations.ComparesPredicatesAndMovesComplete : Prop :=
  ((∀ (s : State) (g : Guard) (cc : Cond) (pd : Pred) (a b : Reg), s.Issues (.cmp g cc pd a b) g →
    s.clean [a, b] → ∃ r : Bool,
      exec (.cmp g cc pd a b) s = .next (s.sets (.cmp g cc pd a b) pd r) ∧
      (r = true ↔ match cc with
        | .eq => s.gv a = s.gv b
        | .ne => s.gv a ≠ s.gv b
        | .lt => (s.gv a).toInt < (s.gv b).toInt
        | .ge => (s.gv b).toInt ≤ (s.gv a).toInt
        | .le => (s.gv a).toInt ≤ (s.gv b).toInt
        | .gt => (s.gv b).toInt < (s.gv a).toInt
        | .ltn => (s.gv a).toNat < (s.gv b).toNat
        | .gen => (s.gv b).toNat ≤ (s.gv a).toNat
        | .len => (s.gv a).toNat ≤ (s.gv b).toNat
        | .gtn => (s.gv b).toNat < (s.gv a).toNat
        | .tst => s.gv a &&& s.gv b ≠ 0
        | .tsz => s.gv a &&& s.gv b = 0)) ∧
  (∀ (s : State) (g : Guard) (cc : Cond) (pd : Pred) (a : Reg) (imm : BitVec 7),
    s.Issues (.cmpi g cc pd a imm) g → s.clean [a] → ∃ r : Bool,
      exec (.cmpi g cc pd a imm) s = .next (s.sets (.cmpi g cc pd a imm) pd r) ∧
      (r = true ↔ match cc with
        | .eq => s.gv a = imm.signExtend 64
        | .ne => s.gv a ≠ imm.signExtend 64
        | .lt => (s.gv a).toInt < imm.toInt
        | .ge => imm.toInt ≤ (s.gv a).toInt
        | .le => (s.gv a).toInt ≤ imm.toInt
        | .gt => imm.toInt < (s.gv a).toInt
        | .ltn => (s.gv a).toNat < (imm.signExtend 64 : Word).toNat
        | .gen => (imm.signExtend 64 : Word).toNat ≤ (s.gv a).toNat
        | .len => (s.gv a).toNat ≤ (imm.signExtend 64 : Word).toNat
        | .gtn => (imm.signExtend 64 : Word).toNat < (s.gv a).toNat
        | .tst => s.gv a &&& imm.signExtend 64 ≠ 0
        | .tsz => s.gv a &&& imm.signExtend 64 = 0)) ∧
  (∀ (s : State) (g : Guard) (pd pa pb : Pred) (k : Bool),
    (s.Issues (.pand g pd pa pb) g →
      exec (.pand g pd pa pb) s = .next (s.sets (.pand g pd pa pb) pd (s.p pa && s.p pb))) ∧
    (s.Issues (.por g pd pa pb) g →
      exec (.por g pd pa pb) s = .next (s.sets (.por g pd pa pb) pd (s.p pa || s.p pb))) ∧
    (s.Issues (.pxor g pd pa pb) g →
      exec (.pxor g pd pa pb) s = .next (s.sets (.pxor g pd pa pb) pd (s.p pa != s.p pb))) ∧
    (s.Issues (.pnot g pd pa) g →
      exec (.pnot g pd pa) s = .next (s.sets (.pnot g pd pa) pd (!s.p pa))) ∧
    (s.Issues (.pmov g pd pa) g →
      exec (.pmov g pd pa) s = .next (s.sets (.pmov g pd pa) pd (s.p pa))) ∧
    (s.Issues (.pset g pd k) g → exec (.pset g pd k) s = .next (s.sets (.pset g pd k) pd k)))) ∧
  (Computes2 .mov (fun _ x => x) ∧
  (∀ (s : State) (n : BitVec 3) (d a : BitVec 4),
    let i := Instr.mov (compactGuard n) (compactReg d) (compactReg a)
    s.Issues i (compactGuard n) → exec (.movC16 n d a) s =
      .next (s.gives i (compactReg d) (s.gv (compactReg a)) (s.gp (compactReg a)))) ∧
  (∀ sh : BitVec 3, Computes3 (fun g d a b => .lea g d a b sh)
    (fun _ x y => x + y * BitVec.ofNat 64 (2 ^ sh.toNat))) ∧
  (∀ (s : State) (g : Guard) (d : Reg) (pn : Pred) (a b : Reg), s.Issues (.sel g d pn a b) g →
    exec (.sel g d pn a b) s = .next (s.gives (.sel g d pn a b) d
      (if s.p pn then s.gv a else s.gv b) (if s.p pn then s.gp a else s.gp b))) ∧
  (∀ (s : State) (d : Reg) (hw : BitVec 2) (imm : BitVec 16), s.Issues (.movwZ d hw imm) always →
    exec (.movwZ d hw imm) s = .next (s.gives (.movwZ d hw imm) d
      (BitVec.ofNat 64 (imm.toNat * 2 ^ (16 * hw.toNat))) false)) ∧
  (∀ (s : State) (d : Reg) (hw : BitVec 2) (imm : BitVec 16), s.Issues (.movwS d hw imm) always →
    exec (.movwS d hw imm) s = .next (s.gives (.movwS d hw imm) d
      (BitVec.ofInt 64 (imm.toInt * 2 ^ (16 * hw.toNat))) false)) ∧
  (∀ (s : State) (d : Reg) (hw : BitVec 2) (imm : BitVec 16), s.Issues (.movwK d hw imm) always →
    ∃ v, exec (.movwK d hw imm) s = .next (s.gives (.movwK d hw imm) d v (s.gp d)) ∧
      ∀ j, j < 4 → v.extractLsb' (16 * j) 16 =
        if j = hw.toNat then imm else (s.gv d).extractLsb' (16 * j) 16) ∧
  (∀ (s : State) (d : Reg) (imm : BitVec 20), s.Issues (.addpc d imm) always →
    exec (.addpc d imm) s = .next (s.gives (.addpc d imm) d (s.me.pc + imm.signExtend 64 * 2) false)))

/-- R96, R110, R47: transfers of control go to their target and leave everything else; the link is the
address after the instruction. R88, R96, R103: a transfer through a poisoned register is a
containment trap, and one to an odd address the jump alignment trap; a compare of a poisoned source,
integer or floating point, traps. Choices of the model it rests on: logs 21 and 56. -/
def Obligations.ControlTransfersCompleteOrTrap : Prop :=
  ((∀ (s : State) (g : Guard) (disp : BitVec 20), s.Issues (.br g disp) g →
    exec (.br g disp) s =
      .next ((s.opened (.br g disp)).retire (s.me.pc + disp.signExtend 64 * 2))) ∧
  (∀ (s : State) (g : Guard) (disp : BitVec 20), s.Issues (.brl g disp) g →
    exec (.brl g disp) s = .next (((s.opened (.brl g disp)).setG 29
      (s.me.pc + BitVec.ofNat 64 s.issue.len) false).retire (s.me.pc + disp.signExtend 64 * 2))) ∧
  (∀ (s : State) (g : Guard) (a : Reg) (imm : BitVec 10), s.Issues (.jmp g a imm) g →
    s.clean [a] → (s.gv a + imm.signExtend 64).getLsbD 0 = false →
    exec (.jmp g a imm) s = .next ((s.opened (.jmp g a imm)).retire (s.gv a + imm.signExtend 64))) ∧
  (∀ (s : State) (g : Guard) (d a : Reg) (imm : BitVec 10), s.Issues (.jmpl g d a imm) g →
    s.clean [a] → (s.gv a + imm.signExtend 64).getLsbD 0 = false →
    exec (.jmpl g d a imm) s = .next (((s.opened (.jmpl g d a imm)).setG d
      (s.me.pc + BitVec.ofNat 64 s.issue.len) false).retire (s.gv a + imm.signExtend 64))) ∧
  (∀ (s : State) (g : Guard), s.Issues (.nop g) g →
    exec (.nop g) s = .next (s.opened (.nop g)).completes) ∧
  (∀ (s : State) (n : BitVec 3) (disp : BitVec 8),
    let i := Instr.br (compactGuard n) (disp.signExtend 20)
    s.Issues i (compactGuard n) → exec (.brC16 n disp) s =
      .next ((s.opened i).retire (s.me.pc + disp.signExtend 64 * 2))) ∧
  (∀ (s : State) (n : BitVec 3) (a : BitVec 4),
    let i := Instr.jmp (compactGuard n) (compactReg a) 0
    s.Issues i (compactGuard n) → s.clean [compactReg a] → (s.gv (compactReg a)).getLsbD 0 = false →
    exec (.jmpC16 n a) s = .next ((s.opened i).retire (s.gv (compactReg a)))) ∧
  (∀ (s : State) (n : BitVec 3),
    s.Issues (.nop (compactGuard n)) (compactGuard n) →
    exec (.nopC16 n) s = .next (s.opened (.nop (compactGuard n))).completes)) ∧
  ((∀ (s : State) (g : Guard) (a : Reg) (imm : BitVec 10), s.Issues (.jmp g a imm) g →
    exec (.jmp g a imm) s =
      if s.gp a then .next (s.traps (.jmp g a imm) 4 0x2105 (a.setWidth 64))
      else if (s.gv a + imm.signExtend 64).getLsbD 0 then
        .next (s.traps (.jmp g a imm) 7 0x6108 (s.gv a + imm.signExtend 64))
      else .next ((s.opened (.jmp g a imm)).retire (s.gv a + imm.signExtend 64))) ∧
  (∀ (s : State) (g : Guard) (d a : Reg) (imm : BitVec 10), s.Issues (.jmpl g d a imm) g →
    (s.gp a = true → exec (.jmpl g d a imm) s =
      .next (s.traps (.jmpl g d a imm) 4 0x2105 (a.setWidth 64))) ∧
    (s.gp a = false → (s.gv a + imm.signExtend 64).getLsbD 0 = true → exec (.jmpl g d a imm) s =
      .next (s.traps (.jmpl g d a imm) 7 0x6108 (s.gv a + imm.signExtend 64)))) ∧
  (∀ (s : State) (g : Guard) (cc : Cond) (pd : Pred) (a : Reg) (imm : BitVec 7),
    s.Issues (.cmpi g cc pd a imm) g → s.gp a = true → exec (.cmpi g cc pd a imm) s =
      .next (s.traps (.cmpi g cc pd a imm) 4 0x2105 (a.setWidth 64))) ∧
  (∀ (s : State) (g : Guard) (cc : FCond) (ft : FloatTy) (pd : Pred) (a b : Reg),
    s.Issues (.fcmp g cc ft pd a b) g →
    (s.gp a = true → exec (.fcmp g cc ft pd a b) s =
      .next (s.traps (.fcmp g cc ft pd a b) 4 0x2105 (a.setWidth 64))) ∧
    (s.gp a = false → s.gp b = true → exec (.fcmp g cc ft pd a b) s =
      .next (s.traps (.fcmp g cc ft pd a b) 4 0x2105 (b.setWidth 64)))) ∧
  (∀ (s : State) (g : Guard) (cc : Cond) (pd : Pred) (a b : Reg), s.Issues (.cmp g cc pd a b) g →
    (s.gp a = true → exec (.cmp g cc pd a b) s =
      .next (s.traps (.cmp g cc pd a b) 4 0x2105 (a.setWidth 64))) ∧
    (s.gp a = false → s.gp b = true → exec (.cmp g cc pd a b) s =
      .next (s.traps (.cmp g cc pd a b) 4 0x2105 (b.setWidth 64)))))

/-! ### Fields, floats and state registers (spec/04, spec/01, spec/18) -/

/-- R97, R63: a present entry is extracted or inserted; FPACK and FUNPACK move the members of a layout
between one register and as many as it has. R98: LAYOUT takes a layout's entries from memory. R97:
an absent entry is an operand trap with the entry's number, and so is a layout whose members run
past g31. Choices of the model it rests on: log 56. -/
def Obligations.FieldInstructionsCompleteOrTrap : Prop :=
  ((∀ (s : State) (g : Guard) (d a : Reg) (lay : BitVec 4) (f : BitVec 3) (e : FieldSpec),
    s.field lay f.toNat = some e →
    (s.Issues (.fext g d a lay f) g →
      exec (.fext g d a lay f) s = .next (s.gives (.fext g d a lay f) d (e.get (s.gv a)) (s.gp a))) ∧
    (s.Issues (.fins g d a lay f) g →
      exec (.fins g d a lay f) s =
        .next (s.gives (.fins g d a lay f) d (e.put (s.gv d) (s.gv a)) (s.gp a || s.gp d)))) ∧
  (∀ (s : State) (g : Guard) (d a : Reg) (lay : BitVec 4), s.me.pmode = false →
    s.Issues (.fpack g d a lay) g → a.toNat + (s.members lay).length ≤ 32 →
    exec (.fpack g d a lay) s = .next (s.gives (.fpack g d a lay) d (packFrom s a 0 0 (s.members lay))
      ((Reg.group a (s.members lay).length).any s.gp))) ∧
  (∀ (s : State) (g : Guard) (d a : Reg) (lay : BitVec 4), s.me.pmode = false →
    s.Issues (.funpack g d a lay) g → d.toNat + (s.members lay).length ≤ 32 →
    exec (.funpack g d a lay) s = .next (unpackFrom d (s.gv a) (s.gp a) (s.opened (.funpack g d a lay)) 0
      (s.members lay)).completes) ∧
  (∀ (s : State) (g : Guard) (lay : BitVec 4) (a : Reg) (o : Nat), s.Issues (.layout g lay a) g →
    s.clean [a] → s.OwnWords (s.gv a) o 16 → s.tagsReady o 16 true →
    s.spadPois s.issue.core (o / 8) = false → s.spadPois s.issue.core (o / 8 + 1) = false →
    let bs := s.bytes (spadKey s.issue.core o) 16
    (∀ i < 8, entryOk (leNat ((bs.drop (2 * i)).take 2)) = true) →
    exec (.layout g lay a) s = .next ((s.opened (.layout g lay a)).setMyCore { s.myCore with
      layouts := SMap.put s.myCore.layouts 0 lay.toNat (BitVec.ofNat 128 (leNat bs)) }).completes) ∧
  (∀ (e : FieldSpec) (x v : Word), 0 < e.width → e.lo + e.width ≤ 64 →
    e.get (e.put x v) = if e.signed then BitVec.ofInt 64 (Int.bmod v.toNat (2 ^ e.width))
      else BitVec.ofNat 64 (v.toNat % 2 ^ e.width))) ∧
  ((∀ (s : State) (g : Guard) (d a : Reg) (lay : BitVec 4) (f : BitVec 3),
    s.field lay f.toNat = none →
    (s.Issues (.fext g d a lay f) g →
      exec (.fext g d a lay f) s = .next (s.traps (.fext g d a lay f) 2 0x6103 (f.setWidth 64))) ∧
    (s.Issues (.fins g d a lay f) g →
      exec (.fins g d a lay f) s = .next (s.traps (.fins g d a lay f) 2 0x6103 (f.setWidth 64)))) ∧
  (∀ (s : State) (g : Guard) (d a : Reg) (lay : BitVec 4), s.Issues (.fpack g d a lay) g →
    32 < a.toNat + (s.members lay).length → exec (.fpack g d a lay) s =
      .next (s.traps (.fpack g d a lay) 2 0x6103 (BitVec.ofNat 64 (s.members lay).length))) ∧
  (∀ (s : State) (g : Guard) (d a : Reg) (lay : BitVec 4), s.Issues (.funpack g d a lay) g →
    32 < d.toNat + (s.members lay).length → exec (.funpack g d a lay) s =
      .next (s.traps (.funpack g d a lay) 2 0x6103 (BitVec.ofNat 64 (s.members lay).length))))

/-- R100 to R104, R49, R76: an exact value is scaled, rounded once and written; minimum and maximum pass
operand bits on; compares write a predicate. Choices of the model it rests on: logs 31 and 56. -/
def Obligations.ScalarFloatsComplete : Prop :=
  (∀ (s : State) (g : Guard) (ft : FloatTy) (d a b : Reg),
    let f := Machine.fmtOf ft
    let m := s.mw
    let x := f.value (f.signSteps m.absA m.negA (s.gv a).toNat)
    let y := f.value (f.signSteps m.absB m.negB (s.gv b).toNat)
    let out := fun (i : Instr) (v : Val) (p : Bool) =>
      Host.Outcome.next (((s.opened i).drew m.rm.toNat 1).setG d
        (BitVec.ofNat 64 (f.round m.rm.toNat m.clamp (s.draw 0) (v.scale m.scale.toInt))) p).completes
    (s.Issues (.fadd g ft d a b) g →
      exec (.fadd g ft d a b) s = out (.fadd g ft d a b) (x.add m.rm.toNat y) (s.gp a || s.gp b)) ∧
    (s.Issues (.fsub g ft d a b) g →
      exec (.fsub g ft d a b) s = out (.fsub g ft d a b) (x.add m.rm.toNat y.neg) (s.gp a || s.gp b)) ∧
    (s.Issues (.fmul g ft d a b) g →
      exec (.fmul g ft d a b) s = out (.fmul g ft d a b) (x.mul y) (s.gp a || s.gp b)) ∧
    (s.Issues (.fdiv g ft d a b) g →
      exec (.fdiv g ft d a b) s = out (.fdiv g ft d a b) (x.div y) (s.gp a || s.gp b)) ∧
    (s.Issues (.fsqrt g ft d a) g → exec (.fsqrt g ft d a) s =
      out (.fsqrt g ft d a) (f.value (s.gv a).toNat).sqrt (s.gp a)) ∧
    (s.Issues (.fmin g ft d a b) g → exec (.fmin g ft d a b) s =
      .next (s.gives (.fmin g ft d a b) d (BitVec.ofNat 64 (pickFloat f true
        (f.signSteps m.absA m.negA (s.gv a).toNat) (f.signSteps m.absB m.negB (s.gv b).toNat)))
        (s.gp a || s.gp b))) ∧
    (s.Issues (.fmax g ft d a b) g → exec (.fmax g ft d a b) s =
      .next (s.gives (.fmax g ft d a b) d (BitVec.ofNat 64 (pickFloat f false
        (f.signSteps m.absA m.negA (s.gv a).toNat) (f.signSteps m.absB m.negB (s.gv b).toNat)))
        (s.gp a || s.gp b))) ∧
    (∀ (cc : FCond) (pd : Pred), s.Issues (.fcmp g cc ft pd a b) g → s.clean [a, b] →
      exec (.fcmp g cc ft pd a b) s =
        .next (s.sets (.fcmp g cc ft pd a b) pd (fcondHolds cc (x.order y))))) ∧
  (∀ (s : State) (g : Guard) (d a b c : Reg),
    let m := s.mw
    let out := fun (i : Instr) (f : Fmt) =>
      let x := f.value (f.signSteps m.absA m.negA (s.gv a).toNat)
      let y := f.value (f.signSteps m.absB m.negB (s.gv b).toNat)
      let v := (x.mul y).add m.rm.toNat (f.value (s.gv c).toNat)
      Host.Outcome.next (((s.opened i).drew m.rm.toNat 1).setG d
        (BitVec.ofNat 64 (f.round m.rm.toNat m.clamp (s.draw 0) (v.scale m.scale.toInt)))
        (s.gp a || s.gp b || s.gp c)).completes
    (s.Issues (.fmaF64 g d a b c) g → exec (.fmaF64 g d a b c) s = out (.fmaF64 g d a b c) .f64) ∧
    (s.Issues (.fmaF32 g d a b c) g → exec (.fmaF32 g d a b c) s = out (.fmaF32 g d a b c) .f32)) ∧
  (∀ (s : State) (g : Guard) (tgt src : Fmt) (d a : Reg),
    let m := s.mw
    (s.Issues (.fcvt g tgt src d a) g → exec (.fcvt g tgt src d a) s =
      .next (((s.opened (.fcvt g tgt src d a)).drew m.rm.toNat 1).setG d
        (BitVec.ofNat 64 (tgt.widen (convert ((src.value (s.gv a).toNat).scale m.scale.toInt)
          (!src.isFloat) tgt m.rm.toNat m.clamp m.sat.toNat (s.draw 0)))) (s.gp a)).completes) ∧
    (s.Issues (.frnd g src d a) g → exec (.frnd g src d a) s =
      .next (((s.opened (.frnd g src d a)).drew m.rm.toNat 1).setG d
        (BitVec.ofNat 64 (roundIntegral src m.rm.toNat (s.draw 0) (s.gv a).toNat)) (s.gp a)).completes) ∧
    (s.Issues (.fclass g src d a) g → exec (.fclass g src d a) s =
      .next (s.gives (.fclass g src d a) d (BitVec.ofNat 64 (src.classOf (s.gv a).toNat)) (s.gp a))))

/-- R23 to R32: SRD reads each user register, and a number that is not assigned is an illegal
instruction; SWR writes the five that may be written. The two clocks are those of the cycle in which
the instruction issued. Choices of the model it rests on: log 4. -/
def Obligations.UserRegistersComplete : Prop :=
  (∀ (s : State) (g : Guard) (d : Reg) (n : BitVec 8) (v : Word), s.Issues (.srd g d n) g →
    (n, v) ∈ [((0x00 : BitVec 8), (s.me.pred ||| 1).setWidth 64), (0x01, s.status),
      (0x02, BitVec.ofNat 64 (s.issuedAt - s.myCore.resetAt)), (0x03, BitVec.ofNat 64 (s.issuedAt / 4)),
      (0x04, s.me.seed),
      (0x05, s.me.rctr), (0x06, s.me.shape), (0x07, s.myCore.slotsize), (0x08, s.me.snap),
      (0x09, s.me.tx), (0x0A, s.me.task)] →
    exec (.srd g d n) s = .next (s.gives (.srd g d n) d v false)) ∧
  (∀ (s : State) (g : Guard) (d : Reg) (n : BitVec 8), s.Issues (.srd g d n) g → 0x0A < n.toNat →
    exec (.srd g d n) s = .next (s.traps (.srd g d n) 0 0x6101 s.issue.word)) ∧
  (∀ (s : State) (g : Guard) (a : Reg), s.clean [a] →
    (s.Issues (.swr g 0 a) g → (s.gv a).toNat < 2 ^ 16 → exec (.swr g 0 a) s =
      .next ((s.opened (.swr g 0 a)).setMe { s.me with pred := (s.gv a).setWidth 16 ||| 1 }).completes) ∧
    (s.Issues (.swr g 4 a) g → exec (.swr g 4 a) s =
      .next ((s.opened (.swr g 4 a)).setMe { s.me with seed := s.gv a }).completes) ∧
    (s.Issues (.swr g 5 a) g → exec (.swr g 5 a) s =
      .next ((s.opened (.swr g 5 a)).setMe { s.me with rctr := s.gv a }).completes) ∧
    (s.Issues (.swr g 6 a) g → shapeOk (s.gv a) = true → exec (.swr g 6 a) s =
      .next ((s.opened (.swr g 6 a)).setMe { s.me with shape := s.gv a }).completes) ∧
    (s.Issues (.swr g 7 a) g → (s.gv a).toNat ≤ 5 → exec (.swr g 7 a) s =
      .next ((s.opened (.swr g 7 a)).setMyCore { s.myCore with
        slotsize := s.gv a, tags := s.myCore.tags.filter fun x => !tagValid x.2 }).completes) ∧
    (s.Issues (.swr g 6 a) g → shapeOk (s.gv a) = false → exec (.swr g 6 a) s =
      .next (s.traps (.swr g 6 a) 2 0x6103 (s.gv a)))) ∧
  (∀ (s : State) (g : Guard) (fmt : BitVec 4) (c1 : BitVec 8) (r1 : BitVec 5),
    s.Issues (.shape g fmt c1 r1) g →
    let v : Word := BitVec.ofNat 64 (fmt.toNat * 2 ^ 20 + c1.toNat * 2 ^ 8 + r1.toNat)
    exec (.shape g fmt c1 r1) s = .next (if shapeOk v then
      ((s.opened (.shape g fmt c1 r1)).setMe { s.me with shape := v }).completes
      else s.traps (.shape g fmt c1 r1) 2 0x6103 v))

/-- R336, R338: SRDP reads each supervisor register. R336, R338: SWRP writes each supervisor register a
value it may hold, and a value it may not hold is an operand trap. -/
def Obligations.SupervisorRegistersReadAndWritten : Prop :=
  ((∀ (s : State) (g : Guard) (d : Reg) (n : BitVec 8) (v : Word), s.Issues (.srdp g d n) g →
    (n, v) ∈ [((0x00 : BitVec 8), s.me.epc), (0x01, s.me.cause), (0x02, s.me.tval), (0x03, s.me.estat),
      (0x04, s.me.kscr), (0x10, s.myCore.tvec), (0x11, s.myCore.xroot), (0x12, s.myCore.readCctl),
      (0x13, s.ipendOf s.myCore), (0x14, s.myCore.tcmp), (0x15, s.myCore.loomblk),
      (0x16, s.myCore.scrblk), (0x17, s.myCore.dqring), (0x18, s.myCore.arring), (0x19, s.myCore.slots),
      (0x20, (s.cluster s.myCluster).parkbase), (0x21, (s.cluster s.myCluster).futbase),
      (0x22, (s.cluster s.myCluster).reeveblk)] →
    exec (.srdp g d n) s = .next (s.gives (.srdp g d n) d v false)) ∧
  (∀ (s : State) (g : Guard) (d : Reg), s.Issues (.srdp g d 5) g →
    exec (.srdp g d 5) s = .next (s.traps (.srdp g d 5) 0 0x6101 s.issue.word))) ∧
  (∀ (s : State) (g : Guard) (a : Reg), s.clean [a] →
    let v := s.gv a
    let writes := fun (n : BitVec 8) (ok : Prop) (t : State → State) => s.Issues (.swrp g n a) g →
      (ok → exec (.swrp g n a) s = .next (t (s.opened (.swrp g n a))).completes) ∧
      (¬ ok → exec (.swrp g n a) s = .next (s.traps (.swrp g n a) 2 0x6103 v))
    writes 0x00 True (fun x => x.setMe { s.me with epc := v }) ∧
    writes 0x01 (bits v 63 32 = 0 ∧ bits v 15 5 = 0) (fun x => x.setMe { s.me with cause := v }) ∧
    writes 0x02 True (fun x => x.setMe { s.me with tval := v }) ∧
    writes 0x03 (bits v 63 8 = 0) (fun x => x.setMe { s.me with
      estat := (v &&& 0x93) ||| (s.me.estat &&& 0x6C) }) ∧
    writes 0x04 True (fun x => x.setMe { s.me with kscr := v }) ∧
    writes 0x10 (bits v 63 56 = 0 ∧ bits v 0 0 = 0) (fun x => x.setMyCore { s.myCore with tvec := v }) ∧
    writes 0x11 (bits v 50 36 = 0) (fun x => x.setMyCore { s.myCore with xroot := v }) ∧
    writes 0x13 (bits v 63 5 = 0) (fun x => x.setMyCore { s.myCore with
      ipend := s.myCore.ipend &&& ~~~(v &&& 0x1D) }) ∧
    writes 0x14 True (fun x => x.setMyCore { s.myCore with tcmp := v }) ∧
    writes 0x15 (bits v 63 56 = 0 ∧ bits v 8 0 = 0 ∧ s.loomBusy = false)
      (fun x => x.setMyCore { s.myCore with loomblk := v }) ∧
    writes 0x16 (bits v 63 56 = 0 ∧ bits v 8 0 = 0 ∧ s.scrBusy = false)
      (fun x => x.setMyCore { s.myCore with scrblk := v }) ∧
    writes 0x12 (bits v 63 16 = 0 ∧ bits v 7 6 = 0 ∧ bits v 3 2 ≠ 3)
      (fun x => x.writeCctl s.issue.core v) ∧
    writes 0x17 (bits v 63 56 = 0 ∧ bits v 7 5 = 0 ∧ (bits v 4 0 = 0 ∨ 8 ≤ bits v 4 0 ∧ bits v 4 0 ≤ 16) ∧
      s.myCore.dqFill = 0) (fun x => x.setMyCore { s.myCore with dqring := v }) ∧
    writes 0x18 (bits v 63 56 = 0 ∧ bits v 7 5 = 0 ∧ (bits v 4 0 = 0 ∨ 8 ≤ bits v 4 0 ∧ bits v 4 0 ≤ 16) ∧
      s.myCore.arFill = 0) (fun x => x.setMyCore { s.myCore with arring := v, arHead := 0 }) ∧
    writes 0x19 True (fun x => x) ∧
    writes 0x21 (bits v 63 56 = 0 ∧ bits v 11 0 = 0) (fun x =>
      let y := x.flushTable s.myCluster
      y.setCluster s.myCluster { y.cluster s.myCluster with futbase := v }) ∧
    writes 0x20 (bits v 63 56 = 0 ∧ bits v 11 0 = 0 ∧ (s.cluster s.myCluster).parked = [])
      (fun x => x.setCluster s.myCluster { s.cluster s.myCluster with parkbase := v }) ∧
    writes 0x22 (bits v 63 56 = 0 ∧ bits v 8 0 = 0)
      (fun x => x.setCluster s.myCluster { s.cluster s.myCluster with reeveblk := v }))

/-! ### Memory instructions (spec/04, spec/09, spec/10, spec/12) -/

/-- R106 to R109: a load from the own scratchpad completes at once with the bytes it finds, extended by
its type, poisoned when a word it touches is. R106 to R109, R202: a store to the own scratchpad
writes its bytes at once, with the poison of its data register. -/
def Obligations.OwnScratchpadLoadsAndStoresComplete : Prop :=
  (∀ (s : State) (g : Guard) (d a b : Reg) (ty : LdTy) (off : BitVec 7) (o : Nat),
    let key := spadKey s.issue.core o
    let word := fun (ty : LdTy) => ldExtend ty (s.bytes key (ldSize ty))
    let bad := s.spadPois s.issue.core (o / 8)
    (s.Issues (.ld g ty d a off) g → s.clean [a] →
      s.OwnWords (s.gv a + off.signExtend 64 * BitVec.ofNat 64 (ldSize ty)) o (ldSize ty) →
      s.tagsReady o (ldSize ty) true →
      exec (.ld g ty d a off) s = .next (s.gives (.ld g ty d a off) d (word ty) bad)) ∧
    (s.Issues (.ldIndexed g ty d a b) g → s.clean [a, b] → s.OwnWords (s.gv a + s.gv b) o (ldSize ty) →
      s.tagsReady o (ldSize ty) true →
      exec (.ldIndexed g ty d a b) s = .next (s.gives (.ldIndexed g ty d a b) d (word ty) bad)) ∧
    (s.Issues (.ldaN32 g d a) g → s.clean [a] → s.OwnWords (s.gv a) o 4 → s.tagsReady o 4 true →
      exec (.ldaN32 g d a) s = .next (s.gives (.ldaN32 g d a) d (word .n32) bad)) ∧
    (s.Issues (.ldaN64 g d a) g → s.clean [a] → s.OwnWords (s.gv a) o 8 → s.tagsReady o 8 true →
      exec (.ldaN64 g d a) s = .next (s.gives (.ldaN64 g d a) d (word .n64) bad)) ∧
    (∀ (n : BitVec 3) (d a : BitVec 4), s.Issues (.ldN64C16 n d a) (compactGuard n) →
      s.clean [compactReg a] → s.OwnWords (s.gv (compactReg a)) o 8 → s.tagsReady o 8 true →
      exec (.ldN64C16 n d a) s = .next (s.gives (.ldN64C16 n d a) (compactReg d) (word .n64) bad)) ∧
    (s.Issues (.ldp g d a off) g → s.clean [a] →
      s.OwnWords (s.gv a + off.signExtend 64 * 16) o 16 → s.tagsReady o 16 true →
      exec (.ldp g d a off) s = .next ((((s.opened (.ldp g d a off)).setG d (s.word key) bad).setG
        (Reg.plus d 1) (s.word (key + 8)) (s.spadPois s.issue.core (o / 8 + 1))).completes))) ∧
  (∀ (s : State) (g : Guard) (d a b : Reg) (ty : StTy) (off : BitVec 7) (o : Nat),
    let wrote := fun (i : Instr) (bs : List Byte) (ps : List Bool) =>
      Host.Outcome.next ((s.opened i).writeSpad s.issue.core o bs ps).completes
    let low := fun (r : Reg) (n : Nat) => leBytes n (s.gv r).toNat
    let free := s.mayStore s.isRelease
    (s.Issues (.st g ty d a off) g → s.clean [a] → free →
      s.OwnWords (s.gv a + off.signExtend 64 * BitVec.ofNat 64 (stSize ty)) o (stSize ty) →
      exec (.st g ty d a off) s = wrote (.st g ty d a off) (low d (stSize ty)) [s.gp d]) ∧
    (s.Issues (.stIndexed g ty d a b) g → s.clean [a, b] → free →
      s.OwnWords (s.gv a + s.gv b) o (stSize ty) →
      exec (.stIndexed g ty d a b) s = wrote (.stIndexed g ty d a b) (low d (stSize ty)) [s.gp d]) ∧
    (s.Issues (.strN32 g a b) g → s.clean [a] → s.mayStore true →
      s.OwnWords (s.gv a) o 4 →
      exec (.strN32 g a b) s = wrote (.strN32 g a b) (low b 4) [s.gp b]) ∧
    (s.Issues (.strN64 g a b) g → s.clean [a] → s.mayStore true →
      s.OwnWords (s.gv a) o 8 →
      exec (.strN64 g a b) s = wrote (.strN64 g a b) (low b 8) [s.gp b]) ∧
    (∀ (n : BitVec 3) (d a : BitVec 4), s.Issues (.stN64C16 n d a) (compactGuard n) →
      s.clean [compactReg d] → s.mayStore false → s.OwnWords (s.gv (compactReg d)) o 8 →
      exec (.stN64C16 n d a) s = wrote (.stN64C16 n d a) (low (compactReg a) 8) [s.gp (compactReg a)]) ∧
    (s.Issues (.stp g d a off) g → s.clean [a] → free →
      s.OwnWords (s.gv a + off.signExtend 64 * 16) o 16 →
      exec (.stp g d a off) s = wrote (.stp g d a off) (low d 8 ++ low (Reg.plus d 1) 8)
        [s.gp d, s.gp (Reg.plus d 1)]))

/-- R106: the bytes a scratchpad store writes read back, every other byte of memory reads as before,
and a word written whole takes the poison given. -/
def Obligations.ScratchpadStoreReadsBack : Prop :=
  ∀ (s : State) (core o : Nat) (bs : List Byte) (ps : List Bool),
    let t := s.writeSpad core o bs ps
    (∀ j, j < bs.length → t.byte (spadKey core o + j) = bs.getD j 0) ∧
    (∀ k, (k < spadKey core o ∨ spadKey core o + bs.length ≤ k) → t.byte k = s.byte k) ∧
    (∀ w, o ≤ 8 * w → 8 * w + 8 ≤ o + bs.length →
      t.spadPois core w = ps.getD (w - o / 8) false)

/-- R22, R109, R134: a load beyond the core asks its place and waits; the answer completes it, and so it
does XRD and LRW (R272, R274). R109, R227, R251, R268, R272: a store to global memory that is not a
plain write of a versioned page, a RED or an XCLR, is posted as the last entry of its core's write
buffer, and completes. -/
def Obligations.FarAccessesComplete : Prop :=
  (∀ (s : State) (g : Guard) (d a b : Reg) (ty : LdTy) (off : BitVec 7) (x : Spot),
    let n := ldSize ty
    let ea := s.gv a + off.signExtend 64 * BitVec.ofNat 64 n
    (s.Issues (.ld g ty d a off) g → s.clean [a] → s.FarWords ea n .read x →
      (∀ l pa, x = .glob l pa → s.checkPage l pa ea .load [] = .ok) →
      ∃ t, exec (.ld g ty d a off) s = .next t ∧ s.asks t .load x ea n ∧ t.mem = s.mem) ∧
    (∀ bs ps, s.answer 0 = some (.data bs ps) →
      (s.Issues (.ld g ty d a off) g → exec (.ld g ty d a off) s =
        .next (s.gives (.ld g ty d a off) d (ldExtend ty bs) (ps.any id))) ∧
      (s.Issues (.ldIndexed g ty d a b) g → exec (.ldIndexed g ty d a b) s =
        .next (s.gives (.ldIndexed g ty d a b) d (ldExtend ty bs) (ps.any id))) ∧
      (s.Issues (.xrdF32 g d a) g → exec (.xrdF32 g d a) s =
        .next (((s.opened (.xrdF32 g d a)).drew s.mw.rm.toNat 1).setG d
          (BitVec.ofNat 64 (Fmt.f32.round s.mw.rm.toNat s.mw.clamp (s.draw 0)
            ((cellVal bs s.mw.rm.toNat).scale s.mw.scale.toInt))) (ps.any id)).completes) ∧
      (s.Issues (.xrdF64 g d a) g → exec (.xrdF64 g d a) s =
        .next (((s.opened (.xrdF64 g d a)).drew s.mw.rm.toNat 1).setG d
          (BitVec.ofNat 64 (Fmt.f64.round s.mw.rm.toNat s.mw.clamp (s.draw 0)
            ((cellVal bs s.mw.rm.toNat).scale s.mw.scale.toInt))) (ps.any id)).completes) ∧
      (s.Issues (.lrw g d a) g → exec (.lrw g d a) s =
        .next (s.gives (.lrw g d a) d (leWord bs) (ps.any id))))) ∧
  (∀ (s : State) (g : Guard) (d a b : Reg) (ty : StTy) (off : BitVec 7) (l : Leaf) (pa : Nat),
    let x := Spot.glob l pa
    let place := s.placeOf pa
    let room := fun (ea : Word) (n : Nat) (need : Need) => s.answer 0 = none ∧
      s.checkAccess ea n n need = .ok ∧ s.spot ea = some x ∧ (l.ver = false ∨ txState s.me.tx ≠ 0) ∧
      s.bankRoom (bankOf place) 1 = true ∧ s.allowed place = true ∧
      (s.isRelease = true → s.released s.mw.scope.toNat)
    let posted := fun (i : Instr) (ea : Word) (op : StoreOp) (bs : List Byte) (ps : List Bool) =>
      Host.Outcome.next (((s.opened i).useTlb ea).post
        ((s.opened i).wbEntry place op (paOffset pa) pa ea bs ps l.ver s.oflag s.nextId)).completes
    (let n := stSize ty
      let ea := s.gv a + off.signExtend 64 * BitVec.ofNat 64 n
      s.Issues (.st g ty d a off) g → s.clean [a, d] → room ea n .write →
      s.checkPage l pa ea .store (if s.oflag then [9] else []) = .ok →
      exec (.st g ty d a off) s =
        posted (.st g ty d a off) ea .bytes (leBytes n (s.gv d).toNat) [s.gp d]) ∧
    (∀ (w : Bool) (op : RedOp), let n := redSize op w
      s.Issues (.red g w op a b) g → s.clean [a, b] → regionClass (s.gv a) = 0 → inHbm (paOffset pa) = true →
      room (s.gv a) n .both → s.checkPage l pa (s.gv a) .rmw [redFeature op] = .ok →
      exec (.red g w op a b) s = posted (.red g w op a b) (s.gv a) (.red op w (s.gv b)) [] []) ∧
    (s.Issues (.xclr g a) g → s.clean [a] → regionClass (s.gv a) = 0 → inHbm (paOffset pa) = true →
      room (s.gv a) 128 .write → s.checkPage l pa (s.gv a) .store [5] = .ok →
      exec (.xclr g a) s = posted (.xclr g a) (s.gv a) .clear [] []))

/-- R265 to R267: an atomic on the own scratchpad returns the old value and writes the new one; an AMO
with d = 0 discards the old value. R196, R165: LDW takes a word and empties its tag, STW fills a
word and its tag. -/
def Obligations.OwnScratchpadAtomicsAndTagsComplete : Prop :=
  (∀ (s : State) (g : Guard) (d a b : Reg) (o : Nat),
    let done := fun (i : Instr) (n : Nat) (new : Nat → Option Nat) =>
      let x := (s.opened i).spadRmw s.issue.core o n (s.gp b) new
      Host.Outcome.next ((x.2.setG d x.1.v x.1.p).completes)
    let dropped := fun (i : Instr) (n : Nat) (new : Nat → Option Nat) =>
      Host.Outcome.next ((s.opened i).spadRmw s.issue.core o n (s.gp b) new).2.completes
    let free := s.isRelease = true → s.released s.mw.scope.toNat
    (∀ (w : Bool) (op : AmoOp), let n := if w then 4 else 8
      s.Issues (.amo g w op d a b) g → s.clean [a] → free → s.OwnWords (s.gv a) o n →
      s.tagsReady o n true → let new := fun old => some (amoNew op w old (s.gv b).toNat)
      exec (.amo g w op d a b) s = if d = 0 then dropped (.amo g w op d a b) n new
        else done (.amo g w op d a b) n new) ∧
    (s.Issues (.casN32 g d a b) g → s.clean [a, d] → free → s.OwnWords (s.gv a) o 4 →
      s.tagsReady o 4 true → exec (.casN32 g d a b) s = done (.casN32 g d a b) 4 (fun old =>
        if old = (s.gv d).toNat % 2 ^ 32 then some ((s.gv b).toNat % 2 ^ 32) else none)) ∧
    (s.Issues (.casN64 g d a b) g → s.clean [a, d] → free → s.OwnWords (s.gv a) o 8 →
      s.tagsReady o 8 true → exec (.casN64 g d a b) s = done (.casN64 g d a b) 8 (fun old =>
        if old = (s.gv d).toNat then some (s.gv b).toNat else none))) ∧
  (∀ (s : State) (g : Guard) (d a b : Reg) (o : Nat),
    s.clean [a] → s.OwnWords (s.gv a) o 8 →
    (s.Issues (.ldw g d a) g → s.tagsReady o 8 true → exec (.ldw g d a) s =
      .next (((s.opened (.ldw g d a)).setTag s.issue.core (o / 8) false).setG d
        (s.word (spadKey s.issue.core o)) (s.spadPois s.issue.core (o / 8))).completes) ∧
    (s.Issues (.stw g a b) g → s.tagsReady o 8 false → s.released s.mw.scope.toNat →
      exec (.stw g a b) s = .next (((s.opened (.stw g a b)).writeSpad s.issue.core o
        (leBytes 8 (s.gv b).toNat) [s.gp b]).setTag s.issue.core (o / 8) true).completes))

/-- R275, R276: the answer to an SCH writes its predicate and gives up the reservation that the strand holds:
its record leaves its queue, and the next in line is granted at once, so that its LRW is answered; the record
kept of a line of another module, where the reservation has ended, goes too. -/
def Obligations.StoreConditionalAnswers : Prop :=
  ∀ (s : State) (g : Guard) (pd : Pred) (a b : Reg) (ok : Bool), s.answer 0 = some (.pred ok) →
    s.Issues (.sch g pd a b) g →
    let mine := fun (r : Resv) => r.core == s.issue.core && r.slot == s.issue.slot && r.inst == s.me.inst
    let u : State := { s.opened (.sch g pd a b) with resv := s.resv.filter fun r => !mine r }
    ((∀ r ∈ s.resv, mine r = true → s.ownLine r.line = false) →
      exec (.sch g pd a b) s = .next (u.setP pd ok).completes) ∧
    (∀ h, s.resv.filter mine = [h] → s.ownLine h.line = true →
      exec (.sch g pd a b) s = .next ((u.grant h.line).setP pd ok).completes ∧
      ((∀ r ∈ u.resv, r.line ≠ h.line) → u.grant h.line = u) ∧
      (∀ (n : Resv) (id : Nat) (q : Req), u.resv.find? (fun r => r.line == h.line) = some n →
        n.granted = none → n.req = some id → u.reqs.find? (fun r => r.id == id) = some q → q.pkt = none →
        (∀ x ∈ u.groups, x.addr / 128 ≠ q.addr / 128) →
        (u.grant h.line).resv = u.resv.map (fun r =>
          if r = n then { n with granted := some s.now, req := none, intact := true } else r) ∧
        ∃ r ∈ (u.grant h.line).replies, r.core = q.core ∧ r.slot = q.slot ∧ r.inst = q.inst ∧
          r.elem = q.elem ∧ ∃ bs ps, r.ans = .data bs ps))

/-- R231, R277, R278, R279, R392: fences that have nothing to wait for, the software cache's tags,
prefetches and allowances complete. -/
def Obligations.FencesTagsAndHintsComplete : Prop :=
  (∀ (s : State) (g : Guard) (k : FenceKind) (scope : BitVec 3), s.Issues (.fence g k scope) g →
    (k = .loads ∨ s.released scope.toNat) →
    exec (.fence g k scope) s = .next (if k = .fetch then (s.opened (.fence g k scope)).dropFetches.completes
      else (s.opened (.fence g k scope)).completes) ∧ s.dropFetches.myCore.icache = [] ∧
      s.dropFetches.mem = s.mem ∧ ∀ n, n ≠ s.issue.core → s.dropFetches.core n = s.core n) ∧
  (∀ (s : State) (g : Guard) (d a : Reg), s.Issues (.lookup g d a) g → s.clean [a] →
    (bits (s.gv a) 63 56 ≠ 0 ∨ s.myCore.lookup (s.gv a) = none) → s.kept 7 = none →
    exec (.lookup g d a) s = .next (s.gives (.lookup g d a) d 0 false)) ∧
  (∀ (s : State) (g : Guard) (d a : Reg) (e : Word), s.Issues (.lookup g d a) g → s.clean [a] →
    bits (s.gv a) 63 56 = 0 → s.myCore.lookup (s.gv a) = some e → s.me.flight = none →
    let size := 128 * 2 ^ s.myCore.slotZ
    let off := tagSlot e * size + (s.gv a).toNat % size
    s.tagsReady (off / 8 * 8) 8 true → s.soundWords (wordsOf (off / 8 * 8) 8) →
    exec (.lookup g d a) s =
      .next (s.gives (.lookup g d a) d (0xFFFFFFFFFF000000 + BitVec.ofNat 64 off) false)) ∧
  (∀ (s : State) (g : Guard) (a b : Reg), s.Issues (.tagset g a b) g → s.clean [a, b] →
    (s.gv a).toNat < 2048 → bits (s.gv b) 62 60 = 0 →
    (tagValid (s.gv b) = false ∨ s.myCore.tagRefused (s.gv a).toNat (s.gv b) = false) →
    exec (.tagset g a b) s = .next ((s.opened (.tagset g a b)).setMyCore { s.myCore with
      tags := SMap.put s.myCore.tags 0 (s.gv a).toNat (s.gv b) }).completes) ∧
  (∀ (s : State) (g : Guard) (a : Reg), s.Issues (.tagclr g a) g → s.clean [a] →
    (s.gv a).toNat < 2048 → exec (.tagclr g a) s =
      .next ((s.opened (.tagclr g a)).setMyCore { s.myCore with
        tags := SMap.put s.myCore.tags 0 (s.gv a).toNat 0 }).completes) ∧
  (∀ (s : State) (g : Guard) (a : Reg), s.Issues (.pref g a) g → s.clean [a] →
    ∃ t : State, exec (.pref g a) s = .next t.completes ∧ t.mem = s.mem ∧ t.me = s.me) ∧
  (∀ (s : State) (g : Guard) (d a : Reg) (pq : Pred), s.Issues (.alw g d a pq) g → s.clean [a] →
    bits (s.gv a) 63 32 = 0 → bits (s.gv a) 15 9 = 0 →
    let m := bits (s.gv a) 8 0
    let w := s.allow s.myCluster m
    let v := if m = s.modNo.toNat then 0xFFFF else if s.present m then w.w - w.n else 0
    let ok := m = s.modNo.toNat ∨ (s.present m = true ∧ max (bits (s.gv a) 31 16) 1 ≤ v)
    exec (.alw g d a pq) s = .next ((((s.opened (.alw g d a pq)).setG d (BitVec.ofNat 64 v) false).setP pq
      (decide ok)).completes))

/-! ### Tasks, futures, ports, barriers and feeds (spec/06, spec/07, spec/08) -/

/-- R184, R140, R192, R193: SPAWN and SPAWNQ allocate a future and push the child's descriptor; GO moves
the task; YIELD parks it and queues its resume entry; SELF names its future. R162, R189, R246, R253,
R276: EXIT of a task of this module, whose barriers' records lie here, resolves the task's own
future with its result, ends its memberships, its reference and its snapshot or transaction,
releases its reservation, and frees the slot. A task of another module, where its future lies, sends
the result there and waits for the answer (R386), and quits its slot once the last answers, 33 and
34 in the model's numbering, are there; one whose handle is of generation 0, or of a module that is
not present, quits at once. Choices of the model it rests on: logs 11, 29 and 34. -/
def Obligations.TaskInstructionsAndExitComplete : Prop :=
  ((∀ (s : State) (g : Guard) (d a : Reg) (q : Option Pred) (h : Word) (s1 : State),
    let i : Instr := match q with
      | some pq => .spawnq g d a pq
      | none => .spawn g d a
    let e := s.gv a
    let kind := if bits e 55 0 = 0 then 4 else 0
    let given := fun (t : State) => match q with
      | some pq => ((t.setG d h false).setP pq true).completes
      | none => (t.setG d h false).completes
    s.Issues i g → s.clean [a] → s.settled → s.me.flight = none →
    bits e 57 56 = 0 → bits e 60 58 ≤ 4 → (bits e 55 0 = 0 → bits e 63 56 = 0) →
    (s.opened i).allocate s.myCluster kind = (some h, s1) →
    (kind = 4 → exec i s = .next (given s1)) ∧
    (kind = 0 → s1.myCore.dequeRoom = true → s1.me.snap = 0 → exec i s =
      .next (given ((s1.pushDeque s.issue.core (s1.childDesc e h)).count s.issue.core 1 1)))) ∧
  (∀ (s : State) (g : Guard) (d a : Reg) (pq : Pred) (s1 : State), let i : Instr := .spawnq g d a pq
    let e := s.gv a
    s.Issues i g → s.clean [a] → s.settled → s.me.flight = none →
    bits e 57 56 = 0 → bits e 60 58 ≤ 4 → (bits e 55 0 = 0 → bits e 63 56 = 0) →
    (s.opened i).allocate s.myCluster (if bits e 55 0 = 0 then 4 else 0) = (none, s1) →
    exec i s = .next ((s1.setG d 0 false).setP pq false).completes) ∧
  (∀ (s : State) (g : Guard) (a : Reg) (m c : Nat), let i : Instr := .go g a
    let u := (s.opened i).useTlb (s.gv a)
    let out := u.releaseResv s.issue.core s.issue.slot s.me.inst
    let d := u.descOfStrand s.me s.nextPc
    s.Issues i g → s.clean [a] → s.settled → s.checkGo (s.gv a) = .ok → u.home (s.gv a) = some (m, c) →
    s.me.pmode = false → s.ownsPort = false →
    (m = s.modNo.toNat → (clusterOf c ≠ s.myCluster → u.drainState (clusterOf c) < 2) →
      (c = s.issue.core → exec i s = .next (out.setMe
        { out.freshStrand d with st := .ready, inst := s.me.inst, last := s.me.last })) ∧
      (c ≠ s.issue.core → (u.core c).arrivalRoom = true → exec i s =
        .next ((out.freeSlot s.issue.core s.issue.slot).arrive c d))) ∧
    (m ≠ s.modNo.toNat → s.me.snap = 0 → txState s.me.tx = 0 →
      let v := out.freeSlot s.issue.core s.issue.slot
      exec i s = .next { v with migrations := v.migrations ++ [(m, c, d)] })) ∧
  (∀ (s : State) (g : Guard) (n : Nat) (s1 : State), let i : Instr := .yield g
    s.Issues i g → (s.ownsPort = true ∨ (s.opened i).parkIndex = none →
      exec i s = .next (s.opened i).completes) ∧
    (s.ownsPort = false → (s.opened i).parkIndex = some (n, s1) → s.settled → exec i s =
      .next ((s1.parkAs n s1.nextPc { kind := 5 }).arrive s.issue.core
        (resumeDesc s1.me.mig s1.me.prio s1.me.task s1.me.parent n)))) ∧
  (∀ (s : State) (g : Guard) (d : Reg), s.Issues (.self g d) g →
    exec (.self g d) s = .next (s.gives (.self g d) d s.me.task false))) ∧
  (∀ (s : State) (g : Guard) (a : Reg), s.Issues (.exit g a) g → s.clean [a] → s.settled →
    let u := s.opened (.exit g a)
    let h := s.me.task
    let m := hModule h
    let goes := fun (t : State) => exec (.exit g a) s = .next t ∧ (t.strand s.issue.core s.issue.slot).st = .free
    (s.me.flight = none → m = s.modNo.toNat →
      let ended := (u.endFuture h 2 (s.gv a)).takeMembers h
      let left := ended.2.exitLeaves ended.1
      left.1 = 0 → goes (left.2.dropRef h).quit) ∧
    (m ≠ s.modNo.toNat →
      (s.me.flight = none → hGen h = 0 ∨ s.present m = false → goes u.quit) ∧
      ((s.answer 33).isSome = true → (s.answer 34).isSome = true → goes u.quit) ∧
      (s.me.flight = none → hGen h ≠ 0 → s.present m = true → s.featBit m 8 = true → ∃ t : State,
        exec (.exit g a) s = .next t ∧ (t.strand s.issue.core s.issue.slot).st = .waiting ∧
        ∃ r ∈ t.reqs, r.op = .future 4 h (s.gv a) h ∧ r.place = .remote m)))

/-- R146, R185: TOUCH of a resolved future gives its value, of a failed one traps with its fault word;
TOUCHQ gives the value and whether the future is resolved. R134 to R137, R139, R146, R185: TOUCH,
TOUCHQ and the compact TOUCH of a pending future park the task after its drain: its slot is free,
its record joins the future's chain, and holds the header with the address of the next instruction,
the registers with their poison, the wait kind 1, the destination with the instruction's length, and
the handle. -/
def Obligations.TouchesTakeOrWait : Prop :=
  (∀ (s : State) (g : Guard) (d a : Reg) (pq : Pred) (e : FutEntry), s.Live (s.gv a) e → s.clean [a] →
    s.me.flight = none → e.state ≠ 1 →
    let used := fun (i : Instr) => (s.opened i).setFut (hCluster (s.gv a)) (hSlot (s.gv a))
      (some { e with use := s.now })
    (s.Issues (.touch g d a) g → exec (.touch g d a) s = .next
      (if e.state = 2 then ((used (.touch g d a)).setG d e.value false).completes
      else (used (.touch g d a)).trap s.issue.core s.issue.slot 11 (e.value.extractLsb' 0 16) e.value
        s.me.pc s.issue.len)) ∧
    (s.Issues (.touchq g d a pq) g → exec (.touchq g d a pq) s = .next
      (((used (.touchq g d a pq)).setG d e.value false).setP pq (e.state == 2)).completes) ∧
    (∀ (n : BitVec 3) (d a : BitVec 4), s.Live (s.gv (compactReg a)) e → s.clean [compactReg a] →
      e.state = 2 → s.Issues (.touchC16 n d a) (compactGuard n) → exec (.touchC16 n d a) s = .next
        ((((s.opened (.touchC16 n d a)).setFut (hCluster (s.gv (compactReg a)))
          (hSlot (s.gv (compactReg a))) (some { e with use := s.now })).setG (compactReg d) e.value
            false).completes))) ∧
  (∀ (s : State) (g : Guard) (i : Instr) (d a : Reg) (q : Option Pred) (e : FutEntry) (n : Nat) (s1 : State),
    ((i = .touch g d a ∧ q = none) ∨ (∃ pq, i = .touchq g d a pq ∧ q = some pq) ∨
      (∃ m x y, i = .touchC16 m x y ∧ g = compactGuard m ∧ d = compactReg x ∧ a = compactReg y ∧ q = none)) →
    let h := s.gv a
    s.Issues i g → s.Live h e → s.clean [a] → s.me.flight = none → e.state = 1 → s.settled →
    ((s.opened i).renew (hCluster h) (hSlot h) e).parkIndex = some (n, s1) →
    let u := s1.parkAs n s.nextPc { kind := 1, b295 := byte295 d s.issue.len q.isSome, b296 := (q.getD 0).toNat,
                                    obj := h }
    let v := u.find h
    let o := s.parkOff s.myCluster + 384 * n
    exec i s = .next (match v.1 with
      | .entry cl slot e => v.2.joinChain cl slot e (s.parkToken n)
      | _ => v.2) ∧
    (u.strand s.issue.core s.issue.slot).st = .free ∧
    ((∀ r ∈ s.resv, ¬(r.core = s.issue.core ∧ r.slot = s.issue.slot ∧ r.inst = s.me.inst)) →
      s.QuietAt o 384 → u.HoldsPark s o s.nextPc d q h ∧
      (e.head = 0 → ∃ t : State, ∃ x : FutEntry, exec i s = .next t ∧
        (t.strand s.issue.core s.issue.slot).st = .free ∧ t.HoldsPark s o s.nextPc d q h ∧
        t.Live h x ∧ x.state = 1 ∧ x.head = s.parkToken n ∧ x.tail = s.parkToken n)))

/-- R187, R188, R190, R191: RESOLVE, POISON and CANCEL end a pending future, FSTAT shows its state,
FHOLD and FDROP count its references. Choices of the model it rests on: log 59. -/
def Obligations.FutureInstructionsComplete : Prop :=
  ∀ (s : State) (g : Guard) (d a b : Reg) (e : FutEntry), s.Live (s.gv a) e → s.clean [a] →
    s.me.flight = none →
    let cl := hCluster (s.gv a)
    let k := hSlot (s.gv a)
    let used := fun (i : Instr) => (s.opened i).renew cl k e
    let ended := fun (i : Instr) (st : BitVec 3) (v : Word) => Host.Outcome.next
      ((used i).finish cl k e st v).completes
    let put := fun (i : Instr) (e : FutEntry) => Host.Outcome.next ((used i).putEntry cl k e).completes
    let again := fun (i : Instr) => (used i).renew cl k { e with use := s.now }
    let mine := e.kind = 4 ∨ (e.kind = 0 ∧ s.gv a = s.me.task)
    (s.Issues (.resolve g a b) g → s.clean [b] → s.settled → mine → e.state = 1 →
      exec (.resolve g a b) s = ended (.resolve g a b) 2 (s.gv b)) ∧
    (s.Issues (.poison g a b) g → s.clean [b] → s.settled → mine → e.state = 1 →
      bits (s.gv b) 15 0 ≠ 0 → bits (s.gv b) 15 13 < 5 →
      exec (.poison g a b) s = ended (.poison g a b) 3 (s.gv b)) ∧
    (s.Issues (.cancel g a) g → (e.state ≠ 1 → exec (.cancel g a) s =
        .next (used (.cancel g a)).completes) ∧
      (e.state = 1 → e.kind = 4 → exec (.cancel g a) s = ended (.cancel g a) 4 0x0601) ∧
      (e.state = 1 → e.kind ≠ 3 → e.kind ≠ 4 → e.started = true →
        exec (.cancel g a) s = put (.cancel g a) { e with cxreq := true })) ∧
    (s.Issues (.fstat g d a) g →
      let waits := e.head ≠ 0 ∨ s.slotWaits.any (fun w => w.kind == 1 && w.obj == s.gv a) = true
      exec (.fstat g d a) s =
      .next (s.gives (.fstat g d a) d (BitVec.ofNat 64 ((if e.state = 3 ∨ e.state = 4 then
          bits e.value 15 0 else 0) * 2 ^ 48 + e.refs.toNat * 2 ^ 32 + b1 (decide waits) * 2 ^ 5 +
          b1 e.started * 2 ^ 4 + b1 e.cxreq * 2 ^ 3 + e.state.toNat)) false)) ∧
    (s.Issues (.fhold g a) g → e.refs ≠ 0xFFFF →
      exec (.fhold g a) s = put (.fhold g a) { e with refs := e.refs + 1 }) ∧
    (s.Issues (.fdrop g a) g → 1 < e.refs.toNat →
      exec (.fdrop g a) s = .next ((again (.fdrop g a)).putEntry cl k
        { e with use := s.now, refs := e.refs - 1 }).completes)

/-- R145, R148, R149: a future that is ended has its state and value for every later request; one that is
final already is left so by a later RESOLVE, POISON, CANCEL or completion by an engine, which raise no trap;
a handle of another generation or kind is stale. -/
def Obligations.FinishedFuturesStayFinal : Prop :=
  (∀ (s : State) (h : Word) (e : FutEntry) (st : BitVec 3) (v : Word), s.Live h e → e.state = 1 → e.head = 0 →
    st ≠ 0 → let t := s.finish (hCluster h) (hSlot h) e st v
    ∃ e' : FutEntry, t.Live h e' ∧ e'.state = st ∧ e'.value = v ∧ e'.refs = e.refs) ∧
  (∀ (s : State) (h : Word) (e : FutEntry), s.Live h e → e.state = 2 ∨ e.state = 3 ∨ e.state = 4 →
    let used := s.renew (hCluster h) (hSlot h) e
    (∃ e' : FutEntry, used.Live h e' ∧ e'.state = e.state ∧ e'.value = e.value ∧ e'.refs = e.refs) ∧
    s.cancelPort h = (.ok, used) ∧
    (∀ (st : BitVec 3) (v task : Word), s.endFuture h st v = used ∧ (s.endPort h task st v).2 = used ∧
      (e.kind = 4 ∨ (e.kind = 0 ∧ h = task) → (s.endPort h task st v).1 = .ok))) ∧
  (∀ (s : State) (g : Guard) (a b : Reg) (e : FutEntry), s.Live (s.gv a) e →
    e.state = 2 ∨ e.state = 3 ∨ e.state = 4 → e.kind = 4 ∨ (e.kind = 0 ∧ s.gv a = s.me.task) →
    s.clean [a, b] → s.me.flight = none → s.settled →
    let used := fun (i : Instr) => (s.opened i).renew (hCluster (s.gv a)) (hSlot (s.gv a)) e
    (s.Issues (.resolve g a b) g → exec (.resolve g a b) s = .next (used (.resolve g a b)).completes) ∧
    (s.Issues (.poison g a b) g → bits (s.gv b) 15 0 ≠ 0 → bits (s.gv b) 15 13 < 5 →
      exec (.poison g a b) s = .next (used (.poison g a b)).completes)) ∧
  (∀ (s : State) (h : Word) (e : FutEntry), s.Live h e → ∀ h' : Word,
    hModule h' = hModule h → hCluster h' = hCluster h → hClusterField h' < 24 → hSlot h' = hSlot h →
    (hGen h' ≠ hGen h ∨ hKind h' ≠ hKind h) → (s.touchPort h').1 = .stale ∧
      (s.statPort h').1 = 7) ∧
  (∀ e : FutEntry, e.freed.state = 0 ∧ e.freed.gen ≠ e.gen ∧ (e.gen ≠ 0 → e.freed.gen ≠ 0))

/-- R169 to R172, R195: PMODE sets the mode, PBIND takes and gives up the port, PSTAT reads it. -/
def Obligations.PortInstructionsComplete : Prop :=
  ∀ (s : State) (g : Guard) (d a : Reg) (k : Bool),
    (s.Issues (.pmode g k) g → exec (.pmode g k) s =
      .next ((s.opened (.pmode g k)).setMe { s.me with pmode := k }).completes) ∧
    (s.Issues (.pbind g a) g → s.clean [a] →
      (s.gv a = 1 → s.myCore.owner = none → exec (.pbind g a) s =
        .next ((s.opened (.pbind g a)).setMyCore { s.myCore with
          owner := some s.issue.slot, portQ := [],
          discards := s.myCore.discards + BitVec.ofNat 32 s.myCore.portQ.length }).completes) ∧
      (s.gv a = 0 → s.ownsPort = true → exec (.pbind g a) s =
        .next ((s.opened (.pbind g a)).setMyCore { s.myCore with owner := none }).completes)) ∧
    (s.Issues (.pstat g d) g → exec (.pstat g d) s =
      .next (s.gives (.pstat g d) d (BitVec.ofNat 64 (s.myCore.discards.toNat * 2 ^ 32 +
        (s.myCore.owner.getD 0) * 2 ^ 9 + b1 s.myCore.owner.isSome * 2 ^ 8 +
        (s.core (downstream s.issue.core)).portQ.length * 2 ^ 4 + s.myCore.portQ.length)) false))

/-- R173 to R177, R197: members join, arrive at and leave a barrier; its expected count changes; a phase
ends when all expected have arrived; a wait for a phase that has ended returns its number. R178,
R198, R372: FPOP and FPOPQ take the oldest record of an enabled feed queue; FPOPQ of an empty one
clears its predicate. Choices of the model it rests on: logs 28, 29, 30, 47, 59 and 61. -/
def Obligations.BarriersAndFeedsComplete : Prop :=
  (∀ (s : State) (g : Guard) (d a b : Reg) (pq : Pred) (o : Nat), s.clean [a] →
    s.BarrierAt (s.gv a) o → s.me.flight = none →
    let va := s.gv a
    let found := fun (i : Instr) (e : FutEntry) (s1 u : State) => u = s1.openBarrier o ∧
      ∃ cl slot, ((s.opened i).useTlb va).members? s.me.task = (some (cl, slot, e), s1)
    let kept := fun (u : State) (m : Option Member) (t : State) => ∃ cl slot e s1,
      u.members? s.me.task = (some (cl, slot, e), s1) ∧ t = s1.putMembers cl slot (setMember e.members va m)
    let member := fun (e : FutEntry) (x : Member) => e.members.find? (fun y => y.addr == va) = some x
    hModule s.me.task = s.modNo.toNat →
    (∀ e s1 u t, found (.bjoin g a) e s1 u → s.Issues (.bjoin g a) g →
      e.members.length < 4 → (∀ x ∈ e.members, x.addr ≠ va) → (u.barrier o).expected ≠ 2 ^ 32 - 1 →
      (u.barrier o).arrived ≤ (u.barrier o).expected + 1 →
      kept (u.settleBarrier o va { u.barrier o with expected := (u.barrier o).expected + 1 })
        (some ⟨va, false, 0⟩) t → exec (.bjoin g a) s = .next t.completes) ∧
    (∀ e s1 u t x, found (.barv g a) e s1 u → member e x → s.Issues (.barv g a) g →
      s.settled → (x.arr = true → x.aphase.toNat ≠ (u.barrier o).phase) →
      kept (u.settleBarrier o va { u.barrier o with arrived := (u.barrier o).arrived + 1 })
        (some ⟨va, true, BitVec.ofNat 32 (u.barrier o).phase⟩) t → exec (.barv g a) s = .next t.completes) ∧
    (∀ e s1 u t x, found (.bleave g a) e s1 u → member e x → s.Issues (.bleave g a) g → s.settled →
      kept (u.settleBarrier o va ((u.barrier o).without x)) none t →
      exec (.bleave g a) s = .next t.completes) ∧
    (∀ e s1 u x, found (.bexpect g a b) e s1 u → member e x → s.clean [b] → s.Issues (.bexpect g a b) g →
      let n : Int := (u.barrier o).expected + (s1.gv b).toInt
      0 ≤ n → n < 2 ^ 32 → (u.barrier o).arrived ≤ n → exec (.bexpect g a b) s =
        .next (u.settleBarrier o va { u.barrier o with expected := n.toNat }).completes) ∧
    (∀ e s1 u x, found (.bwait g d a pq) e s1 u → member e x → s.Issues (.bwait g d a pq) g → x.arr = true →
      (x.aphase.toNat + 1) % 2 ^ 32 = (u.barrier o).phase → (u.barrier o).last = 0 →
      exec (.bwait g d a pq) s = .next ((u.setG d (x.aphase.setWidth 64) false).setP pq true).completes)) ∧
  (∀ (s : State) (g : Guard) (d a : Reg) (pq : Pred), let f := (s.gv a).toNat % 1024
    bits (s.gv a) 63 10 = 0 → s.clean [a] → s.me.flight = none → (s.feed f).en = true →
    (∀ v s1, (s.opened (.fpop g d a)).popFeed f = some (v, s1) → s.Issues (.fpop g d a) g →
      exec (.fpop g d a) s = .next (s1.setG d v false).completes) ∧
    (∀ v s1, (s.opened (.fpopq g d a pq)).popFeed f = some (v, s1) → s.Issues (.fpopq g d a pq) g →
      exec (.fpopq g d a pq) s = .next ((s1.setG d v false).setP pq true).completes) ∧
    ((s.feed f).ftail = (s.feed f).fhead → s.Issues (.fpopq g d a pq) g →
      exec (.fpopq g d a pq) s = .next (s.sets (.fpopq g d a pq) pq false)) ∧
    (∀ v s1, s.popFeed f = some (v, s1) → s1.feed f = { s.feed f with fhead := (s.feed f).fhead + 1 }))

/-! ### Versions, copies and the Loom (spec/13, spec/14, spec/15, spec/16) -/

/-- R280 to R283: SNAP and SNAPX take and give up snapshots, TXB begins a transaction, TXC commits it or
aborts it when it is doomed, TXA aborts it, TXS names its future. Choices of the model it rests on:
log 22. -/
def Obligations.VersionInstructionsComplete : Prop :=
  ∀ (s : State) (g : Guard) (d a : Reg) (pd : Pred),
    let x := txIndex s.me.tx
    let e := s.tx x
    (∀ s1, s.Issues (.snap g d) g → txState s.me.tx = 0 →
      (s.opened (.snap g d)).changeSnap s.ver.vclock = some s1 →
      exec (.snap g d) s = .next (s1.setG d s.ver.vclock false).completes) ∧
    (s.Issues (.snapx g a) g → txState s.me.tx = 0 → s.clean [a] → s.gv a = 0 →
      exec (.snapx g a) s = .next (((s.opened (.snapx g a)).releaseStamp s.me.snap).setMe
        { ((s.opened (.snapx g a)).releaseStamp s.me.snap).me with snap := 0 }).completes) ∧
    (∀ s1, s.Issues (.snapx g a) g → txState s.me.tx = 0 → s.clean [a] → s.gv a ≠ 0 →
      s.ver.vlow ≤ s.gv a → s.gv a ≤ s.ver.vclock → (s.opened (.snapx g a)).changeSnap (s.gv a) = some s1 →
      exec (.snapx g a) s = .next s1.completes) ∧
    (∀ n s1 s2 s3 h, s.Issues (.txb g) g → txState s.me.tx = 0 →
      (s.opened (.txb g)).pickFree (s.ver.txs.map (·.1)) 4096 = some (n, s1) →
      (s1.changeSnap s.ver.vclock).isSome = true → s1.allocate s.myCluster 3 = (some h, s2) →
      s2.changeSnap s.ver.vclock = some s3 →
      let begun : Tx := ⟨s.ver.vclock, 0, h, 0, 0, 1⟩
      exec (.txb g) s = .next ((s3.setTx n begun).setMe
        { (s3.setTx n begun).me with tx := txWord 1 0 n }).completes) ∧
    (s.Issues (.txc g pd) g → txState s.me.tx ≠ 0 → s.settled →
      let c := (s.opened (.txc g pd)).commitTx x
      (e.state = 1 → exec (.txc g pd) s = .next ((((((c.2.endFuture e.future 2 c.1).dropRef
        e.future).freeTx x).clearTx).setP pd true).completes)) ∧
      (e.state ≠ 1 → exec (.txc g pd) s = .next (((((s.opened (.txc g pd)).abortTx x 3
        (BitVec.ofNat 64 (0x2800 + e.cause.toNat))).clearTx).setP pd false).completes))) ∧
    (s.Issues (.txa g) g →
      (txState s.me.tx = 0 → exec (.txa g) s = .next (s.opened (.txa g)).completes) ∧
      (txState s.me.tx ≠ 0 → s.settled → exec (.txa g) s =
        .next (((s.opened (.txa g)).abortTx x 4 0x0601).clearTx).completes)) ∧
    (s.Issues (.txs g d) g → exec (.txs g d) s =
      .next ((((s.opened (.txs g d)).setMe { s.me with tx := s.refreshTx s.me.tx }).setG d
        (if txState s.me.tx = 0 then 0 else e.future) false).completes))

/-- R317 to R321: CPY, CPY2 and CPYG with operands that pass the checks, and room in the ring, empty the
tags of their destinations, append one record and give its future. R327, R328: CQSTAT gives the
status of a queue, TDSET sets or clears a tile descriptor. -/
def Obligations.CopyInstructionsComplete : Prop :=
  (∀ (s : State) (g : Guard) (d a : Reg) (i : Instr) (kind n key : Nat) (b : Block) (h : Word) (s1 : State),
    (i, kind, n) ∈ [(.cpy g d a, 0, 3), (.cpy2 g d a, 1, 6), (.cpyg g d a, 2, 4)] →
    let ops := (Reg.group a n).map s.gv
    let words := (copyDests kind ops).flatMap fun r => r.words s1.issue.core
    let emptied := words.foldl (fun s x => s.setTag x.1 x.2 false) s1
    s.Issues i g → s.clean (Reg.group a n) → s.me.flight = none →
    copyLimit kind ops = none → (copyRanges kind ops).findSome? Range.trapByte = none →
    copyMisaligned kind ops = none →
    ((copyRanges kind ops).findSome? fun r => r.windowByte s.issue.core (!s.me.priv)) = none →
    s.myScr = some (key, b) → (s.opened i).allocate s.myCluster 1 = (some h, s1) →
    (s1.scrQueue key).cmds.length < 2 ^ b.m → s.settled →
    exec i s = .next ((emptied.scrPush key b
      { kind := kind, ops := ops, xroot := emptied.myCore.xroot, user := !emptied.me.priv,
        core := s1.issue.core, fut := h, emptied := words, pad := 0 }).setG d h false).completes) ∧
  (∀ (s : State) (g : Guard) (d a : Reg) (k : BitVec 5) (o : Nat), s.clean [a] →
    (s.Issues (.cqstat g d a) g → (s.gv a).toNat ≤ 24 → exec (.cqstat g d a) s =
      .next (s.gives (.cqstat g d a) d (s.copyStatus s.myCluster (s.gv a).toNat) false)) ∧
    (s.Issues (.tdset g k a) g → s.OwnWords (s.gv a) o 32 → s.tagsReady o 32 true →
      (∀ w ∈ wordsOf o 32, s.spadPois s.issue.core w = false) →
      let bs := s.bytes (spadKey s.issue.core o) 32
      tdOk bs = true → exec (.tdset g k a) s =
        .next ((s.opened (.tdset g k a)).setCluster s.myCluster { s.cluster s.myCluster with
          tdesc := SMap.put (s.cluster s.myCluster).tdesc none k.toNat
            (if (bs.take 24).all (· == 0) then none else some (BitVec.ofNat 256 (leNat bs))) }).completes))

/-- R292, R299, R300: a Loom instruction whose checks pass is accepted at the tail of its core's queue
with its operands, and completes. R306: a group list whose entries have been read and pass is
accepted with them; an empty list is accepted at once. -/
def Obligations.LoomListsAndCommandsAreAccepted : Prop :=
  (∀ (s : State) (g : Guard) (a b : Reg) (f : LoomFmt) (lp : Option (BitVec 3)) (v k : Bool) (m : BitVec 3)
    (key : Nat) (blk : Block), s.clean [a, b] → s.LoomTakes key blk 1 →
    let taken := fun (i : Instr) (x y : Word) => (s.opened i).loomPush key blk (s.command i x y)
    let done := fun (i : Instr) (x y : Word) => exec i s = .next (taken i x y).completes
    (s.Issues (.wld g f lp a b) g → geoOk f lp (s.gv b) = true →
      s.engineAddress (s.gv a) (loomAlign f) → done (.wld g f lp a b) (s.gv a) (s.gv b)) ∧
    (s.Issues (.weft g f v lp a b) g → geoOk f lp (s.gv b) = true →
      s.engineAddress (s.gv a) (loomAlign f) → done (.weft g f v lp a b) (s.gv a) (s.gv b)) ∧
    (s.Issues (.vrd g f v a b) g → geoReadOk f (s.gv b) = true →
      s.engineAddress (s.gv a) (vrdAlign f) → exec (.vrd g f v a b) s =
        .next ((taken (.vrd g f v a b) (s.gv a) (s.gv b)).drew s.mw.rm.toNat
          (geoRows (s.gv b) * 32)).completes) ∧
    (s.Issues (.wswap g) g → done (.wswap g) 0 0) ∧
    (s.Issues (.vclr g k) g → done (.vclr g k) 0 0) ∧
    (s.Issues (.vadd g k a) g → s.engineAddress (s.gv a) 8 → done (.vadd g k a) (s.gv a) 0) ∧
    (s.Issues (.lloop g m a) g → s.engineAddress (s.gv a) 8 → done (.lloop g m a) (s.gv a) 0)) ∧
  (∀ (s : State) (g : Guard) (a b : Reg) (f : LoomFmt) (lp : Option (BitVec 3)) (v : Bool) (key : Nat)
    (blk : Block), let i : Instr := .lgrp g f v lp a b
    let n := if lp.isSome then 32 else bits (s.gv b) 5 0
    s.Issues i g → s.clean [a, b] → s.LoomTakes key blk (1 + (16 * n + 63) / 64) →
    n ≤ 32 → (s.gv b).toNat / 2 ^ 6 = 0 → (lp.isSome = true → s.gv b = 0) →
    s.engineAddress (s.gv a) 16 → (s.got = [] → n = 0) → s.trapAnswer = none →
    (∀ e ∈ groupsOf n s.got, e.2 = false ∧ groupOk f e.1 = true) →
    ((groupsOf n s.got).map fun e => grpRows e.1).foldl (· + ·) 0 ≤ 32 →
    exec i s = .next ((s.opened i).loomPush key blk { s.command i (s.gv a) (s.gv b) with
      groups := (groupsOf n s.got).map (·.1), records := 1 + (16 * n + 63) / 64 }).completes)

/-- R309 to R312: LFUT queues a marker and gives its future, poisoned at once while the sequencer is
stopped; LRES sets a stopped sequencer going, LSTAT reads the status. Choices of the model it rests
on: log 47. -/
def Obligations.LoomMarkersAndStatusComplete : Prop :=
  ∀ (s : State) (g : Guard) (d a : Reg) (key : Nat) (blk : Block), s.LoomTakes key blk 1 → s.clean [a] →
    s.me.flight = none →
    (∀ h s1, s.Issues (.lfut g d) g → (s.opened (.lfut g d)).allocate s.myCluster 2 = (some h, s1) →
      s1.LoomTakes key blk 1 →
      (s1.myCore.loom.seq ≠ .stopped → exec (.lfut g d) s = .next ((s1.loomPush key blk
        { s1.command (.lfut g d) 0 0 with fut := h }).setG d h false).completes) ∧
      (s1.myCore.loom.seq = .stopped → exec (.lfut g d) s = .next (((((s1.loomPush key blk
        { s1.command (.lfut g d) 0 0 with fut := 0 }).endFuture h 3
          (loomFaultWord (key * 512) s1.myCore.loom.code)).dropRef h).setG d h false).completes))) ∧
    (s.Issues (.lres g a) g → (s.gv a).toNat ≤ 2 ∨ s.myCore.loom.seq ≠ .stopped →
      let t := s.opened (.lres g a)
      exec (.lres g a) s = .next (if s.myCore.loom.seq ≠ .stopped then t.completes
        else if s.gv a = 0 then t.loomRun.completes
        else if s.gv a = 1 then (t.loomPop key).loomRun.completes
        else (t.loomFlush key blk).loomRun.completes)) ∧
    (s.Issues (.lstat g d) g → exec (.lstat g d) s =
      .next (s.gives (.lstat g d) d (BitVec.ofNat 64 (
        (if s.myCore.loom.seq = .running then 0 else 1) * 2 ^ 63 +
        min (s.loomQueue key).cmds.length 32767 * 2 ^ 48 + vatCode s.myCore.loom.v1.mode * 2 ^ 46 +
        vatCode s.myCore.loom.v0.mode * 2 ^ 44 + s.myCore.loom.shadow.fmt.code.toNat * 2 ^ 41 +
        s.myCore.loom.shadow.count * 2 ^ 30 + s.myCore.loom.warp.fmt.code.toNat * 2 ^ 27 +
        s.myCore.loom.warp.count * 2 ^ 16 + s.myCore.loom.code.toNat)) false))

/-! ### Tiles (spec/05) -/

/-- R112 to R115: a tile written whole reads back element by element, is full, has its shape recorded,
nothing above its elements, and, in a narrow format, its scale bytes, 127 above the last block; in another
format those stay as they were. -/
def Obligations.TileWriteReadsBack : Prop :=
  ∀ (t : Tile) (h : Shape) (raws : List Nat) (ps : List Bool) (scales : List Byte),
    0 < h.rows → 0 < h.cols → 0 < h.width → h.size * h.width ≤ 8192 → raws.length = h.size →
    ps.length = h.size →
    let x := t.write h raws ps scales
    (∀ e, e < h.size → elemAt x.data h.width e = raws.getD e 0 % 2 ^ h.width) ∧
    x.data.toNat < 2 ^ (h.size * h.width) ∧ x.full = true ∧ x.chain = t.chain ∧
    (∀ q, q < 32 → (x.pois.getLsbD q = true ↔ ∃ e, e < h.size ∧ e * h.width / 256 = q ∧
      ps.getD e false = true)) ∧
    (h.rows ≤ 32 → h.cols ≤ 256 → x.shape = some h) ∧
    (isNarrow h.fmt = false → x.scales = t.scales) ∧
    (isNarrow h.fmt = true →
      x.scales = scales.take 64 ++ List.replicate (64 - scales.length) (127 : Byte))

/-- R125: sums, differences, products, quotients, fused products, extremes and selections of tiles.
R114, R125: logic on raw bits with the scale bytes of the first source, shifts of integers modulo
the width, and compares that set every bit of an element. Choices of the model it rests on: log 37. -/
def Obligations.TileArithmeticAndLogicComplete : Prop :=
  (∀ (s : State) (g : Guard) (td ta tb : TReg) (h : Shape),
    let float := h.fmt.isFloat = true
    let ps := s.elementPoison h [ta, tb]
    let qs := s.elementPoison h [ta, tb, td]
    let rm := s.mw.rm.toNat
    let reals := fun (i : Instr) (f : Val → Val → Val) => exec i s =
      .next (s.fillsRounded i [ta, tb] td h (List.zipWith f (s.valsA h ta) (s.valsB h tb)) ps)
    let ints := fun (i : Instr) (f : Int → Int → Int) => exec i s =
      .next (s.fillsInts i [ta, tb] td h (List.zipWith f (s.ints h ta) (s.ints h tb)) ps)
    let choice := ((s.tile td).elems h).map (· != 0)
    (s.TileReady h [ta, tb] [td] →
      (s.Issues (.tadd g td ta tb) g → if float then reals (.tadd g td ta tb) (fun x y => x.add rm y)
        else ints (.tadd g td ta tb) (· + ·)) ∧
      (s.Issues (.tsub g td ta tb) g → if float then reals (.tsub g td ta tb) (fun x y => x.add rm y.neg)
        else ints (.tsub g td ta tb) (· - ·)) ∧
      (s.Issues (.tmul g td ta tb) g → if float then reals (.tmul g td ta tb) (fun x y => x.mul y)
        else ints (.tmul g td ta tb) (· * ·)) ∧
      (s.Issues (.tdiv g td ta tb) g → if float then reals (.tdiv g td ta tb) (fun x y => x.div y)
        else ints (.tdiv g td ta tb) (fun x y => if y = 0 then -1 else x.tdiv y)) ∧
      (∀ least : Bool, let i : Instr := if least then .tmin g td ta tb else .tmax g td ta tb
        s.Issues i g → if isNarrow h.fmt = true then reals i (pickVal least)
          else if float then exec i s = .next (s.fills i [ta, tb] td h
            (List.zipWith (pickFloat h.fmt least) (s.rawA h ta) (s.rawB h tb)) ps [])
          else ints i (if least then min else max))) ∧
    (s.TileReady h [ta, tb, td] [td] →
      (s.Issues (.tfma g td ta tb) g → if float then exec (.tfma g td ta tb) s =
          .next (s.fillsRounded (.tfma g td ta tb) [ta, tb, td] td h (List.zipWith (Val.add rm)
            (List.zipWith Val.mul (s.valsA h ta) (s.valsB h tb)) (s.vals h td)) qs)
        else exec (.tfma g td ta tb) s = .next (s.fillsInts (.tfma g td ta tb) [ta, tb, td] td h
          (List.zipWith (· + ·) (List.zipWith (· * ·) (s.ints h ta) (s.ints h tb)) (s.ints h td)) qs)) ∧
      (s.Issues (.tsel g td ta tb) g → if isNarrow h.fmt = true then exec (.tsel g td ta tb) s =
          .next (s.fillsRounded (.tsel g td ta tb) [ta, tb, td] td h
            (chooseBy choice (s.vals h ta) (s.vals h tb)) qs)
        else exec (.tsel g td ta tb) s = .next (s.fills (.tsel g td ta tb) [ta, tb, td] td h
          (chooseBy choice ((s.tile ta).elems h) ((s.tile tb).elems h)) qs [])))) ∧
  (∀ (s : State) (g : Guard) (td ta tb : TReg) (h : Shape), s.TileReady h [ta, tb] [td] →
    let ps := s.elementPoison h [ta, tb]
    let logic := fun (i : Instr) (f : Nat → Nat → Nat) => exec i s = .next (s.fills i [ta, tb] td h
      (List.zipWith f ((s.tile ta).elems h) ((s.tile tb).elems h)) ps (s.tile ta).scales)
    let shift := fun (i : Instr) (f : Int → Nat → Int) => exec i s = .next (s.fillsInts i [ta, tb] td h
      (List.zipWith f (s.ints h ta) (((s.tile tb).elems h).map (· % h.width))) ps)
    let cmp := fun (i : Instr) (cc : FCond) => exec i s = .next (s.fills i [ta, tb] td h
      (if h.fmt.isFloat then List.zipWith (fun x y => if fcondHolds cc (x.order y) then 2 ^ h.width - 1
          else 0) (s.valsA h ta) (s.valsB h tb)
        else List.zipWith (fun x y => if fcondHolds cc (some (Ord.compare x y)) then 2 ^ h.width - 1
          else 0) (s.ints h ta) (s.ints h tb)) ps [])
    (s.Issues (.tand g td ta tb) g → logic (.tand g td ta tb) (· &&& ·)) ∧
    (s.Issues (.tor g td ta tb) g → logic (.tor g td ta tb) (· ||| ·)) ∧
    (s.Issues (.txor g td ta tb) g → logic (.txor g td ta tb) (· ^^^ ·)) ∧
    (h.fmt.isFloat = false → s.Issues (.tshl g td ta tb) g →
      shift (.tshl g td ta tb) (fun x n => x * 2 ^ n)) ∧
    (h.fmt.isFloat = false → s.Issues (.tshr g td ta tb) g →
      shift (.tshr g td ta tb) (fun x n => x / 2 ^ n)) ∧
    (s.Issues (.tcmpEq g td ta tb) g → cmp (.tcmpEq g td ta tb) .eq) ∧
    (s.Issues (.tcmpNe g td ta tb) g → cmp (.tcmpNe g td ta tb) .ne) ∧
    (s.Issues (.tcmpLt g td ta tb) g → cmp (.tcmpLt g td ta tb) .lt) ∧
    (s.Issues (.tcmpLe g td ta tb) g → cmp (.tcmpLe g td ta tb) .le))

/-- R126, R127: conversions of tiles, and the functions that round once. R69, R86, R128 to R130: rows
reduced and scanned by exact sums, their extremes, the greatest entries of a row with their columns,
and the transpose. Choices of the model it rests on: logs 12 and 31. -/
def Obligations.TileFunctionsAndReductionsComplete : Prop :=
  ((∀ (s : State) (g : Guard) (tgt : Fmt) (td ta : TReg) (h : Shape), let i : Instr := .tcvt g tgt td ta
    let m := s.mw
    let vs := (s.vals h ta).map (Val.scale m.scale.toInt)
    let k : Shape := { h with fmt := tgt }
    shapeOf s.me.shape = some h → cvtAccepts m tgt h.fmt = true → s.me.flight = none →
    s.chainAllows s.issue.core (chainNeeds [ta] [td]) s.nextId = true → (s.tile ta).agrees h = true →
    h.size * tgt.width ≤ 8192 → s.Issues i g → ∃ raws scales n,
      exec i s = .next ((((s.opened i).drew m.rm.toNat n).emptySources [ta]).writeTile td k raws
        (s.elementPoison h [ta]) scales).completes ∧
      (tgt.isFloat = true → (raws, scales) = s.formTile tgt m.rm.toNat m.clamp vs ∧ n = h.size) ∧
      (tgt.isFloat = false → scales = [] ∧ n = (if h.fmt.isFloat then h.size else 0) ∧
        raws = (List.range h.size).map fun e => convert (vs.getD e .nan) (!h.fmt.isFloat) tgt m.rm.toNat
          m.clamp m.sat.toNat (s.draw e))) ∧
  (∀ (s : State) (g : Guard) (td ta : TReg) (h : Shape), s.TileReady h [ta] [td] → h.fmt.isFloat = true →
    let fn := fun (i : Instr) (f : Val → Val) => exec i s =
      .next (s.fillsRounded i [ta] td h ((s.vals h ta).map f) (s.elementPoison h [ta]))
    (s.Issues (.texp2 g td ta) g → fn (.texp2 g td ta) Val.exp2) ∧
    (s.Issues (.tlog2 g td ta) g → fn (.tlog2 g td ta) Val.log2) ∧
    (s.Issues (.trcp g td ta) g → fn (.trcp g td ta) (Val.div (.fin false 1 0))) ∧
    (s.Issues (.trsq g td ta) g → fn (.trsq g td ta) Val.rsq) ∧
    (s.Issues (.tsqrt g td ta) g → fn (.tsqrt g td ta) Val.sqrt) ∧
    (s.Issues (.ttanh g td ta) g → fn (.ttanh g td ta) Val.tanh))) ∧
  (∀ (s : State) (g : Guard) (td ta : TReg) (h : Shape),
    let float := h.fmt.isFloat = true
    let any := fun (l : List Bool) => l.any id
    let col : Shape := { h with cols := 1 }
    let total := fun (l : List Int) => l.foldl (· + ·) 0
    let sum := fun (l : List Val) => sumVals h.fmt s.mw.rm.toNat l
    let nan := fun (x : Nat) => if h.fmt.value x = .nan then h.fmt.nanBits else x
    (s.TileReady h [ta] [td] →
      (s.Issues (.tredAdd g td ta) g → exec (.tredAdd g td ta) s = .next (if float then
          s.fillsRounded (.tredAdd g td ta) [ta] td col ((rowsOf h (s.vals h ta)).map sum)
            ((rowsOf h ((s.tile ta).poisons h)).map any)
        else s.fillsInts (.tredAdd g td ta) [ta] td col ((rowsOf h (s.ints h ta)).map total)
            ((rowsOf h ((s.tile ta).poisons h)).map any))) ∧
      (s.Issues (.tscanAdd g td ta) g → exec (.tscanAdd g td ta) s = .next (if float then
          s.fillsRounded (.tscanAdd g td ta) [ta] td h ((scansOf h (s.vals h ta)).map sum)
            ((scansOf h ((s.tile ta).poisons h)).map any)
        else s.fillsInts (.tscanAdd g td ta) [ta] td h ((scansOf h (s.ints h ta)).map total)
            ((scansOf h ((s.tile ta).poisons h)).map any))) ∧
      (∀ least : Bool, let i : Instr := if least then .tredMin g td ta else .tredMax g td ta
        isNarrow h.fmt = false → s.Issues i g → exec i s = .next (if float then
          s.fills i [ta] td col ((rowsOf h ((s.tile ta).elems h)).map fun l => nan (foldRow (pickFloat h.fmt least) 0 l))
            ((rowsOf h ((s.tile ta).poisons h)).map any) []
        else s.fillsInts i [ta] td col ((rowsOf h (s.ints h ta)).map
            (foldRow (if least then min else max) 0)) ((rowsOf h ((s.tile ta).poisons h)).map any))) ∧
      (s.Issues (.txpose g td ta) g → h.cols ≤ 32 → isNarrow h.fmt = false →
        exec (.txpose g td ta) s = .next (s.fills (.txpose g td ta) [ta] td ⟨h.cols, h.rows, h.fmt⟩
          ((List.range h.cols).flatMap fun j => (List.range h.rows).map fun r =>
            ((s.tile ta).elems h).getD (r * h.cols + j) 0)
          ((List.range h.cols).flatMap fun j => (List.range h.rows).map fun r =>
            ((s.tile ta).poisons h).getD (r * h.cols + j) false) []))) ∧
    (∀ k1 : BitVec 6, let k := k1.toNat + 1
      let i : Instr := .ttopk g td ta k1
      let tops := (List.range h.rows).flatMap fun r =>
        topOf (rowOf h (s.vals h ta) r) (rowOf h ((s.tile ta).elems h) r) k
      let ps := (rowsOf h ((s.tile ta).poisons h)).flatMap fun l => List.replicate k (l.any id)
      s.TileReady h [ta] [td, td + 1] → isNarrow h.fmt = false → s.Issues i g → k ≤ h.cols →
      h.rows * k * h.width ≤ 8192 → h.rows * k * 16 ≤ 8192 → exec i s =
        .next (((((s.opened i).emptySources [ta]).writeTile td { h with cols := k } (tops.map (·.1)) ps
          []).writeTile (td + 1) { h with cols := k, fmt := .n16 } (tops.map (·.2)) ps []).completes)))

/-- R123, R124: tiles moved, filled and counted, random fills, and single elements, scale bytes and
entries read and written. -/
def Obligations.TileMovesAndFillsComplete : Prop :=
  (∀ (s : State) (g : Guard) (td ta : TReg), s.Issues (.tmov g td ta) g → s.me.flight = none →
    s.chainAllows s.issue.core (chainNeeds [ta] [td]) s.nextId = true →
    let t := (s.opened (.tmov g td ta)).emptySources [ta]
    exec (.tmov g td ta) s = .next ((t.noteWrite td t.nextId true).setTile td { s.tile ta with
      entry := ((t.tile td).entry &&& 0x8000000000000000) ||| 0x4000000000000000 |||
        ((s.tile ta).entry &&& 0xFFFFFF) }).completes) ∧
  (∀ (s : State) (g : Guard) (t : TReg) (a : Reg) (h : Shape), s.TileReady h [] [t] →
    (s.Issues (.tsplat g t a) g → exec (.tsplat g t a) s = .next (s.fills (.tsplat g t a) [] t h
      (List.replicate h.size (s.gv a).toNat) (List.replicate h.size (s.gp a)) [])) ∧
    (s.Issues (.tiota g t) g → h.fmt.isFloat = false → exec (.tiota g t) s =
      .next (s.fills (.tiota g t) [] t h (List.range h.size) (List.replicate h.size false) [])) ∧
    (s.Issues (.tiota g t) g → h.fmt.isFloat = true →
      let r := s.formTile h.fmt 0 true ((List.range h.size).map fun e => Val.fin false e 0)
      exec (.tiota g t) s = .next (s.fills (.tiota g t) [] t h r.1 (List.replicate h.size false) r.2)) ∧
    (s.Issues (.trand g t) g → isNarrow h.fmt = false → exec (.trand g t) s =
      .next ((((s.opened (.trand g t)).drew 5 h.size).writeTile t h
        ((List.range h.size).map fun e => randElem h.fmt (s.draw e))
        (List.replicate h.size false) []).completes))) ∧
  (∀ (s : State) (g : Guard) (t : TReg) (a b : Reg) (h : Shape) (e : Nat), s.clean [b] →
    (s.tile t).shape = some h →
    let x := s.tile t
    let reads := Instr.tmovgRead g t a b
    let writes := Instr.tmovgWrite g t a b
    let wrote := fun (p : TilePatch) (y : Tile) => s.Issues writes g →
      exec writes s = .next ((s.opened writes).moveTile t p).completes ∧
      ((s.opened writes).moveTile t p).tile t = y ∧
      ∀ k, k ≠ t → ((s.opened writes).moveTile t p).tile k = s.tile k
    let contained := s.Issues writes g → s.gp a = true →
      exec writes s = .next (s.traps writes 4 0x2105 (a.setWidth 64))
    (moveIndex h (s.gv b) = some (0, e) →
      (s.Issues reads g → exec reads s = .next (s.gives reads a
        (BitVec.ofNat 64 (h.fmt.widen (elemAt x.data h.width e))) (x.pois.getLsbD (stripOf h.width e)))) ∧
      wrote (.elem h.width e (s.gv a).toNat (s.gp a)) { x with
        data := putElem x.data h.width e (s.gv a).toNat,
        pois := if s.gp a then x.pois ||| BitVec.ofNat 32 (2 ^ stripOf h.width e) else x.pois }) ∧
    (moveIndex h (s.gv b) = some (1, e) →
      (s.Issues reads g → ∃ v, exec reads s = .next (s.gives reads a v false) ∧
        ∀ j, j < 8 → v.extractLsb' (8 * j) 8 = x.scales.getD (8 * e + j) 0) ∧
      contained ∧ (s.gp a = false → ∃ y : List Byte, wrote (.scale e (s.gv a)) { x with scales := y } ∧
        (x.scales.length = 64 → y.length = 64 ∧ ∀ j, j < 64 → y.getD j 0 =
          if j / 8 = e then (s.gv a).extractLsb' (8 * (j % 8)) 8 else x.scales.getD j 0))) ∧
    (moveIndex h (s.gv b) = some (2, e) →
      (s.Issues reads g → exec reads s = .next (s.gives reads a x.entry false)) ∧
      contained ∧ (s.gp a = false →
        (entryGood (s.gv a) = true → wrote (.entry (s.gv a)) { x with entry := s.gv a }) ∧
        (entryGood (s.gv a) = false → s.Issues writes g →
          exec writes s = .next (s.traps writes 2 0x6103 (s.gv a))))) ∧
    (moveIndex h (s.gv b) = none → ∀ i, i = reads ∨ i = writes → s.Issues i g →
      exec i s = .next (s.traps i 2 0x6103 (s.gv b)))) ∧
  (∀ (s : State) (g : Guard) (t : TReg) (a b : Reg) (i : Instr), i = .tmovgRead g t a b ∨
    i = .tmovgWrite g t a b → s.gp b = true → s.Issues i g →
    exec i s = .next (s.traps i 4 0x2105 (b.setWidth 64)))

/-- R121, R122: tile loads from the own scratchpad gather their rows or elements, tile stores write
theirs, and both complete at once. Choices of the model it rests on: log 41. -/
def Obligations.TileMemoryCompletes : Prop :=
  (∀ (s : State) (g : Guard) (t ti : TReg) (a b : Reg) (h ks : Shape) (i : Instr) (srcs : List TReg)
    (runs : List Run),
    (i = .tld g t a b ∧ srcs = [] ∧ runs = rowRuns h (s.gv a) (s.gv b) ∧ s.clean [a, b] ∧
        (h.fmt = .f4 → h.cols % 2 = 0) ∧ (s.gv b).toNat % h.unit = 0 ∧ s.TileReady h [] [t] ∨
      i = .tldi g t ti a ∧ srcs = [ti] ∧ s.clean [a] ∧ h.fmt ≠ .f4 ∧
        indexShape h (s.tile ti) = some ks ∧ runs = indexRuns h (s.gv a)
          (((s.tile ti).elems ks).map (intElem ks.fmt 0)) ((s.tile ti).poisons ks) ∧
        shapeOf s.me.shape = some h ∧ s.usualMods h.fmt = true ∧ s.me.flight = none ∧
        s.chainAllows s.issue.core (chainNeeds [ti] [t]) s.nextId = true) →
    s.Issues i g → (s.gv a).toNat % h.unit = 0 → (∀ r ∈ runs, s.OwnRun h.unit .read r) →
    let parts := runs.flatMap (readRuns s h.unit)
    let got := parts.map fun r =>
      let o := (s.ownOff r.ea).getD 0
      (r.off, Answer.data (s.bytes (spadKey s.issue.core o) r.n)
        ((wordsOf o r.n).map (s.spadPois s.issue.core)))
    s.outWritten t s.nextId = false →
    exec i s = .next (((((s.opened i).emptySources srcs).noteWrite t s.nextId (isNarrow h.fmt)).setTile t {
      data := BitVec.ofNat 8192 (gatherData got), pois := gatherPoison (addrOf runs) got,
      scales := if isNarrow h.fmt then padScales [] else
        (((s.opened i).emptySources srcs).tile t).scales,
      entry := ((((s.opened i).emptySources srcs).tile t).entry &&& 0x8000000000000000) |||
        0x4000000000000000 ||| BitVec.ofNat 64 h.word }).endClaims.completes)) ∧
  (∀ (s : State) (g : Guard) (t ti : TReg) (a b : Reg) (h ks : Shape) (i : Instr) (srcs : List TReg)
    (runs : List Run),
    (i = .tst g t a b ∧ srcs = [t] ∧ runs = rowRuns h (s.gv a) (s.gv b) ∧ s.clean [a, b] ∧
        (h.fmt = .f4 → h.cols % 2 = 0) ∧ (s.gv b).toNat % h.unit = 0 ∧ s.TileReady h [t] [] ∨
      i = .tsti g t ti a ∧ srcs = [t, ti] ∧ s.clean [a] ∧ h.fmt ≠ .f4 ∧
        indexShape h (s.tile ti) = some ks ∧ runs = indexRuns h (s.gv a)
          (((s.tile ti).elems ks).map (intElem ks.fmt 0)) ((s.tile ti).poisons ks) ∧
        shapeOf s.me.shape = some h ∧ s.usualMods h.fmt = true ∧ s.me.flight = none ∧
        s.chainAllows s.issue.core (chainNeeds [t, ti] []) s.nextId = true ∧
        (s.tile t).agrees h = true) →
    s.Issues i g → (s.gv a).toNat % h.unit = 0 → (∀ r ∈ runs, s.OwnRun h.unit .write r) →
    s.me.posted = [] → s.mayStore s.isRelease →
    let c : Cargo := ⟨(s.tile t).data, (s.tile t).pois⟩
    exec i s = .next ((((runs.flatMap Run.pieces).foldl (fun u p =>
      u.writeSpad s.issue.core ((s.ownOff p.ea).getD 0) (c.bytes p.off p.n) (c.poison p))
        (s.opened i)).emptySources srcs).endClaims.completes))

/-! ### Traps, returns and contexts (spec/18, spec/19) -/

/-- R339: TRAP, and DBGB where no debugger catches it, save the address, cause, value, level and length
of the instruction, raise the level, and go to the entry of sr.tvec. R56, R339, R417: bits that are
no instruction, and a fetch that fails, trap at the strand's pc with the cause and value that name
them. -/
def Obligations.TrapsEnterTheHandler : Prop :=
  (∀ (s : State) (g : Guard) (k : BitVec 5), (s.me.priv = true → s.me.estat.getLsbD 7 = true) →
    let entered := fun (t : State) (cause : BitVec 5) (code : Code) =>
      t.me.epc = s.me.pc ∧ t.me.cause = BitVec.ofNat 64 (code.toNat * 2 ^ 16 + cause.toNat) ∧
      t.me.tval = k.setWidth 64 ∧ t.me.estat.getLsbD 4 = s.me.priv ∧
      bits t.me.estat 3 2 = (if s.issue.len = 2 then 0 else if s.issue.len = 4 then 1 else 2) ∧
      t.me.estat.getLsbD 5 = false ∧ t.me.estat.getLsbD 6 = false ∧ t.me.estat.getLsbD 7 = false ∧
      bits t.me.estat 1 0 = 0 ∧ t.me.priv = true ∧ t.me.pc = s.myCore.tvec &&& 0x00FFFFFFFFFFFFFE ∧ t.me.st = .ready ∧
      (∀ r, t.me.reg r = s.me.reg r) ∧ (∀ n, t.me.p n = s.me.p n) ∧ ∀ a, t.byte a = s.byte a
    (s.Issues (.trap g k) g → ∃ t, exec (.trap g k) s = .next t ∧
      entered t 17 (0x0120 + k.setWidth 16)) ∧
    (s.Issues (.dbgb g k) g → s.myCore.dbg.getLsbD 31 = false → ∃ t, exec (.dbgb g k) s = .next t ∧
      entered t 18 (0x0140 + k.setWidth 16)) ∧
    (s.Issues (.dbgb g k) g → s.myCore.dbg.getLsbD 31 = true → ∃ t, exec (.dbgb g k) s = .next t ∧
      t.me.st = .halted ∧ t.me.pc = s.nextPc ∧ t.me.priv = s.me.priv ∧
      t.myCore.dbg.getLsbD (32 + s.issue.slot) = decide (s.issue.slot < 32) ∧
      bits t.myCore.dbg 19 15 = k.toNat ∧ bits t.myCore.dbg 24 20 = s.issue.slot % 32)) ∧
  (∀ (s : State) (v : Word) (cause : BitVec 5) (code : Code), s.man.stopped = false →
    (s.me.priv = true → s.me.estat.getLsbD 7 = true) →
    let entered := fun (t : State) (cause : BitVec 5) (code : Code) => t.me.epc = s.me.pc ∧
      t.me.cause = BitVec.ofNat 64 (code.toNat * 2 ^ 16 + cause.toNat) ∧ t.me.tval = v ∧
      t.me.priv = true ∧ t.me.pc = s.myCore.tvec &&& 0x00FFFFFFFFFFFFFE
    (∃ t, exec (.illegalInstruction v) s = .next t ∧ entered t 0 0x6101) ∧
    (∃ t, exec (.fetchFault cause code v) s = .next t ∧ entered t cause code))

/-- R342, R354, R402: a trap of any cause at supervisor level nests while ok is set, and each entry
clears it; with ok clear it is a double trap: the strand halts with its registers as the first trap
left them, the census records 0x6302, and the debug word shows dtrap and the slot. TRAP is one such
trap. That the inner trap's own code is recorded beside 0x6302, and that no hmask bit is set, is the
model's choice. Choices of the model it rests on: log 47. -/
def Obligations.DoubleTrapHaltsTheStrand : Prop :=
  (∀ (s : State) (n k : Nat) (cause : BitVec 5) (code : Code) (v pc : Word) (len : Nat),
    let t := s.strand n k
    let u := s.trap n k cause code v pc len
    let x := u.strand n k
    (t.priv = false ∨ t.estat.getLsbD 7 = true → x.st = .ready ∧ x.epc = pc ∧
      x.cause = BitVec.ofNat 64 (code.toNat * 2 ^ 16 + cause.toNat) ∧ x.tval = v ∧
      x.estat.getLsbD 7 = false ∧ x.estat.getLsbD 4 = t.priv ∧ x.priv = true ∧
      x.pc = (s.core n).tvec &&& 0x00FFFFFFFFFFFFFE ∧ (u.core n).dbg = (s.core n).dbg) ∧
    (t.priv = true → t.estat.getLsbD 7 = false → k < 32 →
      x.st = .halted ∧ x.epc = t.epc ∧ x.cause = t.cause ∧ x.tval = t.tval ∧ x.estat = t.estat ∧
      x.kscr = t.kscr ∧ x.priv = true ∧ x.pc = t.pc ∧ (∀ r, x.reg r = t.reg r) ∧ (∀ p, x.p p = t.p p) ∧
      (u.core n).dbg.getLsbD 30 = true ∧ bits (u.core n).dbg 24 20 = k ∧
      (∀ j, j < 20 ∨ 24 < j → j ≠ 30 → (u.core n).dbg.getLsbD j = (s.core n).dbg.getLsbD j) ∧
      u.man.written = s.man.written + (if recorded cause then 2 else 1) ∧
      u.man.history = (addRecord ⟨s.time, 0x6302, BitVec.ofNat 16 n, BitVec.ofNat 32 v.toNat⟩
        (if recorded cause then s.record code n v.toNat else s).man.history).take 4096 ∧
      ((s.man.history.filter fun r => r.time == s.time).length < 4095 → ∃ r ∈ u.man.history,
        r.code = 0x6302 ∧ r.loc = BitVec.ofNat 16 n ∧ r.time = s.time)) ∧
    (∀ j, j ≠ k → u.strand n j = s.strand n j) ∧ (∀ a, u.byte a = s.byte a)) ∧
  (∀ (s : State) (g : Guard) (k : BitVec 5), s.Issues (.trap g k) g →
    exec (.trap g k) s = .next (s.traps (.trap g k) 17 (0x0120 + k.setWidth 16) (k.setWidth 64)))

/-- R18, R340, R341: ERET takes the level and the pc back, its bit 0 clear, past the instruction for act
1; after an interrupt it clears hold, and a bare slot is free again; act 2 kills the task, or, where
the code is no fault word's, traps; act 3 traps; nothing drains. Choices of the model it rests on:
log 47. -/
def Obligations.EretReturnsOrKills : Prop :=
  ∀ (s : State) (g : Guard), s.Issues (.eret g) g →
    let w := s.me.estat
    (bits w 1 0 < 2 → w.getLsbD 6 = false → ∃ t, exec (.eret g) s = .next t ∧
      t.me.priv = w.getLsbD 4 ∧ t.me.pc = (if bits w 1 0 = 1 then s.me.epc + BitVec.ofNat 64
        (if bits w 3 2 = 0 then 2 else if bits w 3 2 = 1 then 4 else 8) else s.me.epc) &&& ~~~1 ∧
      (w.getLsbD 5 = true → t.myCore.cctl.getLsbD 0 = false) ∧
      (w.getLsbD 5 = false → t.myCore.cctl = s.myCore.cctl) ∧
      (∀ r, t.me.reg r = s.me.reg r) ∧ (∀ n, t.me.p n = s.me.p n) ∧ t.me.st = s.me.st ∧
      t.me.epc = s.me.epc ∧ t.me.estat = s.me.estat ∧ t.me.rctr = s.me.rctr ∧
      t.myCore.wb = s.myCore.wb ∧ ∀ a, t.byte a = s.byte a) ∧
    (bits w 1 0 < 2 → w.getLsbD 6 = true → ∃ t, exec (.eret g) s = .next t ∧ t.me.st = .free ∧
      t.me.flight = none ∧ (∀ r, t.me.reg r = s.me.reg r) ∧
      t.myCore.returned = true ∧ t.myCore.wb = s.myCore.wb ∧
      (w.getLsbD 5 = true → t.myCore.cctl.getLsbD 0 = false) ∧
      (w.getLsbD 5 = false → t.myCore.cctl = s.myCore.cctl)) ∧
    (bits w 1 0 = 2 → w.getLsbD 6 = true → exec (.eret g) s =
      .next ((s.opened (.eret g)).freeSlot s.issue.core s.issue.slot)) ∧
    (bits w 1 0 = 2 → w.getLsbD 6 = false →
      let code := bits s.me.cause 31 16
      (faultWordOk (BitVec.ofNat 64 code) = true → exec (.eret g) s =
        .next ((s.opened (.eret g)).killStrand s.issue.core s.issue.slot
          (BitVec.ofNat 64 (bits s.me.tval 47 0 * 2 ^ 16 + code)))) ∧
      (faultWordOk (BitVec.ofNat 64 code) = false → exec (.eret g) s =
        .next (s.traps (.eret g) 2 0x6103 (BitVec.ofNat 64 code)))) ∧
    (bits w 1 0 = 3 → exec (.eret g) s = .next (s.traps (.eret g) 2 0x6103 w))

/-- R344, R353, R48: WFI ends when an enabled interrupt is pending, TLBI invalidates what it names, and
a modifier word opens a pair of eight bytes. R349 to R351: CTXSV writes every part's image into the
reserved area, and that of part 4 into the Loom block, and takes the entries out of a queue it
saves; CTXLD loads every part back, and kills the task of a record or of a park index. No word read
is poisoned; which poisoned words trap at CTXLD, part 4's among them, is log 64's. Choices of the
model it rests on: logs 43, 44, 47, 64 and 65. -/
def Obligations.SystemInstructionsAndContextsComplete : Prop :=
  (∀ (s : State) (g : Guard) (a b : Reg) (m : MW),
    (s.Issues (.wfi g) g → s.pending s.issue.core ≠ 0 →
      exec (.wfi g) s = .next (s.opened (.wfi g)).completes) ∧
    (s.Issues (.tlbi g a b) g → s.clean [a, b] → s.me.flight = none → s.issue.core < 2304 →
      let w := s.gv b
      let t := (s.opened (.tlbi g a b)).tlbi (bits w 3 2) (bits w 1 0) (w.extractLsb' 52 12) (s.gv a)
      bits w 51 4 = 0 → bits w 3 2 ≠ 3 → bits w 1 0 ≠ 3 → t.walksLeft (bits w 3 2) = false →
      exec (.tlbi g a b) s = .next t.completes ∧
        (∀ e ∈ (t.core s.issue.core).tlb, bits w 1 0 ≠ 0 ∧
          e.named (bits w 1 0) (w.extractLsb' 52 12) (s.gv a) = false)) ∧
    (s.man.stopped = false → exec (.modifierWord m) s =
      .next { s with issue := { s.issue with mw := some m, len := 8 } })) ∧
  ((∀ (s : State) (g : Guard) (a : Reg), let i : Instr := .ctxsv g a
    let w := s.gv a
    let off := ctxOff w
    let n := ctxIndex w
    let c := s.myCore
    s.Issues i g → s.clean [a] → ctxWordOk w 7 = true → s.saveOk w = true → s.settled →
    let done := fun (t : State) => exec i s = .next t.completes
    let area := (s.opened i).saveArea off
    (ctxPart w = 0 → s.canStop s.issue.core n = true → s.strandDrained s.issue.core n = true →
      done ((s.opened i).saveStrand n off)) ∧
    (ctxPart w = 1 → c.tilePending n = false → done (area (c.tile n).image)) ∧
    (ctxPart w = 2 → done (area c.layoutImage)) ∧
    (ctxPart w = 3 → done (area (c.tagImage n))) ∧
    (ctxPart w = 4 → ∀ key b, s.myLoom = some (key, b) →
      done ((s.opened i).hbmWrite (b.off + 32) c.loom.image)) ∧
    (ctxPart w = 5 → done (area (c.loom.plane n).image)) ∧
    (ctxPart w = 6 → done (area ((c.loom.vat (n / 4)).image (n % 4)))) ∧
    (ctxPart w = 7 → (n = 0 → done ((area c.portImage).setMyCore { c with portQ := [] })) ∧
      (n = 1 → done ((area (queueImage c.deque)).setMyCore { c with deque := [] })) ∧
      (n = 2 → done ((area (queueImage c.arrivals)).setMyCore { c with arrivals := [] })))) ∧
  (∀ (s : State) (g : Guard) (a : Reg), let i : Instr := .ctxld g a
    let w := s.gv a
    let n := ctxIndex w
    let c := s.myCore
    let m := c.loom
    s.Issues i g → s.clean [a] → ctxWordOk w 9 = true → s.loadOk w = true →
    let done := fun (t : State) => exec i s = .next t.completes
    let fw : Word := BitVec.ofNat 64 (ctxCode w)
    (ctxPart w ≠ 4 → ctxPart w ≠ 9 → s.me.flight = none →
      let o := 0xF0000 + ctxOff w
      let words := wordsOf o (partBytes (ctxPart w) n)
      s.soundWords words → s.tagsReady o (partBytes (ctxPart w) n) true →
      (∀ x ∈ words, s.spadPois s.issue.core x = false) →
      let bs := s.bytes (spadKey s.issue.core o) (partBytes (ctxPart w) n)
      let ps := words.map (s.spadPois s.issue.core)
      let core := fun (c : Core) => done ((s.opened i).setMyCore c)
      let loom := fun (m : Loom) => done ((s.opened i).setLoom m)
      (ctxPart w = 0 → done ((s.opened i).loadStrand n bs ps)) ∧
      (ctxPart w = 1 → core { c with tiles := SMap.put c.tiles {} n (tileOf bs ps) }) ∧
      (ctxPart w = 2 → core (c.loadLayouts bs)) ∧
      (ctxPart w = 3 → core (c.loadTags n bs)) ∧
      (ctxPart w = 5 → loom (if n = 0 then { m with warp := planeOf bs } else { m with shadow := planeOf bs })) ∧
      (ctxPart w = 6 → let v := (m.vat (n / 4)).loadRows (n % 4) bs
        loom (if n < 4 then { m with v0 := v } else { m with v1 := v })) ∧
      (ctxPart w = 7 → (n = 0 → core (c.loadPort bs ps)) ∧ (n = 1 → core { c with deque := queueOf bs ps }) ∧
        (n = 2 → core { c with arrivals := queueOf bs ps })) ∧
      (ctxPart w = 8 → let wd := fun k => leWord ((bs.drop k).take 8)
        done ((s.opened i).killTask s.issue.core (descOf (bs.take 160)).self (wd 328)
          ((s.opened i).refreshTx (wd 336)) fw))) ∧
    (ctxPart w = 4 → ∀ key b, s.myLoom = some (key, b) →
      let r := (s.opened i).hbmRead (b.off + 32) 224
      (∀ p ∈ r.2.1, p = false) → done (r.2.2.setLoom (r.2.2.myCore.loom.loadImage r.1))) ∧
    (ctxPart w = 9 → done ((s.opened i).killParked n fw))))

/-! ### Events of cores and Reeves (spec/06, spec/18, spec/19) -/

/-- R347, R350, R336, R352: a pending interrupt of a core that has started is taken by the lowest slot
at user level, or bare in the lowest free one; the timer bit follows tcmp; a store error reaches its
strand, or, when that has gone, the core's pending bits. Choices of the model it rests on: log 44. -/
def Obligations.CoreEventsComplete : Prop :=
  ∀ (s : State) (n k : Nat), s.man.stopped = false →
    let c := s.core n
    let due := c.started = true ∧ c.cctl.getLsbD 0 = false ∧ s.pending n ≠ 0
    let v := s.pending n
    let taken := fun (t : State) => (t.strand n k).cause = 0x0301001F ∧ (t.strand n k).tval = v ∧
      (t.strand n k).priv = true ∧ (t.strand n k).pc = c.tvec &&& 0x00FFFFFFFFFFFFFE ∧
      (t.strand n k).st = .ready ∧ (t.strand n k).estat.getLsbD 5 = true ∧
      (t.core n).cctl = c.cctl ||| 1
    (due → k < 32 → (s.strand n k).eligible = true → (∀ j, j < k → (s.strand n j).eligible = false) →
      s.canStop n k = true → (s.strand n k).failed = none →
      (s.landFetch n k).lengthKnown n (s.strand n k) = true → ∃ t : State,
      exec (.interruptTaken n) s = .next t ∧ taken t ∧ (t.strand n k).estat.getLsbD 6 = false ∧
        (t.strand n k).epc = (s.strand n k).pc ∧ (∀ r, (t.strand n k).reg r = (s.strand n k).reg r) ∧
        ((s.strand n k).flight = none → ∀ a, t.byte a = s.byte a)) ∧
    (due → k < 32 → (∀ j, j < 32 → (s.strand n j).eligible = false) → s.slotFree n k = true →
      (∀ j, j < k → s.slotFree n j = false) → ∃ t : State, exec (.interruptTaken n) s = .next t ∧
      taken t ∧ (t.strand n k).estat.getLsbD 6 = true ∧ (∀ r, ((t.strand n k).reg r).v = 0) ∧
      ∀ a, t.byte a = s.byte a) ∧
    (∃ t : State, exec (.timerExpiry n) s = .next t ∧ (t.core n).ipend.getLsbD 1 = s.timerDue c ∧
      (∀ j, j ≠ 1 → (t.core n).ipend.getLsbD j = c.ipend.getLsbD j) ∧ ∀ m, m ≠ n → t.core m = s.core m) ∧
    (∀ e, s.errors.find? (fun e => e.core == n) = some e →
      ∃ t : State, exec (.storeErrorReport n) s = .next t ∧ t.errors = s.errors.erase e ∧
      (s.alive n e.slot e.inst = true → (s.strand n e.slot).err = none →
        (t.strand n e.slot).err = some (e.code, e.ea)) ∧
      (s.alive n e.slot e.inst = false → (t.core n).ipend = c.ipend ||| 0x10))

/-- R135, R137, R143, R150, R152, R156 to R160, R247, R330, R338, R346: binding of a parked task from
its record and of a fresh one from its descriptor, a prefetch of tiles, stealing, the rings, and the
making resident of a future, which an unset table has none of. The offsets in a record, the order of
a ring's entries and what becomes of a task whose record has lost data are the model's choices.
Choices of the model it rests on: logs 8, 10, 35, 36, 45, 47, 49 and 59. -/
def Obligations.TaskEventsComplete : Prop :=
  ∀ (s : State) (n : Nat), s.man.stopped = false →
    let c := s.core n
    let free := s.freeSlots n
    let i := (s.choose free.length).1
    let taken := fun (a : Bool) => (s.choose free.length).2.setCore n (c.takeTask a)
    let slot := free.getD i 0
    let cl := clusterOf n
    let fresh := fun (d : Desc) (j : Nat) (v t : State) => (t.strand n j).st = .ready ∧
      (t.strand n j).pc = evenPc (d.pc.setWidth 64) ∧ (t.strand n j).priv = false ∧
      (t.strand n j).task = d.self ∧ (t.strand n j).pred = d.pred ||| 1 ∧
      (t.strand n j).mig = d.mig ∧ (t.strand n j).prio = d.prio ∧ (t.strand n j).parent = d.parent ∧
      (∀ r : Reg, (t.strand n j).reg r =
        if r.toNat < 16 then ⟨d.carry.getD r.toNat 0, d.pois.getLsbD r.toNat⟩ else ⟨0, false⟩) ∧
      (d.ixk = 0 → (t.strand n j).snap = 0 ∧ (t.strand n j).tx = 0) ∧
      (d.ixk = 1 → (t.strand n j).snap = (SMap.get v.ver.snaps {} d.index.toNat).stamp)
    (∀ a d, s.binds n = true → free ≠ [] → c.nextTask = some (a, d) → c.landed = none →
      (d.resume = true → let o := s.parkOff cl + 384 * d.parkIndex
        s.QuietAt o 384 →
        ((∀ g ∈ gransOf o 384, s.granPois g = false) → ∃ t : State, exec (.bindTask n) s = .next t ∧
          (t.strand n slot).st = .ready ∧
          (t.strand n slot).pc = evenPc (BitVec.ofNat 64 (bits (s.word o) 55 0)) ∧
          (t.strand n slot).task = s.word (o + 16) ∧ (t.strand n slot).parent = s.word (o + 24) ∧
          (∀ r : Reg, (t.strand n slot).reg r =
            ⟨s.word (o + 32 + 8 * r.toNat), (s.word (o + 288)).getLsbD r.toNat⟩) ∧
          (t.strand n slot).pred = BitVec.ofNat 16 (leNat (s.bytes (o + 292) 2)) ||| 1 ∧
          (t.strand n slot).seed = s.word (o + 304) ∧ (t.strand n slot).rctr = s.word (o + 312) ∧
          (t.strand n slot).shape = s.word (o + 320) ∧ (t.strand n slot).snap = s.word (o + 328) ∧
          SMap.get (t.cluster cl).parked 0 d.parkIndex = 0 ∧ t.mem = s.mem) ∧
        ((∃ g ∈ gransOf o 384, s.granPois g = true) → ∃ t : State, exec (.bindTask n) s = .next t ∧
          t.strand n slot = s.strand n slot ∧ s.man.written < t.man.written ∧ t.mem = s.mem)) ∧
      (d.resume = false → d.tiles = 0 →
        (∀ v, (taken a).startFuture d.self = (true, v) → ∃ t : State, exec (.bindTask n) s = .next t ∧
          fresh d slot v t ∧ t.mem = v.mem) ∧
        (∀ v, (taken a).startFuture d.self = (false, v) → exec (.bindTask n) s =
          .next (((v.releaseDesc d).dropRef d.self).count n 7 1))) ∧
      (d.resume = false → d.tiles ≠ 0 → s.tileRoom cl d = true →
        exec (.bindTask n) s = .next ((taken a).beginPrefetch n slot d))) ∧
    (∀ j d, s.binds n = true → c.landed = some (j, d) → let u := s.setCore n (c.endPrefetch d.self)
      (∀ v, u.startFuture d.self = (true, v) → ∃ t : State, exec (.bindTask n) s = .next t ∧
        fresh d j v t ∧ t.mem = v.mem) ∧
      (∀ v, u.startFuture d.self = (false, v) → exec (.bindTask n) s =
        .next (((v.releaseDesc d).dropRef d.self).count n 7 1))) ∧
    (s.mayStealNow n = true → ∀ t, s.probes n 12 1 = (true, t) → exec (.stealRound n) s = .next t) ∧
    (s.mayStealNow n = true → ∀ t, s.probes n 12 1 = (false, t) → ∃ u : State,
      exec (.stealRound n) s = .next u ∧ (u.core n).due = t.now + (t.core n).backoff ∧
      (u.core n).backoff = min (2 * (t.core n).backoff) 4096) ∧
    (c.deque.length ≤ 16 → let k := min c.dqFill (32 - c.deque.length)
      let at_ := fun (i : Nat) => paOffset (ringPa c.dqring) + 160 * i
      (∀ i, c.dqFill - k ≤ i → i < c.dqFill → s.QuietAt (at_ i) 160 ∧
        ∀ g ∈ gransOf (at_ i) 160, s.granPois g = false) → ∃ t : State,
      exec (.dequeRefill n) s = .next t ∧ t.mem = s.mem ∧ (t.core n).dqFill = c.dqFill - k ∧
      (t.core n).deque =
        (List.range' (c.dqFill - k) k).map (fun i => descOf (s.bytes (at_ i) 160)) ++ c.deque) ∧
    (c.dqFill = 0 → exec (.dequeRefill n) s = .next s) ∧
    (∀ d t, c.arFill ≠ 0 → c.arrivals.length < 64 → s.ringGet n c.arring c.arHead = (some d, t) →
      ∃ u : State, exec (.arrivalRefill n) s = .next u ∧ (u.core n).arrivals = (t.core n).arrivals ++ [d] ∧
      (u.core n).arFill = (t.core n).arFill - 1) ∧
    (∀ d r, c.resend = d :: r → c.arrivalRoom = true →
      exec (.arrivalResend n) s = .next ((s.setCore n { c with resend := r }).arrive n d)) ∧
    (∀ cl slot, exec (.futureEntryFill cl slot) s =
      .next (if s.futBase cl = 0 then s else (s.fill cl slot).2))

/-! ### Events of memory (spec/09, spec/10, spec/11, spec/12) -/

/-- R22, R134, R203, R210, R221, R224, R253 to R255, R265, R269, R276, R386: replies reach their
strands; requests and posted stores are served at scratchpads, memory ports, the host and the device
registers; merge groups are applied; a wait for the version pool and a wait for another module end
at their limits; reservations expire; a strand hears of its transaction's doom; the Gleaner and the
commit's lines have their turns; the end of a table walk reaches all that wait for it. That a timed-
out store leaves the counts of its allowance as they are is the model's choice. R207, R224, R265 to
R267: on a line of the own HBM that is not versioned and finds nothing in its way, a strand's read
brings the bytes that stand there, and its write, its read-write or its posted store leaves the new
bytes, and no other byte changed. Choices of the model it rests on: logs 7, 47, 54 and 58. -/
def Obligations.MemoryEventsComplete : Prop :=
  (∀ (s : State) (id : Nat), s.man.stopped = false →
    (∀ r, s.replies.find? (fun r => r.id == id && decide (r.slot < 1000)) = some r →
      s.alive r.core r.slot r.inst = true → ∀ f, (s.strand r.core r.slot).flight = some f →
      f.on = .answers → 1 < f.out → ∃ t : State, exec (.loadReply id) s = .next t ∧
      (t.strand r.core r.slot).flight = some { f with got := f.got ++ [(r.elem, r.ans)], out := f.out - 1 } ∧
      t.replies = s.replies.filter (fun x => x.id != id)) ∧
    (∀ r, s.replies.find? (fun r => r.id == id && decide (r.slot < 1000)) = some r →
      s.alive r.core r.slot r.inst = true → ∀ f, (s.strand r.core r.slot).flight = some f →
      f.on = .answers → f.out = 1 → ∀ g ty d a off, f.instr = .ld g ty d a off →
      exec (.loadReply id) s =
        exec f.instr { ({ s with replies := s.replies.filter fun x => x.id != id }).setStrand r.core r.slot
          { s.strand r.core r.slot with
            flight := some { f with got := f.got ++ [(r.elem, r.ans)], out := 0 } } with
          issue := f.issue r.core r.slot }) ∧
    (∀ r, s.reqs.find? (fun r => r.id == id) = some r →
      (∀ c, r.place = .spad c → exec (.scratchpadRequest id) s = .next ((s.serveSpad c r).apply r)) ∧
      (∀ q, r.place = .port q → s.stackTraining r.addr = false → s.stackDead r.addr = false →
        (r.op.isRead = true → exec (.memoryPortRead id) s = .next ((s.serveHbm r).apply r)) ∧
        (r.op.isWrite = true → exec (.memoryPortWrite id) s = .next ((s.serveHbm r).apply r)) ∧
        (r.op.isAtomic = true → exec (.memoryPortAtomic id) s = .next ((s.serveHbm r).apply r))) ∧
      (r.place = .host →
        (r.op.isRead = true → exec (.memoryPortRead id) s = .next ((s.serveHost r).apply r)) ∧
        (r.op.isAtomic = true → exec (.memoryPortAtomic id) s = .next ((s.serveHost r).apply r))) ∧
      (r.place = .dev →
        (r.op.isRead = true → exec (.memoryPortRead id) s = .next (s.serveDev r)) ∧
        (r.op.isWrite = true → exec (.memoryPortWrite id) s = .next (s.serveDev r))) ∧
      (s.poolOver r = true →
        exec (.poolWaitTimeout id) s = .next (s.answerReq r (.trap 14 0x4809 r.ea))) ∧
      (s.lateSince r.sent = true → exec (.remoteRequestTimeout id) s = .next (s.failReq r))) ∧
    (s.reqs.find? (fun r => r.id == id) = none → ∀ c e, s.findStore id = some (c, e) →
      (s.applicable c e = true → ∀ n, e.place = .spad n → exec (.scratchpadRequest id) s =
        .next ((s.writeSpad n e.addr e.bytes e.poison).accepted c e.id)) ∧
      (s.applicable c e = true → ∀ q, e.place = .port q → s.stackTraining e.addr = false →
        s.stackDead e.addr = false →
        exec (.memoryPortWrite id) s = .next ((s.storeHbm c e).accepted c e.id)) ∧
      (s.applicable c e = true → e.place = .host →
        exec (.memoryPortWrite id) s = .next ((s.putBytes e.addr e.bytes).accepted c e.id)) ∧
      (s.lateSince e.sent = true → exec (.remoteRequestTimeout id) s =
        .next ((s.storeError c e.slot e.inst 0x6A04 e.ea).accepted c e.id))) ∧
    (∀ g, s.groups.find? (fun g => g.id == id) = some g →
      exec (.redMergeGroupApply id) s = .next (s.applyGroup g)) ∧
    (∀ r, s.expired id = some r → exec (.reservationExpiry id) s =
      .next ((({ s with resv := s.resv.erase r } : State).tally 0x0902).grant id)) ∧
    (∀ i, s.ver.notices.contains i = true → ∀ c k, s.ownerOfTx i = some (c, k) → ∃ t : State,
      exec (.doomNotice i) s = .next t ∧ t.ver.notices = s.ver.notices.filter (· != i)) ∧
    exec (.gleanerVisit id) s = .next (s.glean id) ∧
    exec (.commitExchange id) s = .next ((s.dueLines id).foldl (fun s l => s.settle l) s) ∧
    (∀ ctx (g : BitVec 40) w,
      (s.cluster id).walks.find? (fun w => w.ctx == ctx && w.granule == g.toNat) = some w →
      let k := s.cluster id
      let p := (s.setCluster id ({ k with walks := k.walks.erase w }).serveWalks).walkRoot id w.root
        (g.toNat * 2 ^ 16)
      let u := w.waiters.foldl (fun s x => s.deliverWalk ctx g.toNat p.1 x) p.2
      (∀ f, p.1 = .fault f → exec (.tableWalkComplete id ctx g) s = .next u) ∧
      (∀ l, p.1 = .leaf l → exec (.tableWalkComplete id ctx g) s =
        .next (w.prefs.foldl (fun s x => s.prefetchLine l x.va x.sup)
          (if w.stale then u else w.cores.foldl (fun s c => s.cacheLeaf ctx g.toNat l c) u))))) ∧
  (∀ (s : State) (id q : Nat), s.man.stopped = false → s.resv = [] →
    (∀ r, s.reqs.find? (fun r => r.id == id) = some r → r.place = .port q → s.stackTraining r.addr = false →
      s.stackDead r.addr = false → r.ver = false → r.pkt = none →
      let o := r.addr
      let n := r.size
      let old := leNat (s.bytes o n)
      let leaves := fun (i : Instr) (bs : List Byte) (a : Answer) => ∃ t : State, exec i s = .next t ∧
        t.bytes o bs.length = bs ∧ (∀ k, k < o ∨ o + bs.length ≤ k → t.byte k = s.byte k) ∧
        t.reqs = s.reqs.filter (fun x => x.id != r.id) ∧
        t.replies = s.replies ++ [⟨r.id, r.core, r.slot, r.inst, r.elem, a⟩]
      let word := Answer.word (BitVec.ofNat 64 old) false
      (r.op.isRead = true → s.SoundAt o n → leaves (.memoryPortRead id) (s.bytes o n)
        (.data (s.bytes o n) ((wordsOf o n).map fun x => s.granPois (x / 4)))) ∧
      (∀ bs, r.op = .write .bytes bs → s.SoundAt o bs.length →
        leaves (.memoryPortWrite id) bs (.note 0)) ∧
      (∀ bs, r.op = .write .clear bs → s.SoundAt o 128 →
        leaves (.memoryPortWrite id) (List.replicate 128 0) (.note 0)) ∧
      (∀ op w y, r.op = .amo op w y → s.CleanAt o n →
        leaves (.memoryPortAtomic id) (leBytes n (amoNew op w old y.v.toNat)) word) ∧
      (∀ w x y, r.op = .cas w x y → s.CleanAt o n → leaves (.memoryPortAtomic id)
        (leBytes n (if old = x.toNat % 2 ^ (8 * n) then y.v.toNat else old)) word)) ∧
    (s.reqs.find? (fun r => r.id == id) = none → ∀ c e, s.findStore id = some (c, e) →
      s.applicable c e = true → e.place = .port q → s.stackTraining e.addr = false →
      s.stackDead e.addr = false → e.ver = false → ∀ bs, s.SoundAt e.addr bs.length →
      e.op = .bytes ∧ e.bytes = bs ∨ e.op = .clear ∧ bs = List.replicate 128 0 → ∃ t : State,
      exec (.memoryPortWrite id) s = .next t ∧ t.bytes e.addr bs.length = bs ∧
      ∀ k, k < e.addr ∨ e.addr + bs.length ≤ k → t.byte k = s.byte k))

/-! ### Events of engines (spec/13, spec/14, spec/16) -/

/-- R299, R303, R313, R316, R323, R324, R336, R348, R354: the head of a running Loom completes, stops on
its fault with a progress record, or asks for the words it waits for; the head copy of a queue is
served; a Loom that is asked to pause is paused once no command is in progress, or, for a pause
between rows, where its head command stands; a Scrivener queue between commands shows that it is
paused. R299, R301 to R309, R314: the head command of a Loom that runs, with its rows where they can
be read or written now, is applied row by row from where its progress record says, and completes; a
marker resolves its future. Choices of the model it rests on: logs 16 and 49. -/
def Obligations.EngineEventsComplete : Prop :=
  (∀ (s : State) (n rows : Nat), s.man.stopped = false →
    let c := s.core n
    let m := s.loom n
    (∀ key b x, s.loomHead n = some (key, b, x) → s.loomReady n = true →
      let p := s.resumePoint b.off x
      let ran := fun (i : Instr) => exec i s = .next (match runLoom s x p.1 p.2 none with
        | .done t => t.loomEnds n key
        | .stop t y => (t.withdrawAsks (loomCtx n)).loomFault n key b x.word y
        | .wait ws _ _ _ => ws.foldl (fun t w => t.askRowWord n w) s)
      (∀ g f lp a o, x.instr = .wld g f lp a o → ran (.loomCmdWld n)) ∧
      (∀ g, x.instr = .wswap g → ran (.loomCmdWswap n)) ∧
      (∀ g k, x.instr = .vclr g k → ran (.loomCmdVclr n)) ∧
      (∀ g f v lp a o, x.instr = .weft g f v lp a o → ran (.loomCmdWeft n)) ∧
      (∀ g k a, x.instr = .vadd g k a → ran (.loomCmdVadd n)) ∧
      (∀ g f v lp a o, x.instr = .lgrp g f v lp a o → ran (.loomCmdLgrp n)) ∧
      (∀ g k a, x.instr = .lloop g k a → ran (.loomCmdLloop n)) ∧
      (∀ g f v a o, x.instr = .vrd g f v a o → ran (.loomCmdVrd n))) ∧
    (∀ cl q key x, s.scrHead cl q = some (key, x) →
      (x.kind = 0 → exec (.scrivenerCpy cl q) s = .next (s.serveCopy cl q key x)) ∧
      (x.kind = 1 → exec (.scrivenerCpy2 cl q) s = .next (s.serveCopy cl q key x)) ∧
      (x.kind = 2 → exec (.scrivenerCpyg cl q) s = .next (s.serveCopy cl q key x)) ∧
      (q = 24 → exec (.tilePrefetch cl) s = .next (s.serveTile cl key x))) ∧
    ((s.loom n).seq = .running → c.wantsLoomPause = true →
      (bits c.cctl 3 2 ≠ 1 →
        (s.loomMidway n = false → exec (.loomPause n rows) s =
          .next (s.putLoom n { m with seq := .paused, code := 0 })) ∧
        (s.loomMidway n = true → exec (.loomPause n rows) s = .next s)) ∧
      (bits c.cctl 3 2 = 1 →
        (s.loomHead n = none → exec (.loomPause n rows) s =
          .next (s.putLoom n { m with seq := .paused, code := 0 })) ∧
        (∀ key b x, s.loomHead n = some (key, b, x) → ∃ t : State, exec (.loomPause n 0) s = .next t ∧
          (t.loom n).seq = .paused ∧ (t.loom n).code = 0))) ∧
    (s.wantsScrPause n = true → s.scrMidway n = false → ∃ t : State, exec (.scrivenerPause n) s = .next t ∧
      (t.core n).cctl = c.cctl ||| 0x20 ∧ ∀ j, j ≠ n → t.core j = s.core j)) ∧
  (∀ (s : State) (n key : Nat) (b : Block) (c : LoomCmd), s.man.stopped = false →
    s.loomHead n = some (key, b, c) → s.loomReady n = true → s.quiet (loomCtx c.core) →
    let m := s.loom c.core
    let g := (s.resumePoint b.off c).1
    let k := (s.resumePoint b.off c).2
    let row := rowAt c.a (geoStride c.b)
    let bytes := fun (ea : Word) (len : Nat) => s.rowBytes c ea len
    let reads := fun (ea : Word) (len : Nat) => s.RowHere c .read ea len
    let ends := fun (i : Instr) (u : State) => exec i s = .next (u.loomEnds n key)
    (∀ gd f lp a o, c.instr = .wld gd f lp a o → let r := s.rowCount c.core lp (geoRows c.b)
      r ≤ loomDepth f → (∀ j, k ≤ j → j < r → reads (row j) (rowLen f)) →
      ends (.loomCmdWld n) ((List.range' k (r - k)).foldl
        (fun u j => u.loadShadow c.core f j (bytes (row j) (rowLen f)))
        (s.putLoom c.core { m with shadow := { m.shadow with
          fmt := f, count := if r = 0 then 0 else m.shadow.count } }))) ∧
    (∀ gd, c.instr = .wswap gd →
      ends (.loomCmdWswap n) (s.putLoom c.core { m with warp := m.shadow, shadow := m.warp })) ∧
    (∀ gd v, c.instr = .vclr gd v → ends (.loomCmdVclr n) (s.putVat c.core (b1 v) {})) ∧
    (∀ gd f v lp a o, c.instr = .weft gd f v lp a o → let r := s.rowCount c.core lp (geoRows c.b)
      r ≤ loomDepth f → (0 < r → f = m.warp.fmt) → r ≤ m.warp.count →
      (m.vat (b1 v)).clashes (modeOf f) = false → (∀ j, k ≤ j → j < r → reads (row j) (rowLen f)) →
      ends (.loomCmdWeft n) ((List.range' k (r - k)).foldl
        (fun u j => u.addProducts c.core f (b1 v) 0 32 j (bytes (row j) (rowLen f))) s)) ∧
    (∀ gd v a, c.instr = .vadd gd v a →
      let f : LoomFmt := if (m.vat (b1 v)).mode = .l then .f32 else .f64
      let place := fun (j : Nat) => c.a + BitVec.ofNat 64 j * BitVec.ofNat 64 (rowBytesOf f)
      (∀ j, k ≤ j → j < 32 → reads (place j) (rowBytesOf f)) →
      ends (.loomCmdVadd n) ((List.range' k (32 - k)).foldl (fun u j => u.putVat c.core (b1 v)
        (((u.loom c.core).vat (b1 v)).add (modeOf f) j 1
          (fun _ i => (bytesVals f (bytes (place j) (rowBytesOf f))).getD i .nan))) s)) ∧
    (∀ gd f v lp a o, c.instr = .lgrp gd f v lp a o →
      let r := s.rowCount c.core lp c.groups.length
      let group := fun (j : Nat) => c.groups.getD j (0, 0)
      let base := fun (j : Nat) => ((c.groups.take j).map grpRows).sum
      let rowOf := fun (j i : Nat) => rowAt (group j).1 (grpStride (group j)) i
      let first := fun (j : Nat) => if j = g then k else 0
      r ≤ c.groups.length → r ≤ 32 → (m.vat (b1 v)).clashes (modeOf f) = false →
      (∀ j, j < r → grpRows (group j) ≠ 0 → (grpK (group j) ≠ 0 → f = m.warp.fmt) ∧
        grpW0 (group j) + grpK (group j) ≤ m.warp.count ∧
        ∀ i, i < grpK (group j) → reads (rowOf j i) (rowLen f)) →
      ends (.loomCmdLgrp n) ((List.range' g (r - g)).foldl (fun u j => if grpRows (group j) = 0 then u else
        (List.range' (first j) (grpK (group j) - first j)).foldl (fun u i =>
          u.addProducts c.core f (b1 v) (base j) (grpRows (group j)) (grpW0 (group j) + i)
            (bytes (rowOf j i) (rowLen f))) u) s)) ∧
    (∀ gd i a, c.instr = .lloop gd i a → reads c.a 8 → let w := leWord (bytes c.a 8)
      bits w 63 16 = 0 →
      ends (.loomCmdLloop n) (s.putLoom c.core { m with lc := SMap.put m.lc 0 i.toNat w })) ∧
    (∀ gd f v a o, c.instr = .vrd gd f v a o → let r := geoRows c.b
      (∀ wa ∈ vrdWords c f (r - k) k, regionOf c.core (BitVec.ofNat 64 wa) ≠ .global) →
      (∀ j, k ≤ j → j < r → s.RowHere c .write (row j) (s.vrdRow c f (b1 v) j).length) →
      ends (.loomCmdVrd n) ((List.range' k (r - k)).foldl
        (fun u j => (u.writeRow c (row j) (s.vrdRow c f (b1 v) j)).2) s)) ∧
    (∀ gd a, c.instr = .lfut gd a → exec (.loomMarker n) s = .next (s.reachMarker key c) ∧
      (c.fut = 0 → s.reachMarker key c = s.loomPop key)))

/-- R319, R322, R323, R328 to R330: the head copy of a queue, with its words where they can be moved
now, moves them all and resolves its future; the tile at the head of the prefetch queue lands and is
counted, or ends its task's prefetch, or fills its words with poison when that has ended. Choices of
the model it rests on: logs 16, 48 and 49. -/
def Obligations.CopiesRun : Prop :=
  ∀ (s : State) (cl q key : Nat) (c : CopyCmd), s.man.stopped = false → s.scrHead cl q = some (key, c) →
    (s.mayStart c.fut = true →
      let t := (s.startFuture c.fut).2
      let x : CopyCtx := ⟨c.core, c.xroot, c.user, cl, q, c.fut.toNat⟩
      let near := ∀ va ∈ copyDsts c.kind c.ops, regionOf c.core (BitVec.ofNat 64 va) ≠ .global
      let ends := fun (i : Instr) (ws : List CopyWord) =>
        exec i s = .next ((t.copied x ws).copyEnds x key c.fut (8 * ws.length))
      (c.kind = 0 → near → t.CopyHere x c.emptied (copyWords 0 c.ops []) →
        ends (.scrivenerCpy cl q) (copyWords 0 c.ops [])) ∧
      (c.kind = 1 → near → t.CopyHere x c.emptied (copyWords 1 c.ops []) →
        ends (.scrivenerCpy2 cl q) (copyWords 1 c.ops [])) ∧
      (c.kind = 2 → near → let size := indexSize (opOf c.ops 3)
        let got := (indexAddrs c.ops).map (t.copyGot x size)
        let ix := got.map fun y => BitVec.ofNat 64 y.2.1
        (∀ va ∈ indexAddrs c.ops, ∃ k o, t.copySpot x .read va = (.spad k o, t) ∧
          t.takes c.emptied k o size) →
        (∀ y ∈ got, y.2.2 = false) → gatherBad x c.ops ix = none →
        t.CopyHere x c.emptied (copyWords 2 c.ops ix) →
        ends (.scrivenerCpyg cl q) (copyWords 2 c.ops ix))) ∧
    (q = 24 → let gone := ((s.spoilRest c.emptied []).scrPop key).scrServed cl 24
      ((s.core c.core).prefetchOf c.fut = none → exec (.tilePrefetch cl) s = .next gone) ∧
      ∀ d slot n, (s.core c.core).prefetchOf c.fut = some (d, slot, n) →
      let w := opOf c.ops 0
      (c.bad = true → exec (.tilePrefetch cl) s = .next (gone.prefetchFault cl c.core d 0x4C03 0)) ∧
      (c.bad = false → ∀ f, tileFault w c.tile = some f →
        exec (.tilePrefetch cl) s = .next (gone.prefetchFault cl c.core d f 0)) ∧
      (c.bad = false → ∀ e, c.tile = some e → tileFault w c.tile = none →
        let x : CopyCtx := ⟨c.core, c.xroot, true, cl, 24, 32 * c.fut.toNat + n⟩
        s.CopyHere x c.emptied (tileWords e w) →
        let u := (((s.copied x (tileWords e w)).dropAnswers x).scrPop key).scrServed cl 24
        exec (.tilePrefetch cl) s = .next (u.setCore c.core ((u.core c.core).tileLanded c.fut)) ∧
          ((u.core c.core).tileLanded c.fut).prefetchOf c.fut =
            ((u.core c.core).prefetchOf c.fut).map fun y => (y.1, y.2.1, y.2.2 + 1)))

/-! ### Dispatch (spec/20) -/

/-- R359 to R373: each packet of a ring or a buffer that passes the checks of R363, and whose turn it is
by R364 and R365, has its effect and completes, or is taken into its unit. R359, R363, R370, R376: a
packet that fails the checks of R363, one of an unknown opcode without skip among them, and one that
is read with poison, stops its queue at it. Choices of the model it rests on: logs 11 and 52. -/
def Obligations.PacketsComplete : Prop :=
  (∀ (s : State) (q : Nat) (c : Cur) (ws : List Word) (t : State), s.man.stopped = false →
    s.headPacket q = some (c, ws, false, t) → (hdrFence ws = true → t.allDone q c = true) →
    let d2 := ws.getD 2 0
    let d3 := ws.getD 3 0
    let code := t.packetCode ws c
    let op := hdrOp ws
    (op = 2 → code = 0 → let f := bits d2 9 0
      let n := bits d2 31 16
      (t.disp.copies.any fun j => j.q == q && j.era == (t.queue q).era) = false → (t.feed f).en = true →
      ((t.feed f).ftail - (t.feed f).fhead).toNat + n ≤ 2 ^ (t.feed f).f → exec (.feed q) s =
        .next (((t.appendRecords f ((ws.drop 3).take n)).feedPoppers f (t.feed f).poppers.length).finishPacket
          q c ws (1 + hdrExt ws) 0 (BitVec.ofNat 64 n))) ∧
    (op = 4 → code = 0 →
      (t.semHolds (t.jobOf q c ws) = true →
        exec (.semwait q) s = .next (t.finishPacket q c ws 1 0 0)) ∧
      (t.semHolds (t.jobOf q c ws) = false → ∃ u : State, exec (.semwait q) s = .next u ∧
        u.disp.semwaits = t.disp.semwaits ++ [t.jobOf q c ws])) ∧
    (op = 5 → code = 0 → t.allDone q c = true → let i := bits d2 11 0
      let v := match bits d2 17 16 with
        | 0 => d3
        | 1 => t.sem i + d3
        | _ => if (t.sem i).toNat < d3.toNat then d3 else t.sem i
      exec (.semsig q) s = .next ((t.setSem i v).finishPacket q c ws 1 0 0)) ∧
    (op = 6 → code = 0 → s.readyFutwait q = none → exec (.futwait q) s =
      .next ((t.passPacket q c 1).registerFutwait (t.jobOf q c ws))) ∧
    (op = 7 → code = 0 → t.allDone q c = true →
      (d2.getLsbD 8 = false → exec (.intr q) s = .next ((t.setDisp { t.disp with
        msix := t.disp.msix ++ [((t.queue q).fn, bits d2 5 0)] }).finishPacket q c ws 1 0 0)) ∧
      (d2.getLsbD 8 = true → exec (.intr q) s =
        .next ((t.requestCores (d3.toNat + bits (ws.getD 4 0) 31 0 * 2 ^ 64)).finishPacket q c ws 1 0 0))) ∧
    (op = 8 → code = 0 → ∃ u : State, exec (.indirect q) s = .next u ∧ ∃ x, (u.queue q).inds.getLast? = some x ∧
      x.pa = d2.toNat ∧ x.count = bits d3 12 0 ∧ x.idx = 0 ∧ x.pkt = c.pkt) ∧
    (op = 9 → code = 0 → t.allDone q c = true →
      exec (.fencePacket q) s = .next (t.finishPacket q c ws 1 0 0)) ∧
    (op = 0 ∨ 9 < op → code = 0x0406 → exec (.unknownOpcode q) s =
      .next ((t.record 0x0406 0x09F0 q).finishPacket q c ws 1 0x0406 0)) ∧
    (op = 1 ∨ op = 3 → code = 0 → let u := t.epoch q
      let x := u.queue q
      x.admits = true → u.disp.ready = [] → u.disp.heap.length < 256 → ∃ v : State, exec (.heapAdmit q) s = .next v ∧
        (v.queue q).adm = x.adm + 1 ∧ v.disp.heap.length = u.disp.heap.length + 1 ∧
        ∀ j ∈ u.disp.heap, j ∈ v.disp.heap)) ∧
  (∀ (s : State) (q : Nat) (c : Cur) (ws : List Word) (p : Bool) (t : State), s.man.stopped = false →
    s.headPacket q = some (c, ws, p, t) →
    let h := ws.getD 0 0
    let op := bits h 7 0
    let code := t.packetCode ws c
    let stops := fun (i : Instr) =>
      let halts := fun (x : Code) => ∃ u : State, exec i s = .next u ∧ (u.queue q).state = 2 ∧
        (u.queue q).code = x ∧ (u.queue q).pkt = c.pkt ∧ (u.queue q).head = (s.queue q).head ∧
        (u.queue q).done = (s.queue q).done ∧ s.man.written < u.man.written
      (p = true → s.stackDead (paOffset c.pa) = false → halts 0x4405) ∧
      (p = false → code ≠ 0 → code ≠ 0x0406 → halts code)
    (bits h 31 24 ≠ 0 ∨ bits h 15 11 ≠ 0 ∨ (bits h 23 16 ≠ 0 ∧ op ≠ 2) → code = 0x6401) ∧
    (bits h 31 24 = 0 → bits h 15 11 = 0 → (bits h 23 16 = 0 ∨ op = 2) → op = 0 ∨ 9 < op →
      code = if h.getLsbD 8 then 0x0406 else 0x6402) ∧
    (op = 0 ∨ 9 < op → stops (.unknownOpcode q)) ∧ (op = 1 ∨ op = 3 → stops (.heapAdmit q)) ∧
    (op = 2 → stops (.feed q)) ∧ (op = 4 → stops (.semwait q)) ∧ (op = 5 → stops (.semsig q)) ∧
    (op = 6 → s.readyFutwait q = none → stops (.futwait q)) ∧ (op = 7 → stops (.intr q)) ∧
    (op = 8 → stops (.indirect q)) ∧ (op = 9 → stops (.fencePacket q)))

/-- R359, R366 to R369: the deadline heap gives up its best entry, launches are placed and end with
their root's outcome, a COPY ends with its length, and a read of a ring, or by a COPY, in host
memory may fail. Choices of the model it rests on: logs 11, 48, 50 and 52. -/
def Obligations.TakenPacketsComplete : Prop :=
  ∀ (s : State) (q : Nat) (j : Job), s.man.stopped = false →
    (s.heapBest = some j → exec .heapTake s = .next (s.takeJob j)) ∧
    (s.disp.launches.find? (fun j => j.seq == q && j.fut.isSome) = some j → ∀ v ok,
      s.rootOutcome (j.fut.getD 0) = some (v, ok) → exec (.launchComplete q) s =
        .next (((s.setDisp { s.disp with launches := s.disp.launches.filter fun x => x.seq != q }).completePacket
          j.q j.era j.pkt j.inner j.words 1 (if ok then 0 else v.setWidth 16) v).dropRef (j.fut.getD 0))) ∧
    (s.disp.copies.find? (fun j => j.seq == q) = some j → exec (.copy q) s = .next (s.runPaCopy j)) ∧
    (s.disp.copies.find? (fun j => j.seq == q) = some j →
      let d := fun i => (j.words.getD i 0).toNat
      let n := d 4 / 8
      (∀ i, i < n → (∃ x, s.placeOf (d 3 + 8 * i) = .port x) ∧ (∃ x, s.placeOf (d 2 + 8 * i) = .port x) ∧
        s.CleanAt (paOffset (d 3 + 8 * i)) 8 ∧ s.stackDead (paOffset (d 3 + 8 * i)) = false ∧
        s.stackDead (paOffset (d 2 + 8 * i)) = false) →
      let u := (List.range n).foldl (fun u i => u.cacheAccess (paOffset (d 3 + 8 * i))) s
      let v := (List.range n).foldl (fun v i =>
        v.dispWrite (d 2 + 8 * i) (s.bytes (paOffset (d 3 + 8 * i)) 8)) u
      exec (.copy q) s = .next (({ v with fresh := v.fresh + n }.dropCopyJob j).completePacket j.q j.era j.pkt
        j.inner j.words 1 0 (j.words.getD 4 0))) ∧
    (∀ i, (i = .launch q ∧ s.disp.launches.find? (fun j => j.seq == q && j.fut.isNone && j.ans.isNone) = some j) ∨
        (i = .launchPlacement q ∧
          s.disp.launches.find? (fun j => j.seq == q && j.fut.isNone && j.ans.isSome) = some j) →
      let x := bits (j.words.getD 3 0) 7 0
      let waits := exec i s = .next (s.setLaunch { j with ans := some (0, false) })
      (x = 0xFF → s.anyCluster = none → waits) ∧
      (x ≠ 0xFF → s.drainState x = 3 → exec i s = .next ((s.setDisp { s.disp with
        launches := s.disp.launches.filter fun y => y.seq != j.seq }).stopQueue j.q j.era j.pkt j.inner
          (some j.words) 0x640A 0 (0, 1) true)) ∧
      (x ≠ 0xFF → s.drainState x ≠ 3 → s.drainState x ≠ 0 ∨ s.dieReady x = false → waits) ∧
      ∀ cl, ((x = 0xFF ∧ s.anyCluster = some cl) ∨
          (x ≠ 0xFF ∧ x = cl ∧ s.drainState cl = 0 ∧ s.dieReady cl = true)) →
        ((s.core (s.freeCore cl)).dequeRoom = false → waits) ∧
        ((s.core (s.freeCore cl)).dequeRoom = true → ∀ t, s.allocate cl 0 = (none, t) →
          exec i s = .next (t.setLaunch { j with ans := some (0, false) })) ∧
        ((s.core (s.freeCore cl)).dequeRoom = true → ∀ h t, s.allocate cl 0 = (some h, t) → exec i s =
          .next ((t.pushDeque (s.freeCore cl) (rootDesc j.words h)).setLaunch { j with fut := some h }))) ∧
    (∀ c, s.current q = some c → inHost (paOffset c.pa) = true → s.hostCopy q = none → ∃ v : Word,
      ∀ u : State, u = { s with fresh := s.fresh + 1 } → exec (.hostReadTimeout q) s =
        .next (u.stopQueue q (s.queue q).era c.pkt c.inner (some [v]) 0x2501 0 (c.skips 1) c.again)) ∧
    (s.hostCopy q = some j → s.hostPacket q = none → exec (.hostReadTimeout q) s =
      .next ((s.setDisp { s.disp with copies := s.disp.copies.filter fun y => y.seq != j.seq }).stopQueue j.q
        j.era j.pkt j.inner (some j.words) 0x2501 0 (0, 1) true))

/-- R358, R360, R370 to R372: what an owner and Laninak write in queue and feed blocks and semaphores.
Choices of the model it rests on: logs 15 and 51. -/
def Obligations.QueueWritesComplete : Prop :=
  ∀ (s : State) (who : Agent) (q : Nat) (v : Word), s.man.stopped = false →
    let x := s.queue q
    let kept := fun (t : State) => t.mem = s.mem ∧ t.cores = s.cores
    (who.fn = some x.fn →
      (bits v 63 32 = 0 → x.state ≠ 0 → ((v.setWidth 32 : BitVec 32) - x.head).toNat ≤ 2 ^ x.s →
        ∃ t : State, exec (.tailWrite who q 8 v) s = .next t ∧ (t.queue q).tail = v.setWidth 32 ∧
          (t.queue q).head = x.head ∧ kept t) ∧
      (bits v 63 32 = 0 → x.state ≠ 0 → 2 ^ x.s < ((v.setWidth 32 : BitVec 32) - x.head).toNat →
        x.state = 1 → ∃ t : State, exec (.tailWrite who q 8 v) s = .next t ∧ (t.queue q).state = 2 ∧
          (t.queue q).code = 0x6403 ∧ (t.queue q).tail = x.tail) ∧
      (x.state = 2 → x.inBuf = false → ∃ t : State, exec (.queueSkip who q) s = .next t ∧
        (t.queue q).state = 1 ∧ (t.queue q).head = x.head + BitVec.ofNat 32 x.skip.1 ∧
        (t.queue q).done = x.done + BitVec.ofNat 32 x.skip.2 ∧ kept t) ∧
      (x.state = 2 → ∃ t : State, exec (.queueRetry who q) s = .next t ∧ (t.queue q).state = 1 ∧
        (t.queue q).head = x.head ∧ (t.queue q).done =
          x.done - (if x.taken && !x.inBuf && decide (x.skip.2 = 0) then 1 else 0) ∧ kept t) ∧
      (x.state = 2 → x.inds = [] → ∃ t : State, exec (.queueReset who q) s = .next t ∧
        (t.queue q).state = 1 ∧ (t.queue q).head = x.tail ∧ kept t)) ∧
    (who = .laninak → let w := v ||| 0x200000000
      s.badWord4 q w = false → x.en = false → ∃ t : State, exec (.queueEnable who q v) s = .next t ∧
        (t.queue q).en = true ∧ (t.queue q).state = 1 ∧ (t.queue q).head = 0 ∧ (t.queue q).done = 0 ∧
        (t.queue q).tail = 0 ∧ (t.queue q).fn = bits w 40 34 ∧ (t.queue q).budget = bits w 63 48 ∧ kept t) ∧
    (who = .laninak → let w := v &&& ~~~0x200000000
      s.badWord4 q w = false → x.en = true → x.inds = [] → ∃ t : State,
        exec (.queueDisable who q v) s = .next t ∧ (t.queue q).en = false ∧ (t.queue q).state = 0 ∧
        kept t) ∧
    (who = .pf ∨ who = .sup ∨ who = .user → ∃ t : State,
      exec (.semaphoreWrite who q 8 v) s = .next t ∧ t.sem q = v) ∧
    (who = .laninak → s.badFeedWord (v ||| 0x8000000000000000) = false → (s.feed q).en = false →
      ∃ t : State, exec (.feedQueueEnable who q v) s = .next t ∧ (t.feed q).en = true ∧
        (t.feed q).ftail = 0 ∧ (t.feed q).fhead = 0 ∧ (t.feed q).f = bits v 4 0 ∧ kept t) ∧
    (who = .laninak → s.badFeedWord (v &&& ~~~0x8000000000000000) = false → (s.feed q).en = true →
      (s.feed q).poppers = [] → ∃ t : State, exec (.feedQueueDisable who q v) s = .next t ∧
        (t.feed q).en = false ∧ (t.feed q).fhead = (s.feed q).ftail ∧ kept t)

/-! ### The fabric (spec/21) -/

/-- R207, R265, R269, R386: packets for this module act at their home ports as the accesses they carry,
and a future request acts at its table port; each is answered. The places of the operands, SCH
packets that store nothing, and the codes of future requests are log 11's. R207, R265 to R267, R273
to R275, R379: on a line of the own HBM that is not versioned and finds nothing in its way, a
packet's read brings the bytes that stand there, and its write or read-write leaves the new bytes,
and no other byte changed; the answer sets out. Choices of the model it rests on: log 11. -/
def Obligations.FabricRequestsComplete : Prop :=
  (∀ (s : State) (p : Packet), s.man.stopped = false → p.dst = s.modNo →
    let place := s.placeOf p.pa
    let o := paOffset p.pa
    let served := fun (i : Instr) (op : ReqOp) (n : Nat) => ∀ q, place = .port q →
      s.stackTraining o = false → s.stackDead o = false →
      let r : Req :=
        { id := s.nextId, core := p.party, slot := (p.arg 2).toNat, inst := (p.arg 3).toNat, elem := 0,
          place := place, op := op, addr := o, pa := p.pa, ea := 0, size := n,
          ver := p.arg 0 == 1, snap := 0, tx := 0, oflag := false, since := 0, cyc := s.now, pool := none, sent := none,
          pkt := some p }
      exec i s = .next ((State.serveHbm { s with nextId := s.nextId + 1, reqs := s.reqs ++ [r] } r).apply r)
    (p.op = .read → served (.fabricRead p) .load p.bytes.length) ∧
    (p.op = .write → served (.fabricWrite p) (.write .bytes p.data) p.bytes.length) ∧
    (p.op = .amo → ∀ op, amoOpOf (p.aux.toNat / 2 % 16) = some op →
      served (.fabricAmo p) (.amo op (p.aux.getLsbD 0) ⟨p.arg 4, false⟩) (if p.aux.getLsbD 0 then 4 else 8)) ∧
    (p.op = .cas → served (.fabricCas p) (.cas (p.aux.getLsbD 0) (p.arg 4) ⟨p.arg 5, false⟩)
      (if p.aux.getLsbD 0 then 4 else 8)) ∧
    (p.op = .red → ∀ op, redOpOf (p.aux.toNat / 2 % 16) = some op → p.arg 0 ≠ 1 → inHbm o = true →
      s.stackTraining o = false → s.stackDead o = false → exec (.fabricRed p) s =
        .next (s.joinRed o op (p.aux.getLsbD 0)
          ⟨p.arg 4, p.party, (p.arg 2).toNat, (p.arg 3).toNat, 0, some p⟩)) ∧
    (p.op = .lrw → served (.fabricLrw p) .lrw 8) ∧
    (p.op = .sch → p.arg 4 ≠ 1 → p.arg 4 ≠ 2 → served (.fabricSch p) (.sch (p.arg 5)) 8) ∧
    (p.op = .sch → s.queuedLrw p = none →
      (p.arg 4 = 1 → exec (.fabricSch p) s = .next (s.releaseLines p.party (p.arg 2).toNat (p.arg 3).toNat
        (· == p.line.toNat))) ∧
      (p.arg 4 = 2 → exec (.fabricSch p) s = .next s)) ∧
    (p.op = .sch → ∀ r, s.queuedLrw p = some r → let t : State :=
        { s with resv := s.resv.filter fun x => x.req != some r.id, reqs := s.reqs.filter fun x => x.id != r.id }
      (p.arg 4 = 1 → exec (.fabricSch p) s = .next t) ∧
      (p.arg 4 = 2 → exec (.fabricSch p) s = .next (t.answerReq r (.note 5)))) ∧
    (p.op = .xrdXclr → p.arg 4 ≠ 1 → served (.fabricXrdXclr p) .xrd 128) ∧
    (p.op = .xrdXclr → p.arg 4 = 1 → served (.fabricXrdXclr p) (.write .clear []) 128) ∧
    (p.op = .futReq → let code := (p.arg 4).toNat
      let x := s.futureRequest code (p.arg 5) (p.arg 6) (p.arg 7)
      let y := s.barrierRequest p.pa code (p.arg 5) (p.arg 6) (p.arg 7)
      (code < 14 → exec (.fabricFutureRequest p) s = .next (x.2.emit (answerPacket p 0 x.1))) ∧
      (14 ≤ code → exec (.fabricFutureRequest p) s = .next (y.2.emit (answerPacket p 0 y.1))))) ∧
  (∀ (s : State) (p : Packet) (q : Nat), s.man.stopped = false → p.dst = s.modNo →
    s.placeOf p.pa = .port q → s.stackTraining (paOffset p.pa) = false →
    s.stackDead (paOffset p.pa) = false → p.arg 0 ≠ 1 → (∀ r ∈ s.reqs, r.op ≠ .lrw) →
    let o := paOffset p.pa
    let w := p.aux.getLsbD 0
    let n := if w then 4 else 8
    let old := leNat (s.bytes o n)
    let answers := fun (t : State) (a : Answer) => t.fabricOut = (s.emit (answerPacket p o a)).fabricOut
    let leaves := fun (i : Instr) (bs : List Byte) (a : Answer) => ∃ t : State, exec i s = .next t ∧
      t.bytes o bs.length = bs ∧ (∀ k, k < o ∨ o + bs.length ≤ k → t.byte k = s.byte k) ∧ answers t a
    let word := Answer.word (BitVec.ofNat 64 old) false
    (s.resv = [] →
    (p.op = .read → s.SoundAt o p.bytes.length → leaves (.fabricRead p) (s.bytes o p.bytes.length)
      (.data (s.bytes o p.bytes.length) ((wordsOf o p.bytes.length).map fun x => s.granPois (x / 4)))) ∧
    (p.op = .write → p.poison = 0 → p.off < 128 →
      p.bytes.map (·.1) = (List.range p.bytes.length).map (p.off + ·) →
      s.SoundAt o p.bytes.length → leaves (.fabricWrite p) p.data (.note 0)) ∧
    (p.op = .amo → ∀ op, amoOpOf (p.aux.toNat / 2 % 16) = some op → s.CleanAt o n →
      leaves (.fabricAmo p) (leBytes n (amoNew op w old (p.arg 4).toNat)) word) ∧
    (p.op = .cas → s.CleanAt o n → leaves (.fabricCas p)
      (leBytes n (if old = (p.arg 4).toNat % 2 ^ (8 * n) then (p.arg 5).toNat else old)) word) ∧
    (p.op = .lrw → s.SoundAt o 8 → (∀ r ∈ s.reqs, r.id ≠ s.nextId) → ∃ t : State,
      exec (.fabricLrw p) s = .next t ∧ t.mem = s.mem ∧
      t.resv = [⟨s.ownPa o / 128, p.party, (p.arg 2).toNat, (p.arg 3).toNat, none, some s.now, true⟩] ∧
      answers t (.data (s.bytes o 8) ((wordsOf o 8).map fun x => s.granPois (x / 4)))) ∧
    (p.op = .sch → p.arg 4 ≠ 1 → p.arg 4 ≠ 2 → s.SoundAt o 8 →
      leaves (.fabricSch p) (s.bytes o 8) (.pred false)) ∧
    (p.op = .xrdXclr → p.arg 4 ≠ 1 → s.SoundAt o 128 → leaves (.fabricXrdXclr p) (s.bytes o 128)
      (.data (s.bytes o 128) ((wordsOf o 128).map fun x => s.granPois (x / 4)))) ∧
    (p.op = .xrdXclr → p.arg 4 = 1 → s.SoundAt o 128 →
      leaves (.fabricXrdXclr p) (List.replicate 128 0) (.note 0))) ∧
    (p.op = .sch → p.arg 4 ≠ 1 → p.arg 4 ≠ 2 → s.SoundAt o 8 → ∀ x : Resv, s.resv = [x] →
      x.line = s.ownPa o / 128 → x.core = p.party → x.slot = (p.arg 2).toNat → x.inst = (p.arg 3).toNat →
      x.req = none → x.granted.isSome = true → x.intact = true → ∃ t : State,
      exec (.fabricSch p) s = .next t ∧ t.bytes o 8 = leBytes 8 (p.arg 5).toNat ∧
      (∀ k, k < o ∨ o + 8 ≤ k → t.byte k = s.byte k) ∧ t.resv = [] ∧ answers t (.pred true)))

/-- R153, R173, R255, R386, R390, R391: a delivery writes the park record that its token names, where
that waits on the object it is of, and no other; the release of a barrier's waiter is answered with
the record's link or with its failure; replies reach what waits for them; an acknowledgement accepts
the stores it names and raises the allowance, an error reply ends its request; a strand that has
waited 1,024 cycles for its allowance parks with wait kind 4. The places of the operands, the answer
to a release, and the slot number of requests that no strand waits for are log 11's. Choices of the
model it rests on: log 11. -/
def Obligations.FabricRepliesComplete : Prop :=
  ∀ (s : State) (p : Packet), s.man.stopped = false →
    (p.dst = s.modNo →
      let t := p.arg 4
      let pa := bits t 55 0
      let o := paOffset pa
      let u := s.meetTail t
      let ends := fun (v : State) (a : Answer) => exec (.fabricFutureDelivery p) s =
        .next (if p.arg 8 = 2 then v.emit (answerPacket p 0 a) else v)
      (p.op = .futDel → o < 2 ^ 46 → ∀ cl idx, u.parkOf pa = some (cl, idx) → u.parkingSoon cl idx = false →
        (u.waitsOn pa (p.arg 8).toNat (p.arg 7) = true → ends (u.deliverRecord pa (p.arg 5 == 2) (p.arg 6))
          (.data (leBytes 8 (u.seenWord (o + 352)).toNat) [false])) ∧
        (u.waitsOn pa (p.arg 8).toNat (p.arg 7) = false → ends u (.note 2))) ∧
      (p.op = .futDel → 2 ^ 46 ≤ o → o < 2 ^ 46 + 2 ^ 45 → ∀ v,
        u.deliverSlot (o % 2 ^ 17 / 32) (o % 32) t (p.arg 5) (p.arg 6) = some v →
        ends v (.data (leBytes 8 0) [false])) ∧
      (p.op = .readReply → ∀ r, s.reqOf p = some r →
        (r.slot ≠ errandSlot → exec (.fabricReadReply p) s = .next (s.answerReq r (answerOf r p))) ∧
        (r.slot = errandSlot → r.pkt = none →
          exec (.fabricReadReply p) s = .next (s.endErrand r (answerOf r p)))) ∧
      (p.op = .ack → p.args = [] → ∀ r, s.reqOf p = some r → r.op.isWrite = true → r.slot ≠ errandSlot →
        exec (.fabricAck p) s =
          .next ((s.sectorsDone p.sclus p.src.toNat p.path 1 p.mark).answerReq r (.note 0))) ∧
      (p.op = .ack → s.reqOf p = none → ∀ c e l, p.args = [] → s.storesOf p p.tag = (c, e) :: l →
        exec (.fabricAck p) s = .next (((c, e) :: l).foldl (fun s x => s.accepted x.1 x.2.id)
          (s.sectorsDone p.sclus p.src.toNat p.path (l.length + 1) p.mark))) ∧
      (p.op = .ack → ∀ k r e c, p.args = [k] → s.reqOf p = some r → r.op.isWrite = true →
        r.slot ≠ errandSlot → s.reqNamed p k.toNat = none → s.storesOf p k.toNat = [(c, e)] → exec (.fabricAck p) s =
          .next (((s.sectorsDone p.sclus p.src.toNat p.path 2 p.mark).answerReq r (.note 0)).accepted c e.id)) ∧
      (p.op = .error → p.args.drop 3 = [] →
        (∀ r, s.reqOf p = some r → r.op.isWrite = false → errorCode p ≠ 0x4809 →
          exec (.fabricErrorReply p) s = .next (s.failReq r)) ∧
        (∀ r, s.reqOf p = some r → r.slot ≠ errandSlot → (r.op.isWrite = true → exec (.fabricErrorReply p) s =
          .next ((s.sectorsDone p.sclus p.src.toNat p.path 1 p.mark).answerReq r
            (.trap (if errorCode p = 0x4809 then 14 else 16) (errorCode p) r.ea))) ∧
          (r.op.isWrite = false → errorCode p = 0x4809 → exec (.fabricErrorReply p) s =
            .next (s.answerReq r (.trap 14 0x4809 r.ea)))) ∧
        (s.reqOf p = none → ∀ c e, s.storesOf p p.tag = [(c, e)] →
          exec (.fabricErrorReply p) s =
            .next ((s.sectorsDone p.sclus p.src.toNat p.path 1 p.mark).failStore c e (errorCode p))))) ∧
    (∀ n k f m, s.lateAllowance n k = some (f, m) → ∀ idx t, s.takePark n = some (idx, t) →
      let u := { t with issue := f.issue n k }
      let x := u.cluster (clusterOf n)
      let rows := (x.nextOrder * 512 + m) * 65536 + u.me.rowsPosted
      exec (.allowancePark n k) s = .next ((u.setCluster (clusterOf n)
        { x with parkRows := SMap.put x.parkRows 0 idx rows }).parkAs idx u.me.pc
          { kind := 4, obj := BitVec.ofNat 64 m }))

/-- R381 to R387, R404: a packet for another module goes on one hop level higher or is discarded; a link
falls, its packets lost, and comes up, a feature word is kept in its route word, and a die boundary
fails; the ready bit of the last link, or of the boundary, falls with it. Choices of the model it
rests on: logs 54 and 60. -/
def Obligations.LinksAndForwardingComplete : Prop :=
  ∀ (s : State) (p : Packet) (l : Nat) (m : BitVec 9) (w : BitVec 16), s.man.stopped = false →
    (p.dst ≠ s.modNo → 5 ≤ p.hop ∨ s.forwardPath p = none → exec (.packetForward p) s =
      .next (s.record 0x6A05 0xFFFF 0)) ∧
    (p.dst ≠ s.modNo → p.hop < 5 → ∀ q, s.forwardPath p = some q →
      let link := pathLink (s.route p.dst.toNat) q
      (∀ x ∈ s.fabricOut, x.1 ≠ link) → ∃ (t : State) (b : Bool), exec (.packetForward p) s = .next t ∧
      t.fabricOut = s.fabricOut ++
        [(link, { p with hop := p.hop + 1, mark := p.mark || (p.isRequest && b) })] ∧
      t.mem = s.mem ∧ t.cores = s.cores) ∧
    (l < 36 → s.linkUp l = true → ∃ t : State, exec (.linkDown l) s = .next t ∧ (t.link l).state = 1 ∧
      (t.link l).errors = (s.link l).errors ∧ t.man.history = (s.record 0x4A02 (0x09B0 + l) 0).man.history ∧
      t.fabricOut = s.fabricOut.filter (fun x => x.1 != l) ∧ (∀ j, j ≠ l → t.link j = s.link j) ∧
      (t.man.ready.getLsbD 18 = true ↔
        s.man.ready.getLsbD 18 = true ∧ ∃ j, j < 36 ∧ j ≠ l ∧ s.linkUp j = true) ∧
      ∀ b, b ≠ 18 → t.man.ready.getLsbD b = s.man.ready.getLsbD b) ∧
    (l < 36 → s.linkUp l = false → s.feature 1 = true → s.man.running = true → ∃ t : State, exec (.linkUp l) s = .next t ∧
      (t.link l).state = 2 ∧
      (t.link l).retrains = (s.link l).retrains + (if (s.link l).state = 1 then 1 else 0)) ∧
    (∃ t : State, exec (.featureWordAnnounce m w) s = .next t ∧
      (t.route m.toNat).extractLsb' 48 16 = w ∧
      (t.route m.toNat).extractLsb' 0 48 = (s.route m.toNat).extractLsb' 0 48 ∧
      ∀ k, k ≠ m.toNat → t.route k = s.route k) ∧
    (l < 4 → ∃ t : State, exec (.dieBoundaryFailure l) s = .next t ∧
      (SMap.get t.man.boundaries {} l).state = 2 ∧
      t.man.history = (s.record 0x8A01 (0x09A0 + l) 0).man.history ∧
      t.man.ready.getLsbD (14 + l) = false ∧
      ∀ b, b ≠ 14 + l → t.man.ready.getLsbD b = s.man.ready.getLsbD b)

/-! ### Registers and the module (spec/22, spec/23, spec/24) -/

/-- R213, R242, R382, R397 to R400, R405, R410: what the agents that may write the device registers
write there, that a write by any other is refused and recorded, and that a read from outside is
answered. R354, R397: the debug word of a core halts a slot at once when nothing is in flight to its
strand, resumes it, clears the double trap and asks the engines to be quiet. Choices of the model it
rests on: log 54. -/
def Obligations.RegisterAndDebugWritesComplete : Prop :=
  (∀ (s : State) (n : Nat) (v : Word), s.man.stopped = false →
    let kept := fun (t : State) => t.mem = s.mem ∧ ∀ m, t.core m = s.core m
    (n ≠ s.modNo.toNat → (∀ p, p < 4 → badPath v p = false) → ∃ t : State,
      exec (.routeWordWrite .pf n 8 v) s = .next t ∧ (t.route n).extractLsb' 0 48 = v.extractLsb' 0 48 ∧
      (t.route n).extractLsb' 48 16 = (s.route n).extractLsb' 48 16) ∧
    (∀ w, w < 16 → let other := SMap.get (s.port n).range 0 (if w % 2 = 0 then w + 1 else w - 1)
      (if w % 2 = 0 then badRange v other else badRange other v) = false → ∃ t : State,
      exec (.rangeRegisterWrite .pf n w 8 v) s = .next t ∧ SMap.get (t.port n).range 0 w = v ∧
      SMap.get (t.port n).cnt 0 (w / 2) = 0 ∧ kept t) ∧
    (s.badPool 2 v = false → ∃ t : State, exec (.versionPoolWrite .pf 2 8 v) s = .next t ∧
      t.ver.vpbase = v ∧ t.ver.vpcount = s.ver.vpcount ∧ t.ver.pool = [] ∧ kept t) ∧
    (s.badPool 3 v = false → ∃ t : State, exec (.versionPoolWrite .pf 3 8 v) s = .next t ∧
      t.ver.vpcount = v ∧ t.ver.vpbase = s.ver.vpbase ∧ t.ver.pool = [] ∧ kept t) ∧
    (s.badDrain 0x100 v = false → ∃ t : State, exec (.drainWrite .pf 0x100 v) s = .next t ∧
      t.man.drainModule = v.toNat % 4 ∧ kept t) ∧
    (s.man.lock = false → v &&& ~~~0x7F = 0 → ∃ t : State, exec (.featureAcceptWrite .pf 0 v) s = .next t ∧
      t.man.lock = true ∧ t.man.accept = s.man.accept ||| v.setWidth 256 ∧ kept t) ∧
    (s.man.running = true → bits v 63 4 = 0 → ∃ t : State, exec (.dieStart .pf v) s = .next t ∧
      t.man.start = s.man.start ||| v.setWidth 4 ∧
      ∀ d m, d < 4 → v.getLsbD d = true → s.man.start.getLsbD d = false → m / 576 = d →
        (t.core m).started = true ∧ (t.core m).xroot = s.man.broot ∧ (t.core m).tvec = s.man.bvec ∧
        (t.core m).cctl = 1 ∧ (t.strand m 0).pc = s.man.bvec &&& 0x00FFFFFFFFFFFFFE ∧
        (t.strand m 0).priv = true ∧ (t.strand m 0).estat.getLsbD 5 = true ∧
        (t.strand m 0).estat.getLsbD 6 = true ∧ (t.strand m 0).cause = 0x0301001F) ∧
    (∃ t : State, exec (.interruptWordWrite .pf n) s = .next t ∧ (t.core n).ipend = (s.core n).ipend ||| 1 ∧
      t.mem = s.mem ∧ ∀ m, m ≠ n → t.core m = s.core m) ∧
    (∀ off, barReaches .pf off = true → (∃ c, devObj off = .census c) ∨ devObj off = .hole → ∃ t : State,
      exec (.registerWrite .pf off 8 (leBytes 8 v.toNat)) s = .next t ∧
      t = s.record 0x0D05 0xFFFF ((off - devBase) % 2 ^ 32)) ∧
    (∀ off i, devObj off = .sem i → off % 8 = 0 →
      exec (.registerWrite .pf off 8 (leBytes 8 v.toNat)) s = .next (s.setSem i v)) ∧
    (∀ (x : HostRead) (l : List HostRead), s.hostReads = x :: l →
      (barReach x.who x.at_ = none → takeHostRead s = .next { s with hostReads := l }) ∧
      (∀ o, barReach x.who x.at_ = some o → ∃ t : State, takeHostRead s = .next t ∧ t.hostReads = l ∧
        t.hostAnswers =
          s.hostAnswers ++ [(x, (State.devRead { s with hostReads := l } x.who o x.bytes).1)])) ∧
    (∀ who : Agent, who ≠ .pf → exec (.routeWordWrite who n 8 v) s =
      .next (s.record 0x0D05 0xFFFF (0x800000 + 8 * n)))) ∧
  (∀ (s : State) (n k : Nat), s.man.stopped = false → k < 32 →
    let w := (s.core n).dbg
    (s.canStop n k = true → (s.strand n k).st = .ready → (s.strand n k).flight = none →
      (∀ j, j < 32 → w.getLsbD (32 + j) = false) → ∃ t : State,
      exec (.debugHalt .pf n k) s = .next t ∧ (t.strand n k).st = .halted ∧
      (t.strand n k).pc = (s.strand n k).pc ∧ (t.core n).dbg.getLsbD (32 + k) = true ∧ t.mem = s.mem) ∧
    ((s.strand n k).st = .halted → w.getLsbD (32 + k) = true →
      (∀ j, j < 32 → j ≠ k → w.getLsbD (32 + j) = false) → ∃ t : State,
      exec (.debugResume .pf n k) s = .next t ∧ (t.strand n k).st = .ready ∧
      (t.strand n k).pc = (s.strand n k).pc ∧ (t.core n).dbg.getLsbD (32 + k) = false ∧ t.mem = s.mem) ∧
    ((∀ j, j < 32 → w.getLsbD (32 + j) = false) →
      (∃ t : State, exec (.debugDtrapClear .pf n) s = .next t ∧ (t.core n).dbg.getLsbD 30 = false ∧
        bits (t.core n).dbg 24 20 = bits w 24 20 ∧ t.mem = s.mem) ∧
      (∀ sq lq, ∃ t : State, exec (.debugQuiesce .pf n sq lq) s = .next t ∧
        (t.core n).dbg.getLsbD 3 = sq ∧ (t.core n).dbg.getLsbD 2 = lq ∧
        (t.core n).dbg.getLsbD 31 = w.getLsbD 31 ∧ t.mem = s.mem)))

/-- R404, R411 to R415: the boot ROM, firmware, the ready bits, attestation, the thermal envelope, a
stack's failure and a module's reset. Choices of the model it rests on: logs 13, 14 and 54. -/
def Obligations.ModuleEventsComplete : Prop :=
  ∀ (s : State) (image : List Byte), s.man.stopped = false →
    let fresh := s.man.running = false ∧ s.man.mgmtOnly = false
    let kept := fun (t : State) => t.mem = s.mem ∧ t.cores = s.cores
    let spdm := fun (i : Instr) (code : Nat) (body : List Byte) => s.man.ready.getLsbD 20 = true →
      ∃ t : State, exec i s = .next t ∧ t.man.spdm = s.man.spdm ++ [Config.spdmBody code body] ∧ kept t
    (fresh → imageGood s.man.image = true → ∃ t : State, exec .powerOn s = .next t ∧
      t.man.running = true ∧ t.man.mgmtOnly = false ∧ kept t) ∧
    (fresh → imageGood s.man.image = false → ∃ t : State, exec .powerOn s = .next t ∧
      t.man.running = false ∧ t.man.mgmtOnly = true ∧
      t.man.history = (s.record 0x8D02 0xFFFF 0).man.history ∧ kept t) ∧
    (s.man.mgmtOnly = true → imageGood image = true → ∃ t : State,
      exec (.firmwareLoad image) s = .next t ∧ t.man.image = image ∧ t.man.running = true ∧ kept t) ∧
    (Config.minVersion ≤ Config.imageVersion image → ∃ t : State,
      exec (.firmwareUpdate image) s = .next t ∧ t.man.update = some image ∧
      t.man.image = s.man.image ∧ kept t) ∧
    (Config.imageVersion image < Config.minVersion →
      exec (.firmwareUpdate image) s = .next (s.record 0x0D03 0xFFFF 0)) ∧
    (∀ b, b < 21 → s.mayReady b = true → ∃ t : State, exec (.functionReady b) s = .next t ∧
      t.man.ready.getLsbD b = true ∧ (∀ j, j ≠ b → t.man.ready.getLsbD j = s.man.ready.getLsbD j) ∧
      kept t) ∧
    spdm (.spdmGetVersion image) 0x84 image ∧ spdm (.spdmGetCapabilities image) 0xE1 image ∧
    spdm (.spdmNegotiateAlgorithms image) 0xE3 image ∧ spdm (.spdmGetDigests image) 0x81 image ∧
    spdm (.spdmGetCertificate image) 0x82 image ∧ spdm (.spdmChallenge image) 0x83 image ∧
    spdm (.spdmGetMeasurements image) 0xE0 (image ++ s.measured) ∧
    (s.man.throttled = false → ∃ t : State, exec .thermalThrottleBegin s = .next t ∧
      t.man.throttled = true ∧ t.man.history = (s.record 0x0E01 0xFFFF 0).man.history ∧ kept t) ∧
    (s.man.throttled = true → ∃ t : State, exec .thermalThrottleEnd s = .next t ∧
      t.man.throttled = false ∧ t.man.history = (s.record 0x0E02 0xFFFF 0).man.history ∧ kept t) ∧
    (∃ t : State, exec .thermalShutdown s = .next t ∧ t.man.stopped = true ∧
      t.man.history = (s.record 0x8E03 0xFFFF 0).man.history ∧ kept t ∧
      ∀ i, i ≠ .moduleReset → step { t with inbox := [i] } = .fault .moduleStopped) ∧
    (∀ k, k < 8 → ∃ t : State, exec (.hbmStackFailure k) s = .next t ∧ (t.stack k).state = 2 ∧
      (∀ j, j ≠ k → t.stack j = s.stack j) ∧ t.man.ready.getLsbD (6 + k) = false ∧
      (∀ b, b ≠ 6 + k → t.man.ready.getLsbD b = s.man.ready.getLsbD b) ∧ kept t) ∧
    (∃ t : State, exec .moduleReset s = .next t ∧ t.man.ready = 0 ∧ t.man.running = false ∧
      t.man.image = s.man.update.getD s.man.image ∧ t.modNo = s.modNo ∧ t.mem = s.mem ∧
      t.cores = State.reset.cores)

/-! ### Faults (spec/00, spec/18, spec/23) -/

/-- R14, R16, R333, R402: a fault code's class names its subsystem, and classes 0 and 15 to 31 name none; a
summary carries the highest grade of its entries; an event enters the history, which stands newest first
and, at one device time, greatest code first; a trap enters it but for causes 17, 18 and 31. -/
def Obligations.FaultsAreRecordedAndGraded : Prop :=
  let before := fun (x y : FaultRec) => y.time < x.time ∨ (x.time = y.time ∧ y.code ≤ x.code)
  (∀ c : Code, codeGrade c = c.toNat / 2 ^ 13 ∧ codeClass c = c.toNat / 2 ^ 8 % 32 ∧
    (codeSubsystem c = none ↔ codeClass c = 0 ∨ 15 ≤ codeClass c)) ∧
  (∀ l : List FaultRec, l ≠ [] → (∃ r ∈ l, codeGrade r.code = gradeSummary l) ∧
    ∀ r ∈ l, codeGrade r.code ≤ gradeSummary l) ∧
  (codeGrade 0x2105 = 1 ∧ codeSubsystem 0x2105 = some .strand ∧ codeGrade 0x4A02 = 2 ∧
    codeSubsystem 0x4A02 = some .fabric ∧
    ∀ a b : FaultRec, a.code = 0x2105 → b.code = 0x4A02 → gradeSummary [a, b] = 2) ∧
  (∀ (r : FaultRec) (l : List FaultRec), (addRecord r l).Perm (r :: l) ∧
    (l.Pairwise before → (∀ x ∈ l, x.time ≤ r.time) → (addRecord r l).Pairwise before)) ∧
  (∀ (s : State) (code : Code) (loc v : Nat), let t := s.record code loc v
    t.man.history = (addRecord ⟨s.time, code, BitVec.ofNat 16 loc, BitVec.ofNat 32 v⟩
      s.man.history).take 4096 ∧
    t.man.written = s.man.written + 1 ∧ t.mem = s.mem ∧ t.cores = s.cores) ∧
  (∀ (s : State) (n k : Nat) (cause : BitVec 5) (code : Code) (v pc : Word) (len : Nat),
    ((s.strand n k).priv = true → (s.strand n k).estat.getLsbD 7 = true) →
    (s.trap n k cause code v pc len).man.history =
      if cause = 17 ∨ cause = 18 ∨ cause = 31 then s.man.history
      else (s.record code n v.toNat).man.history)

/-! ### The machine as a whole (spec/01, spec/02, spec/18, spec/23) -/

/-- R38, R39, R41, R132: in a cycle in which one strand can issue and nothing else can happen, a step
fetches at its pc, decodes, and executes what it decodes, and the census is brought up to date (R402, R403); a
strand whose instruction could not issue stands again as old as it was. A halfword fetched afresh is memory's.
Choices of the model it rests on: logs 6 and 9. -/
def Obligations.StepRunsDecoded : Prop :=
  (∀ (s : State) (core slot : Nat), s.man.stopped = false → s.stir.forced = none →
    s.stir.issues = [(core, slot)] → s.stir.events = [] → s.inbox = [] → s.hostReads = [] →
    s.stir.training = false ∨ s.stir.does (fun s => s.issueSlot core slot) = true →
    (∀ t, s.stir.issueSlot core slot = .next t → ∃ u : State, step s = .next u ∧
      u = { t with man := { t.man with gen := u.man.gen, updated := u.man.updated } } ∧
      (t.man.gen ≠ s.man.gen ∨ t.censusBody = s.censusBody → u = t)) ∧
    (∀ f, s.stir.issueSlot core slot = .fault f → step s = .fault f) ∧
    ∀ f, s.stir.issueSlot core slot = .refused f → step s = .refused f) ∧
  (∀ (s t : State) (core slot : Nat), (t.strand core slot).unissued = false →
    s.ifIssued core slot (.next t) = .next t) ∧
  (∀ (s : State) (core slot : Nat) (bs : List Byte) (u : Unit32) (t : State),
    let x := s.atSlot core slot
    x.me.flight = none → x.me.failed = none → x.me.err = none →
    x.fetchUnit (s.strand core slot).pc [] none 5 = .ok bs t → decodeBytes bs = .ok u →
    let y := t.issuing u.len (refusedBits bs) u.instr
    (u.mw = none → s.issueSlot core slot = s.ifIssued core slot (exec u.instr y)) ∧
    (∀ m, u.mw = some m → t.man.stopped = false →
      s.issueSlot core slot = s.ifIssued core slot
        (exec u.instr { y with issue := { y.issue with mw := some m, len := 8 } }))) ∧
  (∀ (s : State) (a : Word) (l : Leaf) (q : Nat), regionClass a = 0 →
    rootEn s.myCore.xroot = true → s.translation (granuleOf a) = some (.leaf l) →
    l.permits .fetch s.me.priv = true → let pa := l.paOf a.toNat
    pa % 2 = 0 → s.paFault pa = false → s.placeOf pa = .port q → s.groups = [] →
    SMap.get s.myCore.icache [] (pa / 128) = [] → ∃ (x : Sector) (t : State),
      s.fetchHalf a none = .ok (s.byte (paOffset pa)) (s.byte (paOffset pa + 1)) x t)

/-- R41 to R56: words written out from the encoding tables and worked examples of spec/02, spec/04 and the
programs decode to the instructions they stand for. -/
def Obligations.WordsDecode : Prop :=
  let p := always
  decode16 0x08A4 = .ok (.addC16 0 4 5) ∧ decode16 0x1232 = .ok (.addiC16 0 9 1) ∧
  decode32 0xFF486005 = .ok (.addi p 6 4 (-3)) ∧ decode32 0x0862300F = .ok (.cmp p .lt 3 6 4) ∧
  decode32 0x04D241B3 = .ok (.st ⟨3, false⟩ .n64 4 9 2) ∧
  decode32 0x24924023 = .ok (.fins p 4 9 2 1) ∧ decode32 0xC0C6002F = .ok (.swrp p 3 3) ∧
  decode32 0x000A703F = .ok (.spawn p 7 5) ∧ decode32 0x0008A041 = .ok (.cpy p 10 4) ∧
  decode32 0x12060057 = .ok (.shape p 9 3 0) ∧ decode32 0x08042051 = .ok (.tredAdd p 2 1) ∧
  decode32 0xC950603B = .ok (.amo p true .fadd 6 8 5) ∧ decode32 0x10000059 = .ok (.eret p) ∧
  decode32 0x00000001 = .error .major

/-- R56: decoding a well-formed instruction's encoding gives it back, with every operand. -/
def Obligations.DecodingInvertsEncoding : Prop :=
  ∀ (i : Instr) (e : Encoded), i.wf = true → encode i = some e → decodeEncoded e = .ok i

/-- R46, R55, R56: a word that decodes is the encoding of what it decodes to: no reserved bit is set and
no two words stand for one instruction. -/
def Obligations.DecodedWordsAreEncodings : Prop :=
  (∀ (w : BitVec 32) (i : Instr), fld w 1 6 ≠ 63 → decode32 w = .ok i →
    w.getLsbD 0 = true → encode i = some (.w w) ∧ i.wf = true) ∧
  (∀ (w : BitVec 16) (i : Instr), decode16 w = .ok i → w.getLsbD 0 = false →
    encode i = some (.h w) ∧ i.wf = true)

/-- Memory's canonical form is kept by every step (the model's own representation of the memories of R34, log 1). -/
def Obligations.StepKeepsMemoryForm : Prop :=
  ∀ s t : State, s.Inv → step s = .next t → t.Inv

/-- Memory has its canonical form at reset (log 1). -/
def Obligations.ResetMemoryForm : Prop := State.reset.Inv

/-- R336, R382, R385, R390, R404, R410, R414: what reset leaves: every core and cluster waits to be
started, with no block set; no ready bit, no accepted feature, no route, every link down, and no
firmware that runs. Choices of the model it rests on: log 2. -/
def Obligations.ResetLeaves : Prop :=
  let s := State.reset
  (∀ n, (s.core n).started = false ∧ (s.core n).loomblk = 0 ∧ (s.core n).scrblk = 0 ∧
    (s.core n).ipend = 0 ∧ (s.core n).tcmp = 0 ∧ (s.core n).cctl = 0 ∧
    ∀ k, (s.strand n k).st = .free) ∧
  (∀ c, (s.cluster c).reeveblk = 0 ∧ (s.cluster c).parkbase = 0 ∧ (s.cluster c).futbase = 0) ∧
  s.man.ready = 0 ∧ s.man.accept = 0 ∧ s.man.lock = false ∧ s.man.start = 0 ∧
  (∀ m, s.route m = 0) ∧ (∀ c m, (s.allow c m).w = 64 ∧ (s.allow c m).n = 0 ∧ (s.allow c m).c = 0) ∧
  (∀ q, (s.queue q).en = false ∧ (s.queue q).state = 0) ∧ (∀ l, s.linkUp l = false) ∧
  (∀ i, s.sem i = 0) ∧ s.ver.vpcount = 0 ∧ s.man.running = false

/-- R19, R20, R170: a result reads back from the register it was written to, with its poison; p[n] is bit n of
the predicate word, p0 reads 1 and a write to it is discarded; in port mode a write to g31 goes to the core
downstream, and no register changes. -/
def Obligations.ResultsReadBack : Prop :=
  (∀ (s : State) (i : Instr) (d : Reg) (v : Word) (b : Bool), let t := s.gives i d v b
    t.me.pc = s.nextPc ∧ t.me.st = .ready ∧
    (s.me.pmode = false ∨ d ≠ 31 → t.me.reg d = ⟨v, b⟩ ∧ ∀ r, r ≠ d → t.me.reg r = s.me.reg r) ∧
    (s.me.pmode = true → d = 31 → s.issue.core ≠ downstream s.issue.core →
      (t.core (downstream s.issue.core)).portQ =
        (s.core (downstream s.issue.core)).portQ ++ [⟨v, b⟩] ∧ ∀ r, t.me.reg r = s.me.reg r) ∧
    (s.me.pmode = true → (named i).1.contains 30 = true → d ≠ 31 →
      t.myCore.portQ = s.myCore.portQ.drop 1)) ∧
  (∀ (s : State) (i : Instr) (n : Pred) (b : Bool), let t := s.sets i n b
    t.me.pc = s.nextPc ∧ t.me.p 0 = true ∧ (n ≠ 0 → t.me.p n = b ∧ t.me.pred.getLsbD n.toNat = b) ∧
    (n = 0 → t.me.pred = s.me.pred) ∧ (∀ m, m ≠ n → t.me.p m = s.me.p m) ∧
    (∀ m, m ≠ 0 → s.me.p m = s.me.pred.getLsbD m.toNat) ∧ ∀ r, t.me.reg r = s.me.reg r)

/-- R21, R33, R410: every instruction with a guard that fails only advances the pc: beside the model's own record
of what issues it changes nothing else; every supervisor instruction takes a privilege trap at user level and
changes nothing, whatever its guard says and whether or not a modifier word stands before it; and every
instruction of a feature not accepted takes an illegal-instruction trap, at either level. -/
def Obligations.GuardsLevelsAndFeatures : Prop :=
  ∀ (s : State) (i : Instr), s.man.stopped = false →
    let trapped := fun (t : State) (cause : Word) => t.me.cause = cause ∧ t.me.tval = s.issue.word ∧
      t.me.epc = s.me.pc ∧ t.me.priv = true ∧ t.me.pc = s.myCore.tvec &&& 0x00FFFFFFFFFFFFFE ∧
      t.me.estat.getLsbD 4 = s.me.priv ∧ (∀ r, t.me.reg r = s.me.reg r) ∧ (∀ n, t.me.p n = s.me.p n) ∧
      t.mem = s.mem
    (∀ g, i.guardOf = some g → featureOk s i = true → (i.supervisor = true → s.me.priv = true) →
      (s.issue.mw.any (fun m => m.rm == 5) = true → s.feature 5 = true) → s.passes g = false →
      ∃ j : Instr, exec i s =
        .next (State.retire { s with issue := { s.issue with instr := j, pops := false } } s.nextPc)) ∧
    (i.supervisor = true → s.me.priv = false → featureOk s i = true →
      (s.issue.mw.any (fun m => m.rm == 5) = true → s.feature 5 = true) →
      ∃ t : State, exec i s = .next t ∧ trapped t 0x61020001) ∧
    (featureOk s i = false → s.me.priv = false ∨ s.me.estat.getLsbD 7 = true →
      ∃ t : State, exec i s = .next t ∧ trapped t 0x61010000) ∧
    (featureOk s i = false → s.me.priv = true → s.me.estat.getLsbD 7 = false → ∃ t : State,
      exec i s = .next t ∧ t.me.st = .halted ∧ t.myCore.dbg.getLsbD 30 = true ∧
      (∀ r, t.me.reg r = s.me.reg r) ∧ t.mem = s.mem)

/-! ### Frames -/

/-- R21, R77, R80, R87: a register-only scalar instruction changes, of the registers, tiles, memory, buffers and
queues that `Keeps` names, its destination registers and predicates alone, but for sr.rctr, which a draw in
mode 5 advances, the words it takes from and pushes into ports in port mode, and, where it traps, the trap
registers and the level of its own strand; at user level those stand as long as the level does. The same holds
of FUNPACK with its group of destinations, and of SHAPE and SWR with the one register that each writes (sr.pred,
sr.seed, sr.rctr, sr.shape, or sr.slotsize with the tag table). -/
def Obligations.ScalarInstructionsChangeTheirDestinationsAlone : Prop :=
  ∀ (s t : State),
    let frame := fun (i : Instr) (u : State) (rs : List Reg) (ps : List Pred) => exec i s = .next t →
      Keeps u t rs ps ∧ (s.me.priv = false → t.me.priv = false → KeepsTrapState s t)
    (∀ (i : Instr) (rs : List Reg) (ps : List Pred), i.targets = some (rs, ps) → frame i s rs ps) ∧
    (∀ (g : Guard) (d a : Reg) (lay : BitVec 4),
      frame (.funpack g d a lay) s (Reg.group d (s.members lay).length) []) ∧
    (∀ (g : Guard) (f : BitVec 4) (c : BitVec 8) (r : BitVec 5),
      frame (.shape g f c r) (s.withUserReg t 0x06) [] []) ∧
    (∀ (g : Guard) (n : BitVec 8) (a : Reg), frame (.swr g n a) (s.withUserReg t n.toNat) [] [])

/-- R107 to R109, R224: a load leaves every byte of memory, and every register but its destinations. -/
def Obligations.LoadsChangeTheirDestinationsAlone : Prop :=
  ∀ (i : Instr) (s t : State) (rs : List Reg),
    (∃ g ty d a off, i = .ld g ty d a off ∧ rs = [d]) ∨ (∃ g ty d a b, i = .ldIndexed g ty d a b ∧ rs = [d]) ∨
    (∃ g d a off, i = .ldp g d a off ∧ rs = [d, Reg.plus d 1]) ∨ (∃ n d a, i = .ldN64C16 n d a ∧
      rs = [compactReg d]) ∨ (∃ g d a, i = .ldaN64 g d a ∧ rs = [d]) ∨
    (∃ g d a, i = .ldaN32 g d a ∧ rs = [d]) →
    exec i s = .next t → (∀ k, t.byte k = s.byte k) ∧ (∀ r, r ∉ rs → t.me.reg r = s.me.reg r) ∧
      (∀ n, t.me.p n = s.me.p n) ∧ t.me.shape = s.me.shape ∧ t.me.snap = s.me.snap ∧
      t.me.tx = s.me.tx ∧ t.me.task = s.me.task ∧ t.me.seed = s.me.seed ∧
      (t.core s.issue.core).tiles = (s.core s.issue.core).tiles

/-- R107 to R109, R224: a store changes no register, and at once only the bytes it stores in its own
scratchpad: those that `ea` and its width name. One to any other place is posted, and changes no byte
yet. -/
def Obligations.StoresChangeTheirBytesAlone : Prop :=
  ∀ (i : Instr) (s t : State) (ea : Word) (n : Nat),
    (∃ g ty d a off, i = .st g ty d a off ∧ ea = s.offsetEa a off (stSize ty) ∧
      n = stSize ty) ∨
    (∃ g ty d a b, i = .stIndexed g ty d a b ∧ ea = s.gv a + s.gv b ∧ n = stSize ty) ∨
    (∃ g d a off, i = .stp g d a off ∧ ea = s.offsetEa a off 16 ∧ n = 16) →
    exec i s = .next t →
      (∀ k, (∀ o j, regionOf s.issue.core ea = .spad s.issue.core o → j < n →
        k ≠ spadKey s.issue.core (o + j)) → t.byte k = s.byte k) ∧
      (∀ r, t.me.reg r = s.me.reg r) ∧ (∀ m, t.me.p m = s.me.p m) ∧ t.me.shape = s.me.shape ∧
      t.me.snap = s.me.snap ∧ t.me.tx = s.me.tx ∧ t.me.task = s.me.task ∧ t.me.seed = s.me.seed ∧
      (t.core s.issue.core).tiles = (s.core s.issue.core).tiles

/-- R117 to R130: a tile instruction that names no memory changes tiles it names, and nothing of memory,
of the general registers, of the predicates, of the shape, or of another core's tiles. -/
def Obligations.TileInstructionsChangeTheirTilesAlone : Prop :=
  ∀ (i : Instr) (s t : State) (ts : List TReg), i.tilesNamed = some ts → exec i s = .next t →
    (∀ u, u ∉ ts → t.tile u = s.tile u) ∧ (∀ k, t.byte k = s.byte k) ∧
    (∀ r, t.me.reg r = s.me.reg r) ∧ (∀ n, t.me.p n = s.me.p n) ∧ t.me.shape = s.me.shape ∧
    t.me.snap = s.me.snap ∧ t.me.tx = s.me.tx ∧ t.me.task = s.me.task ∧
    (∀ c, c ≠ s.issue.core → (t.core c).tiles = (s.core c).tiles) ∧
    ∀ c, (t.core c).tvec = (s.core c).tvec ∧ (t.core c).xroot = (s.core c).xroot ∧
      (t.core c).cctl = (s.core c).cctl
end

