-- ==== Sys2Proof/Laws/SMap.lean ====
section
/-! SUPPORT. Sparse maps: what reads after a write, and that a write keeps the canonical form. -/

namespace Sys2Proof.Machine

variable {α : Type}

theorem SMap.get_del_self (m : SMap α) (d : α) (k : Nat) : SMap.get (SMap.del m k) d k = d := by
  induction m with
  | nil => rfl
  | cons e r ih =>
    obtain ⟨j, w⟩ := e
    simp only [SMap.del]
    split
    · exact ih
    · simp only [SMap.get]; split <;> simp_all

theorem SMap.get_del_of_ne (m : SMap α) (d : α) {k j : Nat} (h : j ≠ k) :
    SMap.get (SMap.del m k) d j = SMap.get m d j := by
  induction m with
  | nil => rfl
  | cons e r ih =>
    obtain ⟨i, w⟩ := e
    simp only [SMap.del, SMap.get]
    split
    · rw [ih]; split <;> simp_all
    · simp only [SMap.get]; split <;> simp_all

theorem SMap.get_ins_of_ne (m : SMap α) (d v : α) {k j : Nat} (h : j ≠ k) :
    SMap.get (SMap.ins m k v) d j = SMap.get m d j := by
  induction m with
  | nil => simp [SMap.ins, SMap.get, h.symm]
  | cons e r ih =>
    obtain ⟨i, w⟩ := e
    simp only [SMap.ins]
    split
    · simp [SMap.get, h.symm]
    · simp only [SMap.get, ih]

theorem SMap.get_ins_self (m : SMap α) (d v : α) {k : Nat} (h : ∀ e ∈ m, e.1 ≠ k) :
    SMap.get (SMap.ins m k v) d k = v := by
  induction m with
  | nil => simp [SMap.ins, SMap.get]
  | cons e r ih =>
    obtain ⟨i, w⟩ := e
    have hi : i ≠ k := h (i, w) (by simp)
    simp only [SMap.ins]
    split
    · simp [SMap.get]
    · simp only [SMap.get, if_neg hi]; exact ih fun e he => h e (by simp [he])

theorem SMap.key_of_mem_del {m : SMap α} {k : Nat} {e : Nat × α} (h : e ∈ SMap.del m k) :
    e.1 ≠ k ∧ e ∈ m := by
  induction m with
  | nil => simp [SMap.del] at h
  | cons x r ih =>
    obtain ⟨i, w⟩ := x
    simp only [SMap.del] at h
    split at h
    · exact ⟨(ih h).1, by simp [(ih h).2]⟩
    · rcases List.mem_cons.mp h with rfl | h
      · exact ⟨‹_›, by simp⟩
      · exact ⟨(ih h).1, by simp [(ih h).2]⟩

/-- A read after a write. -/
theorem SMap.get_put [DecidableEq α] (m : SMap α) (d v : α) (k j : Nat) :
    SMap.get (SMap.put m d k v) d j = if j = k then v else SMap.get m d j := by
  unfold SMap.put
  by_cases h : j = k
  · subst h
    split
    · simp_all [SMap.get_del_self]
    · simp [SMap.get_ins_self _ _ _ fun e he => (SMap.key_of_mem_del he).1]
  · split <;> simp [SMap.get_ins_of_ne, SMap.get_del_of_ne, h]

@[simp] theorem SMap.get_put_self [DecidableEq α] (m : SMap α) (d v : α) (k : Nat) :
    SMap.get (SMap.put m d k v) d k = v := by simp [SMap.get_put]

theorem SMap.get_put_of_ne [DecidableEq α] (m : SMap α) (d v : α) {k j : Nat} (h : j ≠ k) :
    SMap.get (SMap.put m d k v) d j = SMap.get m d j := by simp [SMap.get_put, h]

theorem SMap.above_iff {m : SMap α} {k : Nat} : SMap.above m k = true ↔ ∀ e ∈ m, k < e.1 := by
  simp [SMap.above]

theorem SMap.wf_cons [DecidableEq α] {m : SMap α} {d v : α} {k : Nat} :
    SMap.wf ((k, v) :: m) d = true ↔ (∀ e ∈ m, k < e.1) ∧ v ≠ d ∧ SMap.wf m d = true := by
  simp [SMap.wf, SMap.above_iff, and_assoc]

theorem SMap.wf_del [DecidableEq α] {m : SMap α} {d : α} (k : Nat) (h : SMap.wf m d = true) :
    SMap.wf (SMap.del m k) d = true := by
  induction m with
  | nil => exact h
  | cons x r ih =>
    obtain ⟨i, w⟩ := x
    obtain ⟨ha, hv, hr⟩ := SMap.wf_cons.mp h
    simp only [SMap.del]
    split
    · exact ih hr
    · exact SMap.wf_cons.mpr ⟨fun e he => ha e (SMap.key_of_mem_del he).2, hv, ih hr⟩

theorem SMap.mem_ins {m : SMap α} {k : Nat} {v : α} {e : Nat × α} (h : e ∈ SMap.ins m k v) :
    e = (k, v) ∨ e ∈ m := by
  induction m with
  | nil => simpa [SMap.ins] using h
  | cons x r ih =>
    obtain ⟨i, w⟩ := x
    simp only [SMap.ins] at h
    split at h
    · simpa using h
    · rcases List.mem_cons.mp h with rfl | h
      · simp
      · rcases ih h with h | h <;> simp [h]

theorem SMap.wf_ins [DecidableEq α] {m : SMap α} {d v : α} {k : Nat} (h : SMap.wf m d = true)
    (hk : ∀ e ∈ m, e.1 ≠ k) (hv : v ≠ d) : SMap.wf (SMap.ins m k v) d = true := by
  induction m with
  | nil => simp [SMap.ins, SMap.wf, SMap.above, hv]
  | cons x r ih =>
    obtain ⟨i, w⟩ := x
    obtain ⟨ha, hw, hr⟩ := SMap.wf_cons.mp h
    have hi : i ≠ k := hk (i, w) (by simp)
    simp only [SMap.ins]
    split
    · rename_i hlt
      refine SMap.wf_cons.mpr ⟨?_, hv, h⟩
      intro e he
      rcases List.mem_cons.mp he with rfl | he
      · exact hlt
      · exact Nat.lt_trans hlt (ha e he)
    · refine SMap.wf_cons.mpr ⟨?_, hw, ih hr fun e he => hk e (by simp [he])⟩
      intro e he
      rcases SMap.mem_ins he with rfl | he
      · simp only; omega
      · exact ha e he

/-- A write keeps the canonical form. -/
theorem SMap.wf_put [DecidableEq α] {m : SMap α} {d : α} (k : Nat) (v : α) (h : SMap.wf m d = true) :
    SMap.wf (SMap.put m d k v) d = true := by
  unfold SMap.put
  split
  · exact SMap.wf_del k h
  · exact SMap.wf_ins (SMap.wf_del k h) (fun e he => (SMap.key_of_mem_del he).1) ‹_›

end Sys2Proof.Machine
end

