-- ==== Sys2Proof/Laws/State.lean ====
section
/-! SUPPORT. What each update of the state leaves alone, field by field, and what the parts of the
state read after it. -/

namespace Sys2Proof.Machine

variable (s : State)

/-! ### setCore -/

@[simp] theorem State.setCore_modNo (n : Nat) (c : Core) : (s.setCore n c).modNo = s.modNo := rfl
@[simp] theorem State.setCore_now (n : Nat) (c : Core) : (s.setCore n c).now = s.now := rfl
@[simp] theorem State.setCore_issue (n : Nat) (c : Core) : (s.setCore n c).issue = s.issue := rfl
@[simp] theorem State.setCore_fresh (n : Nat) (c : Core) : (s.setCore n c).fresh = s.fresh := rfl
@[simp] theorem State.setCore_nextId (n : Nat) (c : Core) : (s.setCore n c).nextId = s.nextId := rfl
@[simp] theorem State.setCore_inbox (n : Nat) (c : Core) : (s.setCore n c).inbox = s.inbox := rfl
@[simp] theorem State.setCore_hostReads (n : Nat) (c : Core) :
    (s.setCore n c).hostReads = s.hostReads := rfl
@[simp] theorem State.setCore_hostAnswers (n : Nat) (c : Core) :
    (s.setCore n c).hostAnswers = s.hostAnswers := rfl
@[simp] theorem State.setCore_mem (n : Nat) (c : Core) : (s.setCore n c).mem = s.mem := rfl
@[simp] theorem State.setCore_hbmPoison (n : Nat) (c : Core) :
    (s.setCore n c).hbmPoison = s.hbmPoison := rfl
@[simp] theorem State.setCore_spadPoison (n : Nat) (c : Core) :
    (s.setCore n c).spadPoison = s.spadPoison := rfl
@[simp] theorem State.setCore_empty (n : Nat) (c : Core) : (s.setCore n c).empty = s.empty := rfl
@[simp] theorem State.setCore_latent (n : Nat) (c : Core) : (s.setCore n c).latent = s.latent := rfl
@[simp] theorem State.setCore_clusters (n : Nat) (c : Core) :
    (s.setCore n c).clusters = s.clusters := rfl
@[simp] theorem State.setCore_ports (n : Nat) (c : Core) : (s.setCore n c).ports = s.ports := rfl
@[simp] theorem State.setCore_reqs (n : Nat) (c : Core) : (s.setCore n c).reqs = s.reqs := rfl
@[simp] theorem State.setCore_replies (n : Nat) (c : Core) :
    (s.setCore n c).replies = s.replies := rfl
@[simp] theorem State.setCore_slotWaits (n : Nat) (c : Core) :
    (s.setCore n c).slotWaits = s.slotWaits := rfl
@[simp] theorem State.setCore_groups (n : Nat) (c : Core) : (s.setCore n c).groups = s.groups := rfl
@[simp] theorem State.setCore_resv (n : Nat) (c : Core) : (s.setCore n c).resv = s.resv := rfl
@[simp] theorem State.setCore_errors (n : Nat) (c : Core) : (s.setCore n c).errors = s.errors := rfl
@[simp] theorem State.setCore_ver (n : Nat) (c : Core) : (s.setCore n c).ver = s.ver := rfl
@[simp] theorem State.setCore_loomQ (n : Nat) (c : Core) : (s.setCore n c).loomQ = s.loomQ := rfl
@[simp] theorem State.setCore_scrQ (n : Nat) (c : Core) : (s.setCore n c).scrQ = s.scrQ := rfl
@[simp] theorem State.setCore_disp (n : Nat) (c : Core) : (s.setCore n c).disp = s.disp := rfl
@[simp] theorem State.setCore_routes (n : Nat) (c : Core) : (s.setCore n c).routes = s.routes := rfl
@[simp] theorem State.setCore_fabricOut (n : Nat) (c : Core) :
    (s.setCore n c).fabricOut = s.fabricOut := rfl
@[simp] theorem State.setCore_farLinks (n : Nat) (c : Core) :
    (s.setCore n c).farLinks = s.farLinks := rfl
@[simp] theorem State.setCore_migrations (n : Nat) (c : Core) :
    (s.setCore n c).migrations = s.migrations := rfl
@[simp] theorem State.setCore_nextTag (n : Nat) (c : Core) :
    (s.setCore n c).nextTag = s.nextTag := rfl
@[simp] theorem State.setCore_man (n : Nat) (c : Core) : (s.setCore n c).man = s.man := rfl

/-! ### setStrand -/

@[simp] theorem State.setStrand_modNo (n k : Nat) (t : Strand) :
    (s.setStrand n k t).modNo = s.modNo := rfl
@[simp] theorem State.setStrand_now (n k : Nat) (t : Strand) :
    (s.setStrand n k t).now = s.now := rfl
@[simp] theorem State.setStrand_issue (n k : Nat) (t : Strand) :
    (s.setStrand n k t).issue = s.issue := rfl
@[simp] theorem State.setStrand_fresh (n k : Nat) (t : Strand) :
    (s.setStrand n k t).fresh = s.fresh := rfl
@[simp] theorem State.setStrand_nextId (n k : Nat) (t : Strand) :
    (s.setStrand n k t).nextId = s.nextId := rfl
@[simp] theorem State.setStrand_inbox (n k : Nat) (t : Strand) :
    (s.setStrand n k t).inbox = s.inbox := rfl
@[simp] theorem State.setStrand_hostReads (n k : Nat) (t : Strand) :
    (s.setStrand n k t).hostReads = s.hostReads := rfl
@[simp] theorem State.setStrand_hostAnswers (n k : Nat) (t : Strand) :
    (s.setStrand n k t).hostAnswers = s.hostAnswers := rfl
@[simp] theorem State.setStrand_mem (n k : Nat) (t : Strand) :
    (s.setStrand n k t).mem = s.mem := rfl
@[simp] theorem State.setStrand_hbmPoison (n k : Nat) (t : Strand) :
    (s.setStrand n k t).hbmPoison = s.hbmPoison := rfl
@[simp] theorem State.setStrand_spadPoison (n k : Nat) (t : Strand) :
    (s.setStrand n k t).spadPoison = s.spadPoison := rfl
@[simp] theorem State.setStrand_empty (n k : Nat) (t : Strand) :
    (s.setStrand n k t).empty = s.empty := rfl
@[simp] theorem State.setStrand_latent (n k : Nat) (t : Strand) :
    (s.setStrand n k t).latent = s.latent := rfl
@[simp] theorem State.setStrand_clusters (n k : Nat) (t : Strand) :
    (s.setStrand n k t).clusters = s.clusters := rfl
@[simp] theorem State.setStrand_ports (n k : Nat) (t : Strand) :
    (s.setStrand n k t).ports = s.ports := rfl
@[simp] theorem State.setStrand_reqs (n k : Nat) (t : Strand) :
    (s.setStrand n k t).reqs = s.reqs := rfl
@[simp] theorem State.setStrand_replies (n k : Nat) (t : Strand) :
    (s.setStrand n k t).replies = s.replies := rfl
@[simp] theorem State.setStrand_slotWaits (n k : Nat) (t : Strand) :
    (s.setStrand n k t).slotWaits = s.slotWaits := rfl
@[simp] theorem State.setStrand_groups (n k : Nat) (t : Strand) :
    (s.setStrand n k t).groups = s.groups := rfl
@[simp] theorem State.setStrand_resv (n k : Nat) (t : Strand) :
    (s.setStrand n k t).resv = s.resv := rfl
@[simp] theorem State.setStrand_errors (n k : Nat) (t : Strand) :
    (s.setStrand n k t).errors = s.errors := rfl
@[simp] theorem State.setStrand_ver (n k : Nat) (t : Strand) :
    (s.setStrand n k t).ver = s.ver := rfl
@[simp] theorem State.setStrand_loomQ (n k : Nat) (t : Strand) :
    (s.setStrand n k t).loomQ = s.loomQ := rfl
@[simp] theorem State.setStrand_scrQ (n k : Nat) (t : Strand) :
    (s.setStrand n k t).scrQ = s.scrQ := rfl
@[simp] theorem State.setStrand_disp (n k : Nat) (t : Strand) :
    (s.setStrand n k t).disp = s.disp := rfl
@[simp] theorem State.setStrand_routes (n k : Nat) (t : Strand) :
    (s.setStrand n k t).routes = s.routes := rfl
@[simp] theorem State.setStrand_fabricOut (n k : Nat) (t : Strand) :
    (s.setStrand n k t).fabricOut = s.fabricOut := rfl
@[simp] theorem State.setStrand_farLinks (n k : Nat) (t : Strand) :
    (s.setStrand n k t).farLinks = s.farLinks := rfl
@[simp] theorem State.setStrand_migrations (n k : Nat) (t : Strand) :
    (s.setStrand n k t).migrations = s.migrations := rfl
@[simp] theorem State.setStrand_nextTag (n k : Nat) (t : Strand) :
    (s.setStrand n k t).nextTag = s.nextTag := rfl
@[simp] theorem State.setStrand_man (n k : Nat) (t : Strand) :
    (s.setStrand n k t).man = s.man := rfl

/-! ### setMe -/

@[simp] theorem State.setMe_modNo (t : Strand) : (s.setMe t).modNo = s.modNo := rfl
@[simp] theorem State.setMe_now (t : Strand) : (s.setMe t).now = s.now := rfl
@[simp] theorem State.setMe_issue (t : Strand) : (s.setMe t).issue = s.issue := rfl
@[simp] theorem State.setMe_fresh (t : Strand) : (s.setMe t).fresh = s.fresh := rfl
@[simp] theorem State.setMe_nextId (t : Strand) : (s.setMe t).nextId = s.nextId := rfl
@[simp] theorem State.setMe_inbox (t : Strand) : (s.setMe t).inbox = s.inbox := rfl
@[simp] theorem State.setMe_hostReads (t : Strand) : (s.setMe t).hostReads = s.hostReads := rfl
@[simp] theorem State.setMe_hostAnswers (t : Strand) :
    (s.setMe t).hostAnswers = s.hostAnswers := rfl
@[simp] theorem State.setMe_mem (t : Strand) : (s.setMe t).mem = s.mem := rfl
@[simp] theorem State.setMe_hbmPoison (t : Strand) : (s.setMe t).hbmPoison = s.hbmPoison := rfl
@[simp] theorem State.setMe_spadPoison (t : Strand) : (s.setMe t).spadPoison = s.spadPoison := rfl
@[simp] theorem State.setMe_empty (t : Strand) : (s.setMe t).empty = s.empty := rfl
@[simp] theorem State.setMe_latent (t : Strand) : (s.setMe t).latent = s.latent := rfl
@[simp] theorem State.setMe_clusters (t : Strand) : (s.setMe t).clusters = s.clusters := rfl
@[simp] theorem State.setMe_ports (t : Strand) : (s.setMe t).ports = s.ports := rfl
@[simp] theorem State.setMe_reqs (t : Strand) : (s.setMe t).reqs = s.reqs := rfl
@[simp] theorem State.setMe_replies (t : Strand) : (s.setMe t).replies = s.replies := rfl
@[simp] theorem State.setMe_slotWaits (t : Strand) : (s.setMe t).slotWaits = s.slotWaits := rfl
@[simp] theorem State.setMe_groups (t : Strand) : (s.setMe t).groups = s.groups := rfl
@[simp] theorem State.setMe_resv (t : Strand) : (s.setMe t).resv = s.resv := rfl
@[simp] theorem State.setMe_errors (t : Strand) : (s.setMe t).errors = s.errors := rfl
@[simp] theorem State.setMe_ver (t : Strand) : (s.setMe t).ver = s.ver := rfl
@[simp] theorem State.setMe_loomQ (t : Strand) : (s.setMe t).loomQ = s.loomQ := rfl
@[simp] theorem State.setMe_scrQ (t : Strand) : (s.setMe t).scrQ = s.scrQ := rfl
@[simp] theorem State.setMe_disp (t : Strand) : (s.setMe t).disp = s.disp := rfl
@[simp] theorem State.setMe_routes (t : Strand) : (s.setMe t).routes = s.routes := rfl
@[simp] theorem State.setMe_fabricOut (t : Strand) : (s.setMe t).fabricOut = s.fabricOut := rfl
@[simp] theorem State.setMe_farLinks (t : Strand) : (s.setMe t).farLinks = s.farLinks := rfl
@[simp] theorem State.setMe_migrations (t : Strand) : (s.setMe t).migrations = s.migrations := rfl
@[simp] theorem State.setMe_nextTag (t : Strand) : (s.setMe t).nextTag = s.nextTag := rfl
@[simp] theorem State.setMe_man (t : Strand) : (s.setMe t).man = s.man := rfl

/-! ### setMyCore -/

@[simp] theorem State.setMyCore_modNo (c : Core) : (s.setMyCore c).modNo = s.modNo := rfl
@[simp] theorem State.setMyCore_now (c : Core) : (s.setMyCore c).now = s.now := rfl
@[simp] theorem State.setMyCore_issue (c : Core) : (s.setMyCore c).issue = s.issue := rfl
@[simp] theorem State.setMyCore_fresh (c : Core) : (s.setMyCore c).fresh = s.fresh := rfl
@[simp] theorem State.setMyCore_nextId (c : Core) : (s.setMyCore c).nextId = s.nextId := rfl
@[simp] theorem State.setMyCore_inbox (c : Core) : (s.setMyCore c).inbox = s.inbox := rfl
@[simp] theorem State.setMyCore_hostReads (c : Core) :
    (s.setMyCore c).hostReads = s.hostReads := rfl
@[simp] theorem State.setMyCore_hostAnswers (c : Core) :
    (s.setMyCore c).hostAnswers = s.hostAnswers := rfl
@[simp] theorem State.setMyCore_mem (c : Core) : (s.setMyCore c).mem = s.mem := rfl
@[simp] theorem State.setMyCore_hbmPoison (c : Core) :
    (s.setMyCore c).hbmPoison = s.hbmPoison := rfl
@[simp] theorem State.setMyCore_spadPoison (c : Core) :
    (s.setMyCore c).spadPoison = s.spadPoison := rfl
@[simp] theorem State.setMyCore_empty (c : Core) : (s.setMyCore c).empty = s.empty := rfl
@[simp] theorem State.setMyCore_latent (c : Core) : (s.setMyCore c).latent = s.latent := rfl
@[simp] theorem State.setMyCore_clusters (c : Core) : (s.setMyCore c).clusters = s.clusters := rfl
@[simp] theorem State.setMyCore_ports (c : Core) : (s.setMyCore c).ports = s.ports := rfl
@[simp] theorem State.setMyCore_reqs (c : Core) : (s.setMyCore c).reqs = s.reqs := rfl
@[simp] theorem State.setMyCore_replies (c : Core) : (s.setMyCore c).replies = s.replies := rfl
@[simp] theorem State.setMyCore_slotWaits (c : Core) :
    (s.setMyCore c).slotWaits = s.slotWaits := rfl
@[simp] theorem State.setMyCore_groups (c : Core) : (s.setMyCore c).groups = s.groups := rfl
@[simp] theorem State.setMyCore_resv (c : Core) : (s.setMyCore c).resv = s.resv := rfl
@[simp] theorem State.setMyCore_errors (c : Core) : (s.setMyCore c).errors = s.errors := rfl
@[simp] theorem State.setMyCore_ver (c : Core) : (s.setMyCore c).ver = s.ver := rfl
@[simp] theorem State.setMyCore_loomQ (c : Core) : (s.setMyCore c).loomQ = s.loomQ := rfl
@[simp] theorem State.setMyCore_scrQ (c : Core) : (s.setMyCore c).scrQ = s.scrQ := rfl
@[simp] theorem State.setMyCore_disp (c : Core) : (s.setMyCore c).disp = s.disp := rfl
@[simp] theorem State.setMyCore_routes (c : Core) : (s.setMyCore c).routes = s.routes := rfl
@[simp] theorem State.setMyCore_fabricOut (c : Core) :
    (s.setMyCore c).fabricOut = s.fabricOut := rfl
@[simp] theorem State.setMyCore_farLinks (c : Core) : (s.setMyCore c).farLinks = s.farLinks := rfl
@[simp] theorem State.setMyCore_migrations (c : Core) :
    (s.setMyCore c).migrations = s.migrations := rfl
@[simp] theorem State.setMyCore_nextTag (c : Core) : (s.setMyCore c).nextTag = s.nextTag := rfl
@[simp] theorem State.setMyCore_man (c : Core) : (s.setMyCore c).man = s.man := rfl

/-! ### setCluster -/

@[simp] theorem State.setCluster_modNo (n : Nat) (k : Cluster) :
    (s.setCluster n k).modNo = s.modNo := rfl
@[simp] theorem State.setCluster_now (n : Nat) (k : Cluster) : (s.setCluster n k).now = s.now := rfl
@[simp] theorem State.setCluster_issue (n : Nat) (k : Cluster) :
    (s.setCluster n k).issue = s.issue := rfl
@[simp] theorem State.setCluster_fresh (n : Nat) (k : Cluster) :
    (s.setCluster n k).fresh = s.fresh := rfl
@[simp] theorem State.setCluster_nextId (n : Nat) (k : Cluster) :
    (s.setCluster n k).nextId = s.nextId := rfl
@[simp] theorem State.setCluster_inbox (n : Nat) (k : Cluster) :
    (s.setCluster n k).inbox = s.inbox := rfl
@[simp] theorem State.setCluster_hostReads (n : Nat) (k : Cluster) :
    (s.setCluster n k).hostReads = s.hostReads := rfl
@[simp] theorem State.setCluster_hostAnswers (n : Nat) (k : Cluster) :
    (s.setCluster n k).hostAnswers = s.hostAnswers := rfl
@[simp] theorem State.setCluster_mem (n : Nat) (k : Cluster) : (s.setCluster n k).mem = s.mem := rfl
@[simp] theorem State.setCluster_hbmPoison (n : Nat) (k : Cluster) :
    (s.setCluster n k).hbmPoison = s.hbmPoison := rfl
@[simp] theorem State.setCluster_spadPoison (n : Nat) (k : Cluster) :
    (s.setCluster n k).spadPoison = s.spadPoison := rfl
@[simp] theorem State.setCluster_empty (n : Nat) (k : Cluster) :
    (s.setCluster n k).empty = s.empty := rfl
@[simp] theorem State.setCluster_latent (n : Nat) (k : Cluster) :
    (s.setCluster n k).latent = s.latent := rfl
@[simp] theorem State.setCluster_cores (n : Nat) (k : Cluster) :
    (s.setCluster n k).cores = s.cores := rfl
@[simp] theorem State.setCluster_ports (n : Nat) (k : Cluster) :
    (s.setCluster n k).ports = s.ports := rfl
@[simp] theorem State.setCluster_reqs (n : Nat) (k : Cluster) :
    (s.setCluster n k).reqs = s.reqs := rfl
@[simp] theorem State.setCluster_replies (n : Nat) (k : Cluster) :
    (s.setCluster n k).replies = s.replies := rfl
@[simp] theorem State.setCluster_slotWaits (n : Nat) (k : Cluster) :
    (s.setCluster n k).slotWaits = s.slotWaits := rfl
@[simp] theorem State.setCluster_groups (n : Nat) (k : Cluster) :
    (s.setCluster n k).groups = s.groups := rfl
@[simp] theorem State.setCluster_resv (n : Nat) (k : Cluster) :
    (s.setCluster n k).resv = s.resv := rfl
@[simp] theorem State.setCluster_errors (n : Nat) (k : Cluster) :
    (s.setCluster n k).errors = s.errors := rfl
@[simp] theorem State.setCluster_ver (n : Nat) (k : Cluster) : (s.setCluster n k).ver = s.ver := rfl
@[simp] theorem State.setCluster_loomQ (n : Nat) (k : Cluster) :
    (s.setCluster n k).loomQ = s.loomQ := rfl
@[simp] theorem State.setCluster_scrQ (n : Nat) (k : Cluster) :
    (s.setCluster n k).scrQ = s.scrQ := rfl
@[simp] theorem State.setCluster_disp (n : Nat) (k : Cluster) :
    (s.setCluster n k).disp = s.disp := rfl
@[simp] theorem State.setCluster_routes (n : Nat) (k : Cluster) :
    (s.setCluster n k).routes = s.routes := rfl
@[simp] theorem State.setCluster_fabricOut (n : Nat) (k : Cluster) :
    (s.setCluster n k).fabricOut = s.fabricOut := rfl
@[simp] theorem State.setCluster_farLinks (n : Nat) (k : Cluster) :
    (s.setCluster n k).farLinks = s.farLinks := rfl
@[simp] theorem State.setCluster_migrations (n : Nat) (k : Cluster) :
    (s.setCluster n k).migrations = s.migrations := rfl
@[simp] theorem State.setCluster_nextTag (n : Nat) (k : Cluster) :
    (s.setCluster n k).nextTag = s.nextTag := rfl
@[simp] theorem State.setCluster_man (n : Nat) (k : Cluster) : (s.setCluster n k).man = s.man := rfl

/-! ### setPort -/

@[simp] theorem State.setPort_modNo (n : Nat) (p : Port) : (s.setPort n p).modNo = s.modNo := rfl
@[simp] theorem State.setPort_now (n : Nat) (p : Port) : (s.setPort n p).now = s.now := rfl
@[simp] theorem State.setPort_issue (n : Nat) (p : Port) : (s.setPort n p).issue = s.issue := rfl
@[simp] theorem State.setPort_fresh (n : Nat) (p : Port) : (s.setPort n p).fresh = s.fresh := rfl
@[simp] theorem State.setPort_nextId (n : Nat) (p : Port) : (s.setPort n p).nextId = s.nextId := rfl
@[simp] theorem State.setPort_inbox (n : Nat) (p : Port) : (s.setPort n p).inbox = s.inbox := rfl
@[simp] theorem State.setPort_hostReads (n : Nat) (p : Port) :
    (s.setPort n p).hostReads = s.hostReads := rfl
@[simp] theorem State.setPort_hostAnswers (n : Nat) (p : Port) :
    (s.setPort n p).hostAnswers = s.hostAnswers := rfl
@[simp] theorem State.setPort_mem (n : Nat) (p : Port) : (s.setPort n p).mem = s.mem := rfl
@[simp] theorem State.setPort_hbmPoison (n : Nat) (p : Port) :
    (s.setPort n p).hbmPoison = s.hbmPoison := rfl
@[simp] theorem State.setPort_spadPoison (n : Nat) (p : Port) :
    (s.setPort n p).spadPoison = s.spadPoison := rfl
@[simp] theorem State.setPort_empty (n : Nat) (p : Port) : (s.setPort n p).empty = s.empty := rfl
@[simp] theorem State.setPort_latent (n : Nat) (p : Port) : (s.setPort n p).latent = s.latent := rfl
@[simp] theorem State.setPort_cores (n : Nat) (p : Port) : (s.setPort n p).cores = s.cores := rfl
@[simp] theorem State.setPort_clusters (n : Nat) (p : Port) :
    (s.setPort n p).clusters = s.clusters := rfl
@[simp] theorem State.setPort_reqs (n : Nat) (p : Port) : (s.setPort n p).reqs = s.reqs := rfl
@[simp] theorem State.setPort_replies (n : Nat) (p : Port) :
    (s.setPort n p).replies = s.replies := rfl
@[simp] theorem State.setPort_slotWaits (n : Nat) (p : Port) :
    (s.setPort n p).slotWaits = s.slotWaits := rfl
@[simp] theorem State.setPort_groups (n : Nat) (p : Port) : (s.setPort n p).groups = s.groups := rfl
@[simp] theorem State.setPort_resv (n : Nat) (p : Port) : (s.setPort n p).resv = s.resv := rfl
@[simp] theorem State.setPort_errors (n : Nat) (p : Port) : (s.setPort n p).errors = s.errors := rfl
@[simp] theorem State.setPort_ver (n : Nat) (p : Port) : (s.setPort n p).ver = s.ver := rfl
@[simp] theorem State.setPort_loomQ (n : Nat) (p : Port) : (s.setPort n p).loomQ = s.loomQ := rfl
@[simp] theorem State.setPort_scrQ (n : Nat) (p : Port) : (s.setPort n p).scrQ = s.scrQ := rfl
@[simp] theorem State.setPort_disp (n : Nat) (p : Port) : (s.setPort n p).disp = s.disp := rfl
@[simp] theorem State.setPort_routes (n : Nat) (p : Port) : (s.setPort n p).routes = s.routes := rfl
@[simp] theorem State.setPort_fabricOut (n : Nat) (p : Port) :
    (s.setPort n p).fabricOut = s.fabricOut := rfl
@[simp] theorem State.setPort_farLinks (n : Nat) (p : Port) :
    (s.setPort n p).farLinks = s.farLinks := rfl
@[simp] theorem State.setPort_migrations (n : Nat) (p : Port) :
    (s.setPort n p).migrations = s.migrations := rfl
@[simp] theorem State.setPort_nextTag (n : Nat) (p : Port) :
    (s.setPort n p).nextTag = s.nextTag := rfl
@[simp] theorem State.setPort_man (n : Nat) (p : Port) : (s.setPort n p).man = s.man := rfl

/-! ### putBytes -/

@[simp] theorem State.putBytes_modNo (k : Nat) (bs : List Byte) :
    (s.putBytes k bs).modNo = s.modNo := rfl
@[simp] theorem State.putBytes_now (k : Nat) (bs : List Byte) : (s.putBytes k bs).now = s.now := rfl
@[simp] theorem State.putBytes_issue (k : Nat) (bs : List Byte) :
    (s.putBytes k bs).issue = s.issue := rfl
@[simp] theorem State.putBytes_fresh (k : Nat) (bs : List Byte) :
    (s.putBytes k bs).fresh = s.fresh := rfl
@[simp] theorem State.putBytes_nextId (k : Nat) (bs : List Byte) :
    (s.putBytes k bs).nextId = s.nextId := rfl
@[simp] theorem State.putBytes_inbox (k : Nat) (bs : List Byte) :
    (s.putBytes k bs).inbox = s.inbox := rfl
@[simp] theorem State.putBytes_hostReads (k : Nat) (bs : List Byte) :
    (s.putBytes k bs).hostReads = s.hostReads := rfl
@[simp] theorem State.putBytes_hostAnswers (k : Nat) (bs : List Byte) :
    (s.putBytes k bs).hostAnswers = s.hostAnswers := rfl
@[simp] theorem State.putBytes_hbmPoison (k : Nat) (bs : List Byte) :
    (s.putBytes k bs).hbmPoison = s.hbmPoison := rfl
@[simp] theorem State.putBytes_spadPoison (k : Nat) (bs : List Byte) :
    (s.putBytes k bs).spadPoison = s.spadPoison := rfl
@[simp] theorem State.putBytes_empty (k : Nat) (bs : List Byte) :
    (s.putBytes k bs).empty = s.empty := rfl
@[simp] theorem State.putBytes_latent (k : Nat) (bs : List Byte) :
    (s.putBytes k bs).latent = s.latent := rfl
@[simp] theorem State.putBytes_cores (k : Nat) (bs : List Byte) :
    (s.putBytes k bs).cores = s.cores := rfl
@[simp] theorem State.putBytes_clusters (k : Nat) (bs : List Byte) :
    (s.putBytes k bs).clusters = s.clusters := rfl
@[simp] theorem State.putBytes_ports (k : Nat) (bs : List Byte) :
    (s.putBytes k bs).ports = s.ports := rfl
@[simp] theorem State.putBytes_reqs (k : Nat) (bs : List Byte) :
    (s.putBytes k bs).reqs = s.reqs := rfl
@[simp] theorem State.putBytes_replies (k : Nat) (bs : List Byte) :
    (s.putBytes k bs).replies = s.replies := rfl
@[simp] theorem State.putBytes_slotWaits (k : Nat) (bs : List Byte) :
    (s.putBytes k bs).slotWaits = s.slotWaits := rfl
@[simp] theorem State.putBytes_groups (k : Nat) (bs : List Byte) :
    (s.putBytes k bs).groups = s.groups := rfl
@[simp] theorem State.putBytes_resv (k : Nat) (bs : List Byte) :
    (s.putBytes k bs).resv = s.resv := rfl
@[simp] theorem State.putBytes_errors (k : Nat) (bs : List Byte) :
    (s.putBytes k bs).errors = s.errors := rfl
@[simp] theorem State.putBytes_ver (k : Nat) (bs : List Byte) : (s.putBytes k bs).ver = s.ver := rfl
@[simp] theorem State.putBytes_loomQ (k : Nat) (bs : List Byte) :
    (s.putBytes k bs).loomQ = s.loomQ := rfl
@[simp] theorem State.putBytes_scrQ (k : Nat) (bs : List Byte) :
    (s.putBytes k bs).scrQ = s.scrQ := rfl
@[simp] theorem State.putBytes_disp (k : Nat) (bs : List Byte) :
    (s.putBytes k bs).disp = s.disp := rfl
@[simp] theorem State.putBytes_routes (k : Nat) (bs : List Byte) :
    (s.putBytes k bs).routes = s.routes := rfl
@[simp] theorem State.putBytes_fabricOut (k : Nat) (bs : List Byte) :
    (s.putBytes k bs).fabricOut = s.fabricOut := rfl
@[simp] theorem State.putBytes_farLinks (k : Nat) (bs : List Byte) :
    (s.putBytes k bs).farLinks = s.farLinks := rfl
@[simp] theorem State.putBytes_migrations (k : Nat) (bs : List Byte) :
    (s.putBytes k bs).migrations = s.migrations := rfl
@[simp] theorem State.putBytes_nextTag (k : Nat) (bs : List Byte) :
    (s.putBytes k bs).nextTag = s.nextTag := rfl
@[simp] theorem State.putBytes_man (k : Nat) (bs : List Byte) : (s.putBytes k bs).man = s.man := rfl

/-! ### record -/

@[simp] theorem State.record_modNo (c : Code) (l v : Nat) : (s.record c l v).modNo = s.modNo := rfl
@[simp] theorem State.record_now (c : Code) (l v : Nat) : (s.record c l v).now = s.now := rfl
@[simp] theorem State.record_issue (c : Code) (l v : Nat) : (s.record c l v).issue = s.issue := rfl
@[simp] theorem State.record_fresh (c : Code) (l v : Nat) : (s.record c l v).fresh = s.fresh := rfl
@[simp] theorem State.record_nextId (c : Code) (l v : Nat) :
    (s.record c l v).nextId = s.nextId := rfl
@[simp] theorem State.record_inbox (c : Code) (l v : Nat) : (s.record c l v).inbox = s.inbox := rfl
@[simp] theorem State.record_hostReads (c : Code) (l v : Nat) :
    (s.record c l v).hostReads = s.hostReads := rfl
@[simp] theorem State.record_hostAnswers (c : Code) (l v : Nat) :
    (s.record c l v).hostAnswers = s.hostAnswers := rfl
@[simp] theorem State.record_mem (c : Code) (l v : Nat) : (s.record c l v).mem = s.mem := rfl
@[simp] theorem State.record_hbmPoison (c : Code) (l v : Nat) :
    (s.record c l v).hbmPoison = s.hbmPoison := rfl
@[simp] theorem State.record_spadPoison (c : Code) (l v : Nat) :
    (s.record c l v).spadPoison = s.spadPoison := rfl
@[simp] theorem State.record_empty (c : Code) (l v : Nat) : (s.record c l v).empty = s.empty := rfl
@[simp] theorem State.record_latent (c : Code) (l v : Nat) :
    (s.record c l v).latent = s.latent := rfl
@[simp] theorem State.record_cores (c : Code) (l v : Nat) : (s.record c l v).cores = s.cores := rfl
@[simp] theorem State.record_clusters (c : Code) (l v : Nat) :
    (s.record c l v).clusters = s.clusters := rfl
@[simp] theorem State.record_ports (c : Code) (l v : Nat) : (s.record c l v).ports = s.ports := rfl
@[simp] theorem State.record_reqs (c : Code) (l v : Nat) : (s.record c l v).reqs = s.reqs := rfl
@[simp] theorem State.record_replies (c : Code) (l v : Nat) :
    (s.record c l v).replies = s.replies := rfl
@[simp] theorem State.record_slotWaits (c : Code) (l v : Nat) :
    (s.record c l v).slotWaits = s.slotWaits := rfl
@[simp] theorem State.record_groups (c : Code) (l v : Nat) :
    (s.record c l v).groups = s.groups := rfl
@[simp] theorem State.record_resv (c : Code) (l v : Nat) : (s.record c l v).resv = s.resv := rfl
@[simp] theorem State.record_errors (c : Code) (l v : Nat) :
    (s.record c l v).errors = s.errors := rfl
@[simp] theorem State.record_ver (c : Code) (l v : Nat) : (s.record c l v).ver = s.ver := rfl
@[simp] theorem State.record_loomQ (c : Code) (l v : Nat) : (s.record c l v).loomQ = s.loomQ := rfl
@[simp] theorem State.record_scrQ (c : Code) (l v : Nat) : (s.record c l v).scrQ = s.scrQ := rfl
@[simp] theorem State.record_disp (c : Code) (l v : Nat) : (s.record c l v).disp = s.disp := rfl
@[simp] theorem State.record_routes (c : Code) (l v : Nat) :
    (s.record c l v).routes = s.routes := rfl
@[simp] theorem State.record_fabricOut (c : Code) (l v : Nat) :
    (s.record c l v).fabricOut = s.fabricOut := rfl
@[simp] theorem State.record_farLinks (c : Code) (l v : Nat) :
    (s.record c l v).farLinks = s.farLinks := rfl
@[simp] theorem State.record_migrations (c : Code) (l v : Nat) :
    (s.record c l v).migrations = s.migrations := rfl
@[simp] theorem State.record_nextTag (c : Code) (l v : Nat) :
    (s.record c l v).nextTag = s.nextTag := rfl

/-! ### tally -/

@[simp] theorem State.tally_modNo (c : Code) : (s.tally c).modNo = s.modNo := rfl
@[simp] theorem State.tally_now (c : Code) : (s.tally c).now = s.now := rfl
@[simp] theorem State.tally_issue (c : Code) : (s.tally c).issue = s.issue := rfl
@[simp] theorem State.tally_fresh (c : Code) : (s.tally c).fresh = s.fresh := rfl
@[simp] theorem State.tally_nextId (c : Code) : (s.tally c).nextId = s.nextId := rfl
@[simp] theorem State.tally_inbox (c : Code) : (s.tally c).inbox = s.inbox := rfl
@[simp] theorem State.tally_hostReads (c : Code) : (s.tally c).hostReads = s.hostReads := rfl
@[simp] theorem State.tally_hostAnswers (c : Code) : (s.tally c).hostAnswers = s.hostAnswers := rfl
@[simp] theorem State.tally_mem (c : Code) : (s.tally c).mem = s.mem := rfl
@[simp] theorem State.tally_hbmPoison (c : Code) : (s.tally c).hbmPoison = s.hbmPoison := rfl
@[simp] theorem State.tally_spadPoison (c : Code) : (s.tally c).spadPoison = s.spadPoison := rfl
@[simp] theorem State.tally_empty (c : Code) : (s.tally c).empty = s.empty := rfl
@[simp] theorem State.tally_latent (c : Code) : (s.tally c).latent = s.latent := rfl
@[simp] theorem State.tally_cores (c : Code) : (s.tally c).cores = s.cores := rfl
@[simp] theorem State.tally_clusters (c : Code) : (s.tally c).clusters = s.clusters := rfl
@[simp] theorem State.tally_ports (c : Code) : (s.tally c).ports = s.ports := rfl
@[simp] theorem State.tally_reqs (c : Code) : (s.tally c).reqs = s.reqs := rfl
@[simp] theorem State.tally_replies (c : Code) : (s.tally c).replies = s.replies := rfl
@[simp] theorem State.tally_slotWaits (c : Code) : (s.tally c).slotWaits = s.slotWaits := rfl
@[simp] theorem State.tally_groups (c : Code) : (s.tally c).groups = s.groups := rfl
@[simp] theorem State.tally_resv (c : Code) : (s.tally c).resv = s.resv := rfl
@[simp] theorem State.tally_errors (c : Code) : (s.tally c).errors = s.errors := rfl
@[simp] theorem State.tally_ver (c : Code) : (s.tally c).ver = s.ver := rfl
@[simp] theorem State.tally_loomQ (c : Code) : (s.tally c).loomQ = s.loomQ := rfl
@[simp] theorem State.tally_scrQ (c : Code) : (s.tally c).scrQ = s.scrQ := rfl
@[simp] theorem State.tally_disp (c : Code) : (s.tally c).disp = s.disp := rfl
@[simp] theorem State.tally_routes (c : Code) : (s.tally c).routes = s.routes := rfl
@[simp] theorem State.tally_fabricOut (c : Code) : (s.tally c).fabricOut = s.fabricOut := rfl
@[simp] theorem State.tally_farLinks (c : Code) : (s.tally c).farLinks = s.farLinks := rfl
@[simp] theorem State.tally_migrations (c : Code) : (s.tally c).migrations = s.migrations := rfl
@[simp] theorem State.tally_nextTag (c : Code) : (s.tally c).nextTag = s.nextTag := rfl

/-! ### setG -/

@[simp] theorem State.setG_modNo (d : Reg) (v : Word) (p : Bool) :
    (s.setG d v p).modNo = s.modNo := by unfold State.setG; split <;> rfl
@[simp] theorem State.setG_now (d : Reg) (v : Word) (p : Bool) :
    (s.setG d v p).now = s.now := by unfold State.setG; split <;> rfl
@[simp] theorem State.setG_issue (d : Reg) (v : Word) (p : Bool) :
    (s.setG d v p).issue = s.issue := by unfold State.setG; split <;> rfl
@[simp] theorem State.setG_fresh (d : Reg) (v : Word) (p : Bool) :
    (s.setG d v p).fresh = s.fresh := by unfold State.setG; split <;> rfl
@[simp] theorem State.setG_nextId (d : Reg) (v : Word) (p : Bool) :
    (s.setG d v p).nextId = s.nextId := by unfold State.setG; split <;> rfl
@[simp] theorem State.setG_inbox (d : Reg) (v : Word) (p : Bool) :
    (s.setG d v p).inbox = s.inbox := by unfold State.setG; split <;> rfl
@[simp] theorem State.setG_hostReads (d : Reg) (v : Word) (p : Bool) :
    (s.setG d v p).hostReads = s.hostReads := by unfold State.setG; split <;> rfl
@[simp] theorem State.setG_hostAnswers (d : Reg) (v : Word) (p : Bool) :
    (s.setG d v p).hostAnswers = s.hostAnswers := by unfold State.setG; split <;> rfl
@[simp] theorem State.setG_mem (d : Reg) (v : Word) (p : Bool) :
    (s.setG d v p).mem = s.mem := by unfold State.setG; split <;> rfl
@[simp] theorem State.setG_hbmPoison (d : Reg) (v : Word) (p : Bool) :
    (s.setG d v p).hbmPoison = s.hbmPoison := by unfold State.setG; split <;> rfl
@[simp] theorem State.setG_spadPoison (d : Reg) (v : Word) (p : Bool) :
    (s.setG d v p).spadPoison = s.spadPoison := by unfold State.setG; split <;> rfl
@[simp] theorem State.setG_empty (d : Reg) (v : Word) (p : Bool) :
    (s.setG d v p).empty = s.empty := by unfold State.setG; split <;> rfl
@[simp] theorem State.setG_latent (d : Reg) (v : Word) (p : Bool) :
    (s.setG d v p).latent = s.latent := by unfold State.setG; split <;> rfl
@[simp] theorem State.setG_clusters (d : Reg) (v : Word) (p : Bool) :
    (s.setG d v p).clusters = s.clusters := by unfold State.setG; split <;> rfl
@[simp] theorem State.setG_ports (d : Reg) (v : Word) (p : Bool) :
    (s.setG d v p).ports = s.ports := by unfold State.setG; split <;> rfl
@[simp] theorem State.setG_reqs (d : Reg) (v : Word) (p : Bool) :
    (s.setG d v p).reqs = s.reqs := by unfold State.setG; split <;> rfl
@[simp] theorem State.setG_replies (d : Reg) (v : Word) (p : Bool) :
    (s.setG d v p).replies = s.replies := by unfold State.setG; split <;> rfl
@[simp] theorem State.setG_slotWaits (d : Reg) (v : Word) (p : Bool) :
    (s.setG d v p).slotWaits = s.slotWaits := by unfold State.setG; split <;> rfl
@[simp] theorem State.setG_groups (d : Reg) (v : Word) (p : Bool) :
    (s.setG d v p).groups = s.groups := by unfold State.setG; split <;> rfl
@[simp] theorem State.setG_resv (d : Reg) (v : Word) (p : Bool) :
    (s.setG d v p).resv = s.resv := by unfold State.setG; split <;> rfl
@[simp] theorem State.setG_errors (d : Reg) (v : Word) (p : Bool) :
    (s.setG d v p).errors = s.errors := by unfold State.setG; split <;> rfl
@[simp] theorem State.setG_ver (d : Reg) (v : Word) (p : Bool) :
    (s.setG d v p).ver = s.ver := by unfold State.setG; split <;> rfl
@[simp] theorem State.setG_loomQ (d : Reg) (v : Word) (p : Bool) :
    (s.setG d v p).loomQ = s.loomQ := by unfold State.setG; split <;> rfl
@[simp] theorem State.setG_scrQ (d : Reg) (v : Word) (p : Bool) :
    (s.setG d v p).scrQ = s.scrQ := by unfold State.setG; split <;> rfl
@[simp] theorem State.setG_disp (d : Reg) (v : Word) (p : Bool) :
    (s.setG d v p).disp = s.disp := by unfold State.setG; split <;> rfl
@[simp] theorem State.setG_routes (d : Reg) (v : Word) (p : Bool) :
    (s.setG d v p).routes = s.routes := by unfold State.setG; split <;> rfl
@[simp] theorem State.setG_fabricOut (d : Reg) (v : Word) (p : Bool) :
    (s.setG d v p).fabricOut = s.fabricOut := by unfold State.setG; split <;> rfl
@[simp] theorem State.setG_farLinks (d : Reg) (v : Word) (p : Bool) :
    (s.setG d v p).farLinks = s.farLinks := by unfold State.setG; split <;> rfl
@[simp] theorem State.setG_migrations (d : Reg) (v : Word) (p : Bool) :
    (s.setG d v p).migrations = s.migrations := by unfold State.setG; split <;> rfl
@[simp] theorem State.setG_nextTag (d : Reg) (v : Word) (p : Bool) :
    (s.setG d v p).nextTag = s.nextTag := by unfold State.setG; split <;> rfl
@[simp] theorem State.setG_man (d : Reg) (v : Word) (p : Bool) :
    (s.setG d v p).man = s.man := by unfold State.setG; split <;> rfl

/-! ### setP -/

@[simp] theorem State.setP_modNo (n : Pred) (b : Bool) : (s.setP n b).modNo = s.modNo := rfl
@[simp] theorem State.setP_now (n : Pred) (b : Bool) : (s.setP n b).now = s.now := rfl
@[simp] theorem State.setP_issue (n : Pred) (b : Bool) : (s.setP n b).issue = s.issue := rfl
@[simp] theorem State.setP_fresh (n : Pred) (b : Bool) : (s.setP n b).fresh = s.fresh := rfl
@[simp] theorem State.setP_nextId (n : Pred) (b : Bool) : (s.setP n b).nextId = s.nextId := rfl
@[simp] theorem State.setP_inbox (n : Pred) (b : Bool) : (s.setP n b).inbox = s.inbox := rfl
@[simp] theorem State.setP_hostReads (n : Pred) (b : Bool) :
    (s.setP n b).hostReads = s.hostReads := rfl
@[simp] theorem State.setP_hostAnswers (n : Pred) (b : Bool) :
    (s.setP n b).hostAnswers = s.hostAnswers := rfl
@[simp] theorem State.setP_mem (n : Pred) (b : Bool) : (s.setP n b).mem = s.mem := rfl
@[simp] theorem State.setP_hbmPoison (n : Pred) (b : Bool) :
    (s.setP n b).hbmPoison = s.hbmPoison := rfl
@[simp] theorem State.setP_spadPoison (n : Pred) (b : Bool) :
    (s.setP n b).spadPoison = s.spadPoison := rfl
@[simp] theorem State.setP_empty (n : Pred) (b : Bool) : (s.setP n b).empty = s.empty := rfl
@[simp] theorem State.setP_latent (n : Pred) (b : Bool) : (s.setP n b).latent = s.latent := rfl
@[simp] theorem State.setP_clusters (n : Pred) (b : Bool) :
    (s.setP n b).clusters = s.clusters := rfl
@[simp] theorem State.setP_ports (n : Pred) (b : Bool) : (s.setP n b).ports = s.ports := rfl
@[simp] theorem State.setP_reqs (n : Pred) (b : Bool) : (s.setP n b).reqs = s.reqs := rfl
@[simp] theorem State.setP_replies (n : Pred) (b : Bool) : (s.setP n b).replies = s.replies := rfl
@[simp] theorem State.setP_slotWaits (n : Pred) (b : Bool) :
    (s.setP n b).slotWaits = s.slotWaits := rfl
@[simp] theorem State.setP_groups (n : Pred) (b : Bool) : (s.setP n b).groups = s.groups := rfl
@[simp] theorem State.setP_resv (n : Pred) (b : Bool) : (s.setP n b).resv = s.resv := rfl
@[simp] theorem State.setP_errors (n : Pred) (b : Bool) : (s.setP n b).errors = s.errors := rfl
@[simp] theorem State.setP_ver (n : Pred) (b : Bool) : (s.setP n b).ver = s.ver := rfl
@[simp] theorem State.setP_loomQ (n : Pred) (b : Bool) : (s.setP n b).loomQ = s.loomQ := rfl
@[simp] theorem State.setP_scrQ (n : Pred) (b : Bool) : (s.setP n b).scrQ = s.scrQ := rfl
@[simp] theorem State.setP_disp (n : Pred) (b : Bool) : (s.setP n b).disp = s.disp := rfl
@[simp] theorem State.setP_routes (n : Pred) (b : Bool) : (s.setP n b).routes = s.routes := rfl
@[simp] theorem State.setP_fabricOut (n : Pred) (b : Bool) :
    (s.setP n b).fabricOut = s.fabricOut := rfl
@[simp] theorem State.setP_farLinks (n : Pred) (b : Bool) :
    (s.setP n b).farLinks = s.farLinks := rfl
@[simp] theorem State.setP_migrations (n : Pred) (b : Bool) :
    (s.setP n b).migrations = s.migrations := rfl
@[simp] theorem State.setP_nextTag (n : Pred) (b : Bool) : (s.setP n b).nextTag = s.nextTag := rfl
@[simp] theorem State.setP_man (n : Pred) (b : Bool) : (s.setP n b).man = s.man := rfl

/-! ### popPort -/

@[simp] theorem State.popPort_modNo :
    (s.popPort).modNo = s.modNo := by unfold State.popPort; split <;> rfl
@[simp] theorem State.popPort_now :
    (s.popPort).now = s.now := by unfold State.popPort; split <;> rfl
@[simp] theorem State.popPort_issue :
    (s.popPort).issue = s.issue := by unfold State.popPort; split <;> rfl
@[simp] theorem State.popPort_fresh :
    (s.popPort).fresh = s.fresh := by unfold State.popPort; split <;> rfl
@[simp] theorem State.popPort_nextId :
    (s.popPort).nextId = s.nextId := by unfold State.popPort; split <;> rfl
@[simp] theorem State.popPort_inbox :
    (s.popPort).inbox = s.inbox := by unfold State.popPort; split <;> rfl
@[simp] theorem State.popPort_hostReads :
    (s.popPort).hostReads = s.hostReads := by unfold State.popPort; split <;> rfl
@[simp] theorem State.popPort_hostAnswers :
    (s.popPort).hostAnswers = s.hostAnswers := by unfold State.popPort; split <;> rfl
@[simp] theorem State.popPort_mem :
    (s.popPort).mem = s.mem := by unfold State.popPort; split <;> rfl
@[simp] theorem State.popPort_hbmPoison :
    (s.popPort).hbmPoison = s.hbmPoison := by unfold State.popPort; split <;> rfl
@[simp] theorem State.popPort_spadPoison :
    (s.popPort).spadPoison = s.spadPoison := by unfold State.popPort; split <;> rfl
@[simp] theorem State.popPort_empty :
    (s.popPort).empty = s.empty := by unfold State.popPort; split <;> rfl
@[simp] theorem State.popPort_latent :
    (s.popPort).latent = s.latent := by unfold State.popPort; split <;> rfl
@[simp] theorem State.popPort_clusters :
    (s.popPort).clusters = s.clusters := by unfold State.popPort; split <;> rfl
@[simp] theorem State.popPort_ports :
    (s.popPort).ports = s.ports := by unfold State.popPort; split <;> rfl
@[simp] theorem State.popPort_reqs :
    (s.popPort).reqs = s.reqs := by unfold State.popPort; split <;> rfl
@[simp] theorem State.popPort_replies :
    (s.popPort).replies = s.replies := by unfold State.popPort; split <;> rfl
@[simp] theorem State.popPort_slotWaits :
    (s.popPort).slotWaits = s.slotWaits := by unfold State.popPort; split <;> rfl
@[simp] theorem State.popPort_groups :
    (s.popPort).groups = s.groups := by unfold State.popPort; split <;> rfl
@[simp] theorem State.popPort_resv :
    (s.popPort).resv = s.resv := by unfold State.popPort; split <;> rfl
@[simp] theorem State.popPort_errors :
    (s.popPort).errors = s.errors := by unfold State.popPort; split <;> rfl
@[simp] theorem State.popPort_ver :
    (s.popPort).ver = s.ver := by unfold State.popPort; split <;> rfl
@[simp] theorem State.popPort_loomQ :
    (s.popPort).loomQ = s.loomQ := by unfold State.popPort; split <;> rfl
@[simp] theorem State.popPort_scrQ :
    (s.popPort).scrQ = s.scrQ := by unfold State.popPort; split <;> rfl
@[simp] theorem State.popPort_disp :
    (s.popPort).disp = s.disp := by unfold State.popPort; split <;> rfl
@[simp] theorem State.popPort_routes :
    (s.popPort).routes = s.routes := by unfold State.popPort; split <;> rfl
@[simp] theorem State.popPort_fabricOut :
    (s.popPort).fabricOut = s.fabricOut := by unfold State.popPort; split <;> rfl
@[simp] theorem State.popPort_farLinks :
    (s.popPort).farLinks = s.farLinks := by unfold State.popPort; split <;> rfl
@[simp] theorem State.popPort_migrations :
    (s.popPort).migrations = s.migrations := by unfold State.popPort; split <;> rfl
@[simp] theorem State.popPort_nextTag :
    (s.popPort).nextTag = s.nextTag := by unfold State.popPort; split <;> rfl
@[simp] theorem State.popPort_man :
    (s.popPort).man = s.man := by unfold State.popPort; split <;> rfl

/-! ### retire -/

@[simp] theorem State.retire_modNo (pc : Word) :
    (s.retire pc).modNo = s.modNo := by simp [State.retire]
@[simp] theorem State.retire_now (pc : Word) : (s.retire pc).now = s.now := by simp [State.retire]
@[simp] theorem State.retire_issue (pc : Word) :
    (s.retire pc).issue = s.issue := by simp [State.retire]
@[simp] theorem State.retire_fresh (pc : Word) :
    (s.retire pc).fresh = s.fresh := by simp [State.retire]
@[simp] theorem State.retire_nextId (pc : Word) :
    (s.retire pc).nextId = s.nextId := by simp [State.retire]
@[simp] theorem State.retire_inbox (pc : Word) :
    (s.retire pc).inbox = s.inbox := by simp [State.retire]
@[simp] theorem State.retire_hostReads (pc : Word) :
    (s.retire pc).hostReads = s.hostReads := by simp [State.retire]
@[simp] theorem State.retire_hostAnswers (pc : Word) :
    (s.retire pc).hostAnswers = s.hostAnswers := by simp [State.retire]
@[simp] theorem State.retire_mem (pc : Word) : (s.retire pc).mem = s.mem := by simp [State.retire]
@[simp] theorem State.retire_hbmPoison (pc : Word) :
    (s.retire pc).hbmPoison = s.hbmPoison := by simp [State.retire]
@[simp] theorem State.retire_spadPoison (pc : Word) :
    (s.retire pc).spadPoison = s.spadPoison := by simp [State.retire]
@[simp] theorem State.retire_empty (pc : Word) :
    (s.retire pc).empty = s.empty := by simp [State.retire]
@[simp] theorem State.retire_latent (pc : Word) :
    (s.retire pc).latent = s.latent := by simp [State.retire]
@[simp] theorem State.retire_clusters (pc : Word) :
    (s.retire pc).clusters = s.clusters := by simp [State.retire]
@[simp] theorem State.retire_ports (pc : Word) :
    (s.retire pc).ports = s.ports := by simp [State.retire]
@[simp] theorem State.retire_reqs (pc : Word) :
    (s.retire pc).reqs = s.reqs := by simp [State.retire]
@[simp] theorem State.retire_replies (pc : Word) :
    (s.retire pc).replies = s.replies := by simp [State.retire]
@[simp] theorem State.retire_slotWaits (pc : Word) :
    (s.retire pc).slotWaits = s.slotWaits := by simp [State.retire]
@[simp] theorem State.retire_groups (pc : Word) :
    (s.retire pc).groups = s.groups := by simp [State.retire]
@[simp] theorem State.retire_resv (pc : Word) :
    (s.retire pc).resv = s.resv := by simp [State.retire]
@[simp] theorem State.retire_errors (pc : Word) :
    (s.retire pc).errors = s.errors := by simp [State.retire]
@[simp] theorem State.retire_ver (pc : Word) : (s.retire pc).ver = s.ver := by simp [State.retire]
@[simp] theorem State.retire_loomQ (pc : Word) :
    (s.retire pc).loomQ = s.loomQ := by simp [State.retire]
@[simp] theorem State.retire_scrQ (pc : Word) :
    (s.retire pc).scrQ = s.scrQ := by simp [State.retire]
@[simp] theorem State.retire_disp (pc : Word) :
    (s.retire pc).disp = s.disp := by simp [State.retire]
@[simp] theorem State.retire_routes (pc : Word) :
    (s.retire pc).routes = s.routes := by simp [State.retire]
@[simp] theorem State.retire_fabricOut (pc : Word) :
    (s.retire pc).fabricOut = s.fabricOut := by simp [State.retire]
@[simp] theorem State.retire_farLinks (pc : Word) :
    (s.retire pc).farLinks = s.farLinks := by simp [State.retire]
@[simp] theorem State.retire_migrations (pc : Word) :
    (s.retire pc).migrations = s.migrations := by simp [State.retire]
@[simp] theorem State.retire_nextTag (pc : Word) :
    (s.retire pc).nextTag = s.nextTag := by simp [State.retire]
@[simp] theorem State.retire_man (pc : Word) : (s.retire pc).man = s.man := by simp [State.retire]

/-! ### choose -/

@[simp] theorem State.choose_modNo (n : Nat) : ((s.choose n).2).modNo = s.modNo := rfl
@[simp] theorem State.choose_now (n : Nat) : ((s.choose n).2).now = s.now := rfl
@[simp] theorem State.choose_issue (n : Nat) : ((s.choose n).2).issue = s.issue := rfl
@[simp] theorem State.choose_nextId (n : Nat) : ((s.choose n).2).nextId = s.nextId := rfl
@[simp] theorem State.choose_inbox (n : Nat) : ((s.choose n).2).inbox = s.inbox := rfl
@[simp] theorem State.choose_hostReads (n : Nat) : ((s.choose n).2).hostReads = s.hostReads := rfl
@[simp] theorem State.choose_hostAnswers (n : Nat) :
    ((s.choose n).2).hostAnswers = s.hostAnswers := rfl
@[simp] theorem State.choose_mem (n : Nat) : ((s.choose n).2).mem = s.mem := rfl
@[simp] theorem State.choose_hbmPoison (n : Nat) : ((s.choose n).2).hbmPoison = s.hbmPoison := rfl
@[simp] theorem State.choose_spadPoison (n : Nat) :
    ((s.choose n).2).spadPoison = s.spadPoison := rfl
@[simp] theorem State.choose_empty (n : Nat) : ((s.choose n).2).empty = s.empty := rfl
@[simp] theorem State.choose_latent (n : Nat) : ((s.choose n).2).latent = s.latent := rfl
@[simp] theorem State.choose_cores (n : Nat) : ((s.choose n).2).cores = s.cores := rfl
@[simp] theorem State.choose_clusters (n : Nat) : ((s.choose n).2).clusters = s.clusters := rfl
@[simp] theorem State.choose_ports (n : Nat) : ((s.choose n).2).ports = s.ports := rfl
@[simp] theorem State.choose_reqs (n : Nat) : ((s.choose n).2).reqs = s.reqs := rfl
@[simp] theorem State.choose_replies (n : Nat) : ((s.choose n).2).replies = s.replies := rfl
@[simp] theorem State.choose_slotWaits (n : Nat) : ((s.choose n).2).slotWaits = s.slotWaits := rfl
@[simp] theorem State.choose_groups (n : Nat) : ((s.choose n).2).groups = s.groups := rfl
@[simp] theorem State.choose_resv (n : Nat) : ((s.choose n).2).resv = s.resv := rfl
@[simp] theorem State.choose_errors (n : Nat) : ((s.choose n).2).errors = s.errors := rfl
@[simp] theorem State.choose_ver (n : Nat) : ((s.choose n).2).ver = s.ver := rfl
@[simp] theorem State.choose_loomQ (n : Nat) : ((s.choose n).2).loomQ = s.loomQ := rfl
@[simp] theorem State.choose_scrQ (n : Nat) : ((s.choose n).2).scrQ = s.scrQ := rfl
@[simp] theorem State.choose_disp (n : Nat) : ((s.choose n).2).disp = s.disp := rfl
@[simp] theorem State.choose_routes (n : Nat) : ((s.choose n).2).routes = s.routes := rfl
@[simp] theorem State.choose_fabricOut (n : Nat) : ((s.choose n).2).fabricOut = s.fabricOut := rfl
@[simp] theorem State.choose_farLinks (n : Nat) : ((s.choose n).2).farLinks = s.farLinks := rfl
@[simp] theorem State.choose_migrations (n : Nat) :
    ((s.choose n).2).migrations = s.migrations := rfl
@[simp] theorem State.choose_nextTag (n : Nat) : ((s.choose n).2).nextTag = s.nextTag := rfl
@[simp] theorem State.choose_man (n : Nat) : ((s.choose n).2).man = s.man := rfl

/-! ### newId -/

@[simp] theorem State.newId_modNo : (s.newId.2).modNo = s.modNo := rfl
@[simp] theorem State.newId_now : (s.newId.2).now = s.now := rfl
@[simp] theorem State.newId_issue : (s.newId.2).issue = s.issue := rfl
@[simp] theorem State.newId_fresh : (s.newId.2).fresh = s.fresh := rfl
@[simp] theorem State.newId_inbox : (s.newId.2).inbox = s.inbox := rfl
@[simp] theorem State.newId_hostReads : (s.newId.2).hostReads = s.hostReads := rfl
@[simp] theorem State.newId_hostAnswers : (s.newId.2).hostAnswers = s.hostAnswers := rfl
@[simp] theorem State.newId_mem : (s.newId.2).mem = s.mem := rfl
@[simp] theorem State.newId_hbmPoison : (s.newId.2).hbmPoison = s.hbmPoison := rfl
@[simp] theorem State.newId_spadPoison : (s.newId.2).spadPoison = s.spadPoison := rfl
@[simp] theorem State.newId_empty : (s.newId.2).empty = s.empty := rfl
@[simp] theorem State.newId_latent : (s.newId.2).latent = s.latent := rfl
@[simp] theorem State.newId_cores : (s.newId.2).cores = s.cores := rfl
@[simp] theorem State.newId_clusters : (s.newId.2).clusters = s.clusters := rfl
@[simp] theorem State.newId_ports : (s.newId.2).ports = s.ports := rfl
@[simp] theorem State.newId_reqs : (s.newId.2).reqs = s.reqs := rfl
@[simp] theorem State.newId_replies : (s.newId.2).replies = s.replies := rfl
@[simp] theorem State.newId_slotWaits : (s.newId.2).slotWaits = s.slotWaits := rfl
@[simp] theorem State.newId_groups : (s.newId.2).groups = s.groups := rfl
@[simp] theorem State.newId_resv : (s.newId.2).resv = s.resv := rfl
@[simp] theorem State.newId_errors : (s.newId.2).errors = s.errors := rfl
@[simp] theorem State.newId_ver : (s.newId.2).ver = s.ver := rfl
@[simp] theorem State.newId_loomQ : (s.newId.2).loomQ = s.loomQ := rfl
@[simp] theorem State.newId_scrQ : (s.newId.2).scrQ = s.scrQ := rfl
@[simp] theorem State.newId_disp : (s.newId.2).disp = s.disp := rfl
@[simp] theorem State.newId_routes : (s.newId.2).routes = s.routes := rfl
@[simp] theorem State.newId_fabricOut : (s.newId.2).fabricOut = s.fabricOut := rfl
@[simp] theorem State.newId_farLinks : (s.newId.2).farLinks = s.farLinks := rfl
@[simp] theorem State.newId_migrations : (s.newId.2).migrations = s.migrations := rfl
@[simp] theorem State.newId_nextTag : (s.newId.2).nextTag = s.nextTag := rfl
@[simp] theorem State.newId_man : (s.newId.2).man = s.man := rfl

/-! ### The parts after an update -/

theorem State.core_setCore (n m : Nat) (c : Core) :
    (s.setCore n c).core m = if m = n then c else s.core m := SMap.get_put ..

@[simp] theorem State.core_setCore_self (n : Nat) (c : Core) : (s.setCore n c).core n = c := by
  simp [State.core_setCore]

theorem State.core_setCore_of_ne {n m : Nat} (c : Core) (h : m ≠ n) :
    (s.setCore n c).core m = s.core m := by simp [State.core_setCore, h]

@[simp] theorem State.myCore_setMyCore (c : Core) : (s.setMyCore c).myCore = c :=
  State.core_setCore_self ..

theorem State.strand_setStrand (n m k j : Nat) (t : Strand) :
    (s.setStrand n k t).strand m j = if m = n ∧ j = k then t else s.strand m j := by
  unfold State.strand State.setStrand
  rw [State.core_setCore]
  by_cases h : m = n
  · subst h; simp [Core.setStrand, SMap.get_put]
  · simp [h]

@[simp] theorem State.strand_setStrand_self (n k : Nat) (t : Strand) :
    (s.setStrand n k t).strand n k = t := by simp [State.strand_setStrand]

@[simp] theorem State.me_setMe (t : Strand) : (s.setMe t).me = t := State.strand_setStrand_self ..

theorem State.me_eq : s.me = s.strand s.issue.core s.issue.slot := rfl

theorem State.cluster_setCluster (n m : Nat) (k : Cluster) :
    (s.setCluster n k).cluster m = if m = n then k else s.cluster m := SMap.get_put ..

theorem State.port_setPort (n m : Nat) (p : Port) :
    (s.setPort n p).port m = if m = n then p else s.port m := SMap.get_put ..

/-! ### A strand's registers and predicates -/

theorem Strand.reg_setReg (t : Strand) (d r : Reg) (x : PW) :
    (t.setReg d x).reg r = if r = d then x else t.reg r := by
  unfold Strand.reg Strand.setReg
  simp only [SMap.get_put]
  by_cases h : r = d
  · simp [h]
  · have : r.toNat ≠ d.toNat := fun e => h (BitVec.eq_of_toNat_eq e)
    simp [h, this]

@[simp] theorem Strand.reg_setReg_self (t : Strand) (d : Reg) (x : PW) : (t.setReg d x).reg d = x := by
  simp [Strand.reg_setReg]

@[simp] theorem Strand.p_zero (t : Strand) : t.p 0 = true := rfl

@[simp] theorem Strand.setReg_st (t : Strand) (d : Reg) (x : PW) : (t.setReg d x).st = t.st := rfl
@[simp] theorem Strand.setReg_inst (t : Strand) (d : Reg) (x : PW) : (t.setReg d x).inst = t.inst := rfl
@[simp] theorem Strand.setReg_pred (t : Strand) (d : Reg) (x : PW) : (t.setReg d x).pred = t.pred := rfl
@[simp] theorem Strand.setReg_pc (t : Strand) (d : Reg) (x : PW) : (t.setReg d x).pc = t.pc := rfl
@[simp] theorem Strand.setReg_priv (t : Strand) (d : Reg) (x : PW) : (t.setReg d x).priv = t.priv := rfl
@[simp] theorem Strand.setReg_pmode (t : Strand) (d : Reg) (x : PW) : (t.setReg d x).pmode = t.pmode := rfl
@[simp] theorem Strand.setReg_seed (t : Strand) (d : Reg) (x : PW) : (t.setReg d x).seed = t.seed := rfl
@[simp] theorem Strand.setReg_rctr (t : Strand) (d : Reg) (x : PW) : (t.setReg d x).rctr = t.rctr := rfl
@[simp] theorem Strand.setReg_shape (t : Strand) (d : Reg) (x : PW) : (t.setReg d x).shape = t.shape := rfl
@[simp] theorem Strand.setReg_snap (t : Strand) (d : Reg) (x : PW) : (t.setReg d x).snap = t.snap := rfl
@[simp] theorem Strand.setReg_tx (t : Strand) (d : Reg) (x : PW) : (t.setReg d x).tx = t.tx := rfl
@[simp] theorem Strand.setReg_task (t : Strand) (d : Reg) (x : PW) : (t.setReg d x).task = t.task := rfl
@[simp] theorem Strand.setReg_epc (t : Strand) (d : Reg) (x : PW) : (t.setReg d x).epc = t.epc := rfl
@[simp] theorem Strand.setReg_cause (t : Strand) (d : Reg) (x : PW) : (t.setReg d x).cause = t.cause := rfl
@[simp] theorem Strand.setReg_tval (t : Strand) (d : Reg) (x : PW) : (t.setReg d x).tval = t.tval := rfl
@[simp] theorem Strand.setReg_estat (t : Strand) (d : Reg) (x : PW) : (t.setReg d x).estat = t.estat := rfl
@[simp] theorem Strand.setReg_kscr (t : Strand) (d : Reg) (x : PW) : (t.setReg d x).kscr = t.kscr := rfl
@[simp] theorem Strand.setReg_last (t : Strand) (d : Reg) (x : PW) : (t.setReg d x).last = t.last := rfl
@[simp] theorem Strand.setReg_mig (t : Strand) (d : Reg) (x : PW) : (t.setReg d x).mig = t.mig := rfl
@[simp] theorem Strand.setReg_prio (t : Strand) (d : Reg) (x : PW) : (t.setReg d x).prio = t.prio := rfl
@[simp] theorem Strand.setReg_parent (t : Strand) (d : Reg) (x : PW) : (t.setReg d x).parent = t.parent := rfl
@[simp] theorem Strand.setReg_err (t : Strand) (d : Reg) (x : PW) : (t.setReg d x).err = t.err := rfl
@[simp] theorem Strand.setReg_failed (t : Strand) (d : Reg) (x : PW) : (t.setReg d x).failed = t.failed := rfl
@[simp] theorem Strand.setReg_walked (t : Strand) (d : Reg) (x : PW) : (t.setReg d x).walked = t.walked := rfl
@[simp] theorem Strand.setReg_fetchWait (t : Strand) (d : Reg) (x : PW) : (t.setReg d x).fetchWait = t.fetchWait := rfl
@[simp] theorem Strand.setReg_flight (t : Strand) (d : Reg) (x : PW) : (t.setReg d x).flight = t.flight := rfl
@[simp] theorem Strand.setReg_posted (t : Strand) (d : Reg) (x : PW) : (t.setReg d x).posted = t.posted := rfl
@[simp] theorem Strand.setP_st (t : Strand) (n : Pred) (b : Bool) : (t.setP n b).st = t.st := by
  unfold Strand.setP; split <;> rfl
@[simp] theorem Strand.setP_inst (t : Strand) (n : Pred) (b : Bool) : (t.setP n b).inst = t.inst := by
  unfold Strand.setP; split <;> rfl
@[simp] theorem Strand.setP_g (t : Strand) (n : Pred) (b : Bool) : (t.setP n b).g = t.g := by
  unfold Strand.setP; split <;> rfl
@[simp] theorem Strand.setP_pc (t : Strand) (n : Pred) (b : Bool) : (t.setP n b).pc = t.pc := by
  unfold Strand.setP; split <;> rfl
@[simp] theorem Strand.setP_priv (t : Strand) (n : Pred) (b : Bool) : (t.setP n b).priv = t.priv := by
  unfold Strand.setP; split <;> rfl
@[simp] theorem Strand.setP_pmode (t : Strand) (n : Pred) (b : Bool) : (t.setP n b).pmode = t.pmode := by
  unfold Strand.setP; split <;> rfl
@[simp] theorem Strand.setP_seed (t : Strand) (n : Pred) (b : Bool) : (t.setP n b).seed = t.seed := by
  unfold Strand.setP; split <;> rfl
@[simp] theorem Strand.setP_rctr (t : Strand) (n : Pred) (b : Bool) : (t.setP n b).rctr = t.rctr := by
  unfold Strand.setP; split <;> rfl
@[simp] theorem Strand.setP_shape (t : Strand) (n : Pred) (b : Bool) : (t.setP n b).shape = t.shape := by
  unfold Strand.setP; split <;> rfl
@[simp] theorem Strand.setP_snap (t : Strand) (n : Pred) (b : Bool) : (t.setP n b).snap = t.snap := by
  unfold Strand.setP; split <;> rfl
@[simp] theorem Strand.setP_tx (t : Strand) (n : Pred) (b : Bool) : (t.setP n b).tx = t.tx := by
  unfold Strand.setP; split <;> rfl
@[simp] theorem Strand.setP_task (t : Strand) (n : Pred) (b : Bool) : (t.setP n b).task = t.task := by
  unfold Strand.setP; split <;> rfl
@[simp] theorem Strand.setP_epc (t : Strand) (n : Pred) (b : Bool) : (t.setP n b).epc = t.epc := by
  unfold Strand.setP; split <;> rfl
@[simp] theorem Strand.setP_cause (t : Strand) (n : Pred) (b : Bool) : (t.setP n b).cause = t.cause := by
  unfold Strand.setP; split <;> rfl
@[simp] theorem Strand.setP_tval (t : Strand) (n : Pred) (b : Bool) : (t.setP n b).tval = t.tval := by
  unfold Strand.setP; split <;> rfl
@[simp] theorem Strand.setP_estat (t : Strand) (n : Pred) (b : Bool) : (t.setP n b).estat = t.estat := by
  unfold Strand.setP; split <;> rfl
@[simp] theorem Strand.setP_kscr (t : Strand) (n : Pred) (b : Bool) : (t.setP n b).kscr = t.kscr := by
  unfold Strand.setP; split <;> rfl
@[simp] theorem Strand.setP_last (t : Strand) (n : Pred) (b : Bool) : (t.setP n b).last = t.last := by
  unfold Strand.setP; split <;> rfl
@[simp] theorem Strand.setP_mig (t : Strand) (n : Pred) (b : Bool) : (t.setP n b).mig = t.mig := by
  unfold Strand.setP; split <;> rfl
@[simp] theorem Strand.setP_prio (t : Strand) (n : Pred) (b : Bool) : (t.setP n b).prio = t.prio := by
  unfold Strand.setP; split <;> rfl
@[simp] theorem Strand.setP_parent (t : Strand) (n : Pred) (b : Bool) : (t.setP n b).parent = t.parent := by
  unfold Strand.setP; split <;> rfl
@[simp] theorem Strand.setP_err (t : Strand) (n : Pred) (b : Bool) : (t.setP n b).err = t.err := by
  unfold Strand.setP; split <;> rfl
@[simp] theorem Strand.setP_failed (t : Strand) (n : Pred) (b : Bool) : (t.setP n b).failed = t.failed := by
  unfold Strand.setP; split <;> rfl
@[simp] theorem Strand.setP_walked (t : Strand) (n : Pred) (b : Bool) : (t.setP n b).walked = t.walked := by
  unfold Strand.setP; split <;> rfl
@[simp] theorem Strand.setP_fetchWait (t : Strand) (n : Pred) (b : Bool) : (t.setP n b).fetchWait = t.fetchWait := by
  unfold Strand.setP; split <;> rfl
@[simp] theorem Strand.setP_flight (t : Strand) (n : Pred) (b : Bool) : (t.setP n b).flight = t.flight := by
  unfold Strand.setP; split <;> rfl
@[simp] theorem Strand.setP_posted (t : Strand) (n : Pred) (b : Bool) : (t.setP n b).posted = t.posted := by
  unfold Strand.setP; split <;> rfl

/-- A predicate written reads back; p0 keeps reading 1 (R20). -/
theorem Strand.p_setP_self (t : Strand) {n : Pred} (b : Bool) (h : n ≠ 0) : (t.setP n b).p n = b := by
  have hb : (BitVec.ofNat 16 (2 ^ n.toNat)).getLsbD n.toNat = true := by
    rw [BitVec.getLsbD_ofNat]
    simpa [Nat.testBit_two_pow] using n.isLt
  have hz : (n == 0) = false := by simpa using h
  unfold Strand.setP Strand.p
  rw [if_neg h, hz]
  have hn : n.toNat < 16 := n.isLt
  generalize BitVec.ofNat 16 (2 ^ n.toNat) = m at hb
  cases b
  · simp only [Bool.false_eq_true, if_false, BitVec.getLsbD_and, BitVec.getLsbD_not, hb]; simp
  · simp only [if_true, BitVec.getLsbD_or, hb]; simp

end Sys2Proof.Machine
end

