-- ==== Sys2Proof/Laws/Issue.lean ====
section
/-! SUPPORT. What the checks around an instruction do: one lemma for each outcome, so that no proof
unfolds them. -/

namespace Sys2Proof.Machine

/-! ### The opened state -/

variable (s : State) (i : Instr)

@[simp] theorem State.me_opened : (s.opened i).me = s.me := rfl
@[simp] theorem State.myCore_opened : (s.opened i).myCore = s.myCore := rfl
@[simp] theorem State.core_opened (n : Nat) : (s.opened i).core n = s.core n := rfl
@[simp] theorem State.strand_opened (n k : Nat) : (s.opened i).strand n k = s.strand n k := rfl
@[simp] theorem State.g_opened (r : Reg) : (s.opened i).g r = s.g r := rfl
@[simp] theorem State.gv_opened (r : Reg) : (s.opened i).gv r = s.gv r := rfl
@[simp] theorem State.gp_opened (r : Reg) : (s.opened i).gp r = s.gp r := rfl
@[simp] theorem State.p_opened (n : Pred) : (s.opened i).p n = s.p n := rfl
@[simp] theorem State.mw_opened : (s.opened i).mw = s.mw := rfl
@[simp] theorem State.got_opened : (s.opened i).got = s.got := rfl
@[simp] theorem State.answer_opened (n : Nat) : (s.opened i).answer n = s.answer n := rfl
@[simp] theorem State.nextPc_opened : (s.opened i).nextPc = s.nextPc := rfl
@[simp] theorem State.issue_core_opened : (s.opened i).issue.core = s.issue.core := rfl
@[simp] theorem State.issue_slot_opened : (s.opened i).issue.slot = s.issue.slot := rfl
@[simp] theorem State.issue_len_opened : (s.opened i).issue.len = s.issue.len := rfl
@[simp] theorem State.byte_opened (k : Nat) : (s.opened i).byte k = s.byte k := rfl
@[simp] theorem State.man_opened : (s.opened i).man = s.man := rfl

variable {s i}

/-! ### begin -/

/-- An instruction that may be carried out is its own meaning on the opened state. -/
theorem begin_of_issues {g : Guard} (h : s.Issues i g) (body : State → Res) :
    begin i g s body = body (s.opened i) := by
  obtain ⟨-, hf, hs, hl, hg, hp⟩ := h
  have hs' : (s.issue.mw.any (fun m => m.rm == 5) && !s.feature 5) = false := by
    cases hm : s.issue.mw.any (fun m => m.rm == 5)
    · rfl
    · simp [hs hm]
  have hl' : (i.supervisor && !s.me.priv) = false := by
    cases hm : i.supervisor
    · rfl
    · simp [hl hm]
  unfold begin
  dsimp only
  have e1 : featureOk { s with issue := { s.issue with instr := i, pops := false } } i
      = featureOk s i := by cases i <;> rfl
  have e2 : State.passes { s with issue := { s.issue with instr := i, pops := false } } g
      = s.passes g := rfl
  rw [if_neg, if_neg, if_neg]
  · unfold portGate
    rcases hp with hp | ⟨hm, h30, h31⟩
    · have : (State.me { s with issue := { s.issue with instr := i, pops := false } }).pmode
          = false := hp
      rw [if_pos (by simp [this])]
      simp [State.opened, hp]
    · by_cases hq : s.me.pmode = true
      · have hq' : (State.me { s with issue := { s.issue with instr := i, pops := false } }).pmode
          = true := hq
        have hm' : portMisuse (State.ownsPort { s with issue := { s.issue with instr := i, pops := false } })
            (named i).1 (named i).2 = none := hm
        rw [if_neg (by simp [hq']), hm']
        dsimp only
        rw [if_neg, if_neg]
        · simp [State.opened, hq]
        · intro hc
          simp only [Bool.and_eq_true, decide_eq_true_eq] at hc
          exact absurd hc.2 (Nat.not_le.mpr (h31 hc.1))
        · intro hc
          simp only [Bool.and_eq_true] at hc
          exact h30 hc.1 (List.isEmpty_iff.mp hc.2)
      · have hq'' : s.me.pmode = false := by simpa using hq
        have hq' : (State.me { s with issue := { s.issue with instr := i, pops := false } }).pmode
          = false := hq''
        rw [if_pos (by simp [hq'])]
        simp [State.opened, hq'']
  · rw [e2, hg]; simp
  · change ¬ (i.supervisor && !s.me.priv) = true
    rw [hl']; simp
  · rw [e1, hf]
    change ¬ (!true || s.issue.mw.any (fun m => m.rm == 5) && !s.feature 5) = true
    rw [hs']; simp

theorem event_of_running (h : s.man.stopped = false) (t : State) : event s t = .next t := by
  simp [event, h]

/-- The outcome of an instruction that may be carried out. -/
theorem run_of_issues {g : Guard} (h : s.Issues i g) (body : State → Res) :
    run i g s body = .next (body (s.opened i)).state := by
  rw [run, event_of_running h.running, begin_of_issues h]

/-- A meaning that completes leaves the instruction completed. -/
theorem run_done {g : Guard} (h : s.Issues i g) {body : State → Res} {t : State}
    (hb : body (s.opened i) = .done t) : run i g s body = .next t.completes := by
  rw [run_of_issues h, hb]; rfl

/-- A meaning that ends in a transfer of control leaves the strand at its target. -/
theorem run_jump {g : Guard} (h : s.Issues i g) {body : State → Res} {t : State} {pc : Word}
    (hb : body (s.opened i) = .jump t pc) : run i g s body = .next (t.retire pc) := by
  rw [run_of_issues h, hb]; rfl

/-- A meaning that traps takes the trap at the issuing strand. -/
theorem run_trap {g : Guard} (h : s.Issues i g) {body : State → Res} {t : State} {cause : BitVec 5}
    {code : Code} {v : Word} (hb : body (s.opened i) = .trap t cause code v) :
    run i g s body = .next (t.trap t.issue.core t.issue.slot cause code v t.me.pc t.issue.len) := by
  rw [run_of_issues h, hb]; rfl

/-- A strand that has left its slot. -/
theorem run_gone {g : Guard} (h : s.Issues i g) {body : State → Res} {t : State}
    (hb : body (s.opened i) = .gone t) : run i g s body = .next t := by
  rw [run_of_issues h, hb]; rfl

/-- A clean source is consumed without a trap. -/
theorem consume_clean {s : State} {rs : List Reg} (h : ∀ r ∈ rs, s.gp r = false) (k : State → Res) :
    consume s rs k = k s := by
  unfold consume
  have : rs.find? (fun r => s.gp r) = none := by simpa using h
  rw [this]

/-- Without an answer the instruction makes its checks. -/
theorem answered_none {s : State} {fin : State → Answer → Res} {first : State → Res}
    (h : s.answer 0 = none) : answered s fin first = first s := by simp [answered, h]

/-- A strand whose stores have all been accepted drains at once. -/
theorem draining_settled {s : State} (h : s.settled) (got : List (Nat × Answer))
    (k : State → Res) : draining s got k = k s := by simp [draining, unlessError, h.1, h.2]

/-- A release that has nothing to wait for goes on. -/
theorem releasing_released {s : State} {scope : Nat} (h : s.released scope) (k : State → Res) :
    releasing s scope k = k s := by simp [releasing, unlessError, h.1, h.2]

/-- What stands at the place of a trap (R339), when it is not a double trap. -/
theorem State.trap_eq (s : State) (n k : Nat) (cause : BitVec 5) (code : Code) (v pc : Word) (len : Nat)
    (h : ((s.strand n k).priv && !(s.strand n k).estat.getLsbD 7) = false) :
    s.trap n k cause code v pc len =
      (if recorded cause then s.record code n v.toNat else s).setStrand n k
        ((s.strand n k).enter (s.core n).tvec cause code v pc len false false) := by
  unfold State.trap
  cases recorded cause
  · simp only [h, Bool.false_eq_true, if_false]
  · have e1 : (s.record code n v.toNat).strand n k = s.strand n k := rfl
    have e2 : (s.record code n v.toNat).core n = s.core n := rfl
    simp only [h, Bool.false_eq_true, if_false, if_true, e2]

/-! ### From a meaning to exec -/

section
variable {s t : State} {i : Instr} {g : Guard} {body : State → Res}

theorem exec_done (he : exec i s = run i g s body) (h : s.Issues i g)
    (hb : body (s.opened i) = .done t) : exec i s = .next t.completes := he.trans (run_done h hb)

theorem exec_jump {pc : Word} (he : exec i s = run i g s body) (h : s.Issues i g)
    (hb : body (s.opened i) = .jump t pc) : exec i s = .next (t.retire pc) := he.trans (run_jump h hb)

theorem exec_trap {cause : BitVec 5} {code : Code} {v : Word} (he : exec i s = run i g s body)
    (h : s.Issues i g) (hb : body (s.opened i) = .trap t cause code v) : exec i s =
      .next (t.trap t.issue.core t.issue.slot cause code v t.me.pc t.issue.len) :=
  he.trans (run_trap h hb)

theorem exec_gone (he : exec i s = run i g s body) (h : s.Issues i g)
    (hb : body (s.opened i) = .gone t) : exec i s = .next t := he.trans (run_gone h hb)

theorem clean_opened {rs : List Reg} (h : s.clean rs) : (s.opened i).clean rs := h

theorem clean_cons {r : Reg} {rs : List Reg} (h1 : s.clean [r]) (h : s.clean rs) :
    s.clean (r :: rs) := by
  intro x hx
  rcases List.mem_cons.mp hx with rfl | hx
  · exact h1 _ (by simp)
  · exact h _ hx

theorem clean_find {rs : List Reg} (h : s.clean rs) : rs.find? (fun r => s.gp r) = none := by
  simpa [State.clean] using h

theorem settled_opened (h : s.settled) : (s.opened i).settled := h

end

end Sys2Proof.Machine
end

