-- ==== Sys2Proof/Laws/Access.lean ====
section
/-! SUPPORT. What the shared accesses do: one lemma for each way an access of the own scratchpad, or an
answered one, ends. -/

namespace Sys2Proof.Machine

/-! ### The own scratchpad -/

theorem checkWord_sound {s : State} {core w : Nat}
    (h : SMap.get s.latent 0 (spadKey core (8 * w) / 8) = 0) : s.checkWord core w = s := by
  simp [State.checkWord, State.checkTag, State.checkData, h]

theorem checkTags_sound {s : State} {core : Nat} {ws : List Nat}
    (h : ∀ w ∈ ws, SMap.get s.latent 0 (spadKey core (8 * w) / 8) = 0) : s.checkTags core ws = s := by
  unfold State.checkTags
  induction ws with
  | nil => rfl
  | cons w r ih =>
    rw [List.foldl_cons, show s.checkTag core w = s by simp [State.checkTag, h w (by simp)]]
    exact ih fun x hx => h x (by simp [hx])

theorem checkWords_sound {s : State} {core : Nat} {ws : List Nat}
    (h : ∀ w ∈ ws, SMap.get s.latent 0 (spadKey core (8 * w) / 8) = 0) : s.checkWords core ws = s := by
  unfold State.checkWords
  induction ws with
  | nil => rfl
  | cons w r ih =>
    rw [List.foldl_cons, checkWord_sound (h w (by simp))]
    exact ih fun x hx => h x (by simp [hx])

theorem answer_of_flight {s : State} (h : s.me.flight = none) (n : Nat) : s.answer n = none := by
  simp [State.answer, State.got, h]

variable {s : State} {ea : Word} {o n : Nat}

theorem State.OwnWords.class_ne (h : s.OwnWords ea o n) : regionClass ea ≠ 0 ∧ regionClass ea ≠ 3 := by
  have h := h.region
  unfold regionOf at h
  unfold regionClass
  dsimp only at h ⊢
  split at h
  · simp at h
  · rename_i h1
    split at h
    · rename_i h2; rw [if_neg h1, if_pos h2]; decide
    · rename_i h2
      split at h
      · rename_i h3; rw [if_neg h1, if_neg h2, if_pos h3]; decide
      · simp at h

theorem State.OwnWords.check (h : s.OwnWords ea o n) (need : Need) :
    s.checkAccess ea n n need = .ok := by
  obtain ⟨h0, h3⟩ := h.class_ne
  unfold State.checkAccess
  rw [if_neg h3, if_neg (by simp [h.aligned, h.within]), if_pos h0]
  rcases h.allowed with hp | hr
  · simp [hp]
  · simp [hr]

theorem State.OwnWords.spot (h : s.OwnWords ea o n) : s.spot ea = some (.spad s.issue.core o) := by
  unfold State.spot
  rw [h.region]

theorem State.OwnWords.answer (h : s.OwnWords ea o n) (k : Nat) : s.answer k = none :=
  answer_of_flight h.afresh k

theorem State.OwnWords.words (h : s.OwnWords ea o n) :
    s.checkWords s.issue.core (wordsOf o n) = s := checkWords_sound h.sound

theorem State.OwnWords.tags (h : s.OwnWords ea o n) :
    s.checkTags s.issue.core (wordsOf o n) = s := checkTags_sound h.sound

theorem ownTag_ready {s : State} {o n : Nat} {full : Bool} (k : State → Res)
    (hs : s.checkTags s.issue.core (wordsOf o n) = s) (hf : s.me.flight = none)
    (ht : s.tagsReady o n full) : ownTag s o n full k = k s := by
  unfold ownTag
  simp only [hs]
  have : s.tagSince (.tag s.issue.core (wordsOf o n) full) = s.nextId := by simp [State.tagSince, hf]
  rw [this]; exact if_pos ht

@[simp] theorem Res.issued_done (ea : Word) (s : State) : (Res.done s).issued ea = .done s := rfl
@[simp] theorem Res.issued_jump (ea : Word) (s : State) (pc : Word) :
    (Res.jump s pc).issued ea = .jump s pc := rfl
@[simp] theorem Res.issued_gone (ea : Word) (s : State) : (Res.gone s).issued ea = .gone s := rfl
@[simp] theorem Res.issued_trap (ea : Word) (s : State) (c : BitVec 5) (code : Code) (v : Word) :
    (Res.trap s c code v).issued ea = .trap s c code v := rfl
@[simp] theorem Res.issued_await (ea : Word) (s : State) (n : Nat) (got : List (Nat × Answer)) :
    (Res.await s n got).issued ea = .await s n got := rfl
@[simp] theorem Res.issued_walk (ea : Word) (s : State) (g : Nat) (got : List (Nat × Answer)) :
    (Res.hold s (.walk g) got).issued ea = .hold s (.walk g) got := rfl

/-- A load from the own scratchpad whose checks pass and whose words are full ends at once. -/
theorem loadAt_own {s : State} {srcs : List Reg} {ea : Word} {o n : Nat}
    {fin : State → List Byte → List Bool → Res} (hc : s.clean srcs) (h : s.OwnWords ea o n)
    (ht : s.tagsReady o n true) :
    loadAt s srcs ea n fin =
      (fin s (s.bytes (spadKey s.issue.core o) n)
        ((wordsOf o n).map (s.spadPois s.issue.core))).issued ea := by
  unfold loadAt
  rw [answered_none (h.answer 0), consume_clean hc, h.check]
  simp only [Chk.andThen, State.pageRules, h.spot, readUnit, if_true]
  rw [ownTag_ready _ h.tags h.afresh ht]
  simp only [State.readSpad, h.words]

/-- A store to the own scratchpad whose checks pass ends at once. -/
theorem storeAt_own {s : State} {addressed rel : Bool} {srcs : List Reg} {dirty : Option Reg} {ea : Word} {o : Nat}
    {bs : List Byte} {ps : List Bool} (hc : s.clean srcs) (h : s.OwnWords ea o bs.length)
    (hr : s.mayStore rel) :
    storeAt s addressed rel srcs dirty ea bs ps = .done (s.writeSpad s.issue.core o bs ps) := by
  have ho : (s.oflag && s.postedOn (.spad s.issue.core)) = false := by
    cases e : s.oflag
    · rfl
    · exact hr.2 e
  unfold storeAt
  rw [answered_none (h.answer 0), consume_clean hc, h.check]
  simp only [Chk.andThen, h.spot]
  cases rel
  · simp only [releaseIf, Bool.false_eq_true, if_false, if_true, ho, Res.issued_done]
  · simp only [releaseIf, scopeOf, releasing_released (hr.1 rfl), Bool.false_eq_true, if_false, if_true, ho,
      Res.issued_done]

theorem answered_data {s : State} {bs : List Byte} {ps : List Bool} {fin : State → Answer → Res}
    {first : State → Res} (h : s.answer 0 = some (.data bs ps)) :
    answered s fin first = fin s (.data bs ps) := by simp [answered, h]

theorem answered_pred {s : State} {b : Bool} {fin : State → Answer → Res}
    {first : State → Res} (h : s.answer 0 = some (.pred b)) :
    answered s fin first = fin s (.pred b) := by simp [answered, h]

theorem answered_word {s : State} {v : Word} {p : Bool} {fin : State → Answer → Res}
    {first : State → Res} (h : s.answer 0 = some (.word v p)) :
    answered s fin first = fin s (.word v p) := by simp [answered, h]

/-- An answer that is a trap is taken as the instruction's own (R262). -/
theorem answered_trap {s : State} {cause : BitVec 5} {code : Code} {v : Word}
    {fin : State → Answer → Res} {first : State → Res} (h : s.answer 0 = some (.trap cause code v)) :
    answered s fin first = .trap s cause code v := by simp [answered, h]

/-! ### The opened state, and the words of an aligned access -/

@[simp] theorem State.bytes_opened (s : State) (i : Instr) (k n : Nat) :
    (s.opened i).bytes k n = s.bytes k n := by
  induction n generalizing k with
  | zero => rfl
  | succ n ih => simp only [State.bytes, ih, State.byte_opened]

@[simp] theorem State.spadPois_opened (s : State) (i : Instr) (k n : Nat) :
    (s.opened i).spadPois k n = s.spadPois k n := rfl

theorem State.OwnWords.opened {s : State} {i : Instr} {ea : Word} {o n : Nat} (h : s.OwnWords ea o n) :
    (s.opened i).OwnWords ea o n := ⟨h.1, h.2, h.3, h.4, h.5, h.6⟩

theorem State.tagsReady.opened {s : State} {i : Instr} {o n : Nat} {f : Bool} (h : s.tagsReady o n f) :
    (s.opened i).tagsReady o n f := h

theorem wordsOf_one {o n : Nat} (h : o % n = 0) (hn : n = 1 ∨ n = 2 ∨ n = 4 ∨ n = 8) :
    wordsOf o n = [o / 8] := by
  have h0 : n ≠ 0 := by omega
  have : (o + n - 1) / 8 + 1 - o / 8 = 1 := by rcases hn with rfl | rfl | rfl | rfl <;> omega
  rw [wordsOf, if_neg h0, this]; simp [List.range_succ]

theorem wordsOf_two {o : Nat} (h : o % 8 = 0) : wordsOf o 16 = [o / 8, o / 8 + 1] := by
  have : (o + 16 - 1) / 8 + 1 - o / 8 = 2 := by omega
  rw [wordsOf, if_neg (by omega), this]; simp [List.range_succ]; omega

theorem State.OwnWords.align {s : State} {ea : Word} {o n : Nat} (h : s.OwnWords ea o n)
    (hd : n ∣ 2 ^ 20) : o % n = 0 := by
  have a := h.aligned
  have r := h.region
  unfold regionOf at r
  dsimp only at r
  split at r
  · simp at r
  · split at r
    · obtain ⟨_, r⟩ := Region.spad.inj r
      rw [← r]
      have h1 : n ∣ (ea.toNat - 0xFFFFFFFFFC000000) :=
        Nat.dvd_sub (Nat.dvd_of_mod_eq_zero a) (hd.trans (by decide))
      exact Nat.mod_eq_zero_of_dvd ((Nat.dvd_mod_iff hd).mpr h1)
    · split at r
      · obtain ⟨_, r⟩ := Region.spad.inj r
        rw [← r]
        exact Nat.mod_eq_zero_of_dvd (Nat.dvd_sub (Nat.dvd_of_mod_eq_zero a) (hd.trans (by decide)))
      · simp at r

/-! ### Futures at a table port of the own module -/

theorem State.Live.opened {s : State} {i : Instr} {h : Word} {e : FutEntry} (l : s.Live h e) :
    (s.opened i).Live h e := ⟨l.1, l.2, l.3, l.4, l.5, l.6, l.7, l.8⟩

/-- A live future is seen, and nothing is filled. -/
theorem State.Live.peek {s : State} {h : Word} {e : FutEntry} (l : s.Live h e) :
    s.peek h = (.entry (hCluster h) (hSlot h) e, s) := by
  have hf : s.fill (hCluster h) (hSlot h) = (some e, s) := by
    unfold State.fill
    dsimp only
    rw [if_neg (by simp [l.kept]), l.held]
  unfold State.peek
  dsimp only
  rw [if_neg, hf]
  · dsimp only
    rw [if_neg]
    rintro (h | h | h)
    · exact l.live h
    · exact h l.gen.2
    · exact h l.kind.2
  · rintro (h | h | h | h | h)
    · exact h l.own
    · exact absurd l.cluster (by omega)
    · exact l.gen.1 h
    · have := l.kind.1; omega
    · exact l.base h

/-- A live future that a request names is found, and has been used (R152). -/
theorem State.Live.find {s : State} {h : Word} {e : FutEntry} (l : s.Live h e) :
    s.find h = (.entry (hCluster h) (hSlot h) e, s.renew (hCluster h) (hSlot h) e) := by
  simp only [State.find, l.peek]

/-- A request to a table port of the own module is served at once. -/
theorem viaPort_here {s : State} {h : Word} {code : Nat} {x : Word} {here : State → PortAns × State}
    {k : State → PortAns → Res} (ho : hModule h = s.modNo.toNat) (hf : s.me.flight = none) :
    viaPort s h code x here k = k (here s).2 (here s).1 := by
  unfold viaPort
  rw [answered_none (answer_of_flight hf 0), if_pos ho]

end Sys2Proof.Machine
end

