-- ==== Sys2Proof/Laws/Engine.lean ====
section
/-! SUPPORT. Where the engines find their words: one in a scratchpad is found without a change of state, and
decidable conditions under which a row or the words of a copy are at hand. -/

namespace Sys2Proof.Machine

variable {s : State}

theorem State.loomSpot_spad {c : LoomCmd} {need : Need} {ea : Word} {n wa k o : Nat}
    (h : (s.loomSpot c need ea n wa).1 = .spad k o) : s.loomSpot c need ea n wa = (.spad k o, s) := by
  revert h
  simp only [State.loomSpot]
  repeat' split
  all_goals simp

theorem State.copySpot_spad {x : CopyCtx} {need : Need} {va k o : Nat}
    (h : (s.copySpot x need va).1 = .spad k o) : s.copySpot x need va = (.spad k o, s) := by
  revert h
  simp only [State.copySpot]
  repeat' split
  all_goals simp

theorem State.takes_of {own : List (Nat × Nat)} {k o n : Nat} (hl : s.latent = [])
    (h : (own.contains (k, o / 8) || s.tagsAllow k [o / 8] true s.nextId) = true) : s.takes own k o n :=
  ⟨fun w _ => by rw [hl]; rfl, by simpa using h⟩

/-- A row whose words lie in scratchpads and are full and clean is at hand. -/
theorem State.rowHere_of {c : LoomCmd} {need : Need} {ea : Word} {n : Nat} (hl : s.latent = [])
    (h : ((alignedWords ea.toNat n).all fun wa => match (s.loomSpot c need ea n wa).1 with
      | .spad k o => s.tagsAllow k [o / 8] true s.nextId && !s.spadPois k (o / 8)
      | _ => false) = true) : s.RowHere c need ea n := by
  intro wa hw
  have hx := List.all_eq_true.mp h wa hw
  split at hx
  · rename_i k o e
    simp only [Bool.and_eq_true, Bool.not_eq_true'] at hx
    exact ⟨k, o, State.loomSpot_spad e, fun _ => ⟨State.takes_of hl (by simp [hx.1]), hx.2⟩⟩
  · exact absurd hx (by decide)

/-- The words of a copy that lie in scratchpads and whose sources are full are at hand. -/
theorem State.copyHere_of {x : CopyCtx} {own : List (Nat × Nat)} {ws : List CopyWord} (hl : s.latent = [])
    (hr : s.replies = [])
    (h : ((copySources ws).all fun va => match (s.copySpot x .read va).1 with
      | .spad k o => own.contains (k, o / 8) || s.tagsAllow k [o / 8] true s.nextId
      | _ => false) = true)
    (h2 : (ws.all fun w => match (s.copySpot x .write w.dst).1 with
      | .spad _ _ => true
      | _ => false) = true) : s.CopyHere x own ws := by
  refine ⟨by rw [State.quiet, hr]; nofun, fun va hv => ?_, fun w hw => ?_⟩
  · have hx := List.all_eq_true.mp h va hv
    split at hx
    · rename_i k o e
      exact ⟨k, o, State.copySpot_spad e, State.takes_of hl hx⟩
    · exact absurd hx (by decide)
  · have hx := List.all_eq_true.mp h2 w hw
    split at hx
    · rename_i k o e
      exact ⟨k, o, State.copySpot_spad e⟩
    · exact absurd hx (by decide)

end Sys2Proof.Machine
end

