-- ==== Sys2Proof/Laws/Memory.lean ====
section
/-! SUPPORT. The bytes of memory: what reads after a write, what a check of stored words leaves alone,
and that every write keeps the canonical form. -/

namespace Sys2Proof.Machine

/-! ### The list of bytes -/

theorem putByte_wf {m : List Host.Cell} (k : Nat) (b : Byte) (h : Memory.wf m = true) :
    Memory.wf (putByte m k b) = true := SMap.wf_put k b h

theorem putBytes_wf (bs : List Byte) : ∀ {m : List Host.Cell} (k : Nat), Memory.wf m = true →
    Memory.wf (putBytes m k bs) = true := by
  induction bs with
  | nil => exact fun _ h => h
  | cons b r ih => exact fun k h => ih (k + 1) (putByte_wf k b h)

theorem reset_inv : State.reset.Inv := rfl

/-- A byte outside those written reads as before. -/
theorem get_putBytes_of_lt (bs : List Byte) : ∀ (m : List Host.Cell) (k : Nat) {a : Nat},
    a < k ∨ k + bs.length ≤ a → SMap.get (putBytes m k bs) 0 a = SMap.get m 0 a := by
  induction bs with
  | nil => exact fun _ _ _ _ => rfl
  | cons b r ih =>
    intro m k a h
    have hl : (b :: r).length = r.length + 1 := rfl
    rw [hl] at h
    show SMap.get (putBytes (putByte m k b) (k + 1) r) 0 a = _
    rw [ih _ _ (by omega), putByte, SMap.get_put_of_ne _ _ _ (by omega)]

/-- A byte written reads back. -/
theorem get_putBytes_add (bs : List Byte) : ∀ (m : List Host.Cell) (k i : Nat) (h : i < bs.length),
    SMap.get (putBytes m k bs) 0 (k + i) = bs[i] := by
  induction bs with
  | nil => exact fun _ _ _ h => absurd h (Nat.not_lt_zero _)
  | cons b r ih =>
    intro m k i h
    show SMap.get (putBytes (putByte m k b) (k + 1) r) 0 (k + i) = _
    cases i with
    | zero => rw [get_putBytes_of_lt _ _ _ (by omega), putByte]; simp
    | succ j =>
      have := ih (putByte m k b) (k + 1) j (by simpa using h)
      rw [show k + (j + 1) = k + 1 + j by omega, this]; rfl

/-! ### The state's bytes -/

variable (s : State)

theorem State.putBytes_mem (k : Nat) (bs : List Byte) :
    (s.putBytes k bs).mem = Machine.putBytes s.mem k bs := rfl

theorem State.byte_putBytes_of_lt (k : Nat) (bs : List Byte) {a : Nat} (h : a < k ∨ k + bs.length ≤ a) :
    (s.putBytes k bs).byte a = s.byte a := get_putBytes_of_lt bs s.mem k h

theorem State.byte_putBytes_add (k : Nat) (bs : List Byte) (i : Nat) (h : i < bs.length) :
    (s.putBytes k bs).byte (k + i) = bs[i] := get_putBytes_add bs s.mem k i h

theorem State.bytes_length (k n : Nat) : (s.bytes k n).length = n := by
  induction n generalizing k with
  | zero => rfl
  | succ n ih => simp [State.bytes, ih]

theorem State.bytes_getElem (k n i : Nat) (h : i < (s.bytes k n).length) :
    (s.bytes k n)[i] = s.byte (k + i) := by
  induction n generalizing k i with
  | zero => simp [State.bytes] at h
  | succ n ih =>
    cases i with
    | zero => rfl
    | succ j =>
      simp only [State.bytes, List.getElem_cons_succ]
      rw [ih]; congr 1; omega

/-- The bytes written read back together. -/
theorem State.bytes_putBytes (k : Nat) (bs : List Byte) : (s.putBytes k bs).bytes k bs.length = bs := by
  apply List.ext_getElem
  · simp [State.bytes_length]
  · intro i h1 h2
    rw [State.bytes_getElem, State.byte_putBytes_add _ _ _ _ h2]

theorem State.bytes_congr {s t : State} (h : t.mem = s.mem) (k n : Nat) : t.bytes k n = s.bytes k n := by
  induction n generalizing k with
  | zero => rfl
  | succ n ih => simp only [State.bytes, ih, State.byte, h]

theorem State.Inv.of_mem {s t : State} (h : s.Inv) (e : t.mem = s.mem) : t.Inv := by
  unfold State.Inv at *; rw [e]; exact h

theorem State.Inv.putBytes {s : State} (h : s.Inv) (k : Nat) (bs : List Byte) : (s.putBytes k bs).Inv :=
  putBytes_wf bs k h

/-! ### Checks of stored words (R202, R211, R212) -/

@[simp] theorem State.checkData_mem (core w : Nat) : (s.checkData core w).mem = s.mem := by
  unfold State.checkData; dsimp only; split
  · rfl
  · split <;> rfl

@[simp] theorem State.checkTag_mem (core w : Nat) : (s.checkTag core w).mem = s.mem := by
  unfold State.checkTag; dsimp only; split <;> rfl

@[simp] theorem State.checkWord_mem (core w : Nat) : (s.checkWord core w).mem = s.mem := by
  simp [State.checkWord]

@[simp] theorem State.checkWords_mem (core : Nat) (ws : List Nat) :
    (s.checkWords core ws).mem = s.mem := by
  unfold State.checkWords
  induction ws generalizing s with
  | nil => rfl
  | cons w r ih => rw [List.foldl_cons, ih, State.checkWord_mem]

@[simp] theorem State.checkGran_mem (g : Nat) : (s.checkGran g).mem = s.mem := by
  unfold State.checkGran; dsimp only; split
  · rfl
  · split
    · rfl
    · split <;> rfl

@[simp] theorem State.readSpad_mem (core o n : Nat) : (s.readSpad core o n).2.2.mem = s.mem :=
  State.checkWords_mem s core _

theorem State.readSpad_bytes (core o n : Nat) :
    (s.readSpad core o n).1 = s.bytes (spadKey core o) n :=
  State.bytes_congr (State.checkWords_mem s core _) _ _

theorem foldl_mem {α : Type} (f : State → α → State) (h : ∀ s x, (f s x).mem = s.mem) (l : List α) :
    ∀ s, (l.foldl f s).mem = s.mem := by
  induction l with
  | nil => exact fun _ => rfl
  | cons x r ih => exact fun s => by rw [List.foldl_cons, ih, h]

/-- A fold of moves that keep a property keeps it. -/
theorem foldl_keeps {α : Type} (P : State → Prop) (f : State → α → State) (h : ∀ s x, P s → P (f s x))
    (l : List α) : ∀ s, P s → P (l.foldl f s) := by
  induction l with
  | nil => exact fun _ hs => hs
  | cons x r ih => exact fun s hs => ih _ (h s x hs)

@[simp] theorem State.readHbm_mem (o n : Nat) : (s.readHbm o n).2.2.mem = s.mem :=
  foldl_mem _ (fun s g => State.checkGran_mem s g) _ s

theorem State.readHbm_bytes (o n : Nat) : (s.readHbm o n).1 = s.bytes o n :=
  State.bytes_congr (foldl_mem _ (fun s g => State.checkGran_mem s g) _ s) _ _

/-! ### Writes (R108, R202, R212) -/

theorem State.writeGrans_mem (o : Nat) (bs : List Byte) :
    (s.writeGrans o bs).mem = Machine.putBytes s.mem o bs := by
  unfold State.writeGrans
  rw [State.putBytes_mem, foldl_mem]
  intro t g; split
  · rfl
  · exact State.checkGran_mem t g

/-- The loss of the records of a block moves its head, and writes nothing else. -/
theorem State.Inv.loseRecords {s : State} (h : s.Inv) (o n : Nat) : (s.loseRecords o n).Inv := by
  unfold State.loseRecords
  dsimp only
  refine foldl_keeps State.Inv _ ?_ _ _ (foldl_keeps State.Inv _ ?_ _ _ h) <;>
  · intro t x ht
    split
    · exact ht
    · exact putBytes_wf _ _ ht

/-- A write that touches no base or m of a block with commands waiting loses none of them. -/
theorem State.loseRecords_none (o n : Nat)
    (hl : ∀ x ∈ s.loomQ, touchesBlock o n x.1 = true → x.2.cmds = [])
    (hs : ∀ x ∈ s.scrQ, touchesBlock o n x.1 = true → x.2.cmds = []) : s.loseRecords o n = s := by
  have keep {α : Type} (f : State → α → State) (l : List α) (hf : ∀ s, ∀ x ∈ l, f s x = s) (s : State) :
      l.foldl f s = s := by
    induction l with
    | nil => rfl
    | cons x r ih => rw [List.foldl_cons, hf s x (by simp), ih fun t y hy => hf t y (by simp [hy])]
  unfold State.loseRecords
  dsimp only
  rw [keep _ (s.loomQ.filter _) fun t x hx => ?_, keep _ (s.scrQ.filter _) fun t x hx => ?_]
  · rw [hs x (List.mem_of_mem_filter hx) (List.mem_filter.mp hx).2]
  · rw [hl x (List.mem_of_mem_filter hx) (List.mem_filter.mp hx).2]

theorem State.writeSpad_mem (core o : Nat) (bs : List Byte) (ps : List Bool) :
    (s.writeSpad core o bs ps).mem = Machine.putBytes s.mem (spadKey core o) bs := by
  unfold State.writeSpad
  rw [State.putBytes_mem, foldl_mem]
  intro t w; dsimp only; split
  · rfl
  · exact State.checkData_mem t core w

@[simp] theorem State.markDirty_mem (o : Nat) : (s.markDirty o).mem = s.mem := by
  unfold State.markDirty; dsimp only; split <;> rfl

theorem State.Inv.writeHbm {s : State} (h : s.Inv) (o : Nat) (bs : List Byte) : (s.writeHbm o bs).Inv := by
  refine State.Inv.loseRecords ?_ _ _
  unfold State.Inv
  rw [foldl_mem _ fun t l => State.markDirty_mem t l, State.writeGrans_mem]
  exact putBytes_wf bs o h

theorem State.Inv.writeSpad {s : State} (h : s.Inv) (core o : Nat) (bs : List Byte) (ps : List Bool) :
    (s.writeSpad core o bs ps).Inv := by
  unfold State.Inv; rw [State.writeSpad_mem]; exact putBytes_wf bs _ h

theorem State.byte_writeSpad_of_lt (core o : Nat) (bs : List Byte) (ps : List Bool) {a : Nat}
    (h : a < spadKey core o ∨ spadKey core o + bs.length ≤ a) :
    (s.writeSpad core o bs ps).byte a = s.byte a := by
  unfold State.byte; rw [State.writeSpad_mem]; exact get_putBytes_of_lt bs _ _ h

theorem State.byte_writeGrans_of_lt (o : Nat) (bs : List Byte) {a : Nat} (h : a < o ∨ o + bs.length ≤ a) :
    (s.writeGrans o bs).byte a = s.byte a := by
  unfold State.byte; rw [State.writeGrans_mem]; exact get_putBytes_of_lt bs _ _ h

end Sys2Proof.Machine
end

