-- ==== Sys2Proof/Laws/Hbm.lean ====
section
/-! SUPPORT. What an access of the device itself to HBM does where nothing stands in its way: no merge group
is pending, and no error waits in check bits. -/

namespace Sys2Proof.Machine

variable {s : State}

/-- Nothing stands in the way of a read of HBM: it finds the bytes that memory lists, without poison. -/
structure State.Calm (s : State) : Prop where
  groups : s.groups = []
  latent : s.latent = []
  clean : s.hbmPoison = []

theorem State.evictLine_calm (h : s.latent = []) (line : Nat) (d : Bool) : s.evictLine line d = s := by
  unfold State.evictLine
  induction List.range 4 with
  | nil => rfl
  | cons j r ih => simpa [h, SMap.get] using ih

/-- A cache access changes the ports alone. -/
theorem State.cacheAccess_calm (h : s.latent = []) (o : Nat) :
    ∃ ps, s.cacheAccess o = { s with ports := ps } := by
  simp only [State.cacheAccess, State.evictLine_calm h]
  split
  · exact ⟨_, rfl⟩
  · split
    · exact ⟨_, rfl⟩
    · split <;> exact ⟨_, rfl⟩

theorem State.cacheLines_calm (h : s.latent = []) (o n : Nat) :
    ∃ ps, s.cacheLines o n = { s with ports := ps } := by
  unfold State.cacheLines
  generalize linesOf o n = l
  induction l generalizing s with
  | nil => exact ⟨s.ports, rfl⟩
  | cons a l ih =>
    obtain ⟨ps, e⟩ := State.cacheAccess_calm h a
    rw [List.foldl_cons, e]
    exact ih (s := { s with ports := ps }) h

theorem State.flushLines_calm (h : s.groups = []) (o n : Nat) : s.flushLines o n = s := by
  unfold State.flushLines
  induction linesOf o n with
  | nil => rfl
  | cons a l ih => simpa [State.flushLine, h] using ih

/-- With no reduction pending a port shows the bytes that stand. -/
theorem State.seen_calm (h : s.groups = []) (o n : Nat) : s.seen o n = s.bytes o n := by
  rw [State.seen, State.flushLines_calm h]

/-- A block is read from memory alone. -/
theorem State.block_congr {t : State} (hs : s.groups = []) (ht : t.groups = []) (hm : t.mem = s.mem)
    (hn : t.modNo = s.modNo) (r : Word) : t.block r = s.block r := by
  simp only [State.block, State.seenWord, State.seen_calm hs, State.seen_calm ht, State.bytes_congr hm,
    State.ownHbm, hn]

theorem State.readHbm_calm (h : s.Calm) (o n : Nat) :
    (s.readHbm o n).2.1.any id = false ∧ (s.readHbm o n).2.2 = s := by
  have e : (gransOf o n).foldl (fun s g => s.checkGran g) s = s := by
    induction gransOf o n with
    | nil => rfl
    | cons g l ih => simpa [State.checkGran, h.latent, SMap.get] using ih
  simp [State.readHbm, e, State.granPois, h.clean, SMap.get]

/-- A device read of HBM finds no poison and changes the ports alone. -/
theorem State.hbmRead_calm (h : s.Calm) (o n : Nat) :
    (s.hbmRead o n).2.1.any id = false ∧ ∃ ps, (s.hbmRead o n).2.2 = { s with ports := ps } := by
  unfold State.hbmRead
  rw [State.flushLines_calm h.groups]
  obtain ⟨ps, e⟩ := State.cacheLines_calm h.latent o n
  rw [e]
  obtain ⟨a, b⟩ := State.readHbm_calm (s := { s with ports := ps }) ⟨h.groups, h.latent, h.clean⟩ o n
  exact ⟨a, ps, b⟩

/-- Memory met but not kept changes ports alone. -/
theorem State.meet_calm (h : s.Calm) (o n : Nat) : ∃ ps, s.meet o n = { s with ports := ps } :=
  (State.hbmRead_calm h o n).2

/-- The tail of a park record met changes ports alone. -/
theorem State.meetTail_calm (h : s.Calm) (t : Word) : ∃ ps, s.meetTail t = { s with ports := ps } := by
  unfold State.meetTail
  split
  · exact State.meet_calm h _ _
  · exact ⟨s.ports, rfl⟩

/-- An entry that is not held is filled from its backing words. -/
theorem State.fill_calm (h : s.Calm) (cl n : Nat) (hk : (s.cluster cl).lostSlots = [])
    (hf : (s.cluster cl).fut = []) :
    ∃ e ps cs, s.fill cl n = (some e, { s with ports := ps, clusters := cs }) := by
  obtain ⟨a1, ps, a2⟩ := State.hbmRead_calm h (s.futOff cl n) 32
  obtain ⟨b1, qs, b2⟩ := State.hbmRead_calm (s := { s with ports := ps }) ⟨h.groups, h.latent, h.clean⟩
    (State.memberOff { s with ports := ps } cl n) 64
  have e : s.evict cl = s := by simp [State.evict, hf]
  simp only [State.fill, hk, SMap.get, List.find?_nil, Bool.false_eq_true,
    if_false, hf, e, a1, a2, b1, b2, Bool.or_self]
  exact ⟨_, qs, _, rfl⟩

theorem State.pickFree_some (s : State) (used : List Nat) (total : Nat) (h : used.length < total) :
    ∃ n, s.pickFree used total = some (n, { s with fresh := s.fresh + 1 }) := by
  unfold State.pickFree
  rw [if_neg (Nat.not_le.mpr h)]
  exact ⟨_, rfl⟩

/-- A park index is found wherever a park base is set and not every index is held (R136, R338). -/
theorem State.takePark_some (s : State) (n : Nat) (hb : (s.cluster (clusterOf n)).parkbase ≠ 0)
    (hl : (s.heldParks (clusterOf n)).length < 65536) : ∃ i t, s.takePark n = some (i, t) := by
  obtain ⟨i, e⟩ := s.pickFree_some _ 65536 hl
  simp only [State.takePark, if_neg hb, e]
  exact ⟨_, _, rfl⟩

/-- Allocation in a table that has a free slot gives a handle, whichever slot is chosen, and
changes ports and table ports alone. -/
theorem State.allocate_calm (h : s.Calm) (cl kind : Nat) (hb : s.futBase cl ≠ 0)
    (hu : (s.usedSlots cl).length < 65536) (hk : (s.cluster cl).lostSlots = [])
    (hf : (s.cluster cl).fut = []) :
    ∃ x f ps cs, s.allocate cl kind = (some x, { s with fresh := f, ports := ps, clusters := cs }) := by
  obtain ⟨n, e⟩ := s.pickFree_some (s.usedSlots cl) 65536 hu
  obtain ⟨y, ps, cs, hx⟩ := State.fill_calm (s := { s with fresh := s.fresh + 1 }) ⟨h.groups, h.latent, h.clean⟩
    cl n hk hf
  rw [State.allocate, if_neg hb, State.allocSlot.eq_2, e]
  simp only [hx]
  exact ⟨_, s.fresh + 1, ps, _, rfl⟩

end Sys2Proof.Machine
end

