-- ==== Sys2Proof/Laws/Tile.lean ====
section
/-! SUPPORT. What the checks of a tile instruction do when they pass, and what an instruction's own
states share with the state it was issued in. -/

namespace Sys2Proof.Machine

variable {s : State} {i : Instr} {h : Shape} {srcs dests : List TReg}

/-! ### The opened state -/

@[simp] theorem State.tile_opened (s : State) (i : Instr) (t : TReg) : (s.opened i).tile t = s.tile t := rfl
@[simp] theorem State.draw_opened (s : State) (i : Instr) (n : Nat) : (s.opened i).draw n = s.draw n := rfl
@[simp] theorem State.vals_opened (s : State) (i : Instr) (h : Shape) (t : TReg) :
    (s.opened i).vals h t = s.vals h t := rfl
@[simp] theorem State.valsA_opened (s : State) (i : Instr) (h : Shape) (t : TReg) :
    (s.opened i).valsA h t = s.valsA h t := rfl
@[simp] theorem State.valsB_opened (s : State) (i : Instr) (h : Shape) (t : TReg) :
    (s.opened i).valsB h t = s.valsB h t := rfl
@[simp] theorem State.ints_opened (s : State) (i : Instr) (h : Shape) (t : TReg) :
    (s.opened i).ints h t = s.ints h t := rfl
@[simp] theorem State.rawA_opened (s : State) (i : Instr) (h : Shape) (t : TReg) :
    (s.opened i).rawA h t = s.rawA h t := rfl
@[simp] theorem State.rawB_opened (s : State) (i : Instr) (h : Shape) (t : TReg) :
    (s.opened i).rawB h t = s.rawB h t := rfl
@[simp] theorem State.elementPoison_opened (s : State) (i : Instr) (h : Shape) (l : List TReg) :
    (s.opened i).elementPoison h l = s.elementPoison h l := rfl
@[simp] theorem State.formTile_opened (s : State) (i : Instr) (f : Fmt) (rm : Nat) (c : Bool)
    (vs : List Val) : (s.opened i).formTile f rm c vs = s.formTile f rm c vs := rfl

theorem State.TileReady.opened (t : s.TileReady h srcs dests) : (s.opened i).TileReady h srcs dests :=
  ⟨t.1, t.2, t.3, t.4, t.5⟩

/-! ### The checks -/

theorem tagSince_of_flight (hf : s.me.flight = none) (on : WaitOn) : s.tagSince on = s.nextId := by
  simp [State.tagSince, hf]

theorem chainGate_ready (hf : s.me.flight = none)
    (hc : s.chainAllows s.issue.core (chainNeeds srcs dests) s.nextId = true) (k : State → Res) :
    chainGate s srcs dests k = k s := by
  unfold chainGate
  dsimp only
  rw [tagSince_of_flight hf, if_pos hc]

theorem agree_ready (ha : ∀ t ∈ srcs, (s.tile t).agrees h = true) (k : State → Res) :
    agree s h srcs k = k s := by
  unfold agree
  have : srcs.find? (fun t => !(s.tile t).agrees h) = none := by
    simp only [List.find?_eq_none, Bool.not_eq_true, Bool.not_eq_false']
    exact ha
  rw [this]

/-- A tile instruction whose checks pass goes on to its own tests and its effect (R118). -/
theorem tileSteps_ready {ok mods : Fmt → Bool} (hs : shapeOf s.me.shape = some h)
    (hk : ok h.fmt = true) (hm : mods h.fmt = true) (hf : s.me.flight = none)
    (hc : s.chainAllows s.issue.core (chainNeeds srcs dests) s.nextId = true)
    (ha : ∀ t ∈ srcs, (s.tile t).agrees h = true) (k : State → Shape → Res) :
    tileSteps s ok mods srcs dests k = k s h := by
  unfold tileSteps
  rw [hs]
  simp only [hk, hm, Bool.not_true, Bool.or_self, Bool.false_eq_true, if_false]
  rw [chainGate_ready hf hc, agree_ready ha]

theorem State.TileReady.steps (t : s.TileReady h srcs dests) {ok : Fmt → Bool}
    (hk : ok h.fmt = true) (k : State → Shape → Res) :
    tileSteps s ok s.usualMods srcs dests k = k s h :=
  tileSteps_ready t.shape hk t.modifiers t.afresh t.chains t.agree k

end Sys2Proof.Machine
end

