-- ==== Sys2Proof/Tests/Slice0.lean ====
section
/-! SUPPORT. Tests: words of the specification decode to the instructions printed beside them, ill-formed
terms are refused, single steps give the values the rules give, and the hypotheses of the statements are
met by states. -/

namespace Sys2Proof.Tests

-- one theorem at a time: many at once would hold many threads' stacks
set_option Elab.async false

open Sys2Proof Sys2Proof.Machine

/-! ### Decoding: words printed in the specification's listings -/

/-- The guard p0. -/
abbrev p0 : Guard := ⟨0, false⟩

theorem test_decode_halfwords :
    decode16 0x08A4 = .ok (.addC16 0 4 5) ∧ decode16 0x1232 = .ok (.addiC16 0 9 1) ∧
    decode16 0x10FA = .ok (.touchC16 0 8 7) ∧ decode16 0x195A = .ok (.touchC16 0 12 10) := by decide

theorem test_decode_integer :
    decode32 0xFF486005 = .ok (.addi p0 6 4 (-3)) ∧ decode32 0x07C22007 = .ok (.andi p0 2 1 31) ∧
    decode32 0x0862300F = .ok (.cmp p0 .lt 3 6 4) ∧ decode32 0x22201011 = .ok (.cmpi p0 .eq 1 2 17) ∧
    decode32 0x00002197 = .ok (.movwZ 3 0 2) ∧ decode32 0x08C83015 = .ok (.sel p0 3 1 4 3) := by decide

theorem test_decode_fields :
    decode32 0x80A80023 = .ok (.layout p0 2 20) ∧ decode32 0x60888023 = .ok (.funpack p0 8 4 2) ∧
    decode32 0x24924023 = .ok (.fins p0 4 9 2 1) ∧ decode32 0x4090F023 = .ok (.fpack p0 15 8 2) ∧
    decode32 0x1488E023 = .ok (.fext p0 14 4 2 5) := by decide

theorem test_decode_floats :
    decode32 0x0290B025 = .ok (.fadd p0 .f64 11 8 10) ∧
    decode32 0x270A4027 = .ok (.fcvt p0 .f8e4 .f32 4 5) := by decide

theorem test_decode_registers :
    decode32 0x8040102F = .ok (.srdp p0 1 1) ∧ decode32 0xC0C6002F = .ok (.swrp p0 3 3) ∧
    decode32 0x12060057 = .ok (.shape p0 9 3 0) := by decide

theorem test_decode_memory :
    decode32 0x0EC8B031 = .ok (.ld p0 .n64 11 4 7) ∧ decode32 0x00C87033 = .ok (.st p0 .n64 7 4 0) ∧
    decode32 0x04D241B3 = .ok (.st ⟨3, false⟩ .n64 4 9 2) ∧ decode32 0x30080039 = .ok (.xclr p0 4) ∧
    decode32 0x580A2039 = .ok (.fence p0 .stores 5) ∧ decode32 0xB0909039 = .ok (.alw p0 9 8 2) ∧
    decode32 0xC950603B = .ok (.amo p0 true .fadd 6 8 5) ∧
    decode32 0xD148003D = .ok (.red p0 true .exact 4 5) := by decide

theorem test_decode_tasks :
    decode32 0x000A703F = .ok (.spawn p0 7 5) ∧ decode32 0x1854B03F = .ok (.touchq p0 11 10 1) := by decide

theorem test_decode_engines :
    decode32 0x0008A041 = .ok (.cpy p0 10 4) ∧ decode32 0x000A4043 = .ok (.wld p0 .f64 none 4 5) ∧
    decode32 0x400E6043 = .ok (.weft p0 .f64 false none 6 7) ∧
    decode32 0x80128043 = .ok (.vrd p0 .f64 false 8 9) ∧ decode32 0x2000A045 = .ok (.lfut p0 10) ∧
    decode32 0x28180045 = .ok (.lres p0 12) := by decide

theorem test_decode_tiles :
    decode32 0x08042051 = .ok (.tredAdd p0 2 1) ∧ decode32 0x0B043051 = .ok (.tscanAdd p0 3 1) ∧
    decode32 0x03141053 = .ok (.tld p0 1 5 6) ∧ decode32 0x13243053 = .ok (.tst p0 3 9 6) ∧
    decode32 0x341C2053 = .ok (.tmovgRead p0 2 7 8) := by decide

theorem test_decode_system : decode32 0x10000059 = .ok (.eret p0) := by decide

/-- The bytes of a modifier word and of the word after it, in memory order (R8, R41). -/
def pair (m w : BitVec 32) : List Byte :=
  (List.range 8).map fun i => (w ++ m).extractLsb' (8 * i) 8

/-- FADD.f64.rtz g11, g8, -g10; FCVT.rsr; ST.rel.clus; ST.oflag: the modifier words printed before them. -/
theorem test_decode_modifiers :
    decodeBytes (pair 0x0040207F 0x0290B025) =
      .ok ⟨some ⟨0, 0, 1, 0, false, false, true, false, false, 0⟩, .fadd p0 .f64 11 8 10, 8⟩ ∧
    decodeBytes (pair 0x0140007F 0x270A4027) =
      .ok ⟨some ⟨0, 0, 5, 0, false, false, false, false, false, 0⟩, .fcvt p0 .f8e4 .f32 4 5, 8⟩ ∧
    decodeBytes (pair 0x2400007F 0x04D241B3) =
      .ok ⟨some ⟨2, 2, 0, 0, false, false, false, false, false, 0⟩, .st ⟨3, false⟩ .n64 4 9 2, 8⟩ ∧
    decodeBytes (pair 0x0800007F 0x00D61033) =
      .ok ⟨some ⟨0, 4, 0, 0, false, false, false, false, false, 0⟩, .st p0 .n64 1 11 0, 8⟩ := by decide

/-- R41, R48, R50, R56: a group the instruction does not accept, a value not assigned, a compact form
after a modifier word, a major not assigned, and words that end too soon are refused. -/
theorem test_decode_refuses :
    decodeBytes (pair 0x0040007F 0xFF486005) = .error .group ∧
    decodeBytes (pair 0x0180007F 0x0290B025) = .error .code ∧
    decodeBytes (pair 0x0000007F 0x000008A4) = .error .pair ∧ decode32 0x00000001 = .error .major ∧
    decodeBytes [0x05, 0x60] = .error .short := by decide

/-! ### Ill-formed terms are refused, one for each check -/

/-- A packet with these header fields and one byte at `off`. -/
def packet (sclus hop path off : Nat) : Packet :=
  { op := .read, dst := 0, src := 0, sclus := sclus, hop := hop, path := path, tag := 0, oflag := false,
    mark := false, aux := 0, line := 0, bytes := [(off, 0)], poison := 0, args := [] }

theorem test_wf_operations :
    Instr.wf (.fcvt p0 .i8 .n8 1 2) = false ∧ Instr.wf (.frnd p0 .i32 1 2) = false ∧
    Instr.wf (.fclass p0 .n64 1 2) = false ∧ Instr.wf (.srd p0 1 0x0B) = false ∧
    Instr.wf (.swr p0 1 2) = false ∧ Instr.wf (.srdp p0 1 5) = false ∧ Instr.wf (.swrp p0 0x23 1) = false ∧
    Instr.wf (.ldp p0 3 1 0) = false ∧ Instr.wf (.stp p0 5 1 0) = false ∧
    Instr.wf (.fence p0 .all 6) = false ∧ Instr.wf (.cpy p0 1 30) = false ∧
    Instr.wf (.cpy2 p0 1 27) = false ∧ Instr.wf (.cpyg p0 1 29) = false ∧
    Instr.wf (.ttopk p0 63 1 0) = false ∧
    Instr.wf (.modifierWord ⟨6, 0, 0, 0, false, false, false, false, false, 0⟩) = false ∧
    Instr.wf (.modifierWord ⟨0, 6, 0, 0, false, false, false, false, false, 0⟩) = false ∧
    Instr.wf (.modifierWord ⟨0, 0, 6, 0, false, false, false, false, false, 0⟩) = false ∧
    Instr.wf (.modifierWord ⟨0, 0, 0, 0, false, false, false, false, false, 9⟩) = false := by decide

theorem test_wf_core_events :
    Instr.wf (.interruptTaken 2304) = false ∧ Instr.wf (.timerExpiry 2304) = false ∧
    Instr.wf (.storeErrorReport 2304) = false ∧ Instr.wf (.bindTask 2304) = false ∧
    Instr.wf (.stealRound 2304) = false ∧ Instr.wf (.dequeRefill 2304) = false ∧
    Instr.wf (.arrivalRefill 2304) = false ∧ Instr.wf (.arrivalResend 2304) = false ∧
    Instr.wf (.loomCmdWld 2304) = false ∧ Instr.wf (.loomCmdWswap 2304) = false ∧
    Instr.wf (.loomCmdVclr 2304) = false ∧ Instr.wf (.loomCmdWeft 2304) = false ∧
    Instr.wf (.loomCmdVadd 2304) = false ∧ Instr.wf (.loomCmdLgrp 2304) = false ∧
    Instr.wf (.loomCmdLloop 2304) = false ∧ Instr.wf (.loomCmdVrd 2304) = false ∧
    Instr.wf (.loomMarker 2304) = false ∧ Instr.wf (.scrivenerPause 2304) = false ∧
    Instr.wf (.loomPause 2304 0) = false ∧ Instr.wf (.allowancePark 2304 0) = false ∧
    Instr.wf (.allowancePark 0 32) = false := by decide

theorem test_wf_unit_events :
    Instr.wf (.tableWalkComplete 96 0 0) = false ∧ Instr.wf (.futureEntryFill 96 0) = false ∧
    Instr.wf (.futureEntryFill 0 65536) = false ∧ Instr.wf (.doomNotice 4096) = false ∧
    Instr.wf (.scrivenerCpy 96 0) = false ∧ Instr.wf (.scrivenerCpy 0 25) = false ∧
    Instr.wf (.scrivenerCpy2 0 25) = false ∧ Instr.wf (.scrivenerCpyg 0 25) = false ∧
    Instr.wf (.tilePrefetch 96) = false ∧ Instr.wf (.linkDown 36) = false ∧
    Instr.wf (.linkUp 36) = false ∧ Instr.wf (.dieBoundaryFailure 4) = false ∧
    Instr.wf (.functionReady 21) = false ∧ Instr.wf (.fetchFault 9 0 0) = false ∧
    Instr.wf (.hbmStackFailure 8) = false ∧ Instr.wf (.commitExchange 64) = false ∧
    Instr.wf (.feed 32768) = false ∧ Instr.wf (.semwait 32768) = false ∧
    Instr.wf (.semsig 32768) = false ∧ Instr.wf (.futwait 32768) = false ∧
    Instr.wf (.intr 32768) = false ∧ Instr.wf (.indirect 32768) = false ∧
    Instr.wf (.fencePacket 32768) = false ∧ Instr.wf (.unknownOpcode 32768) = false ∧
    Instr.wf (.heapAdmit 32768) = false ∧ Instr.wf (.hostReadTimeout 32768) = false := by decide

theorem test_wf_packets :
    Instr.wf (.fabricRead (packet 96 0 0 0)) = false ∧
    Instr.wf (.fabricWrite (packet 96 0 0 0)) = false ∧
    Instr.wf (.fabricAmo (packet 96 0 0 0)) = false ∧ Instr.wf (.fabricCas (packet 96 0 0 0)) = false ∧
    Instr.wf (.fabricRed (packet 96 0 0 0)) = false ∧ Instr.wf (.fabricLrw (packet 96 0 0 0)) = false ∧
    Instr.wf (.fabricSch (packet 96 0 0 0)) = false ∧
    Instr.wf (.fabricXrdXclr (packet 96 0 0 0)) = false ∧
    Instr.wf (.fabricFutureRequest (packet 96 0 0 0)) = false ∧
    Instr.wf (.fabricFutureDelivery (packet 96 0 0 0)) = false ∧
    Instr.wf (.fabricReadReply (packet 96 0 0 0)) = false ∧
    Instr.wf (.fabricAck (packet 96 0 0 0)) = false ∧
    Instr.wf (.fabricErrorReply (packet 96 0 0 0)) = false ∧
    Instr.wf (.packetForward (packet 96 0 0 0)) = false ∧
    Instr.wf (.fabricRead (packet 0 6 0 0)) = false ∧ Instr.wf (.fabricRead (packet 0 0 4 0)) = false ∧
    Instr.wf (.fabricRead (packet 0 0 0 128)) = false ∧
    Instr.wf (.fabricRead (packet 95 5 3 127)) = true := by decide

theorem test_wf_register_events :
    Instr.wf (.tailWrite .pf 32768 8 0) = false ∧ Instr.wf (.tailWrite (.vf 0) 0 8 0) = false ∧
    Instr.wf (.tailWrite (.vf 65) 0 8 0) = false ∧ Instr.wf (.queueEnable .pf 32768 0) = false ∧
    Instr.wf (.queueDisable .pf 32768 0) = false ∧ Instr.wf (.queueSkip .pf 32768) = false ∧
    Instr.wf (.queueRetry .pf 32768) = false ∧ Instr.wf (.queueReset .pf 32768) = false ∧
    Instr.wf (.semaphoreWrite .pf 4096 8 0) = false ∧ Instr.wf (.feedQueueEnable .pf 1024 0) = false ∧
    Instr.wf (.feedQueueDisable .pf 1024 0) = false ∧ Instr.wf (.routeWordWrite .pf 512 8 0) = false ∧
    Instr.wf (.rangeRegisterWrite .pf 64 0 8 0) = false ∧
    Instr.wf (.rangeRegisterWrite .pf 0 16 8 0) = false ∧
    Instr.wf (.versionPoolWrite .pf 6 8 0) = false ∧ Instr.wf (.drainWrite .pf 0 0) = false ∧
    Instr.wf (.featureAcceptWrite .pf 4 0) = false ∧ Instr.wf (.dieStart (.vf 0) 0) = false ∧
    Instr.wf (.interruptWordWrite .pf 2304) = false ∧ Instr.wf (.debugHalt .pf 0 32) = false ∧
    Instr.wf (.debugResume .pf 2304 0) = false ∧ Instr.wf (.debugDtrapClear .pf 2304) = false ∧
    Instr.wf (.debugQuiesce .pf 2304 true true) = false ∧
    Instr.wf (.registerWrite .pf 0 0 []) = false ∧
    Instr.wf (.registerWrite .pf 0x100000000 1 [0]) = false ∧
    Instr.wf (.registerWrite .pf 0 2 [0]) = false := by decide

/-! ### States the tests stand on -/

/-- A module whose firmware runs, its stacks trained and every feature accepted, with core 0 started and strand 0 of it ready
at level `priv` with general registers `regs`. -/
def rig (priv : Bool) (regs : List (Nat × Word)) : State :=
  let st : Strand := { st := .ready, inst := 0, priv := priv, estat := 0x80, g := regs.map fun x => (x.1, ⟨x.2, false⟩) }
  let c : Core := { started := true, strands := [(0, st)], tvec := 0x4000 }
  let m : Manage :=
    { accept := 0x7F, running := true, ready := 0x1FFFFF, hbm := (List.range 8).map fun k => (k, { state := 1 }) }
  { State.reset with cores := [(0, c)], man := m }

/-- The address of offset `o` of the own scratchpad (R35). -/
abbrev own (o : Word) : Word := 0xFFFFFFFFFF000000 + o

/-- At supervisor level, outside port mode, with every feature accepted and no modifier word, every
instruction may be carried out under p0. -/
theorem issues_of (s : State) (h : s.man.stopped = false ∧ s.man.accept = 0x7F ∧ s.issue.mw = none ∧
    s.me.priv = true ∧ s.me.pmode = false) (i : Instr) : s.Issues i p0 := by
  obtain ⟨h, ha, hm, hp, hq⟩ := h
  have hf : ∀ n, n < 7 → s.feature n = true := by
    intro n hn
    simp only [State.feature, ha]
    interval_cases n <;> rfl
  refine ⟨h, ?_, fun x => ?_, fun _ => hp, by simp [State.passes, State.p, Strand.p], Or.inl hq⟩
  · cases i <;> simp only [featureOk] <;> (try split) <;> simp [hf]
  · simp [hm] at x

/-- What a state holds of g[r] after a step that gives a next state. -/
def regAfter (o : Out) (r : Reg) : Option Word :=
  match o with
  | .next t => some (t.gv r)
  | _ => none

theorem rig_issues (regs : List (Nat × Word)) (i : Instr) : (rig true regs).Issues i p0 :=
  issues_of _ ⟨rfl, rfl, rfl, rfl, rfl⟩ i

theorem clean_of (s : State) (rs : List Reg) (h : rs.all (fun r => !s.gp r) = true) : s.clean rs := by
  intro r hr
  simpa using List.all_eq_true.mp h r hr

theorem own_of (s : State) (ea : Word) (o n : Nat) (h : regionOf s.issue.core ea = .spad s.issue.core o ∧
    ea.toNat % n = 0 ∧ crosses ea n = false ∧
    (s.me.priv = true ∨ touchesReserved s.issue.core ea n = false) ∧ s.latent = [] ∧ s.me.flight = none) :
    s.OwnWords ea o n := by
  obtain ⟨hr, ha, hc, hp, hl, hf⟩ := h
  exact ⟨hr, ha, hc, hp, fun w _ => by rw [hl]; rfl, hf⟩

/-- Core 0 in port mode, with a word in its queue and room downstream (R170). -/
def ported : State :=
  let s := rig true [(4, 5)]
  let t := s.setMe { s.me with pmode := true }
  t.setCore 0 { t.core 0 with portQ := [⟨9, false⟩], owner := some 0 }

/-! ### The hypotheses of the statements are met -/

/-- Outside port mode and in it, for a form that reads g30 and writes g31. -/
theorem met_IntegerArithmeticCompletes :
    (∀ i, (rig true [(4, 5), (5, 7)]).Issues i p0) ∧ compactGuard 0 = p0 ∧
      (rig true []).mw.sat = 0 ∧ ported.Issues (.add p0 31 30 4) p0 :=
  ⟨rig_issues _, rfl, rfl, rfl, rfl, nofun, fun _ => rfl, rfl,
    Or.inr ⟨rfl, fun _ => by decide +kernel, fun _ => by decide +kernel⟩⟩

theorem met_LogicShiftsAndCountsComplete : ∀ i, (rig true [(4, 5), (5, 64)]).Issues i p0 := rig_issues _

theorem met_ComparesPredicatesAndMovesComplete :
    (∀ i, (rig true [(4, 5), (5, -1)]).Issues i p0) ∧ (rig true [(4, 5), (5, -1)]).clean [4, 5] :=
  ⟨rig_issues _, clean_of _ _ (by decide +kernel)⟩

/-- A target that is even, one that is odd, and one that is poisoned. -/
theorem met_ControlTransfersCompleteOrTrap :
    let s := rig true [(4, 0x7FFE), (5, 0x7FFF)]
    let t := s.setG 5 0 true
    (∀ i, s.Issues i p0 ∧ t.Issues i p0) ∧ s.clean [4] ∧ s.clean [5] ∧ (s.gv 4).getLsbD 0 = false ∧
      (s.gv 5).getLsbD 0 = true ∧ t.gp 5 = true ∧ t.gp 4 = false :=
  ⟨fun i => ⟨rig_issues _ i, issues_of _ (by decide +kernel) i⟩, by unfold State.clean; decide +kernel⟩

/-- Layout 2 with one entry of 64 bits at 0, the others absent; the layout read at the end of the
scratchpad; a group that ends at g31 and one that would run past it. -/
theorem met_FieldInstructionsCompleteOrTrap :
    let s0 := rig true [(4, own 0xFFFF0)]
    let s := s0.setMyCore { s0.myCore with layouts := [(2, 0x1000), (3, 0x10001000)] }
    (∀ i, s.Issues i p0) ∧ s.OwnWords (s.gv 4) 0xFFFF0 16 ∧ s.clean [4] ∧ s.tagsReady 0xFFFF0 16 true ∧
      s.field 2 0 = some ⟨0, 64, false⟩ ∧ s.field 2 1 = none ∧ s.me.pmode = false ∧
      (31 : Reg).toNat + (s.members 2).length ≤ 32 ∧ 32 < (31 : Reg).toNat + (s.members 3).length ∧
      s.spadPois 0 (0xFFFF0 / 8) = false ∧
      s.spadPois 0 (0xFFFF0 / 8 + 1) = false ∧
      (∀ i < 8, entryOk (leNat (((s.bytes (spadKey 0 0xFFFF0) 16).drop (2 * i)).take 2)) = true) :=
  ⟨issues_of _ (by decide +kernel), own_of _ _ _ _ (by decide +kernel),
    by unfold State.clean State.tagsReady; decide +kernel⟩

theorem met_ScalarFloatsComplete :
    (∀ i, (rig true [(4, 0x3FF0000000000000)]).Issues i p0) ∧ (rig true []).clean [4, 5] :=
  ⟨rig_issues _, clean_of _ _ (by decide +kernel)⟩

/-- The bounds of the written values: the last predicate, the least shape and one past the greatest
(R30), the greatest slot size (R31). -/
theorem met_UserRegistersComplete :
    let s := rig true [(1, 0xFFFF), (2, 0x00300000), (3, 0x0030001F), (4, 5), (5, 0x00F00000)]
    (∀ i, s.Issues i p0) ∧ s.clean [1, 2, 3, 4, 5] ∧ (s.gv 1).toNat < 2 ^ 16 ∧ shapeOk (s.gv 2) = true ∧
      (s.gv 4).toNat ≤ 5 ∧ shapeOk (s.gv 5) = false ∧ 0x0A < (0x0B : BitVec 8).toNat :=
  ⟨rig_issues _, by unfold State.clean; decide +kernel⟩

/-- A value every register takes, and one that those with reserved bits refuse. -/
theorem met_SupervisorRegistersReadAndWritten :
    let s := rig true [(1, 0), (2, -1)]
    (∀ i, s.Issues i p0) ∧ s.clean [1] ∧ s.clean [2] ∧ s.loomBusy = false ∧ s.scrBusy = false ∧
      s.myCore.dqFill = 0 ∧ s.myCore.arFill = 0 ∧ (s.cluster s.myCluster).parked = [] ∧
      bits (s.gv 1) 63 8 = 0 ∧ bits (s.gv 2) 63 8 ≠ 0 ∧ bits (s.gv 2) 50 36 ≠ 0 ∧ bits (s.gv 2) 3 2 = 3 :=
  ⟨rig_issues _, by unfold State.clean; decide +kernel⟩

/-- The first and the last words of the own scratchpad, and at user level the last below the reserved
area (R36); a release and an ordered-flag store, which have nothing to wait for. -/
theorem met_OwnScratchpadLoadsAndStoresComplete :
    let s := rig true [(4, own 0), (5, own 0xFFFF0)]
    let u := rig false [(4, own 0xEFFF0)]
    let f : State := { s with issue := { s.issue with mw := some ⟨2, 4, 0, 0, false, false, false, false, false, 0⟩ } }
    (∀ i, s.Issues i p0) ∧ s.OwnWords (s.gv 4) 0 8 ∧ s.OwnWords (s.gv 5) 0xFFFF0 16 ∧
      s.OwnWords (s.gv 4 + 0) 0 8 ∧ u.OwnWords (u.gv 4) 0xEFFF0 16 ∧ s.clean [4, 5, 6] ∧
      s.tagsReady 0 8 true ∧ s.tagsReady 0xFFFF0 16 true ∧ s.mayStore true ∧ s.mayStore false ∧
      f.oflag = true ∧ f.mayStore f.isRelease ∧ s.isRelease = false := by
  refine ⟨rig_issues _, ?_, ?_, ?_, ?_, by
    unfold State.clean State.tagsReady State.mayStore State.released; decide +kernel⟩
  all_goals exact own_of _ _ _ _ (by decide +kernel)

/-- The last byte of a scratchpad, and a word that a store covers. -/
theorem met_ScratchpadStoreReadsBack :
    (0xFFFFF ≤ 8 * (0xFFFFF / 8) + 7) ∧ (0xFFFF8 ≤ 8 * 131071 ∧ 8 * 131071 + 8 ≤ 0xFFFF8 + 8) := by decide

/-- Core 0 with granule 1 of its address space on HBM from 0x10000. -/
def mapped (regs : List (Nat × Word)) : State :=
  let s := rig true regs
  s.setMyCore { s.myCore with
    xroot := 0x0008000000000000
    tlb := [⟨0, 1, ⟨0x10000, 3, false, true, true, true, true⟩, 0⟩] }

/-- A strand's state with an instruction whose answer has come. -/
def answeredBy (s : State) (i : Instr) (a : Answer) : State :=
  s.setMe { s.me with flight := some ⟨i, none, 4, 0, .answers, 0, 0, 0, [(0, a)], 0, 0⟩ }

/-- The last words of a mapped granule, another core's scratchpad, and answers that have come. -/
theorem met_FarAccessesComplete :
    let s := mapped [(4, 0x1FFF8), (5, 7), (6, 0x1FF80)]
    let leaf : Leaf := ⟨0x10000, 3, false, true, true, true, true⟩
    let x := Spot.glob leaf 0x1FFF8
    (∀ i, s.Issues i p0) ∧ s.FarWords (s.gv 4) 8 .read x ∧ s.clean [4, 5, 6] ∧
      s.checkPage leaf 0x1FFF8 (s.gv 4) .load [] = .ok ∧ s.checkPage leaf 0x1FFF8 (s.gv 4) .store [] = .ok ∧
      s.checkPage leaf 0x1FFF8 (s.gv 4) .rmw [redFeature .exact] = .ok ∧ s.answer 0 = none ∧
      s.checkAccess (s.gv 4) 8 8 .write = .ok ∧ s.checkAccess (s.gv 4) 8 8 .both = .ok ∧
      s.checkAccess (s.gv 6) 128 128 .write = .ok ∧ s.spot (s.gv 6) = some (.glob leaf 0x1FF80) ∧
      s.checkPage leaf 0x1FF80 (s.gv 6) .store [5] = .ok ∧ regionClass (s.gv 4) = 0 ∧
      inHbm (paOffset 0x1FFF8) = true ∧ s.bankRoom (bankOf (s.placeOf 0x1FFF8)) 1 = true ∧
      s.allowed (s.placeOf 0x1FFF8) = true ∧ s.isRelease = false ∧
      (answeredBy s (.ld p0 .n64 1 4 0) (.data [1, 2, 3, 4, 5, 6, 7, 8] [false])).answer 0 =
        some (.data [1, 2, 3, 4, 5, 6, 7, 8] [false]) :=
  ⟨issues_of _ (by decide +kernel),
    ⟨by decide +kernel, by decide +kernel, by simp, by decide +kernel, by decide +kernel⟩,
    by unfold State.clean; decide +kernel⟩

theorem met_OwnScratchpadAtomicsAndTagsComplete :
    let s := rig true [(4, own 0xFFFF8)]
    (∀ i, s.Issues i p0) ∧ s.OwnWords (s.gv 4) 0xFFFF8 8 ∧ s.OwnWords (s.gv 4) 0xFFFF8 4 ∧ s.clean [4, 1] ∧
      s.isRelease = false ∧ s.released s.mw.scope.toNat ∧ s.kept 7 = none ∧
      s.soundWords (wordsOf 0xFFFF8 8) ∧ s.tagsReady 0xFFFF8 8 true ∧
      (s.setTag 0 (0xFFFF8 / 8) false).tagsReady 0xFFFF8 8 false :=
  ⟨rig_issues _, own_of _ _ _ _ (by decide +kernel), own_of _ _ _ _ (by decide +kernel),
    by unfold State.clean State.released State.tagsReady; decide +kernel⟩

/-- No reservation; one held with an LRW of core 1 next in line; one held alone. -/
theorem met_StoreConditionalAnswers :
    let s := answeredBy (rig true []) (.sch p0 1 4 5) (.pred true)
    let h : Resv := ⟨8, 0, 0, 0, none, some 0, true⟩
    let n : Resv := ⟨8, 1, 0, 0, some 7, none, true⟩
    let q : Req :=
      { id := 7, core := 1, slot := 0, inst := 0, elem := 0, place := .port 0, op := .lrw, addr := 1024, pa := 1024,
        ea := 1024, size := 8, ver := false, snap := 0, tx := 0, oflag := false, since := 0, cyc := 0, pool := none,
        sent := none, pkt := none }
    let mine := fun (r : Resv) => r.core == s.issue.core && r.slot == s.issue.slot && r.inst == s.me.inst
    let x : State := { s with resv := [h, n], reqs := [q] }
    (∀ i, s.Issues i p0 ∧ x.Issues i p0) ∧ s.answer 0 = some (.pred true) ∧ x.answer 0 = some (.pred true) ∧
      s.resv = [] ∧ x.resv.filter mine = [h] ∧ x.ownLine h.line = true ∧
      [n].find? (fun r => r.line == h.line) = some n ∧ x.reqs.find? (fun r => r.id == 7) = some q ∧ x.groups = [] ∧
      ([h].filter fun r => !mine r) = [] :=
  ⟨fun i => ⟨issues_of _ (by decide +kernel) i, issues_of _ (by decide +kernel) i⟩, by decide +kernel⟩

/-- The last tag slot, an address that is held and one that is not, the own module and an absent one. -/
theorem met_FencesTagsAndHintsComplete :
    let s := rig true [(4, 2047), (5, 0x8000000000000000), (6, 0x20000), (7, 0), (8, 0x50000)]
    let t := s.setMyCore { s.myCore with tags := [(0, 0x8000000000000400)] }
    (∀ i, s.Issues i p0 ∧ t.Issues i p0) ∧ s.released 5 ∧ s.clean [4, 5, 6, 7, 8] ∧ t.clean [6, 8] ∧
      (s.gv 4).toNat < 2048 ∧ bits (s.gv 5) 62 60 = 0 ∧ tagValid (s.gv 7) = false ∧
      s.myCore.lookup (s.gv 6) = none ∧ bits (s.gv 6) 63 56 = 0 ∧ (t.myCore.lookup (t.gv 6)).isSome = true ∧
      t.me.flight = none ∧ bits (s.gv 7) 63 32 = 0 ∧ bits (s.gv 7) 15 9 = 0 ∧
      bits (s.gv 7) 8 0 = s.modNo.toNat :=
  ⟨fun i => ⟨rig_issues _ i, issues_of _ (by decide +kernel) i⟩,
    by unfold State.released State.clean; decide +kernel⟩

/-! ### Free choices: allocation succeeds whatever is chosen -/

/-- Future slot `n` of cluster 0 in state `st`, of kind `k`, generation 1. -/
def entry (k : Byte) (st : BitVec 3) (members : List Member) : FutEntry :=
  { value := 77, gen := 1, kind := k, refs := 2, started := st == 1, cxreq := false, state := st, head := 0,
    tail := 0, members := members, dirty := true, use := 0 }

/-- The mapped core with a future table and park records in HBM: future 5 made by SPAWN with no pc, in state
`st`, and future 6 the strand's own. -/
def tabled (regs : List (Nat × Word)) (st : BitVec 3) (members : List Member) : State :=
  let s := mapped regs
  let t := s.setMe { s.me with task := 0x600000100 }
  t.setCluster 0 { t.cluster 0 with
    futbase := 0x1000000
    parkbase := 0x2000000
    fut := [(5, entry 4 st []), (6, entry 0 1 members)] }

theorem tabled_issues (regs : List (Nat × Word)) (st : BitVec 3) (ms : List Member) (i : Instr) :
    (tabled regs st ms).Issues i p0 :=
  issues_of _ ⟨rfl, rfl, rfl, rfl, rfl⟩ i

/-- The core with an empty future table. -/
def tableEmpty (regs : List (Nat × Word)) : State :=
  let s := rig true regs
  s.setCluster 0 { s.cluster 0 with futbase := 0x1000000, parkbase := 0x2000000 }

theorem tableEmpty_calm (regs : List (Nat × Word)) (i : Instr) : ((tableEmpty regs).opened i).Calm :=
  ⟨rfl, rfl, rfl⟩

theorem live_5 (regs : List (Nat × Word)) (st : BitVec 3) (ms : List Member) (hs : st ≠ 0) :
    (tabled regs st ms).Live 0x500000104 (entry 4 st []) := by
  have hm : hModule 0x500000104 = 0 := by decide
  have hc : hCluster 0x500000104 = 0 := by decide
  have hn : hSlot 0x500000104 = 5 := by decide
  have hg : hGen 0x500000104 = 1 := by decide
  have hk : hKind 0x500000104 = 4 := by decide
  refine ⟨?_, by decide, ?_, ?_, ?_, ?_, ?_, hs⟩
  · rw [hm]; rfl
  · rw [hg]; exact ⟨by decide, rfl⟩
  · rw [hk]; exact ⟨by decide, rfl⟩
  · rw [hc]; change bits 0x1000000 55 12 * 4096 ≠ 0; decide
  · rw [hc, hn]; rfl
  · rw [hc, hn]; rfl

theorem tableEmpty_allocates (regs : List (Nat × Word)) (i : Instr) (kind : Nat) :
    ∃ h t, ((tableEmpty regs).opened i).allocate 0 kind = (some h, t) := by
  obtain ⟨h, f, ps, cs, e⟩ := State.allocate_calm (tableEmpty_calm regs i) 0 kind
    (by change bits 0x1000000 55 12 * 4096 ≠ 0; decide) (by change 0 < 65536; decide) rfl rfl
  exact ⟨h, _, e⟩

theorem parkIndex_some (s : State) (hp : s.me.pmode = false) (hb : (s.cluster s.myCluster).parkbase ≠ 0)
    (hl : s.heldParks s.myCluster = []) : ∃ n t, s.parkIndex = some (n, t) := by
  simp only [State.parkIndex, hp, Bool.false_eq_true, if_false]
  exact s.takePark_some s.issue.core hb (hl ▸ by decide)

/-- An entry word with a pc and one without; a place of the own core and of core 1; the table empty, and no
table at all; a task of this module, of one that is not there, of one that is, and the last answers to its EXIT. -/
theorem met_TaskInstructionsAndExitComplete :
    let s := tableEmpty [(4, 0x4000), (5, 0), (6, own 0), (7, 0xFFFFFFFF80100000)]
    let t := (s.opened (.go p0 6)).useTlb (s.gv 6)
    let away := s.setMe { s.me with task := 0x0080000000000100 }
    let there : State := { away with routes := [(1, 0x0100000000000800)] }
    let last := away.setMe { away.me with
      flight := some ⟨.exit p0 4, none, 4, 0, .answers, 0, 0, 0, [(33, .note 0), (34, .note 0)], 0, 0⟩ }
    (∀ i, s.Issues i p0 ∧ last.Issues i p0 ∧ there.Issues i p0) ∧ (∃ h t, (s.opened (.spawn p0 1 4)).allocate s.myCluster 0 = (some h, t)) ∧
      (∃ n t, (s.opened (.yield p0)).parkIndex = some (n, t)) ∧ s.clean [4, 5, 6, 7] ∧ s.settled ∧
      s.me.flight = none ∧
      bits (s.gv 4) 57 56 = 0 ∧ bits (s.gv 4) 60 58 ≤ 4 ∧ bits (s.gv 4) 55 0 ≠ 0 ∧ bits (s.gv 5) 63 56 = 0 ∧
      (((rig true [(4, 0x4000)]).opened (.spawnq p0 1 4 1)).allocate 0 0).1 = none ∧
      s.checkGo (s.gv 6) = .ok ∧ t.home (s.gv 6) = some (0, 0) ∧ s.me.pmode = false ∧ s.ownsPort = false ∧
      (t.core 1).arrivalRoom = true ∧ hModule s.me.task = s.modNo.toNat ∧
      ((((s.opened (.exit p0 4)).endFuture s.me.task 2 (s.gv 4)).takeMembers s.me.task).2.exitLeaves
        (((s.opened (.exit p0 4)).endFuture s.me.task 2 (s.gv 4)).takeMembers s.me.task).1).1 = 0 ∧
      hModule away.me.task ≠ away.modNo.toNat ∧ hGen away.me.task ≠ 0 ∧ away.present 1 = false ∧
      away.me.flight = none ∧ there.present 1 = true ∧ there.featBit 1 8 = true ∧
      (last.answer 33).isSome = true ∧ (last.answer 34).isSome = true ∧ last.gp 4 = false ∧ last.drained = true :=
  ⟨fun i => ⟨issues_of _ (by decide +kernel) i, issues_of _ (by decide +kernel) i, issues_of _ (by decide +kernel) i⟩,
    tableEmpty_allocates _ _ _,
    parkIndex_some _ (by decide +kernel) (by decide +kernel) (by decide +kernel),
    clean_of _ _ (by decide +kernel), by unfold State.settled; decide +kernel⟩

theorem tabled_parks (i : Instr) : let s := tabled [(4, 0x500000104)] 1 []
    ∃ n t, ((s.opened i).renew 0 5 (entry 4 1 [])).parkIndex = some (n, t) := by
  intro s
  exact parkIndex_some _ (show s.me.pmode = false by decide +kernel)
    (show ((s.renew 0 5 (entry 4 1 [])).cluster (s.renew 0 5 (entry 4 1 [])).myCluster).parkbase ≠ 0 by
      decide +kernel)
    (show (s.renew 0 5 (entry 4 1 [])).heldParks (s.renew 0 5 (entry 4 1 [])).myCluster = [] by decide +kernel)

/-- A future resolved, failed and pending; each form that takes one; and a place for its record. -/
theorem met_TouchesTakeOrWait :
    let s := fun st => tabled [(4, 0x500000104)] st []
    (∀ st i, (s st).Issues i p0) ∧ (s 2).Live 0x500000104 (entry 4 2 []) ∧
      (s 3).Live 0x500000104 (entry 4 3 []) ∧ (s 1).Live 0x500000104 (entry 4 1 []) ∧
      (∀ st, (s st).gv 4 = 0x500000104 ∧ (s st).clean [4] ∧ (s st).me.flight = none ∧ (s st).settled) ∧
      (∀ i, ∃ n t, (((s 1).opened i).renew 0 5 (entry 4 1 [])).parkIndex = some (n, t)) ∧
      compactReg 4 = 4 ∧ compactGuard 0 = p0 ∧ (s 1).resv = [] ∧ (∀ o, (s 1).QuietAt o 384) ∧
      (entry 4 1 []).head = 0 :=
  ⟨fun st => tabled_issues _ st _, live_5 _ _ _ (by decide), live_5 _ _ _ (by decide),
    live_5 _ _ _ (by decide), fun _ => ⟨rfl, clean_of _ _ rfl, rfl, rfl, rfl⟩, fun i => tabled_parks i, rfl, rfl,
    rfl, fun _ => ⟨nofun, fun _ _ => rfl, nofun, nofun⟩, rfl⟩

theorem met_FutureInstructionsComplete :
    let s := fun st => tabled [(4, 0x500000104), (5, 0x2105)] st []
    (∀ st i, (s st).Issues i p0) ∧ (∀ st, st ≠ 0 → (s st).Live ((s st).gv 4) (entry 4 st [])) ∧
      (∀ st, (s st).clean [4] ∧ (s st).clean [5] ∧ (s st).me.flight = none ∧ (s st).settled) ∧
      bits ((s 1).gv 5) 15 0 ≠ 0 ∧ bits ((s 1).gv 5) 15 13 < 5 ∧ (entry 4 1 []).kind = 4 ∧
      (entry 4 1 []).refs ≠ 0xFFFF ∧ 1 < (entry 4 1 []).refs.toNat :=
  ⟨fun st => tabled_issues _ st _, fun _ h => live_5 _ _ _ h,
    fun _ => ⟨clean_of _ _ rfl, clean_of _ _ rfl, rfl, rfl, rfl⟩, by decide +kernel⟩

/-- A pending future, and final ones of each kind; handles of another generation and of another kind. -/
theorem met_FinishedFuturesStayFinal :
    let s := fun st => tabled [(4, 0x500000104), (5, 0x2105)] st []
    (∀ st, st ≠ 0 → (s st).Live ((s st).gv 4) (entry 4 st [])) ∧ (entry 4 1 []).head = 0 ∧
      (entry 4 2 []).state = 2 ∧ (entry 4 3 []).state = 3 ∧ (entry 4 4 []).state = 4 ∧ (entry 4 2 []).kind = 4 ∧
      (∀ st i, (s st).Issues i p0) ∧ (∀ st, (s st).clean [4, 5] ∧ (s st).me.flight = none ∧ (s st).settled) ∧
      bits ((s 2).gv 5) 15 0 ≠ 0 ∧ bits ((s 2).gv 5) 15 13 < 5 ∧
      hCluster 0x500000204 = hCluster 0x500000104 ∧ hClusterField 0x500000204 < 24 ∧
      hSlot 0x500000204 = hSlot 0x500000104 ∧ hGen 0x500000204 ≠ hGen 0x500000104 ∧
      hKind 0x500000103 ≠ hKind 0x500000104 ∧ (entry 4 1 []).gen ≠ 0 :=
  ⟨fun _ h => live_5 _ _ _ h, rfl, rfl, rfl, rfl, rfl, fun st => tabled_issues _ st _,
    fun _ => ⟨clean_of _ _ rfl, rfl, rfl, rfl⟩, by decide +kernel⟩

theorem met_PortInstructionsComplete :
    let s := rig true [(4, 1), (5, 0)]
    let t := s.setMyCore { s.myCore with owner := some 0 }
    (∀ i, s.Issues i p0 ∧ t.Issues i p0) ∧ s.clean [4] ∧ t.clean [5] ∧ s.gv 4 = 1 ∧ s.myCore.owner = none ∧
      t.gv 5 = 0 ∧ t.ownsPort = true :=
  ⟨fun i => ⟨rig_issues _ i, issues_of _ (by decide +kernel) i⟩, by unfold State.clean; decide +kernel⟩

theorem fst_some {α β : Type} {p : α × β} {a : α} (h : p.1 = a) : ∃ t, p = (a, t) := ⟨p.2, by rw [← h]⟩

/-- A barrier in the last 32 bytes of the mapped granule: a task that has not joined it, a member, and a member
that has arrived in the phase before; the last feed queue with a record and without. -/
theorem met_BarriersAndFeedsComplete :
    let m : Bool → Member := fun arr => ⟨0x1FFE0, arr, -1⟩
    let s := fun ms => tabled [(4, 0x1FFE0), (5, 0), (6, 1023)] 1 ms
    let found := fun ms i => (((s ms).opened i).useTlb 0x1FFE0).members? (s ms).me.task
    let bar := fun ms i => ((found ms i).2.openBarrier 0x1FFE0).barrier 0x1FFE0
    let keeps := fun ms i b =>
      ((((found ms i).2.openBarrier 0x1FFE0).settleBarrier 0x1FFE0 0x1FFE0 b).members? (s ms).me.task).1
    let mine := fun ms i => (found ms i).1.map fun x => (x.1, x.2.1, x.2.2.members)
    let d := fun tail => (s []).setFeed 1023 { (s []).feed 1023 with en := true, ftail := tail }
    (∀ ms i, (s ms).Issues i p0) ∧ (∀ i, (d 1).Issues i p0 ∧ (d 0).Issues i p0) ∧
      (s []).BarrierAt ((s []).gv 4) 0x1FFE0 ∧ (s [m false]).BarrierAt ((s [m false]).gv 4) 0x1FFE0 ∧
      (s []).clean [4, 5, 6] ∧ (s []).me.flight = none ∧ (s []).settled ∧
      hModule (s []).me.task = (s []).modNo.toNat ∧
      mine [] (.bjoin p0 4) = some (0, 6, []) ∧ mine [m false] (.barv p0 4) = some (0, 6, [m false]) ∧
      mine [m true] (.bwait p0 1 4 2) = some (0, 6, [m true]) ∧
      (bar [] (.bjoin p0 4)).expected ≠ 2 ^ 32 - 1 ∧
      (bar [] (.bjoin p0 4)).arrived ≤ (bar [] (.bjoin p0 4)).expected + 1 ∧
      (keeps [] (.bjoin p0 4) { bar [] (.bjoin p0 4) with expected := 1 }).isSome = true ∧
      (keeps [m false] (.barv p0 4) { bar [m false] (.barv p0 4) with arrived := 1 }).isSome = true ∧
      ((m true).aphase.toNat + 1) % 2 ^ 32 = (bar [m true] (.bwait p0 1 4 2)).phase ∧
      (bar [m true] (.bwait p0 1 4 2)).last = 0 ∧ (bar [m true] (.bexpect p0 4 5)).arrived = 0 ∧
      bits ((s []).gv 6) 63 10 = 0 ∧ ((d 1).feed 1023).en = true ∧ ((d 1).popFeed 1023).isSome = true ∧
      ((d 0).feed 1023).ftail = ((d 0).feed 1023).fhead :=
  ⟨fun ms => tabled_issues _ _ ms, fun i => ⟨issues_of _ (by decide +kernel) i, issues_of _ (by decide +kernel) i⟩,
    ⟨by decide +kernel, by decide +kernel, by decide +kernel,
      ⟨⟨0x10000, 3, false, true, true, true, true⟩, 0x1FFE0, by decide +kernel⟩⟩,
    ⟨by decide +kernel, by decide +kernel, by decide +kernel,
      ⟨⟨0x10000, 3, false, true, true, true, true⟩, 0x1FFE0, by decide +kernel⟩⟩,
    by unfold State.clean State.settled; decide +kernel⟩

theorem changeSnap_some (s : State) (x : Word) (h : s.ver.snaps = []) : ∃ t, s.changeSnap x = some t := by
  have hi : s.snapIndex x = none := by simp [State.snapIndex, h]
  obtain ⟨n, e⟩ := s.pickFree_some [] 4096 (by decide)
  simp [State.changeSnap, State.holdStamp, hi, h, e]

/-- The grants of TXB follow one another in the rig with an empty table. -/
theorem txb_grants (regs : List (Nat × Word)) : let s := tableEmpty regs
    ∃ n s1 s2 s3 h, (s.opened (.txb p0)).pickFree (s.ver.txs.map (·.1)) 4096 = some (n, s1) ∧
      (s1.changeSnap s.ver.vclock).isSome = true ∧ s1.allocate s.myCluster 3 = (some h, s2) ∧
      s2.changeSnap s.ver.vclock = some s3 := by
  intro s
  obtain ⟨n, e⟩ := (s.opened (.txb p0)).pickFree_some [] 4096 (by decide)
  have hc : s.myCluster = 0 := by simp [s, tableEmpty, rig, State.reset, State.myCluster, clusterOf]
  rw [hc]
  obtain ⟨t, ht⟩ : ∃ t : State, t = { s.opened (.txb p0) with fresh := (s.opened (.txb p0)).fresh + 1 } := ⟨_, rfl⟩
  obtain ⟨u, e2⟩ := changeSnap_some t s.ver.vclock (by rw [ht]; rfl)
  obtain ⟨h, f, ps, cs, e3⟩ := State.allocate_calm (s := t) (by rw [ht]; exact ⟨rfl, rfl, rfl⟩) 0 3
    (by rw [ht]; change bits 0x1000000 55 12 * 4096 ≠ 0; decide) (by rw [ht]; change 0 < 65536; decide)
    (by rw [ht]; rfl) (by rw [ht]; rfl)
  obtain ⟨v, e4⟩ := changeSnap_some { t with fresh := f, ports := ps, clusters := cs } s.ver.vclock (by rw [ht]; rfl)
  exact ⟨n, t, _, v, h, by rw [ht]; exact e, by rw [e2]; rfl, e3, e4⟩

/-- A strand outside a transaction, with stamps free; one in a transaction that is active, and one in a doomed one. -/
theorem met_VersionInstructionsComplete :
    let s := tableEmpty [(4, 0), (5, 1)]
    let tx := fun (st : BitVec 2) => (s.setTx 4095 ⟨1, 0, 0, 0, 0, st⟩).setMe { s.me with tx := txWord 1 0 4095 }
    (∀ i, s.Issues i p0 ∧ (tx 1).Issues i p0 ∧ (tx 2).Issues i p0) ∧
      (∃ t, (s.opened (.snap p0 1)).changeSnap s.ver.vclock = some t) ∧
      (∃ t, (s.opened (.snapx p0 5)).changeSnap (s.gv 5) = some t) ∧
      (∃ n s1 s2 s3 h, (s.opened (.txb p0)).pickFree (s.ver.txs.map (·.1)) 4096 = some (n, s1) ∧
        (s1.changeSnap s.ver.vclock).isSome = true ∧ s1.allocate s.myCluster 3 = (some h, s2) ∧
        s2.changeSnap s.ver.vclock = some s3) ∧
      txState s.me.tx = 0 ∧ s.clean [4] ∧ s.clean [5] ∧ s.gv 4 = 0 ∧ s.gv 5 ≠ 0 ∧ s.ver.vlow ≤ s.gv 5 ∧
      s.gv 5 ≤ s.ver.vclock ∧ txState (tx 1).me.tx ≠ 0 ∧ txState (tx 2).me.tx ≠ 0 ∧ (tx 1).settled ∧
      ((tx 1).tx (txIndex (tx 1).me.tx)).state = 1 ∧ ((tx 2).tx (txIndex (tx 2).me.tx)).state ≠ 1 := by
  refine ⟨fun i => ⟨?_, ?_, ?_⟩, changeSnap_some _ _ rfl, changeSnap_some _ _ rfl, txb_grants _, ?_⟩
  · exact issues_of _ (by decide +kernel) i
  · exact issues_of _ (by decide +kernel) i
  · exact issues_of _ (by decide +kernel) i
  · unfold State.clean State.settled; decide +kernel

/-- The core with the blocks of its engines set: the Loom's at 0x3000000 with the greatest ring at 0x3200000, its
Scrivener queue's at 0x3000200 with the least at 0x3100000. -/
def engaged (regs : List (Nat × Word)) : State :=
  let s := tableEmpty regs
  let t := s.setMyCore { s.myCore with loomblk := 0x3000000, scrblk := 0x3000200 }
  ((t.putBytes 0x3000000 (leBytes 8 0x3200000 ++ [16])).putBytes 0x3000200 (leBytes 8 0x3100000 ++ [6]))

theorem allocates (s : State) (cl kind : Nat) (h : s.groups = [] ∧ s.latent = [] ∧ s.hbmPoison = [] ∧
    s.futBase cl ≠ 0 ∧ (s.usedSlots cl).length < 65536 ∧ (s.cluster cl).lostSlots = [] ∧ (s.cluster cl).fut = []) :
    ∃ h f ps cs, s.allocate cl kind = (some h, { s with fresh := f, ports := ps, clusters := cs }) :=
  State.allocate_calm ⟨h.1, h.2.1, h.2.2.1⟩ cl kind h.2.2.2.1 h.2.2.2.2.1 h.2.2.2.2.2.1 h.2.2.2.2.2.2

/-- 16 bytes from the start of the scratchpad to its end; every queue; a descriptor that removes one. -/
theorem met_CopyInstructionsComplete :
    let s := engaged [(4, own 0xFFFF0), (5, own 0), (6, 16), (7, 24)]
    let ops := (Reg.group 4 3).map s.gv
    (∀ i, s.Issues i p0) ∧ s.OwnWords (s.gv 5) 0 32 ∧
      (∃ h t, (s.opened (.cpy p0 1 4)).allocate s.myCluster 1 = (some h, t) ∧
        (t.scrQueue 0x18001).cmds.length < 2 ^ 6 ∧ t.settled) ∧
      s.clean (Reg.group 4 3) ∧ s.clean [7] ∧ s.me.flight = none ∧ copyLimit 0 ops = none ∧
      (copyRanges 0 ops).findSome? Range.trapByte = none ∧ copyMisaligned 0 ops = none ∧
      ((copyRanges 0 ops).findSome? fun r => r.windowByte s.issue.core (!s.me.priv)) = none ∧
      s.myScr = some (0x18001, ⟨0x3000200, 0x3100000, 6⟩) ∧ (s.gv 7).toNat ≤ 24 ∧ s.tagsReady 0 32 true ∧
      (∀ w ∈ wordsOf 0 32, s.spadPois s.issue.core w = false) ∧ tdOk (s.bytes (spadKey 0 0) 32) = true := by
  refine ⟨issues_of _ (by decide +kernel), own_of _ _ _ _ (by decide +kernel), ?_,
    by unfold State.clean State.tagsReady; decide +kernel⟩
  obtain ⟨h, f, ps, cs, e⟩ := allocates ((engaged [(4, own 0xFFFF0), (5, own 0), (6, 16), (7, 24)]).opened
    (.cpy p0 1 4)) 0 1 (by decide +kernel)
  exact ⟨h, _, e, by change (0 : Nat) < 64; decide, rfl, rfl⟩

theorem all_of {α : Type} (l : List (α × Bool)) (f : α → Bool) (h : l.all (fun e => !e.2 && f e.1) = true) :
    ∀ e ∈ l, e.2 = false ∧ f e.1 = true := by
  intro e he
  simpa using List.all_eq_true.mp h e he

theorem takes_of (s : State) (key : Nat) (b : Block) (n : Nat) (h : s.myLoom = some (key, b) ∧
    recordsOf (s.loomQueue key).cmds + n ≤ 2 ^ b.m ∧ s.drained = true ∧ s.me.err = none) : s.LoomTakes key b n :=
  ⟨h.1, h.2.1, h.2.2⟩

/-- The greatest geometry words, a group list of one entry that has been read and one of none. -/
theorem met_LoomListsAndCommandsAreAccepted :
    let s := engaged [(4, own 0xFFFF8), (5, 0x4000000000), (6, own 0xFFFF0), (7, 1), (8, 0), (9, 0x2000000000)]
    let t := s.setMe { s.me with
      flight := some ⟨.lgrp p0 .f64 false none 6 7, none, 4, 0, .answers, 0, 0, 0,
        [(0, .data (List.replicate 16 0) [false, false])], 0, 0⟩ }
    (∀ i, s.Issues i p0 ∧ t.Issues i p0) ∧ s.LoomTakes 0x18000 ⟨0x3000000, 0x3200000, 16⟩ 65536 ∧
      t.LoomTakes 0x18000 ⟨0x3000000, 0x3200000, 16⟩ 2 ∧
      (∀ e ∈ groupsOf 1 t.got, e.2 = false ∧ groupOk .f64 e.1 = true) ∧
      s.clean [4, 5, 6, 7, 8, 9] ∧ t.clean [6, 7] ∧
      geoOk .f64 none (s.gv 5) = true ∧ geoReadOk .f64 (s.gv 9) = true ∧ s.engineAddress (s.gv 4) 8 ∧
      s.got = [] ∧ bits (s.gv 8) 5 0 = 0 ∧ bits (t.gv 7) 5 0 = 1 ∧ (t.gv 7).toNat / 2 ^ 6 = 0 ∧
      t.engineAddress (t.gv 6) 16 ∧ t.trapAnswer = none ∧
      ((groupsOf 1 t.got).map fun e => grpRows e.1).foldl (· + ·) 0 ≤ 32 :=
  ⟨fun i => ⟨issues_of _ (by decide +kernel) i, issues_of _ (by decide +kernel) i⟩,
    takes_of _ _ _ _ (by decide +kernel), takes_of _ _ _ _ (by decide +kernel), all_of _ _ (by decide +kernel),
    by unfold State.clean State.engineAddress; decide +kernel⟩

/-- A running sequencer and a stopped one. -/
theorem met_LoomMarkersAndStatusComplete :
    let s := engaged [(4, 2)]
    let z := s.setMyCore { s.myCore with loom := { s.myCore.loom with seq := .stopped } }
    let b : Block := ⟨0x3000000, 0x3200000, 16⟩
    let marks := fun (s : State) (r : Bool) => ∃ h t, (s.opened (.lfut p0 1)).allocate s.myCluster 2 = (some h, t) ∧
      t.LoomTakes 0x18000 b 1 ∧ (r = true ↔ t.myCore.loom.seq ≠ .stopped)
    (∀ i, s.Issues i p0 ∧ z.Issues i p0) ∧ s.LoomTakes 0x18000 b 1 ∧ z.LoomTakes 0x18000 b 1 ∧ marks s true ∧
      marks z false ∧ s.clean [4] ∧ s.me.flight = none ∧ (s.gv 4).toNat ≤ 2 := by
  have mark : ∀ (s : State) (r : Bool), s.groups = [] ∧ s.latent = [] ∧ s.hbmPoison = [] ∧
      s.futBase 0 ≠ 0 ∧ (s.usedSlots 0).length < 65536 ∧ (s.cluster 0).lostSlots = [] ∧ (s.cluster 0).fut = [] →
      s.LoomTakes 0x18000 ⟨0x3000000, 0x3200000, 16⟩ 1 → (r = true ↔ s.myCore.loom.seq ≠ .stopped) →
      ∃ h t, s.allocate 0 2 = (some h, t) ∧ t.LoomTakes 0x18000 ⟨0x3000000, 0x3200000, 16⟩ 1 ∧
        (r = true ↔ t.myCore.loom.seq ≠ .stopped) := by
    intro s r hc hl hr
    obtain ⟨h, f, ps, cs, e⟩ := allocates s 0 2 hc
    have hb := State.block_congr (t := { s with fresh := f, ports := ps, clusters := cs }) hc.1 hc.1 rfl rfl
      s.myCore.loomblk
    exact ⟨h, _, e, ⟨(congrArg (Option.map _) hb).trans hl.block, hl.room, hl.settled⟩, hr⟩
  exact ⟨fun i => ⟨issues_of _ (by decide +kernel) i, issues_of _ (by decide +kernel) i⟩,
    takes_of _ _ _ _ (by decide +kernel), takes_of _ _ _ _ (by decide +kernel),
    mark _ _ (by decide +kernel) (takes_of _ _ _ _ (by decide +kernel)) (by decide +kernel),
    mark _ _ (by decide +kernel) (takes_of _ _ _ _ (by decide +kernel)) (by decide +kernel),
    by unfold State.clean; decide +kernel⟩

theorem ready_of (s : State) (h : Shape) (srcs dests : List TReg) (x : shapeOf s.me.shape = some h ∧
    s.usualMods h.fmt = true ∧ s.me.flight = none ∧
    s.chainAllows s.issue.core (chainNeeds srcs dests) s.nextId = true ∧
    srcs.all (fun t => (s.tile t).agrees h) = true) : s.TileReady h srcs dests :=
  ⟨x.1, x.2.1, x.2.2.1, x.2.2.2.1, fun t ht => List.all_eq_true.mp x.2.2.2.2 t ht⟩

/-- A tile filled to its last bit, and one of a narrow format. -/
theorem met_TileWriteReadsBack :
    let h : Shape := ⟨8, 16, .f64⟩
    let n : Shape := ⟨32, 64, .f4⟩
    (0 < n.rows ∧ 0 < n.width ∧ n.size * n.width = 8192 ∧ n.rows ≤ 32 ∧ n.cols ≤ 256 ∧ isNarrow n.fmt = true) ∧
    h.rows ≤ 32 ∧ h.cols ≤ 256 ∧ isNarrow h.fmt = false ∧
    0 < h.rows ∧ 0 < h.cols ∧ 0 < h.width ∧ h.size * h.width = 8192 ∧
      (List.replicate 128 1).length = h.size ∧ (List.replicate 128 true).length = h.size := by decide +kernel

/-- The core with every tile of one i32 row of 4, and `sr.shape` as they are. -/
def intTiles : State :=
  let s := rig true [(4, own 0), (5, 64), (6, 3), (7, 0x20000)]
  let t := s.setMe { s.me with shape := 0x00200300 }
  let x : Tile := { entry := 0x4000000000200300 }
  t.setMyCore { t.myCore with tiles := (List.range 8).map fun n => (n, x) }

theorem met_TileArithmeticAndLogicComplete :
    let s := rig true []
    (∀ i, s.Issues i p0 ∧ intTiles.Issues i p0) ∧ s.TileReady ⟨8, 16, .f64⟩ [1, 63] [3] ∧
      s.TileReady ⟨8, 16, .f64⟩ [1, 2, 63] [63] ∧ intTiles.TileReady ⟨1, 4, .i32⟩ [1, 2] [3] ∧
      intTiles.TileReady ⟨1, 4, .i32⟩ [1, 2, 3] [3] ∧ Fmt.i32.isFloat = false := by
  refine ⟨fun i => ⟨rig_issues _ i, issues_of _ (by decide +kernel) i⟩, ?_, ?_, ?_, ?_, rfl⟩
  all_goals exact ready_of _ _ _ _ (by decide +kernel)

/-- A conversion to half the width, and one to integers; k of TTOPK at the number of columns. -/
theorem met_TileFunctionsAndReductionsComplete :
    let s := rig true []
    let h : Shape := ⟨8, 16, .f64⟩
    (∀ i, s.Issues i p0) ∧ s.TileReady h [1] [2] ∧ s.TileReady h [1] [62, 62 + 1] ∧ shapeOf s.me.shape = some h ∧
      cvtAccepts s.mw .f32 .f64 = true ∧ cvtAccepts s.mw .i64 .f64 = true ∧ s.me.flight = none ∧
      s.chainAllows s.issue.core (chainNeeds [1] [2]) s.nextId = true ∧ (s.tile 1).agrees h = true ∧
      h.size * Fmt.i64.width ≤ 8192 ∧ isNarrow h.fmt = false ∧ h.cols ≤ 32 ∧
      (15 : BitVec 6).toNat + 1 ≤ h.cols ∧ h.rows * 16 * h.width ≤ 8192 :=
  ⟨rig_issues _, ready_of _ _ _ _ (by decide +kernel), ready_of _ _ _ _ (by decide +kernel), by decide +kernel⟩

/-- The last element of a tile, the last word of its scales, its entry, and an index of none; a source with poison;
an entry that is good and one that is not; a float shape. -/
theorem met_TileMovesAndFillsComplete :
    let s := intTiles
    let p := (s.setG 5 0 true).setG 6 0x100000007 false
    let q := s.setG 6 0xFFFF false
    (∀ i, s.Issues i p0) ∧ s.TileReady ⟨1, 4, .i32⟩ [] [1] ∧ s.me.flight = none ∧
      s.chainAllows s.issue.core (chainNeeds [1] [2]) s.nextId = true ∧ isNarrow .i32 = false ∧
      s.clean [5, 6, 7] ∧ (s.tile 1).shape = some ⟨1, 4, .i32⟩ ∧
      moveIndex ⟨1, 4, .i32⟩ (s.gv 6) = some (0, 3) ∧
      moveIndex ⟨1, 4, .i32⟩ (s.gv 7) = some (2, 0) ∧ entryGood (s.gv 6) = true ∧
      (∀ i, p.Issues i p0 ∧ q.Issues i p0) ∧ p.clean [6] ∧ p.gp 5 = true ∧
      moveIndex ⟨1, 4, .i32⟩ 0x10007 = some (1, 7) ∧ moveIndex ⟨1, 4, .i32⟩ (q.gv 6) = none ∧
      entryGood 0x1000000 = false ∧
      (rig true []).TileReady ⟨8, 16, .f64⟩ [] [1] ∧ Fmt.f64.isFloat = true :=
  ⟨issues_of _ (by decide +kernel), ready_of _ _ _ _ (by decide +kernel), by decide +kernel, by decide +kernel,
    by decide +kernel, by unfold State.clean; decide +kernel, by decide +kernel, by decide +kernel, by decide +kernel,
    by decide +kernel, fun i => ⟨issues_of _ (by decide +kernel) i, issues_of _ (by decide +kernel) i⟩,
    by unfold State.clean; decide +kernel, by decide +kernel, by decide +kernel, by decide +kernel, by decide +kernel,
    ready_of _ _ _ _ (by decide +kernel), by decide +kernel⟩

theorem run_of (s : State) (u : Nat) (need : Need) (r : Run) (x : r.bad = false ∧
    s.checkAccess r.ea r.n u need = .ok ∧ s.latent = [] ∧
    r.pieces.all (fun p => (p :: p.units u).all fun q => (s.ownOff q.ea).isSome &&
      s.tagsAllow s.issue.core (wordsOf ((s.ownOff q.ea).getD 0) q.n) true s.nextId) = true) :
    s.OwnRun u need r := by
  obtain ⟨h1, h2, hl, h3⟩ := x
  refine ⟨h1, h2, fun p hp q hq => ?_⟩
  have h4 := List.all_eq_true.mp (List.all_eq_true.mp h3 p hp) q hq
  simp only [Bool.and_eq_true, Option.isSome_iff_exists] at h4
  obtain ⟨⟨v, hv⟩, ht⟩ := h4
  exact ⟨v, hv, fun w _ => by rw [hl]; rfl, fun _ => by simpa [hv, State.tagsReady] using ht⟩

/-- One row of 16 bytes at the start of the scratchpad, and four elements named by an index tile of zeros. -/
theorem met_TileMemoryCompletes :
    let s := intTiles
    let h : Shape := ⟨1, 4, .i32⟩
    (∀ i, s.Issues i p0) ∧ s.TileReady h [] [1] ∧ s.TileReady h [1] [] ∧
      (∀ r ∈ rowRuns h (s.gv 4) (s.gv 5), s.OwnRun h.unit .read r ∧ s.OwnRun h.unit .write r) ∧
      (∀ r ∈ indexRuns h (s.gv 4) (((s.tile 2).elems h).map (intElem .i32 0)) ((s.tile 2).poisons h),
        s.OwnRun h.unit .read r ∧ s.OwnRun h.unit .write r) ∧
      s.clean [4, 5] ∧
      (h.fmt = .f4 → h.cols % 2 = 0) ∧ (s.gv 5).toNat % h.unit = 0 ∧ (s.gv 4).toNat % h.unit = 0 ∧ h.fmt ≠ .f4 ∧
      indexShape h (s.tile 2) = some h ∧ shapeOf s.me.shape = some h ∧ s.usualMods h.fmt = true ∧
      s.me.flight = none ∧ s.chainAllows s.issue.core (chainNeeds [2] [1]) s.nextId = true ∧
      s.chainAllows s.issue.core (chainNeeds [1, 2] []) s.nextId = true ∧ (s.tile 1).agrees h = true ∧
      s.outWritten 1 s.nextId = false ∧ s.me.posted = [] ∧ s.mayStore s.isRelease := by
  refine ⟨issues_of _ (by decide +kernel), ready_of _ _ _ _ (by decide +kernel), ready_of _ _ _ _ (by decide +kernel),
    ?_, ?_, by unfold State.clean State.mayStore State.released; decide +kernel⟩
  · intro r hr
    have e : rowRuns ⟨1, 4, .i32⟩ (intTiles.gv 4) (intTiles.gv 5) = [⟨0, own 0, 16, false⟩] := by decide +kernel
    rw [e] at hr
    obtain rfl := List.mem_singleton.mp hr
    exact ⟨run_of _ _ _ _ (by decide +kernel), run_of _ _ _ _ (by decide +kernel)⟩
  · intro r hr
    have e : indexRuns ⟨1, 4, .i32⟩ (intTiles.gv 4)
        (((intTiles.tile 2).elems ⟨1, 4, .i32⟩).map (intElem .i32 0)) ((intTiles.tile 2).poisons ⟨1, 4, .i32⟩) =
        [⟨0, own 0, 4, false⟩, ⟨4, own 0, 4, false⟩, ⟨8, own 0, 4, false⟩, ⟨12, own 0, 4, false⟩] := by decide +kernel
    rw [e] at hr
    simp only [List.mem_cons, List.not_mem_nil, or_false] at hr
    rcases hr with rfl | rfl | rfl | rfl <;>
      exact ⟨run_of _ _ _ _ (by decide +kernel), run_of _ _ _ _ (by decide +kernel)⟩

/-- The issuing strand of the rig at user level, as TRAP is met there. -/
def userRig (regs : List (Nat × Word)) : State := rig false regs

/-- The issuing strand with another status word. -/
def withEstat (s : State) (w : Word) : State := s.setMe { s.me with estat := w }

theorem user_issues (regs : List (Nat × Word)) (k : BitVec 5) :
    (userRig regs).Issues (.trap p0 k) p0 ∧ (userRig regs).Issues (.dbgb p0 k) p0 := by
  refine ⟨⟨rfl, rfl, ?_, ?_, ?_, Or.inl rfl⟩, ⟨rfl, rfl, ?_, ?_, ?_, Or.inl rfl⟩⟩
  any_goals (intro x; cases x)
  all_goals simp [State.passes, State.p, Strand.p]

/-- At user level, and at supervisor level with ok set; with a debugger and without. -/
theorem met_TrapsEnterTheHandler :
    let s := rig true []
    let d := s.setMyCore { s.myCore with dbg := 0x80000000 }
    (∀ i, s.Issues i p0 ∧ d.Issues i p0) ∧ (∀ k, (userRig []).Issues (.trap p0 k) p0 ∧
      (userRig []).Issues (.dbgb p0 k) p0) ∧ (s.me.priv = true → s.me.estat.getLsbD 7 = true) ∧
      s.man.stopped = false ∧ s.myCore.dbg.getLsbD 31 = false ∧ d.myCore.dbg.getLsbD 31 = true :=
  ⟨fun i => ⟨rig_issues _ i, issues_of _ (by decide +kernel) i⟩, user_issues _, by decide +kernel⟩

/-- A strand at supervisor level with ok clear, in the last slot that a number names too, and with ok set. -/
theorem met_DoubleTrapHaltsTheStrand :
    let s := withEstat (rig true []) 0
    let n := withEstat (rig true []) 0x80
    (∀ i, s.Issues i p0 ∧ n.Issues i p0) ∧ s.me.priv = true ∧ s.me.estat.getLsbD 7 = false ∧ s.issue.slot < 32 ∧
      ((s.setStrand 0 31 s.me).strand 0 31).priv = true ∧
      (s.man.history.filter fun r => r.time == s.time).length < 4095 ∧ n.me.priv = true ∧ n.me.estat.getLsbD 7 = true :=
  ⟨fun i => ⟨issues_of _ (by decide +kernel) i, issues_of _ (by decide +kernel) i⟩, by decide +kernel⟩

/-- act 0, 1, 2 and 3, a bare slot, and a kill whose code is no fault word's. -/
theorem met_EretReturnsOrKills :
    let s := fun w => withEstat (rig true []) w
    let k := (s 0x82).setMe { (s 0x82).me with cause := 0x60010000 }
    (∀ w, w = 0x80 ∨ w = 0x81 ∨ w = 0x82 ∨ w = 0x83 ∨ w = 0xE0 ∨ w = 0xC2 → ∀ i, (s w).Issues i p0) ∧
    (∀ i, k.Issues i p0) ∧
      bits (s 0x81).me.estat 1 0 < 2 ∧ (s 0x81).me.estat.getLsbD 6 = false ∧
      bits (s 0xE0).me.estat 1 0 < 2 ∧ (s 0xE0).me.estat.getLsbD 6 = true ∧
      bits (s 0xC2).me.estat 1 0 = 2 ∧ (s 0xC2).me.estat.getLsbD 6 = true ∧
      faultWordOk (BitVec.ofNat 64 (bits (s 0x82).me.cause 31 16)) = false ∧
      bits k.me.estat 1 0 = 2 ∧ k.me.estat.getLsbD 6 = false ∧
      faultWordOk (BitVec.ofNat 64 (bits k.me.cause 31 16)) = true ∧ bits (s 0x83).me.estat 1 0 = 3 := by
  refine ⟨?_, issues_of _ (by decide +kernel), by decide +kernel⟩
  rintro w (rfl | rfl | rfl | rfl | rfl | rfl) i <;> exact issues_of _ (by decide +kernel) i

/-- Another strand of the core, at user level and stopped where it stands. -/
def twoStrands (regs : List (Nat × Word)) : State :=
  let s := rig true regs
  s.setStrand 0 31 { s.strand 0 31 with st := .ready, inst := 3 }

/-- The core with its Loom paused, its block set, and a context word in g1. -/
def ctxRig (w : Word) : State :=
  let s := engaged [(1, w)]
  s.setMyCore { s.myCore with loom := { s.myCore.loom with seq := .paused } }

/-- Context words of the parts 1 to 8, at the ends of the reserved area and with their least and greatest
index. -/
def ctxWords : List Word :=
  [0x1003F0000000FB80, 0x200000000000FF00, 0x300030000000F000, 0x4000000000000000, 0x5000000000000000,
   0x500010000000BBC0, 0x6000300000000000, 0x600070000000B000, 0x700000000000FF80, 0x7000100000000000,
   0x700020000000CFC0, 0x800000000105FE80]

/-- The word of a part other than 4 and 9 may be loaded now. -/
def loads (w : Word) : Bool :=
  let s := ctxRig w
  let o := 0xF0000 + ctxOff w
  ctxWordOk (s.gv 1) 9 && s.loadOk (s.gv 1) && decide (ctxPart (s.gv 1) ≠ 4) && decide (ctxPart (s.gv 1) ≠ 9) &&
    s.tagsAllow 0 (wordsOf o (partBytes (ctxPart w) (ctxIndex w))) true s.nextId

/-- An interrupt enabled and pending; context words of every part. -/
theorem met_SystemInstructionsAndContextsComplete :
    let s := rig true [(4, 0), (5, 8)]
    let p := s.setMyCore { s.myCore with cctl := 0x100, ipend := 1 }
    let c := twoStrands [(1, 0x0001F0000000FE80)]
    let k := (ctxRig 0x9000500001050000).setCluster 0
      { (ctxRig 0x9000500001050000).cluster 0 with parkbase := 0x2000000, parked := [(5, 1)] }
    let m := ctxRig 0x4000000000000000
    (∀ i, s.Issues i p0 ∧ p.Issues i p0 ∧ c.Issues i p0 ∧ k.Issues i p0 ∧ ∀ w, (ctxRig w).Issues i p0) ∧
      (∀ w, (ctxRig w).clean [1] ∧ (ctxRig w).settled ∧ (ctxRig w).me.flight = none ∧ (ctxRig w).gv 1 = w ∧
        (∀ ws, (ctxRig w).soundWords ws) ∧ ∀ x, (ctxRig w).spadPois 0 x = false) ∧
      (∀ p ∈ (m.hbmRead (0x3000000 + 32) 224).2.1, p = false) ∧
      p.pending p.issue.core ≠ 0 ∧ s.clean [4, 5] ∧ s.me.flight = none ∧ s.issue.core < 2304 ∧
      bits (s.gv 5) 51 4 = 0 ∧ bits (s.gv 5) 3 2 ≠ 3 ∧ bits (s.gv 5) 1 0 ≠ 3 ∧
      ((s.opened (.tlbi p0 4 5)).tlbi (bits (s.gv 5) 3 2) (bits (s.gv 5) 1 0) ((s.gv 5).extractLsb' 52 12)
        (s.gv 4)).walksLeft (bits (s.gv 5) 3 2) = false ∧
      (c.clean [1] ∧ c.settled ∧ ctxWordOk (c.gv 1) 7 = true ∧ c.saveOk (c.gv 1) = true ∧ ctxPart (c.gv 1) = 0 ∧
        c.canStop 0 (ctxIndex (c.gv 1)) = true ∧ c.strandDrained 0 (ctxIndex (c.gv 1)) = true) ∧
      ((ctxWords.take 11).all fun w => ctxWordOk w 7 && (ctxRig w).saveOk w) = true ∧
      m.myCore.tilePending 63 = false ∧ (m.myLoom.map fun x => x.2.off) = some 0x3000000 ∧ m.loadOk (m.gv 1) = true ∧
      ((0x0001F00000000000 :: ctxWords.filter fun w => ctxPart w != 4).all loads) = true ∧
      (ctxWordOk (k.gv 1) 9 = true ∧ k.loadOk (k.gv 1) = true ∧ ctxPart (k.gv 1) = 9) := by
  refine ⟨fun i => ⟨rig_issues _ i, ?_, ?_, ?_, fun w => issues_of _ ⟨rfl, rfl, rfl, rfl, rfl⟩ i⟩,
    fun w => ⟨clean_of _ _ rfl, ⟨rfl, rfl⟩, rfl, rfl, fun _ _ _ => rfl, fun _ => rfl⟩,
    fun p hp => by simpa using List.any_eq_false.mp (State.hbmRead_calm ⟨rfl, rfl, rfl⟩ _ _).1 p hp, by
    unfold State.clean State.settled; decide +kernel⟩
  all_goals exact issues_of _ (by decide +kernel) i

/-- A core with an interrupt enabled and pending, its strand 3 at user level. -/
def interrupted : State :=
  let s := rig false []
  let c := s.core 0
  s.setCore 0 { c with cctl := 0x100, ipend := 1, strands := [(3, s.strand 0 0)] }

/-- A user strand to interrupt; none, and the last slot free; a store error of a strand that is there and of one
that has gone. -/
theorem met_CoreEventsComplete :
    let s := interrupted
    let c := s.core 0
    let full := s.setCore 0 { c with strands := (List.range 31).map fun k => (k, { s.strand 0 3 with priv := true }) }
    let e : StoreErr := ⟨0, 3, 0, 0x6A04, 0⟩
    let g : StoreErr := ⟨0, 3, 9, 0x6A04, 0⟩
    let se := { s with errors := [e] }
    let sg := { s with errors := [g] }
    s.man.stopped = false ∧ (s.core 0).started = true ∧ (s.core 0).cctl.getLsbD 0 = false ∧ s.pending 0 ≠ 0 ∧
      (s.strand 0 3).eligible = true ∧ (∀ j, j < 3 → (s.strand 0 j).eligible = false) ∧ s.canStop 0 3 = true ∧
      (s.strand 0 3).failed = none ∧ (s.landFetch 0 3).lengthKnown 0 (s.strand 0 3) = true ∧ full.pending 0 ≠ 0 ∧
      (∀ j, j < 32 → (full.strand 0 j).eligible = false) ∧
      full.slotFree 0 31 = true ∧ (∀ j, j < 31 → full.slotFree 0 j = false) ∧
      se.errors.find? (fun e => e.core == 0) = some e ∧ se.alive 0 3 0 = true ∧
      (se.strand 0 3).err = none ∧ sg.errors.find? (fun e => e.core == 0) = some g ∧ sg.alive 0 3 9 = false := by
  decide +kernel

/-- A descriptor, fresh or of a resume. -/
def desc (resume : Bool) (tiles : BitVec 3) : Desc :=
  { mig := false, prio := 0, tiles := tiles, pc := 0x4000, pois := 0, resume := resume, ixk := 0, index := 0,
    pred := 1, self := 0, parent := 0, carry := [] }

/-- A started core 0 that is not held, with one descriptor at the young end of its deque. -/
def binding (resume : Bool) (tiles : BitVec 3) : State :=
  let s := rig true []
  s.setCore 0 { s.core 0 with deque := [desc resume tiles] }

theorem ringGet_some (s : State) (h : s.Calm) (n : Nat) (ring : Word) (i : Nat) :
    ∃ d t, s.ringGet n ring i = (some d, t) := by
  obtain ⟨a, -⟩ := State.hbmRead_calm h (paOffset (ringPa ring) + 160 * i) 160
  simp only [State.ringGet, a, Bool.false_eq_true, if_false]
  exact ⟨_, _, rfl⟩

/-- Each kind of descriptor to bind, one whose tiles have landed; a round of probes that takes something and one
that does not; rings with and without descriptors; a descriptor held by its sender. -/
theorem met_TaskEventsComplete :
    let s := rig true []
    let x : Core := { deque := [desc false 0] }
    let v : State := { s with cores := s.cores ++ (List.range 23).map fun k => (k + 1, x) }
    let r := s.setCore 0 { s.core 0 with arring := 0x4000008, arFill := 1, resend := [desc false 0] }
    let f := s.setCore 0 { s.core 0 with prefetch := [(desc false 1, 31, 1)] }
    let b := binding true 0
    let own := { desc false 0 with self := 0x500000104 }
    let t := tabled [] 4 []
    let g := t.setCore 0 { t.core 0 with deque := [own] }
    let h := t.setCore 0 { t.core 0 with prefetch := [({ own with tiles := 1 }, 31, 1)] }
    let ring := s.setCore 0 { s.core 0 with dqring := 0x4000008, dqFill := 1 }
    let quiet := fun (s : State) (o n : Nat) => s.QuietAt o n ∧ ∀ g ∈ gransOf o n, s.granPois g = false
    quiet b (b.parkOff 0 + 384 * (desc true 0).parkIndex) 384 ∧
      quiet ring (paOffset (ringPa (ring.core 0).dqring) + 160 * 0) 160 ∧
      (∃ g ∈ gransOf (b.parkOff 0 + 384 * (desc true 0).parkIndex) 384, (b.setGranPois 0 true).granPois g = true) ∧
      (b.setGranPois 0 true).groups = [] ∧ (b.setGranPois 0 true).latent = [] ∧ (b.setGranPois 0 true).loomQ = [] ∧
      (b.setGranPois 0 true).scrQ = [] ∧ (ring.core 0).dqFill = 1 ∧
      min (ring.core 0).dqFill (32 - (ring.core 0).deque.length) = 1 ∧ (ring.core 0).deque.length ≤ 16 ∧
      (∃ v, (((binding false 0).choose ((binding false 0).freeSlots 0).length).2.setCore 0
        (((binding false 0).core 0).takeTask false)).startFuture (desc false 0).self = (true, v)) ∧
      (g.core 0).nextTask = some (false, own) ∧
      (∃ v, ((g.choose (g.freeSlots 0).length).2.setCore 0 ((g.core 0).takeTask false)).startFuture own.self =
        (false, v)) ∧
      (∃ v, (f.setCore 0 ((f.core 0).endPrefetch (desc false 1).self)).startFuture (desc false 1).self = (true, v)) ∧
      (h.core 0).landed = some (31, { own with tiles := 1 }) ∧
      (∃ v, (h.setCore 0 ((h.core 0).endPrefetch own.self)).startFuture own.self = (false, v)) ∧
    (∃ t, s.probes 0 12 1 = (false, t)) ∧ (∃ t, v.probes 0 12 1 = (true, t)) ∧
      (∃ d t, r.ringGet 0 (r.core 0).arring (r.core 0).arHead = (some d, t)) ∧
      s.man.stopped = false ∧ (binding true 0).binds 0 = true ∧ (binding true 0).freeSlots 0 ≠ [] ∧
      ((binding true 0).core 0).nextTask = some (false, desc true 0) ∧ ((binding true 0).core 0).landed = none ∧
      ((binding false 0).core 0).nextTask = some (false, desc false 0) ∧
      ((binding false 7).core 0).nextTask = some (false, desc false 7) ∧
      (binding false 7).tileRoom 0 (desc false 7) = true ∧ f.binds 0 = true ∧
      (f.core 0).landed = some (31, desc false 1) ∧ s.mayStealNow 0 = true ∧
      v.mayStealNow 0 = true ∧ (s.core 0).deque.length ≤ 16 ∧ (s.core 0).dqFill = 0 ∧ (r.core 0).arFill ≠ 0 ∧
      (r.core 0).arrivals.length < 64 ∧ (r.core 0).resend = desc false 0 :: [] ∧ (r.core 0).arrivalRoom = true :=
  ⟨⟨⟨nofun, fun _ _ => rfl, nofun, nofun⟩, fun _ _ => rfl⟩, ⟨⟨nofun, fun _ _ => rfl, nofun, nofun⟩, fun _ _ => rfl⟩,
    ⟨0, by decide +kernel, by decide +kernel⟩, rfl, rfl, rfl, rfl, by decide +kernel, by decide +kernel,
    by decide +kernel, fst_some (by decide +kernel), by decide +kernel, fst_some (by decide +kernel),
    fst_some (by decide +kernel), by decide +kernel, fst_some (by decide +kernel),
    fst_some (by decide +kernel), fst_some (by decide +kernel), ringGet_some _ ⟨rfl, rfl, rfl⟩ _ _ _,
    by decide +kernel⟩

/-- Strand 0 waiting for `out` answers to a load, with one of them on its way. -/
def awaiting (out : Nat) : State :=
  let s := rig true []
  let i : Instr := .ld p0 .n64 1 4 0
  let t := s.setMe { s.me with st := .waiting, flight := some ⟨i, none, 4, 0, .answers, 0, 0, out, [], 0, 0⟩ }
  { t with replies := [⟨7, 0, 0, 0, 0, .data [1, 2, 3, 4, 5, 6, 7, 8] [false]⟩] }

/-- A request of strand 0 at a place. -/
def request (place : Place) (op : ReqOp) (pool : Option Nat) (sent : Option (Nat × Nat × Nat)) : Req :=
  { id := 7, core := 0, slot := 0, inst := 0, elem := 0, place := place, op := op, addr := 0x1000, pa := 0x1000,
    ea := 0x1000, size := 8, ver := false, snap := 0, tx := 0, oflag := false, since := 0, cyc := 0, pool := pool,
    sent := sent, pkt := none }

/-- The module with one request on its way, in cycle `now`. -/
def asked (r : Req) (now : Nat) : State := { rig true [] with reqs := [r], now := now }

/-- A store of strand 0 at a place, at the head of its bank. -/
def stored (place : Place) (sent : Option (Nat × Nat × Nat)) : WbEntry :=
  { id := 7, slot := 0, inst := 0, bank := 0, place := place, op := .bytes, addr := 0x1000, pa := 0x1000, ea := 0x1000,
    bytes := [1, 2, 3, 4, 5, 6, 7, 8], poison := [false], ver := false, snap := 0, tx := 0, sup := true,
    oflag := false, grp := 0, sent := sent }

def storing (e : WbEntry) (now : Nat) : State :=
  let s := rig true []
  { s.setCore 0 { s.core 0 with wb := [e] } with now := now }

/-- Two answers due and one; requests and stores at every place; waits at the end of their limits; a group, a
reservation, a doom notice, and a walk whose leaf a prefetch waits for. -/
theorem met_MemoryEventsComplete :
    let ans : Answer := .data [1, 2, 3, 4, 5, 6, 7, 8] [false]
    let find := fun (s : State) => s.replies.find? (fun r => r.id == 7 && decide (r.slot < 1000))
    let req := fun (s : State) => s.reqs.find? (fun r => r.id == 7)
    let g : Group := ⟨7, 0, 0x1000, .add, false, [⟨1, 0, 0, 0, 0x1000, none⟩]⟩
    let rs : Resv := ⟨7, 0, 0, 0, none, some 0, true⟩
    let walk : Walk := ⟨0, 5, 0x0008000000000000, [], false, [0], [⟨0, 0x50000, true⟩]⟩
    let s := rig true []
    let d := { s.setMe { s.me with tx := txWord 1 0 7 } with ver := { s.ver with notices := [7] } }
    let port := fun (op : ReqOp) => asked (request (.port 0) op none none) 0
    let clear : WbEntry := { stored (.port 0) none with op := .clear, bytes := [] }
    (∀ op, (port op).resv = [] ∧ (port op).CleanAt 0x1000 8 ∧ (port op).SoundAt 0x1000 128 ∧
      (request (.port 0) op none none).ver = false ∧ (request (.port 0) op none none).pkt = none ∧
      (port op).stackTraining 0x1000 = false ∧ (port op).stackDead 0x1000 = false) ∧
      (∀ e, e = stored (.port 0) none ∨ e = clear → (storing e 0).resv = [] ∧ (storing e 0).SoundAt e.addr 8 ∧
        (storing e 0).SoundAt e.addr 128 ∧ e.ver = false ∧ (storing e 0).findStore 7 = some (0, e) ∧
        (storing e 0).applicable 0 e = true ∧ (storing e 0).reqs = []) ∧
      (stored (.port 0) none).op = .bytes ∧ (stored (.port 0) none).bytes.length = 8 ∧ clear.op = .clear ∧
      (∀ p op, req (asked (request p op none none) 0) = some (request p op none none)) ∧
      (∀ p sent, (storing (stored p sent) 0).findStore 7 = some (0, stored p sent) ∧
        (storing (stored p sent) 0).applicable 0 (stored p sent) = true) ∧
      (∀ n, n = 1 ∨ n = 2 → find (awaiting n) = some ⟨7, 0, 0, 0, 0, ans⟩ ∧ (awaiting n).alive 0 0 0 = true ∧
        (awaiting n).man.stopped = false ∧
        ((awaiting n).strand 0 0).flight.map (fun f => (f.on, f.out)) = some (.answers, n)) ∧
      (asked (request (.port 63) .load none none) 0).stackTraining 0x1000 = false ∧
      (asked (request (.port 63) .load none none) 0).stackDead 0x1000 = false ∧
      ReqOp.load.isRead = true ∧ (ReqOp.write .bytes []).isWrite = true ∧
      (ReqOp.amo .add false ⟨1, false⟩).isAtomic = true ∧
      (asked (request (.port 0) .load (some 1) none) 65537).poolOver (request (.port 0) .load (some 1) none) = true ∧
      (asked (request (.remote 1) .load none (some (0, 0, 1))) 4194305).lateSince (some (0, 0, 1)) = true ∧
      (storing (stored (.remote 1) (some (0, 0, 1))) 4194305).lateSince (some (0, 0, 1)) = true ∧
      ({ s with groups := [g] } : State).groups.find? (fun g => g.id == 7) = some g ∧
      ({ s with resv := [rs], now := 16384 } : State).expired 7 = some rs ∧
      d.ver.notices.contains 7 = true ∧ d.ownerOfTx 7 = some (0, 0) ∧
      ((s.setCluster 0 { s.cluster 0 with walks := [walk] }).cluster 0).walks.find?
        (fun x => x.ctx == 0 && x.granule == (5 : BitVec 40).toNat) = some walk := by
  refine ⟨fun op => ⟨rfl, ⟨⟨by decide, nofun, fun _ _ => rfl, nofun, nofun⟩, fun _ _ => rfl⟩,
    ⟨by decide, nofun, fun _ _ => rfl, nofun, nofun⟩, rfl, rfl, rfl, rfl⟩, ?_, rfl, rfl, rfl,
    fun p op => rfl, fun p sent => ⟨rfl, by cases p <;> rfl⟩, ?_, by decide +kernel⟩
  · rintro e (rfl | rfl) <;> exact ⟨rfl, ⟨by decide, nofun, fun _ _ => rfl, nofun, nofun⟩,
      ⟨by decide, nofun, fun _ _ => rfl, nofun, nofun⟩, rfl, rfl, rfl, rfl⟩
  · rintro n (rfl | rfl) <;> decide +kernel

/-- A command of the given instruction at the head of core 0's Loom queue, resumed at row `k`, on rows from the start
of the near window; a copy or a tile at the head of its Scrivener's, and the tile's task. -/
def engineWork (i : Instr) (x : CopyCmd) (k : Nat) : State :=
  let s := engaged []
  let c : LoomCmd :=
    ⟨i, 0, 0, 0, false, own 0, 0x100000000, none, 0, 0, [(own 0, 0x0001000100000000)], 0, 1, true⟩
  let t := (s.setMyCore { s.myCore with
    loom := { s.myCore.loom with warp := { s.myCore.loom.warp with count := 1 } }
    prefetch := [({ desc false 1 with self := 0 }, 31, 0)] }).putBytes 0x3000110 (leBytes 4 k)
  let u := { t with loomQ := [(0x18000, ⟨0x3200000, 16, [c]⟩)], scrQ := [(0x18001, ⟨0x3100000, 6, [x]⟩)] }
  u.setCluster 0 { u.cluster 0 with reeveblk := 0x3000200 }

/-- Two words of the near window copied to its end, rows copied, elements gathered. -/
def copyOf (kind : Nat) : CopyCmd :=
  { kind := kind, ops := if kind = 0 then [own 0xFFFF0, own 0, 16] else if kind = 1 then
      [own 0x100, own 0, 8, 8, 8, 2] else [own 0x100, own 0, own 0x40, 2],
    xroot := 0, user := false, core := 0, fut := 0, emptied := [(0, 0)], pad := 0 }

/-- A tile of one row of 8 bytes from the near window, for the last 8 bytes below the reserved area. -/
def tileWork (bad : Bool) (w : Word) (e : Option (BitVec 256)) : CopyCmd :=
  { kind := 3, ops := [w], xroot := 0, user := true, core := 0, fut := 0, emptied := [], pad := 0, tile := e,
    bad := bad }

/-- The Loom's heads and markers. -/
def loomWorks : List Instr :=
  [.wld p0 .f64 none 4 5, .wswap p0, .vclr p0 true, .weft p0 .f64 false none 4 5, .vadd p0 true 4,
    .lgrp p0 .f64 false none 4 5, .lloop p0 7 4, .vrd p0 .f64 false 4 5, .lfut p0 1]

/-- The head command of each kind, an LFUT and a copy of each kind; a Loom and a Scrivener queue to be paused. -/
theorem met_EngineHeadsServed :
    let head := fun (s : State) => (s.loomHead 0).map fun x => (x.1, x.2.1, x.2.2.instr)
    let b : Block := ⟨0x3000000, 0x3200000, 16⟩
    let s := engineWork (.wswap p0) (copyOf 0) 0
    let p := s.setMyCore { s.myCore with cctl := 0x14 }
    let z := s.setMyCore { s.myCore with cctl := 0x8 }
    let idle := (rig true []).setMyCore { (rig true []).myCore with cctl := 0x8 }
    let calm := idle.setMyCore { idle.myCore with cctl := 0x4 }
    z.loomMidway 0 = true ∧ (z.core 0).wantsLoomPause = true ∧ bits (z.core 0).cctl 3 2 ≠ 1 ∧
      (z.loom 0).seq = .running ∧ idle.loomMidway 0 = false ∧ (idle.core 0).wantsLoomPause = true ∧
      bits (idle.core 0).cctl 3 2 ≠ 1 ∧ (idle.loom 0).seq = .running ∧ bits (p.core 0).cctl 3 2 = 1 ∧
      (p.loomHead 0).isSome = true ∧ (calm.core 0).wantsLoomPause = true ∧ bits (calm.core 0).cctl 3 2 = 1 ∧
      calm.loomHead 0 = none ∧ (calm.loom 0).seq = .running ∧
    s.man.stopped = false ∧
      (loomWorks.all fun i => (decide (head (engineWork i (copyOf 0) 0) = some (0x18000, b, i)) &&
        (engineWork i (copyOf 0) 0).loomReady 0)) = true ∧
      ([0, 1, 2].all fun k => decide (((engineWork (.wswap p0) (copyOf k) 0).scrHead 0 0).map (·.2.kind) = some k)) =
        true ∧ (s.scrHead 0 24).isSome = true ∧
      (p.loom 0).seq = .running ∧ (p.core 0).wantsLoomPause = true ∧ p.wantsScrPause 0 = true ∧
      p.scrMidway 0 = false := by
  decide +kernel

/-- Each command with its rows at hand: from row 0, and the last row of VADD. -/
theorem met_LoomCommandsRun :
    let work := fun (i : Instr) (k : Nat) => engineWork i (copyOf 0) k
    let cmd := fun (i : Instr) => (((work i 0).loomHead 0).map (·.2.2)).getD
      ⟨i, 0, 0, 0, false, 0, 0, none, 0, 0, [], 0, 1, false⟩
    let row := fun (i : Instr) (n : Nat) => (work i 0).RowHere (cmd i) .read (own 0) n
    let s := work (.wswap p0) 0
    row (.wld p0 .f64 none 4 5) 256 ∧ row (.weft p0 .f64 false none 4 5) 256 ∧
      row (.lgrp p0 .f64 false none 4 5) 256 ∧ row (.lloop p0 7 4) 8 ∧
      (work (.vadd p0 true 4) 31).RowHere (cmd (.vadd p0 true 4)) .read (own 7936) 256 ∧
      (work (.vrd p0 .f64 false 4 5) 0).RowHere (cmd (.vrd p0 .f64 false 4 5)) .write (own 0) 256 ∧
      s.man.stopped = false ∧ (cmd (.wld p0 .f64 none 4 5)).core = 0 ∧ s.quiet (loomCtx 0) ∧
      s.resumePoint 0x3000000 (cmd (.wswap p0)) = (0, 0) ∧
      (work (.vadd p0 true 4) 31).resumePoint 0x3000000 (cmd (.vadd p0 true 4)) = (0, 31) ∧
      s.rowCount 0 none (geoRows 0x100000000) = 1 ∧ 1 ≤ (s.loom 0).warp.count ∧ (s.loom 0).warp.fmt = .f64 ∧
      ((s.loom 0).vat 0).clashes (modeOf .f64) = false ∧ grpRows (own 0, 0x0001000100000000) = 1 ∧
      grpW0 (own 0, 0x0001000100000000) + grpK (own 0, 0x0001000100000000) = 1 ∧
      bits (leWord ((work (.lloop p0 7 4) 0).rowBytes (cmd (.lloop p0 7 4)) (own 0) 8)) 63 16 = 0 ∧
      (∀ wa ∈ vrdWords (cmd (.vrd p0 .f64 false 4 5)) .f64 1 0, regionOf 0 (BitVec.ofNat 64 wa) ≠ .global) ∧
      ((work (.vrd p0 .f64 false 4 5) 0).vrdRow (cmd (.vrd p0 .f64 false 4 5)) .f64 0 0).length = 256 := by
  have here : ∀ (i : Instr) (k : Nat) (c : LoomCmd) (need : Need) (ea : Word) (n : Nat),
      (((alignedWords ea.toNat n).all fun wa => match ((engineWork i (copyOf 0) k).loomSpot c need ea n wa).1 with
        | .spad m o => (engineWork i (copyOf 0) k).tagsAllow m [o / 8] true (engineWork i (copyOf 0) k).nextId &&
          !(engineWork i (copyOf 0) k).spadPois m (o / 8)
        | _ => false) = true) → (engineWork i (copyOf 0) k).RowHere c need ea n :=
    fun i k c need ea n h => State.rowHere_of rfl h
  and_intros
  all_goals first
    | refine here _ _ _ _ _ _ ?_; decide +kernel
    | unfold State.quiet; decide +kernel
    | decide +kernel

/-- A copy of each kind with its words at hand; a tile that lands, one whose word is poisoned, one without
a descriptor. -/
theorem met_CopiesRun :
    let work := fun (k : Nat) => engineWork (.wswap p0) (copyOf k) 0
    let x : CopyCtx := ⟨0, 0, false, 0, 0, 0⟩
    let near := fun (k : Nat) => ∀ va ∈ copyDsts k (copyOf k).ops, regionOf 0 (BitVec.ofNat 64 va) ≠ .global
    let got := (indexAddrs (copyOf 2).ops).map ((work 2).copyGot x (indexSize (opOf (copyOf 2).ops 3)))
    let e : BitVec 256 := BitVec.ofNat 256 ((own 0).toNat + 0x700 * 2 ^ 128)
    let tile := fun (bad : Bool) (e : Option (BitVec 256)) => engineWork (.wswap p0) (tileWork bad 0xEFFF8 e) 0
    let late := (tile true none).setMyCore { (tile true none).myCore with prefetch := [] }
    late.scrHead 0 24 = some (0x18001, tileWork true 0xEFFF8 none) ∧ (late.core 0).prefetchOf 0 = none ∧
    (∀ k, k < 2 → (work k).CopyHere x (copyOf k).emptied (copyWords k (copyOf k).ops [])) ∧
      (work 2).CopyHere x (copyOf 2).emptied (copyWords 2 (copyOf 2).ops (got.map fun y => BitVec.ofNat 64 y.2.1)) ∧
      (tile false (some e)).CopyHere ⟨0, 0, true, 0, 24, 0⟩ [] (tileWords e 0xEFFF8) ∧
      (∀ va ∈ indexAddrs (copyOf 2).ops, ∃ k o, (work 2).copySpot x .read va = (.spad k o, work 2) ∧
        (work 2).takes (copyOf 2).emptied k o (indexSize (opOf (copyOf 2).ops 3))) ∧
      (∀ k, k < 3 → (work k).scrHead 0 0 = some (0x18001, copyOf k) ∧ (work k).mayStart 0 = true ∧
        ((work k).startFuture 0).2 = work k ∧ near k) ∧
      (∀ y ∈ got, y.2.2 = false) ∧ indexAddrs (copyOf 2).ops ≠ [] ∧
      gatherBad x (copyOf 2).ops (got.map fun y => BitVec.ofNat 64 y.2.1) = none ∧
      (tile true none).scrHead 0 24 = some (0x18001, tileWork true 0xEFFF8 none) ∧
      (((tile true none).core 0).prefetchOf 0).map (·.2) = some (31, 0) ∧
      tileFault 0xEFFF8 none = some 0x6C02 ∧ tileFault 0xEFFF8 (some e) = none ∧ tileWords e 0xEFFF8 ≠ [] := by
  refine ⟨by decide +kernel, by decide +kernel, fun k hk => ?_, ?_, ?_, ?_, by decide +kernel⟩
  · interval_cases k <;> exact State.copyHere_of rfl rfl (by decide +kernel) (by decide +kernel)
  · exact State.copyHere_of rfl rfl (by decide +kernel) (by decide +kernel)
  · exact State.copyHere_of rfl rfl (by decide +kernel) (by decide +kernel)
  · intro va hv
    have h : (indexAddrs (copyOf 2).ops).all (fun va =>
        match ((engineWork (.wswap p0) (copyOf 2) 0).copySpot ⟨0, 0, false, 0, 0, 0⟩ .read va).1 with
        | .spad k o => (copyOf 2).emptied.contains (k, o / 8) ||
          (engineWork (.wswap p0) (copyOf 2) 0).tagsAllow k [o / 8] true (engineWork (.wswap p0) (copyOf 2) 0).nextId
        | _ => false) = true := by decide +kernel
    have hx := List.all_eq_true.mp h va hv
    split at hx
    · rename_i k o q
      exact ⟨k, o, State.copySpot_spad q, State.takes_of rfl hx⟩
    · exact absurd hx (by decide)

/-- Queue 5 enabled for the physical function, its ring in HBM, with packets of these words from its start. -/
def queued (ws : List Word) : State :=
  let s := rig true []
  let q : HQueue :=
    { base := 0x5000000, en := true, state := 1, tail := BitVec.ofNat 32 (ws.length / 8) }
  let t := (s.setQueue 5 q).setFeed 1023 { s.feed 1023 with en := true, base := 0x6000000 }
  t.putBytes 0x5000000 (ws.flatMap fun w => leBytes 8 w.toNat)

/-- Queue 5 of a state stands at a packet with this opcode and this code, whose turn it is, and `f` of it
holds. -/
def headIs (s : State) (op : Nat) (code : Code) (f : State → Cur → List Word → Bool) : Bool :=
  match s.headPacket 5 with
  | some (c, ws, false, t) => hdrOp ws == op && t.packetCode ws c == code && t.allDone 5 c && f t c ws
  | _ => false

theorem headIs_spec {s : State} {op : Nat} {code : Code} {f : State → Cur → List Word → Bool}
    (h : headIs s op code f = true) : ∃ c ws t, s.headPacket 5 = some (c, ws, false, t) ∧ hdrOp ws = op ∧
      t.packetCode ws c = code ∧ (hdrFence ws = true → t.allDone 5 c = true) ∧ t.allDone 5 c = true ∧
      f t c ws = true := by
  unfold headIs at h
  split at h
  · rename_i c ws t e
    simp only [Bool.and_eq_true, beq_iff_eq] at h
    exact ⟨c, ws, t, e, h.1.1.1, h.1.1.2, fun _ => h.1.2, h.1.2, h.2⟩
  · exact absurd h (by decide)

/-- Queue 5 of a state stands at a packet with this opcode and this code, read with poison or without, from a stack
that works. -/
def standsAt (s : State) (op : Nat) (code : Code) (p : Bool) : Bool :=
  match s.headPacket 5 with
  | some (c, ws, b, t) => b == p && bits (ws.getD 0 0) 7 0 == op && (b || t.packetCode ws c == code) &&
      !s.stackDead (paOffset c.pa)
  | none => false

/-- Packets that stop their queue: reserved bits at both ends, an extension where none may be, opcodes of none, and a
header with poison. -/
theorem met_PacketsStop :
    let at_ := fun (h : Word) => queued [h, 0, 0, 0, 0, 0, 0, 0]
    (([1, 2, 3, 4, 5, 6, 7, 8, 9].all fun op =>
      standsAt (at_ (BitVec.ofNat 64 (op + 0x1000000))) op 0x6401 false &&
        standsAt (at_ (BitVec.ofNat 64 (op + 0x800))) op 0x6401 false &&
        standsAt ((at_ (BitVec.ofNat 64 op)).setGranPois (0x5000000 / 32) true) op 0 true) = true) ∧
      standsAt (at_ 0x10001) 1 0x6401 false = true ∧ standsAt (at_ 0) 0 0x6402 false = true ∧
      standsAt (at_ 0xFF) 255 0x6402 false = true ∧ (at_ 0x1000006).readyFutwait 5 = none := by decide +kernel

/-- One packet of each opcode: a FEED that fills what fits into one packet, semaphores 0 and 4095, both targets
of INTR, the greatest buffer, an unknown opcode with skip; `headIs_spec` says what it shows. -/
theorem met_PacketsComplete :
    let yes := fun (_ : State) (_ : Cur) (_ : List Word) => true
    (queued []).man.stopped = false ∧
      headIs (queued [2, 0, 0x503FF, 1, 2, 3, 4, 5]) 2 0 (fun t _ w => (t.feed (bits (w.getD 2 0) 9 0)).en &&
        decide (((t.feed 1023).ftail - (t.feed 1023).fhead).toNat + 5 ≤ 2 ^ (t.feed 1023).f) && t.disp.copies.isEmpty) = true ∧
      headIs (queued [4, 0, 4095, 0, 0, 0, 0, 0]) 4 0 (fun t c w => t.semHolds (t.jobOf 5 c w)) = true ∧
      headIs (queued [4, 0, 0, 1, 0, 0, 0, 0]) 4 0 (fun t c w => !t.semHolds (t.jobOf 5 c w)) = true ∧
      headIs (queued [5, 0, 0x20FFF, 7, 0, 0, 0, 0]) 5 0 yes = true ∧
      headIs (queued [6, 0, 0x500000104, 0, 0, 0, 0, 0]) 6 0 yes = true ∧
      (queued [6, 0, 0x500000104, 0, 0, 0, 0, 0]).readyFutwait 5 = none ∧
      headIs (queued [7, 0, 0x3F, 0, 0, 0, 0, 0]) 7 0 (fun _ _ w => !(w.getD 2 0).getLsbD 8) = true ∧
      headIs (queued [7, 0, 0x100, 1, 0, 0, 0, 0]) 7 0 (fun _ _ w => (w.getD 2 0).getLsbD 8) = true ∧
      headIs (queued [8, 0, 0x7000000, 4096, 0, 0, 0, 0]) 8 0 yes = true ∧
      headIs (queued [0x209, 0, 0, 0, 0, 0, 0, 0]) 9 0 yes = true ∧
      headIs (queued [0x10A, 0, 0, 0, 0, 0, 0, 0]) 10 0x0406 yes = true ∧
      headIs (queued [1, 0, 0x4000, 255, 0, 0, 0, 0]) 1 0 (fun t _ _ => ((t.epoch 5).queue 5).admits &&
        (t.epoch 5).disp.ready.isEmpty && decide ((t.epoch 5).disp.heap.length < 256)) = true ∧
      headIs (queued [3, 0, 8, 16, 8, 0, 0, 0]) 3 0 yes = true := by decide +kernel

/-- A LAUNCH with its root future, or a COPY, taken from queue 5. -/
def job (op : Word) (fut : Option Word) (ans : Option (Word × Bool)) : Job :=
  { q := 5, era := 0, words := [op, 0, 8, 16, 8, 0, 0, 0], pkt := 0, inner := none, again := false, seq := 5, fut := fut,
    ans := ans }

/-- A cluster whose die is ready, that is not drained and that has a free future is found for any. -/
theorem anyCluster_some (s : State) (c : Nat) (hc : c < 96) (hr : s.dieReady c = true) (hd : s.drainState c = 0)
    (ha : ∃ x t, s.allocate c 0 = (some x, t)) : ∃ x, s.anyCluster = some x := by
  have keep : ∀ (l : List Nat) (b : Nat), ∃ x, l.foldl (fun (b : Option Nat) c => match b with
      | none => some c
      | some x => if s.clusterFree x < s.clusterFree c then some c else b) (some b) = some x := by
    intro l
    induction l with
    | nil => exact fun b => ⟨b, rfl⟩
    | cons a l ih => intro b; simp only [List.foldl_cons]; split <;> exact ih _
  obtain ⟨x, t, ha⟩ := ha
  have hm : c ∈ (List.range 96).filter fun c => s.dieReady c && s.drainState c == 0 && s.hasRoom c := by
    simp [hc, hr, hd, State.hasRoom, ha]
  unfold State.anyCluster
  cases hl : (List.range 96).filter fun c => s.dieReady c && s.drainState c == 0 && s.hasRoom c with
  | nil => rw [hl] at hm; cases hm
  | cons a l => exact keep l a

/-- A packet in the heap, in the launch unit before and after it has been placed, with room and a slot for it, and
in the copy unit; a queue whose ring lies in host memory. -/
theorem met_TakenPacketsComplete :
    let s := queued [1, 0, 0x4000, 255, 0, 0, 0, 0]
    let d := s.disp
    let heap : State := s.setDisp { d with heap := [job 3 none none] }
    let l1 : State := s.setDisp { d with launches := [job 1 none none] }
    let l2 : State := s.setDisp { d with launches := [job 1 none (some (0, true))] }
    let t := tabled [] 2 []
    let l3 : State := t.setDisp { t.disp with launches := [job 1 (some 0x500000104) none] }
    let room : State := l1.setCluster 16 { l1.cluster 16 with futbase := 0x1000000 }
    let cp : State := s.setDisp { d with copies := [job 3 none none] }
    let h := s.setQueue 5 { s.queue 5 with base := 0x400000000000 }
    let least := { job 1 none none with words := [1, 0, 0x4000, 255, 0, 0, 0, 0] }
    let l4 : State := s.setDisp { d with launches := [least] }
    let drained : State := { l1 with man := { l1.man with drainModule := 3 } }
    let training : State := { l1 with man := { l1.man with ready := 0 } }
    let full : State := l1.setCore (l1.freeCore 16) { deque := List.replicate 64 (rootDesc [] 0) }
    let host : Job := { job 3 none none with words := [3, 0, 8, 0x400000000000, 8, 0, 0, 0] }
    let hc : State := s.setDisp { d with copies := [host] }
    (l4.disp.launches.find? (fun j => j.seq == 5 && j.fut.isNone && j.ans.isNone) = some least ∧
      bits (least.words.getD 3 0) 7 0 = 0xFF ∧ l4.anyCluster = none) ∧
      (∃ cl, (l4.setCluster 16 { l4.cluster 16 with futbase := 0x1000000 }).anyCluster = some cl) ∧
      (bits ((job 1 none none).words.getD 3 0) 7 0 ≠ 0xFF ∧ drained.drainState 16 = 3 ∧ training.drainState 16 = 0 ∧
      training.dieReady 16 = false ∧ (full.core (full.freeCore 16)).dequeRoom = false ∧ full.drainState 16 = 0 ∧
      (l1.allocate 16 0).1 = none ∧ (l1.core (l1.freeCore 16)).dequeRoom = true ∧ l1.drainState 16 = 0 ∧
      l1.dieReady 16 = true ∧ h.hostCopy 5 = none ∧ hc.hostCopy 5 = some host ∧
      (hc.setQueue 5 { hc.queue 5 with en := false, state := 0 }).hostPacket 5 = none ∧
      (hc.setQueue 5 { hc.queue 5 with en := false, state := 0 }).hostCopy 5 = some host ∧
      cp.stackDead (paOffset 16) = false ∧ cp.stackDead (paOffset 8) = false) ∧
    (∃ x t, room.allocate 16 0 = (some x, t)) ∧
      (∀ i, i < 1 → (∃ x, cp.placeOf (16 + 8 * i) = .port x) ∧ (∃ x, cp.placeOf (8 + 8 * i) = .port x) ∧
        cp.CleanAt (paOffset (16 + 8 * i)) 8) ∧
      s.man.stopped = false ∧ heap.heapBest = some (job 3 none none) ∧
      l1.disp.launches.find? (fun j => j.seq == 5 && j.fut.isNone && j.ans.isNone) = some (job 1 none none) ∧
      l2.disp.launches.find? (fun j => j.seq == 5 && j.fut.isNone && j.ans.isSome) = some (job 1 none (some (0, true))) ∧
      l3.disp.launches.find? (fun j => j.seq == 5 && j.fut.isSome) = some (job 1 (some 0x500000104) none) ∧
      l3.rootOutcome 0x500000104 = some (77, true) ∧
      room.disp.launches.find? (fun j => j.seq == 5 && j.fut.isNone && j.ans.isNone) = some (job 1 none none) ∧
      bits ((job 1 none none).words.getD 3 0) 7 0 = 16 ∧ room.drainState 16 = 0 ∧ room.dieReady 16 = true ∧
      (room.core (room.freeCore 16)).dequeRoom = true ∧
      cp.disp.copies.find? (fun j => j.seq == 5) = some (job 3 none none) ∧
      ((job 3 none none).words.getD 4 0).toNat / 8 = 1 ∧
      (h.current 5).isSome = true ∧ ((h.current 5).all fun c => inHost (paOffset c.pa)) = true := by
  refine ⟨by decide +kernel, ?any, by decide +kernel, ?_, fun i hi => ?_, by decide +kernel⟩
  case any =>
    refine anyCluster_some _ 16 (by decide) (by decide +kernel) (by decide +kernel) ?_
    obtain ⟨x, f, ps, cs, e⟩ := allocates
      (let s := queued [1, 0, 0x4000, 255, 0, 0, 0, 0]
       let l := s.setDisp { s.disp with
        launches := [{ job 1 none none with words := [1, 0, 0x4000, 255, 0, 0, 0, 0] }] }
       l.setCluster 16 { l.cluster 16 with futbase := 0x1000000 }) 16 0 (by decide +kernel)
    exact ⟨x, _, e⟩
  · obtain ⟨x, f, ps, cs, e⟩ := allocates
      (let s := (queued [1, 0, 0x4000, 255, 0, 0, 0, 0])
       let l := s.setDisp { s.disp with launches := [job 1 none none] }
       l.setCluster 16 { l.cluster 16 with futbase := 0x1000000 }) 16 0 (by decide +kernel)
    exact ⟨x, _, e⟩
  · obtain rfl : i = 0 := by omega
    exact ⟨⟨_, rfl⟩, ⟨_, rfl⟩, ⟨⟨by decide, nofun, fun _ _ => rfl, nofun, nofun⟩, fun _ _ => rfl⟩⟩

/-- A queue that runs, one that is stopped and one that is disabled; a tail at the end of the ring and beyond it;
words 4 and feed words at their bounds. -/
theorem met_QueueWritesComplete :
    let s := queued []
    let stop := s.setQueue 5 { s.queue 5 with state := 2 }
    (Agent.pf.fn = some (s.queue 5).fn) ∧ s.man.stopped = false ∧ (s.queue 5).state = 1 ∧
      bits (16 : Word) 63 32 = 0 ∧ ((16 : BitVec 32) - (s.queue 5).head).toNat = 2 ^ (s.queue 5).s ∧
      2 ^ (s.queue 5).s < ((17 : BitVec 32) - (s.queue 5).head).toNat ∧ (stop.queue 5).state = 2 ∧
      (stop.queue 5).inBuf = false ∧ (stop.queue 5).inds = [] ∧
      ({ s with man := { s.man with lock := true } } : State).badWord4 6 (0xFFFFA00000000000 ||| 0x200000000) = false ∧
      (s.queue 6).en = false ∧ s.badWord4 5 (0xFFFFA00000000000 &&& ~~~0x200000000) = false ∧ (s.queue 5).en = true ∧
      (s.queue 5).inds = [] ∧ s.badFeedWord (0x6000014 ||| 0x8000000000000000) = false ∧ (s.feed 7).en = false ∧
      s.badFeedWord (0x6000004 &&& ~~~0x8000000000000000) = false ∧ (s.feed 1023).en = true ∧
      (s.feed 1023).poppers = [] := by decide +kernel

/-- A packet for module `dst` from module 1, about the bytes at 0x1000, with operands. -/
def mail (op : PktOp) (dst : BitVec 9) (aux : BitVec 7) (args : List Word) : Packet :=
  { op := op, dst := dst, src := 1, sclus := 0, hop := 1, path := 0, tag := 3, oflag := false, mark := false, aux := aux,
    line := 0x20, bytes := (List.range 8).map fun i => (i, BitVec.ofNat 8 i), poison := 0, args := args }

/-- Each operation on a line of a port that serves, at its ends and with nothing in its way; a release of a
reservation. -/
theorem met_FabricRequestsComplete :
    let s := rig true []
    let p := mail .write 0 0 []
    let sch := mail .sch 0 0 [0, 0, 0, 0, 2]
    let held : Resv := ⟨s.ownPa (paOffset p.pa) / 128, p.party, 0, 0, none, some 0, true⟩
    let lrw : Req := { request (.port 0) .lrw none none with
      core := p.party, pa := p.pa, pkt := some (mail .lrw 0 0 []) }
    let q : State := { s with reqs := [lrw] }
    let x : State := { s with resv := [held] }
    (sch.arg 4 = 2 ∧ s.queuedLrw sch = none ∧ q.queuedLrw sch = some lrw ∧
      q.queuedLrw (mail .sch 0 0 [0, 0, 0, 0, 1]) = some lrw ∧ s.queuedLrw (mail .sch 0 0 [0, 0, 0, 0, 1]) = none) ∧
      x.SoundAt (paOffset p.pa) 8 ∧ x.resv = [held] ∧ held.core = (mail .sch 0 0 []).party ∧
      held.slot = ((mail .sch 0 0 []).arg 2).toNat ∧ held.inst = ((mail .sch 0 0 []).arg 3).toNat ∧
      held.line = x.ownPa (paOffset (mail .sch 0 0 []).pa) / 128 ∧ (mail .sch 0 0 []).arg 4 ≠ 2 ∧
    s.CleanAt (paOffset p.pa) 8 ∧ s.SoundAt (paOffset p.pa) 128 ∧
      s.man.stopped = false ∧ p.dst = s.modNo ∧ s.placeOf p.pa = .port (homePort (paOffset p.pa)) ∧
      s.stackTraining (paOffset p.pa) = false ∧ s.stackDead (paOffset p.pa) = false ∧ inHbm (paOffset p.pa) = true ∧
      p.poison = 0 ∧ p.off < 128 ∧ p.bytes.length = 8 ∧ s.resv = [] ∧ s.reqs = [] ∧ p.arg 0 ≠ 1 ∧
      p.bytes.map (·.1) = (List.range p.bytes.length).map (p.off + ·) ∧
      amoOpOf ((mail .amo 0 1 []).aux.toNat / 2 % 16) = some .add ∧
      redOpOf ((mail .red 0 1 []).aux.toNat / 2 % 16) = some .add ∧
      (mail .sch 0 0 []).arg 4 ≠ 1 ∧ (mail .sch 0 0 [0, 0, 0, 0, 1]).arg 4 = 1 ∧
      ((mail .futReq 0 0 [0, 0, 0, 0, 13]).arg 4).toNat < 14 ∧ 14 ≤ ((mail .futReq 0 0 [0, 0, 0, 0, 14]).arg 4).toNat :=
  ⟨by decide +kernel, ⟨by decide, nofun, fun _ _ => rfl, nofun, nofun⟩, rfl, rfl, by decide +kernel, by decide +kernel, rfl,
    by decide +kernel,
    ⟨⟨by decide, nofun, fun _ _ => rfl, nofun, nofun⟩, fun _ _ => rfl⟩,
    ⟨by decide, nofun, fun _ _ => rfl, nofun, nofun⟩, by decide +kernel⟩

/-- What waits for a delivery, a reply, an acknowledgement or an error; a strand that has waited 1,024 cycles. -/
theorem met_FabricRepliesComplete :
    let s := rig true []
    let k := tableEmpty []
    let sent : Option (Nat × Nat × Nat) := some (0, 3, 0)
    let r := request (.remote 1) .load none sent
    let w := request (.remote 1) (.write .bytes []) none sent
    let st := stored (.remote 1) sent
    let i : Instr := .st p0 .n64 1 4 0
    let f : Flight := ⟨i, none, 4, 0, .allowance 1, 0, 0, 0, [], 0, 0⟩
    let u := tableEmpty []
    let late : State := { u.setMe { u.me with priv := false, st := .waiting, flight := some f } with now := 1024 }
    let two : State := { storing { st with id := 8, sent := some (0, 4, 0) } 0 with reqs := [w] }
    let home : Word := 0x2000000 + 384 * 65535
    let del := fun (tok obj kind : Word) => mail .futDel 0 0 [0, 0, 0, 0, tok, 2, 5, obj, kind]
    let wait := fun (kind : Byte) => (k.putBytes (home.toNat + 294) [kind]).putBytes (home.toNat + 344) (leBytes 8 0x77)
    let slot : Word := 0x400000000000
    let x : SlotWait := { kind := 1, obj := 5, core := 0, slot := 0, inst := 0, d := 1, q := none, len := 4,
                          pops := false, token := slot, after := 0 }
    let y : State := { s with slotWaits := [x] }
    let e : Req := { r with slot := errandSlot }
    (∀ n : Byte, ∃ ps, (wait n).meetTail home = { wait n with ports := ps }) ∧
      ((wait 1).waitsOn (bits home 55 0) 1 0x77 = true ∧ (wait 2).waitsOn (bits home 55 0) 2 0x77 = true ∧
        (wait 1).waitsOn (bits home 55 0) 2 0x77 = false ∧
        (wait 1).parkOf (bits ((del home 0x77 1).arg 4) 55 0) = some (0, 65535) ∧
        (wait 1).parkingSoon 0 65535 = false ∧ (del home 0x77 2).arg 8 = 2 ∧ (del home 0x77 1).arg 8 = 1) ∧
      (y.meetTail slot = y ∧ ∃ v, y.deliverSlot 0 0 slot 2 5 = some v) ∧
      ((asked e 0).reqOf (mail .readReply 0 0 []) = some e ∧ e.slot = errandSlot ∧ e.pkt = none ∧
        r.slot ≠ errandSlot ∧ w.slot ≠ errandSlot ∧ errorCode (mail .error 0 0 [0, 0x4809, 0]) = 0x4809 ∧
        errorCode (mail .error 0 0 [0, 0, 0]) ≠ 0x4809 ∧ (mail .error 0 0 [0, 0x4809, 0]).args.drop 3 = []) ∧
    (two.reqOf (mail .ack 0 0 [4]) = some w ∧ two.reqNamed (mail .ack 0 0 [4]) 4 = none ∧
      two.storesOf (mail .ack 0 0 [4]) 4 = [(0, { st with id := 8, sent := some (0, 4, 0) })] ∧
      (asked w 0).reqOf (mail .ack 0 0 []) = some w ∧ (storing st 0).reqOf (mail .error 0 0 []) = none ∧
      (storing st 0).storesOf (mail .error 0 0 []) 3 = [(0, st)] ∧ (mail .error 0 0 [0, 0, 0]).args.drop 3 = [] ∧
      (mail .futDel 0 0 []).dst = s.modNo ∧ s.man.stopped = false) ∧
    (∃ n t, late.takePark 0 = some (n, t)) ∧
      paOffset (bits home 55 0) < 2 ^ 46 ∧ 2 ^ 46 ≤ paOffset (bits slot 55 0) ∧
      paOffset (bits slot 55 0) < 2 ^ 46 + 2 ^ 45 ∧
      (asked r 0).reqOf (mail .readReply 0 0 []) = some r ∧ (asked r 0).reqOf (mail .ack 0 0 []) = some r ∧
      r.op.isWrite = false ∧ w.op.isWrite = true ∧ (asked w 0).reqOf (mail .error 0 0 []) = some w ∧
      (storing st 0).reqOf (mail .ack 0 0 []) = none ∧
      (storing st 0).storesOf (mail .ack 0 0 []) 3 = (0, st) :: [] ∧ (mail .ack 0 0 []).args = [] ∧
      late.lateAllowance 0 0 = some (f, 1) :=
  ⟨fun _ => State.meetTail_calm ⟨rfl, rfl, rfl⟩ _, by decide +kernel, ⟨rfl, _, rfl⟩, by decide +kernel, by decide +kernel,
    State.takePark_some _ 0 (by decide +kernel) (by decide +kernel), by decide +kernel⟩

/-- A packet at the last hop, one that has a path and one that has none; the last link up and down. -/
theorem met_LinksAndForwardingComplete :
    let s := rig true []
    let up := s.setLink 35 { s.link 35 with state := 2 }
    let r := { up with routes := [(2, 0xC64)] }
    let p := mail .read 2 0 []
    let both := (up.setLink 0 { s.link 0 with state := 2 })
    both.linkUp 0 = true ∧ both.linkUp 35 = true ∧ (∀ j, j < 35 → up.linkUp j = false) ∧
    s.man.stopped = false ∧ p.dst ≠ s.modNo ∧ s.forwardPath p = none ∧ p.hop < 5 ∧
      5 ≤ ({ p with hop := 5 } : Packet).hop ∧ s.fabricOut = [] ∧ up.linkUp 35 = true ∧ s.linkUp 35 = false ∧
      s.feature 1 = true ∧ s.man.running = true ∧ r.forwardPath p = some 0 ∧ r.fabricOut = [] := by
  decide +kernel

/-- A path that is not valid, ranges both ways, pool words of none, a drain word, the features of R410, every die,
a hole of the device window, a semaphore, reads inside a BAR and outside; a strand to halt and one halted. -/
theorem met_RegisterAndDebugWritesComplete :
    let s := rig false []
    let h := (s.setStrand 0 0 { s.strand 0 0 with st := .halted }).setCore 0
      { s.core 0 with dbg := 0x100000000, strands := [(0, { s.strand 0 0 with st := .halted })] }
    s.man.stopped = false ∧ 511 ≠ s.modNo.toNat ∧ (∀ p, p < 4 → badPath 0 p = false) ∧ badRange 0 0 = false ∧
      s.badPool 2 0 = false ∧ s.badPool 3 0 = false ∧ s.badDrain 0x100 0 = false ∧
      ({ s with man := { s.man with lock := false } } : State).man.lock = false ∧ (0x7F &&& ~~~0x7F : Word) = 0 ∧
      s.man.running = true ∧ bits (0xF : Word) 63 4 = 0 ∧ s.man.start.getLsbD 3 = false ∧ (0xF : Word).getLsbD 3 = true ∧ 2303 / 576 = 3 ∧
      (devObj 0x3FFF01000000 = .census 0) ∧ devObj 0x3FFF00000000 = .hole ∧ devObj (0x3FFF00308000 - 8) = .sem 4095 ∧
      barReaches .pf 0x3FFF01000000 = true ∧ barReaches .pf 0x3FFF00000000 = true ∧
      barReach .pf 0xFFFFFFFF = some 0x3FFFFFFFFFFF ∧ barReach (.vf 1) 0x800000 = none ∧
      Agent.sup ≠ .pf ∧ s.canStop 0 0 = true ∧ (s.strand 0 0).st = .ready ∧ (s.strand 0 0).flight = none ∧
      (∀ j, j < 32 → (s.core 0).dbg.getLsbD (32 + j) = false) ∧ (h.strand 0 0).st = .halted ∧
      (h.core 0).dbg.getLsbD (32 + 0) = true ∧ (∀ j, j < 32 → j ≠ 0 → (h.core 0).dbg.getLsbD (32 + j) = false) := by
  decide +kernel

/-- A module that has not been powered on, one that waits for firmware and one that runs; whether an image verifies
and how versions compare is free (log 14), so one of each pair of clauses applies. -/
theorem met_ModuleEventsComplete :
    let s := rig true []
    let off : State := { s with man := { s.man with running := false } }
    let wait : State := { s with man := { s.man with running := false, mgmtOnly := true } }
    s.man.stopped = false ∧ off.man.running = false ∧ off.man.mgmtOnly = false ∧
      (imageGood off.man.image = true ∨ imageGood off.man.image = false) ∧ wait.man.mgmtOnly = true ∧
      (Config.minVersion ≤ Config.imageVersion [] ∨ Config.imageVersion [] < Config.minVersion) ∧
      s.mayReady 0 = true ∧ s.mayReady 13 = true ∧ s.mayReady 20 = true ∧ s.man.ready.getLsbD 20 = true ∧
      s.man.throttled = false ∧ ({ s with man := { s.man with throttled := true } } : State).man.throttled = true :=
  ⟨rfl, rfl, rfl, by cases imageGood _ <;> simp, rfl, (Nat.lt_or_ge _ _).symm, by decide +kernel, by decide +kernel,
    by decide +kernel, by decide +kernel, rfl, rfl⟩

/-- A history of two entries of one time, an entry of a later one, and strands at both levels. -/
theorem met_FaultsAreRecordedAndGraded :
    let s := rig true []
    let u := rig false []
    let l : List FaultRec := [⟨5, 0x4A02, 0, 0⟩, ⟨5, 0x2105, 0, 0⟩]
    l ≠ [] ∧ l.Pairwise (fun x y => y.time < x.time ∨ (x.time = y.time ∧ y.code ≤ x.code)) ∧
      (∀ x ∈ l, x.time ≤ 6) ∧ ((s.strand 0 0).priv = true → (s.strand 0 0).estat.getLsbD 7 = true) ∧
      ((u.strand 0 0).priv = true → (u.strand 0 0).estat.getLsbD 7 = true) := by decide +kernel

/-- Every encodable operation is some instruction's, and a word of each length decodes. -/
theorem met_DecodingInvertsEncoding :
    Instr.wf (.addi p0 6 4 (-3)) = true ∧ encode (.addi p0 6 4 (-3)) = some (.w 0xFF486005) ∧
      encode (.addC16 0 4 5) = some (.h 0x08A4) := by decide

theorem met_DecodedWordsAreEncodings :
    fld 0xFF486005 1 6 ≠ 63 ∧ decode32 0xFF486005 = .ok (.addi p0 6 4 (-3)) ∧
      (0xFF486005 : BitVec 32).getLsbD 0 = true ∧ decode16 0x08A4 = .ok (.addC16 0 4 5) ∧
      (0x08A4 : BitVec 16).getLsbD 0 = false := by decide

/-- A state with a byte in memory, whose step gives a next state. -/
theorem met_StepKeepsMemoryForm :
    let s := State.reset.withFetchWord 32 0xFF486005
    s.Inv ∧ ∃ t, step s = .next t := by
  refine ⟨by unfold State.Inv; decide +kernel, _, rfl⟩

/-- The outcome is a next state of which `f` holds. -/
def nextIs (o : Out) (f : State → Bool) : Bool :=
  match o with
  | .next t => f t
  | _ => false

theorem nextIs_spec {o : Out} {f : State → Bool} (h : nextIs o f = true) : ∃ t, o = .next t ∧ f t = true := by
  unfold nextIs at h
  split at h
  · exact ⟨_, rfl, h⟩
  · exact absurd h (by decide)

/-- A module with a word and no other work: one strand may issue. Its fetch finds the bytes in memory. -/
theorem met_StepRunsDecoded :
    let s := State.reset.withFetchWord 32 0xFF486005
    let x := s.stir.atSlot 0 0
    let l : Leaf := ⟨0x10000, 3, false, true, true, true, true⟩
    s.man.stopped = false ∧ s.stir.forced.isNone = true ∧ s.stir.issues = [(0, 0)] ∧ s.stir.events.isEmpty = true ∧
      s.inbox = [] ∧ s.hostReads = [] ∧ s.stir.does (fun s => s.issueSlot 0 0) = true ∧
      x.me.flight = none ∧ x.me.failed = none ∧ x.me.err = none ∧
      (match x.fetchUnit (s.stir.strand 0 0).pc [] none 5 with
        | .ok bs t => decide (decodeBytes bs = .ok ⟨none, .addi p0 6 4 (-3), 4⟩) && !(t.strand 0 0).unissued
        | _ => false) = true ∧
      regionClass 0x1FFFE = 0 ∧ rootEn x.myCore.xroot = true ∧ x.translation (granuleOf 0x1FFFE) = some (.leaf l) ∧
      l.permits .fetch x.me.priv = true ∧ l.paOf 0x1FFFE % 2 = 0 ∧ x.paFault (l.paOf 0x1FFFE) = false ∧
      x.placeOf (l.paOf 0x1FFFE) = .port (homePort 0x1FFFE) ∧ x.groups = [] ∧
      SMap.get x.myCore.icache [] (l.paOf 0x1FFFE / 128) = [] := by
  decide +kernel

/-- Port mode with another core downstream, and without. -/
theorem met_ResultsReadBack :
    ported.me.pmode = true ∧ ported.issue.core ≠ downstream ported.issue.core ∧
      (named (.add p0 1 30 4)).1.contains 30 = true ∧ (rig true []).me.pmode = false := by decide +kernel

/-- A guard that fails, user level, and no feature accepted. -/
theorem met_GuardsLevelsAndFeatures :
    let s := rig false []
    let n : State := { s with man := { s.man with accept := 0 } }
    let low := n.setMe { n.me with priv := true, estat := 0 }
    let ok := n.setMe { n.me with priv := true, estat := 0x80 }
    (Instr.add ⟨0, true⟩ 1 2 3).guardOf = some ⟨0, true⟩ ∧ (Instr.srdp p0 1 1).supervisor = true ∧
      (Instr.swrp p0 3 3).supervisor = true ∧ featureOk s (.srdp p0 1 1) = true ∧
      s.issue.mw.any (fun m => m.rm == 5) = false ∧ low.me.priv = true ∧ low.me.estat.getLsbD 7 = false ∧
      featureOk low (.snap p0 1) = false ∧ ok.me.priv = true ∧ ok.me.estat.getLsbD 7 = true ∧
      featureOk ok (.tmov p0 1 2) = true ∧
    s.man.stopped = false ∧ featureOk s (.add p0 1 2 3) = true ∧ s.passes ⟨0, true⟩ = false ∧ s.me.priv = false ∧
      s.issue.mw = none ∧ featureOk s (.eret p0) = true ∧ n.me.priv = false ∧ featureOk n (.snap p0 1) = false ∧
      featureOk n (.xrdF64 p0 1 2) = false := by decide +kernel

/-- Forms that complete, jump and trap. -/
theorem met_ScalarInstructionsChangeTheirDestinationsAlone :
    let s := rig true [(4, 5), (5, 7)]
    let is : List Instr := [.add p0 6 4 5, .cmp p0 .lt 3 4 5, .brl p0 4, .jmp p0 4 0, .fext p0 1 4 2 0, .nopC16 0]
    (is.all fun i => i.targets.isSome && nextIs (exec i s) fun _ => true) = true := by decide +kernel

theorem met_LoadsChangeTheirDestinationsAlone :
    let s := mapped [(4, own 0xFFFF8), (5, 0x10000), (6, own 0xFFFF0)]
    let is : List Instr := [.ld p0 .i8 1 4 0, .ld p0 .n64 1 5 0, .ldp p0 2 6 0, .ldaN32 p0 1 4, .ldN64C16 0 1 4]
    (is.all fun i => nextIs (exec i s) fun _ => true) = true := by decide +kernel

theorem met_StoresChangeTheirBytesAlone :
    let s := mapped [(4, own 0xFFFF8), (5, 0x10000), (6, own 0xFFFF0)]
    let is : List Instr := [.st p0 .n8 1 4 0, .st p0 .n64 1 5 0, .stp p0 2 6 0, .stIndexed p0 .n32 1 4 7]
    (is.all fun i => nextIs (exec i s) fun _ => true) = true := by decide +kernel

theorem met_TileInstructionsChangeTheirTilesAlone :
    let is : List Instr := [.tadd p0 1 2 3, .tmov p0 1 2, .tcvt p0 .i16 1 2, .tiota p0 63, .tredMax p0 1 1]
    (is.all fun i => i.tilesNamed.isSome && nextIs (exec i intTiles) fun _ => true) = true := by decide +kernel

/-! ### Single steps of the specification's worked examples -/

/-- g[r] after an instruction on the rig. -/
def run1 (regs : List (Nat × Word)) (i : Instr) (r : Reg) : Option Word := regAfter (exec i (rig true regs)) r

/-- The worked fragment of spec/02: MOVW.s, MOVW.k, ADD, ADDI. -/
theorem test_movw_s : run1 [] (.movwS 9 1 0xFF00) 9 = some 0xFFFFFFFFFF000000 := by decide +kernel
theorem test_movw_k : run1 [(9, 0xFFFFFFFFFF000000)] (.movwK 9 0 0x0100) 9 = some 0xFFFFFFFFFF000100 := by
  decide +kernel
theorem test_add_compact : run1 [(4, 10), (5, 3)] (.addC16 0 4 5) 4 = some 13 := by decide +kernel
theorem test_addi : run1 [(4, 13)] (.addi p0 6 4 (-3)) 6 = some 10 := by decide +kernel

/-- CMP.lt p3 of 10 and 13. -/
theorem test_cmp_lt : nextIs (exec (.cmp p0 .lt 3 6 4) (rig true [(6, 10), (4, 13)])) (·.p 3) = true := by
  decide +kernel

/-- The rig with a modifier word before the instruction. -/
def qualified (regs : List (Nat × Word)) (m : MW) : State :=
  let s := rig true regs
  { s with issue := { s.issue with mw := some m, len := 8 } }

/-- FADD.f64.rtz of 2.0 and −1.5 is 0.5. -/
theorem test_fadd_rtz : regAfter (exec (.fadd p0 .f64 11 8 10)
    (qualified [(8, 0x4000000000000000), (10, 0x3FF8000000000000)]
      ⟨0, 0, 1, 0, false, false, true, false, false, 0⟩)) 11 = some 0x3FE0000000000000 := by decide +kernel

/-- ST.n64.rel.clus stores 13 at near + 0x110. -/
theorem test_st_rel : nextIs (exec (.st p0 .n64 4 9 2)
    (qualified [(4, 13), (9, 0xFFFFFFFFFF000100)] ⟨2, 2, 0, 0, false, false, false, false, false, 0⟩))
    (fun t => t.word (spadKey 0 0x110) == 13 && t.word (spadKey 0 0x118) == 0) = true := by decide +kernel

/-- TLD with the scope "core" on a shape of i32 takes the operand trap, and goes on with no modifier (R50). -/
theorem test_tld_scope : nextIs (exec (.tld p0 1 4 5)
    { intTiles with issue := { intTiles.issue with
      mw := some ⟨1, 1, 0, 0, false, false, false, false, false, 0⟩, len := 8 } })
    (fun t => t.me.cause == 0x61030002) = true ∧
    nextIs (exec (.tld p0 1 4 5) intTiles) (fun t => t.me.cause == 0) = true := by decide +kernel

/-- EXIT ends the binding: the slot is free (R162). -/
theorem test_exit : nextIs (exec (.exit p0 4) (rig true [])) (fun t => (t.strand 0 0).st == .free) = true := by
  decide +kernel

/-- The store under a guard that fails makes no access. -/
theorem test_guard_fails : nextIs (exec (.st ⟨3, true⟩ .n64 4 9 3)
    ((rig true [(4, 13), (9, 0xFFFFFFFFFF000100)]).setP 3 true))
    (fun t => t.mem == [] && t.me.pc == 4) = true := by decide +kernel

/-- 300.0 to f8e4, stochastic with a draw of 0: 0x79, one draw; to f8e5, to f4, 500.0 clamped (spec/03). -/
theorem test_fcvt_stochastic : nextIs (exec (.fcvt p0 .f8e4 .f32 4 5)
    (qualified [(5, 0x43960000)] ⟨0, 0, 5, 0, false, false, false, false, false, 0⟩))
    (fun t => t.gv 4 == 0x79 && t.me.rctr == 1) = true := by decide +kernel
theorem test_fcvt_formats : run1 [(5, 0x43960000)] (.fcvt p0 .f8e5 .f32 4 5) 4 = some 0x5D ∧
    run1 [(5, 0x43960000)] (.fcvt p0 .f4 .f32 4 5) 4 = some 7 ∧
    run1 [(5, 0x43FA0000)] (.fcvt p0 .f8e4 .f32 4 5) 4 = some 0x7F := by decide +kernel

/-- DIV of −7 by 2 is −3, REM −1, DIVN of 7 by 0 all ones (spec/04). -/
theorem test_div : run1 [(4, -7), (5, 2)] (.div p0 1 4 5) 1 = some (-3) := by decide +kernel
theorem test_rem : run1 [(4, -7), (5, 2)] (.rem p0 1 4 5) 1 = some (-1) := by decide +kernel
theorem test_divn_zero : run1 [(4, 7)] (.divn p0 1 4 5) 1 = some (-1) := by decide +kernel

/-- The layout of the worked example of spec/04. -/
def layouts : State :=
  let s := rig true [(4, 0x01C901230000_4500), (9, 0x46), (20, own 0x40)]
  s.setMyCore { s.myCore with layouts := [(2, 0x0277_00B5_0170_0420_0608_0200)] }

theorem test_layout : nextIs (exec (.layout p0 2 20) ((rig true [(20, own 0x40)]).putBytes (spadKey 0 0x40)
    [0x00, 0x02, 0x08, 0x06, 0x20, 0x04, 0x70, 0x01, 0xB5, 0x00, 0x77, 0x02, 0, 0, 0, 0]))
    (fun t => SMap.get t.myCore.layouts 0 2 == 0x027700B5017004200608_0200) = true := by decide +kernel
theorem test_funpack : nextIs (exec (.funpack p0 8 4 2) layouts) (fun t => t.gv 8 == 0 && t.gv 9 == 0x45 &&
    t.gv 10 == 0x0123 && t.gv 11 == 9 && t.gv 12 == 2 && t.gv 13 == 3) = true := by decide +kernel
theorem test_fins : regAfter (exec (.fins p0 4 9 2 1) layouts) 4 = some 0x01C9012300004600 := by decide +kernel
theorem test_fext : regAfter (exec (.fext p0 14 4 2 5) layouts) 14 = some 3 := by decide +kernel
theorem test_fpack : regAfter (exec (.fpack p0 15 8 2)
    ([(8, 0), (9, 0x46), (10, 0x0123), (11, 9), (12, 2), (13, 3)].foldl (fun (s : State) (x : Reg × Word) =>
      s.setG x.1 x.2 false) layouts)) 15 = some 0x01C9012300004600 := by decide +kernel

/-- SHAPE 1, 4, f32, and the exact row sum of 2^24, 1, 1, −2^24 with its prefixes (spec/05). -/
theorem test_shape : nextIs (exec (.shape p0 9 3 0) (rig true [])) (·.me.shape == 0x00900300) = true := by
  decide +kernel

/-- A tile of 1 × 4 f32 values in t1. -/
def rowTile : State :=
  let s := rig true [(5, own 0x200), (6, 16), (8, 0), (9, own 0x300)]
  let t := s.setMe { s.me with shape := 0x00900300 }
  let x : Tile := { data := 0xCB8000003F8000003F8000004B800000, entry := 0x4000000000900300 }
  t.setMyCore { t.myCore with tiles := [(1, x), (3, x)] }

theorem test_tred_add : nextIs (exec (.tredAdd p0 2 1) rowTile)
    (fun t => (t.tile 2).entry == 0x4000000000900000 && (t.tile 2).data == 0x40000000) = true := by decide +kernel
theorem test_tscan_add : nextIs (exec (.tscanAdd p0 3 1) rowTile)
    (fun t => (t.tile 3).entry == 0x4000000000900300 && (t.tile 3).data == 0x400000004B8000014B8000004B800000) = true := by
  decide +kernel
theorem test_tld : nextIs (exec (.tld p0 1 5 6) (rowTile.putBytes (spadKey 0 0x200) (leBytes 16 0x0102030405060708)))
    (fun t => (t.tile 1).data == 0x0102030405060708) = true := by decide +kernel
theorem test_tst : nextIs (exec (.tst p0 3 9 6) rowTile)
    (fun t => t.word (spadKey 0 0x300) == 0x3F8000004B800000 && t.word (spadKey 0 0x308) == 0xCB8000003F800000) = true := by
  decide +kernel
theorem test_tmovg : regAfter (exec (.tmovgRead p0 7 7 8) ((rowTile).setTile 7
    { data := 0x40000000, entry := 0x4000000000900000 })) 7 = some 0x40000000 := by decide +kernel

/-- The contained store of spec/18: cause 4, code 0x2105, tval 7, sr.estat 0x04. -/
theorem test_containment : nextIs (exec (.st p0 .n64 7 4 0) ((mapped [(4, 0x10000)]).setMe
    { (mapped [(4, 0x10000)]).me with priv := false, pc := 0x4000003000, estat := 0, g := [(4, ⟨0x10000, false⟩), (7, ⟨1, true⟩)] }))
    (fun t => t.me.cause == 0x21050004 && t.me.tval == 7 && t.me.epc == 0x4000003000 && t.me.estat == 4 && t.me.priv &&
      t.me.pc == 0x4000 && t.mem == []) = true := by decide +kernel

/-- Its handler: SRDP, ANDI, SEL, SWRP, and TRAP 3's code. -/
theorem test_srdp : regAfter (exec (.srdp p0 1 1) ((rig true []).setMe { (rig true []).me with cause := 0x21050004 })) 1 =
    some 0x21050004 := by decide +kernel
theorem test_andi : run1 [(1, 0x21050004)] (.andi p0 2 1 31) 2 = some 4 := by decide +kernel
theorem test_sel : run1 [(4, 1), (3, 2)] (.sel p0 3 1 4 3) 3 = some 2 := by decide +kernel
theorem test_swrp : nextIs (exec (.swrp p0 3 3) (withEstat (rig true [(3, 2)]) 0x84)) (·.me.estat == 6) = true := by
  decide +kernel
theorem test_trap_code : nextIs (exec (.trap p0 3) (rig true [])) (·.me.cause == 0x01230011) = true := by decide +kernel
theorem test_eret : nextIs (exec (.eret p0) ((withEstat (rig true []) 0x05).setMe
    { (rig true []).me with estat := 0x05, epc := 0x4000003000 }))
    (fun t => t.me.pc == 0x4000003004 && !t.me.priv) = true := by decide +kernel

/-- A compact store takes its address from g[d] and its data from g[a] (R47). -/
theorem test_st_compact : nextIs (exec (.stN64C16 0 4 5) (rig true [(4, own 0x100), (5, 13)]))
    (fun t => t.word (spadKey 0 0x100) == 13) = true := by decide +kernel

/-- An odd sr.epc returns to an even pc (R18, R38). -/
theorem test_eret_odd : nextIs (exec (.eret p0) ((rig true []).setMe
    { (rig true []).me with estat := 0x04, epc := 0x4003 })) (·.me.pc == 0x4002) = true := by decide +kernel

/-- An AMO with d = 0 adds and writes no register (R265). -/
theorem test_amo_discards : nextIs (exec (.amo p0 false .add 0 4 5) ((rig true [(4, own 0x40), (5, 2)]).putBytes
    (spadKey 0 0x40) [7])) (fun t => t.word (spadKey 0 0x40) == 9 && t.gv 0 == 0) = true := by decide +kernel

/-- MIX64 of 1, up to its last XOR, as printed in spec/14's draw (R78). -/
theorem test_mix64 : run1 [(4, 1)] (.mix64 p0 1 4) 1 = some 0xB1958CB7A0DC13D5 := by decide +kernel

/-- A read of p0 is 1, and a write to it is discarded (R20). -/
theorem test_pset_p0 : nextIs (exec (.pset p0 0 false) (rig true [])) (·.p 0) = true := by decide +kernel

/-- Saturated to n8, 200 + 100 is 255; unsaturated it is 300 (R91). -/
theorem test_add_sat : regAfter (exec (.add p0 1 4 5) (qualified [(4, 200), (5, 100)]
    ⟨0, 0, 0, 0, false, false, false, false, false, 5⟩)) 1 = some 255 := by decide +kernel

/-- A step after a word has been placed runs it: ADDI g6, g4, −3 of 0, and the strand goes on behind it. -/
theorem test_step : nextIs (step (State.reset.withFetchWord 32 0xFF486005))
    (fun t => t.gv 6 == -3 && t.me.pc == 0x10004) = true := by decide +kernel

end Sys2Proof.Tests
end

/-! PROOFS. Fault codes, the order of the fault history, and what a fault event and a trap write there
(R14, R16, R333, R402). -/
section

namespace Sys2Proof.Machine

/-! ### Fault codes (R14, R333) -/

theorem codeGrade_eq (c : Code) : codeGrade c = c.toNat / 2 ^ 13 := by
  have hc : c.toNat < 2 ^ 16 := c.isLt
  simp only [codeGrade, BitVec.extractLsb'_toNat, Nat.shiftRight_eq_div_pow]
  omega

theorem codeClass_eq (c : Code) : codeClass c = c.toNat / 2 ^ 8 % 32 := by
  simp only [codeClass, BitVec.extractLsb'_toNat, Nat.shiftRight_eq_div_pow]

/-- Class 0 stands first in the table of R333, and classes from 15 on stand outside it. -/
theorem codeSubsystem_eq_none_iff (c : Code) :
    codeSubsystem c = none ↔ codeClass c = 0 ∨ 15 ≤ codeClass c := by
  unfold codeSubsystem
  generalize codeClass c = n
  rcases Nat.lt_or_ge n 15 with hn | hn
  · interval_cases n <;> simp
  · simp [hn]

/-! ### Grade summaries (R16) -/

theorem codeGrade_le_gradeSummary {r : FaultRec} {l : List FaultRec} (h : r ∈ l) :
    codeGrade r.code ≤ gradeSummary l := by
  induction l with
  | nil => cases h
  | cons x l ih =>
    rcases List.mem_cons.mp h with rfl | h
    · exact Nat.le_max_left _ _
    · exact (ih h).trans (Nat.le_max_right _ _)

theorem exists_codeGrade_eq_gradeSummary {l : List FaultRec} (h : l ≠ []) :
    ∃ r ∈ l, codeGrade r.code = gradeSummary l := by
  induction l with
  | nil => exact absurd rfl h
  | cons x l ih =>
    rcases Nat.le_total (gradeSummary l) (codeGrade x.code) with hx | hx
    · exact ⟨x, List.mem_cons_self, (Nat.max_eq_left hx).symm⟩
    · rcases eq_or_ne l [] with rfl | hl
      · exact ⟨x, List.mem_cons_self, (Nat.max_eq_left (Nat.zero_le _)).symm⟩
      · obtain ⟨r, hr, e⟩ := ih hl
        exact ⟨r, List.mem_cons_of_mem _ hr, e.trans (Nat.max_eq_right hx).symm⟩

/-! ### The order of the fault history (R16, R402) -/

/-- `x` may stand ahead of `y` in a history read newest first. -/
def FaultRec.Before (x y : FaultRec) : Prop := y.time < x.time ∨ (x.time = y.time ∧ y.code ≤ x.code)

theorem FaultRec.Before.trans {x y z : FaultRec} (hxy : x.Before y) (hyz : y.Before z) : x.Before z := by
  unfold FaultRec.Before at *
  bv_omega

theorem addRecord_cons_ahead {r x : FaultRec} {l : List FaultRec}
    (h : x.time = r.time ∧ r.code < x.code) : addRecord r (x :: l) = x :: addRecord r l := if_pos h

theorem addRecord_cons_behind {r x : FaultRec} {l : List FaultRec}
    (h : ¬ (x.time = r.time ∧ r.code < x.code)) : addRecord r (x :: l) = r :: x :: l := if_neg h

theorem addRecord_perm (r : FaultRec) (l : List FaultRec) : (addRecord r l).Perm (r :: l) := by
  induction l with
  | nil => exact .refl _
  | cons x l ih =>
    by_cases h : x.time = r.time ∧ r.code < x.code
    · rw [addRecord_cons_ahead h]
      exact (ih.cons x).trans (.swap r x l)
    · rw [addRecord_cons_behind h]

/-- Where `addRecord` stops, the new entry may stand ahead of the one it meets. -/
theorem FaultRec.before_of_not_ahead {r x : FaultRec} (ht : x.time ≤ r.time)
    (h : ¬ (x.time = r.time ∧ r.code < x.code)) : r.Before x := by
  unfold FaultRec.Before
  bv_omega

/-- An entry no older than the history keeps its order. -/
theorem addRecord_pairwise {r : FaultRec} {l : List FaultRec} (hl : l.Pairwise FaultRec.Before)
    (ht : ∀ x ∈ l, x.time ≤ r.time) : (addRecord r l).Pairwise FaultRec.Before := by
  induction l with
  | nil => exact List.pairwise_singleton _ _
  | cons x l ih =>
    obtain ⟨hx, hl'⟩ := List.pairwise_cons.mp hl
    obtain ⟨htx, htl⟩ := List.forall_mem_cons.mp ht
    by_cases h : x.time = r.time ∧ r.code < x.code
    · rw [addRecord_cons_ahead h]
      refine List.pairwise_cons.mpr ⟨fun y hy => ?_, ih hl' htl⟩
      rcases List.mem_cons.mp ((addRecord_perm r l).mem_iff.mp hy) with rfl | hy
      · exact .inr ⟨h.1, BitVec.le_of_lt h.2⟩
      · exact hx y hy
    · rw [addRecord_cons_behind h]
      have hrx : r.Before x := FaultRec.before_of_not_ahead htx h
      exact List.pairwise_cons.mpr
        ⟨List.forall_mem_cons.mpr ⟨hrx, fun y hy => hrx.trans (hx y hy)⟩, hl⟩

/-! ### What a trap enters (R402) -/

theorem recorded_eq_false_iff (cause : BitVec 5) :
    recorded cause = false ↔ cause = 17 ∨ cause = 18 ∨ cause = 31 := by
  simp only [recorded, Bool.not_eq_false', Bool.or_eq_true, beq_iff_eq, or_assoc]

/-- A trap that is no double trap enters the history once, but for the causes that R402 leaves out. -/
theorem State.trap_history (s : State) (n k : Nat) (cause : BitVec 5) (code : Code) (v pc : Word)
    (len : Nat) (h : (s.strand n k).priv = true → (s.strand n k).estat.getLsbD 7 = true) :
    (s.trap n k cause code v pc len).man.history =
      if cause = 17 ∨ cause = 18 ∨ cause = 31 then s.man.history
      else (s.record code n v.toNat).man.history := by
  have hone : ((s.strand n k).priv && !(s.strand n k).estat.getLsbD 7) = false := by simpa using h
  rw [State.trap_eq s n k cause code v pc len hone, State.setStrand_man]
  simp only [← recorded_eq_false_iff]
  cases recorded cause <;> rfl

end Sys2Proof.Machine

namespace Sys2Proof.Proofs
open Sys2Proof.Machine

/-- Settles O47: the order of the history is kept because an entry no older than it steps back only past
entries of its own device time with a greater code. -/
theorem faultsAreRecordedAndGraded : Obligations.FaultsAreRecordedAndGraded := by
  unfold Obligations.FaultsAreRecordedAndGraded
  refine ⟨fun c => ⟨codeGrade_eq c, codeClass_eq c, codeSubsystem_eq_none_iff c⟩,
    fun l hl => ⟨exists_codeGrade_eq_gradeSummary hl, fun _ => codeGrade_le_gradeSummary⟩,
    ⟨by decide, by decide, by decide, by decide, fun a b ha hb => ?_⟩,
    fun r l => ⟨addRecord_perm r l, addRecord_pairwise⟩,
    fun s code loc v => ⟨rfl, rfl, State.record_mem s code loc v, State.record_cores s code loc v⟩,
    State.trap_history⟩
  simp only [gradeSummary, ha, hb]
  decide

end Sys2Proof.Proofs
end

section
/-! ## Every step keeps the form of memory (O52)

`State.Inv` speaks of the canonical form of the memories. The state is changed by many operations, but the
memories by four alone (`State.putBytes`, `State.writeHbm`, `State.writeSpad`, `State.loseRecords`), of which
the laws of memory say that they keep the form. So there is one lemma for each operation, in the order of the
model's files: the state it leaves has the form where the state it was given has it. A lemma names the lemmas of
the operations that its own calls, and no other; the meaning of an instruction is one more operation. The step
then follows from `State.Inv.exec` and from the lists of moves. -/

namespace Sys2Proof.Machine

-- one theorem at a time: many at once would hold many threads' stacks
set_option Elab.async false

/-! ### The form in an answer that carries a state -/

/-- The state a result carries has the form. -/
def Res.Inv : Res → Prop
  | .done s | .jump s _ | .trap s _ _ _ | .hold s _ _ | .await s _ _ | .gone s => s.Inv

/-- The state that serving a request leaves has the form. -/
def Served.Inv : Served → Prop
  | .answer _ s | .stay s => s.Inv

/-- The state after rows of a Loom command has the form. -/
def LRes.Inv : LRes → Prop
  | .done s | .stop s _ | .wait _ s _ _ => s.Inv

/-- The state after the fetch of a unit has the form. -/
def UnitFetch.Inv : UnitFetch → Prop
  | .ok _ s | .fault _ _ _ s | .miss _ s => s.Inv

/-- The state after a Scrivener's copy has the form. -/
def CopyRes.Inv : CopyRes → Prop
  | .done _ s | .fault _ _ _ s | .wait s => s.Inv

/-- The state after the fetch of a halfword has the form. -/
def HalfFetch.Inv : HalfFetch → Prop
  | .ok _ _ _ s | .fault _ _ s | .miss _ s => s.Inv

/-- The state after the read of a row, where one comes with it, has the form. -/
def RowRead.Inv : RowRead → Prop
  | .ok _ s | .fault _ _ s => s.Inv
  | _ => True

/-- The state after a copy's reads has the form. -/
def CopyRead.Inv : CopyRead → Prop
  | .ok _ s | .wait s | .fault _ _ s => s.Inv

/-- The state of a step that goes on has the form. -/
def Out.Inv : Out → Prop
  | .next s => s.Inv
  | _ => True

/-! ### Passes over lists, and what leaves the memories alone -/

theorem foldl_inv {α : Type} {f : State → α → State} {l : List α} {s : State} (h : s.Inv)
    (hf : ∀ s x, s.Inv → (f s x).Inv) : (l.foldl f s).Inv := foldl_keeps State.Inv f hf l s h

theorem foldl_inv_fst {α β : Type} {f : State × β → α → State × β} {l : List α} {x : State × β}
    (h : x.1.Inv) (hf : ∀ x a, x.1.Inv → (f x a).1.Inv) : (l.foldl f x).1.Inv := by
  induction l generalizing x with
  | nil => exact h
  | cons a r ih => exact ih (hf x a h)

theorem foldl_inv_snd {α β : Type} {f : β × State → α → β × State} {l : List α} {x : β × State}
    (h : x.2.Inv) (hf : ∀ x a, x.2.Inv → (f x a).2.Inv) : (l.foldl f x).2.Inv := by
  induction l generalizing x with
  | nil => exact h
  | cons a r ih => exact ih (hf x a h)

variable {s : State}

theorem State.Inv.getD (hs : s.Inv) {o : Option State} (ho : ∀ t, o = some t → t.Inv) :
    (o.getD s).Inv := by
  cases o with
  | none => exact hs
  | some t => exact ho t rfl

theorem State.Inv.done (hs : s.Inv) : (Res.done s).Inv := hs

theorem State.Inv.withIssue (hs : s.Inv) (i : Issue) : State.Inv { s with issue := i } := hs

theorem State.Inv.withInbox (hs : s.Inv) (l : List Instr) : State.Inv { s with inbox := l } := hs

theorem State.Inv.withNextId (hs : s.Inv) (n : Nat) : State.Inv { s with nextId := n } := hs

/-! ### The shared operations -/

theorem State.Inv.setCore (hs : s.Inv) (n : Nat) (c : Core) :
    (s.setCore n c).Inv := hs

theorem State.Inv.setStrand (hs : s.Inv) (n k : Nat) (t : Strand) :
    (s.setStrand n k t).Inv := hs

theorem State.Inv.setMe (hs : s.Inv) (t : Strand) :
    (s.setMe t).Inv := hs

theorem State.Inv.setMyCore (hs : s.Inv) (c : Core) :
    (s.setMyCore c).Inv := hs

theorem State.Inv.setCluster (hs : s.Inv) (c : Nat) (k : Cluster) :
    (s.setCluster c k).Inv := hs

theorem State.Inv.setPort (hs : s.Inv) (q : Nat) (p : Port) :
    (s.setPort q p).Inv := hs

theorem State.Inv.choose (hs : s.Inv) (n : Nat) :
    (s.choose n).2.Inv := hs

theorem State.Inv.newId (hs : s.Inv) :
    (s.newId).2.Inv := hs

theorem State.Inv.record (hs : s.Inv) (code : Code) (loc v : Nat) :
    (s.record code loc v).Inv := hs

theorem State.Inv.tally (hs : s.Inv) (code : Code) :
    (s.tally code).Inv := hs

theorem State.Inv.count (hs : s.Inv) (core w n : Nat) :
    (s.count core w n).Inv := hs

theorem State.Inv.setG (hs : s.Inv) (d : Reg) (v : Word) (p : Bool) :
    (s.setG d v p).Inv := by
  grind [State.setG, State.Inv.setMe, State.Inv.setCore, State.Inv]

theorem State.Inv.setP (hs : s.Inv) (n : Pred) (b : Bool) :
    (s.setP n b).Inv := hs

theorem State.Inv.illegal (hs : s.Inv) :
    (Res.illegal s).Inv := hs

theorem State.Inv.privilege (hs : s.Inv) :
    (Res.privilege s).Inv := hs

theorem State.Inv.operand (hs : s.Inv) (v : Word) :
    (Res.operand s v).Inv := hs

theorem State.Inv.address (hs : s.Inv) (v : Word) :
    (Res.address s v).Inv := hs

theorem State.Inv.contain (hs : s.Inv) (v : Word) :
    (Res.contain s v).Inv := hs

theorem State.Inv.misalign (hs : s.Inv) (v : Word) :
    (Res.misalign s v).Inv := hs

theorem State.Inv.reserved (hs : s.Inv) (v : Word) :
    (Res.reserved s v).Inv := hs

theorem State.Inv.stale (hs : s.Inv) (v : Word) :
    (Res.stale s v).Inv := hs

theorem State.Inv.exhausted (hs : s.Inv) (code : Code) :
    (Res.exhausted s code).Inv := hs

theorem State.Inv.poisoned (hs : s.Inv) (r : Reg) :
    (Res.poisoned s r).Inv := hs

theorem Res.Inv.keeps (n x : Nat) {a1 : Res} (ha1 : a1.Inv) :
    (Res.keeps n x a1).Inv := by
  unfold Res.keeps
  grind [State.Inv, Res.Inv]

theorem State.Inv.trap (hs : s.Inv) (n k : Nat) (cause : BitVec 5) (code : Code) (v pc : Word) (len
    : Nat) :
    (s.trap n k cause code v pc len).Inv := by
  grind [State.trap, State.Inv.record, State.Inv.setCore, State.Inv.setStrand, State.Inv]

theorem State.Inv.eretReturn (hs : s.Inv) :
    (s.eretReturn).Inv := hs

theorem State.Inv.popPort (hs : s.Inv) :
    (s.popPort).Inv := by
  grind [State.popPort, State.Inv.setMyCore, State.Inv]

theorem State.Inv.retire (hs : s.Inv) (pc : Word) :
    (s.retire pc).Inv := by
  grind [State.retire, State.Inv.popPort, State.Inv.setMe, State.Inv]

theorem Res.Inv.state {a1 : Res} (ha1 : a1.Inv) :
    (Res.state a1).Inv := by
  unfold Res.state
  grind [State.Inv.retire, State.Inv.setMe, State.Inv.trap, State.Inv, Res.Inv]

theorem State.Inv.event (_ : s.Inv) {k : State} (hk : k.Inv) :
    Out.Inv (Machine.event s k) := by
  grind [Machine.event, State.Inv, Out.Inv]

/-! ### What stands around every instruction -/

theorem State.Inv.portGate (hs : s.Inv) (src dst : List Reg) {body : State → Res} (hbody : ∀ t0,
    t0.Inv → (body t0).Inv) :
    (Machine.portGate s src dst body).Inv := by
  grind [Machine.portGate, State.Inv.operand, State.Inv, Res.Inv]

theorem State.Inv.begin (hs : s.Inv) (i : Instr) (g : Guard) {body : State → Res} (hbody : ∀ t0,
    t0.Inv → (body t0).Inv) :
    (Machine.begin i g s body).Inv := by
  grind [Machine.begin, State.Inv.illegal, State.Inv.portGate, State.Inv.privilege, State.Inv,
    Res.Inv]

theorem State.Inv.run (hs : s.Inv) (i : Instr) (g : Guard) {body : State → Res} (hbody : ∀ t0,
    t0.Inv → (body t0).Inv) :
    Out.Inv (Machine.run i g s body) := by
  grind [Machine.run, State.Inv.begin, State.Inv.event, Res.Inv.state, State.Inv, Res.Inv, Out.Inv]

theorem State.Inv.result (hs : s.Inv) (d : Reg) (v : Word) (p : Bool) :
    (s.result d v p).Inv := by
  grind [State.result, State.Inv.setG, State.Inv, Res.Inv]

/-! ### Integer arithmetic, logic, shifts, counts, compares, predicates, selection, moves and control transfers -/

theorem State.Inv.binary (hs : s.Inv) (d a b : Reg) (f : Word → Word → Word) :
    (Machine.binary s d a b f).Inv := by
  grind [Machine.binary, State.Inv.result, State.Inv]

theorem State.Inv.unary (hs : s.Inv) (d a : Reg) (f : Word → Word) :
    (Machine.unary s d a f).Inv := by
  grind [Machine.unary, State.Inv.result, State.Inv]

theorem State.Inv.arith (hs : s.Inv) (d a b : Reg) (f : Int → Int → Int) :
    (Machine.arith s d a b f).Inv := by
  grind [Machine.arith, State.Inv.binary, State.Inv]

theorem State.Inv.arithImm (hs : s.Inv) (d a : Reg) (e : Int) :
    (Machine.arithImm s d a e).Inv := by
  grind [Machine.arithImm, State.Inv.unary, State.Inv]

theorem State.Inv.testInto (hs : s.Inv) (pd : Pred) (srcs : List Reg) (b : Bool) :
    (Machine.testInto s pd srcs b).Inv := by
  grind [Machine.testInto, State.Inv.setP, State.Inv.poisoned, State.Inv, Res.Inv]

theorem State.Inv.jumpTo (hs : s.Inv) (a : Reg) (imm : BitVec 10) {k : Word → Res} (hk : ∀ x0, (k
    x0).Inv) :
    (Machine.jumpTo s a imm k).Inv := by
  grind [Machine.jumpTo, State.Inv.poisoned, State.Inv, Res.Inv]

theorem State.Inv.execAdd (hs : s.Inv) (g : Guard) (d a b : Reg) :
    Out.Inv (Machine.execAdd g d a b s) := by
  grind [Machine.execAdd, State.Inv.arith, State.Inv.run, State.Inv, Out.Inv]

theorem State.Inv.execSub (hs : s.Inv) (g : Guard) (d a b : Reg) :
    Out.Inv (Machine.execSub g d a b s) := by
  grind [Machine.execSub, State.Inv.arith, State.Inv.run, State.Inv, Out.Inv]

theorem State.Inv.execMul (hs : s.Inv) (g : Guard) (d a b : Reg) :
    Out.Inv (Machine.execMul g d a b s) := by
  grind [Machine.execMul, State.Inv.arith, State.Inv.run, State.Inv, Out.Inv]

theorem State.Inv.execMulhi (hs : s.Inv) (g : Guard) (d a b : Reg) :
    Out.Inv (Machine.execMulhi g d a b s) := by
  grind [Machine.execMulhi, State.Inv.binary, State.Inv.run, State.Inv, Out.Inv]

theorem State.Inv.execMulhn (hs : s.Inv) (g : Guard) (d a b : Reg) :
    Out.Inv (Machine.execMulhn g d a b s) := by
  grind [Machine.execMulhn, State.Inv.binary, State.Inv.run, State.Inv, Out.Inv]

theorem State.Inv.execDiv (hs : s.Inv) (g : Guard) (d a b : Reg) :
    Out.Inv (Machine.execDiv g d a b s) := by
  grind [Machine.execDiv, State.Inv.binary, State.Inv.run, State.Inv, Out.Inv]

theorem State.Inv.execDivn (hs : s.Inv) (g : Guard) (d a b : Reg) :
    Out.Inv (Machine.execDivn g d a b s) := by
  grind [Machine.execDivn, State.Inv.binary, State.Inv.run, State.Inv, Out.Inv]

theorem State.Inv.execRem (hs : s.Inv) (g : Guard) (d a b : Reg) :
    Out.Inv (Machine.execRem g d a b s) := by
  grind [Machine.execRem, State.Inv.binary, State.Inv.run, State.Inv, Out.Inv]

theorem State.Inv.execRemn (hs : s.Inv) (g : Guard) (d a b : Reg) :
    Out.Inv (Machine.execRemn g d a b s) := by
  grind [Machine.execRemn, State.Inv.binary, State.Inv.run, State.Inv, Out.Inv]

theorem State.Inv.execMin (hs : s.Inv) (g : Guard) (d a b : Reg) :
    Out.Inv (Machine.execMin g d a b s) := by
  grind [Machine.execMin, State.Inv.binary, State.Inv.run, State.Inv, Out.Inv]

theorem State.Inv.execMax (hs : s.Inv) (g : Guard) (d a b : Reg) :
    Out.Inv (Machine.execMax g d a b s) := by
  grind [Machine.execMax, State.Inv.binary, State.Inv.run, State.Inv, Out.Inv]

theorem State.Inv.execMinn (hs : s.Inv) (g : Guard) (d a b : Reg) :
    Out.Inv (Machine.execMinn g d a b s) := by
  grind [Machine.execMinn, State.Inv.binary, State.Inv.run, State.Inv, Out.Inv]

theorem State.Inv.execMaxn (hs : s.Inv) (g : Guard) (d a b : Reg) :
    Out.Inv (Machine.execMaxn g d a b s) := by
  grind [Machine.execMaxn, State.Inv.binary, State.Inv.run, State.Inv, Out.Inv]

theorem State.Inv.execAddi (hs : s.Inv) (g : Guard) (d a : Reg) (imm : BitVec 10) :
    Out.Inv (Machine.execAddi g d a imm s) := by
  grind [Machine.execAddi, State.Inv.arithImm, State.Inv.run, State.Inv, Out.Inv]

theorem State.Inv.execAnd (hs : s.Inv) (g : Guard) (d a b : Reg) :
    Out.Inv (Machine.execAnd g d a b s) := by
  grind [Machine.execAnd, State.Inv.binary, State.Inv.run, State.Inv, Out.Inv]

theorem State.Inv.execOr (hs : s.Inv) (g : Guard) (d a b : Reg) :
    Out.Inv (Machine.execOr g d a b s) := by
  grind [Machine.execOr, State.Inv.binary, State.Inv.run, State.Inv, Out.Inv]

theorem State.Inv.execXor (hs : s.Inv) (g : Guard) (d a b : Reg) :
    Out.Inv (Machine.execXor g d a b s) := by
  grind [Machine.execXor, State.Inv.binary, State.Inv.run, State.Inv, Out.Inv]

theorem State.Inv.execAndn (hs : s.Inv) (g : Guard) (d a b : Reg) :
    Out.Inv (Machine.execAndn g d a b s) := by
  grind [Machine.execAndn, State.Inv.binary, State.Inv.run, State.Inv, Out.Inv]

theorem State.Inv.execShlRegister (hs : s.Inv) (g : Guard) (d a b : Reg) :
    Out.Inv (Machine.execShlRegister g d a b s) := by
  grind [Machine.execShlRegister, State.Inv.binary, State.Inv.run, State.Inv, Out.Inv]

theorem State.Inv.execShrRegister (hs : s.Inv) (g : Guard) (d a b : Reg) :
    Out.Inv (Machine.execShrRegister g d a b s) := by
  grind [Machine.execShrRegister, State.Inv.binary, State.Inv.run, State.Inv, Out.Inv]

theorem State.Inv.execShaRegister (hs : s.Inv) (g : Guard) (d a b : Reg) :
    Out.Inv (Machine.execShaRegister g d a b s) := by
  grind [Machine.execShaRegister, State.Inv.binary, State.Inv.run, State.Inv, Out.Inv]

theorem State.Inv.execRotRegister (hs : s.Inv) (g : Guard) (d a b : Reg) :
    Out.Inv (Machine.execRotRegister g d a b s) := by
  grind [Machine.execRotRegister, State.Inv.binary, State.Inv.run, State.Inv, Out.Inv]

theorem State.Inv.execMov (hs : s.Inv) (g : Guard) (d a : Reg) :
    Out.Inv (Machine.execMov g d a s) := by
  grind [Machine.execMov, State.Inv.run, State.Inv.unary, State.Inv, Out.Inv]

theorem State.Inv.execClz (hs : s.Inv) (g : Guard) (d a : Reg) :
    Out.Inv (Machine.execClz g d a s) := by
  grind [Machine.execClz, State.Inv.run, State.Inv.unary, State.Inv, Out.Inv]

theorem State.Inv.execCtz (hs : s.Inv) (g : Guard) (d a : Reg) :
    Out.Inv (Machine.execCtz g d a s) := by
  grind [Machine.execCtz, State.Inv.run, State.Inv.unary, State.Inv, Out.Inv]

theorem State.Inv.execPopc (hs : s.Inv) (g : Guard) (d a : Reg) :
    Out.Inv (Machine.execPopc g d a s) := by
  grind [Machine.execPopc, State.Inv.run, State.Inv.unary, State.Inv, Out.Inv]

theorem State.Inv.execBrev (hs : s.Inv) (g : Guard) (d a : Reg) :
    Out.Inv (Machine.execBrev g d a s) := by
  grind [Machine.execBrev, State.Inv.run, State.Inv.unary, State.Inv, Out.Inv]

theorem State.Inv.execBswap (hs : s.Inv) (g : Guard) (d a : Reg) :
    Out.Inv (Machine.execBswap g d a s) := by
  grind [Machine.execBswap, State.Inv.run, State.Inv.unary, State.Inv, Out.Inv]

theorem State.Inv.execMix64 (hs : s.Inv) (g : Guard) (d a : Reg) :
    Out.Inv (Machine.execMix64 g d a s) := by
  grind [Machine.execMix64, State.Inv.run, State.Inv.unary, State.Inv, Out.Inv]

theorem State.Inv.execAndi (hs : s.Inv) (g : Guard) (d a : Reg) (imm : BitVec 10) :
    Out.Inv (Machine.execAndi g d a imm s) := by
  grind [Machine.execAndi, State.Inv.run, State.Inv.unary, State.Inv, Out.Inv]

theorem State.Inv.execOri (hs : s.Inv) (g : Guard) (d a : Reg) (imm : BitVec 10) :
    Out.Inv (Machine.execOri g d a imm s) := by
  grind [Machine.execOri, State.Inv.run, State.Inv.unary, State.Inv, Out.Inv]

theorem State.Inv.execXori (hs : s.Inv) (g : Guard) (d a : Reg) (imm : BitVec 10) :
    Out.Inv (Machine.execXori g d a imm s) := by
  grind [Machine.execXori, State.Inv.run, State.Inv.unary, State.Inv, Out.Inv]

theorem State.Inv.execShlImmediate (hs : s.Inv) (g : Guard) (d a : Reg) (sh : BitVec 6) :
    Out.Inv (Machine.execShlImmediate g d a sh s) := by
  grind [Machine.execShlImmediate, State.Inv.run, State.Inv.unary, State.Inv, Out.Inv]

theorem State.Inv.execShrImmediate (hs : s.Inv) (g : Guard) (d a : Reg) (sh : BitVec 6) :
    Out.Inv (Machine.execShrImmediate g d a sh s) := by
  grind [Machine.execShrImmediate, State.Inv.run, State.Inv.unary, State.Inv, Out.Inv]

theorem State.Inv.execShaImmediate (hs : s.Inv) (g : Guard) (d a : Reg) (sh : BitVec 6) :
    Out.Inv (Machine.execShaImmediate g d a sh s) := by
  grind [Machine.execShaImmediate, State.Inv.run, State.Inv.unary, State.Inv, Out.Inv]

theorem State.Inv.execRotImmediate (hs : s.Inv) (g : Guard) (d a : Reg) (sh : BitVec 6) :
    Out.Inv (Machine.execRotImmediate g d a sh s) := by
  grind [Machine.execRotImmediate, State.Inv.run, State.Inv.unary, State.Inv, Out.Inv]

theorem State.Inv.execCmp (hs : s.Inv) (g : Guard) (cc : Cond) (pd : Pred) (a b : Reg) :
    Out.Inv (Machine.execCmp g cc pd a b s) := by
  grind [Machine.execCmp, State.Inv.run, State.Inv.testInto, State.Inv, Out.Inv]

theorem State.Inv.execCmpi (hs : s.Inv) (g : Guard) (cc : Cond) (pd : Pred) (a : Reg) (imm : BitVec
    7) :
    Out.Inv (Machine.execCmpi g cc pd a imm s) := by
  grind [Machine.execCmpi, State.Inv.run, State.Inv.testInto, State.Inv, Out.Inv]

theorem State.Inv.execPand (hs : s.Inv) (g : Guard) (pd pa pb : Pred) :
    Out.Inv (Machine.execPand g pd pa pb s) := by
  grind [Machine.execPand, State.Inv.setP, State.Inv.run, State.Inv, Res.Inv, Out.Inv]

theorem State.Inv.execPor (hs : s.Inv) (g : Guard) (pd pa pb : Pred) :
    Out.Inv (Machine.execPor g pd pa pb s) := by
  grind [Machine.execPor, State.Inv.setP, State.Inv.run, State.Inv, Res.Inv, Out.Inv]

theorem State.Inv.execPxor (hs : s.Inv) (g : Guard) (pd pa pb : Pred) :
    Out.Inv (Machine.execPxor g pd pa pb s) := by
  grind [Machine.execPxor, State.Inv.setP, State.Inv.run, State.Inv, Res.Inv, Out.Inv]

theorem State.Inv.execPnot (hs : s.Inv) (g : Guard) (pd pa : Pred) :
    Out.Inv (Machine.execPnot g pd pa s) := by
  grind [Machine.execPnot, State.Inv.setP, State.Inv.run, State.Inv, Res.Inv, Out.Inv]

theorem State.Inv.execPmov (hs : s.Inv) (g : Guard) (pd pa : Pred) :
    Out.Inv (Machine.execPmov g pd pa s) := by
  grind [Machine.execPmov, State.Inv.setP, State.Inv.run, State.Inv, Res.Inv, Out.Inv]

theorem State.Inv.execPset (hs : s.Inv) (g : Guard) (pd : Pred) (k : Bool) :
    Out.Inv (Machine.execPset g pd k s) := by
  grind [Machine.execPset, State.Inv.setP, State.Inv.run, State.Inv, Res.Inv, Out.Inv]

theorem State.Inv.execSel (hs : s.Inv) (g : Guard) (d : Reg) (pn : Pred) (a b : Reg) :
    Out.Inv (Machine.execSel g d pn a b s) := by
  grind [Machine.execSel, State.Inv.result, State.Inv.run, State.Inv, Out.Inv]

theorem State.Inv.execLea (hs : s.Inv) (g : Guard) (d a b : Reg) (sh : BitVec 3) :
    Out.Inv (Machine.execLea g d a b sh s) := by
  grind [Machine.execLea, State.Inv.binary, State.Inv.run, State.Inv, Out.Inv]

theorem State.Inv.execMovwZ (hs : s.Inv) (d : Reg) (hw : BitVec 2) (imm : BitVec 16) :
    Out.Inv (Machine.execMovwZ d hw imm s) := by
  grind [Machine.execMovwZ, State.Inv.result, State.Inv.run, State.Inv, Out.Inv]

theorem State.Inv.execMovwK (hs : s.Inv) (d : Reg) (hw : BitVec 2) (imm : BitVec 16) :
    Out.Inv (Machine.execMovwK d hw imm s) := by
  grind [Machine.execMovwK, State.Inv.result, State.Inv.run, State.Inv, Out.Inv]

theorem State.Inv.execMovwS (hs : s.Inv) (d : Reg) (hw : BitVec 2) (imm : BitVec 16) :
    Out.Inv (Machine.execMovwS d hw imm s) := by
  grind [Machine.execMovwS, State.Inv.result, State.Inv.run, State.Inv, Out.Inv]

theorem State.Inv.execAddpc (hs : s.Inv) (d : Reg) (imm : BitVec 20) :
    Out.Inv (Machine.execAddpc d imm s) := by
  grind [Machine.execAddpc, State.Inv.result, State.Inv.run, State.Inv, Out.Inv]

theorem State.Inv.execBr (hs : s.Inv) (g : Guard) (disp : BitVec 20) :
    Out.Inv (Machine.execBr g disp s) := by
  grind [Machine.execBr, State.Inv.run, State.Inv, Res.Inv, Out.Inv]

theorem State.Inv.execBrl (hs : s.Inv) (g : Guard) (disp : BitVec 20) :
    Out.Inv (Machine.execBrl g disp s) := by
  grind [Machine.execBrl, State.Inv.setG, State.Inv.run, State.Inv, Res.Inv, Out.Inv]

theorem State.Inv.execJmp (hs : s.Inv) (g : Guard) (a : Reg) (imm : BitVec 10) :
    Out.Inv (Machine.execJmp g a imm s) := by
  grind [Machine.execJmp, State.Inv.jumpTo, State.Inv.run, State.Inv, Res.Inv, Out.Inv]

theorem State.Inv.execJmpl (hs : s.Inv) (g : Guard) (d a : Reg) (imm : BitVec 10) :
    Out.Inv (Machine.execJmpl g d a imm s) := by
  grind [Machine.execJmpl, State.Inv.jumpTo, State.Inv.setG, State.Inv.run, State.Inv, Res.Inv,
    Out.Inv]

theorem State.Inv.execNop (hs : s.Inv) (g : Guard) :
    Out.Inv (Machine.execNop g s) := by
  grind [Machine.execNop, State.Inv.run, State.Inv, Res.Inv, Out.Inv]

theorem State.Inv.execMovC16 (hs : s.Inv) (n : BitVec 3) (d a : BitVec 4) :
    Out.Inv (Machine.execMovC16 n d a s) := by
  grind [Machine.execMovC16, State.Inv.execMov, State.Inv, Out.Inv]

theorem State.Inv.execAddC16 (hs : s.Inv) (n : BitVec 3) (d a : BitVec 4) :
    Out.Inv (Machine.execAddC16 n d a s) := by
  grind [Machine.execAddC16, State.Inv.execAdd, State.Inv, Out.Inv]

theorem State.Inv.execSubC16 (hs : s.Inv) (n : BitVec 3) (d a : BitVec 4) :
    Out.Inv (Machine.execSubC16 n d a s) := by
  grind [Machine.execSubC16, State.Inv.execSub, State.Inv, Out.Inv]

theorem State.Inv.execAndC16 (hs : s.Inv) (n : BitVec 3) (d a : BitVec 4) :
    Out.Inv (Machine.execAndC16 n d a s) := by
  grind [Machine.execAndC16, State.Inv.execAnd, State.Inv, Out.Inv]

theorem State.Inv.execOrC16 (hs : s.Inv) (n : BitVec 3) (d a : BitVec 4) :
    Out.Inv (Machine.execOrC16 n d a s) := by
  grind [Machine.execOrC16, State.Inv.execOr, State.Inv, Out.Inv]

theorem State.Inv.execXorC16 (hs : s.Inv) (n : BitVec 3) (d a : BitVec 4) :
    Out.Inv (Machine.execXorC16 n d a s) := by
  grind [Machine.execXorC16, State.Inv.execXor, State.Inv, Out.Inv]

theorem State.Inv.execShlC16 (hs : s.Inv) (n : BitVec 3) (d a : BitVec 4) :
    Out.Inv (Machine.execShlC16 n d a s) := by
  grind [Machine.execShlC16, State.Inv.execShlRegister, State.Inv, Out.Inv]

theorem State.Inv.execShrC16 (hs : s.Inv) (n : BitVec 3) (d a : BitVec 4) :
    Out.Inv (Machine.execShrC16 n d a s) := by
  grind [Machine.execShrC16, State.Inv.execShrRegister, State.Inv, Out.Inv]

theorem State.Inv.execAddiC16 (hs : s.Inv) (n : BitVec 3) (d imm : BitVec 4) :
    Out.Inv (Machine.execAddiC16 n d imm s) := by
  grind [Machine.execAddiC16, State.Inv.execAddi, State.Inv, Out.Inv]

theorem State.Inv.execBrC16 (hs : s.Inv) (n : BitVec 3) (disp : BitVec 8) :
    Out.Inv (Machine.execBrC16 n disp s) := by
  grind [Machine.execBrC16, State.Inv.execBr, State.Inv, Out.Inv]

theorem State.Inv.execJmpC16 (hs : s.Inv) (n : BitVec 3) (a : BitVec 4) :
    Out.Inv (Machine.execJmpC16 n a s) := by
  grind [Machine.execJmpC16, State.Inv.execJmp, State.Inv, Out.Inv]

theorem State.Inv.execNopC16 (hs : s.Inv) (n : BitVec 3) :
    Out.Inv (Machine.execNopC16 n s) := by
  grind [Machine.execNopC16, State.Inv.execNop, State.Inv, Out.Inv]

/-! ### The levels of memory -/

theorem State.Inv.setLink (hs : s.Inv) (l : Nat) (x : Link) :
    (s.setLink l x).Inv := hs

theorem State.Inv.setTag (hs : s.Inv) (core w : Nat) (full : Bool) :
    (s.setTag core w full).Inv := hs

theorem State.Inv.setSpadPois (hs : s.Inv) (core w : Nat) (b : Bool) :
    (s.setSpadPois core w b).Inv := hs

theorem State.Inv.freshWord (hs : s.Inv) (core w : Nat) :
    (s.freshWord core w).Inv := hs

theorem State.Inv.checkData (hs : s.Inv) (core w : Nat) :
    (s.checkData core w).Inv := by
  grind [State.checkData, State.Inv.freshWord, State.Inv.setSpadPois, State.Inv.record,
    State.Inv.tally, State.Inv.setCore, State.Inv]

theorem State.Inv.checkTag (hs : s.Inv) (core w : Nat) :
    (s.checkTag core w).Inv := by
  grind [State.checkTag, State.Inv.setSpadPois, State.Inv.setTag, State.Inv.record, State.Inv]

theorem State.Inv.checkWord (hs : s.Inv) (core w : Nat) :
    (s.checkWord core w).Inv := by
  grind [State.checkWord, State.Inv.checkData, State.Inv.checkTag, State.Inv]

theorem State.Inv.checkTags (hs : s.Inv) (core : Nat) (ws : List Nat) :
    (s.checkTags core ws).Inv := by
  grind [State.checkTags, State.Inv.checkTag, foldl_inv, State.Inv]

theorem State.Inv.checkWords (hs : s.Inv) (core : Nat) (ws : List Nat) :
    (s.checkWords core ws).Inv := by
  grind [State.checkWords, State.Inv.checkWord, foldl_inv, State.Inv]

theorem State.Inv.readSpad (hs : s.Inv) (core off n : Nat) :
    (s.readSpad core off n).2.2.Inv := by
  grind [State.readSpad, State.Inv.checkWords, State.Inv]

theorem State.Inv.setGranPois (hs : s.Inv) (g : Nat) (b : Bool) :
    (s.setGranPois g b).Inv := hs

theorem State.Inv.setStack (hs : s.Inv) (k : Nat) (x : Stack) :
    (s.setStack k x).Inv := hs

theorem State.Inv.checkGran (hs : s.Inv) (g : Nat) :
    (s.checkGran g).Inv := by
  grind [State.checkGran, State.Inv.record, State.Inv.tally, State.Inv.setStack,
    State.Inv.setGranPois, State.Inv]

theorem State.Inv.readHbm (hs : s.Inv) (o n : Nat) :
    (s.readHbm o n).2.2.Inv := by
  grind [State.readHbm, State.Inv.checkGran, foldl_inv, State.Inv]

theorem State.Inv.readHost (hs : s.Inv) (o n : Nat) :
    (s.readHost o n).2.2.Inv := by
  grind [State.readHost, State.Inv.record, State.Inv]

theorem State.Inv.writeGrans (hs : s.Inv) (o : Nat) (bs : List Byte) :
    (s.writeGrans o bs).Inv := by
  grind [State.writeGrans, State.Inv.checkGran, State.Inv.setGranPois, State.Inv.putBytes,
    foldl_inv, State.Inv]

theorem State.Inv.emptyBlock (hs : s.Inv) (k : Nat) :
    (s.emptyBlock k).Inv := by
  grind [State.emptyBlock, State.Inv.putBytes, State.Inv]

theorem State.Inv.sectorIn (hs : s.Inv) (a : Answer) :
    (s.sectorIn a).2.Inv := by
  unfold State.sectorIn
  grind [State.Inv]

theorem State.Inv.dropFetched (hs : s.Inv) (core slot : Nat) :
    (s.dropFetched core slot).Inv := hs

theorem State.Inv.landFetch (hs : s.Inv) (core slot : Nat) :
    (s.landFetch core slot).Inv := by
  grind [State.landFetch, State.Inv.setCore, State.Inv.dropFetched, State.Inv.sectorIn, State.Inv]

theorem State.Inv.dropLoomAsks (hs : s.Inv) (k : Nat) :
    (s.dropLoomAsks k).Inv := hs

theorem State.Inv.setScrLast (hs : s.Inv) (cl q : Nat) (code : Code) :
    (s.setScrLast cl q code).Inv := hs

theorem State.Inv.evictLine (hs : s.Inv) (line : Nat) (dirty : Bool) :
    (s.evictLine line dirty).Inv := by
  grind [State.evictLine, foldl_inv, State.Inv]

theorem State.Inv.cacheAccess (hs : s.Inv) (o : Nat) :
    (s.cacheAccess o).Inv := by
  grind [State.cacheAccess, State.Inv.setPort, State.Inv.evictLine, State.Inv]

theorem State.Inv.markDirty (hs : s.Inv) (o : Nat) :
    (s.markDirty o).Inv := by
  grind [State.markDirty, State.Inv.setPort, State.Inv]

theorem State.Inv.cacheLines (hs : s.Inv) (o n : Nat) :
    (s.cacheLines o n).Inv := by
  grind [State.cacheLines, State.Inv.cacheAccess, foldl_inv, State.Inv]

theorem State.Inv.touchLine (hs : s.Inv) (line core slot inst : Nat) :
    (s.touchLine line core slot inst).Inv := hs

theorem State.Inv.engineTouch (hs : s.Inv) (o : Nat) :
    (s.engineTouch o).Inv := hs

/-! ### Memory ports in order of acceptance -/

theorem State.Inv.emit (hs : s.Inv) (p : Packet) :
    (s.emit p).Inv := by
  grind [State.emit, State.Inv.record, State.Inv]

theorem State.Inv.storeError (hs : s.Inv) (core slot inst : Nat) (code : Code) (ea : Word) :
    (s.storeError core slot inst code ea).Inv := hs

theorem State.Inv.redEnd (hs : s.Inv) (x : RedVal) (ok : Bool) :
    (s.redEnd x ok).Inv := by
  grind [State.redEnd, State.Inv.storeError, State.Inv.emit, State.Inv]

theorem State.Inv.applyGroup (hs : s.Inv) (g : Group) :
    (s.applyGroup g).Inv := by
  grind [State.applyGroup, State.Inv.cacheAccess, State.Inv.redEnd, State.Inv.readHbm,
    State.Inv.writeHbm, foldl_inv, State.Inv]

theorem State.Inv.flushLine (hs : s.Inv) (o : Nat) :
    (s.flushLine o).Inv := by
  grind [State.flushLine, State.Inv.applyGroup, foldl_inv, State.Inv]

theorem State.Inv.flushLines (hs : s.Inv) (o n : Nat) :
    (s.flushLines o n).Inv := by
  grind [State.flushLines, State.Inv.flushLine, foldl_inv, State.Inv]

theorem State.Inv.hbmRead (hs : s.Inv) (o n : Nat) :
    (s.hbmRead o n).2.2.Inv := by
  grind [State.hbmRead, State.Inv.cacheLines, State.Inv.flushLines, State.Inv.readHbm, State.Inv]

theorem State.Inv.hbmWrite (hs : s.Inv) (o : Nat) (bs : List Byte) :
    (s.hbmWrite o bs).Inv := by
  grind [State.hbmWrite, State.Inv.cacheLines, State.Inv.flushLines, State.Inv.writeHbm,
    State.Inv.engineTouch, foldl_inv, State.Inv]

theorem State.Inv.meet (hs : s.Inv) (o n : Nat) :
    (s.meet o n).Inv := by
  grind [State.meet, State.Inv.hbmRead, State.Inv]

/-! ### Translation -/

theorem State.Inv.readEntry (hs : s.Inv) (pa : Nat) :
    (s.readEntry pa).2.2.Inv := by
  grind [State.readEntry, State.Inv.hbmRead, State.Inv]

theorem State.Inv.walk (hs : s.Inv) (cl : Nat) (ctx : BitVec 12) (va n level pa : Nat) :
    (s.walk cl ctx va n level pa).2.Inv := by
  induction n generalizing s level pa with
  | zero => exact hs
  | succ n ih => grind [State.walk, State.Inv.setCluster, State.Inv.readEntry, State.Inv.choose,
    State.Inv]

theorem State.Inv.walkRoot (hs : s.Inv) (cl : Nat) (root : Word) (va : Nat) :
    (s.walkRoot cl root va).2.Inv := by
  grind [State.walkRoot, State.Inv.walk, State.Inv]

theorem State.Inv.startWalk (hs : s.Inv) (g : Nat) (waits : Bool) (prefs : List Pref) :
    (s.startWalk g waits prefs).Inv := hs

theorem State.Inv.andThen (hs : s.Inv) (c : Chk) {k : State → Res} (hk : ∀ t0, t0.Inv → (k t0).Inv)
    :
    (Chk.andThen c s k).Inv := by
  unfold Chk.andThen
  grind [State.Inv.startWalk, State.Inv, Res.Inv]

theorem State.Inv.useTlb (hs : s.Inv) (ea : Word) :
    (s.useTlb ea).Inv := by
  grind [State.useTlb, State.Inv.setMyCore, State.Inv]

theorem State.Inv.keepLeaves (hs : s.Inv) (ls : List (Nat × WalkOut)) :
    (s.keepLeaves ls).Inv := hs

theorem Res.Inv.issued (ea : Word) {a1 : Res} (ha1 : a1.Inv) :
    (Res.issued ea a1).Inv := by
  unfold Res.issued
  grind [State.Inv.keepLeaves, State.Inv, Res.Inv]

/-! ### Versioned memory -/

theorem State.Inv.pickFree (hs : s.Inv) (used : List Nat) (total : Nat) {y : Nat} {u : State} (he :
    s.pickFree used total = some (y, u)) :
    u.Inv := by
  grind [State.pickFree, State.Inv.choose, State.Inv]

theorem State.Inv.setVer (hs : s.Inv) (v : Versions) :
    (s.setVer v).Inv := hs

theorem State.Inv.stamp (hs : s.Inv) :
    (s.stamp).2.Inv := hs

theorem State.Inv.holdStamp (hs : s.Inv) (stamp : Word) {u : State} (he : s.holdStamp stamp = some
    u) :
    u.Inv := by
  grind [State.holdStamp, State.Inv.setVer, State.Inv.pickFree, State.Inv]

theorem State.Inv.releaseStamp (hs : s.Inv) (stamp : Word) :
    (s.releaseStamp stamp).Inv := by
  grind [State.releaseStamp, State.Inv.setVer, State.Inv]

theorem State.Inv.setTx (hs : s.Inv) (i : Nat) (t : Tx) :
    (s.setTx i t).Inv := hs

theorem State.Inv.setPool (hs : s.Inv) (i : Nat) (e : Option PoolEntry) :
    (s.setPool i e).Inv := hs

theorem State.Inv.poolImage (hs : s.Inv) (i : Nat) :
    (s.poolImage i).Inv := by
  grind [State.poolImage, State.Inv.hbmWrite, State.Inv]

theorem State.Inv.relink (hs : s.Inv) (line : Nat) :
    (s.relink line).Inv := by
  grind [State.relink, State.Inv.poolImage, foldl_inv, State.Inv]

theorem State.Inv.freeEntry (hs : s.Inv) (i : Nat) :
    (s.freeEntry i).Inv := by
  grind [State.freeEntry, State.Inv.hbmWrite, State.Inv.relink, State.Inv.setPool, State.Inv]

theorem State.Inv.readVersion (hs : s.Inv) (o : Nat) :
    (s.readVersion o).2.2.Inv := by
  grind [State.readVersion, State.Inv.hbmRead, State.Inv]

theorem State.Inv.writeVersion (hs : s.Inv) (o : Nat) (bs : List Byte) (ps : List Bool) :
    (s.writeVersion o bs ps).Inv := by
  grind [State.writeVersion, State.Inv.cacheLines, State.Inv.writeHbm, State.Inv.setGranPois,
    foldl_inv, State.Inv]

theorem State.Inv.copyLine (hs : s.Inv) (src dst : Nat) :
    (s.copyLine src dst).Inv := by
  grind [State.copyLine, State.Inv.writeVersion, State.Inv.readVersion, State.Inv]

theorem State.Inv.swapLines (hs : s.Inv) (x y : Nat) :
    (s.swapLines x y).Inv := by
  grind [State.swapLines, State.Inv.writeVersion, State.Inv.readVersion, State.Inv]

theorem State.Inv.setStamp (hs : s.Inv) (line : Nat) (t : Word) :
    (s.setStamp line t).Inv := hs

theorem State.Inv.settle (hs : s.Inv) (line : Nat) :
    (s.settle line).Inv := by
  grind [State.settle, State.Inv.setStamp, State.Inv.swapLines, State.Inv.relink,
    State.Inv.setPool, State.Inv]

theorem State.Inv.dropTentative (hs : s.Inv) (tx : Nat) :
    (s.dropTentative tx).Inv := by
  grind [State.dropTentative, State.Inv.freeEntry, foldl_inv, State.Inv]

theorem State.Inv.doom (hs : s.Inv) (tx : Nat) (c : Byte) :
    (s.doom tx c).Inv := by
  grind [State.doom, State.Inv.dropTentative, State.Inv.record, State.Inv.setTx, State.Inv]

theorem State.Inv.doomOthers (hs : s.Inv) (line : Nat) (c : Byte) :
    (s.doomOthers line c).Inv := by
  grind [State.doomOthers, State.Inv.doom, foldl_inv, State.Inv]

theorem State.Inv.takeEntry (hs : s.Inv) (line : Nat) (stamp : Word) (tx : Option Nat) {y : Nat} {u
    : State} (he : s.takeEntry line stamp tx = some (y, u)) :
    u.Inv := by
  unfold State.takeEntry at he
  split at he
  · cases he
  · next i t hp =>
    have ht := (hs.pickFree _ _ hp).withNextId (t.nextId + 1)
    cases he
    exact ((ht.copyLine ..).setPool ..).relink _

theorem State.Inv.plainCommit (hs : s.Inv) (line : Nat) {k : State → State} (hk : ∀ t0, t0.Inv → (k
    t0).Inv) {u : State} (he : s.plainCommit line k = some u) :
    u.Inv := by
  grind [State.plainCommit, State.Inv.setStamp, State.Inv.takeEntry, State.Inv.stamp,
    State.Inv.doomOthers, State.Inv.settle, State.Inv.relink, State.Inv]

theorem State.Inv.tentativeStore (hs : s.Inv) (line off : Nat) (bs : List Byte) (tx : Nat) :
    (s.tentativeStore line off bs tx).Inv := by
  grind [State.tentativeStore, State.Inv.hbmWrite, State.Inv.takeEntry, State.Inv.doom,
    State.Inv.settle, State.Inv.setTx, State.Inv]

theorem State.Inv.commitTx (hs : s.Inv) (tx : Nat) :
    (s.commitTx tx).2.Inv := hs

theorem State.Inv.orphanStores (hs : s.Inv) (tx : Nat) :
    (s.orphanStores tx).Inv := hs

theorem State.Inv.freeTx (hs : s.Inv) (tx : Nat) :
    (s.freeTx tx).Inv := by
  grind [State.freeTx, State.Inv.releaseStamp, State.Inv.orphanStores, State.Inv.setTx, State.Inv]

theorem State.Inv.glean (hs : s.Inv) (line : Nat) :
    (s.glean line).Inv := by
  grind [State.glean, State.Inv.freeEntry, foldl_inv, State.Inv]

/-! ### The write buffer -/

theorem State.Inv.setAllow (hs : s.Inv) (cl m : Nat) (a : Allow) :
    (s.setAllow cl m a).Inv := hs

theorem State.Inv.setInFlight (hs : s.Inv) (cl m p n : Nat) :
    (s.setInFlight cl m p n).Inv := hs

theorem State.Inv.sendPacket (hs : s.Inv) (cl m path : Nat) (op : PktOp) (pa : Nat) (bs : List
    Byte) (oflag : Bool) (aux : BitVec 7) (args : List Word) :
    (s.sendPacket cl m path op pa bs oflag aux args).2.Inv := by
  grind [State.sendPacket, State.Inv.emit, State.Inv]

theorem State.Inv.sendStore (hs : s.Inv) (core : Nat) (e : WbEntry) (m path : Nat) :
    (s.sendStore core e m path).Inv := by
  grind [State.sendStore, State.Inv.setInFlight, State.Inv.setAllow, State.Inv.setCore,
    State.Inv.sendPacket, State.Inv]

theorem State.Inv.pump (hs : s.Inv) (core n : Nat) :
    (s.pump core n).Inv := by
  induction n generalizing s with
  | zero => exact hs
  | succ n ih => grind [State.pump, State.Inv.sendStore, State.Inv]

theorem State.Inv.pumpCore (hs : s.Inv) (core : Nat) :
    (s.pumpCore core).Inv := by
  grind [State.pumpCore, State.Inv.pump, State.Inv]

theorem State.Inv.pumpCluster (hs : s.Inv) (cl : Nat) :
    (s.pumpCluster cl).Inv := by
  grind [State.pumpCluster, State.Inv.pumpCore, foldl_inv, State.Inv]

theorem State.Inv.accepted (hs : s.Inv) (core id : Nat) :
    (s.accepted core id).Inv := by
  grind [State.accepted, State.Inv.pumpCore, State.Inv.setCore, State.Inv]

theorem State.Inv.unlessError (hs : s.Inv) {k : State → Res} (hk : ∀ t0, t0.Inv → (k t0).Inv) :
    (Machine.unlessError s k).Inv := by
  grind [Machine.unlessError, State.Inv.setMe, State.Inv, Res.Inv]

theorem State.Inv.draining (hs : s.Inv) (got : List (Nat × Answer)) {k : State → Res} (hk : ∀ t0,
    t0.Inv → (k t0).Inv) :
    (Machine.draining s got k).Inv := by
  grind [Machine.draining, State.Inv.unlessError, State.Inv, Res.Inv]

theorem State.Inv.releasing (hs : s.Inv) (scope : Nat) {k : State → Res} (hk : ∀ t0, t0.Inv → (k
    t0).Inv) :
    (Machine.releasing s scope k).Inv := by
  grind [Machine.releasing, State.Inv.unlessError, State.Inv, Res.Inv]

theorem State.Inv.post (hs : s.Inv) (e : WbEntry) :
    (s.post e).Inv := by
  grind [State.post, State.Inv.pumpCore, State.Inv.setMyCore, State.Inv]

theorem State.Inv.reportError (hs : s.Inv) (e : StoreErr) :
    (s.reportError e).Inv := by
  grind [State.reportError, State.Inv.record, State.Inv.setCore, State.Inv.setStrand, State.Inv]

/-! ### Tasks between bindings -/

theorem State.Inv.ringPut (hs : s.Inv) (ring : Word) (i : Nat) (d : Desc) :
    (s.ringPut ring i d).Inv := by
  grind [State.ringPut, State.Inv.hbmWrite, State.Inv]

theorem State.Inv.ringGet (hs : s.Inv) (core : Nat) (ring : Word) (i : Nat) :
    (s.ringGet core ring i).2.Inv := by
  grind [State.ringGet, State.Inv.record, State.Inv.hbmRead, State.Inv]

theorem State.Inv.pushDeque (hs : s.Inv) (core : Nat) (d : Desc) :
    (s.pushDeque core d).Inv := by
  grind [State.pushDeque, State.Inv.setCore, State.Inv.ringPut, State.Inv]

theorem State.Inv.arrive (hs : s.Inv) (core : Nat) (d : Desc) :
    (s.arrive core d).Inv := by
  grind [State.arrive, State.Inv.setCore, State.Inv.ringPut, State.Inv]

theorem State.Inv.takePark (hs : s.Inv) (core : Nat) {y : Nat} {u : State} (he : s.takePark core =
    some (y, u)) :
    u.Inv := by
  grind [State.takePark, State.Inv.setCluster, State.Inv.pickFree, State.Inv]

theorem State.Inv.givePark (hs : s.Inv) (cl i : Nat) :
    (s.givePark cl i).Inv := hs

theorem State.Inv.vacate (hs : s.Inv) (core slot : Nat) (owner park : Option Nat) :
    (s.vacate core slot owner park).Inv := hs

theorem State.Inv.freeSlot (hs : s.Inv) (core slot : Nat) :
    (s.freeSlot core slot).Inv := by
  grind [State.freeSlot, State.Inv.vacate, State.Inv]

theorem State.Inv.parkSlot (hs : s.Inv) (core slot idx : Nat) :
    (s.parkSlot core slot idx).Inv := by
  grind [State.parkSlot, State.Inv.vacate, State.Inv]

theorem State.Inv.moveOwner (hs : s.Inv) (core idx : Nat) (slot : Option Nat) :
    (s.moveOwner core idx slot).Inv := by
  grind [State.moveOwner, State.Inv.setCore, State.Inv]

theorem State.Inv.place (hs : s.Inv) (core slot : Nat) (t : Strand) :
    (s.place core slot t).Inv := hs

/-! ### The serving places at work -/

theorem State.Inv.answerReq (hs : s.Inv) (r : Req) (a : Answer) :
    (s.answerReq r a).Inv := by
  grind [State.answerReq, State.Inv.emit, State.Inv]

theorem State.Inv.setReq (hs : s.Inv) (r : Req) :
    (s.setReq r).Inv := hs

theorem State.Inv.portRead (hs : s.Inv) (o n : Nat) (ver : Bool) (snap tx : Word) :
    (s.portRead o n ver snap tx).2.2.Inv := by
  grind [State.portRead, State.Inv.cacheLines, State.Inv.readHbm, State.Inv]

theorem State.Inv.grant (hs : s.Inv) (line : Nat) :
    (s.grant line).Inv := by
  unfold State.grant
  grind [State.Inv.flushLine, State.Inv.answerReq, State.Inv.portRead, State.Inv]

theorem State.Inv.releaseLines (hs : s.Inv) (core slot inst : Nat) (which : Nat → Bool) :
    (s.releaseLines core slot inst which).Inv := by
  grind [State.releaseLines, State.Inv.grant, State.Inv.sendPacket, foldl_inv, State.Inv]

theorem State.Inv.releaseResv (hs : s.Inv) (core slot inst : Nat) :
    (s.releaseResv core slot inst).Inv := by
  grind [State.releaseResv, State.Inv.releaseLines, State.Inv]

theorem State.Inv.joinRed (hs : s.Inv) (o : Nat) (op : RedOp) (w : Bool) (x : RedVal) :
    (s.joinRed o op w x).Inv := by
  grind [State.joinRed, State.Inv.flushLine, State.Inv.applyGroup, State.Inv.touchLine, State.Inv]

theorem State.Inv.markPoison (hs : s.Inv) (p : Packet) :
    (s.markPoison p).Inv := by
  grind [State.markPoison, State.Inv.setGranPois, foldl_inv, State.Inv]

theorem State.Inv.writeBytes (hs : s.Inv) (o : Nat) (bs : List Byte) (pkt : Option Packet) :
    (s.writeBytes o bs pkt).Inv := by
  unfold State.writeBytes
  grind [State.Inv.markPoison, State.Inv.writeHbm, foldl_inv, State.Inv]

theorem State.Inv.commitLine (hs : s.Inv) (o : Nat) (ver : Bool) {k : State → State} (hk : ∀ t0,
    t0.Inv → (k t0).Inv) {u : State} (he : s.commitLine o ver k = some u) :
    u.Inv := by
  grind [State.commitLine, State.Inv.plainCommit, State.Inv]

theorem State.Inv.writeLine (hs : s.Inv) (o : Nat) (ver : Bool) (core slot inst : Nat) {k : State →
    State} (hk : ∀ t0, t0.Inv → (k t0).Inv) {u : State} (he : s.writeLine o ver core slot inst k =
    some u) :
    u.Inv := by
  grind [State.writeLine, State.Inv.cacheAccess, State.Inv.commitLine, State.Inv.touchLine,
    State.Inv]

theorem State.Inv.poolWait (hs : s.Inv) (r : Req) :
    (s.poolWait r).Inv := by
  grind [State.poolWait, State.Inv.setReq, State.Inv, Served.Inv]

theorem State.Inv.rmw (hs : s.Inv) (r : Req) (k : Nat → Option Nat) :
    (s.rmw r k).Inv := by
  grind [State.rmw, State.Inv.cacheAccess, State.Inv.commitLine, State.Inv.poolWait,
    State.Inv.readHbm, State.Inv.touchLine, State.Inv.writeHbm, State.Inv, Served.Inv]

theorem State.Inv.serveHbm (hs : s.Inv) (r : Req) : (s.serveHbm r).Inv := by
  unfold State.serveHbm
  extract_lets o s1 s2
  have h2 : s2.Inv := by grind [State.Inv.settle, State.Inv.flushLine]
  clear_value s2
  split
  · exact hs
  · split <;>
    grind [State.Inv.portRead, State.Inv.rmw, State.Inv.releaseResv, State.Inv.setReq,
      State.Inv.grant, State.Inv.touchLine, State.Inv.poolWait, State.Inv.writeLine,
      State.Inv.writeHbm, State.Inv.writeBytes, State.Inv.readHbm, State.Inv.cacheAccess,
      Served.Inv, State.Inv]

theorem State.Inv.serveHost (hs : s.Inv) (r : Req) :
    (s.serveHost r).Inv := by
  grind [State.serveHost, State.Inv.choose, State.Inv.readHost, State.Inv.putBytes, State.Inv,
    Served.Inv]

theorem State.Inv.takeWord (hs : s.Inv) (core off : Nat) :
    (s.takeWord core off).2.Inv := by
  grind [State.takeWord, State.Inv.setTag, State.Inv.readSpad, State.Inv]

theorem State.Inv.fillWord (hs : s.Inv) (core off : Nat) (d : PW) :
    (s.fillWord core off d).Inv := by
  grind [State.fillWord, State.Inv.writeSpad, State.Inv.setTag, State.Inv]

theorem State.Inv.spadRmw (hs : s.Inv) (core off n : Nat) (p : Bool) (k : Nat → Option Nat) :
    (s.spadRmw core off n p k).2.Inv := by
  grind [State.spadRmw, State.Inv.setSpadPois, State.Inv.putBytes, State.Inv.readSpad, State.Inv]

theorem State.Inv.serveSpad (hs : s.Inv) (core : Nat) (r : Req) :
    (s.serveSpad core r).Inv := by
  grind [State.serveSpad, State.Inv.setReq, State.Inv.takeWord, State.Inv.spadRmw,
    State.Inv.fillWord, State.Inv.checkTags, State.Inv.readSpad, State.Inv, Served.Inv]

theorem State.Inv.storeHbm (hs : s.Inv) (core : Nat) (e : WbEntry) :
    (s.storeHbm core e).Inv := by
  grind [State.storeHbm, State.Inv.flushLine, State.Inv.cacheAccess, State.Inv.tentativeStore,
    State.Inv.touchLine, State.Inv.writeHbm, State.Inv.joinRed, State.Inv]

theorem State.Inv.applyStore (hs : s.Inv) (core : Nat) (e : WbEntry) :
    (s.applyStore core e).Inv := by
  grind [State.applyStore, State.Inv.storeHbm, State.Inv.writeSpad, State.Inv.accepted,
    State.Inv.putBytes, State.Inv]

/-! ### How an instruction of a strand reaches memory -/

theorem State.Inv.consume (hs : s.Inv) (rs : List Reg) {k : State → Res} (hk : ∀ t0, t0.Inv → (k
    t0).Inv) :
    (Machine.consume s rs k).Inv := by
  grind [Machine.consume, State.Inv.poisoned, State.Inv, Res.Inv]

theorem State.Inv.releaseIf (hs : s.Inv) (rel : Bool) {k : State → Res} (hk : ∀ t0, t0.Inv → (k
    t0).Inv) :
    (Machine.releaseIf s rel k).Inv := by
  grind [Machine.releaseIf, State.Inv.releasing, State.Inv]

theorem State.Inv.sendReq (hs : s.Inv) (r : Req) :
    (s.sendReq r).Inv := by
  grind [State.sendReq, State.Inv.setInFlight, State.Inv.setReq, State.Inv.setAllow,
    State.Inv.sendPacket, State.Inv]

theorem State.Inv.errand (hs : s.Inv) (cl elem : Nat) (op : ReqOp) (m pa size : Nat) :
    (s.errand cl elem op m pa size).Inv := by
  grind [State.errand, State.Inv.sendReq, State.Inv]

theorem State.Inv.ask (hs : s.Inv) (elem : Nat) (op : ReqOp) (place : Place) (addr pa : Nat) (ea :
    Word) (size : Nat) (ver : Bool) :
    (s.ask elem op place addr pa ea size ver).Inv := by
  grind [State.ask, State.Inv.sendReq, State.Inv]

theorem State.Inv.askOne (hs : s.Inv) (x : Spot) (ea : Word) (op : ReqOp) (size : Nat) :
    (Machine.askOne s x ea op size).Inv := by
  grind [Machine.askOne, State.Inv.ask, State.Inv.useTlb, State.Inv, Res.Inv]

theorem State.Inv.ownTag (hs : s.Inv) (off n : Nat) (full : Bool) {k : State → Res} (hk : ∀ t0,
    t0.Inv → (k t0).Inv) :
    (Machine.ownTag s off n full k).Inv := by
  grind [Machine.ownTag, State.Inv.checkTags, State.Inv, Res.Inv]

theorem State.Inv.readUnit (hs : s.Inv) (ea : Word) (n : Nat) (op : ReqOp) {fin : State → List Byte
    → List Bool → Res} (hfin : ∀ t0 x1 x2, t0.Inv → (fin t0 x1 x2).Inv) :
    (Machine.readUnit s ea n op fin).Inv := by
  grind [Machine.readUnit, State.Inv.ownTag, State.Inv.askOne, State.Inv.address,
    State.Inv.readSpad, State.Inv, Res.Inv]

theorem State.Inv.answered (hs : s.Inv) {fin : State → Answer → Res} (hfin : ∀ t0 x1, t0.Inv → (fin
    t0 x1).Inv) {first : State → Res} (hfirst : ∀ t0, t0.Inv → (first t0).Inv) :
    (Machine.answered s fin first).Inv := by
  grind [Machine.answered, State.Inv, Res.Inv]

theorem State.Inv.loadAt (hs : s.Inv) (srcs : List Reg) (ea : Word) (n : Nat) {fin : State → List
    Byte → List Bool → Res} (hfin : ∀ t0 x1 x2, t0.Inv → (fin t0 x1 x2).Inv) :
    (Machine.loadAt s srcs ea n fin).Inv := by
  grind [Machine.loadAt, Res.Inv.issued, State.Inv.answered, State.Inv.andThen, State.Inv.readUnit,
    State.Inv.consume, State.Inv, Res.Inv]

theorem State.Inv.postStore (hs : s.Inv) (x : Spot) (ea : Word) (op : StoreOp) (bs : List Byte) (ps
    : List Bool) :
    (Machine.postStore s x ea op bs ps).Inv := by
  grind [Machine.postStore, State.Inv.post, State.Inv.useTlb, State.Inv, Res.Inv]

theorem State.Inv.askWrite (hs : s.Inv) (x : Spot) (ea : Word) (op : StoreOp) (bs : List Byte)
    (size : Nat) :
    (Machine.askWrite s x ea op bs size).Inv := by
  grind [Machine.askWrite, State.Inv.ask, State.Inv.useTlb, State.Inv, Res.Inv]

theorem State.Inv.writeUnit (hs : s.Inv) (x : Spot) (ea : Word) (op : StoreOp) (bs : List Byte) (ps
    : List Bool) (size : Nat) :
    (Machine.writeUnit s x ea op bs ps size).Inv := by
  unfold Machine.writeUnit
  grind [State.Inv.askWrite, State.Inv.postStore, State.Inv]

theorem State.Inv.storeAt (hs : s.Inv) (addressed rel : Bool) (srcs : List Reg) (dirty : Option
    Reg) (ea : Word) (bs : List Byte) (ps : List Bool) :
    (Machine.storeAt s addressed rel srcs dirty ea bs ps).Inv := by
  unfold Machine.storeAt
  refine hs.answered (fun t _ ht => ?_) fun t ht => Res.Inv.issued _ (ht.consume _ fun t ht =>
    ht.andThen _ fun t ht => ?_)
  · exact ht
  split
  · exact ht.address _
  · exact ht.releaseIf _ fun t ht => by grind [State.Inv.writeSpad, State.Inv.writeUnit, Res.Inv]
  · refine ht.andThen _ fun t ht => ?_
    split
    · exact ht.poisoned _
    · exact ht.andThen _ fun t ht => ht.releaseIf _ fun t ht => ht.writeUnit ..

theorem State.Inv.atForm (hs : s.Inv) (srcs data : List Reg) (ea : Word) (n : Nat) (need : Need)
    (windows host : Bool) (kind : Kind) (bits : List Nat) {k : State → Spot → Res} (hk : ∀ t0 x1,
    t0.Inv → (k t0 x1).Inv) :
    (atForm s srcs data ea n need windows host kind bits k).Inv := by
  refine Res.Inv.issued _ (hs.consume _ fun t ht => ht.andThen _ fun t ht => ht.andThen _ fun t ht
    => ?_)
  split
  · exact ht.address _
  · exact hk _ _ ht
  · exact ht.andThen _ fun t ht => ht.consume _ fun t ht => ht.andThen _ fun t ht => hk _ _ ht

/-! ### Futures at their table ports -/

theorem State.Inv.writeBack (hs : s.Inv) (cl slot : Nat) (e : FutEntry) :
    (s.writeBack cl slot e).Inv := by
  grind [State.writeBack, State.Inv.hbmWrite, State.Inv]

theorem State.Inv.setFut (hs : s.Inv) (cl slot : Nat) (e : Option FutEntry) :
    (s.setFut cl slot e).Inv := hs

theorem State.Inv.evict (hs : s.Inv) (cl : Nat) :
    (s.evict cl).Inv := by
  grind [State.evict, State.Inv.writeBack, State.Inv.setFut, State.Inv]

theorem State.Inv.lost (hs : s.Inv) (cl slot : Nat) :
    (s.lost cl slot).Inv := hs

theorem State.Inv.fill (hs : s.Inv) (cl slot : Nat) :
    (s.fill cl slot).2.Inv := by
  grind [State.fill, State.Inv.setCluster, State.Inv.hbmRead, State.Inv.evict, State.Inv.lost,
    State.Inv.setFut, State.Inv]

theorem State.Inv.putEntry (hs : s.Inv) (cl slot : Nat) (e : FutEntry) :
    (s.putEntry cl slot e).Inv := hs

theorem State.Inv.flushTable (hs : s.Inv) (cl : Nat) :
    (s.flushTable cl).Inv := by
  grind [State.flushTable, State.Inv.setCluster, State.Inv.writeBack, foldl_inv, State.Inv]

theorem State.Inv.renew (hs : s.Inv) (cl slot : Nat) (e : FutEntry) :
    (s.renew cl slot e).Inv := hs

theorem State.Inv.peek (hs : s.Inv) (h : Word) :
    (s.peek h).2.Inv := by
  grind [State.peek, State.Inv.fill, State.Inv]

theorem State.Inv.find (hs : s.Inv) (h : Word) :
    (s.find h).2.Inv := by
  grind [State.find, State.Inv.renew, State.Inv.peek, State.Inv]

theorem State.Inv.allocSlot (hs : s.Inv) (cl kind n : Nat) :
    (s.allocSlot cl kind n).2.Inv := by
  induction n generalizing s with
  | zero => exact hs
  | succ n ih => grind [State.allocSlot, State.Inv.putEntry, State.Inv.fill, State.Inv.pickFree,
    State.Inv]

theorem State.Inv.allocate (hs : s.Inv) (cl kind : Nat) :
    (s.allocate cl kind).2.Inv := by
  grind [State.allocate, State.Inv.allocSlot, State.Inv]

theorem State.Inv.putImage (hs : s.Inv) (o d : Nat) (v : Word) :
    (s.putImage o d v).Inv := by
  grind [State.putImage, State.Inv.hbmWrite, State.Inv.hbmRead, State.Inv]

theorem State.Inv.putPred (hs : s.Inv) (o n : Nat) (b : Bool) :
    (s.putPred o n b).Inv := by
  grind [State.putPred, State.Inv.hbmWrite, State.Inv.hbmRead, State.Inv]

theorem State.Inv.wake (hs : s.Inv) (cl idx : Nat) :
    (s.wake cl idx).Inv := by
  grind [State.wake, State.Inv.hbmRead, State.Inv.arrive, State.Inv]

theorem State.Inv.deliverRecord (hs : s.Inv) (pa : Nat) (ok : Bool) (v : Word) :
    (s.deliverRecord pa ok v).Inv := by
  grind [State.deliverRecord, State.Inv.putPred, State.Inv.hbmWrite, State.Inv.wake,
    State.Inv.hbmRead, State.Inv.putImage, State.Inv]

theorem State.Inv.message (hs : s.Inv) (cl m : Nat) (op : PktOp) (pa : Nat) (bs : List Byte) (args
    : List Word) :
    (s.message cl m op pa bs args).Inv := by
  grind [State.message, State.Inv.sendPacket, State.Inv]

theorem State.Inv.meetTail (hs : s.Inv) (t : Word) :
    (s.meetTail t).Inv := by
  grind [State.meetTail, State.Inv.meet, State.Inv]

theorem State.Inv.deliverDispatch (hs : s.Inv) (t v : Word) (ok : Bool) :
    (s.deliverDispatch t v ok).Inv := hs

theorem State.Inv.setFarLink (hs : s.Inv) (t next : Word) :
    (s.setFarLink t next).Inv := hs

theorem State.Inv.putLink (hs : s.Inv) (cl : Nat) (t next : Word) :
    (s.putLink cl t next).Inv := by
  grind [State.putLink, State.Inv.hbmWrite, State.Inv.setFarLink, State.Inv.errand, State.Inv]

theorem State.Inv.joinLink (hs : s.Inv) (t : Word) :
    (s.joinLink t).Inv := by
  grind [State.joinLink, State.Inv.setFarLink, State.Inv]

theorem State.Inv.deliverTo (hs : s.Inv) (cl : Nat) (h t : Word) (ok : Bool) (v : Word) :
    (s.deliverTo cl h t ok v).Inv := by
  grind [State.deliverTo, State.Inv.message, State.Inv.deliverRecord, State.Inv.deliverDispatch,
    State.Inv.setFarLink, State.Inv]

theorem State.Inv.answerSlots (hs : s.Inv) (kind : Nat) (obj after : Word) (a : Answer) :
    (s.answerSlots kind obj after a).Inv := by
  grind [State.answerSlots, State.Inv.newId, foldl_inv, State.Inv]

theorem State.Inv.answerLeft (hs : s.Inv) (kind : Nat) (obj : Word) (a : Answer) :
    (s.answerLeft kind obj a).Inv := by
  grind [State.answerLeft, State.Inv.answerSlots, foldl_inv, State.Inv]

theorem State.Inv.deliverChain (hs : s.Inv) (cl : Nat) (w : Word) (ok : Bool) (v : Word) (n : Nat)
    (t : Word) :
    (s.deliverChain cl w ok v n t).Inv := by
  induction n generalizing s t with
  | zero => exact hs
  | succ n ih => grind [State.deliverChain, State.Inv.deliverTo, State.Inv.answerSlots,
    State.Inv.meetTail, State.Inv]

theorem State.Inv.finish (hs : s.Inv) (cl slot : Nat) (e : FutEntry) (st : BitVec 3) (v : Word) :
    (s.finish cl slot e st v).Inv := by
  grind [State.finish, State.Inv.deliverChain, State.Inv.putEntry, State.Inv.answerLeft,
    State.Inv.answerSlots, State.Inv]

theorem State.Inv.farRequest (hs : s.Inv) (cl elem : Nat) (h : Word) (code : Nat) (x : Word) :
    (s.farRequest cl elem h code x).Inv := by
  grind [State.farRequest, State.Inv.errand, State.Inv]

theorem State.Inv.endFuture (hs : s.Inv) (h : Word) (st : BitVec 3) (v : Word) :
    (s.endFuture h st v).Inv := by
  grind [State.endFuture, State.Inv.farRequest, State.Inv.find, State.Inv.finish, State.Inv]

theorem State.Inv.dropRef (hs : s.Inv) (h : Word) :
    (s.dropRef h).Inv := by
  grind [State.dropRef, State.Inv.farRequest, State.Inv.find, State.Inv.putEntry, State.Inv.finish,
    State.Inv]

theorem State.Inv.joinChain (hs : s.Inv) (cl slot : Nat) (e : FutEntry) (t : Word) :
    (s.joinChain cl slot e t).Inv := by
  grind [State.joinChain, State.Inv.putEntry, State.Inv.putLink, State.Inv.joinLink, State.Inv]

theorem State.Inv.moveAfter (hs : s.Inv) (x prev : Word) :
    (s.moveAfter x prev).Inv := hs

theorem State.Inv.unlink (hs : s.Inv) (cl : Nat) (x prev : Word) (n : Nat) (t head tail : Word) {y0
    : Word} {y1 : Word} {u : State} (he : s.unlink cl x prev n t head tail = some (y0, y1, u)) :
    u.Inv := by
  induction n generalizing s prev t head tail with
  | zero => cases he
  | succ n ih =>
    unfold State.unlink at he
    grind [State.Inv.meetTail, State.Inv.moveAfter, State.Inv.setFarLink, State.Inv.putLink]

theorem State.Inv.unchain (hs : s.Inv) (cl slot : Nat) (e : FutEntry) (tok : Word) {u : State} (he
    : s.unchain cl slot e tok = some u) :
    u.Inv := by
  unfold State.unchain at he
  grind [State.Inv.putEntry, State.Inv.unlink, State.Inv, Option.map_eq_some_iff]

theorem State.Inv.touchPort (hs : s.Inv) (h : Word) :
    (s.touchPort h).2.Inv := by
  grind [State.touchPort, State.Inv.find, State.Inv]

theorem State.Inv.endPort (hs : s.Inv) (h task : Word) (st : BitVec 3) (v : Word) :
    (s.endPort h task st v).2.Inv := by
  grind [State.endPort, State.Inv.find, State.Inv.finish, State.Inv]

theorem State.Inv.statPort (hs : s.Inv) (h : Word) :
    (s.statPort h).2.Inv := by
  grind [State.statPort, State.Inv.peek, State.Inv]

theorem State.Inv.holdPort (hs : s.Inv) (h : Word) :
    (s.holdPort h).2.Inv := by
  grind [State.holdPort, State.Inv.find, State.Inv.putEntry, State.Inv]

theorem State.Inv.dropPort (hs : s.Inv) (h : Word) :
    (s.dropPort h).2.Inv := by
  grind [State.dropPort, State.Inv.find, State.Inv.dropRef, State.Inv]

theorem State.Inv.spoilWord (hs : s.Inv) (x : Nat × Nat) :
    (s.spoilWord x).Inv := hs

theorem State.Inv.dropCopy (hs : s.Inv) (h : Word) :
    (s.dropCopy h).Inv := by
  grind [State.dropCopy, State.Inv.spoilWord, foldl_inv, State.Inv]

theorem State.Inv.cancelPort (hs : s.Inv) (h : Word) :
    (s.cancelPort h).2.Inv := by
  grind [State.cancelPort, State.Inv.find, State.Inv.doom, State.Inv.putEntry, State.Inv.finish,
    State.Inv.dropCopy, State.Inv]

theorem State.Inv.startFuture (hs : s.Inv) (h : Word) :
    (s.startFuture h).2.Inv := by
  grind [State.startFuture, State.Inv.find, State.Inv.putEntry, State.Inv]

theorem State.Inv.parkAs (hs : s.Inv) (idx : Nat) (pc : Word) (x : ParkTail) :
    (s.parkAs idx pc x).Inv := by
  grind [State.parkAs, State.Inv.setCluster, State.Inv.hbmWrite, State.Inv.parkSlot,
    State.Inv.releaseResv, State.Inv.count, State.Inv]

theorem State.Inv.parkIndex (hs : s.Inv)  {y : Nat} {u : State} (he : s.parkIndex = some (y, u)) :
    u.Inv := by
  grind [State.parkIndex, State.Inv.takePark, State.Inv]

theorem State.Inv.slotWait (hs : s.Inv) (kind : Nat) (obj : Word) (d : Reg) (q : Option Pred)
    (token after : Word) :
    (s.slotWait kind obj d q token after).Inv := hs

theorem State.Inv.openBarrier (hs : s.Inv) (o : Nat) :
    (s.openBarrier o).Inv := by
  grind [State.openBarrier, State.Inv.hbmRead, State.Inv]

theorem State.Inv.putBarrier (hs : s.Inv) (o : Nat) (b : Barrier) :
    (s.putBarrier o b).Inv := by
  grind [State.putBarrier, State.Inv.hbmWrite, State.Inv]

theorem State.Inv.releaseChain (hs : s.Inv) (va v tail : Word) (ok : Bool) (n : Nat) (t : Word) :
    (s.releaseChain va v tail ok n t).Inv := by
  induction n generalizing s t with
  | zero => exact hs
  | succ n ih => grind [State.releaseChain, State.Inv.deliverRecord, State.Inv.errand,
    State.Inv.meetTail, State.Inv]

theorem State.Inv.afterRelease (hs : s.Inv) (t va v tail : Word) (ok : Bool) (link : Word) :
    (s.afterRelease t va v tail ok link).Inv := by
  grind [State.afterRelease, State.Inv.releaseChain, State.Inv.setFarLink, State.Inv]

theorem State.Inv.endPhase (hs : s.Inv) (o : Nat) (va : Word) (b : Barrier) (last : Nat) :
    (s.endPhase o va b last).Inv := by
  grind [State.endPhase, State.Inv.putBarrier, State.Inv.answerLeft, State.Inv.releaseChain,
    State.Inv]

theorem State.Inv.settleBarrier (hs : s.Inv) (o : Nat) (va : Word) (b : Barrier) :
    (s.settleBarrier o va b).Inv := by
  grind [State.settleBarrier, State.Inv.putBarrier, State.Inv.endPhase, State.Inv]

theorem State.Inv.barrierPort (hs : s.Inv) (o : Nat) (va : Word) (code : Nat) (m : Member) (x :
    Word) :
    (s.barrierPort o va code m x).2.Inv := by
  unfold State.barrierPort
  grind [State.Inv.settleBarrier, State.Inv.endPhase, State.Inv.openBarrier, State.Inv]

theorem State.Inv.joinBarrier (hs : s.Inv) (cl o : Nat) (t : Word) :
    (s.joinBarrier cl o t).Inv := by
  grind [State.joinBarrier, State.Inv.putBarrier, State.Inv.putLink, State.Inv.joinLink, State.Inv]

theorem State.Inv.members? (hs : s.Inv) (task : Word) :
    (s.members? task).2.Inv := by
  grind [State.members?, State.Inv.find, State.Inv]

theorem State.Inv.putMembers (hs : s.Inv) (cl slot : Nat) (ms : List Member) :
    (s.putMembers cl slot ms).Inv := hs

theorem State.Inv.barrierPa (hs : s.Inv) (cl : Nat) (root va : Word) :
    (s.barrierPa cl root va).2.Inv := by
  grind [State.barrierPa, State.Inv.walkRoot, State.Inv]

theorem State.Inv.farBarrier (hs : s.Inv) (cl elem pa code : Nat) (va m x : Word) :
    (s.farBarrier cl elem pa code va m x).Inv := by
  grind [State.farBarrier, State.Inv.errand, State.Inv]

theorem State.Inv.leaveOne (hs : s.Inv) (cl : Nat) (root : Word) (code : Nat) (m : Member) :
    (s.leaveOne cl root code m).2.Inv := by
  grind [State.leaveOne, State.Inv.barrierPort, State.Inv.barrierPa, State.Inv]

theorem State.Inv.killMembers (hs : s.Inv) (cl : Nat) (root : Word) (ms : List Member) :
    (s.killMembers cl root ms).Inv := by
  grind [State.killMembers, State.Inv.leaveOne, State.Inv.farBarrier, foldl_inv, State.Inv]

theorem State.Inv.takeMembers (hs : s.Inv) (task : Word) :
    (s.takeMembers task).2.Inv := by
  grind [State.takeMembers, State.Inv.putMembers, State.Inv.members?, State.Inv]

theorem State.Inv.leaveFuture (hs : s.Inv) (cl elem : Nat) (h tok : Word) :
    (s.leaveFuture cl elem h tok).Inv := by
  unfold State.leaveFuture
  grind [State.Inv.farRequest, State.Inv.find, State.Inv.unchain, State.Inv, State.Inv.getD]

theorem State.Inv.unchainBarrier (hs : s.Inv) (cl o : Nat) (tok : Word) {u : State} (he :
    s.unchainBarrier cl o tok = some u) :
    u.Inv := by
  unfold State.unchainBarrier at he
  grind [State.Inv.putBarrier, State.Inv.unlink, State.Inv.openBarrier, State.Inv,
    Option.map_eq_some_iff]

theorem State.Inv.leaveBarrier (hs : s.Inv) (core elem : Nat) (va tok : Word) :
    (s.leaveBarrier core elem va tok).Inv := by
  unfold State.leaveBarrier
  grind [State.Inv.farBarrier, State.Inv.barrierPa, State.Inv.unchainBarrier, State.Inv,
    State.Inv.getD]

theorem State.Inv.leaveObject (hs : s.Inv) (core elem kind : Nat) (obj tok : Word) :
    (s.leaveObject core elem kind obj tok).Inv := by
  grind [State.leaveObject, State.Inv.leaveBarrier, State.Inv.leaveFuture, State.Inv]

theorem State.Inv.releaseIndex (hs : s.Inv) (core idx : Nat) (got : List (Nat × Answer)) :
    (s.releaseIndex core idx got).Inv := by
  grind [State.releaseIndex, State.Inv.setCluster, State.Inv.givePark, State.Inv.leaveObject,
    State.Inv]

theorem State.Inv.abortTx (hs : s.Inv) (i : Nat) (st : BitVec 3) (fw : Word) :
    (s.abortTx i st fw).Inv := by
  grind [State.abortTx, State.Inv.endFuture, State.Inv.freeTx, State.Inv.dropTentative,
    State.Inv.dropRef, State.Inv]

theorem State.Inv.leaveVersions (hs : s.Inv) (snap tx fw : Word) :
    (s.leaveVersions snap tx fw).Inv := by
  grind [State.leaveVersions, State.Inv.releaseStamp, State.Inv.abortTx, State.Inv]

theorem State.Inv.killTask (hs : s.Inv) (core : Nat) (task snap tx fw : Word) :
    (s.killTask core task snap tx fw).Inv := by
  grind [State.killTask, State.Inv.killMembers, State.Inv.farRequest, State.Inv.endFuture,
    State.Inv.takeMembers, State.Inv.dropRef, State.Inv.leaveVersions, State.Inv]

theorem State.Inv.endErrand (hs : s.Inv) (r : Req) (a : Answer) :
    (s.endErrand r a).Inv := by
  unfold State.endErrand
  grind [State.Inv.killMembers, State.Inv.record, State.Inv.dropRef, State.Inv.afterRelease,
    State.Inv]

theorem State.Inv.finishReq (hs : s.Inv) (r : Req) (a : Answer) :
    (s.finishReq r a).Inv := by
  grind [State.finishReq, State.Inv.answerReq, State.Inv.endErrand, State.Inv]

theorem State.Inv.freeUnseen (hs : s.Inv) (h : Word) :
    (s.freeUnseen h).Inv := by
  grind [State.freeUnseen, State.Inv.find, State.Inv.putEntry, State.Inv]

theorem State.Inv.giveBack (hs : s.Inv) (core : Nat) (got : List (Nat × Answer)) :
    (s.giveBack core got).Inv := by
  grind [State.giveBack, State.Inv.freeUnseen, State.Inv.releaseIndex, foldl_inv, State.Inv]

theorem State.Inv.setFeed (hs : s.Inv) (f : Nat) (q : FeedQ) :
    (s.setFeed f q).Inv := hs

theorem State.Inv.leaveFeed (hs : s.Inv) (cl f : Nat) (x : Word × Nat) :
    (s.leaveFeed cl f x).Inv := by
  grind [State.leaveFeed, State.Inv.setFeed, State.Inv.putLink, State.Inv]

theorem State.Inv.unpop (hs : s.Inv) (core : Nat) (ws : List SlotWait) :
    (s.unpop core ws).Inv := by
  grind [State.unpop, State.Inv.leaveFeed, State.Inv.leaveObject, foldl_inv, State.Inv]

theorem State.Inv.withdraw (hs : s.Inv) (core slot : Nat) :
    (s.withdraw core slot).Inv := by
  grind [State.withdraw, State.Inv.unpop, State.Inv.giveBack, State.Inv.landFetch,
    State.Inv.setCore, State.Inv.releaseResv, State.Inv.setStrand, State.Inv]

theorem State.Inv.killStrand (hs : s.Inv) (core slot : Nat) (fw : Word) :
    (s.killStrand core slot fw).Inv := by
  grind [State.killStrand, State.Inv.withdraw, State.Inv.releaseResv, State.Inv.killTask,
    State.Inv.freeSlot, State.Inv]

/-! ### The field instructions -/

theorem State.Inv.unpackFrom (hs : s.Inv) (d : Reg) (x : Word) (p : Bool) (j : Nat) (l : List
    FieldSpec) :
    (Machine.unpackFrom d x p s j l).Inv := by
  induction l generalizing s j with
  | nil => exact hs
  | cons x r ih => grind [Machine.unpackFrom, State.Inv.setG, State.Inv]

theorem State.Inv.execFext (hs : s.Inv) (g : Guard) (d a : Reg) (lay : BitVec 4) (f : BitVec 3) :
    Out.Inv (Machine.execFext g d a lay f s) := by
  grind [Machine.execFext, State.Inv.run, State.Inv.operand, State.Inv.unary, State.Inv, Res.Inv,
    Out.Inv]

theorem State.Inv.execFins (hs : s.Inv) (g : Guard) (d a : Reg) (lay : BitVec 4) (f : BitVec 3) :
    Out.Inv (Machine.execFins g d a lay f s) := by
  grind [Machine.execFins, State.Inv.result, State.Inv.run, State.Inv.operand, State.Inv, Res.Inv,
    Out.Inv]

theorem State.Inv.execFpack (hs : s.Inv) (g : Guard) (d a : Reg) (lay : BitVec 4) :
    Out.Inv (Machine.execFpack g d a lay s) := by
  grind [Machine.execFpack, State.Inv.result, State.Inv.run, State.Inv.portGate, State.Inv.operand,
    State.Inv, Res.Inv, Out.Inv]

theorem State.Inv.execFunpack (hs : s.Inv) (g : Guard) (d a : Reg) (lay : BitVec 4) :
    Out.Inv (Machine.execFunpack g d a lay s) := by
  grind [Machine.execFunpack, State.Inv.unpackFrom, State.Inv.run, State.Inv.portGate,
    State.Inv.operand, State.Inv, Res.Inv, Out.Inv]

theorem State.Inv.drew (hs : s.Inv) (rm n : Nat) :
    (s.drew rm n).Inv := by
  grind [State.drew, State.Inv.setMe, State.Inv]

theorem State.Inv.floatResult (hs : s.Inv) (f : Fmt) (d : Reg) (v : Val) (p : Bool) :
    (Machine.floatResult s f d v p).Inv := by
  grind [Machine.floatResult, State.Inv.result, State.Inv.drew, State.Inv]

theorem State.Inv.floatBinary (hs : s.Inv) (ft : FloatTy) (d a b : Reg) (op : Nat → Val → Val →
    Val) :
    (Machine.floatBinary s ft d a b op).Inv := by
  grind [Machine.floatBinary, State.Inv.floatResult, State.Inv]

theorem State.Inv.floatPick (hs : s.Inv) (ft : FloatTy) (d a b : Reg) (least : Bool) :
    (Machine.floatPick s ft d a b least).Inv := by
  grind [Machine.floatPick, State.Inv.result, State.Inv]

theorem State.Inv.floatFma (hs : s.Inv) (f : Fmt) (d a b c : Reg) :
    (Machine.floatFma s f d a b c).Inv := by
  grind [Machine.floatFma, State.Inv.floatResult, State.Inv]

theorem State.Inv.execFadd (hs : s.Inv) (g : Guard) (ft : FloatTy) (d a b : Reg) :
    Out.Inv (Machine.execFadd g ft d a b s) := by
  grind [Machine.execFadd, State.Inv.floatBinary, State.Inv.run, State.Inv, Out.Inv]

theorem State.Inv.execFsub (hs : s.Inv) (g : Guard) (ft : FloatTy) (d a b : Reg) :
    Out.Inv (Machine.execFsub g ft d a b s) := by
  grind [Machine.execFsub, State.Inv.floatBinary, State.Inv.run, State.Inv, Out.Inv]

theorem State.Inv.execFmul (hs : s.Inv) (g : Guard) (ft : FloatTy) (d a b : Reg) :
    Out.Inv (Machine.execFmul g ft d a b s) := by
  grind [Machine.execFmul, State.Inv.floatBinary, State.Inv.run, State.Inv, Out.Inv]

theorem State.Inv.execFdiv (hs : s.Inv) (g : Guard) (ft : FloatTy) (d a b : Reg) :
    Out.Inv (Machine.execFdiv g ft d a b s) := by
  grind [Machine.execFdiv, State.Inv.floatBinary, State.Inv.run, State.Inv, Out.Inv]

theorem State.Inv.execFmin (hs : s.Inv) (g : Guard) (ft : FloatTy) (d a b : Reg) :
    Out.Inv (Machine.execFmin g ft d a b s) := by
  grind [Machine.execFmin, State.Inv.run, State.Inv.floatPick, State.Inv, Out.Inv]

theorem State.Inv.execFmax (hs : s.Inv) (g : Guard) (ft : FloatTy) (d a b : Reg) :
    Out.Inv (Machine.execFmax g ft d a b s) := by
  grind [Machine.execFmax, State.Inv.run, State.Inv.floatPick, State.Inv, Out.Inv]

theorem State.Inv.execFsqrt (hs : s.Inv) (g : Guard) (ft : FloatTy) (d a : Reg) :
    Out.Inv (Machine.execFsqrt g ft d a s) := by
  grind [Machine.execFsqrt, State.Inv.floatResult, State.Inv.run, State.Inv, Out.Inv]

theorem State.Inv.execFmaF64 (hs : s.Inv) (g : Guard) (d a b c : Reg) :
    Out.Inv (Machine.execFmaF64 g d a b c s) := by
  grind [Machine.execFmaF64, State.Inv.floatFma, State.Inv.run, State.Inv, Out.Inv]

theorem State.Inv.execFmaF32 (hs : s.Inv) (g : Guard) (d a b c : Reg) :
    Out.Inv (Machine.execFmaF32 g d a b c s) := by
  grind [Machine.execFmaF32, State.Inv.floatFma, State.Inv.run, State.Inv, Out.Inv]

theorem State.Inv.execFcmp (hs : s.Inv) (g : Guard) (cc : FCond) (ft : FloatTy) (pd : Pred) (a b :
    Reg) :
    Out.Inv (Machine.execFcmp g cc ft pd a b s) := by
  grind [Machine.execFcmp, State.Inv.run, State.Inv.testInto, State.Inv, Out.Inv]

theorem State.Inv.execFcvt (hs : s.Inv) (g : Guard) (tgt src : Fmt) (d a : Reg) :
    Out.Inv (Machine.execFcvt g tgt src d a s) := by
  grind [Machine.execFcvt, State.Inv.result, State.Inv.drew, State.Inv.run, State.Inv, Out.Inv]

theorem State.Inv.execFrnd (hs : s.Inv) (g : Guard) (fmt : Fmt) (d a : Reg) :
    Out.Inv (Machine.execFrnd g fmt d a s) := by
  grind [Machine.execFrnd, State.Inv.result, State.Inv.drew, State.Inv.run, State.Inv, Out.Inv]

theorem State.Inv.execFclass (hs : s.Inv) (g : Guard) (fmt : Fmt) (d a : Reg) :
    Out.Inv (Machine.execFclass g fmt d a s) := by
  grind [Machine.execFclass, State.Inv.run, State.Inv.unary, State.Inv, Out.Inv]

/-! ### Loads and stores -/

theorem State.Inv.scalarLoad (hs : s.Inv) (ty : LdTy) (d : Reg) (srcs : List Reg) (ea : Word) :
    (Machine.scalarLoad s ty d srcs ea).Inv := by
  grind [Machine.scalarLoad, State.Inv.loadAt, State.Inv.result, State.Inv]

theorem State.Inv.scalarStore (hs : s.Inv) (addressed rel : Bool) (ty : StTy) (d : Reg) (srcs :
    List Reg) (ea : Word) :
    (Machine.scalarStore s addressed rel ty d srcs ea).Inv := by
  grind [Machine.scalarStore, State.Inv.storeAt, State.Inv]

theorem State.Inv.execLd (hs : s.Inv) (g : Guard) (ty : LdTy) (d a : Reg) (off : BitVec 7) :
    Out.Inv (Machine.execLd g ty d a off s) := by
  grind [Machine.execLd, State.Inv.scalarLoad, State.Inv.run, State.Inv, Out.Inv]

theorem State.Inv.execSt (hs : s.Inv) (g : Guard) (ty : StTy) (d a : Reg) (off : BitVec 7) :
    Out.Inv (Machine.execSt g ty d a off s) := by
  grind [Machine.execSt, State.Inv.scalarStore, State.Inv.run, State.Inv, Out.Inv]

theorem State.Inv.execLdIndexed (hs : s.Inv) (g : Guard) (ty : LdTy) (d a b : Reg) :
    Out.Inv (Machine.execLdIndexed g ty d a b s) := by
  grind [Machine.execLdIndexed, State.Inv.scalarLoad, State.Inv.run, State.Inv, Out.Inv]

theorem State.Inv.execStIndexed (hs : s.Inv) (g : Guard) (ty : StTy) (d a b : Reg) :
    Out.Inv (Machine.execStIndexed g ty d a b s) := by
  grind [Machine.execStIndexed, State.Inv.scalarStore, State.Inv.run, State.Inv, Out.Inv]

theorem State.Inv.execLdp (hs : s.Inv) (g : Guard) (d a : Reg) (off : BitVec 7) :
    Out.Inv (Machine.execLdp g d a off s) := by
  grind [Machine.execLdp, State.Inv.loadAt, State.Inv.setG, State.Inv.run, State.Inv, Res.Inv,
    Out.Inv]

theorem State.Inv.execStp (hs : s.Inv) (g : Guard) (d a : Reg) (off : BitVec 7) :
    Out.Inv (Machine.execStp g d a off s) := by
  grind [Machine.execStp, State.Inv.run, State.Inv.storeAt, State.Inv, Out.Inv]

theorem State.Inv.execLdN64C16 (hs : s.Inv) (n : BitVec 3) (d a : BitVec 4) :
    Out.Inv (Machine.execLdN64C16 n d a s) := by
  grind [Machine.execLdN64C16, State.Inv.scalarLoad, State.Inv.run, State.Inv, Out.Inv]

theorem State.Inv.execStN64C16 (hs : s.Inv) (n : BitVec 3) (d a : BitVec 4) :
    Out.Inv (Machine.execStN64C16 n d a s) := by
  grind [Machine.execStN64C16, State.Inv.scalarStore, State.Inv.run, State.Inv, Out.Inv]

theorem State.Inv.execLdaN32 (hs : s.Inv) (g : Guard) (d a : Reg) :
    Out.Inv (Machine.execLdaN32 g d a s) := by
  grind [Machine.execLdaN32, State.Inv.scalarLoad, State.Inv.run, State.Inv, Out.Inv]

theorem State.Inv.execLdaN64 (hs : s.Inv) (g : Guard) (d a : Reg) :
    Out.Inv (Machine.execLdaN64 g d a s) := by
  grind [Machine.execLdaN64, State.Inv.scalarLoad, State.Inv.run, State.Inv, Out.Inv]

theorem State.Inv.execStrN32 (hs : s.Inv) (g : Guard) (a b : Reg) :
    Out.Inv (Machine.execStrN32 g a b s) := by
  grind [Machine.execStrN32, State.Inv.scalarStore, State.Inv.run, State.Inv, Out.Inv]

theorem State.Inv.execStrN64 (hs : s.Inv) (g : Guard) (a b : Reg) :
    Out.Inv (Machine.execStrN64 g a b s) := by
  grind [Machine.execStrN64, State.Inv.scalarStore, State.Inv.run, State.Inv, Out.Inv]

theorem State.Inv.execLayout (hs : s.Inv) (g : Guard) (lay : BitVec 4) (a : Reg) :
    Out.Inv (Machine.execLayout g lay a s) := by
  grind [Machine.execLayout, State.Inv.setMyCore, State.Inv.loadAt, State.Inv.run,
    State.Inv.poisoned, State.Inv.operand, State.Inv, Res.Inv, Out.Inv]

theorem State.Inv.tagWord (hs : s.Inv) (a : Reg) {k : State → Nat → Nat → Res} (hk : ∀ t0 x1 x2,
    t0.Inv → (k t0 x1 x2).Inv) :
    (Machine.tagWord s a k).Inv := by
  grind [Machine.tagWord, State.Inv.address, State.Inv.reserved, State.Inv.misalign,
    State.Inv.operand, State.Inv.consume, State.Inv, Res.Inv]

theorem State.Inv.execLdw (hs : s.Inv) (g : Guard) (d a : Reg) :
    Out.Inv (Machine.execLdw g d a s) := by
  grind [Machine.execLdw, State.Inv.ownTag, State.Inv.takeWord, State.Inv.answered,
    State.Inv.result, State.Inv.askOne, State.Inv.tagWord, State.Inv.run, State.Inv, Res.Inv,
    Out.Inv]

theorem State.Inv.execStw (hs : s.Inv) (g : Guard) (a b : Reg) :
    Out.Inv (Machine.execStw g a b s) := by
  grind [Machine.execStw, State.Inv.ownTag, State.Inv.releasing, State.Inv.answered,
    State.Inv.fillWord, State.Inv.askOne, State.Inv.tagWord, State.Inv.run, State.Inv, Res.Inv,
    Out.Inv]

theorem State.Inv.oldValue (hs : s.Inv) (amo : Bool) (d : Reg) (v : Word) (p : Bool) :
    (Machine.oldValue s amo d v p).Inv := by
  grind [Machine.oldValue, State.Inv.result, State.Inv, Res.Inv]

theorem State.Inv.atomic (hs : s.Inv) (amo : Bool) (srcs : List Reg) (a b d : Reg) (n : Nat) (host
    : Bool) (bits : List Nat) (op : ReqOp) (new : Nat → Option Nat) :
    (Machine.atomic s amo srcs a b d n host bits op new).Inv := by
  grind [Machine.atomic, State.Inv.atForm, State.Inv.releaseIf, State.Inv.ownTag,
    State.Inv.spadRmw, State.Inv.answered, State.Inv.askOne, State.Inv.oldValue, State.Inv, Res.Inv]

theorem State.Inv.execAmo (hs : s.Inv) (g : Guard) (w : Bool) (op : AmoOp) (d a b : Reg) :
    Out.Inv (Machine.execAmo g w op d a b s) := by
  grind [Machine.execAmo, State.Inv.run, State.Inv.atomic, State.Inv, Out.Inv]

theorem State.Inv.compareSwap (hs : s.Inv) (n : Nat) (d a b : Reg) :
    (Machine.compareSwap s n d a b).Inv := by
  grind [Machine.compareSwap, State.Inv.atomic, State.Inv]

theorem State.Inv.execCasN32 (hs : s.Inv) (g : Guard) (d a b : Reg) :
    Out.Inv (Machine.execCasN32 g d a b s) := by
  grind [Machine.execCasN32, State.Inv.compareSwap, State.Inv.run, State.Inv, Out.Inv]

theorem State.Inv.execCasN64 (hs : s.Inv) (g : Guard) (d a b : Reg) :
    Out.Inv (Machine.execCasN64 g d a b s) := by
  grind [Machine.execCasN64, State.Inv.compareSwap, State.Inv.run, State.Inv, Out.Inv]

theorem State.Inv.execRed (hs : s.Inv) (g : Guard) (w : Bool) (op : RedOp) (a b : Reg) :
    Out.Inv (Machine.execRed g w op a b s) := by
  grind [Machine.execRed, State.Inv.writeUnit, State.Inv.atForm, State.Inv.releaseIf,
    State.Inv.answered, State.Inv.run, State.Inv, Res.Inv, Out.Inv]

theorem State.Inv.execXclr (hs : s.Inv) (g : Guard) (a : Reg) :
    Out.Inv (Machine.execXclr g a s) := by
  grind [Machine.execXclr, State.Inv.writeUnit, State.Inv.atForm, State.Inv.answered,
    State.Inv.run, State.Inv, Res.Inv, Out.Inv]

theorem State.Inv.readCell (hs : s.Inv) (f : Fmt) (d a : Reg) :
    (Machine.readCell s f d a).Inv := by
  grind [Machine.readCell, State.Inv.atForm, State.Inv.answered, State.Inv.askOne,
    State.Inv.floatResult, State.Inv, Res.Inv]

theorem State.Inv.execXrdF32 (hs : s.Inv) (g : Guard) (d a : Reg) :
    Out.Inv (Machine.execXrdF32 g d a s) := by
  grind [Machine.execXrdF32, State.Inv.readCell, State.Inv.run, State.Inv, Out.Inv]

theorem State.Inv.execXrdF64 (hs : s.Inv) (g : Guard) (d a : Reg) :
    Out.Inv (Machine.execXrdF64 g d a s) := by
  grind [Machine.execXrdF64, State.Inv.readCell, State.Inv.run, State.Inv, Out.Inv]

theorem State.Inv.releaseMine (hs : s.Inv) :
    (s.releaseMine).Inv := by
  grind [State.releaseMine, State.Inv.releaseResv, State.Inv]

theorem State.Inv.unqueued (hs : s.Inv) :
    (s.unqueued).Inv := hs

theorem State.Inv.execLrw (hs : s.Inv) (g : Guard) (d a : Reg) :
    Out.Inv (Machine.execLrw g d a s) := by
  grind [Machine.execLrw, State.Inv.atForm, State.Inv.answered, State.Inv.result, State.Inv.askOne,
    State.Inv.releaseMine, State.Inv.unqueued, State.Inv.run, State.Inv, Res.Inv, Out.Inv]

theorem State.Inv.releaseElsewhere (hs : s.Inv) (pa : Nat) :
    (s.releaseElsewhere pa).Inv := by
  grind [State.releaseElsewhere, State.Inv.releaseLines, State.Inv]

theorem State.Inv.execSch (hs : s.Inv) (g : Guard) (pd : Pred) (a b : Reg) :
    Out.Inv (Machine.execSch g pd a b s) := by
  grind [Machine.execSch, State.Inv.atForm, State.Inv.releaseIf, State.Inv.answered,
    State.Inv.askOne, State.Inv.releaseMine, State.Inv.setP, State.Inv.run,
    State.Inv.releaseElsewhere, State.Inv, Res.Inv, Out.Inv]

theorem State.Inv.dropFetches (hs : s.Inv) :
    (s.dropFetches).Inv := hs

theorem State.Inv.execFence (hs : s.Inv) (g : Guard) (kind : FenceKind) (scope : BitVec 3) :
    Out.Inv (Machine.execFence g kind scope s) := by
  grind [Machine.execFence, State.Inv.dropFetches, State.Inv.releasing, State.Inv.run, State.Inv,
    Res.Inv, Out.Inv]

theorem State.Inv.execLookup (hs : s.Inv) (g : Guard) (d a : Reg) :
    Out.Inv (Machine.execLookup g d a s) := by
  grind [Machine.execLookup, Res.Inv.keeps, State.Inv.ownTag, State.Inv.result, State.Inv.run,
    State.Inv.consume, State.Inv, Res.Inv, Out.Inv]

theorem State.Inv.execTagset (hs : s.Inv) (g : Guard) (a b : Reg) :
    Out.Inv (Machine.execTagset g a b s) := by
  grind [Machine.execTagset, State.Inv.setMyCore, State.Inv.run, State.Inv.operand,
    State.Inv.consume, State.Inv, Res.Inv, Out.Inv]

theorem State.Inv.execTagclr (hs : s.Inv) (g : Guard) (a : Reg) :
    Out.Inv (Machine.execTagclr g a s) := by
  grind [Machine.execTagclr, State.Inv.setMyCore, State.Inv.run, State.Inv.operand,
    State.Inv.consume, State.Inv, Res.Inv, Out.Inv]

theorem State.Inv.prefetchLine (hs : s.Inv) (l : Leaf) (ea : Word) (sup : Bool) :
    (s.prefetchLine l ea sup).Inv := by
  grind [State.prefetchLine, State.Inv.cacheAccess, State.Inv]

theorem State.Inv.execPref (hs : s.Inv) (g : Guard) (a : Reg) :
    Out.Inv (Machine.execPref g a s) := by
  grind [Machine.execPref, State.Inv.prefetchLine, State.Inv.run, State.Inv.startWalk,
    State.Inv.useTlb, State.Inv.consume, State.Inv, Res.Inv, Out.Inv]

theorem State.Inv.execAlw (hs : s.Inv) (g : Guard) (d a : Reg) (pq : Pred) :
    Out.Inv (Machine.execAlw g d a pq s) := by
  grind [Machine.execAlw, State.Inv.setG, State.Inv.setP, State.Inv.run, State.Inv.operand,
    State.Inv.consume, State.Inv, Res.Inv, Out.Inv]

/-! ### The task, future, port, barrier and feed instructions -/

theorem State.Inv.askPort (hs : s.Inv) (h : Word) (code : Nat) (x : Word) (got : List (Nat ×
    Answer)) :
    (Machine.askPort s h code x got).Inv := by
  grind [Machine.askPort, State.Inv.ask, State.Inv.stale, State.Inv.operand, State.Inv, Res.Inv]

theorem State.Inv.viaPort (hs : s.Inv) (h : Word) (code : Nat) (x : Word) {here : State → PortAns ×
    State} (hhere : ∀ t0, t0.Inv → (here t0).2.Inv) {k : State → PortAns → Res} (hk : ∀ t0 x1,
    t0.Inv → (k t0 x1).Inv) :
    (Machine.viaPort s h code x here k).Inv := by
  grind [Machine.viaPort, State.Inv.askPort, State.Inv.answered, State.Inv]

theorem State.Inv.plainPort (hs : s.Inv) (h : Word) (a1 : PortAns) :
    (Machine.plainPort h s a1).Inv := by
  unfold Machine.plainPort
  grind [State.Inv.stale, State.Inv.operand, State.Inv, Res.Inv]

theorem State.Inv.spawned (hs : s.Inv) (d : Reg) (q : Option Pred) (h : Word) (ok : Bool) :
    (Machine.spawned s d q h ok).Inv := by
  unfold Machine.spawned
  grind [State.Inv.setG, State.Inv.setP, State.Inv, Res.Inv]

theorem State.Inv.spawn (hs : s.Inv) (d a : Reg) (q : Option Pred) :
    (Machine.spawn s d a q).Inv := by
  unfold Machine.spawn
  grind [State.Inv.spawned, State.Inv.exhausted, State.Inv.pushDeque, State.Inv.draining,
    State.Inv.allocate, State.Inv.operand, State.Inv.count, State.Inv.consume, State.Inv.holdStamp,
    State.Inv, Res.Inv, State.Inv.getD]

theorem State.Inv.execSpawn (hs : s.Inv) (g : Guard) (d a : Reg) :
    Out.Inv (Machine.execSpawn g d a s) := by
  grind [Machine.execSpawn, State.Inv.spawn, State.Inv.run, State.Inv, Out.Inv]

theorem State.Inv.execSpawnq (hs : s.Inv) (g : Guard) (d a : Reg) (pq : Pred) :
    Out.Inv (Machine.execSpawnq g d a pq s) := by
  grind [Machine.execSpawnq, State.Inv.spawn, State.Inv.run, State.Inv, Out.Inv]

theorem State.Inv.exitAsk (hs : s.Inv) (elem code : Nat) (x : Word) (got : List (Nat × Answer)) {k
    : State → Option Answer → Res} (hk : ∀ t0 x1, t0.Inv → (k t0 x1).Inv) :
    (Machine.exitAsk s elem code x got k).Inv := by
  grind [Machine.exitAsk, State.Inv.ask, State.Inv, Res.Inv]

theorem State.Inv.exitResolve (hs : s.Inv) (v : Word) {k : State → Res} (hk : ∀ t0, t0.Inv → (k
    t0).Inv) :
    (Machine.exitResolve s v k).Inv := by
  grind [Machine.exitResolve, State.Inv.endFuture, State.Inv.exitAsk, State.Inv.operand, State.Inv,
    Res.Inv]

theorem State.Inv.exitLeaves (hs : s.Inv) (ms : List Member) :
    (s.exitLeaves ms).2.Inv := by
  unfold State.exitLeaves
  grind [State.Inv.ask, State.Inv.leaveOne, foldl_inv, State.Inv, foldl_inv_snd]

theorem State.Inv.exitLeave (hs : s.Inv) {k : State → Res} (hk : ∀ t0, t0.Inv → (k t0).Inv) :
    (Machine.exitLeave s k).Inv := by
  grind [Machine.exitLeave, State.Inv.exitLeaves, State.Inv.takeMembers, State.Inv.exitAsk,
    State.Inv, Res.Inv]

theorem State.Inv.exitDrop (hs : s.Inv) {k : State → Res} (hk : ∀ t0, t0.Inv → (k t0).Inv) :
    (Machine.exitDrop s k).Inv := by
  grind [Machine.exitDrop, State.Inv.dropRef, State.Inv.exitAsk, State.Inv]

theorem State.Inv.quit (hs : s.Inv) :
    (s.quit).Inv := by
  grind [State.quit, State.Inv.popPort, State.Inv.releaseResv, State.Inv.leaveVersions,
    State.Inv.freeSlot, State.Inv]

theorem State.Inv.execExit (hs : s.Inv) (g : Guard) (a : Reg) :
    Out.Inv (Machine.execExit g a s) := by
  grind [Machine.execExit, State.Inv.exitResolve, State.Inv.exitDrop, State.Inv.exitLeave,
    State.Inv.quit, State.Inv.draining, State.Inv.run, State.Inv.consume, State.Inv, Res.Inv,
    Out.Inv]

theorem State.Inv.execGo (hs : s.Inv) (g : Guard) (a : Reg) :
    Out.Inv (Machine.execGo g a s) := by
  unfold Machine.execGo
  grind [Res.Inv.issued, State.Inv.address, State.Inv.arrive, State.Inv.setMe, State.Inv.andThen,
    State.Inv.draining, State.Inv.run, State.Inv.releaseResv, State.Inv.operand, State.Inv.useTlb,
    State.Inv.consume, State.Inv.freeSlot, State.Inv, Res.Inv, Out.Inv]

theorem State.Inv.execYield (hs : s.Inv) (g : Guard) :
    Out.Inv (Machine.execYield g s) := by
  grind [Machine.execYield, State.Inv.parkAs, State.Inv.arrive, State.Inv.draining, State.Inv.run,
    State.Inv.parkIndex, State.Inv, Res.Inv, Out.Inv]

theorem State.Inv.execSelf (hs : s.Inv) (g : Guard) (d : Reg) :
    Out.Inv (Machine.execSelf g d s) := by
  grind [Machine.execSelf, State.Inv.result, State.Inv.run, State.Inv, Out.Inv]

theorem State.Inv.touched (hs : s.Inv) (d : Reg) (q : Option Pred) (h : Word) (a1 : PortAns) :
    (Machine.touched s d q h a1).Inv := by
  unfold Machine.touched
  grind [State.Inv.setG, State.Inv.result, State.Inv.stale, State.Inv.setP, State.Inv, Res.Inv]

theorem State.Inv.parkOr (hs : s.Inv) {stay : State → Res} (hstay : ∀ t0, t0.Inv → (stay t0).Inv)
    {park : State → Nat → Res} (hpark : ∀ t0 x1, t0.Inv → (park t0 x1).Inv) :
    (Machine.parkOr s stay park).Inv := by
  grind [Machine.parkOr, State.Inv.draining, State.Inv.parkIndex, State.Inv]

theorem State.Inv.touchHere (hs : s.Inv) (d : Reg) (q : Option Pred) (h : Word) :
    (Machine.touchHere s d q h).Inv := by
  grind [Machine.touchHere, State.Inv.slotWait, State.Inv.popPort, State.Inv.joinChain,
    State.Inv.touchPort, State.Inv.parkOr, State.Inv.touched, State.Inv.find, State.Inv.parkAs,
    State.Inv, Res.Inv]

theorem State.Inv.takeEarly (hs : s.Inv) (tok : Word) :
    (s.takeEarly tok).2.Inv := by
  grind [State.takeEarly, State.Inv.setCluster, State.Inv]

theorem State.Inv.stayFar (hs : s.Inv) (kind : Nat) (obj : Word) (d : Reg) (q : Option Pred) {fin :
    State → Bool → Word → Res} (hfin : ∀ t0 x1 x2, t0.Inv → (fin t0 x1 x2).Inv) :
    (Machine.stayFar s kind obj d q fin).Inv := by
  grind [Machine.stayFar, State.Inv.slotWait, State.Inv.takeEarly, State.Inv]

theorem State.Inv.waitFar (hs : s.Inv) (idx : Option Nat) (kind : Nat) (obj : Word) (d : Reg) (q :
    Option Pred) {fin : State → Bool → Word → Res} (hfin : ∀ t0 x1 x2, t0.Inv → (fin t0 x1 x2).Inv)
    :
    (Machine.waitFar s idx kind obj d q fin).Inv := by
  unfold Machine.waitFar
  cases idx with
  | none => exact hs.stayFar _ _ _ _ hfin
  | some i =>
    grind [State.Inv.draining, parkFar, State.Inv.popPort, State.Inv.parkAs,
      State.Inv.deliverRecord, State.Inv.takeEarly, State.Inv, Res.Inv, State.Inv.done,
      State.Inv.releaseIndex, State.Inv.unlessError]

theorem State.Inv.askFar (hs : s.Inv) (kind : Nat) (obj : Word) {send : State → Word → List (Nat ×
    Answer) → Res} (hsend : ∀ t0 x1 x2, t0.Inv → (send t0 x1 x2).Inv) :
    (Machine.askFar s kind obj send).Inv := by
  grind [Machine.askFar, State.Inv.parkIndex, State.Inv]

theorem State.Inv.giveIndex (hs : s.Inv) :
    (s.giveIndex).Inv := by
  grind [State.giveIndex, State.Inv.releaseIndex, State.Inv]

theorem State.Inv.touchFar (hs : s.Inv) (d : Reg) (q : Option Pred) (h : Word) :
    (Machine.touchFar s d q h).Inv := by
  grind [Machine.touchFar, State.Inv.touched, State.Inv.askFar, State.Inv.giveIndex,
    State.Inv.askPort, State.Inv.waitFar, State.Inv]

theorem State.Inv.touchAny (hs : s.Inv) (d a : Reg) (q : Option Pred) :
    (Machine.touchAny s d a q).Inv := by
  grind [Machine.touchAny, State.Inv.touched, State.Inv.touchHere, State.Inv.touchFar,
    State.Inv.consume, State.Inv]

theorem State.Inv.execTouch (hs : s.Inv) (g : Guard) (d a : Reg) :
    Out.Inv (Machine.execTouch g d a s) := by
  grind [Machine.execTouch, State.Inv.touchAny, State.Inv.run, State.Inv, Out.Inv]

theorem State.Inv.execTouchq (hs : s.Inv) (g : Guard) (d a : Reg) (pq : Pred) :
    Out.Inv (Machine.execTouchq g d a pq s) := by
  grind [Machine.execTouchq, State.Inv.touchAny, State.Inv.run, State.Inv, Out.Inv]

theorem State.Inv.execTouchC16 (hs : s.Inv) (n : BitVec 3) (d a : BitVec 4) :
    Out.Inv (Machine.execTouchC16 n d a s) := by
  grind [Machine.execTouchC16, State.Inv.touchAny, State.Inv.run, State.Inv, Out.Inv]

theorem State.Inv.execResolve (hs : s.Inv) (g : Guard) (a b : Reg) :
    Out.Inv (Machine.execResolve g a b s) := by
  grind [Machine.execResolve, State.Inv.plainPort, State.Inv.draining, State.Inv.viaPort,
    State.Inv.run, State.Inv.consume, State.Inv.endPort, State.Inv, Out.Inv]

theorem State.Inv.execPoison (hs : s.Inv) (g : Guard) (a b : Reg) :
    Out.Inv (Machine.execPoison g a b s) := by
  grind [Machine.execPoison, State.Inv.plainPort, State.Inv.draining, State.Inv.viaPort,
    State.Inv.run, State.Inv.operand, State.Inv.consume, State.Inv.endPort, State.Inv, Res.Inv,
    Out.Inv]

theorem State.Inv.execCancel (hs : s.Inv) (g : Guard) (a : Reg) :
    Out.Inv (Machine.execCancel g a s) := by
  grind [Machine.execCancel, State.Inv.cancelPort, State.Inv.plainPort, State.Inv.viaPort,
    State.Inv.run, State.Inv.consume, State.Inv, Out.Inv]

theorem State.Inv.execFstat (hs : s.Inv) (g : Guard) (d a : Reg) :
    Out.Inv (Machine.execFstat g d a s) := by
  grind [Machine.execFstat, State.Inv.statPort, State.Inv.askPort, State.Inv.answered,
    State.Inv.result, State.Inv.run, State.Inv.consume, State.Inv, Out.Inv]

theorem State.Inv.execFhold (hs : s.Inv) (g : Guard) (a : Reg) :
    Out.Inv (Machine.execFhold g a s) := by
  grind [Machine.execFhold, State.Inv.holdPort, State.Inv.plainPort, State.Inv.viaPort,
    State.Inv.run, State.Inv.consume, State.Inv, Out.Inv]

theorem State.Inv.execFdrop (hs : s.Inv) (g : Guard) (a : Reg) :
    Out.Inv (Machine.execFdrop g a s) := by
  grind [Machine.execFdrop, State.Inv.plainPort, State.Inv.dropPort, State.Inv.viaPort,
    State.Inv.run, State.Inv.consume, State.Inv, Out.Inv]

theorem State.Inv.execPmode (hs : s.Inv) (g : Guard) (k : Bool) :
    Out.Inv (Machine.execPmode g k s) := by
  grind [Machine.execPmode, State.Inv.setMe, State.Inv.run, State.Inv, Res.Inv, Out.Inv]

theorem State.Inv.execPbind (hs : s.Inv) (g : Guard) (a : Reg) :
    Out.Inv (Machine.execPbind g a s) := by
  grind [Machine.execPbind, State.Inv.setMyCore, State.Inv.run, State.Inv.operand,
    State.Inv.consume, State.Inv, Res.Inv, Out.Inv]

theorem State.Inv.execPstat (hs : s.Inv) (g : Guard) (d : Reg) :
    Out.Inv (Machine.execPstat g d s) := by
  grind [Machine.execPstat, State.Inv.result, State.Inv.run, State.Inv, Out.Inv]

theorem State.Inv.withMembers (hs : s.Inv) {lost : State → Word → Res} (hlost : ∀ t0 x1, t0.Inv →
    (lost t0 x1).Inv) {k : State → Option (List Member) → Res} (hk : ∀ t0 x1, t0.Inv → (k t0
    x1).Inv) :
    (Machine.withMembers s lost k).Inv := by
  grind [Machine.withMembers, State.Inv.ask, State.Inv.members?, State.Inv, Res.Inv]

theorem State.Inv.putMember (hs : s.Inv) (va : Word) (m : Option Member) (got : List (Nat ×
    Answer)) {k : State → Res} (hk : ∀ t0, t0.Inv → (k t0).Inv) :
    (Machine.putMember s va m got k).Inv := by
  grind [Machine.putMember, State.Inv.ask, State.Inv.putMembers, State.Inv.members?, State.Inv,
    Res.Inv]

theorem State.Inv.checkBarrier (hs : s.Inv) (a : Reg) (extra : List Reg) (dr : Bool) {k : State →
    Nat → Res} (hk : ∀ t0 x1, t0.Inv → (k t0 x1).Inv) :
    (Machine.checkBarrier s a extra dr k).Inv := by
  grind [Machine.checkBarrier, Res.Inv.issued, State.Inv.andThen, State.Inv.draining,
    State.Inv.operand, State.Inv.useTlb, State.Inv.consume, State.Inv, Res.Inv]

theorem State.Inv.atBarrier (hs : s.Inv) (a : Reg) (extra : List Reg) (dr : Bool) {lost : State →
    Word → Res} (hlost : ∀ t0 x1, t0.Inv → (lost t0 x1).Inv) {k : State → BarSpot → Option (List
    Member) → Res} (hk : ∀ t0 x1 x2, t0.Inv → (k t0 x1 x2).Inv) :
    (Machine.atBarrier s a extra dr lost k).Inv := by
  grind [Machine.atBarrier, State.Inv.withMembers, Res.Inv.keeps, State.Inv.checkBarrier,
    State.Inv, Res.Inv]

theorem State.Inv.barrierOp (hs : s.Inv) (y : BarSpot) (va : Word) (code : Nat) (m : Member) (x :
    Word) {k : State → BarAns → List (Nat × Answer) → Res} (hk : ∀ t0 x1 x2, t0.Inv → (k t0 x1
    x2).Inv) :
    (Machine.barrierOp s y va code m x k).Inv := by
  unfold Machine.barrierOp
  grind [State.Inv.ask, State.Inv.barrierPort, State.Inv, Res.Inv]

theorem State.Inv.barrierLost (hs : s.Inv) (a1 : Word) :
    (Machine.barrierLost s a1).Inv := hs

theorem State.Inv.execBjoin (hs : s.Inv) (g : Guard) (a : Reg) : Out.Inv (Machine.execBjoin g a s)
    := by
  refine hs.run _ _ fun t ht => ht.atBarrier _ _ _ (fun _ _ h => h.barrierLost _) fun t y ms ht =>
    ?_
  split
  · exact ht.operand _
  · dsimp only
    split
    · exact ht.operand _
    · refine ht.barrierOp _ _ _ _ _ fun t r got ht => ?_
      split
      · exact ht.putMember _ _ _ fun _ h => h.done
      · exact ht.barrierLost _
      · exact ht.operand _

theorem State.Inv.execBarv (hs : s.Inv) (g : Guard) (a : Reg) : Out.Inv (Machine.execBarv g a s) :=
    by
  refine hs.run _ _ fun t ht => ht.atBarrier _ _ _ (fun _ _ h => h.barrierLost _) fun t y ms ht =>
    ?_
  dsimp only
  split
  · exact ht.operand _
  · refine ht.barrierOp _ _ _ _ _ fun t r got ht => ?_
    split
    · exact ht.putMember _ _ _ fun _ h => h.done
    · exact ht.barrierLost _
    · exact ht.operand _

theorem State.Inv.execBleave (hs : s.Inv) (g : Guard) (a : Reg) :
    Out.Inv (Machine.execBleave g a s) := by
  unfold Machine.execBleave
  grind [State.Inv.putMember, State.Inv.atBarrier, State.Inv.run, State.Inv.barrierLost,
    State.Inv.operand, State.Inv.barrierOp, State.Inv, Res.Inv, Out.Inv]

theorem State.Inv.execBexpect (hs : s.Inv) (g : Guard) (a b : Reg) :
    Out.Inv (Machine.execBexpect g a b s) := by
  unfold Machine.execBexpect
  grind [State.Inv.atBarrier, State.Inv.run, State.Inv.barrierLost, State.Inv.operand,
    State.Inv.barrierOp, State.Inv, Res.Inv, Out.Inv]

theorem State.Inv.waitHere (hs : s.Inv) (o : Nat) (va : Word) (m : Member) (d : Reg) (pq : Pred)
    {fin : State → Bool → Word → Res} (hfin : ∀ t0 x1 x2, t0.Inv → (fin t0 x1 x2).Inv) :
    (Machine.waitHere s o va m d pq fin).Inv := by
  grind [Machine.waitHere, State.Inv.slotWait, State.Inv.popPort, State.Inv.parkOr,
    State.Inv.joinBarrier, State.Inv.parkAs, State.Inv.barrierPort, State.Inv, Res.Inv]

theorem State.Inv.waitThere (hs : s.Inv) (pa : Nat) (va : Word) (m : Member) (d : Reg) (pq : Pred)
    {fin : State → Bool → Word → Res} (hfin : ∀ t0 x1 x2, t0.Inv → (fin t0 x1 x2).Inv) :
    (Machine.waitThere s pa va m d pq fin).Inv := by
  grind [Machine.waitThere, State.Inv.ask, State.Inv.askFar, State.Inv.giveIndex,
    State.Inv.waitFar, State.Inv.operand, State.Inv, Res.Inv]

theorem State.Inv.execBwait (hs : s.Inv) (g : Guard) (d a : Reg) (pq : Pred) :
    Out.Inv (Machine.execBwait g d a pq s) := by
  refine hs.run _ _ fun t ht => ?_
  extract_lets fin start
  have hfin : ∀ (t : State) ok v, t.Inv → (fin t ok v).Inv := fun t ok v ht => ((ht.setG ..).setP
    ..).done
  have hstart : ∀ t : State, t.Inv → (start t).Inv := fun t ht =>
    ht.atBarrier _ _ _ (fun _ _ h => hfin _ _ _ h) fun t y ms ht => by
      dsimp only
      split
      · exact ht.operand _
      · split
        · exact ht.operand _
        · split
          · exact ht.waitHere _ _ _ _ _ hfin
          · exact ht.waitThere _ _ _ _ _ hfin
  clear_value fin start
  split
  · split
    · exact hstart _ ht
    · exact hfin _ _ _ ht
  · exact hstart _ ht

theorem State.Inv.popFeed (hs : s.Inv) (f : Nat) {y : Word} {u : State} (he : s.popFeed f = some
    (y, u)) :
    u.Inv := by
  grind [State.popFeed, State.Inv.hbmRead, State.Inv.setFeed, State.Inv]

theorem State.Inv.linkPopper (hs : s.Inv) (q : FeedQ) (t : Word) :
    (s.linkPopper q t).Inv := by
  grind [State.linkPopper, State.Inv.putLink, State.Inv]

theorem State.Inv.feedPop (hs : s.Inv) (d a : Reg) (q : Option Pred) :
    (Machine.feedPop s d a q).Inv := by
  grind [Machine.feedPop, State.Inv.slotWait, State.Inv.popPort, State.Inv.parkOr,
    State.Inv.parkAs, State.Inv.setG, State.Inv.answered, State.Inv.result, State.Inv.popFeed,
    State.Inv.setP, State.Inv.newId, State.Inv.operand, State.Inv.setFeed, State.Inv.consume,
    State.Inv.linkPopper, State.Inv, Res.Inv]

theorem State.Inv.execFpop (hs : s.Inv) (g : Guard) (d a : Reg) :
    Out.Inv (Machine.execFpop g d a s) := by
  grind [Machine.execFpop, State.Inv.feedPop, State.Inv.run, State.Inv, Out.Inv]

theorem State.Inv.execFpopq (hs : s.Inv) (g : Guard) (d a : Reg) (pq : Pred) :
    Out.Inv (Machine.execFpopq g d a pq s) := by
  grind [Machine.execFpopq, State.Inv.feedPop, State.Inv.run, State.Inv, Out.Inv]

/-! ### The engine blocks and rings of the Loom and the Scrivener -/

theorem State.Inv.setLoomQ (hs : s.Inv) (k : Nat) (q : EngineQ LoomCmd) :
    (s.setLoomQ k q).Inv := hs

theorem State.Inv.setScrQ (hs : s.Inv) (k : Nat) (q : EngineQ CopyCmd) :
    (s.setScrQ k q).Inv := hs

theorem State.Inv.openBlock (hs : s.Inv) (o : Nat) :
    (s.openBlock o).Inv := by
  grind [State.openBlock, State.Inv.hbmRead, State.Inv]

theorem State.Inv.setHead (hs : s.Inv) (o : Nat) (v : Word) :
    (s.setHead o v).Inv := by
  grind [State.setHead, State.Inv.hbmWrite, State.Inv]

theorem State.Inv.setTail (hs : s.Inv) (o : Nat) (v : Word) :
    (s.setTail o v).Inv := by
  grind [State.setTail, State.Inv.hbmWrite, State.Inv]

theorem State.Inv.tryBlock (hs : s.Inv) (r : Word) :
    (s.tryBlock r).Inv := by
  grind [State.tryBlock, State.Inv.openBlock, State.Inv]

theorem State.Inv.loomPush (hs : s.Inv) (k : Nat) (b : Block) (c : LoomCmd) :
    (s.loomPush k b c).Inv := by
  grind [State.loomPush, State.Inv.setTail, State.Inv.openBlock, State.Inv.setLoomQ, State.Inv]

theorem State.Inv.scrPush (hs : s.Inv) (k : Nat) (b : Block) (c : CopyCmd) :
    (s.scrPush k b c).Inv := by
  grind [State.scrPush, State.Inv.setScrQ, State.Inv.setTail, State.Inv.openBlock, State.Inv]

theorem State.Inv.loomPop (hs : s.Inv) (k : Nat) :
    (s.loomPop k).Inv := by
  grind [State.loomPop, State.Inv.openBlock, State.Inv.setLoomQ, State.Inv.setHead, State.Inv]

theorem State.Inv.scrPop (hs : s.Inv) (k : Nat) :
    (s.scrPop k).Inv := by
  grind [State.scrPop, State.Inv.setScrQ, State.Inv.openBlock, State.Inv.setHead, State.Inv]

theorem State.Inv.scrUnpause (hs : s.Inv) (core : Nat) :
    (s.scrUnpause core).Inv := by
  grind [State.scrUnpause, State.Inv.setCore, State.Inv]

/-! ### The state registers -/

theorem State.Inv.execSrd (hs : s.Inv) (g : Guard) (d : Reg) (n : BitVec 8) :
    Out.Inv (Machine.execSrd g d n s) := by
  grind [Machine.execSrd, State.Inv.illegal, State.Inv.result, State.Inv.run, State.Inv, Res.Inv,
    Out.Inv]

theorem State.Inv.execSwr (hs : s.Inv) (g : Guard) (n : BitVec 8) (a : Reg) :
    Out.Inv (Machine.execSwr g n a s) := by
  grind [Machine.execSwr, State.Inv.setMyCore, State.Inv.illegal, State.Inv.setMe, State.Inv.run,
    State.Inv.operand, State.Inv.consume, State.Inv, Res.Inv, Out.Inv]

theorem State.Inv.execShape (hs : s.Inv) (g : Guard) (fmt : BitVec 4) (cols1 : BitVec 8) (rows1 :
    BitVec 5) :
    Out.Inv (Machine.execShape g fmt cols1 rows1 s) := by
  grind [Machine.execShape, State.Inv.setMe, State.Inv.run, State.Inv.operand, State.Inv, Res.Inv,
    Out.Inv]

theorem State.Inv.execSrdp (hs : s.Inv) (g : Guard) (d : Reg) (n : BitVec 8) :
    Out.Inv (Machine.execSrdp g d n s) := by
  grind [Machine.execSrdp, State.Inv.illegal, State.Inv.result, State.Inv.run, State.Inv, Res.Inv,
    Out.Inv]

theorem State.Inv.writeCctl (hs : s.Inv) (core : Nat) (v : Word) :
    (s.writeCctl core v).Inv := by
  grind [State.writeCctl, State.Inv.scrUnpause, State.Inv.setCore, State.Inv]

theorem State.Inv.writeSuper (hs : s.Inv) (n : Nat) (v : Word) {u : State} (he : s.writeSuper n v =
    some u) :
    u.Inv := by
  unfold State.writeSuper at he
  grind [State.Inv.setCluster, State.Inv.flushTable, State.Inv.setMyCore, State.Inv.setMe,
    State.Inv.writeCctl, State.Inv]

theorem State.Inv.execSwrp (hs : s.Inv) (g : Guard) (n : BitVec 8) (a : Reg) :
    Out.Inv (Machine.execSwrp g n a s) := by
  grind [Machine.execSwrp, State.Inv.illegal, State.Inv.writeSuper, State.Inv.run,
    State.Inv.operand, State.Inv.consume, State.Inv, Res.Inv, Out.Inv]

/-! ### The tile registers and the tile instructions that reach no memory -/

theorem State.Inv.setTile (hs : s.Inv) (t : TReg) (x : Tile) :
    (s.setTile t x).Inv := hs

theorem State.Inv.setWritten (hs : s.Inv) (t : TReg) (x : Nat × Nat) :
    (s.setWritten t x).Inv := hs

theorem State.Inv.noteWrite (hs : s.Inv) (t : TReg) (order : Nat) (scales : Bool) :
    (s.noteWrite t order scales).Inv := hs

theorem State.Inv.moveTile (hs : s.Inv) (t : TReg) (p : TilePatch) :
    (s.moveTile t p).Inv := hs

theorem State.Inv.writeUnder (hs : s.Inv) (t : TReg) (f : Fmt) (y : Tile) (order : Nat) :
    (s.writeUnder t f y order).Inv := by
  grind [State.writeUnder, State.Inv.setWritten, State.Inv.noteWrite, State.Inv.setTile, foldl_inv,
    State.Inv]

theorem State.Inv.writeTile (hs : s.Inv) (t : TReg) (h : Shape) (raws : List Nat) (ps : List Bool)
    (scales : List Byte) :
    (s.writeTile t h raws ps scales).Inv := hs

theorem State.Inv.chainGate (hs : s.Inv) (srcs dests : List TReg) {k : State → Res} (hk : ∀ t0,
    t0.Inv → (k t0).Inv) :
    (Machine.chainGate s srcs dests k).Inv := by
  grind [Machine.chainGate, State.Inv, Res.Inv]

theorem State.Inv.emptySources (hs : s.Inv) (srcs : List TReg) :
    (s.emptySources srcs).Inv := by
  grind [State.emptySources, State.Inv.setTile, foldl_inv, State.Inv]

theorem State.Inv.agree (hs : s.Inv) (h : Shape) (srcs : List TReg) {k : State → Res} (hk : ∀ t0,
    t0.Inv → (k t0).Inv) :
    (Machine.agree s h srcs k).Inv := by
  grind [Machine.agree, State.Inv.operand, State.Inv, Res.Inv]

theorem State.Inv.tileSteps (hs : s.Inv) (ok mods : Fmt → Bool) (srcs dests : List TReg) {k : State
    → Shape → Res} (hk : ∀ t0 x1, t0.Inv → (k t0 x1).Inv) :
    (Machine.tileSteps s ok mods srcs dests k).Inv := by
  grind [Machine.tileSteps, State.Inv.agree, State.Inv.chainGate, State.Inv.operand, State.Inv,
    Res.Inv]

theorem State.Inv.tileDone (hs : s.Inv) (srcs : List TReg) (td : TReg) (h : Shape) (raws : List
    Nat) (ps : List Bool) (scales : List Byte) :
    (Machine.tileDone s srcs td h raws ps scales).Inv := by
  grind [Machine.tileDone, State.Inv.emptySources, State.Inv.writeTile, State.Inv, Res.Inv]

theorem State.Inv.floatTile (hs : s.Inv) (srcs : List TReg) (td : TReg) (h : Shape) (vs : List Val)
    (ps : List Bool) :
    (Machine.floatTile s srcs td h vs ps).Inv := by
  grind [Machine.floatTile, State.Inv.tileDone, State.Inv.drew, State.Inv]

theorem State.Inv.intTile (hs : s.Inv) (srcs : List TReg) (td : TReg) (h : Shape) (vs : List Int)
    (ps : List Bool) :
    (Machine.intTile s srcs td h vs ps).Inv := by
  grind [Machine.intTile, State.Inv.tileDone, State.Inv]

theorem State.Inv.tileArith (hs : s.Inv) (td ta tb : TReg) (fop : Nat → Val → Val → Val) (iop : Int
    → Int → Int) :
    (Machine.tileArith s td ta tb fop iop).Inv := by
  grind [Machine.tileArith, State.Inv.intTile, State.Inv.tileSteps, State.Inv.floatTile, State.Inv]

theorem State.Inv.execTadd (hs : s.Inv) (g : Guard) (td ta tb : TReg) :
    Out.Inv (Machine.execTadd g td ta tb s) := by
  grind [Machine.execTadd, State.Inv.tileArith, State.Inv.run, State.Inv, Out.Inv]

theorem State.Inv.execTsub (hs : s.Inv) (g : Guard) (td ta tb : TReg) :
    Out.Inv (Machine.execTsub g td ta tb s) := by
  grind [Machine.execTsub, State.Inv.tileArith, State.Inv.run, State.Inv, Out.Inv]

theorem State.Inv.execTmul (hs : s.Inv) (g : Guard) (td ta tb : TReg) :
    Out.Inv (Machine.execTmul g td ta tb s) := by
  grind [Machine.execTmul, State.Inv.tileArith, State.Inv.run, State.Inv, Out.Inv]

theorem State.Inv.execTdiv (hs : s.Inv) (g : Guard) (td ta tb : TReg) :
    Out.Inv (Machine.execTdiv g td ta tb s) := by
  grind [Machine.execTdiv, State.Inv.tileArith, State.Inv.run, State.Inv, Out.Inv]

theorem State.Inv.execTfma (hs : s.Inv) (g : Guard) (td ta tb : TReg) :
    Out.Inv (Machine.execTfma g td ta tb s) := by
  grind [Machine.execTfma, State.Inv.intTile, State.Inv.tileSteps, State.Inv.floatTile,
    State.Inv.run, State.Inv, Out.Inv]

theorem State.Inv.tilePick (hs : s.Inv) (td ta tb : TReg) (least : Bool) :
    (Machine.tilePick s td ta tb least).Inv := by
  grind [Machine.tilePick, State.Inv.intTile, State.Inv.tileDone, State.Inv.tileSteps,
    State.Inv.floatTile, State.Inv]

theorem State.Inv.execTmin (hs : s.Inv) (g : Guard) (td ta tb : TReg) :
    Out.Inv (Machine.execTmin g td ta tb s) := by
  grind [Machine.execTmin, State.Inv.tilePick, State.Inv.run, State.Inv, Out.Inv]

theorem State.Inv.execTmax (hs : s.Inv) (g : Guard) (td ta tb : TReg) :
    Out.Inv (Machine.execTmax g td ta tb s) := by
  grind [Machine.execTmax, State.Inv.tilePick, State.Inv.run, State.Inv, Out.Inv]

theorem State.Inv.execTsel (hs : s.Inv) (g : Guard) (td ta tb : TReg) :
    Out.Inv (Machine.execTsel g td ta tb s) := by
  grind [Machine.execTsel, State.Inv.tileDone, State.Inv.tileSteps, State.Inv.floatTile,
    State.Inv.run, State.Inv, Out.Inv]

theorem State.Inv.tileLogic (hs : s.Inv) (td ta tb : TReg) (op : Nat → Nat → Nat) :
    (Machine.tileLogic s td ta tb op).Inv := by
  grind [Machine.tileLogic, State.Inv.tileDone, State.Inv.tileSteps, State.Inv]

theorem State.Inv.execTand (hs : s.Inv) (g : Guard) (td ta tb : TReg) :
    Out.Inv (Machine.execTand g td ta tb s) := by
  grind [Machine.execTand, State.Inv.tileLogic, State.Inv.run, State.Inv, Out.Inv]

theorem State.Inv.execTor (hs : s.Inv) (g : Guard) (td ta tb : TReg) :
    Out.Inv (Machine.execTor g td ta tb s) := by
  grind [Machine.execTor, State.Inv.tileLogic, State.Inv.run, State.Inv, Out.Inv]

theorem State.Inv.execTxor (hs : s.Inv) (g : Guard) (td ta tb : TReg) :
    Out.Inv (Machine.execTxor g td ta tb s) := by
  grind [Machine.execTxor, State.Inv.tileLogic, State.Inv.run, State.Inv, Out.Inv]

theorem State.Inv.tileShift (hs : s.Inv) (td ta tb : TReg) (op : Int → Nat → Int) :
    (Machine.tileShift s td ta tb op).Inv := by
  grind [Machine.tileShift, State.Inv.intTile, State.Inv.tileSteps, State.Inv]

theorem State.Inv.execTshl (hs : s.Inv) (g : Guard) (td ta tb : TReg) :
    Out.Inv (Machine.execTshl g td ta tb s) := by
  grind [Machine.execTshl, State.Inv.tileShift, State.Inv.run, State.Inv, Out.Inv]

theorem State.Inv.execTshr (hs : s.Inv) (g : Guard) (td ta tb : TReg) :
    Out.Inv (Machine.execTshr g td ta tb s) := by
  grind [Machine.execTshr, State.Inv.tileShift, State.Inv.run, State.Inv, Out.Inv]

theorem State.Inv.tileCmp (hs : s.Inv) (td ta tb : TReg) (cc : FCond) :
    (Machine.tileCmp s td ta tb cc).Inv := by
  grind [Machine.tileCmp, State.Inv.tileDone, State.Inv.tileSteps, State.Inv]

theorem State.Inv.execTcmpEq (hs : s.Inv) (g : Guard) (td ta tb : TReg) :
    Out.Inv (Machine.execTcmpEq g td ta tb s) := by
  grind [Machine.execTcmpEq, State.Inv.tileCmp, State.Inv.run, State.Inv, Out.Inv]

theorem State.Inv.execTcmpNe (hs : s.Inv) (g : Guard) (td ta tb : TReg) :
    Out.Inv (Machine.execTcmpNe g td ta tb s) := by
  grind [Machine.execTcmpNe, State.Inv.tileCmp, State.Inv.run, State.Inv, Out.Inv]

theorem State.Inv.execTcmpLt (hs : s.Inv) (g : Guard) (td ta tb : TReg) :
    Out.Inv (Machine.execTcmpLt g td ta tb s) := by
  grind [Machine.execTcmpLt, State.Inv.tileCmp, State.Inv.run, State.Inv, Out.Inv]

theorem State.Inv.execTcmpLe (hs : s.Inv) (g : Guard) (td ta tb : TReg) :
    Out.Inv (Machine.execTcmpLe g td ta tb s) := by
  grind [Machine.execTcmpLe, State.Inv.tileCmp, State.Inv.run, State.Inv, Out.Inv]

theorem State.Inv.execTcvt (hs : s.Inv) (g : Guard) (tgt : Fmt) (td ta : TReg) :
    Out.Inv (Machine.execTcvt g tgt td ta s) := by
  grind [Machine.execTcvt, State.Inv.tileDone, State.Inv.tileSteps, State.Inv.drew, State.Inv.run,
    State.Inv.operand, State.Inv, Res.Inv, Out.Inv]

theorem State.Inv.tileFunction (hs : s.Inv) (td ta : TReg) (fn : Val → Val) :
    (Machine.tileFunction s td ta fn).Inv := by
  grind [Machine.tileFunction, State.Inv.tileSteps, State.Inv.floatTile, State.Inv]

theorem State.Inv.execTexp2 (hs : s.Inv) (g : Guard) (td ta : TReg) :
    Out.Inv (Machine.execTexp2 g td ta s) := by
  grind [Machine.execTexp2, State.Inv.tileFunction, State.Inv.run, State.Inv, Out.Inv]

theorem State.Inv.execTlog2 (hs : s.Inv) (g : Guard) (td ta : TReg) :
    Out.Inv (Machine.execTlog2 g td ta s) := by
  grind [Machine.execTlog2, State.Inv.tileFunction, State.Inv.run, State.Inv, Out.Inv]

theorem State.Inv.execTrcp (hs : s.Inv) (g : Guard) (td ta : TReg) :
    Out.Inv (Machine.execTrcp g td ta s) := by
  grind [Machine.execTrcp, State.Inv.tileFunction, State.Inv.run, State.Inv, Out.Inv]

theorem State.Inv.execTrsq (hs : s.Inv) (g : Guard) (td ta : TReg) :
    Out.Inv (Machine.execTrsq g td ta s) := by
  grind [Machine.execTrsq, State.Inv.tileFunction, State.Inv.run, State.Inv, Out.Inv]

theorem State.Inv.execTsqrt (hs : s.Inv) (g : Guard) (td ta : TReg) :
    Out.Inv (Machine.execTsqrt g td ta s) := by
  grind [Machine.execTsqrt, State.Inv.tileFunction, State.Inv.run, State.Inv, Out.Inv]

theorem State.Inv.execTtanh (hs : s.Inv) (g : Guard) (td ta : TReg) :
    Out.Inv (Machine.execTtanh g td ta s) := by
  grind [Machine.execTtanh, State.Inv.tileFunction, State.Inv.run, State.Inv, Out.Inv]

theorem State.Inv.tileSum (hs : s.Inv) (td ta : TReg) (pieces : {α : Type} → Shape → List α → List
    (List α)) (cols : Shape → Nat) :
    (Machine.tileSum s td ta pieces cols).Inv := by
  grind [Machine.tileSum, State.Inv.intTile, State.Inv.tileSteps, State.Inv.floatTile, foldl_inv,
    State.Inv]

theorem State.Inv.execTredAdd (hs : s.Inv) (g : Guard) (td ta : TReg) :
    Out.Inv (Machine.execTredAdd g td ta s) := by
  grind [Machine.execTredAdd, State.Inv.tileSum, State.Inv.run, State.Inv, Out.Inv]

theorem State.Inv.execTscanAdd (hs : s.Inv) (g : Guard) (td ta : TReg) :
    Out.Inv (Machine.execTscanAdd g td ta s) := by
  grind [Machine.execTscanAdd, State.Inv.tileSum, State.Inv.run, State.Inv, Out.Inv]

theorem State.Inv.tileExtreme (hs : s.Inv) (td ta : TReg) (least : Bool) :
    (Machine.tileExtreme s td ta least).Inv := by
  grind [Machine.tileExtreme, State.Inv.intTile, State.Inv.tileDone, State.Inv.tileSteps, State.Inv]

theorem State.Inv.execTredMin (hs : s.Inv) (g : Guard) (td ta : TReg) :
    Out.Inv (Machine.execTredMin g td ta s) := by
  grind [Machine.execTredMin, State.Inv.tileExtreme, State.Inv.run, State.Inv, Out.Inv]

theorem State.Inv.execTredMax (hs : s.Inv) (g : Guard) (td ta : TReg) :
    Out.Inv (Machine.execTredMax g td ta s) := by
  grind [Machine.execTredMax, State.Inv.tileExtreme, State.Inv.run, State.Inv, Out.Inv]

theorem State.Inv.execTtopk (hs : s.Inv) (g : Guard) (td ta : TReg) (k1 : BitVec 6) :
    Out.Inv (Machine.execTtopk g td ta k1 s) := by
  grind [Machine.execTtopk, State.Inv.emptySources, State.Inv.tileSteps, State.Inv.writeTile,
    State.Inv.run, State.Inv.operand, State.Inv, Res.Inv, Out.Inv]

theorem State.Inv.execTxpose (hs : s.Inv) (g : Guard) (td ta : TReg) :
    Out.Inv (Machine.execTxpose g td ta s) := by
  grind [Machine.execTxpose, State.Inv.tileDone, State.Inv.tileSteps, State.Inv.run,
    State.Inv.operand, State.Inv, Res.Inv, Out.Inv]

theorem State.Inv.execTmov (hs : s.Inv) (g : Guard) (td ta : TReg) :
    Out.Inv (Machine.execTmov g td ta s) := by
  grind [Machine.execTmov, State.Inv.emptySources, State.Inv.noteWrite, State.Inv.setTile,
    State.Inv.chainGate, State.Inv.run, State.Inv, Res.Inv, Out.Inv]

theorem State.Inv.execTsplat (hs : s.Inv) (g : Guard) (t : TReg) (a : Reg) :
    Out.Inv (Machine.execTsplat g t a s) := by
  grind [Machine.execTsplat, State.Inv.tileDone, State.Inv.tileSteps, State.Inv.run, State.Inv,
    Out.Inv]

theorem State.Inv.execTiota (hs : s.Inv) (g : Guard) (td : TReg) :
    Out.Inv (Machine.execTiota g td s) := by
  grind [Machine.execTiota, State.Inv.tileDone, State.Inv.tileSteps, State.Inv.run, State.Inv,
    Out.Inv]

theorem State.Inv.execTrand (hs : s.Inv) (g : Guard) (td : TReg) :
    Out.Inv (Machine.execTrand g td s) := by
  grind [Machine.execTrand, State.Inv.tileDone, State.Inv.tileSteps, State.Inv.drew, State.Inv.run,
    State.Inv, Out.Inv]

theorem State.Inv.execTmovgRead (hs : s.Inv) (g : Guard) (t : TReg) (a b : Reg) :
    Out.Inv (Machine.execTmovgRead g t a b s) := by
  grind [Machine.execTmovgRead, State.Inv.result, State.Inv.run, State.Inv.operand,
    State.Inv.consume, State.Inv, Res.Inv, Out.Inv]

theorem State.Inv.execTmovgWrite (hs : s.Inv) (g : Guard) (t : TReg) (a b : Reg) :
    Out.Inv (Machine.execTmovgWrite g t a b s) := by
  unfold Machine.execTmovgWrite
  grind [State.Inv.moveTile, State.Inv.run, State.Inv.operand, State.Inv.consume, State.Inv,
    Res.Inv, Out.Inv]

/-! ### The tile instructions that reach memory -/

theorem State.Inv.checkPieces (hs : s.Inv) (kind : Kind) (fs : List Nat) {k : State → Res} (hk : ∀
    t0, t0.Inv → (k t0).Inv) (l : List Run) :
    (Machine.checkPieces s kind fs k l).Inv := by
  induction l generalizing s with
  | nil => exact hk _ hs
  | cons x r ih => grind [Machine.checkPieces, State.Inv.andThen, State.Inv]

theorem State.Inv.checkRuns (hs : s.Inv) (u : Nat) (need : Need) (kind : Kind) (fs : List Nat) (ti
    t : TReg) (dirty : Bool) {k : State → Res} (hk : ∀ t0, t0.Inv → (k t0).Inv) (l : List Run) :
    (Machine.checkRuns s u need kind fs ti t dirty k l).Inv := by
  induction l generalizing s with
  | nil => exact hk _ hs
  | cons x r ih => grind [Machine.checkRuns, State.Inv.contain, State.Inv.andThen,
    State.Inv.checkPieces, State.Inv, Res.Inv]

theorem State.Inv.stridedRuns (hs : s.Inv) (h : Shape) (a b : Reg) {k : State → List Run → Res} (hk
    : ∀ t0 x1, t0.Inv → (k t0 x1).Inv) :
    (Machine.stridedRuns s h a b k).Inv := by
  grind [Machine.stridedRuns, State.Inv.misalign, State.Inv.operand, State.Inv.consume, State.Inv,
    Res.Inv]

theorem State.Inv.indexedRuns (hs : s.Inv) (h : Shape) (ti : TReg) (a : Reg) {k : State → List Run
    → Res} (hk : ∀ t0 x1, t0.Inv → (k t0 x1).Inv) :
    (Machine.indexedRuns s h ti a k).Inv := by
  grind [Machine.indexedRuns, State.Inv.misalign, State.Inv.operand, State.Inv.consume, State.Inv,
    Res.Inv]

theorem State.Inv.indexedSteps (hs : s.Inv) (srcs dests : List TReg) {k : State → Shape → Res} (hk
    : ∀ t0 x1, t0.Inv → (k t0 x1).Inv) :
    (Machine.indexedSteps s srcs dests k).Inv := by
  grind [Machine.indexedSteps, State.Inv.chainGate, State.Inv.operand, State.Inv, Res.Inv]

theorem State.Inv.claimTiles (hs : s.Inv) (srcs dests : List TReg) :
    (s.claimTiles srcs dests).Inv := by
  grind [State.claimTiles, State.Inv.setMyCore, State.Inv.emptySources, State.Inv]

theorem State.Inv.claimOnce (hs : s.Inv) (srcs dests : List TReg) :
    (s.claimOnce srcs dests).Inv := by
  grind [State.claimOnce, State.Inv.claimTiles, State.Inv]

theorem State.Inv.pin (hs : s.Inv) (runs : List Run) :
    (s.pin runs).Inv := hs

theorem State.Inv.emptyOnce (hs : s.Inv) (srcs : List TReg) :
    (s.emptyOnce srcs).Inv := by
  grind [State.emptyOnce, State.Inv.emptySources, State.Inv]

theorem State.Inv.endClaims (hs : s.Inv) :
    (s.endClaims).Inv := hs

theorem State.Inv.undoClaims (hs : s.Inv) :
    (s.undoClaims).Inv := hs

theorem State.Inv.readRun {x : State × List (Nat × Answer)} (hx : x.1.Inv) (r : Run) :
    (Machine.readRun x r).1.Inv := by
  unfold Machine.readRun
  grind [State.Inv.ask, State.Inv.checkTags, State.Inv.useTlb, State.Inv.readSpad, State.Inv]

theorem State.Inv.loadDone (hs : s.Inv) (t : TReg) (h : Shape) (runs : List Run) (got : List (Nat ×
    Answer)) :
    (Machine.loadDone s t h runs got).Inv := by
  grind [Machine.loadDone, State.Inv.noteWrite, State.Inv.setTile, State.Inv.endClaims,
    State.Inv.writeUnder, State.Inv, Res.Inv]

theorem State.Inv.loadIssue (hs : s.Inv) (t : TReg) (srcs : List TReg) (h : Shape) (extra : List
    (Nat × Answer)) (runs : List Run) :
    (Machine.loadIssue s t srcs h extra runs).Inv := by
  unfold Machine.loadIssue
  grind [State.Inv.loadDone, State.Inv.claimOnce, State.Inv.pin, State.Inv.readRun,
    State.Inv.emptyOnce, State.Inv.startWalk, foldl_inv, State.Inv, Res.Inv, foldl_inv_fst]

theorem State.Inv.loadAnswered (hs : s.Inv) (t : TReg) (h : Shape) (runs : List Run) :
    (Machine.loadAnswered s t h runs).Inv := by
  grind [Machine.loadAnswered, State.Inv.loadDone, State.Inv.undoClaims, State.Inv, Res.Inv]

theorem State.Inv.loadOn (hs : s.Inv) (t : TReg) (srcs : List TReg) (h : Shape) (extra : List (Nat
    × Answer)) (runs : List Run) :
    (Machine.loadOn s t srcs h extra runs).Inv := by
  grind [Machine.loadOn, State.Inv.loadAnswered, State.Inv.loadIssue, State.Inv]

theorem State.Inv.execTld (hs : s.Inv) (g : Guard) (t : TReg) (a b : Reg) :
    Out.Inv (Machine.execTld g t a b s) := by
  grind [Machine.execTld, State.Inv.checkRuns, State.Inv.stridedRuns, State.Inv.loadIssue,
    State.Inv.tileSteps, State.Inv.loadOn, State.Inv.run, State.Inv, Out.Inv]

theorem State.Inv.execTldi (hs : s.Inv) (g : Guard) (t ti : TReg) (a : Reg) :
    Out.Inv (Machine.execTldi g t ti a s) := by
  grind [Machine.execTldi, State.Inv.checkRuns, State.Inv.loadIssue, State.Inv.indexedRuns,
    State.Inv.loadOn, State.Inv.run, State.Inv.indexedSteps, State.Inv, Out.Inv]

theorem State.Inv.storePause (hs : s.Inv) (c : Cargo) (srcs : List TReg) (extra : List (Nat ×
    Answer)) (on : WaitOn) (n grp : Nat) (runs : List Run) :
    (Machine.storePause s c srcs extra on n grp runs).Inv := by
  grind [Machine.storePause, State.Inv.claimOnce, State.Inv.pin, State.Inv, Res.Inv]

theorem State.Inv.storeStop (hs : s.Inv) (m n grp : Nat) :
    (Machine.storeStop s m n grp).Inv := hs

theorem State.Inv.storeRuns (hs : s.Inv) (c : Cargo) (srcs : List TReg) (extra : List (Nat ×
    Answer)) (grp n : Nat) (l : List Run) :
    (Machine.storeRuns s c srcs extra grp n l).Inv := by
  induction l generalizing s n with
  | nil => grind [Machine.storeRuns, State.Inv.post, State.Inv.claimOnce, State.Inv.pin,
    State.Inv.ask, State.Inv.writeSpad, State.Inv.storePause, State.Inv.address,
    State.Inv.undoClaims, State.Inv.storeStop, State.Inv.endClaims, State.Inv.emptyOnce,
    State.Inv.startWalk, State.Inv.useTlb, State.Inv, Res.Inv]
  | cons x r ih => grind [Machine.storeRuns, State.Inv.post, State.Inv.claimOnce, State.Inv.pin,
    State.Inv.ask, State.Inv.writeSpad, State.Inv.storePause, State.Inv.address,
    State.Inv.undoClaims, State.Inv.storeStop, State.Inv.endClaims, State.Inv.emptyOnce,
    State.Inv.startWalk, State.Inv.useTlb, State.Inv, Res.Inv]

theorem State.Inv.storeFrom (hs : s.Inv) (t : TReg) (srcs : List TReg) (extra : List (Nat ×
    Answer)) (runs : List Run) :
    (Machine.storeFrom s t srcs extra runs).Inv := by
  grind [Machine.storeFrom, State.Inv.storePause, State.Inv.setMe, State.Inv.unlessError,
    State.Inv.undoClaims, State.Inv.storeRuns, State.Inv, Res.Inv]

theorem State.Inv.execTst (hs : s.Inv) (g : Guard) (t : TReg) (a b : Reg) :
    Out.Inv (Machine.execTst g t a b s) := by
  grind [Machine.execTst, State.Inv.checkRuns, State.Inv.stridedRuns, State.Inv.tileSteps,
    State.Inv.storeFrom, State.Inv.run, State.Inv, Out.Inv]

theorem State.Inv.execTsti (hs : s.Inv) (g : Guard) (t ti : TReg) (a : Reg) :
    Out.Inv (Machine.execTsti g t ti a s) := by
  grind [Machine.execTsti, State.Inv.agree, State.Inv.checkRuns, State.Inv.indexedRuns,
    State.Inv.storeFrom, State.Inv.run, State.Inv.indexedSteps, State.Inv, Out.Inv]

/-! ### The Loom instructions at issue -/

theorem State.Inv.loomSteps (hs : s.Inv) (rs : List Reg) {k : State → Nat → Block → Res} (hk : ∀ t0
    x1 x2, t0.Inv → (k t0 x1 x2).Inv) :
    (Machine.loomSteps s rs k).Inv := by
  grind [Machine.loomSteps, State.Inv.tryBlock, State.Inv.operand, State.Inv.consume, State.Inv,
    Res.Inv]

theorem State.Inv.loomRoom (hs : s.Inv) (key : Nat) (b : Block) (c : LoomCmd) (got : List (Nat ×
    Answer)) {k : State → Res} (hk : ∀ t0, t0.Inv → (k t0).Inv) :
    (Machine.loomRoom s key b c got k).Inv := by
  grind [Machine.loomRoom, State.Inv, Res.Inv]

theorem State.Inv.acceptLoom (hs : s.Inv) (key : Nat) (b : Block) (c : LoomCmd) (got : List (Nat ×
    Answer)) {fin : State → Res} (hfin : ∀ t0, t0.Inv → (fin t0).Inv) :
    (Machine.acceptLoom s key b c got fin).Inv := by
  grind [Machine.acceptLoom, State.Inv.loomRoom, State.Inv.draining, State.Inv.loomPush, State.Inv]

theorem State.Inv.loomAddress (hs : s.Inv) (ea : Word) (align : Nat) {k : State → Res} (hk : ∀ t0,
    t0.Inv → (k t0).Inv) :
    (Machine.loomAddress s ea align k).Inv := by
  grind [Machine.loomAddress, State.Inv.address, State.Inv.reserved, State.Inv.misalign, State.Inv,
    Res.Inv]

theorem State.Inv.loomStream (hs : s.Inv) (i : Instr) (f : LoomFmt) (lp : Option (BitVec 3)) (a b :
    Reg) :
    (Machine.loomStream s i f lp a b).Inv := by
  grind [Machine.loomStream, State.Inv.loomSteps, State.Inv.loomAddress, State.Inv.acceptLoom,
    State.Inv.operand, State.Inv, Res.Inv]

theorem State.Inv.execWld (hs : s.Inv) (g : Guard) (fmt : LoomFmt) (lp : Option (BitVec 3)) (a b :
    Reg) :
    Out.Inv (Machine.execWld g fmt lp a b s) := by
  grind [Machine.execWld, State.Inv.run, State.Inv.loomStream, State.Inv, Out.Inv]

theorem State.Inv.execWeft (hs : s.Inv) (g : Guard) (fmt : LoomFmt) (v : Bool) (lp : Option (BitVec
    3)) (a b : Reg) :
    Out.Inv (Machine.execWeft g fmt v lp a b s) := by
  grind [Machine.execWeft, State.Inv.run, State.Inv.loomStream, State.Inv, Out.Inv]

theorem State.Inv.execVrd (hs : s.Inv) (g : Guard) (fmt : LoomFmt) (v : Bool) (a b : Reg) :
    Out.Inv (Machine.execVrd g fmt v a b s) := by
  grind [Machine.execVrd, State.Inv.loomSteps, State.Inv.loomAddress, State.Inv.drew,
    State.Inv.acceptLoom, State.Inv.run, State.Inv.operand, State.Inv, Res.Inv, Out.Inv]

theorem State.Inv.groupFault (hs : s.Inv) (f : LoomFmt) (ea : Word) (i : Nat) (l : List ((Word ×
    Word) × Bool)) {r : Res} (he : Machine.groupFault s f ea i l = some r) :
    r.Inv := by
  induction l generalizing s i with
  | nil => cases he
  | cons x r ih => grind [Machine.groupFault, State.Inv.contain, State.Inv.operand, State.Inv,
    Res.Inv]

theorem State.Inv.lgrpAccept (hs : s.Inv) (i : Instr) (f : LoomFmt) (ea cnt : Word) (n key : Nat)
    (blk : Block) (got : List (Nat × Answer)) :
    (Machine.lgrpAccept s i f ea cnt n key blk got).Inv := by
  grind [Machine.lgrpAccept, State.Inv.groupFault, State.Inv.acceptLoom, State.Inv.operand,
    foldl_inv, State.Inv, Res.Inv]

theorem State.Inv.execLgrp (hs : s.Inv) (g : Guard) (fmt : LoomFmt) (v : Bool) (lp : Option (BitVec
    3)) (a b : Reg) :
    Out.Inv (Machine.execLgrp g fmt v lp a b s) := by
  unfold Machine.execLgrp
  grind [State.Inv.loomSteps, State.Inv.checkRuns, State.Inv.loomAddress, State.Inv.pin,
    State.Inv.readRun, State.Inv.lgrpAccept, State.Inv.run, State.Inv.operand, foldl_inv,
    State.Inv, Res.Inv, Out.Inv, foldl_inv_fst]

theorem State.Inv.execWswap (hs : s.Inv) (g : Guard) :
    Out.Inv (Machine.execWswap g s) := by
  grind [Machine.execWswap, State.Inv.loomSteps, State.Inv.acceptLoom, State.Inv.run, State.Inv,
    Res.Inv, Out.Inv]

theorem State.Inv.execVclr (hs : s.Inv) (g : Guard) (k : Bool) :
    Out.Inv (Machine.execVclr g k s) := by
  grind [Machine.execVclr, State.Inv.loomSteps, State.Inv.acceptLoom, State.Inv.run, State.Inv,
    Res.Inv, Out.Inv]

theorem State.Inv.execVadd (hs : s.Inv) (g : Guard) (k : Bool) (a : Reg) :
    Out.Inv (Machine.execVadd g k a s) := by
  grind [Machine.execVadd, State.Inv.loomSteps, State.Inv.loomAddress, State.Inv.acceptLoom,
    State.Inv.run, State.Inv, Res.Inv, Out.Inv]

theorem State.Inv.execLloop (hs : s.Inv) (g : Guard) (k : BitVec 3) (a : Reg) :
    Out.Inv (Machine.execLloop g k a s) := by
  grind [Machine.execLloop, State.Inv.loomSteps, State.Inv.loomAddress, State.Inv.acceptLoom,
    State.Inv.run, State.Inv, Res.Inv, Out.Inv]

theorem State.Inv.lfutAccept (hs : s.Inv) (i : Instr) (d : Reg) (key : Nat) (blk : Block) (h :
    Word) :
    (Machine.lfutAccept s i d key blk h).Inv := by
  grind [Machine.lfutAccept, State.Inv.loomRoom, State.Inv.endFuture, State.Inv.result,
    State.Inv.dropRef, State.Inv.loomPush, State.Inv]

theorem State.Inv.execLfut (hs : s.Inv) (g : Guard) (d : Reg) :
    Out.Inv (Machine.execLfut g d s) := by
  grind [Machine.execLfut, State.Inv.lfutAccept, State.Inv.loomSteps, State.Inv.exhausted,
    State.Inv.draining, State.Inv.freeUnseen, State.Inv.run, State.Inv.allocate, State.Inv,
    Res.Inv, Out.Inv]

theorem State.Inv.loomRun (hs : s.Inv) :
    (s.loomRun).Inv := hs

theorem State.Inv.loomFlush (hs : s.Inv) (key : Nat) (b : Block) :
    (s.loomFlush key b).Inv := by
  grind [State.loomFlush, State.Inv.setLoomQ, State.Inv.setHead, State.Inv]

theorem State.Inv.execLres (hs : s.Inv) (g : Guard) (a : Reg) :
    Out.Inv (Machine.execLres g a s) := by
  grind [Machine.execLres, State.Inv.loomSteps, State.Inv.loomFlush, State.Inv.run,
    State.Inv.operand, State.Inv.loomRun, State.Inv.loomPop, State.Inv, Res.Inv, Out.Inv]

theorem State.Inv.execLstat (hs : s.Inv) (g : Guard) (d : Reg) :
    Out.Inv (Machine.execLstat g d s) := by
  grind [Machine.execLstat, State.Inv.result, State.Inv.run, State.Inv, Out.Inv]

/-! ### The Scrivener instructions at issue -/

theorem State.Inv.copyChecks (hs : s.Inv) (kind : Nat) (rs : List Reg) {k : State → List Word →
    Res} (hk : ∀ t0 x1, t0.Inv → (k t0 x1).Inv) :
    (Machine.copyChecks s kind rs k).Inv := by
  grind [Machine.copyChecks, State.Inv.address, State.Inv.reserved, State.Inv.misalign,
    State.Inv.operand, State.Inv.consume, State.Inv, Res.Inv]

theorem State.Inv.acceptCopy (hs : s.Inv) (kind : Nat) (ops : List Word) (d : Reg) (key : Nat) (b :
    Block) (h : Word) :
    (Machine.acceptCopy s kind ops d key b h).Inv := by
  grind [Machine.acceptCopy, State.Inv.scrPush, State.Inv.setTag, State.Inv.result, foldl_inv,
    State.Inv, Res.Inv]

theorem State.Inv.copyAt (hs : s.Inv) (kind n : Nat) (d a : Reg) :
    (Machine.copyAt s kind n d a).Inv := by
  grind [Machine.copyAt, State.Inv.tryBlock, State.Inv.exhausted, State.Inv.copyChecks,
    State.Inv.draining, State.Inv.freeUnseen, State.Inv.allocate, State.Inv.acceptCopy,
    State.Inv.operand, State.Inv, Res.Inv]

theorem State.Inv.execCpy (hs : s.Inv) (g : Guard) (d a : Reg) :
    Out.Inv (Machine.execCpy g d a s) := by
  grind [Machine.execCpy, State.Inv.copyAt, State.Inv.run, State.Inv, Out.Inv]

theorem State.Inv.execCpy2 (hs : s.Inv) (g : Guard) (d a : Reg) :
    Out.Inv (Machine.execCpy2 g d a s) := by
  grind [Machine.execCpy2, State.Inv.copyAt, State.Inv.run, State.Inv, Out.Inv]

theorem State.Inv.execCpyg (hs : s.Inv) (g : Guard) (d a : Reg) :
    Out.Inv (Machine.execCpyg g d a s) := by
  grind [Machine.execCpyg, State.Inv.copyAt, State.Inv.run, State.Inv, Out.Inv]

theorem State.Inv.scrFault (hs : s.Inv) (cl q : Nat) (code : Code) (va : Nat) :
    (s.scrFault cl q code va).Inv := by
  grind [State.scrFault, State.Inv.record, State.Inv.setScrLast, State.Inv.setCore, State.Inv]

theorem State.Inv.execCqstat (hs : s.Inv) (g : Guard) (d a : Reg) :
    Out.Inv (Machine.execCqstat g d a s) := by
  grind [Machine.execCqstat, State.Inv.result, State.Inv.run, State.Inv.operand, State.Inv.consume,
    State.Inv, Res.Inv, Out.Inv]

theorem State.Inv.execTdset (hs : s.Inv) (g : Guard) (k : BitVec 5) (a : Reg) :
    Out.Inv (Machine.execTdset g k a s) := by
  grind [Machine.execTdset, State.Inv.setCluster, State.Inv.loadAt, State.Inv.run,
    State.Inv.poisoned, State.Inv.operand, State.Inv, Res.Inv, Out.Inv]

/-! ### Context parts -/

theorem State.Inv.saveArea (hs : s.Inv) (off : Nat) (bs : List Byte) :
    (s.saveArea off bs).Inv := by
  grind [State.saveArea, State.Inv.writeSpad, State.Inv.setTag, foldl_inv, State.Inv]

theorem State.Inv.readArea (hs : s.Inv) (off n : Nat) (control : List Nat) {k : State → List Byte →
    List Bool → Res} (hk : ∀ t0 x1 x2, t0.Inv → (k t0 x1 x2).Inv) :
    (Machine.readArea s off n control k).Inv := by
  grind [Machine.readArea, State.Inv.ownTag, State.Inv.contain, State.Inv.readSpad, State.Inv,
    Res.Inv]

theorem State.Inv.recallLrw (hs : s.Inv) (core slot : Nat) :
    (s.recallLrw core slot).Inv := by
  grind [State.recallLrw, State.Inv.message, State.Inv.setReq, State.Inv]

theorem State.Inv.saveStrand (hs : s.Inv) (slot off : Nat) :
    (s.saveStrand slot off).Inv := by
  grind [State.saveStrand, State.Inv.withdraw, State.Inv.releaseResv, State.Inv.saveArea,
    State.Inv.freeSlot, State.Inv]

theorem State.Inv.loadStrand (hs : s.Inv) (slot : Nat) (bs : List Byte) (ps : List Bool) :
    (s.loadStrand slot bs ps).Inv := hs

theorem State.Inv.setLoom (hs : s.Inv) (m : Loom) :
    (s.setLoom m).Inv := hs

theorem State.Inv.savePart (hs : s.Inv) (w : Word) :
    (Machine.savePart s w).Inv := by
  grind [Machine.savePart, State.Inv.saveStrand, State.Inv.hbmWrite, State.Inv.setMyCore,
    State.Inv.operand, State.Inv.saveArea, State.Inv, Res.Inv]

theorem State.Inv.execCtxsv (hs : s.Inv) (g : Guard) (a : Reg) :
    Out.Inv (Machine.execCtxsv g a s) := by
  grind [Machine.execCtxsv, State.Inv.savePart, State.Inv.draining, State.Inv.run,
    State.Inv.operand, State.Inv.consume, State.Inv, Res.Inv, Out.Inv]

theorem State.Inv.meetRing (hs : s.Inv) (core : Nat) :
    (s.meetRing core).Inv := by
  grind [State.meetRing, State.Inv.meet, foldl_inv, State.Inv]

theorem State.Inv.takeArrived (hs : s.Inv) (idx core : Nat) :
    (s.takeArrived idx core).Inv := by
  grind [State.takeArrived, State.Inv.setCore, State.Inv.ringPut, foldl_inv, State.Inv]

theorem State.Inv.killParked (hs : s.Inv) (idx : Nat) (fw : Word) :
    (s.killParked idx fw).Inv := by
  grind [State.killParked, State.Inv.meetRing, State.Inv.leaveFeed, State.Inv.hbmRead,
    State.Inv.takeArrived, State.Inv.givePark, State.Inv.leaveObject, State.Inv.moveOwner,
    State.Inv.killTask, foldl_inv, State.Inv]

theorem State.Inv.loadSmall (hs : s.Inv) (b : Block) :
    (Machine.loadSmall s b).Inv := by
  grind [Machine.loadSmall, State.Inv.setLoom, State.Inv.contain, State.Inv.hbmRead, State.Inv,
    Res.Inv]

theorem State.Inv.loadPart (hs : s.Inv) (w : Word) :
    (Machine.loadPart s w).Inv := by
  grind [Machine.loadPart, State.Inv.setLoom, State.Inv.killParked, State.Inv.loadStrand,
    State.Inv.setMyCore, State.Inv.loadSmall, State.Inv.readArea, State.Inv.operand,
    State.Inv.killTask, State.Inv, Res.Inv]

theorem State.Inv.execCtxld (hs : s.Inv) (g : Guard) (a : Reg) :
    Out.Inv (Machine.execCtxld g a s) := by
  grind [Machine.execCtxld, State.Inv.loadPart, State.Inv.run, State.Inv.operand,
    State.Inv.consume, State.Inv, Res.Inv, Out.Inv]

/-! ### The rest of major 44 -/

theorem State.Inv.execTrap (hs : s.Inv) (g : Guard) (k : BitVec 5) :
    Out.Inv (Machine.execTrap g k s) := by
  grind [Machine.execTrap, State.Inv.run, State.Inv, Res.Inv, Out.Inv]

theorem State.Inv.eretKill (hs : s.Inv) :
    (Machine.eretKill s).Inv := by
  grind [Machine.eretKill, State.Inv.killStrand, State.Inv.operand, State.Inv.freeSlot, State.Inv,
    Res.Inv]

theorem State.Inv.skipPosted (hs : s.Inv) :
    (s.skipPosted).Inv := by
  grind [State.skipPosted, State.Inv.setMe, State.Inv]

theorem State.Inv.execEret (hs : s.Inv) (g : Guard) :
    Out.Inv (Machine.execEret g s) := by
  grind [Machine.execEret, State.Inv.skipPosted, State.Inv.eretKill, State.Inv.eretReturn,
    State.Inv.run, State.Inv.operand, State.Inv, Res.Inv, Out.Inv]

theorem State.Inv.execWfi (hs : s.Inv) (g : Guard) :
    Out.Inv (Machine.execWfi g s) := by
  grind [Machine.execWfi, State.Inv.run, State.Inv, Res.Inv, Out.Inv]

theorem State.Inv.execDbgb (hs : s.Inv) (g : Guard) (k : BitVec 5) :
    Out.Inv (Machine.execDbgb g k s) := by
  grind [Machine.execDbgb, State.Inv.retire, State.Inv.setMyCore, State.Inv.setMe, State.Inv.run,
    State.Inv, Res.Inv, Out.Inv]

theorem State.Inv.tlbi (hs : s.Inv) (reach kind : Nat) (ctx : BitVec 12) (va : Word) :
    (s.tlbi reach kind ctx va).Inv := hs

theorem State.Inv.execTlbi (hs : s.Inv) (g : Guard) (a b : Reg) :
    Out.Inv (Machine.execTlbi g a b s) := by
  grind [Machine.execTlbi, State.Inv.tlbi, State.Inv.run, State.Inv.operand, State.Inv.consume,
    State.Inv, Res.Inv, Out.Inv]

theorem State.Inv.execModifierWord (hs : s.Inv) (m : MW) :
    Out.Inv (Machine.execModifierWord m s) := by
  grind [Machine.execModifierWord, State.Inv.event, State.Inv, Out.Inv]

/-! ### The snapshot and transaction instructions SNAP, SNAPX, TXB, TXC, TXA and TXS -/

theorem State.Inv.changeSnap (hs : s.Inv) (stamp : Word) {u : State} (he : s.changeSnap stamp =
    some u) :
    u.Inv := by
  unfold State.changeSnap at he
  grind [State.Inv.releaseStamp, State.Inv.setMe, State.Inv.holdStamp, State.Inv,
    Option.map_eq_some_iff]

theorem State.Inv.execSnap (hs : s.Inv) (g : Guard) (d : Reg) :
    Out.Inv (Machine.execSnap g d s) := by
  grind [Machine.execSnap, State.Inv.result, State.Inv.exhausted, State.Inv.run, State.Inv.operand,
    State.Inv.changeSnap, State.Inv, Res.Inv, Out.Inv]

theorem State.Inv.execSnapx (hs : s.Inv) (g : Guard) (a : Reg) :
    Out.Inv (Machine.execSnapx g a s) := by
  grind [Machine.execSnapx, State.Inv.releaseStamp, State.Inv.exhausted, State.Inv.setMe,
    State.Inv.run, State.Inv.operand, State.Inv.consume, State.Inv.changeSnap, State.Inv, Res.Inv,
    Out.Inv]

theorem State.Inv.execTxb (hs : s.Inv) (g : Guard) : Out.Inv (Machine.execTxb g s) := by
  refine hs.run _ _ fun t ht => ?_
  split
  · exact ht.operand _
  · dsimp only
    split
    · exact ht.exhausted _
    · next i s1 hp =>
      split
      · exact ht.exhausted _
      · have ha := (ht.pickFree _ _ hp).allocate t.myCluster 3
        split
        · next h => rw [h] at ha; exact ha.exhausted _
        · next h => 
          rw [h] at ha
          exact ((ha.getD fun _ hc => ha.changeSnap _ hc).setTx ..).setMe _

theorem State.Inv.clearTx (hs : s.Inv) :
    (s.clearTx).Inv := hs

theorem State.Inv.execTxc (hs : s.Inv) (g : Guard) (pd : Pred) :
    Out.Inv (Machine.execTxc g pd s) := by
  grind [Machine.execTxc, State.Inv.endFuture, State.Inv.freeTx, State.Inv.setP, State.Inv.dropRef,
    State.Inv.abortTx, State.Inv.commitTx, State.Inv.clearTx, State.Inv.draining, State.Inv.run,
    State.Inv.operand, State.Inv, Res.Inv, Out.Inv]

theorem State.Inv.execTxa (hs : s.Inv) (g : Guard) :
    Out.Inv (Machine.execTxa g s) := by
  grind [Machine.execTxa, State.Inv.abortTx, State.Inv.clearTx, State.Inv.draining, State.Inv.run,
    State.Inv, Res.Inv, Out.Inv]

theorem State.Inv.execTxs (hs : s.Inv) (g : Guard) (d : Reg) :
    Out.Inv (Machine.execTxs g d s) := by
  grind [Machine.execTxs, State.Inv.result, State.Inv.setMe, State.Inv.run, State.Inv, Out.Inv]

/-! ### LOAD_REPLY -/

theorem State.Inv.resumeInstr (hs : s.Inv) (i : Instr) :
    Out.Inv (Machine.resumeInstr i s) := by
  unfold Machine.resumeInstr
  grind [State.Inv.execBleave, State.Inv.execLdw, State.Inv.execLdp, State.Inv.execTouch,
    State.Inv.execBwait, State.Inv.execStw, State.Inv.execLdaN32, State.Inv.execBarv,
    State.Inv.execTouchq, State.Inv.execFhold, State.Inv.execBexpect, State.Inv.execCasN64,
    State.Inv.execStp, State.Inv.execTsti, State.Inv.execLd, State.Inv.execFpop,
    State.Inv.execTldi, State.Inv.execAmo, State.Inv.execLdaN64, State.Inv.execFstat,
    State.Inv.execLrw, State.Inv.execSch, State.Inv.execXrdF64, State.Inv.execSt,
    State.Inv.execLgrp, State.Inv.execLayout, State.Inv.execLdIndexed, State.Inv.execExit,
    State.Inv.execCancel, State.Inv.execStIndexed, State.Inv.execXclr, State.Inv.execTst,
    State.Inv.event, State.Inv.execCasN32, State.Inv.execXrdF32, State.Inv.execLdN64C16,
    State.Inv.execRed, State.Inv.execStrN64, State.Inv.execFdrop, State.Inv.execStrN32,
    State.Inv.execResolve, State.Inv.execTld, State.Inv.execTdset, State.Inv.execPoison,
    State.Inv.execBjoin, State.Inv.execStN64C16, State.Inv.execTouchC16, State.Inv, Out.Inv]

theorem State.Inv.deliver (hs : s.Inv) (r : Reply) :
    Out.Inv (Machine.deliver s r) := by
  grind [Machine.deliver, State.Inv.resumeInstr, State.Inv.event, State.Inv.setStrand, State.Inv,
    Out.Inv]

theorem State.Inv.execLoadReply (hs : s.Inv) (id : Nat) :
    Out.Inv (Machine.execLoadReply id s) := by
  grind [Machine.execLoadReply, State.Inv.event, State.Inv.deliver, State.Inv, Out.Inv]

/-! ### The events of cores and Reeves -/

theorem State.Inv.execTimerExpiry (hs : s.Inv) (core : Nat) :
    Out.Inv (Machine.execTimerExpiry core s) := by
  grind [Machine.execTimerExpiry, State.Inv.setCore, State.Inv.event, State.Inv, Out.Inv]

theorem State.Inv.execStoreErrorReport (hs : s.Inv) (core : Nat) :
    Out.Inv (Machine.execStoreErrorReport core s) := by
  grind [Machine.execStoreErrorReport, State.Inv.reportError, State.Inv.event, State.Inv, Out.Inv]

theorem State.Inv.bound (hs : s.Inv) (core : Nat) :
    (s.bound core).Inv := hs

theorem State.Inv.bindResume (hs : s.Inv) (core slot : Nat) (d : Desc) :
    (s.bindResume core slot d).Inv := by
  grind [State.bindResume, State.Inv.bound, State.Inv.place, State.Inv.record, State.Inv.hbmRead,
    State.Inv.givePark, State.Inv.moveOwner, State.Inv]

theorem State.Inv.releaseDesc (hs : s.Inv) (d : Desc) :
    (s.releaseDesc d).Inv := by
  grind [State.releaseDesc, State.Inv.releaseStamp, State.Inv]

theorem State.Inv.bindFresh (hs : s.Inv) (core slot : Nat) (d : Desc) :
    (s.bindFresh core slot d).Inv := by
  grind [State.bindFresh, State.Inv.bound, State.Inv.place, State.Inv.releaseDesc,
    State.Inv.dropRef, State.Inv.count, State.Inv.startFuture, State.Inv]

theorem State.Inv.prefetchFault (hs : s.Inv) (cl core : Nat) (d : Desc) (code : Code) (va : Nat) :
    (s.prefetchFault cl core d code va).Inv := by
  grind [State.prefetchFault, State.Inv.endFuture, State.Inv.releaseDesc, State.Inv.scrFault,
    State.Inv.setCore, State.Inv.dropRef, State.Inv]

theorem State.Inv.tilePush (hs : s.Inv) (key : Nat) (b : Block) (c : CopyCmd) :
    (s.tilePush key b c).Inv := by
  grind [State.tilePush, State.Inv.scrPush, State.Inv.setTag, foldl_inv, State.Inv]

theorem State.Inv.beginPrefetch (hs : s.Inv) (core slot : Nat) (d : Desc) :
    (s.beginPrefetch core slot d).Inv := by
  grind [State.beginPrefetch, State.Inv.tryBlock, State.Inv.prefetchFault, State.Inv.tilePush,
    State.Inv.setCore, foldl_inv, State.Inv]

theorem State.Inv.bindNext (hs : s.Inv) (core : Nat) :
    (s.bindNext core).Inv := by
  grind [State.bindNext, State.Inv.bindFresh, State.Inv.beginPrefetch, State.Inv.setCore,
    State.Inv.choose, State.Inv.bindResume, State.Inv]

theorem State.Inv.bind (hs : s.Inv) (core : Nat) :
    (s.bind core).Inv := by
  grind [State.bind, State.Inv.bindNext, State.Inv.bindFresh, State.Inv.setCore, State.Inv]

theorem State.Inv.execBindTask (hs : s.Inv) (core : Nat) :
    Out.Inv (Machine.execBindTask core s) := by
  grind [Machine.execBindTask, State.Inv.bind, State.Inv.event, State.Inv, Out.Inv]

theorem State.Inv.probes (hs : s.Inv) (core n j : Nat) :
    (s.probes core n j).2.Inv := by
  induction n generalizing s j with
  | zero => exact hs
  | succ n ih => grind [State.probes, State.Inv.setCore, State.Inv]

theorem State.Inv.stealRound (hs : s.Inv) (core : Nat) :
    (s.stealRound core).Inv := by
  grind [State.stealRound, State.Inv.probes, State.Inv.setCore, State.Inv]

theorem State.Inv.execStealRound (hs : s.Inv) (core : Nat) :
    Out.Inv (Machine.execStealRound core s) := by
  grind [Machine.execStealRound, State.Inv.stealRound, State.Inv.event, State.Inv, Out.Inv]

theorem State.Inv.refillDeque (hs : s.Inv) (core n : Nat) :
    (s.refillDeque core n).Inv := by
  induction n generalizing s with
  | zero => exact hs
  | succ n ih => grind [State.refillDeque, State.Inv.ringGet, State.Inv.setCore, State.Inv]

theorem State.Inv.execDequeRefill (hs : s.Inv) (core : Nat) :
    Out.Inv (Machine.execDequeRefill core s) := by
  grind [Machine.execDequeRefill, State.Inv.refillDeque, State.Inv.event, State.Inv, Out.Inv]

theorem State.Inv.refillArrivals (hs : s.Inv) (core : Nat) :
    (s.refillArrivals core).Inv := by
  grind [State.refillArrivals, State.Inv.ringGet, State.Inv.setCore, State.Inv]

theorem State.Inv.execArrivalRefill (hs : s.Inv) (core : Nat) :
    Out.Inv (Machine.execArrivalRefill core s) := by
  grind [Machine.execArrivalRefill, State.Inv.refillArrivals, State.Inv.event, State.Inv, Out.Inv]

theorem State.Inv.resendArrival (hs : s.Inv) (core : Nat) :
    (s.resendArrival core).Inv := by
  grind [State.resendArrival, State.Inv.arrive, State.Inv.setCore, State.Inv]

theorem State.Inv.execArrivalResend (hs : s.Inv) (core : Nat) :
    Out.Inv (Machine.execArrivalResend core s) := by
  grind [Machine.execArrivalResend, State.Inv.event, State.Inv.resendArrival, State.Inv, Out.Inv]

theorem State.Inv.execDoomNotice (hs : s.Inv) (index : Nat) :
    Out.Inv (Machine.execDoomNotice index s) := by
  grind [Machine.execDoomNotice, State.Inv.event, State.Inv.setStrand, State.Inv, Out.Inv]

theorem State.Inv.execGleanerVisit (hs : s.Inv) (line : Nat) :
    Out.Inv (Machine.execGleanerVisit line s) := by
  grind [Machine.execGleanerVisit, State.Inv.event, State.Inv.glean, State.Inv, Out.Inv]

theorem State.Inv.execPoolWaitTimeout (hs : s.Inv) (id : Nat) :
    Out.Inv (Machine.execPoolWaitTimeout id s) := by
  grind [Machine.execPoolWaitTimeout, State.Inv.answerReq, State.Inv.event, State.Inv, Out.Inv]

theorem State.Inv.execReservationExpiry (hs : s.Inv) (line : Nat) :
    Out.Inv (Machine.execReservationExpiry line s) := by
  grind [Machine.execReservationExpiry, State.Inv.grant, State.Inv.tally, State.Inv.event,
    State.Inv, Out.Inv]

theorem State.Inv.failReq (hs : s.Inv) (r : Req) :
    (s.failReq r).Inv := by
  grind [State.failReq, State.Inv.finishReq, State.Inv.record, State.Inv]

theorem State.Inv.failStore (hs : s.Inv) (core : Nat) (e : WbEntry) (code : Code) :
    (s.failStore core e code).Inv := by
  grind [State.failStore, State.Inv.accepted, State.Inv.storeError, State.Inv]

theorem State.Inv.execRemoteRequestTimeout (hs : s.Inv) (id : Nat) :
    Out.Inv (Machine.execRemoteRequestTimeout id s) := by
  grind [Machine.execRemoteRequestTimeout, State.Inv.failStore, State.Inv.event, State.Inv.failReq,
    State.Inv, Out.Inv]

theorem State.Inv.deliverWalk (hs : s.Inv) (ctx : BitVec 12) (g : Nat) (w : WalkOut) (who : Nat ×
    Nat × Nat) :
    (s.deliverWalk ctx g w who).Inv := by
  grind [State.deliverWalk, State.Inv.setStrand, State.Inv]

theorem State.Inv.cacheLeaf (hs : s.Inv) (ctx : BitVec 12) (g : Nat) (l : Leaf) (core : Nat) :
    (s.cacheLeaf ctx g l core).Inv := hs

theorem State.Inv.execTableWalkComplete (hs : s.Inv) (cluster : Nat) (ctx : BitVec 12) (granule :
    BitVec 40) :
    Out.Inv (Machine.execTableWalkComplete cluster ctx granule s) := by
  grind [Machine.execTableWalkComplete, State.Inv.setCluster, State.Inv.cacheLeaf,
    State.Inv.deliverWalk, State.Inv.event, State.Inv.walkRoot, State.Inv.prefetchLine, foldl_inv,
    State.Inv, Out.Inv]

theorem State.Inv.execFutureEntryFill (hs : s.Inv) (cluster slot : Nat) :
    Out.Inv (Machine.execFutureEntryFill cluster slot s) := by
  grind [Machine.execFutureEntryFill, State.Inv.fill, State.Inv.event, State.Inv, Out.Inv]

theorem Served.Inv.apply {x : Served} (hx : x.Inv) (r : Req) :
    (Served.apply x r).Inv := by
  unfold Served.apply
  grind [State.Inv.answerReq, State.Inv, Served.Inv]

theorem State.Inv.storeEvent (hs : s.Inv) (id : Nat) (here : Place → Bool) :
    (s.storeEvent id here).Inv := by
  grind [State.storeEvent, State.Inv.applyStore, State.Inv]

theorem State.Inv.execScratchpadRequest (hs : s.Inv) (id : Nat) :
    Out.Inv (Machine.execScratchpadRequest id s) := by
  grind [Machine.execScratchpadRequest, State.Inv.serveSpad, Served.Inv.apply,
    State.Inv.storeEvent, State.Inv.event, State.Inv, Served.Inv, Out.Inv]

theorem State.Inv.execRedMergeGroupApply (hs : s.Inv) (id : Nat) :
    Out.Inv (Machine.execRedMergeGroupApply id s) := by
  grind [Machine.execRedMergeGroupApply, State.Inv.applyGroup, State.Inv.event, State.Inv, Out.Inv]

/-! ### How the engines reach memory -/

theorem State.Inv.engLeaf (hs : s.Inv) (core : Nat) (root : Word) (va : Nat) :
    (s.engLeaf core root va).2.Inv := by
  grind [State.engLeaf, State.Inv.choose, State.Inv.walkRoot, State.Inv]

theorem State.Inv.engineAsk (hs : s.Inv) (x : CopyCtx) (elem : Nat) (op : ReqOp) (place : Place)
    (addr pa va n : Nat) (ver : Bool) :
    (s.engineAsk x elem op place addr pa va n ver).Inv := by
  unfold State.engineAsk
  grind [State.Inv.sendReq, State.Inv]

theorem State.Inv.engineAskFar (hs : s.Inv) (x : CopyCtx) (elem : Nat) (op : ReqOp) (ver : Bool)
    (pa va n : Nat) :
    (s.engineAskFar x elem op ver pa va n).Inv := by
  grind [State.engineAskFar, State.Inv.engineAsk, State.Inv]

theorem State.Inv.engineAskSpad (hs : s.Inv) (x : CopyCtx) (elem core off va n : Nat) :
    (s.engineAskSpad x elem core off va n).Inv := by
  grind [State.engineAskSpad, State.Inv.engineAsk, State.Inv]

theorem State.Inv.dropAnswers (hs : s.Inv) (x : CopyCtx) :
    (s.dropAnswers x).Inv := hs

theorem State.Inv.withdrawAsks (hs : s.Inv) (x : CopyCtx) :
    (s.withdrawAsks x).Inv := hs

theorem State.Inv.loomSpot (hs : s.Inv) (c : LoomCmd) (need : Need) (ea : Word) (n wa : Nat) :
    (s.loomSpot c need ea n wa).2.Inv := by
  grind [State.loomSpot, State.Inv.engLeaf, State.Inv]

theorem State.Inv.loomRow (hs : s.Inv) (c : LoomCmd) (need : Need) (ea : Word) (n : Nat) (l : List
    Nat) :
    (s.loomRow c need ea n l).2.2.Inv := by
  induction l generalizing s with
  | nil => exact hs
  | cons x r ih => grind [State.loomRow, State.Inv.loomSpot, State.Inv]

theorem State.Inv.checkRowWord (hs : s.Inv) (w : RowWord) :
    (s.checkRowWord w).Inv := by
  grind [State.checkRowWord, State.Inv.checkTag, State.Inv]

theorem State.Inv.readRowWord (hs : s.Inv) (core : Nat) (w : RowWord) :
    (s.readRowWord core w).2.2.Inv := by
  grind [State.readRowWord, State.Inv.flushLine, State.Inv.portRead, State.Inv.readSpad, State.Inv]

theorem State.Inv.askRowWord (hs : s.Inv) (core : Nat) (w : RowWord) :
    (s.askRowWord core w).Inv := by
  grind [State.askRowWord, State.Inv.engineAskSpad, State.Inv]

theorem State.Inv.readWords (hs : s.Inv) (core : Nat) (acc : List Byte) (l : List RowWord) :
    (s.readWords core acc l).2.2.Inv := by
  induction l generalizing s acc with
  | nil => exact hs
  | cons x r ih => grind [State.readWords, State.Inv.readRowWord, State.Inv]

theorem State.Inv.readRow (hs : s.Inv) (c : LoomCmd) (ea : Word) (n : Nat) :
    (s.readRow c ea n).Inv := by
  grind [State.readRow, State.Inv.checkRowWord, State.Inv.readWords, State.Inv.loomRow, foldl_inv,
    State.Inv, RowRead.Inv]

theorem State.Inv.writeRowWord (hs : s.Inv) (w : RowWord) (bs : List Byte) :
    (s.writeRowWord w bs).Inv := by
  grind [State.writeRowWord, State.Inv.flushLine, State.Inv.cacheAccess, State.Inv.setSpadPois,
    State.Inv.writeSpad, State.Inv.writeHbm, State.Inv.engineTouch, State.Inv]

theorem State.Inv.writeWords (hs : s.Inv) (bs : List Byte) (l : List RowWord) :
    (s.writeWords bs l).Inv := by
  induction l generalizing s bs with
  | nil => exact hs
  | cons x r ih => grind [State.writeWords, State.Inv.writeRowWord, State.Inv]

theorem State.Inv.writeRow (hs : s.Inv) (c : LoomCmd) (ea : Word) (bs : List Byte) :
    (s.writeRow c ea bs).2.Inv := by
  grind [State.writeRow, State.Inv.writeWords, State.Inv.loomRow, State.Inv]

theorem State.Inv.firstOnV (hs : s.Inv) (core : Nat) (root : Word) (l : List Nat) :
    (s.firstOnV core root l).2.Inv := by
  induction l generalizing s with
  | nil => exact hs
  | cons x r ih => grind [State.firstOnV, State.Inv.engLeaf, State.Inv]

/-! ### The Loom's sequencer -/

theorem State.Inv.putLoom (hs : s.Inv) (core : Nat) (m : Loom) :
    (s.putLoom core m).Inv := hs

theorem State.Inv.putVat (hs : s.Inv) (core v : Nat) (x : Vat) :
    (s.putVat core v x).Inv := hs

theorem State.Inv.loomRows (hs : s.Inv) (c : LoomCmd) (g len : Nat) (ea : Nat → Word) {act : State
    → Nat → List Byte → State} (hact : ∀ t0 x1 x2, t0.Inv → (act t0 x1 x2).Inv) (n k : Nat) (b :
    Option Nat) :
    (Machine.loomRows c g len ea act n k b s).1.Inv := by
  induction n generalizing s k b with
  | zero => exact hs
  | succ n ih =>
    have hr := hs.readRow c (ea k) len
    grind [Machine.loomRows, RowRead.Inv, LRes.Inv]

theorem State.Inv.early (hs : s.Inv) (c : Code) (g : Nat) :
    (Machine.early s c g).Inv := hs

theorem State.Inv.loadShadow (hs : s.Inv) (core : Nat) (f : LoomFmt) (k : Nat) (bs : List Byte) :
    (s.loadShadow core f k bs).Inv := hs

theorem State.Inv.runWld (hs : s.Inv) (c : LoomCmd) (f : LoomFmt) (lp : Option (BitVec 3)) (k :
    Nat) (b : Option Nat) :
    (Machine.runWld s c f lp k b).Inv := by
  grind [Machine.runWld, State.Inv.early, State.Inv.loomRows, State.Inv.putLoom,
    State.Inv.loadShadow, State.Inv]

theorem State.Inv.runWeft (hs : s.Inv) (c : LoomCmd) (f : LoomFmt) (v : Nat) (lp : Option (BitVec
    3)) (k : Nat) (b : Option Nat) :
    (Machine.runWeft s c f v lp k b).Inv := by
  grind [Machine.runWeft, State.Inv.early, State.Inv.loomRows, State.Inv.putVat, State.Inv]

theorem State.Inv.runVadd (hs : s.Inv) (c : LoomCmd) (v k : Nat) (b : Option Nat) :
    (Machine.runVadd s c v k b).Inv := by
  grind [Machine.runVadd, State.Inv.loomRows, State.Inv.putVat, State.Inv]

theorem State.Inv.runGroups (hs : s.Inv) (c : LoomCmd) (f : LoomFmt) (v : Nat) (l : List (Word ×
    Word)) (g k base : Nat) (b : Option Nat) :
    (Machine.runGroups c f v l g k base b s).Inv := by
  induction l generalizing s g k base b with
  | nil => exact hs
  | cons x r ih => grind [Machine.runGroups, State.Inv.early, State.Inv.loomRows, State.Inv.putVat,
    State.Inv, LRes.Inv]

theorem State.Inv.runLgrp (hs : s.Inv) (c : LoomCmd) (f : LoomFmt) (v : Nat) (lp : Option (BitVec
    3)) (g k : Nat) (b : Option Nat) :
    (Machine.runLgrp s c f v lp g k b).Inv := by
  grind [Machine.runLgrp, State.Inv.early, State.Inv.runGroups, foldl_inv, State.Inv]

theorem State.Inv.runLloop (hs : s.Inv) (c : LoomCmd) (k : Nat) :
    (Machine.runLloop s c k).Inv := by
  have hr := hs.readRow c c.a 8
  unfold Machine.runLloop
  grind [State.Inv.putLoom, RowRead.Inv, LRes.Inv]

theorem State.Inv.vrdRows (hs : s.Inv) (c : LoomCmd) (f : LoomFmt) (v n k : Nat) (b : Option Nat) :
    (Machine.vrdRows c f v n k b s).Inv := by
  induction n generalizing s k b with
  | zero => exact hs
  | succ n ih => grind [Machine.vrdRows, State.Inv.writeRow, LRes.Inv]

theorem State.Inv.runVrd (hs : s.Inv) (c : LoomCmd) (f : LoomFmt) (v k : Nat) (b : Option Nat) :
    (Machine.runVrd s c f v k b).Inv := by
  grind [Machine.runVrd, State.Inv.vrdRows, State.Inv.firstOnV, State.Inv, LRes.Inv]

theorem State.Inv.runLoom (hs : s.Inv) (c : LoomCmd) (g k : Nat) (b : Option Nat) :
    (Machine.runLoom s c g k b).Inv := by
  grind [Machine.runLoom, State.Inv.runVrd, State.Inv.runLloop, State.Inv.runWeft,
    State.Inv.runVadd, State.Inv.putLoom, State.Inv.putVat, State.Inv.runLgrp, State.Inv.runWld,
    State.Inv, LRes.Inv]

theorem State.Inv.meetProgress (hs : s.Inv) (o : Nat) (c : LoomCmd) :
    (s.meetProgress o c).Inv := by
  grind [State.meetProgress, State.Inv.meet, State.Inv]

theorem State.Inv.markPart (hs : s.Inv) (key : Nat) :
    (s.markPart key).Inv := hs

theorem State.Inv.writeProgress (hs : s.Inv) (key o : Nat) (w : BitVec 32) (x : LStop) :
    (s.writeProgress key o w x).Inv := by
  grind [State.writeProgress, State.Inv.markPart, State.Inv.hbmWrite, State.Inv]

theorem State.Inv.poisonMarkers (hs : s.Inv) (key : Nat) (fw : Word) :
    (s.poisonMarkers key fw).Inv := by
  grind [State.poisonMarkers, State.Inv.endFuture, State.Inv.dropRef, State.Inv.setLoomQ,
    foldl_inv, State.Inv]

theorem State.Inv.loomFault (hs : s.Inv) (core key : Nat) (b : Block) (w : BitVec 32) (x : LStop) :
    (s.loomFault core key b w x).Inv := by
  grind [State.loomFault, State.Inv.writeProgress, State.Inv.record, State.Inv.setCore,
    State.Inv.poisonMarkers, State.Inv]

theorem State.Inv.loomPaused (hs : s.Inv) (core : Nat) :
    (s.loomPaused core).Inv := hs

theorem State.Inv.reachMarker (hs : s.Inv) (key : Nat) (c : LoomCmd) :
    (s.reachMarker key c).Inv := by
  grind [State.reachMarker, State.Inv.endFuture, State.Inv.dropRef, State.Inv.loomPop,
    State.Inv.startFuture, State.Inv]

theorem State.Inv.loomDone (hs : s.Inv) (key : Nat) (c : LoomCmd) :
    (s.loomDone key c).Inv := by
  grind [State.loomDone, State.Inv.reachMarker, State.Inv.loomPop, State.Inv]

theorem State.Inv.loomStep (hs : s.Inv) (core : Nat) : (s.loomStep core).Inv := by
  unfold State.loomStep
  split
  · exact hs
  · next key b c hd =>
    have hp := hs.meetProgress b.off c
    dsimp only
    generalize s.meetProgress b.off c = t at hp ⊢
    obtain ⟨g, k⟩ := t.resumePoint b.off c
    have hl := hp.runLoom c g k none
    dsimp only
    split
    · next u e => rw [e] at hl; exact State.Inv.loomDone (State.Inv.dropAnswers hl _) ..
    · next u x e => rw [e] at hl; exact State.Inv.loomFault (State.Inv.withdrawAsks hl _) ..
    · exact foldl_inv hp fun _ _ ht => ht.askRowWord ..

theorem State.Inv.loomEvent (hs : s.Inv) (core : Nat) (mine : Instr → Bool) :
    Out.Inv (Machine.loomEvent core mine s) := by
  grind [Machine.loomEvent, State.Inv.event, State.Inv.loomStep, State.Inv, Out.Inv]

theorem State.Inv.execLoomCmdWld (hs : s.Inv) (core : Nat) :
    Out.Inv (Machine.execLoomCmdWld core s) := by
  grind [Machine.execLoomCmdWld, State.Inv.loomEvent, State.Inv, Out.Inv]

theorem State.Inv.execLoomCmdWswap (hs : s.Inv) (core : Nat) :
    Out.Inv (Machine.execLoomCmdWswap core s) := by
  grind [Machine.execLoomCmdWswap, State.Inv.loomEvent, State.Inv, Out.Inv]

theorem State.Inv.execLoomCmdVclr (hs : s.Inv) (core : Nat) :
    Out.Inv (Machine.execLoomCmdVclr core s) := by
  grind [Machine.execLoomCmdVclr, State.Inv.loomEvent, State.Inv, Out.Inv]

theorem State.Inv.execLoomCmdWeft (hs : s.Inv) (core : Nat) :
    Out.Inv (Machine.execLoomCmdWeft core s) := by
  grind [Machine.execLoomCmdWeft, State.Inv.loomEvent, State.Inv, Out.Inv]

theorem State.Inv.execLoomCmdVadd (hs : s.Inv) (core : Nat) :
    Out.Inv (Machine.execLoomCmdVadd core s) := by
  grind [Machine.execLoomCmdVadd, State.Inv.loomEvent, State.Inv, Out.Inv]

theorem State.Inv.execLoomCmdLgrp (hs : s.Inv) (core : Nat) :
    Out.Inv (Machine.execLoomCmdLgrp core s) := by
  grind [Machine.execLoomCmdLgrp, State.Inv.loomEvent, State.Inv, Out.Inv]

theorem State.Inv.execLoomCmdLloop (hs : s.Inv) (core : Nat) :
    Out.Inv (Machine.execLoomCmdLloop core s) := by
  grind [Machine.execLoomCmdLloop, State.Inv.loomEvent, State.Inv, Out.Inv]

theorem State.Inv.execLoomCmdVrd (hs : s.Inv) (core : Nat) :
    Out.Inv (Machine.execLoomCmdVrd core s) := by
  grind [Machine.execLoomCmdVrd, State.Inv.loomEvent, State.Inv, Out.Inv]

theorem State.Inv.execLoomMarker (hs : s.Inv) (core : Nat) :
    Out.Inv (Machine.execLoomMarker core s) := by
  grind [Machine.execLoomMarker, State.Inv.reachMarker, State.Inv.event, State.Inv, Out.Inv]

theorem State.Inv.loomPause (hs : s.Inv) (core rows : Nat) : (s.loomPause core rows).Inv := by
  unfold State.loomPause
  dsimp only
  split
  · grind [State.Inv.loomPaused]
  · split
    · exact hs.loomPaused _
    · next key b c hd =>
      have hp := hs.meetProgress b.off c
      generalize s.meetProgress b.off c = t at hp ⊢
      obtain ⟨g, k⟩ := t.resumePoint b.off c
      have hl := hp.runLoom c g k (some rows)
      grind [LRes.Inv, State.Inv.withdrawAsks, State.Inv.writeProgress, State.Inv.loomPaused,
        State.Inv.loomFault, State.Inv.loomDone]

theorem State.Inv.execLoomPause (hs : s.Inv) (core rows : Nat) :
    Out.Inv (Machine.execLoomPause core rows s) := by
  grind [Machine.execLoomPause, State.Inv.event, State.Inv.loomPause, State.Inv, Out.Inv]

/-! ### The Scrivener at work -/

theorem State.Inv.copySpot (hs : s.Inv) (x : CopyCtx) (need : Need) (va : Nat) :
    (s.copySpot x need va).2.Inv := by
  grind [State.copySpot, State.Inv.engLeaf, State.Inv]

theorem State.Inv.copyFetch (hs : s.Inv) (sp : EngSpot) (n : Nat) :
    (s.copyFetch sp n).2.2.Inv := by
  unfold State.copyFetch
  grind [State.Inv.flushLine, State.Inv.portRead, State.Inv.readHost, State.Inv.readSpad, State.Inv]

theorem State.Inv.copyReads (hs : s.Inv) (x : CopyCtx) (own : List (Nat × Nat)) (cls n : Nat) (acc
    : ReadList) (waits : Bool) (l : List Nat) :
    (s.copyReads x own cls n acc waits l).Inv := by
  induction l generalizing s acc waits with
  | nil => grind [State.copyReads, State.Inv.engineAskFar, State.Inv.copySpot, State.Inv.checkTag,
    State.Inv.engineAskSpad, State.Inv.copyFetch, State.Inv, CopyRead.Inv, CopyRead.Inv]
  | cons x r ih => grind [State.copyReads, State.Inv.engineAskFar, State.Inv.copySpot,
    State.Inv.checkTag, State.Inv.engineAskSpad, State.Inv.copyFetch, State.Inv, CopyRead.Inv,
    CopyRead.Inv]

theorem State.Inv.copyStores (hs : s.Inv) (x : CopyCtx) (vals : ReadList) (l : List CopyWord) :
    (s.copyStores x vals l).2.2.Inv := by
  induction l generalizing s with
  | nil => exact hs
  | cons x r ih => grind [State.copyStores, State.Inv.copySpot, State.Inv]

theorem State.Inv.copyStore (hs : s.Inv) (w : CopyStore) :
    (s.copyStore w).Inv := by
  grind [State.copyStore, State.Inv.flushLine, State.Inv.cacheAccess, State.Inv.setSpadPois,
    State.Inv.writeSpad, State.Inv.setTag, State.Inv.writeHbm, State.Inv.engineTouch,
    State.Inv.putBytes, State.Inv]

theorem State.Inv.copyFar (hs : s.Inv) (x : CopyCtx) (l : List CopyStore) :
    (s.copyFar x l).2.Inv := by
  induction l generalizing s with
  | nil => exact hs
  | cons x r ih => grind [State.copyFar, State.Inv.engineAskFar, State.Inv]

theorem State.Inv.moveWords (hs : s.Inv) (x : CopyCtx) (own : List (Nat × Nat)) (ws : List
    CopyWord) :
    (s.moveWords x own ws).Inv := by
  have hr := hs.copyReads x own 0 8 [] false (copySources ws)
  unfold State.moveWords
  split
  · next e => rw [e] at hr; exact hr
  · next e => rw [e] at hr; exact hr
  · next vals t e =>
    rw [e] at hr
    have hw := State.Inv.copyStores hr x vals ws
    generalize t.copyStores x vals ws = y at hw ⊢
    obtain ⟨l, f, u⟩ := y
    have hf := State.Inv.copyFar hw x l
    dsimp only
    split
    · next e => rw [e] at hf; exact hf
    · next v e =>
      rw [e] at hf
      have hk : (l.foldl State.copyStore v).Inv := foldl_inv hf fun _ _ h => h.copyStore _
      grind [CopyRes.Inv]

theorem State.Inv.gatherWords (hs : s.Inv) (x : CopyCtx) (c : CopyCmd) {k : State → List CopyWord →
    CopyRes} (hk : ∀ t0 x1, t0.Inv → (k t0 x1).Inv) :
    (s.gatherWords x c k).Inv := by
  have hr := hs.copyReads x c.emptied 1 (indexSize (opOf c.ops 3)) [] false (indexAddrs c.ops)
  unfold State.gatherWords
  split
  · next e => rw [e] at hr; exact hr
  · next e => rw [e] at hr; exact hr
  · next e =>
    rw [e] at hr
    split
    · exact hr
    · dsimp only
      split
      · exact hr
      · exact hk _ _ hr

theorem State.Inv.runCopy (hs : s.Inv) (x : CopyCtx) (c : CopyCmd) :
    (s.runCopy x c).Inv := by
  grind [State.runCopy, State.Inv.moveWords, State.Inv.gatherWords, State.Inv.firstOnV, State.Inv,
    CopyRes.Inv]

theorem State.Inv.spoilRest (hs : s.Inv) (words : List (Nat × Nat)) (written : List CopyStore) :
    (s.spoilRest words written).Inv := by
  grind [State.spoilRest, State.Inv.spoilWord, foldl_inv, State.Inv]

theorem State.Inv.scrServed (hs : s.Inv) (cl q : Nat) :
    (s.scrServed cl q).Inv := hs

theorem State.Inv.beginHead (hs : s.Inv) (key : Nat) :
    (s.beginHead key).Inv := hs

theorem State.Inv.copyWaits (hs : s.Inv) {t : State} (_ : t.Inv) {u : State} (hu : u.Inv) (key :
    Nat) :
    (s.copyWaits t u key).Inv := by
  grind [State.copyWaits, State.Inv.beginHead, State.Inv]

theorem State.Inv.serveCopy (hs : s.Inv) (cl q key : Nat) (c : CopyCmd) :
    (s.serveCopy cl q key c).Inv := by
  have ht := hs.startFuture c.fut
  unfold State.serveCopy
  dsimp only
  split
  · exact ((ht.dropCopy _).scrPop _).dropRef _
  · have hm := State.Inv.runCopy ht ⟨c.core, c.xroot, c.user, cl, q, c.fut.toNat⟩ c
    split
    · next e => rw [e] at hm; exact hs.copyWaits ht hm _
    · next e => rw [e] at hm; exact ((((State.Inv.dropAnswers hm _).scrPop _).endFuture ..).dropRef
        _).scrServed ..
    · next e => 
      rw [e] at hm
      exact (((((State.Inv.withdrawAsks hm _).spoilRest ..).scrFault ..).scrPop _).endFuture
        ..).dropRef _ |>.scrServed ..

theorem State.Inv.scrEvent (hs : s.Inv) (cl q kind : Nat) :
    (s.scrEvent cl q kind).Inv := by
  grind [State.scrEvent, State.Inv.serveCopy, State.Inv]

theorem State.Inv.execScrivenerCpy (hs : s.Inv) (cluster q : Nat) :
    Out.Inv (Machine.execScrivenerCpy cluster q s) := by
  grind [Machine.execScrivenerCpy, State.Inv.scrEvent, State.Inv.event, State.Inv, Out.Inv]

theorem State.Inv.execScrivenerCpy2 (hs : s.Inv) (cluster q : Nat) :
    Out.Inv (Machine.execScrivenerCpy2 cluster q s) := by
  grind [Machine.execScrivenerCpy2, State.Inv.scrEvent, State.Inv.event, State.Inv, Out.Inv]

theorem State.Inv.execScrivenerCpyg (hs : s.Inv) (cluster q : Nat) :
    Out.Inv (Machine.execScrivenerCpyg cluster q s) := by
  grind [Machine.execScrivenerCpyg, State.Inv.scrEvent, State.Inv.event, State.Inv, Out.Inv]

theorem State.Inv.execScrivenerPause (hs : s.Inv) (core : Nat) :
    Out.Inv (Machine.execScrivenerPause core s) := by
  grind [Machine.execScrivenerPause, State.Inv.setCore, State.Inv.event, State.Inv, Out.Inv]

theorem State.Inv.serveTile (hs : s.Inv) (cl key : Nat) (c : CopyCmd) :
    (s.serveTile cl key c).Inv := by
  unfold State.serveTile
  have hg := (hs.spoilRest c.emptied []).scrPop key
  dsimp only
  split
  · exact hg.scrServed ..
  · exact (hg.scrServed ..).prefetchFault ..
  · next d b n _ _ =>
    have hm := hs.moveWords ⟨c.core, c.xroot, true, cl, 24, 32 * c.fut.toNat + n⟩ c.emptied
      (tileWords (c.tile.getD 0) (opOf c.ops 0))
    split
    · next e => rw [e] at hm; exact hs.copyWaits hs hm _
    · next u e => rw [e] at hm; exact (((State.Inv.dropAnswers hm _).scrPop _).scrServed
        ..).setCore ..
    · next u e => 
      rw [e] at hm
      exact ((((State.Inv.withdrawAsks hm _).spoilRest ..).scrPop _).scrServed ..).prefetchFault ..

theorem State.Inv.execTilePrefetch (hs : s.Inv) (cluster : Nat) :
    Out.Inv (Machine.execTilePrefetch cluster s) := by
  grind [Machine.execTilePrefetch, State.Inv.event, State.Inv.serveTile, State.Inv, Out.Inv]

/-! ### Dispatch -/

theorem State.Inv.setQueue (hs : s.Inv) (n : Nat) (q : HQueue) :
    (s.setQueue n q).Inv := hs

theorem State.Inv.setDisp (hs : s.Inv) (d : Dispatch) :
    (s.setDisp d).Inv := hs

theorem State.Inv.refuse (hs : s.Inv) (code : Code) (off : Nat) :
    (s.refuse code off).Inv := hs

theorem State.Inv.dispRead (hs : s.Inv) (pa n : Nat) :
    (s.dispRead pa n).2.2.Inv := by
  grind [State.dispRead, State.Inv.flushLine, State.Inv.portRead, State.Inv.readHost, State.Inv]

theorem State.Inv.dispWrite (hs : s.Inv) (pa : Nat) (bs : List Byte) :
    (s.dispWrite pa bs).Inv := by
  grind [State.dispWrite, State.Inv.flushLine, State.Inv.cacheAccess, State.Inv.settle,
    State.Inv.record, State.Inv.writeHbm, State.Inv.engineTouch, State.Inv.errand,
    State.Inv.putBytes, State.Inv]

theorem State.Inv.putRecord (hs : s.Inv) (n : Nat) (t : BitVec 32) (ws : List Word) (code : Code)
    (v : Word) :
    (s.putRecord n t ws code v).Inv := by
  grind [State.putRecord, State.Inv.dispWrite, State.Inv]

theorem State.Inv.completeRing (hs : s.Inv) (n era : Nat) (t : BitVec 32) (ws : List Word) (k :
    Nat) (code : Code) (v : Word) :
    (s.completeRing n era t ws k code v).Inv := by
  grind [State.completeRing, State.Inv.setQueue, State.Inv.putRecord, State.Inv]

theorem State.Inv.settleBuffers (hs : s.Inv) (n : Nat) :
    (s.settleBuffers n).Inv := by
  grind [State.settleBuffers, State.Inv.setQueue, State.Inv.completeRing, foldl_inv, State.Inv]

theorem State.Inv.completePacket (hs : s.Inv) (n era : Nat) (t : BitVec 32) (inner : Option Nat)
    (ws : List Word) (k : Nat) (code : Code) (v : Word) :
    (s.completePacket n era t inner ws k code v).Inv := by
  unfold State.completePacket
  grind [State.Inv.setQueue, State.Inv.completeRing, State.Inv.settleBuffers, State.Inv]

theorem State.Inv.refillHeap (hs : s.Inv) (n : Nat) :
    (s.refillHeap n).Inv := by
  induction n generalizing s with
  | zero => exact hs
  | succ n ih => grind [State.refillHeap, State.Inv.setDisp, State.Inv]

theorem State.Inv.unadmit (hs : s.Inv) (n : Nat) :
    (s.unadmit n).Inv := by
  grind [State.unadmit, State.Inv.setQueue, State.Inv.setDisp, State.Inv.refillHeap, State.Inv]

theorem State.Inv.stopQueue (hs : s.Inv) (n era : Nat) (t : BitVec 32) (inner : Option Nat) (ws :
    Option (List Word)) (code : Code) (v : Word) (skip : Nat × Nat) (taken : Bool) :
    (s.stopQueue n era t inner ws code v skip taken).Inv := by
  unfold State.stopQueue
  grind [State.Inv.setQueue, State.Inv.unadmit, State.Inv.record, State.Inv.settleBuffers,
    State.Inv.putRecord, State.Inv]

theorem State.Inv.skipStop (hs : s.Inv) (n : Nat) :
    (s.skipStop n).Inv := by
  grind [State.skipStop, State.Inv.setQueue, State.Inv.settleBuffers, State.Inv]

theorem State.Inv.retryStop (hs : s.Inv) (n : Nat) :
    (s.retryStop n).Inv := hs

theorem State.Inv.resetStop (hs : s.Inv) (n : Nat) :
    (s.resetStop n).Inv := by
  grind [State.resetStop, State.Inv.setQueue, State.Inv.settleBuffers, State.Inv]

theorem State.Inv.writeControl (hs : s.Inv) (n : Nat) (v : Word) :
    (s.writeControl n v).Inv := by
  grind [State.writeControl, State.Inv.refuse, State.Inv.retryStop, State.Inv.skipStop,
    State.Inv.resetStop, State.Inv]

theorem State.Inv.writeTail (hs : s.Inv) (n : Nat) (v : Word) :
    (s.writeTail n v).Inv := by
  grind [State.writeTail, State.Inv.stopQueue, State.Inv.setQueue, State.Inv.refuse, State.Inv]

theorem State.Inv.writeBase (hs : s.Inv) (n : Nat) (v : Word) :
    (s.writeBase n v).Inv := by
  grind [State.writeBase, State.Inv.setQueue, State.Inv.refuse, State.Inv]

theorem State.Inv.writeCbase (hs : s.Inv) (n : Nat) (v : Word) :
    (s.writeCbase n v).Inv := by
  grind [State.writeCbase, State.Inv.setQueue, State.Inv.refuse, State.Inv]

theorem State.Inv.disableQueue (hs : s.Inv) (n : Nat) :
    (s.disableQueue n).Inv := by
  grind [State.disableQueue, State.Inv.setQueue, State.Inv.unadmit, State.Inv.settleBuffers,
    State.Inv]

theorem State.Inv.enableQueue (hs : s.Inv) (n : Nat) :
    (s.enableQueue n).Inv := hs

theorem State.Inv.writeWord4 (hs : s.Inv) (n : Nat) (v : Word) :
    (s.writeWord4 n v).Inv := by
  grind [State.writeWord4, State.Inv.setQueue, State.Inv.enableQueue, State.Inv.refuse,
    State.Inv.disableQueue, State.Inv]

theorem State.Inv.writeQueue (hs : s.Inv) (who : Agent) (n k : Nat) (v : Word) :
    (s.writeQueue who n k v).Inv := by
  grind [State.writeQueue, State.Inv.writeWord4, State.Inv.refuse, State.Inv.writeControl,
    State.Inv.writeBase, State.Inv.writeCbase, State.Inv.writeTail, State.Inv]

theorem State.Inv.execTailWrite (hs : s.Inv) (who : Agent) (q bytes : Nat) (v : Word) :
    Out.Inv (Machine.execTailWrite who q bytes v s) := by
  grind [Machine.execTailWrite, State.Inv.writeQueue, State.Inv.refuse, State.Inv.event, State.Inv,
    Out.Inv]

theorem State.Inv.execQueueEnable (hs : s.Inv) (who : Agent) (q : Nat) (v : Word) :
    Out.Inv (Machine.execQueueEnable who q v s) := by
  grind [Machine.execQueueEnable, State.Inv.writeQueue, State.Inv.event, State.Inv, Out.Inv]

theorem State.Inv.execQueueDisable (hs : s.Inv) (who : Agent) (q : Nat) (v : Word) :
    Out.Inv (Machine.execQueueDisable who q v s) := by
  grind [Machine.execQueueDisable, State.Inv.writeQueue, State.Inv.event, State.Inv, Out.Inv]

theorem State.Inv.execQueueSkip (hs : s.Inv) (who : Agent) (q : Nat) :
    Out.Inv (Machine.execQueueSkip who q s) := by
  grind [Machine.execQueueSkip, State.Inv.writeQueue, State.Inv.event, State.Inv, Out.Inv]

theorem State.Inv.execQueueRetry (hs : s.Inv) (who : Agent) (q : Nat) :
    Out.Inv (Machine.execQueueRetry who q s) := by
  grind [Machine.execQueueRetry, State.Inv.writeQueue, State.Inv.event, State.Inv, Out.Inv]

theorem State.Inv.execQueueReset (hs : s.Inv) (who : Agent) (q : Nat) :
    Out.Inv (Machine.execQueueReset who q s) := by
  grind [Machine.execQueueReset, State.Inv.writeQueue, State.Inv.event, State.Inv, Out.Inv]

theorem State.Inv.passPacket (hs : s.Inv) (n : Nat) (c : Cur) (k : Nat) :
    (s.passPacket n c k).Inv := by
  grind [State.passPacket, State.Inv.setQueue, State.Inv]

theorem State.Inv.readPackets (hs : s.Inv) (n : Nat) (c : Cur) (k : Nat) :
    (s.readPackets n c k).2.2.Inv := by
  induction k generalizing s with
  | zero => exact hs
  | succ n ih => grind [State.readPackets, State.Inv.dispRead, State.Inv]

theorem State.Inv.headPacket (hs : s.Inv) (n : Nat) {y0 : Cur} {y1 : List Word} {y2 : Bool} {u :
    State} (he : s.headPacket n = some (y0, y1, y2, u)) :
    u.Inv := by
  grind [State.headPacket, State.Inv.readPackets, State.Inv]

theorem State.Inv.packetEvent (hs : s.Inv) (n : Nat) (op : Nat → Bool) {k : State → Cur → List Word
    → State} (hk : ∀ t0 x1 x2, t0.Inv → (k t0 x1 x2).Inv) :
    (s.packetEvent n op k).Inv := by
  grind [State.packetEvent, State.Inv.stopQueue, State.Inv.headPacket, State.Inv]

theorem State.Inv.finishPacket (hs : s.Inv) (n : Nat) (c : Cur) (ws : List Word) (span : Nat) (code
    : Code) (v : Word) :
    (s.finishPacket n c ws span code v).Inv := by
  grind [State.finishPacket, State.Inv.completePacket, State.Inv.passPacket, State.Inv]

theorem State.Inv.execUnknownOpcode (hs : s.Inv) (q : Nat) :
    Out.Inv (Machine.execUnknownOpcode q s) := by
  grind [Machine.execUnknownOpcode, State.Inv.record, State.Inv.finishPacket, State.Inv.event,
    State.Inv.packetEvent, State.Inv, Out.Inv]

theorem State.Inv.execFencePacket (hs : s.Inv) (q : Nat) :
    Out.Inv (Machine.execFencePacket q s) := by
  grind [Machine.execFencePacket, State.Inv.finishPacket, State.Inv.event, State.Inv.packetEvent,
    State.Inv, Out.Inv]

theorem State.Inv.execIndirect (hs : s.Inv) (q : Nat) :
    Out.Inv (Machine.execIndirect q s) := by
  grind [Machine.execIndirect, State.Inv.setQueue, State.Inv.passPacket, State.Inv.event,
    State.Inv.packetEvent, State.Inv, Out.Inv]

theorem State.Inv.retest (hs : s.Inv) :
    (s.retest).Inv := by
  grind [State.retest, State.Inv.completePacket, State.Inv.setDisp, foldl_inv, State.Inv]

theorem State.Inv.setSem (hs : s.Inv) (i : Nat) (v : Word) :
    (s.setSem i v).Inv := by
  grind [State.setSem, State.Inv.setDisp, State.Inv.retest, State.Inv]

theorem State.Inv.execSemwait (hs : s.Inv) (q : Nat) :
    Out.Inv (Machine.execSemwait q s) := by
  grind [Machine.execSemwait, State.Inv.passPacket, State.Inv.setDisp, State.Inv.finishPacket,
    State.Inv.event, State.Inv.packetEvent, State.Inv, Out.Inv]

theorem State.Inv.execSemsig (hs : s.Inv) (q : Nat) :
    Out.Inv (Machine.execSemsig q s) := by
  grind [Machine.execSemsig, State.Inv.setSem, State.Inv.finishPacket, State.Inv.event,
    State.Inv.packetEvent, State.Inv, Out.Inv]

theorem State.Inv.writeSem (hs : s.Inv) (who : Agent) (i : Nat) (v : Word) :
    (s.writeSem who i v).Inv := by
  unfold State.writeSem
  grind [State.Inv.refuse, State.Inv.setSem, State.Inv]

theorem State.Inv.execSemaphoreWrite (hs : s.Inv) (who : Agent) (i bytes : Nat) (v : Word) :
    Out.Inv (Machine.execSemaphoreWrite who i bytes v s) := by
  grind [Machine.execSemaphoreWrite, State.Inv.writeSem, State.Inv.refuse, State.Inv.event,
    State.Inv, Out.Inv]

theorem State.Inv.requestCores (hs : s.Inv) (mask : Nat) :
    (s.requestCores mask).Inv := by
  grind [State.requestCores, State.Inv.setCore, foldl_inv, State.Inv]

theorem State.Inv.execIntr (hs : s.Inv) (q : Nat) :
    Out.Inv (Machine.execIntr q s) := by
  grind [Machine.execIntr, State.Inv.setDisp, State.Inv.finishPacket, State.Inv.event,
    State.Inv.packetEvent, State.Inv.requestCores, State.Inv, Out.Inv]

theorem State.Inv.dropFutwait (hs : s.Inv) (seq : Nat) :
    (s.dropFutwait seq).Inv := hs

theorem State.Inv.staleFutwait (hs : s.Inv) (j : Job) :
    (s.staleFutwait j).Inv := by
  grind [State.staleFutwait, State.Inv.stopQueue, State.Inv.dropFutwait, State.Inv]

theorem State.Inv.bareFutwait (hs : s.Inv) (j : Job) :
    (s.bareFutwait j).Inv := by
  grind [State.bareFutwait, State.Inv.stopQueue, State.Inv.dropFutwait, State.Inv]

theorem State.Inv.endFutwait (hs : s.Inv) (j : Job) (v : Word) (ok : Bool) :
    (s.endFutwait j v ok).Inv := by
  grind [State.endFutwait, State.Inv.stopQueue, State.Inv.setQueue, State.Inv.dropFutwait,
    State.Inv.completePacket, State.Inv]

theorem State.Inv.registerFutwait (hs : s.Inv) (j : Job) :
    (s.registerFutwait j).Inv := by
  grind [State.registerFutwait, State.Inv.joinChain, State.Inv.sendReq, State.Inv.bareFutwait,
    State.Inv.touchPort, State.Inv.find, State.Inv.setDisp, State.Inv.endFutwait,
    State.Inv.staleFutwait, State.Inv]

theorem State.Inv.answerFutwait (hs : s.Inv) (j : Job) :
    (s.answerFutwait j).Inv := by
  grind [State.answerFutwait, State.Inv.endFutwait, State.Inv.staleFutwait, State.Inv]

theorem State.Inv.execFutwait (hs : s.Inv) (q : Nat) :
    Out.Inv (Machine.execFutwait q s) := by
  grind [Machine.execFutwait, State.Inv.registerFutwait, State.Inv.passPacket, State.Inv.event,
    State.Inv.packetEvent, State.Inv.answerFutwait, State.Inv, Out.Inv]

theorem State.Inv.givePopper (hs : s.Inv) (p : Word × Nat) (v : Word) :
    (s.givePopper p v).Inv := by
  grind [State.givePopper, State.Inv.newId, State.Inv.deliverRecord, State.Inv]

theorem State.Inv.feedPoppers (hs : s.Inv) (f n : Nat) :
    (s.feedPoppers f n).Inv := by
  induction n generalizing s with
  | zero => exact hs
  | succ n ih => grind [State.feedPoppers, State.Inv.popFeed, State.Inv.setFeed,
    State.Inv.givePopper, State.Inv]

theorem State.Inv.appendRecords (hs : s.Inv) (f : Nat) (l : List Word) :
    (s.appendRecords f l).Inv := by
  induction l generalizing s with
  | nil => exact hs
  | cons x r ih => grind [State.appendRecords, State.Inv.hbmWrite, State.Inv.setFeed, State.Inv]

theorem State.Inv.execFeed (hs : s.Inv) (q : Nat) :
    Out.Inv (Machine.execFeed q s) := by
  grind [Machine.execFeed, State.Inv.stopQueue, State.Inv.finishPacket, State.Inv.feedPoppers,
    State.Inv.event, State.Inv.packetEvent, State.Inv.appendRecords, State.Inv, Out.Inv]

theorem State.Inv.disableFeed (hs : s.Inv) (f : Nat) :
    (s.disableFeed f).Inv := by
  grind [State.disableFeed, State.Inv.setFeed, State.Inv.givePopper, foldl_inv, State.Inv]

theorem State.Inv.writeFeed (hs : s.Inv) (who : Agent) (f k : Nat) (v : Word) :
    (s.writeFeed who f k v).Inv := by
  grind [State.writeFeed, State.Inv.disableFeed, State.Inv.refuse, State.Inv.setFeed, State.Inv]

theorem State.Inv.execFeedQueueEnable (hs : s.Inv) (who : Agent) (f : Nat) (v : Word) :
    Out.Inv (Machine.execFeedQueueEnable who f v s) := by
  grind [Machine.execFeedQueueEnable, State.Inv.event, State.Inv.writeFeed, State.Inv, Out.Inv]

theorem State.Inv.execFeedQueueDisable (hs : s.Inv) (who : Agent) (f : Nat) (v : Word) :
    Out.Inv (Machine.execFeedQueueDisable who f v s) := by
  grind [Machine.execFeedQueueDisable, State.Inv.event, State.Inv.writeFeed, State.Inv, Out.Inv]

theorem State.Inv.epoch (hs : s.Inv) (n : Nat) :
    (s.epoch n).Inv := by
  grind [State.epoch, State.Inv.setQueue, State.Inv]

theorem State.Inv.enterHeap (hs : s.Inv) (j : Job) :
    (s.enterHeap j).Inv := by
  grind [State.enterHeap, State.Inv.setDisp, State.Inv.refillHeap, State.Inv]

theorem State.Inv.execHeapAdmit (hs : s.Inv) (q : Nat) :
    Out.Inv (Machine.execHeapAdmit q s) := by
  grind [Machine.execHeapAdmit, State.Inv.setQueue, State.Inv.enterHeap, State.Inv.event,
    State.Inv.packetEvent, State.Inv.epoch, State.Inv, Out.Inv]

theorem State.Inv.passJob (hs : s.Inv) (j : Job) :
    (s.passJob j).Inv := by
  grind [State.passJob, State.Inv.passPacket, State.Inv]

theorem State.Inv.takeJob (hs : s.Inv) (j : Job) :
    (s.takeJob j).Inv := by
  grind [State.takeJob, State.Inv.stopQueue, State.Inv.setDisp, State.Inv.refillHeap,
    State.Inv.passJob, State.Inv]

theorem State.Inv.execHeapTake (hs : s.Inv) :
    Out.Inv (Machine.execHeapTake s) := by
  grind [Machine.execHeapTake, State.Inv.takeJob, State.Inv.event, State.Inv, Out.Inv]

theorem State.Inv.setLaunch (hs : s.Inv) (j : Job) :
    (s.setLaunch j).Inv := hs

theorem State.Inv.placeIn (hs : s.Inv) (j : Job) (cl : Nat) :
    (s.placeIn j cl).Inv := by
  grind [State.placeIn, State.Inv.setLaunch, State.Inv.pushDeque, State.Inv.allocate, State.Inv]

theorem State.Inv.tryLaunch (hs : s.Inv) (j : Job) :
    (s.tryLaunch j).Inv := by
  grind [State.tryLaunch, State.Inv.stopQueue, State.Inv.setLaunch, State.Inv.setDisp,
    State.Inv.placeIn, State.Inv]

theorem State.Inv.execLaunch (hs : s.Inv) (seq : Nat) :
    Out.Inv (Machine.execLaunch seq s) := by
  grind [Machine.execLaunch, State.Inv.tryLaunch, State.Inv.event, State.Inv, Out.Inv]

theorem State.Inv.execLaunchPlacement (hs : s.Inv) (seq : Nat) :
    Out.Inv (Machine.execLaunchPlacement seq s) := by
  grind [Machine.execLaunchPlacement, State.Inv.tryLaunch, State.Inv.event, State.Inv, Out.Inv]

theorem State.Inv.execLaunchComplete (hs : s.Inv) (seq : Nat) :
    Out.Inv (Machine.execLaunchComplete seq s) := by
  grind [Machine.execLaunchComplete, State.Inv.completePacket, State.Inv.setDisp,
    State.Inv.dropRef, State.Inv.event, State.Inv, Out.Inv]

theorem State.Inv.packetTimeout (hs : s.Inv) (q : Nat) (c : Cur) :
    (s.packetTimeout q c).Inv := by
  grind [State.packetTimeout, State.Inv.stopQueue, State.Inv]

theorem State.Inv.copyTimeout (hs : s.Inv) (j : Job) :
    (s.copyTimeout j).Inv := by
  grind [State.copyTimeout, State.Inv.stopQueue, State.Inv.setDisp, State.Inv]

theorem State.Inv.execHostReadTimeout (hs : s.Inv) (q : Nat) :
    Out.Inv (Machine.execHostReadTimeout q s) := by
  grind [Machine.execHostReadTimeout, State.Inv.packetTimeout, State.Inv.choose, State.Inv.event,
    State.Inv.copyTimeout, State.Inv, Out.Inv]

/-! ### The device-register region -/

theorem State.Inv.countDenied (hs : s.Inv) (ws : List Nat) :
    (s.countDenied ws).Inv := by
  grind [State.countDenied, State.Inv.refuse, foldl_inv, State.Inv]

theorem State.Inv.replay (hs : s.Inv) (b : Nat) :
    (s.replay b).Inv := by
  grind [State.replay, State.Inv]

theorem State.Inv.flitErrors (hs : s.Inv) (l : Nat) :
    (s.flitErrors l).Inv := by
  grind [State.flitErrors, State.Inv.setLink, State.Inv]

theorem State.Inv.warm (hs : s.Inv) (k : Nat) :
    (s.warm k).Inv := hs

theorem State.Inv.meetEntry (hs : s.Inv) (cl slot : Nat) :
    (s.meetEntry cl slot).Inv := by
  grind [State.meetEntry, State.Inv.meet, State.Inv]

theorem State.Inv.drift (hs : s.Inv) (w : Nat) : (s.drift w).Inv := by
  unfold State.drift
  split
  · grind [State.Inv.replay, State.Inv.flitErrors, State.Inv.warm]
  · split
    · exact hs
    · dsimp only
      split
      · exact hs.meetEntry ..
      · split
        · exact hs.meetEntry ..
        · exact hs
  · exact hs

theorem State.Inv.devRead (hs : s.Inv) (who : Agent) (o n : Nat) :
    (s.devRead who o n).2.Inv := by
  grind [State.devRead, State.Inv.countDenied, State.Inv.drift, foldl_inv, State.Inv]

theorem State.Inv.resend (hs : s.Inv) :
    (s.resend).Inv := by
  grind [State.resend, State.Inv.sendReq, State.Inv.pumpCore, foldl_inv, State.Inv]

theorem State.Inv.wakeParked (hs : s.Inv) (cl m n : Nat) :
    (s.wakeParked cl m n).Inv := by
  induction n generalizing s with
  | zero => exact hs
  | succ n ih => grind [State.wakeParked, State.Inv.setCluster, State.Inv.wake, State.Inv]

theorem State.Inv.writeRoute (hs : s.Inv) (who : Agent) (m : Nat) (v : Word) :
    (s.writeRoute who m v).Inv := by
  grind [State.writeRoute, State.Inv.resend, State.Inv.refuse, State.Inv.setAllow,
    State.Inv.wakeParked, foldl_inv, State.Inv]

theorem State.Inv.execRouteWordWrite (hs : s.Inv) (who : Agent) (m bytes : Nat) (v : Word) :
    Out.Inv (Machine.execRouteWordWrite who m bytes v s) := by
  grind [Machine.execRouteWordWrite, State.Inv.writeRoute, State.Inv.refuse, State.Inv.event,
    State.Inv, Out.Inv]

theorem State.Inv.writeRange (hs : s.Inv) (who : Agent) (q w : Nat) (v : Word) :
    (s.writeRange who q w v).Inv := by
  grind [State.writeRange, State.Inv.setPort, State.Inv.record, State.Inv]

theorem State.Inv.execRangeRegisterWrite (hs : s.Inv) (who : Agent) (port word bytes : Nat) (v :
    Word) :
    Out.Inv (Machine.execRangeRegisterWrite who port word bytes v s) := by
  grind [Machine.execRangeRegisterWrite, State.Inv.record, State.Inv.event, State.Inv.writeRange,
    State.Inv, Out.Inv]

theorem State.Inv.writeVersionReg (hs : s.Inv) (who : Agent) (i : Nat) (v : Word) :
    (s.writeVersionReg who i v).Inv := by
  grind [State.writeVersionReg, State.Inv.refuse, State.Inv]

theorem State.Inv.execVersionPoolWrite (hs : s.Inv) (who : Agent) (reg bytes : Nat) (v : Word) :
    Out.Inv (Machine.execVersionPoolWrite who reg bytes v s) := by
  grind [Machine.execVersionPoolWrite, State.Inv.refuse, State.Inv.writeVersionReg,
    State.Inv.event, State.Inv, Out.Inv]

theorem State.Inv.writeDrain (hs : s.Inv) (who : Agent) (o : Nat) (v : Word) :
    (s.writeDrain who o v).Inv := by
  grind [State.writeDrain, State.Inv.refuse, State.Inv]

theorem State.Inv.execDrainWrite (hs : s.Inv) (who : Agent) (off : Nat) (v : Word) :
    Out.Inv (Machine.execDrainWrite who off v s) := by
  grind [Machine.execDrainWrite, State.Inv.writeDrain, State.Inv.event, State.Inv, Out.Inv]

theorem State.Inv.writeAccept (hs : s.Inv) (who : Agent) (i : Nat) (v : Word) :
    (s.writeAccept who i v).Inv := by
  grind [State.writeAccept, State.Inv.refuse, State.Inv]

theorem State.Inv.execFeatureAcceptWrite (hs : s.Inv) (who : Agent) (i : Nat) (v : Word) :
    Out.Inv (Machine.execFeatureAcceptWrite who i v s) := by
  grind [Machine.execFeatureAcceptWrite, State.Inv.writeAccept, State.Inv.event, State.Inv, Out.Inv]

theorem State.Inv.startCore (hs : s.Inv) (n : Nat) :
    (s.startCore n).Inv := hs

theorem State.Inv.startDie (hs : s.Inv) (d : Nat) :
    (s.startDie d).Inv := by
  grind [State.startDie, State.Inv.setCluster, State.Inv.startCore, foldl_inv, State.Inv]

theorem State.Inv.writeStart (hs : s.Inv) (who : Agent) (v : Word) :
    (s.writeStart who v).Inv := by
  grind [State.writeStart, State.Inv.startDie, State.Inv.refuse, foldl_inv, State.Inv]

theorem State.Inv.execDieStart (hs : s.Inv) (who : Agent) (v : Word) :
    Out.Inv (Machine.execDieStart who v s) := by
  grind [Machine.execDieStart, State.Inv.writeStart, State.Inv.event, State.Inv, Out.Inv]

theorem State.Inv.writeBoot (hs : s.Inv) (who : Agent) (o : Nat) (v : Word) :
    (s.writeBoot who o v).Inv := by
  grind [State.writeBoot, State.Inv.refuse, State.Inv]

theorem State.Inv.writeWindow (hs : s.Inv) (who : Agent) (i : Nat) (v : Word) :
    (s.writeWindow who i v).Inv := by
  grind [State.writeWindow, State.Inv.refuse, State.Inv]

theorem State.Inv.writeControlBlock (hs : s.Inv) (who : Agent) (o : Nat) (v : Word) :
    (s.writeControlBlock who o v).Inv := by
  grind [State.writeControlBlock, State.Inv.writeAccept, State.Inv.writeDrain, State.Inv.refuse,
    State.Inv.writeStart, State.Inv.writeWindow, State.Inv.writeBoot, State.Inv]

theorem State.Inv.haltSlot (hs : s.Inv) (core slot : Nat) :
    (s.haltSlot core slot).Inv := by
  grind [State.haltSlot, State.Inv.withdraw, State.Inv.setStrand, State.Inv]

theorem State.Inv.resumeSlot (hs : s.Inv) (core slot : Nat) :
    (s.resumeSlot core slot).Inv := by
  grind [State.resumeSlot, State.Inv.setStrand, State.Inv]

theorem State.Inv.setDebug (hs : s.Inv) (core : Nat) (v : Word) :
    (s.setDebug core v).Inv := by
  grind [State.setDebug, State.Inv.scrUnpause, State.Inv.haltSlot, State.Inv.setCore,
    State.Inv.resumeSlot, foldl_inv, State.Inv]

theorem State.Inv.writeDebug (hs : s.Inv) (who : Agent) (core : Nat) (v : Word) :
    (s.writeDebug who core v).Inv := by
  grind [State.writeDebug, State.Inv.refuse, State.Inv.setDebug, State.Inv]

theorem State.Inv.writeInterrupt (hs : s.Inv) (who : Agent) (core : Nat) :
    (s.writeInterrupt who core).Inv := by
  grind [State.writeInterrupt, State.Inv.refuse, State.Inv.setCore, State.Inv]

theorem State.Inv.execInterruptWordWrite (hs : s.Inv) (who : Agent) (core : Nat) :
    Out.Inv (Machine.execInterruptWordWrite who core s) := by
  grind [Machine.execInterruptWordWrite, State.Inv.writeInterrupt, State.Inv.event, State.Inv,
    Out.Inv]

theorem State.Inv.execDebugHalt (hs : s.Inv) (who : Agent) (core slot : Nat) :
    Out.Inv (Machine.execDebugHalt who core slot s) := by
  grind [Machine.execDebugHalt, State.Inv.event, State.Inv.writeDebug, State.Inv, Out.Inv]

theorem State.Inv.execDebugResume (hs : s.Inv) (who : Agent) (core slot : Nat) :
    Out.Inv (Machine.execDebugResume who core slot s) := by
  grind [Machine.execDebugResume, State.Inv.event, State.Inv.writeDebug, State.Inv, Out.Inv]

theorem State.Inv.execDebugDtrapClear (hs : s.Inv) (who : Agent) (core : Nat) :
    Out.Inv (Machine.execDebugDtrapClear who core s) := by
  grind [Machine.execDebugDtrapClear, State.Inv.event, State.Inv.writeDebug, State.Inv, Out.Inv]

theorem State.Inv.execDebugQuiesce (hs : s.Inv) (who : Agent) (core : Nat) (sq lq : Bool) :
    Out.Inv (Machine.execDebugQuiesce who core sq lq s) := by
  grind [Machine.execDebugQuiesce, State.Inv.event, State.Inv.writeDebug, State.Inv, Out.Inv]

theorem State.Inv.devWriteWord (hs : s.Inv) (who : Agent) (o : Nat) (v : Word) :
    (s.devWriteWord who o v).Inv := by
  grind [State.devWriteWord, State.Inv.writeQueue, State.Inv.writeRoute, State.Inv.writeSem,
    State.Inv.writeInterrupt, State.Inv.refuse, State.Inv.writeVersionReg,
    State.Inv.writeControlBlock, State.Inv.writeDebug, State.Inv.writeFeed, State.Inv.writeRange,
    State.Inv]

theorem State.Inv.storeBytes (hs : s.Inv) (who : Agent) (o : Nat) (bs : List Byte) :
    (s.storeBytes who o bs).Inv := by
  unfold State.storeBytes
  grind [State.Inv.refuse, State.Inv.putBytes, State.Inv]

theorem State.Inv.writeStore (hs : s.Inv) (who : Agent) (o : Nat) (bs : List Byte) :
    (s.writeStore who o bs).Inv := by
  grind [State.writeStore, State.Inv.refuse, State.Inv.storeBytes, State.Inv]

theorem State.Inv.devWrite (hs : s.Inv) (who : Agent) (o : Nat) (bs : List Byte) :
    (s.devWrite who o bs).Inv := by
  grind [State.devWrite, State.Inv.writeInterrupt, State.Inv.refuse, State.Inv.devWriteWord,
    State.Inv.record, State.Inv.writeStore, State.Inv]

theorem State.Inv.storePieces (hs : s.Inv) (who : Agent) (o : Nat) (bs : List Byte) (n : Nat) :
    (s.storePieces who o bs n).Inv := by
  induction n generalizing s o bs with
  | zero => exact hs
  | succ n ih => grind [State.storePieces, State.Inv.devWrite, State.Inv.storeBytes, State.Inv]

theorem State.Inv.execRegisterWrite (hs : s.Inv) (who : Agent) (off bytes : Nat) (v : List Byte) :
    Out.Inv (Machine.execRegisterWrite who off bytes v s) := by
  grind [Machine.execRegisterWrite, State.Inv.storePieces, State.Inv.event, State.Inv.devWrite,
    State.Inv, Out.Inv]

theorem State.Inv.hostRead (hs : s.Inv) (r : HostRead) :
    (s.hostRead r).Inv := by
  grind [State.hostRead, State.Inv.devRead, State.Inv]

theorem State.Inv.takeHostRead (hs : s.Inv) :
    Out.Inv (Machine.takeHostRead s) := by
  grind [Machine.takeHostRead, State.Inv.hostRead, State.Inv.event, State.Inv, Out.Inv]

theorem State.Inv.paReads (hs : s.Inv) (j : Job) (acc : ReadList) (waits : Bool) (l : List Nat) :
    (s.paReads j acc waits l).Inv := by
  induction l generalizing s acc waits with
  | nil => grind [State.paReads, State.Inv.engineAskFar, State.Inv.devRead, State.Inv.dispRead,
    State.Inv, CopyRead.Inv, CopyRead.Inv]
  | cons x r ih => grind [State.paReads, State.Inv.engineAskFar, State.Inv.devRead,
    State.Inv.dispRead, State.Inv, CopyRead.Inv, CopyRead.Inv]

theorem State.Inv.paWrites (hs : s.Inv) (j : Job) (l : List (Nat × Nat)) :
    (s.paWrites j l).2.Inv := by
  induction l generalizing s with
  | nil => exact hs
  | cons x r ih => grind [State.paWrites, State.Inv.engineAskFar, State.Inv.dispWrite,
    State.Inv.devWrite, State.Inv]

theorem State.Inv.dropCopyJob (hs : s.Inv) (j : Job) :
    (s.dropCopyJob j).Inv := hs

theorem State.Inv.runPaCopy (hs : s.Inv) (j : Job) : (s.runPaCopy j).Inv := by
  unfold State.runPaCopy
  dsimp only
  split
  · exact (hs.dropCopyJob j).stopQueue ..
  · have hr := hs.paReads j [] false ((List.range ((j.words.getD 4 0).toNat / 8)).map fun i =>
      (j.words.getD 3 0).toNat + 8 * i)
    split
    · next t e => rw [e] at hr; split
                  · exact hs
                  · exact hr
    · next t e => rw [e] at hr; exact hr
    · next vals t e =>
      rw [e] at hr
      have hw := State.Inv.paWrites hr j (copyStored (j.words.getD 2 0).toNat t.fresh vals)
      split
      · split <;> exact hs
      · next u e => 
        rw [e] at hw
        have hd : (State.dropCopyJob { u with fresh := u.fresh + (j.words.getD 4 0).toNat / 8 }
          j).Inv := State.Inv.dropCopyJob hw j
        split
        · exact hd.stopQueue ..
        · exact hd.completePacket ..

theorem State.Inv.execCopy (hs : s.Inv) (seq : Nat) :
    Out.Inv (Machine.execCopy seq s) := by
  grind [Machine.execCopy, State.Inv.event, State.Inv.runPaCopy, State.Inv, Out.Inv]

/-! ### The fabric -/

theorem State.Inv.remoteReq (hs : s.Inv) (p : Packet) (op : ReqOp) (size : Nat) :
    (s.remoteReq p op size).Inv := by
  unfold State.remoteReq
  grind [State.Inv.serveHbm, State.Inv.answerReq, State.Inv.devRead, Served.Inv.apply,
    State.Inv.devWrite, foldl_inv, State.Inv, Served.Inv]

theorem State.Inv.onPacket (hs : s.Inv) (p : Packet) (op : PktOp) {k : State} (hk : k.Inv) :
    Out.Inv (s.onPacket p op k) := by
  grind [State.onPacket, State.Inv.event, State.Inv, Out.Inv]

theorem State.Inv.execFabricRead (hs : s.Inv) (p : Packet) :
    Out.Inv (Machine.execFabricRead p s) := by
  grind [Machine.execFabricRead, State.Inv.onPacket, State.Inv.remoteReq, State.Inv, Out.Inv]

theorem State.Inv.execFabricWrite (hs : s.Inv) (p : Packet) :
    Out.Inv (Machine.execFabricWrite p s) := by
  grind [Machine.execFabricWrite, State.Inv.onPacket, State.Inv.remoteReq, State.Inv, Out.Inv]

theorem State.Inv.execFabricAmo (hs : s.Inv) (p : Packet) :
    Out.Inv (Machine.execFabricAmo p s) := by
  grind [Machine.execFabricAmo, State.Inv.onPacket, State.Inv.remoteReq, State.Inv, Out.Inv]

theorem State.Inv.execFabricCas (hs : s.Inv) (p : Packet) :
    Out.Inv (Machine.execFabricCas p s) := by
  grind [Machine.execFabricCas, State.Inv.onPacket, State.Inv.remoteReq, State.Inv, Out.Inv]

theorem State.Inv.execFabricRed (hs : s.Inv) (p : Packet) :
    Out.Inv (Machine.execFabricRed p s) := by
  grind [Machine.execFabricRed, State.Inv.onPacket, State.Inv.remoteReq, State.Inv.joinRed,
    State.Inv, Out.Inv]

theorem State.Inv.execFabricLrw (hs : s.Inv) (p : Packet) :
    Out.Inv (Machine.execFabricLrw p s) := by
  grind [Machine.execFabricLrw, State.Inv.onPacket, State.Inv.remoteReq, State.Inv, Out.Inv]

theorem State.Inv.dropQueued (hs : s.Inv) (r : Req) :
    (s.dropQueued r).Inv := hs

theorem State.Inv.releaseFor (hs : s.Inv) (p : Packet) :
    (s.releaseFor p).Inv := by
  grind [State.releaseFor, State.Inv.dropQueued, State.Inv.releaseLines, State.Inv]

theorem State.Inv.recalled (hs : s.Inv) (p : Packet) :
    (s.recalled p).Inv := by
  grind [State.recalled, State.Inv.answerReq, State.Inv.dropQueued, State.Inv]

theorem State.Inv.execFabricSch (hs : s.Inv) (p : Packet) :
    Out.Inv (Machine.execFabricSch p s) := by
  grind [Machine.execFabricSch, State.Inv.onPacket, State.Inv.recalled, State.Inv.releaseFor,
    State.Inv.remoteReq, State.Inv, Out.Inv]

theorem State.Inv.execFabricXrdXclr (hs : s.Inv) (p : Packet) :
    Out.Inv (Machine.execFabricXrdXclr p s) := by
  grind [Machine.execFabricXrdXclr, State.Inv.onPacket, State.Inv.remoteReq, State.Inv, Out.Inv]

theorem State.Inv.barrierRequest (hs : s.Inv) (pa code : Nat) (va m x : Word) :
    (s.barrierRequest pa code va m x).2.Inv := by
  unfold State.barrierRequest
  grind [State.Inv.joinBarrier, State.Inv.barrierPort, State.Inv.unchainBarrier, State.Inv,
    State.Inv.getD]

theorem State.Inv.membersRequest (hs : s.Inv) (h : Word) :
    (s.membersRequest h).2.Inv := by
  grind [State.membersRequest, State.Inv.members?, State.Inv]

theorem State.Inv.memberRequest (hs : s.Inv) (h va w : Word) :
    (s.memberRequest h va w).2.Inv := by
  grind [State.memberRequest, State.Inv.putMembers, State.Inv.members?, State.Inv]

theorem State.Inv.giveMembers (hs : s.Inv) (h : Word) :
    (s.giveMembers h).2.Inv := by
  grind [State.giveMembers, State.Inv.putMembers, State.Inv.members?, State.Inv]

theorem State.Inv.leaveRequest (hs : s.Inv) (h tok : Word) :
    (s.leaveRequest h tok).Inv := by
  unfold State.leaveRequest
  grind [State.Inv.find, State.Inv.unchain, State.Inv, State.Inv.getD]

theorem State.Inv.futureRequest (hs : s.Inv) (code : Nat) (h x task : Word) :
    (s.futureRequest code h x task).2.Inv := by
  unfold State.futureRequest
  grind [State.Inv.joinChain, State.Inv.touchPort, State.Inv.holdPort, State.Inv.find,
    State.Inv.statPort, State.Inv.leaveRequest, State.Inv.memberRequest, State.Inv.cancelPort,
    State.Inv.dropPort, State.Inv.membersRequest, State.Inv.giveMembers, State.Inv.endPort,
    State.Inv]

theorem State.Inv.execFabricFutureRequest (hs : s.Inv) (p : Packet) :
    Out.Inv (Machine.execFabricFutureRequest p s) := by
  grind [Machine.execFabricFutureRequest, State.Inv.onPacket, State.Inv.futureRequest,
    State.Inv.barrierRequest, State.Inv.emit, State.Inv, Out.Inv]

theorem State.Inv.holdDelivery (hs : s.Inv) (cl : Nat) (t st v : Word) :
    (s.holdDelivery cl t st v).Inv := hs

theorem State.Inv.deliverSlot (hs : s.Inv) (core slot : Nat) (t st v : Word) {u : State} (he :
    s.deliverSlot core slot t st v = some u) :
    u.Inv := by
  unfold State.deliverSlot at he
  grind [State.Inv.holdDelivery, State.Inv.newId, State.Inv]

theorem State.Inv.deliverPark (hs : s.Inv) (t st v obj : Word) (kind : Nat) {u : State} (he :
    s.deliverPark t st v obj kind = some u) :
    u.Inv := by
  unfold State.deliverPark at he
  grind [State.Inv.holdDelivery, State.Inv.deliverRecord, State.Inv]

theorem State.Inv.deliverToken (hs : s.Inv) (t st v obj : Word) (kind : Nat) {y : Word} {u : State}
    (he : s.deliverToken t st v obj kind = some (y, u)) :
    u.Inv := by
  unfold State.deliverToken at he
  grind [State.Inv.deliverSlot, State.Inv.deliverDispatch, State.Inv.deliverPark, State.Inv,
    Option.map_eq_some_iff]

theorem State.Inv.execFabricFutureDelivery (hs : s.Inv) (p : Packet) :
    Out.Inv (Machine.execFabricFutureDelivery p s) := by
  unfold Machine.execFabricFutureDelivery
  grind [State.Inv.onPacket, State.Inv.deliverToken, State.Inv.meetTail, State.Inv.emit, State.Inv,
    Out.Inv]

theorem State.Inv.execFabricReadReply (hs : s.Inv) (p : Packet) :
    Out.Inv (Machine.execFabricReadReply p s) := by
  grind [Machine.execFabricReadReply, State.Inv.onPacket, State.Inv.finishReq, State.Inv, Out.Inv]

theorem State.Inv.sectorsDone (hs : s.Inv) (cl m path k : Nat) (mark : Bool) :
    (s.sectorsDone cl m path k mark).Inv := by
  grind [State.sectorsDone, State.Inv.setInFlight, State.Inv.setAllow, State.Inv.wakeParked,
    State.Inv.pumpCluster, State.Inv]

theorem State.Inv.tagged (hs : s.Inv) (p : Packet) (tags : List Nat) {k : State → Option Req × List
    (Nat × WbEntry) → State} (hk : ∀ t0 x1, t0.Inv → (k t0 x1).Inv) :
    (s.tagged p tags k).Inv := by
  grind [State.tagged, State.Inv.sectorsDone, foldl_inv, State.Inv]

theorem State.Inv.ackNamed (hs : s.Inv) (a1 : Option Req × List (Nat × WbEntry)) :
    (s.ackNamed a1).Inv := by
  unfold State.ackNamed
  grind [State.Inv.finishReq, State.Inv.accepted, foldl_inv, State.Inv]

theorem State.Inv.execFabricAck (hs : s.Inv) (p : Packet) :
    Out.Inv (Machine.execFabricAck p s) := by
  grind [Machine.execFabricAck, State.Inv.onPacket, State.Inv.tagged, State.Inv.ackNamed,
    State.Inv, Out.Inv]

theorem State.Inv.failNamed (hs : s.Inv) (c : Code) (a1 : Option Req × List (Nat × WbEntry)) :
    (s.failNamed c a1).Inv := by
  unfold State.failNamed
  grind [State.Inv.finishReq, State.Inv.failStore, State.Inv.failReq, foldl_inv, State.Inv]

theorem State.Inv.execFabricErrorReply (hs : s.Inv) (p : Packet) :
    Out.Inv (Machine.execFabricErrorReply p s) := by
  grind [Machine.execFabricErrorReply, State.Inv.onPacket, State.Inv.tagged, State.Inv.failNamed,
    State.Inv, Out.Inv]

theorem State.Inv.execAllowancePark (hs : s.Inv) (core slot : Nat) :
    Out.Inv (Machine.execAllowancePark core slot s) := by
  refine hs.event ?_
  split
  · exact hs
  · next f m _ =>
    split
    · exact hs
    · next idx t e =>
      have ht := hs.takePark _ e
      have hi := ht.withIssue (Flight.issue f core slot)
      exact (hi.setCluster ..).parkAs ..

theorem State.Inv.forward (hs : s.Inv) (p : Packet) :
    (s.forward p).Inv := by
  grind [State.forward, State.Inv.record, State.Inv.choose, State.Inv.emit, State.Inv]

theorem State.Inv.execPacketForward (hs : s.Inv) (p : Packet) :
    Out.Inv (Machine.execPacketForward p s) := by
  grind [Machine.execPacketForward, State.Inv.forward, State.Inv.event, State.Inv, Out.Inv]

theorem State.Inv.unready (hs : s.Inv) (bit : Nat) :
    (s.unready bit).Inv := hs

theorem State.Inv.execLinkDown (hs : s.Inv) (l : Nat) :
    Out.Inv (Machine.execLinkDown l s) := by
  grind [Machine.execLinkDown, State.Inv.record, State.Inv.event, State.Inv.unready,
    State.Inv.setLink, State.Inv, Out.Inv]

theorem State.Inv.setFeature (hs : s.Inv) (m : Nat) (w : Word) :
    (s.setFeature m w).Inv := hs

theorem State.Inv.execLinkUp (hs : s.Inv) (l : Nat) :
    Out.Inv (Machine.execLinkUp l s) := by
  grind [Machine.execLinkUp, State.Inv.resend, State.Inv.record, State.Inv.event,
    State.Inv.setLink, State.Inv.setFeature, State.Inv, Out.Inv]

theorem State.Inv.execFeatureWordAnnounce (hs : s.Inv) (m : BitVec 9) (w : BitVec 16) :
    Out.Inv (Machine.execFeatureWordAnnounce m w s) := by
  grind [Machine.execFeatureWordAnnounce, State.Inv.event, State.Inv.setFeature, State.Inv, Out.Inv]

theorem State.Inv.execDieBoundaryFailure (hs : s.Inv) (b : Nat) :
    Out.Inv (Machine.execDieBoundaryFailure b s) := by
  grind [Machine.execDieBoundaryFailure, State.Inv.record, State.Inv.event, State.Inv.unready,
    State.Inv, Out.Inv]

/-! ### Interrupts -/

theorem State.Inv.lengthAt (hs : s.Inv) (core : Nat) (t : Strand) :
    (s.lengthAt core t).2.Inv := by
  grind [State.lengthAt, State.Inv.choose, State.Inv]

theorem State.Inv.interrupt (hs : s.Inv) (core k : Nat) (bare : Bool) :
    (s.interrupt core k bare).Inv := by
  grind [State.interrupt, State.Inv.place, State.Inv.withdraw, State.Inv.lengthAt,
    State.Inv.setCore, State.Inv.setStrand, State.Inv]

theorem State.Inv.execInterruptTaken (hs : s.Inv) (core : Nat) :
    Out.Inv (Machine.execInterruptTaken core s) := by
  grind [Machine.execInterruptTaken, State.Inv.interrupt, State.Inv.event, State.Inv, Out.Inv]

/-! ### Bring-up, firmware, attestation and the envelope -/

theorem State.Inv.boot (hs : s.Inv) :
    (s.boot).Inv := by
  grind [State.boot, State.Inv.record, State.Inv]

theorem State.Inv.execPowerOn (hs : s.Inv) :
    Out.Inv (Machine.execPowerOn s) := by
  grind [Machine.execPowerOn, State.Inv.boot, State.Inv.event, State.Inv, Out.Inv]

theorem State.Inv.execFirmwareLoad (hs : s.Inv) (image : List Byte) :
    Out.Inv (Machine.execFirmwareLoad image s) := by
  grind [Machine.execFirmwareLoad, State.Inv.event, State.Inv, Out.Inv]

theorem State.Inv.execFirmwareUpdate (hs : s.Inv) (image : List Byte) :
    Out.Inv (Machine.execFirmwareUpdate image s) := by
  grind [Machine.execFirmwareUpdate, State.Inv.record, State.Inv.event, State.Inv, Out.Inv]

theorem State.Inv.bringUp (hs : s.Inv) (b : Nat) :
    (s.bringUp b).Inv := by
  grind [State.bringUp, State.Inv.setStack, State.Inv]

theorem State.Inv.execFunctionReady (hs : s.Inv) (bit : Nat) :
    Out.Inv (Machine.execFunctionReady bit s) := by
  grind [Machine.execFunctionReady, State.Inv.event, State.Inv.bringUp, State.Inv, Out.Inv]

theorem State.Inv.spdmAnswer (hs : s.Inv) (code : Nat) (req : List Byte) :
    (s.spdmAnswer code req).Inv := by
  grind [State.spdmAnswer, State.Inv]

theorem State.Inv.execSpdmGetVersion (hs : s.Inv) (req : List Byte) :
    Out.Inv (Machine.execSpdmGetVersion req s) := by
  grind [Machine.execSpdmGetVersion, State.Inv.event, State.Inv.spdmAnswer, State.Inv, Out.Inv]

theorem State.Inv.execSpdmGetCapabilities (hs : s.Inv) (req : List Byte) :
    Out.Inv (Machine.execSpdmGetCapabilities req s) := by
  grind [Machine.execSpdmGetCapabilities, State.Inv.event, State.Inv.spdmAnswer, State.Inv, Out.Inv]

theorem State.Inv.execSpdmNegotiateAlgorithms (hs : s.Inv) (req : List Byte) :
    Out.Inv (Machine.execSpdmNegotiateAlgorithms req s) := by
  grind [Machine.execSpdmNegotiateAlgorithms, State.Inv.event, State.Inv.spdmAnswer, State.Inv,
    Out.Inv]

theorem State.Inv.execSpdmGetDigests (hs : s.Inv) (req : List Byte) :
    Out.Inv (Machine.execSpdmGetDigests req s) := by
  grind [Machine.execSpdmGetDigests, State.Inv.event, State.Inv.spdmAnswer, State.Inv, Out.Inv]

theorem State.Inv.execSpdmGetCertificate (hs : s.Inv) (req : List Byte) :
    Out.Inv (Machine.execSpdmGetCertificate req s) := by
  grind [Machine.execSpdmGetCertificate, State.Inv.event, State.Inv.spdmAnswer, State.Inv, Out.Inv]

theorem State.Inv.execSpdmChallenge (hs : s.Inv) (req : List Byte) :
    Out.Inv (Machine.execSpdmChallenge req s) := by
  grind [Machine.execSpdmChallenge, State.Inv.event, State.Inv.spdmAnswer, State.Inv, Out.Inv]

theorem State.Inv.execSpdmGetMeasurements (hs : s.Inv) (req : List Byte) :
    Out.Inv (Machine.execSpdmGetMeasurements req s) := by
  grind [Machine.execSpdmGetMeasurements, State.Inv.event, State.Inv.spdmAnswer, State.Inv, Out.Inv]

theorem State.Inv.execThermalThrottleBegin (hs : s.Inv) :
    Out.Inv (Machine.execThermalThrottleBegin s) := by
  grind [Machine.execThermalThrottleBegin, State.Inv.record, State.Inv.event, State.Inv, Out.Inv]

theorem State.Inv.execThermalThrottleEnd (hs : s.Inv) :
    Out.Inv (Machine.execThermalThrottleEnd s) := by
  grind [Machine.execThermalThrottleEnd, State.Inv.record, State.Inv.event, State.Inv, Out.Inv]

theorem State.Inv.execThermalShutdown (hs : s.Inv) :
    Out.Inv (Machine.execThermalShutdown s) := by
  grind [Machine.execThermalShutdown, State.Inv.record, State.Inv.event, State.Inv, Out.Inv]

theorem State.Inv.moduleReset (hs : s.Inv) :
    (s.moduleReset).Inv := hs

theorem State.Inv.execModuleReset (hs : s.Inv) :
    Out.Inv (Machine.execModuleReset s) := hs

theorem State.Inv.execHbmStackFailure (hs : s.Inv) (stack : Nat) :
    Out.Inv (Machine.execHbmStackFailure stack s) := by
  grind [Machine.execHbmStackFailure, State.Inv.setStack, State.Inv.event, State.Inv.unready,
    State.Inv, Out.Inv]

theorem State.Inv.execCommitExchange (hs : s.Inv) (port : Nat) :
    Out.Inv (Machine.execCommitExchange port s) := by
  grind [Machine.execCommitExchange, State.Inv.settle, State.Inv.event, foldl_inv, State.Inv,
    Out.Inv]

/-! ### MEMORY_PORT_READ, WRITE and ATOMIC -/

theorem State.Inv.serveDev (hs : s.Inv) (r : Req) :
    (s.serveDev r).Inv := by
  grind [State.serveDev, State.Inv.answerReq, State.Inv.devRead, State.Inv.devWrite, State.Inv]

theorem State.Inv.servePlace (hs : s.Inv) (r : Req) :
    (s.servePlace r).Inv := by
  grind [State.servePlace, State.Inv.serveHbm, State.Inv.answerReq, Served.Inv.apply,
    State.Inv.serveDev, State.Inv.serveHost, State.Inv, Served.Inv]

theorem State.Inv.portStore (hs : s.Inv) (id : Nat) :
    (s.portStore id).Inv := by
  grind [State.portStore, State.Inv.failStore, State.Inv.accepted, State.Inv.applyStore,
    State.Inv.devWrite, State.Inv]

theorem State.Inv.portEvent (hs : s.Inv) (id : Nat) (kind : ReqOp → Bool) {other : State} (hother :
    other.Inv) :
    (s.portEvent id kind other).Inv := by
  grind [State.portEvent, State.Inv.servePlace, State.Inv]

theorem State.Inv.execMemoryPortRead (hs : s.Inv) (id : Nat) :
    Out.Inv (Machine.execMemoryPortRead id s) := by
  grind [Machine.execMemoryPortRead, State.Inv.event, State.Inv.portEvent, State.Inv, Out.Inv]

theorem State.Inv.execMemoryPortWrite (hs : s.Inv) (id : Nat) :
    Out.Inv (Machine.execMemoryPortWrite id s) := by
  grind [Machine.execMemoryPortWrite, State.Inv.portStore, State.Inv.event, State.Inv.portEvent,
    State.Inv, Out.Inv]

theorem State.Inv.execMemoryPortAtomic (hs : s.Inv) (id : Nat) :
    Out.Inv (Machine.execMemoryPortAtomic id s) := by
  grind [Machine.execMemoryPortAtomic, State.Inv.event, State.Inv.portEvent, State.Inv, Out.Inv]

theorem State.Inv.execIllegalInstruction (hs : s.Inv) (v : Word) :
    Out.Inv (Machine.execIllegalInstruction v s) := by
  grind [Machine.execIllegalInstruction, State.Inv.event, Res.Inv.state, State.Inv, Res.Inv,
    Out.Inv]

theorem State.Inv.execFetchFault (hs : s.Inv) (cause : BitVec 5) (code : Code) (v : Word) :
    Out.Inv (Machine.execFetchFault cause code v s) := by
  grind [Machine.execFetchFault, State.Inv.event, Res.Inv.state, State.Inv, Res.Inv, Out.Inv]

/-! ### Fetching an instruction -/

theorem State.Inv.readSector (hs : s.Inv) (pa : Nat) :
    (s.readSector pa).2.Inv := by
  grind [State.readSector, State.Inv.flushLine, State.Inv.portRead, State.Inv.devRead,
    State.Inv.readHost, State.Inv]

theorem State.Inv.fillSector (hs : s.Inv) (sector : Nat) (bs : List Byte) :
    (s.fillSector sector bs).Inv := hs

theorem State.Inv.farSector (hs : s.Inv) (k : Nat) :
    (s.farSector k).2.Inv := by
  grind [State.farSector, State.Inv.engineAskFar, State.Inv.fillSector, State.Inv.dropFetched,
    State.Inv.sectorIn, State.Inv]

theorem State.Inv.newSector (hs : s.Inv) (pa : Nat) :
    (s.newSector pa).2.Inv := by
  grind [State.newSector, State.Inv.farSector, State.Inv.fillSector, State.Inv.readSector,
    State.Inv]

theorem State.Inv.sectorOf (hs : s.Inv) (pa : Nat) :
    (s.sectorOf pa).2.Inv := by
  grind [State.sectorOf, State.Inv.newSector, State.Inv]

theorem State.Inv.sectorFor (hs : s.Inv) (pa : Nat) (last : Option Sector) :
    (s.sectorFor pa last).2.Inv := by
  unfold State.sectorFor
  grind [State.Inv.sectorOf, State.Inv]

theorem State.Inv.fetchHalf (hs : s.Inv) (a : Word) (last : Option Sector) :
    (s.fetchHalf a last).Inv := by
  grind [State.fetchHalf, State.Inv.sectorFor, State.Inv.startWalk, State.Inv.useTlb, State.Inv,
    HalfFetch.Inv]

theorem State.Inv.fetchUnit (hs : s.Inv) (pc : Word) (acc : List Byte) (last : Option Sector) (n :
    Nat) :
    (s.fetchUnit pc acc last n).Inv := by
  induction n generalizing s acc last with
  | zero => exact hs
  | succ n ih =>
    have hf := hs.fetchHalf (pc + BitVec.ofNat 64 acc.length) last
    grind [State.fetchUnit, HalfFetch.Inv, UnitFetch.Inv]

theorem State.Inv.waitFetch (hs : s.Inv) (g : Nat) :
    (s.waitFetch g).Inv := hs

theorem State.Inv.lengthOf (hs : s.Inv) (bytes : List Byte) :
    (s.lengthOf bytes).2.Inv := by
  grind [State.lengthOf, State.Inv.choose, State.Inv]

theorem State.Inv.issuing (hs : s.Inv) (len : Nat) (word : Word) (i : Instr) :
    (s.issuing len word i).Inv := hs

/-- Every instruction and event does: one case for each form of the instruction set. -/
theorem State.Inv.exec (hs : s.Inv) (i : Instr) : Out.Inv (Machine.exec i s) := by
  cases i with
  | add => exact hs.execAdd ..
  | sub => exact hs.execSub ..
  | mul => exact hs.execMul ..
  | mulhi => exact hs.execMulhi ..
  | mulhn => exact hs.execMulhn ..
  | div => exact hs.execDiv ..
  | divn => exact hs.execDivn ..
  | rem => exact hs.execRem ..
  | remn => exact hs.execRemn ..
  | min => exact hs.execMin ..
  | max => exact hs.execMax ..
  | minn => exact hs.execMinn ..
  | maxn => exact hs.execMaxn ..
  | and => exact hs.execAnd ..
  | or => exact hs.execOr ..
  | xor => exact hs.execXor ..
  | andn => exact hs.execAndn ..
  | shlRegister => exact hs.execShlRegister ..
  | shrRegister => exact hs.execShrRegister ..
  | shaRegister => exact hs.execShaRegister ..
  | rotRegister => exact hs.execRotRegister ..
  | mov => exact hs.execMov ..
  | clz => exact hs.execClz ..
  | ctz => exact hs.execCtz ..
  | popc => exact hs.execPopc ..
  | brev => exact hs.execBrev ..
  | bswap => exact hs.execBswap ..
  | mix64 => exact hs.execMix64 ..
  | addi => exact hs.execAddi ..
  | andi => exact hs.execAndi ..
  | ori => exact hs.execOri ..
  | xori => exact hs.execXori ..
  | shlImmediate => exact hs.execShlImmediate ..
  | shrImmediate => exact hs.execShrImmediate ..
  | shaImmediate => exact hs.execShaImmediate ..
  | rotImmediate => exact hs.execRotImmediate ..
  | cmp => exact hs.execCmp ..
  | cmpi => exact hs.execCmpi ..
  | pand => exact hs.execPand ..
  | por => exact hs.execPor ..
  | pxor => exact hs.execPxor ..
  | pnot => exact hs.execPnot ..
  | pmov => exact hs.execPmov ..
  | pset => exact hs.execPset ..
  | sel => exact hs.execSel ..
  | lea => exact hs.execLea ..
  | movwZ => exact hs.execMovwZ ..
  | movwK => exact hs.execMovwK ..
  | movwS => exact hs.execMovwS ..
  | addpc => exact hs.execAddpc ..
  | br => exact hs.execBr ..
  | brl => exact hs.execBrl ..
  | jmp => exact hs.execJmp ..
  | jmpl => exact hs.execJmpl ..
  | fext => exact hs.execFext ..
  | fins => exact hs.execFins ..
  | fpack => exact hs.execFpack ..
  | funpack => exact hs.execFunpack ..
  | layout => exact hs.execLayout ..
  | fadd => exact hs.execFadd ..
  | fsub => exact hs.execFsub ..
  | fmul => exact hs.execFmul ..
  | fdiv => exact hs.execFdiv ..
  | fmin => exact hs.execFmin ..
  | fmax => exact hs.execFmax ..
  | fsqrt => exact hs.execFsqrt ..
  | fcvt => exact hs.execFcvt ..
  | frnd => exact hs.execFrnd ..
  | fclass => exact hs.execFclass ..
  | fmaF64 => exact hs.execFmaF64 ..
  | fmaF32 => exact hs.execFmaF32 ..
  | fcmp => exact hs.execFcmp ..
  | srd => exact hs.execSrd ..
  | swr => exact hs.execSwr ..
  | srdp => exact hs.execSrdp ..
  | swrp => exact hs.execSwrp ..
  | ld => exact hs.execLd ..
  | st => exact hs.execSt ..
  | ldp => exact hs.execLdp ..
  | stp => exact hs.execStp ..
  | ldIndexed => exact hs.execLdIndexed ..
  | stIndexed => exact hs.execStIndexed ..
  | ldaN32 => exact hs.execLdaN32 ..
  | ldaN64 => exact hs.execLdaN64 ..
  | strN32 => exact hs.execStrN32 ..
  | strN64 => exact hs.execStrN64 ..
  | casN32 => exact hs.execCasN32 ..
  | casN64 => exact hs.execCasN64 ..
  | xclr => exact hs.execXclr ..
  | xrdF32 => exact hs.execXrdF32 ..
  | xrdF64 => exact hs.execXrdF64 ..
  | lrw => exact hs.execLrw ..
  | sch => exact hs.execSch ..
  | fence => exact hs.execFence ..
  | lookup => exact hs.execLookup ..
  | tagset => exact hs.execTagset ..
  | tagclr => exact hs.execTagclr ..
  | pref => exact hs.execPref ..
  | snap => exact hs.execSnap ..
  | snapx => exact hs.execSnapx ..
  | txb => exact hs.execTxb ..
  | txc => exact hs.execTxc ..
  | txa => exact hs.execTxa ..
  | txs => exact hs.execTxs ..
  | alw => exact hs.execAlw ..
  | amo => exact hs.execAmo ..
  | red => exact hs.execRed ..
  | spawn => exact hs.execSpawn ..
  | spawnq => exact hs.execSpawnq ..
  | touch => exact hs.execTouch ..
  | touchq => exact hs.execTouchq ..
  | resolve => exact hs.execResolve ..
  | poison => exact hs.execPoison ..
  | cancel => exact hs.execCancel ..
  | fstat => exact hs.execFstat ..
  | fhold => exact hs.execFhold ..
  | fdrop => exact hs.execFdrop ..
  | go => exact hs.execGo ..
  | yield => exact hs.execYield ..
  | exit => exact hs.execExit ..
  | self => exact hs.execSelf ..
  | pmode => exact hs.execPmode ..
  | pbind => exact hs.execPbind ..
  | pstat => exact hs.execPstat ..
  | ldw => exact hs.execLdw ..
  | stw => exact hs.execStw ..
  | bjoin => exact hs.execBjoin ..
  | barv => exact hs.execBarv ..
  | bwait => exact hs.execBwait ..
  | bleave => exact hs.execBleave ..
  | bexpect => exact hs.execBexpect ..
  | fpop => exact hs.execFpop ..
  | fpopq => exact hs.execFpopq ..
  | cpy => exact hs.execCpy ..
  | cpy2 => exact hs.execCpy2 ..
  | cpyg => exact hs.execCpyg ..
  | tdset => exact hs.execTdset ..
  | cqstat => exact hs.execCqstat ..
  | wld => exact hs.execWld ..
  | weft => exact hs.execWeft ..
  | vrd => exact hs.execVrd ..
  | lgrp => exact hs.execLgrp ..
  | wswap => exact hs.execWswap ..
  | vclr => exact hs.execVclr ..
  | vadd => exact hs.execVadd ..
  | lloop => exact hs.execLloop ..
  | lfut => exact hs.execLfut ..
  | lres => exact hs.execLres ..
  | lstat => exact hs.execLstat ..
  | tadd => exact hs.execTadd ..
  | tsub => exact hs.execTsub ..
  | tmul => exact hs.execTmul ..
  | tfma => exact hs.execTfma ..
  | tdiv => exact hs.execTdiv ..
  | tmin => exact hs.execTmin ..
  | tmax => exact hs.execTmax ..
  | tsel => exact hs.execTsel ..
  | tand => exact hs.execTand ..
  | tor => exact hs.execTor ..
  | txor => exact hs.execTxor ..
  | tshl => exact hs.execTshl ..
  | tshr => exact hs.execTshr ..
  | tcvt => exact hs.execTcvt ..
  | ttopk => exact hs.execTtopk ..
  | tcmpEq => exact hs.execTcmpEq ..
  | tcmpNe => exact hs.execTcmpNe ..
  | tcmpLt => exact hs.execTcmpLt ..
  | tcmpLe => exact hs.execTcmpLe ..
  | tmov => exact hs.execTmov ..
  | txpose => exact hs.execTxpose ..
  | texp2 => exact hs.execTexp2 ..
  | tlog2 => exact hs.execTlog2 ..
  | trcp => exact hs.execTrcp ..
  | trsq => exact hs.execTrsq ..
  | tsqrt => exact hs.execTsqrt ..
  | ttanh => exact hs.execTtanh ..
  | tredAdd => exact hs.execTredAdd ..
  | tredMin => exact hs.execTredMin ..
  | tredMax => exact hs.execTredMax ..
  | tscanAdd => exact hs.execTscanAdd ..
  | tiota => exact hs.execTiota ..
  | trand => exact hs.execTrand ..
  | tld => exact hs.execTld ..
  | tst => exact hs.execTst ..
  | tsplat => exact hs.execTsplat ..
  | tmovgRead => exact hs.execTmovgRead ..
  | tmovgWrite => exact hs.execTmovgWrite ..
  | tldi => exact hs.execTldi ..
  | tsti => exact hs.execTsti ..
  | shape => exact hs.execShape ..
  | nop => exact hs.execNop ..
  | trap => exact hs.execTrap ..
  | eret => exact hs.execEret ..
  | wfi => exact hs.execWfi ..
  | tlbi => exact hs.execTlbi ..
  | ctxsv => exact hs.execCtxsv ..
  | ctxld => exact hs.execCtxld ..
  | dbgb => exact hs.execDbgb ..
  | modifierWord => exact hs.execModifierWord ..
  | movC16 => exact hs.execMovC16 ..
  | addC16 => exact hs.execAddC16 ..
  | subC16 => exact hs.execSubC16 ..
  | andC16 => exact hs.execAndC16 ..
  | orC16 => exact hs.execOrC16 ..
  | xorC16 => exact hs.execXorC16 ..
  | shlC16 => exact hs.execShlC16 ..
  | shrC16 => exact hs.execShrC16 ..
  | addiC16 => exact hs.execAddiC16 ..
  | ldN64C16 => exact hs.execLdN64C16 ..
  | stN64C16 => exact hs.execStN64C16 ..
  | brC16 => exact hs.execBrC16 ..
  | touchC16 => exact hs.execTouchC16 ..
  | jmpC16 => exact hs.execJmpC16 ..
  | nopC16 => exact hs.execNopC16 ..
  | interruptTaken => exact hs.execInterruptTaken ..
  | timerExpiry => exact hs.execTimerExpiry ..
  | storeErrorReport => exact hs.execStoreErrorReport ..
  | loadReply => exact hs.execLoadReply ..
  | scratchpadRequest => exact hs.execScratchpadRequest ..
  | memoryPortRead => exact hs.execMemoryPortRead ..
  | memoryPortWrite => exact hs.execMemoryPortWrite ..
  | memoryPortAtomic => exact hs.execMemoryPortAtomic ..
  | redMergeGroupApply => exact hs.execRedMergeGroupApply ..
  | tableWalkComplete => exact hs.execTableWalkComplete ..
  | futureEntryFill => exact hs.execFutureEntryFill ..
  | bindTask => exact hs.execBindTask ..
  | stealRound => exact hs.execStealRound ..
  | dequeRefill => exact hs.execDequeRefill ..
  | arrivalRefill => exact hs.execArrivalRefill ..
  | arrivalResend => exact hs.execArrivalResend ..
  | doomNotice => exact hs.execDoomNotice ..
  | gleanerVisit => exact hs.execGleanerVisit ..
  | poolWaitTimeout => exact hs.execPoolWaitTimeout ..
  | reservationExpiry => exact hs.execReservationExpiry ..
  | remoteRequestTimeout => exact hs.execRemoteRequestTimeout ..
  | loomCmdWld => exact hs.execLoomCmdWld ..
  | loomCmdWswap => exact hs.execLoomCmdWswap ..
  | loomCmdVclr => exact hs.execLoomCmdVclr ..
  | loomCmdWeft => exact hs.execLoomCmdWeft ..
  | loomCmdVadd => exact hs.execLoomCmdVadd ..
  | loomCmdLgrp => exact hs.execLoomCmdLgrp ..
  | loomCmdLloop => exact hs.execLoomCmdLloop ..
  | loomCmdVrd => exact hs.execLoomCmdVrd ..
  | loomMarker => exact hs.execLoomMarker ..
  | loomPause => exact hs.execLoomPause ..
  | scrivenerCpy => exact hs.execScrivenerCpy ..
  | scrivenerCpy2 => exact hs.execScrivenerCpy2 ..
  | scrivenerCpyg => exact hs.execScrivenerCpyg ..
  | scrivenerPause => exact hs.execScrivenerPause ..
  | tilePrefetch => exact hs.execTilePrefetch ..
  | tailWrite => exact hs.execTailWrite ..
  | queueEnable => exact hs.execQueueEnable ..
  | queueDisable => exact hs.execQueueDisable ..
  | queueSkip => exact hs.execQueueSkip ..
  | queueRetry => exact hs.execQueueRetry ..
  | queueReset => exact hs.execQueueReset ..
  | launch => exact hs.execLaunch ..
  | feed => exact hs.execFeed ..
  | copy => exact hs.execCopy ..
  | semwait => exact hs.execSemwait ..
  | semsig => exact hs.execSemsig ..
  | futwait => exact hs.execFutwait ..
  | intr => exact hs.execIntr ..
  | indirect => exact hs.execIndirect ..
  | fencePacket => exact hs.execFencePacket ..
  | unknownOpcode => exact hs.execUnknownOpcode ..
  | heapAdmit => exact hs.execHeapAdmit ..
  | heapTake => exact hs.execHeapTake
  | launchPlacement => exact hs.execLaunchPlacement ..
  | launchComplete => exact hs.execLaunchComplete ..
  | semaphoreWrite => exact hs.execSemaphoreWrite ..
  | feedQueueEnable => exact hs.execFeedQueueEnable ..
  | feedQueueDisable => exact hs.execFeedQueueDisable ..
  | hostReadTimeout => exact hs.execHostReadTimeout ..
  | fabricRead => exact hs.execFabricRead ..
  | fabricWrite => exact hs.execFabricWrite ..
  | fabricAmo => exact hs.execFabricAmo ..
  | fabricCas => exact hs.execFabricCas ..
  | fabricRed => exact hs.execFabricRed ..
  | fabricLrw => exact hs.execFabricLrw ..
  | fabricSch => exact hs.execFabricSch ..
  | fabricXrdXclr => exact hs.execFabricXrdXclr ..
  | fabricFutureRequest => exact hs.execFabricFutureRequest ..
  | fabricFutureDelivery => exact hs.execFabricFutureDelivery ..
  | fabricReadReply => exact hs.execFabricReadReply ..
  | fabricAck => exact hs.execFabricAck ..
  | fabricErrorReply => exact hs.execFabricErrorReply ..
  | allowancePark => exact hs.execAllowancePark ..
  | packetForward => exact hs.execPacketForward ..
  | linkDown => exact hs.execLinkDown ..
  | linkUp => exact hs.execLinkUp ..
  | featureWordAnnounce => exact hs.execFeatureWordAnnounce ..
  | dieBoundaryFailure => exact hs.execDieBoundaryFailure ..
  | routeWordWrite => exact hs.execRouteWordWrite ..
  | rangeRegisterWrite => exact hs.execRangeRegisterWrite ..
  | versionPoolWrite => exact hs.execVersionPoolWrite ..
  | drainWrite => exact hs.execDrainWrite ..
  | featureAcceptWrite => exact hs.execFeatureAcceptWrite ..
  | dieStart => exact hs.execDieStart ..
  | interruptWordWrite => exact hs.execInterruptWordWrite ..
  | debugHalt => exact hs.execDebugHalt ..
  | debugResume => exact hs.execDebugResume ..
  | debugDtrapClear => exact hs.execDebugDtrapClear ..
  | debugQuiesce => exact hs.execDebugQuiesce ..
  | registerWrite => exact hs.execRegisterWrite ..
  | powerOn => exact hs.execPowerOn
  | functionReady => exact hs.execFunctionReady ..
  | firmwareLoad => exact hs.execFirmwareLoad ..
  | firmwareUpdate => exact hs.execFirmwareUpdate ..
  | spdmGetVersion => exact hs.execSpdmGetVersion ..
  | spdmGetCapabilities => exact hs.execSpdmGetCapabilities ..
  | spdmNegotiateAlgorithms => exact hs.execSpdmNegotiateAlgorithms ..
  | spdmGetDigests => exact hs.execSpdmGetDigests ..
  | spdmGetCertificate => exact hs.execSpdmGetCertificate ..
  | spdmChallenge => exact hs.execSpdmChallenge ..
  | spdmGetMeasurements => exact hs.execSpdmGetMeasurements ..
  | thermalThrottleBegin => exact hs.execThermalThrottleBegin
  | thermalThrottleEnd => exact hs.execThermalThrottleEnd
  | thermalShutdown => exact hs.execThermalShutdown
  | illegalInstruction => exact hs.execIllegalInstruction ..
  | fetchFault => exact hs.execFetchFault ..
  | moduleReset => exact hs.execModuleReset
  | hbmStackFailure => exact hs.execHbmStackFailure ..
  | commitExchange => exact hs.execCommitExchange ..

theorem State.Inv.runUnit (hs : s.Inv) (u : Unit32) :
    Out.Inv (Machine.runUnit u s) := by
  unfold Machine.runUnit
  split
  · exact hs.exec _
  · next m _ =>
    have hm := hs.exec (.modifierWord m)
    split
    · next e => rw [e] at hm; exact State.Inv.exec hm _
    · exact hm

theorem State.Inv.issueBytes (hs : s.Inv) (bs : List Byte) :
    Out.Inv (Machine.issueBytes s bs) := by
  grind [Machine.issueBytes, State.Inv.runUnit, State.Inv.issuing,
    State.Inv.execIllegalInstruction, State.Inv, Out.Inv]

theorem State.Inv.fetchIssue (hs : s.Inv) : Out.Inv (Machine.fetchIssue s) := by
  have hf := hs.fetchUnit s.me.pc [] none 5
  unfold Machine.fetchIssue
  split
  · next e => rw [e] at hf; exact State.Inv.issueBytes hf _
  · next e => rw [e] at hf; exact State.Inv.event hf (State.Inv.waitFetch hf _)
  · next bs u e => 
    rw [e] at hf; exact ((State.Inv.lengthOf hf bs).issuing ..).execFetchFault ..

theorem State.Inv.atSlot (hs : s.Inv) (core slot : Nat) :
    (s.atSlot core slot).Inv := hs

theorem State.Inv.ifIssued (_ : s.Inv) (core slot : Nat) {o : Out} (ho : Out.Inv o) :
    Out.Inv (s.ifIssued core slot o) := by
  unfold State.ifIssued
  grind [State.Inv.setCore, State.Inv.setStrand, State.Inv, Out.Inv]

theorem State.Inv.afresh (hs : s.Inv) :
    (s.afresh).Inv := hs

theorem State.Inv.issueRun (hs : s.Inv) (core slot : Nat) : Out.Inv (s.issueRun core slot) := by
  have ha := hs.atSlot core slot
  unfold State.issueRun
  dsimp only
  generalize s.atSlot core slot = a at ha ⊢
  split
  · exact ha.event ((ha.setMe _).trap ..)
  · split
    · split
      · have hl := ha.lengthAt core a.me
        exact hl.event ((hl.setMe _).trap ..)
      · have hf := ha.fetchUnit a.me.pc [] none 5
        split
        · next e => rw [e] at hf; exact State.Inv.event hf ((State.Inv.setMe hf _).trap ..)
        · next bs u e => 
          rw [e] at hf; 
          have hl := State.Inv.lengthOf hf bs
          exact hl.event ((hl.setMe _).trap ..)
        · next e => rw [e] at hf; exact State.Inv.event hf (State.Inv.waitFetch hf _)
    · split
      · next f _ => exact (ha.afresh.withIssue (f.issue core slot)).exec f.instr
      · exact ha.fetchIssue

theorem State.Inv.issueSlot (hs : s.Inv) (core slot : Nat) :
    Out.Inv (s.issueSlot core slot) := by
  grind [State.issueSlot, State.Inv.ifIssued, State.Inv.issueRun, State.Inv, Out.Inv]

theorem State.Inv.proceedSlot (hs : s.Inv) (core slot : Nat) :
    Out.Inv (s.proceedSlot core slot) := by
  unfold State.proceedSlot
  dsimp only
  split
  · next f _ =>
    exact ((hs.setStrand core slot { s.strand core slot with st := .ready }).withIssue (f.issue
      core slot)).exec f.instr
  · exact hs.event hs

/-! ### What can happen next -/

theorem State.Inv.pauseLoom (hs : s.Inv) (core : Nat) :
    Out.Inv (Machine.pauseLoom core s) := by
  grind [Machine.pauseLoom, State.Inv.execLoomPause, State.Inv, Out.Inv]

theorem State.Inv.tick (hs : s.Inv) :
    (s.tick).Inv := hs

theorem State.Inv.nextCycle (hs : s.Inv) :
    Out.Inv (Machine.nextCycle s) := hs

theorem State.Inv.takeInput (hs : s.Inv) : Out.Inv (Machine.takeInput s) := by
  unfold Machine.takeInput
  split
  · exact hs
  · next i r _ =>
    dsimp only
    split
    · exact hs
    · exact (hs.withInbox r).exec i

theorem State.Inv.takeRead (hs : s.Inv) :
    Out.Inv (Machine.takeRead s) := by
  grind [Machine.takeRead, State.Inv.takeHostRead, State.Inv, Out.Inv]

theorem State.Inv.unlessTraining (hs : s.Inv) {o : Out} (ho : Out.Inv o) :
    Out.Inv (s.unlessTraining o) := by
  unfold State.unlessTraining
  grind [State.Inv.tick, State.Inv, Out.Inv]

/-- A move that leaves memory in its canonical form. -/
def Move.Keeping (m : Move) : Prop := ∀ {s : State}, s.Inv → Out.Inv (m s)

/-- Each move of a list does. -/
abbrev AllKeeping (l : List Move) : Prop := ∀ m ∈ l, Move.Keeping m

theorem AllKeeping.nil : AllKeeping [] := fun _ h => nomatch h
theorem AllKeeping.cons {m : Move} {l : List Move} (hm : m.Keeping) (hl : AllKeeping l) :
    AllKeeping (m :: l) :=
  List.forall_mem_cons.2 ⟨hm, hl⟩
theorem Move.Keeping.only {m : Move} (hm : m.Keeping) : AllKeeping [m] := .cons hm .nil
theorem AllKeeping.append {l r : List Move} (hl : AllKeeping l) (hr : AllKeeping r) : AllKeeping (l
    ++ r) :=
  List.forall_mem_append.2 ⟨hl, hr⟩
theorem AllKeeping.filter {l : List Move} (hl : AllKeeping l) (p : Move → Bool) : AllKeeping
    (l.filter p) :=
  fun m h => hl m (List.mem_of_mem_filter h)
theorem AllKeeping.ite {p : Prop} [Decidable p] {l r : List Move} (hl : AllKeeping l) (hr :
    AllKeeping r) :
    AllKeeping (if p then l else r) := by
  split
  · exact hl
  · exact hr
theorem AllKeeping.map {α : Type} {f : α → Move} {l : List α} (hf : ∀ x, (f x).Keeping) :
    AllKeeping (l.map f) :=
  List.forall_mem_map.2 fun x _ => hf x
theorem AllKeeping.flatMap {α : Type} {f : α → List Move} {l : List α} (hf : ∀ x, AllKeeping (f x))
    :
    AllKeeping (l.flatMap f) := fun m h => by
  obtain ⟨x, _, hx⟩ := List.mem_flatMap.1 h
  exact hf x m hx
theorem AllKeeping.toList_find {l : List Move} (hl : AllKeeping l) (p : Move → Bool) : AllKeeping
    (l.find? p).toList :=
  fun m h => hl m (List.mem_of_find?_eq_some (Option.mem_toList.1 h))

theorem proceeds_keeping (s : State) (core : Nat) : AllKeeping (s.proceeds core) :=
  .map fun _ _ hs => hs.proceedSlot ..
theorem interruptNow_keeping (s : State) (core : Nat) : AllKeeping (s.interruptNow core) := by
  unfold State.interruptNow
  refine .ite .nil ?_
  split
  · exact Move.Keeping.only fun hs => hs.issueSlot ..
  · exact Move.Keeping.only fun hs => hs.execInterruptTaken _

theorem forcedAt_keeping (s : State) (core : Nat) : AllKeeping (s.forcedAt core) := by
  unfold State.forcedAt
  refine .append (.append (.append (.append (.append ?_ (interruptNow_keeping s core)) ?_) ?_) ?_)
    ?_
  · exact .ite (Move.Keeping.only fun hs => hs.execTimerExpiry _) .nil
  · exact .map fun _ _ hs => hs.event (hs.recallLrw ..)
  · exact .map fun _ _ hs => hs.execDebugHalt ..
  · exact .ite (Move.Keeping.only fun hs => hs.execStealRound _) .nil
  · exact .map fun _ _ hs => hs.execAllowancePark ..

theorem timeouts_keeping (s : State) : AllKeeping s.timeouts := by
  unfold State.timeouts
  refine .append (.append (.append ?_ ?_) ?_) ?_
  · exact .map fun _ _ hs => hs.execPoolWaitTimeout _
  · exact .map fun _ _ hs => hs.execReservationExpiry _
  · exact .map fun _ _ hs => hs.execRemoteRequestTimeout _
  · exact .flatMap fun _ => .map fun _ _ hs => hs.execRemoteRequestTimeout _

theorem versionWork_keeping (s : State) : AllKeeping s.versionWork :=
  .append (.map fun _ _ hs => hs.execCommitExchange _) (.map fun _ _ hs => hs.execGleanerVisit _)

theorem forced_keeping {s : State} {m : Move} (h : s.forced = some m) : m.Keeping :=
  AllKeeping.append (.append (.flatMap fun _ => forcedAt_keeping s _) (timeouts_keeping s))
    (versionWork_keeping s)
    m (List.mem_of_find?_eq_some h)

theorem loomEventOf_keeping (core : Nat) (i : Instr) : Move.Keeping (loomEventOf core i) := by
  intro s hs
  unfold loomEventOf
  split
  · exact hs.execLoomCmdWld _
  · exact hs.execLoomCmdWswap _
  · exact hs.execLoomCmdVclr _
  · exact hs.execLoomCmdWeft _
  · exact hs.execLoomCmdVadd _
  · exact hs.execLoomCmdLgrp _
  · exact hs.execLoomCmdLloop _
  · exact hs.execLoomCmdVrd _
  · exact hs.execLoomMarker _

theorem eventsAt_keeping (s : State) (core : Nat) : AllKeeping (s.eventsAt core) := by
  unfold State.eventsAt
  refine .append (.append (.append (.append (.append (.append (.append (.append (proceeds_keeping s
    core) ?_) ?_) ?_) ?_) ?_) ?_) ?_) ?_
  · exact .ite (Move.Keeping.only fun hs => hs.execStoreErrorReport _) .nil
  · exact .ite (Move.Keeping.only fun hs => hs.execBindTask _) .nil
  · exact .ite (Move.Keeping.only fun hs => hs.execDequeRefill _) .nil
  · exact .ite (Move.Keeping.only fun hs => hs.execArrivalRefill _) .nil
  · exact .ite .nil (Move.Keeping.only fun hs => hs.execArrivalResend _)
  · split
    · exact .ite (Move.Keeping.only fun hs => loomEventOf_keeping _ _ hs) .nil
    · exact .nil
  · exact .ite (Move.Keeping.only fun hs => hs.pauseLoom _) .nil
  · exact .ite (Move.Keeping.only fun hs => hs.execScrivenerPause _) .nil

theorem scrEventOf_keeping (s : State) (cl q : Nat) : AllKeeping (s.scrEventOf cl q) := by
  unfold State.scrEventOf
  split
  · exact .ite (Move.Keeping.only fun hs => hs.execTilePrefetch _)
      (.ite (Move.Keeping.only fun hs => hs.execScrivenerCpy ..) 
        (.ite (Move.Keeping.only fun hs => hs.execScrivenerCpy2 ..) (Move.Keeping.only fun hs =>
          hs.execScrivenerCpyg ..)))
  · exact .nil

theorem eventsOf_keeping (s : State) (cl : Nat) : AllKeeping (s.eventsOf cl) :=
  .append (.map fun _ _ hs => hs.execTableWalkComplete ..)
    (AllKeeping.toList_find (.flatMap fun _ => scrEventOf_keeping s cl _) _)

theorem requestEvent_keeping (r : Req) : AllKeeping (requestEvent r) := by
  unfold requestEvent
  split
  · exact Move.Keeping.only fun hs => hs.execScratchpadRequest _
  · exact .nil
  · exact .ite (Move.Keeping.only fun hs => hs.execMemoryPortRead _)
      (.ite (Move.Keeping.only fun hs => hs.execMemoryPortWrite _) (Move.Keeping.only fun hs =>
        hs.execMemoryPortAtomic _))

theorem storeEventOf_keeping (e : WbEntry) : AllKeeping (storeEventOf e) := by
  unfold storeEventOf
  split
  · exact Move.Keeping.only fun hs => hs.execScratchpadRequest _
  · exact .nil
  · exact Move.Keeping.only fun hs => hs.execMemoryPortWrite _

theorem memoryEvents_keeping (s : State) : AllKeeping s.memoryEvents := by
  unfold State.memoryEvents
  refine .append (.append (.append (.append ?_ ?_) ?_) ?_) ?_
  · exact .map fun _ _ hs => hs.execLoadReply _
  · exact .flatMap requestEvent_keeping
  · exact .flatMap fun _ => .flatMap storeEventOf_keeping
  · exact .map fun _ _ hs => hs.execRedMergeGroupApply _
  · exact .map fun _ _ hs => hs.execDoomNotice _

theorem dispatchEvents_keeping (s : State) : AllKeeping s.dispatchEvents := by
  unfold State.dispatchEvents
  refine .append (.append (.append (.flatMap fun x => ?_) ?_) (.flatMap fun j => ?_)) ?_
  · exact .cons (fun hs => hs.execUnknownOpcode _) (.cons (fun hs => hs.execFencePacket _)
      (.cons (fun hs => hs.execIndirect _) (.cons (fun hs => hs.execSemwait _) (.cons (fun hs =>
        hs.execSemsig _)
      (.cons (fun hs => hs.execIntr _) (.cons (fun hs => hs.execFutwait _) (.cons (fun hs =>
        hs.execFeed _)
      (Move.Keeping.only fun hs => hs.execHeapAdmit _))))))))
  · exact .ite .nil (Move.Keeping.only fun hs => hs.execHeapTake)
  · exact .cons (fun hs => hs.execLaunch _) (.cons (fun hs => hs.execLaunchPlacement _) 
      (Move.Keeping.only fun hs => hs.execLaunchComplete _))
  · exact .map fun _ _ hs => hs.execCopy _

theorem bringUpEvents_keeping (s : State) : AllKeeping s.bringUpEvents :=
  .append (.ite .nil (Move.Keeping.only fun hs => hs.execPowerOn)) (.map fun _ _ hs =>
    hs.execFunctionReady _)

theorem events_keeping (s : State) : AllKeeping s.events :=
  AllKeeping.filter (.append (.append (.append (.append (.flatMap fun _ => eventsAt_keeping s _)
    (.flatMap (eventsOf_keeping s))) (memoryEvents_keeping s)) (dispatchEvents_keeping s))
      (bringUpEvents_keeping s)) _

theorem moves_keeping (s : State) : AllKeeping s.moves := by
  unfold State.moves
  refine .append (.append (.append (.append ?_ (events_keeping s)) ?_) ?_) ?_
  · exact .map fun _ _ hs => hs.issueSlot ..
  · exact .ite .nil (AllKeeping.filter (Move.Keeping.only fun hs => hs.takeInput) _)
  · exact .ite .nil (Move.Keeping.only fun hs => hs.takeRead)
  · exact .ite (Move.Keeping.only fun hs => hs.nextCycle) .nil

theorem moveOf_keeping (s : State) (n : Nat) : (s.moveOf n).Keeping := by
  unfold State.moveOf
  split
  · next h => exact forced_keeping h
  · dsimp only
    generalize (if s.moves.length ≤ 1 then 0 else n % s.moves.length) = k
    by_cases hk : k < s.moves.length
    · rw [List.getD_eq_getElem _ _ hk]
      exact moves_keeping s _ (List.getElem_mem hk)
    · rw [List.getD_eq_default _ _ (Nat.le_of_not_lt hk)]
      exact fun hs => hs.nextCycle

theorem State.Inv.stoppedStep (hs : s.Inv) : Out.Inv s.stoppedStep := by
  unfold State.stoppedStep
  split
  · next r _ => exact (hs.withInbox r).exec _
  · trivial

theorem State.Inv.stir (hs : s.Inv) :
    (s.stir).Inv := hs

theorem State.Inv.censusUpdate (hs : s.Inv) :
    (s.censusUpdate).Inv := hs

theorem State.Inv.noted (_ : s.Inv) {t : State} (ht : t.Inv) :
    (s.noted t).Inv := by
  grind [State.noted, State.Inv.censusUpdate, State.Inv]

theorem State.Inv.withCensus (hs : s.Inv) {o : Out} (ho : Out.Inv o) :
    Out.Inv (s.withCensus o) := by
  unfold State.withCensus
  grind [State.Inv.noted, State.Inv, Out.Inv]

theorem State.Inv.goOn (hs : s.Inv) : Out.Inv s.goOn :=
  hs.withCensus (hs.stir.unlessTraining (moveOf_keeping _ _ hs.stir))

/-! ### One step of a module, and a word placed where the next step fetches -/

theorem State.Inv.step (hs : s.Inv) :
    Out.Inv (Machine.step s) := by
  grind [Machine.step, State.Inv.goOn, State.Inv.stoppedStep, State.Inv, Out.Inv]
end Sys2Proof.Machine

namespace Sys2Proof.Proofs

open Sys2Proof.Machine

/-- Settles O52: each operation of the model keeps the form, so every instruction and event does, and a
step is one of these, the next cycle, or a stop. -/
theorem stepKeepsMemoryForm : Obligations.StepKeepsMemoryForm := by
  unfold Obligations.StepKeepsMemoryForm
  intro s t hs h
  have hk := hs.step
  rw [h] at hk
  exact hk

/-- Settles O53: reset is the empty memory. -/
theorem resetMemoryForm : Obligations.ResetMemoryForm := reset_inv

end Sys2Proof.Proofs
end

section
/-! ## What the issuing strand and its core read after the shared operations -/

namespace Sys2Proof.Machine

variable {s : State}

/-! ### Updates of a core, and of the own strand -/

/-- An update of a core that keeps its strands keeps the issuing one. -/
theorem State.me_setCore_of_strands {n : Nat} {c : Core} (h : c.strands = (s.core n).strands) :
    (s.setCore n c).me = s.me := by
  unfold State.me State.strand
  rw [State.setCore_issue, State.core_setCore]
  split
  · next e => rw [h, e]
  · rfl

/-- An update of the own core that keeps its strands keeps the issuing one. -/
theorem State.me_setMyCore_of_strands {c : Core} (h : c.strands = s.myCore.strands) :
    (s.setMyCore c).me = s.me := State.me_setCore_of_strands h

theorem State.myCore_setMe (t : Strand) : (s.setMe t).myCore = s.myCore.setStrand s.issue.slot t :=
  State.core_setCore_self ..

theorem State.core_setMe (t : Strand) (n : Nat) :
    (s.setMe t).core n = if n = s.issue.core then s.myCore.setStrand s.issue.slot t else s.core n :=
  State.core_setCore ..

/-! ### The port, and the completion of an instruction -/

theorem State.popPort_core (n : Nat) : s.popPort.core n =
    { s.core n with portQ := if s.issue.pops = true ∧ n = s.issue.core then (s.core n).portQ.drop 1
      else (s.core n).portQ } := by
  unfold State.popPort
  by_cases hp : s.issue.pops = true
  · rw [if_pos hp]
    dsimp only
    rw [State.setMyCore, State.core_setCore]
    split
    · next e => rw [if_pos ⟨hp, e⟩, e]; rfl
    · next e => rw [if_neg fun h => e h.2]
  · rw [if_neg hp, if_neg fun h => hp h.1]

@[simp] theorem State.popPort_me : s.popPort.me = s.me := by
  unfold State.popPort
  split
  · exact State.me_setMyCore_of_strands rfl
  · rfl

/-- The strand as its instruction's completion leaves it, at `pc`. -/
def Strand.retired (t : Strand) (pc : Word) : Strand :=
  { t with pc := pc, st := .ready, flight := none, walked := [], fetchWait := none,
           posted := if t.priv then t.posted.filter (fun x => x.1 != t.pc) else [] }

theorem State.retire_eq (pc : Word) : s.retire pc = s.popPort.setMe (s.me.retired pc) := by
  rw [← State.popPort_me]
  rfl

theorem State.retire_me (pc : Word) : (s.retire pc).me = s.me.retired pc := by
  rw [State.retire_eq, State.me_setMe]

theorem State.retire_core (pc : Word) (n : Nat) : (s.retire pc).core n =
    if n = s.issue.core then s.popPort.myCore.setStrand s.issue.slot (s.me.retired pc)
    else s.core n := by
  rw [State.retire_eq, State.core_setMe, State.popPort_issue]
  split
  · rfl
  · next e => rw [State.popPort_core, if_neg fun h => e h.2]

/-- The write of a register reaches the own strand, or the port of the core downstream (R170). -/
theorem State.setG_me (d : Reg) (v : Word) (p : Bool) : (s.setG d v p).me =
    if s.me.pmode && d == 31 then s.me else s.me.setReg d ⟨v, p⟩ := by
  unfold State.setG
  split
  · exact State.me_setCore_of_strands rfl
  · exact State.me_setMe ..

theorem not_writesPort {m : Bool} {d : Reg} (h : m = false ∨ d ≠ 31) : ¬ (m && d == 31) = true := by
  rcases h with h | h
  · simp [h]
  · rw [beq_false_of_ne h, Bool.and_false]
    exact Bool.false_ne_true

theorem State.setG_reg {d : Reg} {v : Word} {p : Bool} (h : s.me.pmode = false ∨ d ≠ 31) :
    s.setG d v p = s.setMe (s.me.setReg d ⟨v, p⟩) :=
  if_neg (not_writesPort h)

theorem State.setG_port {v : Word} {p : Bool} (h : s.me.pmode = true) :
    s.setG 31 v p = s.setCore (downstream s.issue.core)
      { s.core (downstream s.issue.core) with
        portQ := (s.core (downstream s.issue.core)).portQ ++ [⟨v, p⟩] } :=
  if_pos (by simp [h])

end Sys2Proof.Machine
end

section
/-! ## The user registers (O7) -/

namespace Sys2Proof.Machine

variable {s : State}

@[simp] theorem State.userReg_opened (i : Instr) (n : Nat) : (s.opened i).userReg n = s.userReg n := rfl

/-- A number above that of sr.task names no user register (R23). -/
theorem State.userReg_of_gt {n : Nat} (h : 0x0A < n) : s.userReg n = none :=
  match n, h with
  | _ + 11, _ => rfl

/-- SRD of a number that is assigned. -/
theorem exec_srd_some {g : Guard} {d : Reg} {n : BitVec 8} {v : Word} (h : s.Issues (.srd g d n) g)
    (hv : s.userReg n.toNat = some v) :
    exec (.srd g d n) s = .next (s.gives (.srd g d n) d v false) := by
  refine exec_done rfl h ?_
  rw [State.userReg_opened, hv]
  rfl

/-- SRD of a number that is not assigned. -/
theorem exec_srd_none {g : Guard} {d : Reg} {n : BitVec 8} (h : s.Issues (.srd g d n) g)
    (hv : s.userReg n.toNat = none) :
    exec (.srd g d n) s = .next (s.traps (.srd g d n) 0 0x6101 s.issue.word) := by
  refine exec_trap rfl h ?_
  rw [State.userReg_opened, hv]
  rfl

theorem exec_done_of_clean {i : Instr} {g : Guard} {rs : List Reg} {k : State → Res} {t : State}
    (he : exec i s = run i g s fun s => consume s rs k) (h : s.Issues i g) (hc : s.clean rs)
    (hk : k (s.opened i) = .done t) : exec i s = .next t.completes :=
  exec_done he h ((consume_clean (clean_opened hc) k).trans hk)

theorem exec_trap_of_clean {i : Instr} {g : Guard} {rs : List Reg} {k : State → Res} {t : State}
    {cause : BitVec 5} {code : Code} {v : Word}
    (he : exec i s = run i g s fun s => consume s rs k) (h : s.Issues i g) (hc : s.clean rs)
    (hk : k (s.opened i) = .trap t cause code v) : exec i s =
      .next (t.trap t.issue.core t.issue.slot cause code v t.me.pc t.issue.len) :=
  exec_trap he h ((consume_clean (clean_opened hc) k).trans hk)

/-- The state words of R23 as SRD reads them. -/
theorem State.userReg_of_mem {n : BitVec 8} {v : Word}
    (h : (n, v) ∈ [((0x00 : BitVec 8), (s.me.pred ||| 1).setWidth 64), (0x01, s.status),
      (0x02, BitVec.ofNat 64 (s.issuedAt - s.myCore.resetAt)), (0x03, BitVec.ofNat 64 (s.issuedAt / 4)),
      (0x04, s.me.seed), (0x05, s.me.rctr), (0x06, s.me.shape), (0x07, s.myCore.slotsize),
      (0x08, s.me.snap), (0x09, s.me.tx), (0x0A, s.me.task)]) : s.userReg n.toNat = some v := by
  simp only [List.mem_cons, Prod.mk.injEq, List.not_mem_nil, or_false] at h
  rcases h with ⟨rfl, rfl⟩ | ⟨rfl, rfl⟩ | ⟨rfl, rfl⟩ | ⟨rfl, rfl⟩ | ⟨rfl, rfl⟩ | ⟨rfl, rfl⟩ |
    ⟨rfl, rfl⟩ | ⟨rfl, rfl⟩ | ⟨rfl, rfl⟩ | ⟨rfl, rfl⟩ | ⟨rfl, rfl⟩ <;> rfl

end Sys2Proof.Machine

namespace Sys2Proof.Proofs

open Sys2Proof.Machine

/-- Settles O7: SRD by the table of the registers, and SWR of a clean source register by register. -/
theorem userRegistersComplete : Obligations.UserRegistersComplete := by
  unfold Obligations.UserRegistersComplete
  refine ⟨fun s g d n v h hv => exec_srd_some h (State.userReg_of_mem hv),
    fun s g d n h hn => exec_srd_none h (State.userReg_of_gt hn), fun s g a hc => ?_,
    fun s g fmt c1 r1 h => ?_⟩
  · refine ⟨fun h hv => ?_, fun h => ?_, fun h => ?_, fun h hv => ?_, fun h hv => ?_, fun h hv => ?_⟩
    · exact exec_done_of_clean rfl h hc (if_pos hv)
    · exact exec_done_of_clean rfl h hc rfl
    · exact exec_done_of_clean rfl h hc rfl
    · exact exec_done_of_clean rfl h hc (if_pos hv)
    · exact exec_done_of_clean rfl h hc (if_pos hv)
    · exact exec_trap_of_clean rfl h hc (if_neg (ne_true_of_eq_false hv))
  · intro v
    by_cases hv : shapeOk v = true
    · rw [if_pos hv]
      exact exec_done rfl h (if_pos hv)
    · rw [if_neg hv]
      exact exec_trap rfl h (if_neg hv)

end Sys2Proof.Proofs
end

section
/-! ## Accesses beyond the core (O11) -/

namespace Sys2Proof.Machine

variable {s : State}

/-! ### What a request leaves alone -/

/-- The parts of the state in which a request to another module leaves its trace, beside the request. -/
def State.withLinks (s : State) (k : SMap Cluster) (f : List (Nat × Packet)) (n : Nat) (m : Manage) : State :=
  { s with clusters := k, fabricOut := f, nextTag := n, man := m }

theorem State.emit_eq (p : Packet) : ∃ k f n m, s.emit p = s.withLinks k f n m := by
  unfold State.emit
  split
  · exact ⟨_, _, _, _, rfl⟩
  · exact ⟨_, _, _, _, rfl⟩

theorem State.sendPacket_eq (cl m path : Nat) (op : PktOp) (pa : Nat) (bs : List Byte) (oflag : Bool)
    (aux : BitVec 7) (args : List Word) :
    ∃ k f n x, (s.sendPacket cl m path op pa bs oflag aux args).2 = s.withLinks k f n x := by
  obtain ⟨k, f, n, m, h⟩ := State.emit_eq (s := { s with nextTag := (s.nextTag + 1) % 65536 }) _
  exact ⟨k, f, n, m, h⟩

/-- A request that is sent is kept as it was made, with the packet that carries it. -/
theorem State.sendReq_eq (r : Req) :
    ∃ k f n m y, s.sendReq r = (s.withLinks k f n m).setReq { r with sent := y } := by
  unfold State.sendReq
  split
  · next m _ =>
    dsimp only
    split
    · exact ⟨_, _, _, _, _, rfl⟩
    · next p _ =>
      obtain ⟨k, f, n, x, h⟩ := State.sendPacket_eq (s := s) (clusterOf r.core) m p (reqPktOp r.op) r.pa
        (reqBytes r.op r.size) r.oflag (reqAux r.op) (reqArgs r)
      rw [h]
      split <;> exact ⟨_, _, _, _, _, rfl⟩
  · exact ⟨_, _, _, _, _, rfl⟩

/-! ### One request, and the wait for its answer (R134) -/

/-- The state that has asked place `x` for `op` over `n` bytes at `ea`. -/
def State.asked (s : State) (x : Spot) (ea : Word) (op : ReqOp) (n : Nat) : State :=
  (s.useTlb ea).ask 0 op (s.target x).1 (s.target x).2.1 (s.target x).2.2.1 ea n (s.target x).2.2.2

theorem askOne_clear {x : Spot} {ea : Word} {op : ReqOp} {n : Nat}
    (h : s.ownSector (s.target x).1 (s.target x).2.1 n = false) :
    askOne s x ea op n = .await (s.asked x ea op n) 1 s.got := by
  unfold askOne
  simp only [h]
  rfl

@[simp] theorem State.useTlb_mem (ea : Word) : (s.useTlb ea).mem = s.mem := by
  unfold State.useTlb
  split <;> rfl

@[simp] theorem State.useTlb_issue (ea : Word) : (s.useTlb ea).issue = s.issue := by
  unfold State.useTlb
  split <;> rfl

@[simp] theorem State.useTlb_me (ea : Word) : (s.useTlb ea).me = s.me := by
  unfold State.useTlb
  split
  · exact State.me_setMyCore_of_strands rfl
  · rfl

/-- A request stands among the requests, as the issuing strand made it. -/
theorem State.exists_mem_ask (elem : Nat) (op : ReqOp) (place : Place) (addr pa : Nat) (ea : Word) (size : Nat)
    (ver : Bool) : ∃ r ∈ (s.ask elem op place addr pa ea size ver).reqs, r.core = s.issue.core ∧
      r.slot = s.issue.slot ∧ r.inst = s.me.inst ∧ r.op = op ∧ r.place = place ∧ r.addr = addr ∧ r.ea = ea ∧
      r.size = size := by
  unfold State.ask
  dsimp only
  generalize hr : (Req.mk ..) = r
  obtain ⟨k, f, n, m, y, e⟩ := State.sendReq_eq (s := { s with nextId := s.nextId + 1, reqs := s.reqs ++ [r] }) r
  rw [e]
  subst hr
  exact ⟨_, List.mem_map.2 ⟨_, List.mem_append_right _ (List.mem_singleton_self _), if_pos rfl⟩,
    rfl, rfl, rfl, rfl, rfl, rfl, rfl, rfl⟩

theorem State.ask_mem (elem : Nat) (op : ReqOp) (place : Place) (addr pa : Nat) (ea : Word) (size : Nat)
    (ver : Bool) : (s.ask elem op place addr pa ea size ver).mem = s.mem := by
  unfold State.ask
  dsimp only
  generalize (Req.mk ..) = r
  obtain ⟨k, f, n, m, y, e⟩ := State.sendReq_eq (s := { s with nextId := s.nextId + 1, reqs := s.reqs ++ [r] }) r
  rw [e]
  rfl

theorem State.ask_issue (elem : Nat) (op : ReqOp) (place : Place) (addr pa : Nat) (ea : Word) (size : Nat)
    (ver : Bool) : (s.ask elem op place addr pa ea size ver).issue = s.issue := by
  unfold State.ask
  dsimp only
  generalize (Req.mk ..) = r
  obtain ⟨k, f, n, m, y, e⟩ := State.sendReq_eq (s := { s with nextId := s.nextId + 1, reqs := s.reqs ++ [r] }) r
  rw [e]
  rfl

/-- The strand waits for the answer to the one request that it has made. -/
theorem State.asks_asked (i : Instr) {x : Spot} {ea : Word} {op : ReqOp} {n : Nat} :
    let t := (Res.await ((s.opened i).asked x ea op n) 1 (s.opened i).got).state
    s.asks t op x ea n ∧ t.mem = s.mem := by
  obtain ⟨r, hr, h⟩ := State.exists_mem_ask (s := (s.opened i).useTlb ea) 0 op ((s.opened i).target x).1
    ((s.opened i).target x).2.1 ((s.opened i).target x).2.2.1 ea n ((s.opened i).target x).2.2.2
  have hme := State.me_setMe ((s.opened i).asked x ea op n)
  rw [State.useTlb_me, State.useTlb_issue] at h
  refine ⟨⟨?_, ?_, r, hr, h⟩, ?_⟩
  · exact congrArg Strand.st (hme _)
  · exact congrArg (fun t => t.flight.map (·.out)) (hme _)
  · exact (State.ask_mem ..).trans (State.useTlb_mem ea)

/-! ### Loads -/

theorem State.pageRules_of_page {x : Spot} {ea : Word} {k : Kind} {fs : List Nat} (hx : s.spot ea = some x)
    (h : ∀ l pa, x = .glob l pa → s.checkPage l pa ea k fs = .ok) : s.pageRules ea k fs = .ok := by
  unfold State.pageRules
  rw [hx]
  cases x with
  | spad c o => rfl
  | glob l pa => exact h l pa rfl

/-- A read beyond the core asks its place. -/
theorem readUnit_far {ea : Word} {n : Nat} {need : Need} {op : ReqOp} {x : Spot}
    {fin : State → List Byte → List Bool → Res} (h : s.FarWords ea n need x) :
    readUnit s ea n op fin = .await (s.asked x ea op n) 1 s.got := by
  unfold readUnit
  rw [h.spot]
  cases x with
  | spad c o =>
    have hc : c ≠ s.issue.core := fun e => h.away o (by rw [e])
    exact (if_neg hc).trans (askOne_clear h.clear)
  | glob l pa => exact askOne_clear h.clear

/-- A load beyond the core whose checks pass asks its place. -/
theorem loadAt_far {srcs : List Reg} {ea : Word} {n : Nat} {x : Spot}
    {fin : State → List Byte → List Bool → Res} (hc : s.clean srcs) (h : s.FarWords ea n .read x)
    (hp : ∀ l pa, x = .glob l pa → s.checkPage l pa ea .load [] = .ok) :
    loadAt s srcs ea n fin = .await (s.asked x ea .load n) 1 s.got := by
  unfold loadAt
  rw [answered_none (answer_of_flight h.afresh 0), consume_clean hc, h.checked]
  simp only [Chk.andThen, State.pageRules_of_page h.spot hp, readUnit_far h, Res.issued_await]

/-- A load whose answer has come ends with it. -/
theorem loadAt_data {srcs : List Reg} {ea : Word} {n : Nat} {bs : List Byte} {ps : List Bool}
    {fin : State → List Byte → List Bool → Res} (h : s.answer 0 = some (.data bs ps)) :
    loadAt s srcs ea n fin = fin s bs ps := answered_data h

theorem run_await {i : Instr} {g : Guard} (h : s.Issues i g) {body : State → Res} {t : State} {n : Nat}
    {got : List (Nat × Answer)} (hb : body (s.opened i) = .await t n got) :
    run i g s body = .next (Res.await t n got).state := by
  rw [run_of_issues h, hb]

/-! ### Posted stores -/

@[simp] theorem length_leBytes (n v : Nat) : (leBytes n v).length = n := by
  induction n generalizing v with
  | zero => rfl
  | succ n ih => simp [leBytes, ih]

/-- The strand's write at `ea` to the global place of `pa` is posted: it is not a plain write of a versioned
page, its bank and the allowance have room, and a release has nothing to wait for (R109, R227, R231, R251). -/
structure State.Posts (s : State) (ea : Word) (l : Leaf) (pa : Nat) : Prop where
  spot : s.spot ea = some (.glob l pa)
  plain : l.ver = false ∨ txState s.me.tx ≠ 0
  bank : s.bankRoom (bankOf (s.placeOf pa)) 1 = true
  allowance : s.allowed (s.placeOf pa) = true
  release : s.isRelease = true → s.released s.mw.scope.toNat

theorem State.Posts.opened {ea : Word} {l : Leaf} {pa : Nat} (h : s.Posts ea l pa) (i : Instr) :
    (s.opened i).Posts ea l pa := ⟨h.1, h.2, h.3, h.4, h.5⟩

/-- The state after such a write. -/
def State.postedAt (s : State) (ea : Word) (l : Leaf) (pa : Nat) (op : StoreOp) (bs : List Byte)
    (ps : List Bool) : State :=
  (s.useTlb ea).post
    (s.wbEntry (s.placeOf pa) op (paOffset pa) pa ea bs ps l.ver s.oflag s.nextId)

theorem writeUnit_posts {ea : Word} {l : Leaf} {pa : Nat} {op : StoreOp} {bs : List Byte} {ps : List Bool}
    {n : Nat} (h : s.Posts ea l pa) :
    writeUnit s (.glob l pa) ea op bs ps n = .done (s.postedAt ea l pa op bs ps) := by
  have hv : (l.ver && txState s.me.tx == 0) = false := by
    rcases h.plain with hv | hv
    · simp [hv]
    · simp [beq_false_of_ne hv]
  unfold writeUnit
  simp only [hv, postStore, State.target, h.bank, h.allowance]
  rfl

theorem releaseIf_posts {ea : Word} {l : Leaf} {pa : Nat} (h : s.Posts ea l pa) (k : State → Res) :
    releaseIf s s.isRelease k = k s := by
  unfold releaseIf
  split
  · exact releasing_released (h.release ‹_›) k
  · rfl

/-- A store of clean data to a global place is posted. -/
theorem storeAt_posts {srcs : List Reg} {ea : Word} {bs : List Byte} {ps : List Bool} {l : Leaf} {pa : Nat}
    (ha : s.answer 0 = none) (hc : s.clean srcs) (hk : s.checkAccess ea bs.length bs.length .write = .ok)
    (hp : s.checkPage l pa ea .store (if s.oflag then [9] else []) = .ok) (h : s.Posts ea l pa) :
    storeAt s false s.isRelease srcs none ea bs ps = .done (s.postedAt ea l pa .bytes bs ps) := by
  unfold storeAt
  rw [answered_none ha, consume_clean hc, hk]
  simp only [Chk.andThen, h.spot, hp, Bool.false_eq_true, if_false, releaseIf_posts h, writeUnit_posts h,
    Res.issued_done]

theorem State.dirtyData_clean {d : Reg} {data : List Reg} (h : s.clean data) : s.dirtyData d data = none := by
  unfold State.dirtyData
  rw [List.any_eq_false.2 fun r hr => by simp [h r hr]]
  rfl

theorem scalarStore_posts {ty : StTy} {d : Reg} {srcs : List Reg} {ea : Word} {l : Leaf} {pa : Nat}
    (ha : s.answer 0 = none) (hc : s.clean srcs) (hd : s.clean [d])
    (hk : s.checkAccess ea (stSize ty) (stSize ty) .write = .ok)
    (hp : s.checkPage l pa ea .store (if s.oflag then [9] else []) = .ok) (h : s.Posts ea l pa) :
    scalarStore s false s.isRelease ty d srcs ea =
      .done (s.postedAt ea l pa .bytes (leBytes (stSize ty) (s.gv d).toNat) [s.gp d]) := by
  unfold scalarStore
  rw [State.dirtyData_clean hd]
  exact storeAt_posts ha hc (by rwa [length_leBytes]) hp h

theorem State.checkPage_ok {l : Leaf} {pa : Nat} {ea : Word} {k : Kind} {fs : List Nat}
    (h : s.checkPage l pa ea k fs = .ok) :
    s.checkFeatures l pa ea fs = .ok ∧ s.checkVersion l pa ea k = .ok := by
  unfold State.checkPage at h
  split at h
  · exact ⟨‹_›, h⟩
  · exact absurd h ‹_›

/-- An addressed form to HBM that is not served at once is its own meaning once its checks pass (R262). -/
theorem atForm_glob {srcs data : List Reg} {ea : Word} {n : Nat} {need : Need} {windows host : Bool} {k : Kind}
    {fs : List Nat} {l : Leaf} {pa : Nat} {body : State → Spot → Res} (hc : s.clean srcs) (hd : s.clean data)
    (hr : regionClass ea = 0) (hk : s.checkAccess ea n n need = .ok) (hs : s.spot ea = some (.glob l pa))
    (ho : inHbm (paOffset pa) = true) (hp : s.checkPage l pa ea k fs = .ok) :
    atForm s srcs data ea n need windows host k fs body = (body s (.glob l pa)).issued ea := by
  obtain ⟨hf, hv⟩ := State.checkPage_ok hp
  have hform : s.checkForm ea n need windows = .ok := by
    simp [State.checkForm, hr, hk]
  have hplace : s.checkPlace ea host = .ok := by
    simp [State.checkPlace, hs, ho]
  unfold atForm
  rw [consume_clean hc]
  simp only [hform, hplace, Chk.andThen, hs, hf, consume_clean hd, hv]

theorem red_posts {a b : Reg} {w : Bool} {op : RedOp} {l : Leaf} {pa : Nat} {fin : State → Answer → Res}
    (hn : s.answer 0 = none) (ha : s.clean [a]) (hb : s.clean [b]) (hr : regionClass (s.gv a) = 0)
    (hk : s.checkAccess (s.gv a) (redSize op w) (redSize op w) .both = .ok) (ho : inHbm (paOffset pa) = true)
    (hp : s.checkPage l pa (s.gv a) .rmw [redFeature op] = .ok) (h : s.Posts (s.gv a) l pa) :
    (answered s fin fun s => atForm s [a] [b] (s.gv a) (redSize op w) .both false false .rmw [redFeature op]
      fun t x => releaseIf t t.isRelease fun t => writeUnit t x (s.gv a) (.red op w (t.gv b)) [] [] (redSize op w)) =
      .done (s.postedAt (s.gv a) l pa (.red op w (s.gv b)) [] []) := by
  rw [answered_none hn, atForm_glob ha hb hr hk h.spot ho hp, releaseIf_posts h, writeUnit_posts h,
    Res.issued_done]

theorem xclr_posts {a : Reg} {l : Leaf} {pa : Nat} {fin : State → Answer → Res}
    (hn : s.answer 0 = none) (ha : s.clean [a]) (hr : regionClass (s.gv a) = 0)
    (hk : s.checkAccess (s.gv a) 128 128 .write = .ok) (ho : inHbm (paOffset pa) = true)
    (hp : s.checkPage l pa (s.gv a) .store [5] = .ok) (h : s.Posts (s.gv a) l pa) :
    (answered s fin fun s => atForm s [a] [] (s.gv a) 128 .write false false .store [5]
      fun t x => writeUnit t x (s.gv a) .clear [] [] 128) = .done (s.postedAt (s.gv a) l pa .clear [] []) := by
  rw [answered_none hn, atForm_glob ha (fun _ h => absurd h List.not_mem_nil) hr hk h.spot ho hp,
    writeUnit_posts h, Res.issued_done]

end Sys2Proof.Machine

namespace Sys2Proof.Proofs

open Sys2Proof.Machine

/-- Settles O11: a load whose checks pass asks, an answer ends its form, and a write whose checks pass is
posted. -/
theorem farAccessesComplete : Obligations.FarAccessesComplete := by
  unfold Obligations.FarAccessesComplete
  refine ⟨fun s g d a b ty off x => ?_, fun s g d a b ty off l pa => ?_⟩
  · intro n ea
    refine ⟨fun h hc hf hp => ?_, fun bs ps ha => ⟨fun h => ?_, fun h => ?_, fun h => ?_, fun h => ?_,
      fun h => ?_⟩⟩
    · have hf' : (s.opened (.ld g ty d a off)).FarWords ea n .read x := ⟨hf.1, hf.2, hf.3, hf.4, hf.5⟩
      exact ⟨_, run_await h (loadAt_far (clean_opened hc) hf' hp), State.asks_asked _⟩
    · exact exec_done rfl h (loadAt_data ha)
    · exact exec_done rfl h (loadAt_data ha)
    · exact exec_done rfl h (answered_data ha)
    · exact exec_done rfl h (answered_data ha)
    · exact exec_done rfl h (answered_data ha)
  · intro x place room posted
    have posts : ∀ {ea n need}, room ea n need → s.Posts ea l pa :=
      fun ⟨_, _, hs, hv, hb, hw, hr⟩ => ⟨hs, hv, hb, hw, hr⟩
    refine ⟨?_, fun w op => ?_, fun h hc hr ho hm hp => ?_⟩
    · intro n ea h hc hm hp
      have hd : s.clean [d] := fun r hr => hc r (List.mem_cons_of_mem _ hr)
      have ha : s.clean [a] := fun r hr => hc r (List.mem_of_mem_take (i := 1) hr)
      exact exec_done rfl h (scalarStore_posts hm.1 (clean_opened ha) (clean_opened hd) hm.2.1 hp
        ((posts hm).opened _))
    · intro n h hc hr ho hm hp
      have hb : s.clean [b] := fun r hr => hc r (List.mem_cons_of_mem _ hr)
      have ha : s.clean [a] := fun r hr => hc r (List.mem_of_mem_take (i := 1) hr)
      exact exec_done rfl h (red_posts hm.1 (clean_opened ha) (clean_opened hb) hr hm.2.1 ho hp
        ((posts hm).opened _))
    · exact exec_done rfl h (xclr_posts hm.1 (clean_opened hc) hr hm.2.1 ho hp ((posts hm).opened _))

end Sys2Proof.Proofs
end

section
/-! ## Return from a trap (O32) -/

namespace Sys2Proof.Machine

variable {s : State}

/-! ### The skip of posted stores, and the return -/

theorem State.skipPosted_me : ∃ l, s.skipPosted.me = { s.me with posted := l } := by
  unfold State.skipPosted
  dsimp only
  split
  · exact ⟨_, State.me_setMe ..⟩
  · exact ⟨_, rfl⟩

theorem State.skipPosted_myCore : ∃ l, s.skipPosted.myCore = { s.myCore with strands := l } := by
  unfold State.skipPosted
  dsimp only
  split
  · exact ⟨_, State.myCore_setMe _⟩
  · exact ⟨_, rfl⟩

@[simp] theorem State.skipPosted_mem : s.skipPosted.mem = s.mem := by
  unfold State.skipPosted
  dsimp only
  split <;> rfl

theorem State.eretReturn_me : s.eretReturn.me = if s.me.estat.getLsbD 6 then s.me.freed else
    { s.me with pc := s.me.returnPc, priv := s.me.estat.getLsbD 4, flight := none, walked := [] } :=
  State.me_setMe ..

/-- The own core after a return: hold is clear after an interrupt, and a bare slot has been returned. -/
theorem State.eretReturn_myCore : ∃ l, s.eretReturn.myCore =
    { s.myCore with
      strands := l
      cctl := if s.me.estat.getLsbD 5 then s.myCore.cctl &&& ~~~1 else s.myCore.cctl
      returned := s.me.estat.getLsbD 6 || s.myCore.returned } := by
  refine ⟨s.eretReturn.myCore.strands, ?_⟩
  unfold State.eretReturn
  dsimp only
  rw [State.myCore_setMe, State.myCore_setMyCore]
  cases s.me.estat.getLsbD 5 <;> cases s.me.estat.getLsbD 6 <;> rfl

/-! ### ERET by its act -/

theorem exec_eret_return {g : Guard} (h : s.Issues (.eret g) g) (ha : bits s.me.estat 1 0 < 2) :
    exec (.eret g) s = .next (s.opened (.eret g)).skipPosted.eretReturn := by
  refine exec_gone rfl h ?_
  have ha' : bits s.me.estat 1 0 = 0 ∨ bits s.me.estat 1 0 = 1 := by omega
  rcases ha' with ha' | ha' <;> simp only [State.me_opened, ha']

theorem exec_eret_kill {g : Guard} {t : State} (h : s.Issues (.eret g) g) (ha : bits s.me.estat 1 0 = 2)
    (hk : eretKill (s.opened (.eret g)) = .gone t) : exec (.eret g) s = .next t := by
  refine exec_gone rfl h ?_
  simp only [State.me_opened, ha, hk]

theorem getLsbD_zero_and_not_one (w : Word) : (w &&& ~~~1).getLsbD 0 = false := by simp

/-- The code of a saved cause has sixteen bits. -/
theorem Strand.killCode_toNat (t : Strand) : t.killCode.toNat = bits t.cause 31 16 := by
  have h : bits t.cause 31 16 < 2 ^ 16 := Nat.mod_lt _ (Nat.two_pow_pos _)
  exact Nat.mod_eq_of_lt (by omega)

theorem eretKill_fault (hb : s.me.estat.getLsbD 6 = false) (hc : faultWordOk s.me.killCode = true) :
    eretKill s = .gone (s.killStrand s.issue.core s.issue.slot
      (BitVec.ofNat 64 (bits s.me.tval 47 0 * 2 ^ 16 + bits s.me.cause 31 16))) := by
  unfold eretKill
  simp only [hb, hc, Strand.killCode_toNat]
  rfl

theorem eretKill_operand (hb : s.me.estat.getLsbD 6 = false) (hc : faultWordOk s.me.killCode = false) :
    eretKill s = .operand s s.me.killCode := by
  unfold eretKill
  simp only [hb, hc]
  rfl

end Sys2Proof.Machine

namespace Sys2Proof.Proofs

open Sys2Proof.Machine

/-- Settles O32: the act of sr.estat chooses between the return, the kill and the trap. -/
theorem eretReturnsOrKills : Obligations.EretReturnsOrKills := by
  unfold Obligations.EretReturnsOrKills
  intro s g h w
  obtain ⟨l, hme⟩ := State.skipPosted_me (s := s.opened (.eret g))
  obtain ⟨m, hcore⟩ := State.skipPosted_myCore (s := s.opened (.eret g))
  obtain ⟨r, hret⟩ := State.eretReturn_myCore (s := (s.opened (.eret g)).skipPosted)
  have hre := State.eretReturn_me (s := (s.opened (.eret g)).skipPosted)
  rw [State.me_opened] at hme
  rw [State.myCore_opened] at hcore
  rw [hme] at hre
  rw [hme, hcore] at hret
  refine ⟨fun ha hb => ⟨_, exec_eret_return h ha, ?_⟩, fun ha hb => ⟨_, exec_eret_return h ha, ?_⟩,
    fun ha hb => ?_, fun ha hb => ⟨fun hc => ?_, fun hc => ?_⟩, fun ha => ?_⟩
  · rw [if_neg (ne_true_of_eq_false hb)] at hre
    rw [hre, hret]
    refine ⟨rfl, rfl, fun hi => ?_, fun hi => if_neg (ne_true_of_eq_false hi), fun _ => rfl, fun _ => rfl, rfl,
      rfl, rfl, rfl, rfl, fun k => ?_⟩
    · exact (congrArg (BitVec.getLsbD · 0) (if_pos hi)).trans (getLsbD_zero_and_not_one _)
    · exact congrArg (fun m => SMap.get m 0 k) State.skipPosted_mem
  · rw [if_pos hb] at hre
    rw [hre, hret]
    refine ⟨rfl, rfl, fun _ => rfl, ?_, rfl, fun hi => ?_, fun hi => if_neg (ne_true_of_eq_false hi)⟩
    · exact congrArg (· || _) hb
    · exact (congrArg (BitVec.getLsbD · 0) (if_pos hi)).trans (getLsbD_zero_and_not_one _)
  · exact exec_eret_kill h ha (if_pos hb)
  · exact exec_eret_kill h ha (eretKill_fault hb hc)
  · refine exec_trap rfl h ?_
    simp only [State.me_opened, show bits s.me.estat 1 0 = 2 from ha]
    exact eretKill_operand hb hc
  · refine exec_trap rfl h ?_
    simp only [State.me_opened, show bits s.me.estat 1 0 = 3 from ha]
    rfl

end Sys2Proof.Proofs
end

section
/-! ## Results read back (O55) -/

namespace Sys2Proof.Machine

variable {s : State}

theorem Strand.p_of_ne_zero {t : Strand} {n : Pred} (h : n ≠ 0) : t.p n = t.pred.getLsbD n.toNat := by
  unfold Strand.p
  rw [beq_false_of_ne h, Bool.false_or]

/-- A predicate written leaves the others (R20). -/
theorem Strand.p_setP_of_ne (t : Strand) {n m : Pred} (b : Bool) (h : m ≠ n) : (t.setP n b).p m = t.p m := by
  unfold Strand.setP
  split
  · rfl
  · have hne : n.toNat ≠ m.toNat := fun e => h (BitVec.eq_of_toNat_eq e.symm)
    have hbit : (BitVec.ofNat 16 (2 ^ n.toNat)).getLsbD m.toNat = false := by
      rw [BitVec.getLsbD_ofNat, Nat.testBit_two_pow_of_ne hne, Bool.and_false]
    have hm : m.toNat < 16 := m.isLt
    unfold Strand.p
    dsimp only
    generalize BitVec.ofNat 16 (2 ^ n.toNat) = x at hbit
    cases b
    · rw [if_neg (by decide), BitVec.getLsbD_and, BitVec.getLsbD_not, hbit, decide_eq_true hm]
      simp
    · rw [if_pos rfl, BitVec.getLsbD_or, hbit, Bool.or_false]

theorem State.gives_me (i : Instr) (d : Reg) (v : Word) (b : Bool) : (s.gives i d v b).me =
    (if s.me.pmode && d == 31 then s.me else s.me.setReg d ⟨v, b⟩).retired s.nextPc := by
  unfold State.gives State.completes
  rw [State.retire_me, State.setG_me, State.me_opened]
  congr 1
  unfold State.nextPc
  rw [State.setG_me, State.setG_issue, State.me_opened]
  split <;> rfl

theorem State.sets_me (i : Instr) (n : Pred) (b : Bool) :
    (s.sets i n b).me = (s.me.setP n b).retired s.nextPc := by
  unfold State.sets State.completes
  rw [State.retire_me, State.setP, State.me_setMe, State.me_opened]
  congr 1
  unfold State.nextPc
  rw [State.me_setMe, Strand.setP_pc]
  rfl

/-- A write to g31 in port mode joins the queue of the core downstream (R170). -/
theorem State.gives_portQ {i : Instr} {v : Word} {b : Bool} (hp : s.me.pmode = true)
    (hd : s.issue.core ≠ downstream s.issue.core) :
    ((s.gives i 31 v b).core (downstream s.issue.core)).portQ =
      (s.core (downstream s.issue.core)).portQ ++ [⟨v, b⟩] := by
  unfold State.gives State.completes
  rw [State.retire_core, State.setG_issue, State.issue_core_opened, if_neg (Ne.symm hd),
    State.setG_port (s := s.opened i) hp]
  exact congrArg Core.portQ (State.core_setCore_self ..)

/-- An instruction that names g30 takes the head of its port (R170). -/
theorem State.gives_popped {i : Instr} {d : Reg} {v : Word} {b : Bool} (hp : s.me.pmode = true)
    (hi : (named i).1.contains 30 = true) (hd : d ≠ 31) :
    (s.gives i d v b).myCore.portQ = s.myCore.portQ.drop 1 := by
  have hpop : ((s.opened i).setG d v b).issue.pops = true := by
    rw [State.setG_issue]
    exact Bool.and_eq_true_iff.2 ⟨hp, hi⟩
  unfold State.gives State.completes
  rw [State.myCore, State.retire_core, State.retire_issue, if_pos rfl]
  show (State.myCore (State.popPort _)).portQ = _
  rw [State.myCore, State.popPort_core, State.popPort_issue, if_pos ⟨hpop, rfl⟩, State.setG_reg (.inr hd)]
  exact congrArg (fun c => List.drop 1 c.portQ) (State.myCore_setMe _)

end Sys2Proof.Machine

namespace Sys2Proof.Proofs

open Sys2Proof.Machine

/-- Settles O55: the issuing strand after a result is the strand with that register or predicate written,
and completed. -/
theorem resultsReadBack : Obligations.ResultsReadBack := by
  unfold Obligations.ResultsReadBack
  refine ⟨fun s i d v b => ?_, fun s i n b => ?_⟩
  · intro t
    have ht : t.me = _ := State.gives_me i d v b
    rw [ht]
    refine ⟨rfl, rfl, fun h => ?_, fun hp hd hc => ?_, fun hp hi hd => State.gives_popped hp hi hd⟩
    · rw [if_neg (not_writesPort h)]
      exact ⟨Strand.reg_setReg_self .., fun r hr => (Strand.reg_setReg ..).trans (if_neg hr)⟩
    · subst hd
      rw [if_pos (by simp [hp])]
      exact ⟨State.gives_portQ hp hc, fun _ => rfl⟩
  · intro t
    have ht : t.me = _ := State.sets_me i n b
    rw [ht]
    refine ⟨rfl, Strand.p_zero _, fun hn => ⟨Strand.p_setP_self _ _ hn, ?_⟩, fun hn => ?_,
      fun m hm => Strand.p_setP_of_ne _ _ hm, fun m hm => Strand.p_of_ne_zero hm, fun r => ?_⟩
    · exact (Strand.p_of_ne_zero hn).symm.trans (Strand.p_setP_self _ _ hn)
    · exact congrArg (fun t => (Strand.retired t s.nextPc).pred) (show s.me.setP n b = s.me from if_pos hn)
    · exact congrArg (fun g => SMap.get g ⟨0, false⟩ r.toNat) (Strand.setP_g s.me n b)

end Sys2Proof.Proofs
end

section
/-! ## Guards, levels and features (O56) -/

namespace Sys2Proof.Machine

variable {s : State} {i : Instr} {g : Guard} {body : State → Res}

/-! ### Every instruction with a guard is run under it -/

/-- An instruction with a guard is run under it, as itself or as the form that a compact one stands for (R47). -/
theorem exec_eq_run_of_guardOf (h : i.guardOf = some g) : ∃ j body, (∀ s, exec i s = run j g s body) ∧
    j.supervisor = i.supervisor ∧ ∀ s, featureOk s j = featureOk s i := by
  cases i <;> cases h <;> exact ⟨_, _, fun _ => rfl, rfl, fun _ => rfl⟩

theorem exists_guardOf_of_supervisor (h : i.supervisor = true) : ∃ g, i.guardOf = some g := by
  cases i <;> cases h <;> exact ⟨_, rfl⟩

theorem exists_guardOf_of_featureOk_false (h : featureOk s i = false) : ∃ g, i.guardOf = some g := by
  cases hg : i.guardOf with
  | some g => exact ⟨g, rfl⟩
  | none => cases i <;> cases hg <;> cases h

/-! ### The three ends of `begin` before an instruction's own meaning -/

/-- The state in which the checks before an instruction's own are made. -/
def State.begun (s : State) (i : Instr) : State :=
  { s with issue := { s.issue with instr := i, pops := false } }

@[simp] theorem featureOk_begun (j : Instr) : featureOk (s.begun j) i = featureOk s i := by
  cases i <;> rfl

/-- The features that the modifier word needs have been accepted (R410). -/
def State.mwAccepted (s : State) : Prop :=
  s.issue.mw.any (fun m => m.rm == 5) = true → s.feature 5 = true

theorem State.mwAccepted.eq_false (h : s.mwAccepted) :
    (s.issue.mw.any (fun m => m.rm == 5) && !s.feature 5) = false := by
  cases hm : s.issue.mw.any (fun m => m.rm == 5)
  · rfl
  · rw [h hm]
    rfl

theorem begin_eq : begin i g s body =
    if !featureOk s i || (s.issue.mw.any (fun m => m.rm == 5) && !s.feature 5) then .illegal (s.begun i)
    else if i.supervisor && !s.me.priv then .privilege (s.begun i)
    else if !s.passes g then .done (s.begun i)
    else portGate (s.begun i) (named i).1 (named i).2 body := by
  rw [← featureOk_begun (s := s) (i := i) i]
  rfl

theorem begin_of_feature_false (h : featureOk s i = false) : begin i g s body = .illegal (s.begun i) := by
  rw [begin_eq, h]
  rfl

theorem begin_of_level_false (hf : featureOk s i = true) (hm : s.mwAccepted) (hi : i.supervisor = true)
    (hp : s.me.priv = false) : begin i g s body = .privilege (s.begun i) := by
  rw [begin_eq, hf, hm.eq_false, hi, hp]
  rfl

theorem begin_of_guard_false (hf : featureOk s i = true) (hm : s.mwAccepted)
    (hl : i.supervisor = true → s.me.priv = true) (hg : s.passes g = false) :
    begin i g s body = .done (s.begun i) := by
  have hl' : (i.supervisor && !s.me.priv) = false := by
    cases hi : i.supervisor
    · rfl
    · rw [hl hi]
      rfl
  rw [begin_eq, hf, hm.eq_false, hl', hg]
  rfl

/-! ### The trap of an instruction that may not be carried out (R339) -/

/-- The strand of `t` has taken a trap in the instruction that `s` issues, with its word. -/
structure State.Trapped (s t : State) (cause : Word) : Prop where
  cause : t.me.cause = cause
  tval : t.me.tval = s.issue.word
  epc : t.me.epc = s.me.pc
  priv : t.me.priv = true
  pc : t.me.pc = s.myCore.tvec &&& 0x00FFFFFFFFFFFFFE
  level : t.me.estat.getLsbD 4 = s.me.priv
  regs : ∀ r, t.me.reg r = s.me.reg r
  preds : ∀ n, t.me.p n = s.me.p n
  mem : t.mem = s.mem

theorem Strand.enter_estat_priv (t : Strand) (tvec : Word) (cause : BitVec 5) (code : Code) (v pc : Word)
    (len : Nat) : (t.enter tvec cause code v pc len false false).estat.getLsbD 4 = t.priv := by
  have hlen : (ilenOf len <<< 2).getLsbD 4 = false := by
    unfold ilenOf
    split
    · rfl
    · split <;> rfl
  unfold Strand.enter
  dsimp only
  rw [BitVec.getLsbD_or, hlen]
  cases t.priv <;> rfl

/-- The trap of the issuing strand: its own strand and the history of faults change (R339, R342). -/
theorem State.trap_own {cause : BitVec 5} {code : Code} {v pc : Word} {len : Nat}
    (h : s.me.priv = false ∨ s.me.estat.getLsbD 7 = true) : ∃ m,
      s.trap s.issue.core s.issue.slot cause code v pc len =
        State.setMe { s with man := m } (s.me.enter s.myCore.tvec cause code v pc len false false) := by
  have hd : (s.me.priv && !s.me.estat.getLsbD 7) = false := by
    rcases h with h | h
    · rw [h]
      rfl
    · rw [h, Bool.not_true, Bool.and_false]
  rw [State.trap_eq _ _ _ _ _ _ _ _ hd]
  cases recorded cause
  · exact ⟨s.man, rfl⟩
  · exact ⟨_, rfl⟩

/-- The trap of a strand that is already in one: it halts (R342). -/
theorem State.trap_double {cause : BitVec 5} {code : Code} {v pc : Word} {len : Nat}
    (hp : s.me.priv = true) (he : s.me.estat.getLsbD 7 = false) : ∃ m n,
      s.trap s.issue.core s.issue.slot cause code v pc len =
        { (State.setMyCore { s with man := m } { s.myCore with
            dbg := (s.myCore.dbg &&& ~~~0x0000000001F00000) ||| 0x40000000 |||
              BitVec.ofNat 64 (s.issue.slot * 2 ^ 20) }).setMe
            { s.me with st := .halted, flight := none, walked := [], fetchWait := none } with man := n } := by
  have hd : (s.me.priv && !s.me.estat.getLsbD 7) = true := by
    rw [hp, he]
    rfl
  unfold State.trap
  cases recorded cause
  · exact ⟨s.man, _, if_pos hd⟩
  · exact ⟨_, _, if_pos hd⟩

theorem State.trapped_of_not_double (j : Instr) {cause : BitVec 5} {code : Code}
    (h : s.me.priv = false ∨ s.me.estat.getLsbD 7 = true) :
    s.Trapped (Res.state (.trap (s.begun j) cause code s.issue.word))
      (BitVec.ofNat 64 (code.toNat * 2 ^ 16 + cause.toNat)) := by
  obtain ⟨m, ht⟩ := State.trap_own (s := s.begun j) (cause := cause) (code := code) (v := s.issue.word)
    (pc := s.me.pc) (len := s.issue.len) h
  have hs : Res.state (.trap (s.begun j) cause code s.issue.word) = _ := ht
  rw [hs]
  have hme := State.me_setMe { s.begun j with man := m }
    (s.me.enter s.myCore.tvec cause code s.issue.word s.me.pc s.issue.len false false)
  exact ⟨congrArg Strand.cause hme, congrArg Strand.tval hme, congrArg Strand.epc hme, congrArg Strand.priv hme,
    congrArg Strand.pc hme, (congrArg (fun t => t.estat.getLsbD 4) hme).trans (Strand.enter_estat_priv ..),
    fun r => congrArg (fun t => t.reg r) hme, fun n => congrArg (fun t => t.p n) hme, rfl⟩

/-- A strand that takes a double trap halts with its registers. -/
theorem State.halted_of_double (j : Instr) {cause : BitVec 5} {code : Code} {v : Word}
    (hp : s.me.priv = true) (he : s.me.estat.getLsbD 7 = false) :
    let t := Res.state (.trap (s.begun j) cause code v)
    t.me.st = .halted ∧ t.myCore.dbg.getLsbD 30 = true ∧ (∀ r, t.me.reg r = s.me.reg r) ∧ t.mem = s.mem := by
  obtain ⟨m, n, ht⟩ := State.trap_double (s := s.begun j) (cause := cause) (code := code) (v := v)
    (pc := s.me.pc) (len := s.issue.len) hp he
  have hs : Res.state (.trap (s.begun j) cause code v) = _ := ht
  intro t
  have hme : t.me = { s.me with st := .halted, flight := none, walked := [], fetchWait := none } :=
    (congrArg State.me hs).trans (State.me_setMe ..)
  have hcore : t.myCore.dbg = (s.myCore.dbg &&& ~~~0x0000000001F00000) ||| 0x40000000 |||
      BitVec.ofNat 64 (s.issue.slot * 2 ^ 20) :=
    (congrArg (fun u : State => u.myCore.dbg) hs).trans ((congrArg Core.dbg (State.myCore_setMe _)).trans
      (congrArg Core.dbg (State.myCore_setMyCore ..)))
  refine ⟨congrArg Strand.st hme, ?_, fun r => congrArg (fun t => t.reg r) hme, (congrArg State.mem hs).trans rfl⟩
  rw [hcore, BitVec.getLsbD_or, BitVec.getLsbD_or]
  simp

/-! ### The outcomes of an instruction that may not be carried out -/

theorem run_state (h : s.man.stopped = false) : run i g s body = .next (begin i g s body).state :=
  event_of_running h _

end Sys2Proof.Machine

namespace Sys2Proof.Proofs

open Sys2Proof.Machine

/-- Settles O56: an instruction with a guard is run under it, and so is every supervisor instruction and every
one of a feature; `begin` then ends before the instruction's own meaning. -/
theorem guardsLevelsAndFeatures : Obligations.GuardsLevelsAndFeatures := by
  unfold Obligations.GuardsLevelsAndFeatures
  intro s i hrun trapped
  have trapped_of : ∀ {t : State} {c : Word}, s.Trapped t c → trapped t c :=
    fun ⟨h1, h2, h3, h4, h5, h6, h7, h8, h9⟩ => ⟨h1, h2, h3, h4, h5, h6, h7, h8, h9⟩
  refine ⟨fun g hi hf hl hm hg => ?_, fun hi hp hf hm => ?_, fun hf h => ?_, fun hf hp he => ?_⟩
  · obtain ⟨j, body, he, hsup, hfeat⟩ := exec_eq_run_of_guardOf hi
    refine ⟨j, ?_⟩
    rw [he, run_state hrun, begin_of_guard_false ((hfeat s).trans hf) hm (fun h => hl (hsup ▸ h)) hg]
    rfl
  · obtain ⟨g, hg⟩ := exists_guardOf_of_supervisor hi
    obtain ⟨j, body, he, hsup, hfeat⟩ := exec_eq_run_of_guardOf hg
    refine ⟨_, (he s).trans (run_state hrun), trapped_of ?_⟩
    rw [begin_of_level_false ((hfeat s).trans hf) hm (hsup.trans hi) hp]
    exact State.trapped_of_not_double j (.inl hp)
  · obtain ⟨g, hg⟩ := exists_guardOf_of_featureOk_false hf
    obtain ⟨j, body, he, -, hfeat⟩ := exec_eq_run_of_guardOf hg
    refine ⟨_, (he s).trans (run_state hrun), trapped_of ?_⟩
    rw [begin_of_feature_false ((hfeat s).trans hf)]
    exact State.trapped_of_not_double j h
  · obtain ⟨g, hg⟩ := exists_guardOf_of_featureOk_false hf
    obtain ⟨j, body, hx, -, hfeat⟩ := exec_eq_run_of_guardOf hg
    refine ⟨_, (hx s).trans (run_state hrun), ?_⟩
    rw [begin_of_feature_false ((hfeat s).trans hf)]
    exact State.halted_of_double j hp he

end Sys2Proof.Proofs
end

section
/-! ## The step of one strand that issues (O48) -/

namespace Sys2Proof.Machine

variable {s : State}

/-! ### The caches of the memory ports keep memory -/

@[simp] theorem State.evictLine_mem (s : State) (line : Nat) (d : Bool) : (s.evictLine line d).mem = s.mem := by
  unfold State.evictLine
  refine foldl_mem _ (fun s j => ?_) _ _
  dsimp only
  split <;> rfl

@[simp] theorem State.cacheAccess_mem (s : State) (o : Nat) : (s.cacheAccess o).mem = s.mem := by
  unfold State.cacheAccess
  dsimp only
  split
  · rfl
  · split
    · rfl
    · rw [State.setPort_mem]
      split
      · exact State.evictLine_mem ..
      · rfl

@[simp] theorem State.cacheLines_mem (o n : Nat) : (s.cacheLines o n).mem = s.mem :=
  foldl_mem _ (fun s l => s.cacheAccess_mem l) _ s

theorem State.flushLine_of_no_groups (h : s.groups = []) (o : Nat) : s.flushLine o = s := by
  unfold State.flushLine
  rw [h]
  rfl

/-- A port's read of the newest bytes finds those of memory. -/
theorem State.portRead_bytes (o n : Nat) (snap tx : Word) :
    (s.portRead o n false snap tx).1 = s.bytes o n :=
  ((s.cacheLines o n).readHbm_bytes o n).trans (State.bytes_congr (State.cacheLines_mem o n) o n)

/-! ### The one move of a cycle -/

theorem State.moves_of_one {core slot : Nat} (hi : s.issues = [(core, slot)]) (he : s.events = [])
    (hb : s.inbox = []) (hr : s.hostReads = []) : s.moves = [fun s => s.issueSlot core slot] := by
  unfold State.moves
  rw [hi, he, hb, hr]
  rfl

theorem State.moveOf_of_one {m : Move} (hf : s.forced = none) (hm : s.moves = [m]) (n : Nat) :
    s.moveOf n = m := by
  unfold State.moveOf
  rw [hf, hm]
  rfl

theorem State.touchedTraining_of_training {t : State} (h : s.training = false) : s.touchedTraining t = false := by
  unfold State.touchedTraining
  rw [show (List.range 8).any _ = false from h, Bool.false_and]

/-- A move that is sure to do something, or that no stack in training can stop, is taken as it is. -/
theorem State.unlessTraining_of_does {m : Move} (h : s.training = false ∨ s.does m = true) :
    s.unlessTraining (m s) = m s := by
  unfold State.unlessTraining
  split
  · next t e =>
    have ht : s.touchedTraining t = false := by
      rcases h with h | h
      · exact State.touchedTraining_of_training h
      · unfold State.does at h
        rw [e] at h
        simpa using (Bool.and_eq_true_iff.1 h).2
    rw [if_neg (ne_true_of_eq_false ht), e]
  · rfl

/-- A step of a cycle in which one slot issues is that issue, with the census brought up to date. -/
theorem step_of_one {core slot : Nat} (hs : s.man.stopped = false) (hf : s.stir.forced = none)
    (hi : s.stir.issues = [(core, slot)]) (he : s.stir.events = []) (hb : s.inbox = []) (hr : s.hostReads = [])
    (hd : s.stir.training = false ∨ s.stir.does (fun s => s.issueSlot core slot) = true) :
    step s = s.withCensus (s.stir.issueSlot core slot) := by
  have hm := State.moveOf_of_one hf (State.moves_of_one hi he hb hr) (Config.pick s.fresh)
  unfold step
  rw [if_neg (ne_true_of_eq_false hs)]
  unfold State.goOn
  rw [hm]
  exact congrArg s.withCensus (State.unlessTraining_of_does (m := fun s => s.issueSlot core slot) hd)

theorem State.noted_eq (s t : State) :
    s.noted t = { t with man := { t.man with gen := (s.noted t).man.gen, updated := (s.noted t).man.updated } } := by
  unfold State.noted
  split <;> rfl

theorem State.noted_of_kept {t : State} (h : t.man.gen ≠ s.man.gen ∨ t.censusBody = s.censusBody) :
    s.noted t = t :=
  if_neg fun ⟨hg, hb⟩ => h.elim (· hg) hb

/-! ### The issue of a slot -/

theorem State.ifIssued_of_issued {t : State} {core slot : Nat} (h : (t.strand core slot).unissued = false) :
    s.ifIssued core slot (.next t) = .next t :=
  if_neg (ne_true_of_eq_false h)

theorem Core.get_setStrand_self (c : Core) (k : Nat) (t : Strand) :
    SMap.get (c.setStrand k t).strands {} k = t := SMap.get_put_self c.strands ({} : Strand) t k

theorem State.atSlot_me (core slot : Nat) : (s.atSlot core slot).me =
    { s.strand core slot with last := some s.now, st := .ready, fetchWait := none } := by
  show (SMap.get (State.core (s.setCore core _) core).strands {} slot) = _
  rw [State.core_setCore_self]
  exact Core.get_setStrand_self ..

/-- A slot with nothing held over fetches at its pc, and runs the unit that it decodes. -/
theorem State.issueSlot_eq {core slot : Nat} {bs : List Byte} {u : Unit32} {t : State}
    (hf : (s.atSlot core slot).me.flight = none) (hd : (s.atSlot core slot).me.failed = none)
    (he : (s.atSlot core slot).me.err = none)
    (hu : (s.atSlot core slot).fetchUnit (s.strand core slot).pc [] none 5 = .ok bs t)
    (hb : decodeBytes bs = .ok u) :
    s.issueSlot core slot = s.ifIssued core slot (runUnit u (t.issuing u.len (refusedBits bs) u.instr)) := by
  have hpc : (s.atSlot core slot).me.pc = (s.strand core slot).pc :=
    (congrArg Strand.pc (State.atSlot_me (s := s) core slot)).trans rfl
  unfold State.issueSlot State.issueRun
  simp only [hd, he, hf, fetchIssue, hpc, hu, issueBytes, hb]

theorem runUnit_modified {u : Unit32} {m : MW} (hm : u.mw = some m) (hs : s.man.stopped = false) :
    runUnit u s = exec u.instr { s with issue := { s.issue with mw := some m, len := 8 } } := by
  unfold runUnit
  rw [hm]
  dsimp only
  rw [show exec (.modifierWord m) s = .next { s with issue := { s.issue with mw := some m, len := 8 } } from
    event_of_running hs _]

/-! ### A halfword fetched afresh (R38, R39) -/

theorem getD_bytes {o n j : Nat} (h : j < n) : (s.bytes o n).getD j 0 = s.byte (o + j) := by
  have hl : j < (s.bytes o n).length := by rwa [State.bytes_length]
  rw [List.getD_eq_getElem _ _ hl, State.bytes_getElem]

/-- A sector of the own HBM that is not held comes from memory. -/
theorem State.sectorOf_fresh {pa q : Nat} (hp : s.placeOf pa = .port q) (hg : s.groups = [])
    (hh : SMap.get s.myCore.icache [] (pa / 128) = []) :
    (s.sectorOf pa).1 = some (s.bytes (paOffset pa / 128 * 128) 128) := by
  unfold State.sectorOf
  dsimp only
  rw [hh, if_pos (by rfl)]
  unfold State.newSector State.readSector
  rw [hp]
  dsimp only
  rw [State.flushLine_of_no_groups hg]
  exact congrArg some (State.portRead_bytes ..)

theorem State.useTlb_placeOf (ea : Word) (pa : Nat) : (s.useTlb ea).placeOf pa = s.placeOf pa := by
  unfold State.useTlb
  split <;> rfl

theorem State.useTlb_groups (ea : Word) : (s.useTlb ea).groups = s.groups := by
  unfold State.useTlb
  split <;> rfl

theorem State.useTlb_icache (ea : Word) : (s.useTlb ea).myCore.icache = s.myCore.icache := by
  unfold State.useTlb
  split
  · rw [State.myCore_setMyCore]
    rfl
  · rfl

theorem paOffset_mod (pa : Nat) : paOffset pa / 128 * 128 + pa % 128 = paOffset pa := by
  unfold paOffset
  omega

/-- A halfword of a page that may be fetched, of a sector of the own HBM that is not held, is memory's. -/
theorem State.fetchHalf_fresh {a : Word} {l : Leaf} {q : Nat} (hc : regionClass a = 0)
    (hr : rootEn s.myCore.xroot = true) (ht : s.translation (granuleOf a) = some (.leaf l))
    (hp : l.permits .fetch s.me.priv = true) (h2 : l.paOf a.toNat % 2 = 0)
    (hf : s.paFault (l.paOf a.toNat) = false) (hq : s.placeOf (l.paOf a.toNat) = .port q) (hg : s.groups = [])
    (hh : SMap.get s.myCore.icache [] (l.paOf a.toNat / 128) = []) : ∃ (x : Sector) (t : State),
      s.fetchHalf a none = .ok (s.byte (paOffset (l.paOf a.toNat))) (s.byte (paOffset (l.paOf a.toNat) + 1)) x t := by
  generalize hpa : l.paOf a.toNat = pa at *
  have hsec := State.sectorOf_fresh (s := s.useTlb a) (pa := pa) ((State.useTlb_placeOf a pa).trans hq)
    ((State.useTlb_groups a).trans hg) (by rw [State.useTlb_icache, hh])
  rw [State.bytes_congr (s := s) (by unfold State.useTlb; split <;> rfl)] at hsec
  have e : (s.useTlb a).sectorOf pa = (some (s.bytes (paOffset pa / 128 * 128) 128), ((s.useTlb a).sectorOf pa).2) :=
    Prod.ext hsec rfl
  have h0 := getD_bytes (s := s) (o := paOffset pa / 128 * 128) (n := 128) (j := pa % 128) (by omega)
  have h1 := getD_bytes (s := s) (o := paOffset pa / 128 * 128) (n := 128) (j := pa % 128 + 1) (by omega)
  rw [paOffset_mod] at h0
  rw [← Nat.add_assoc, paOffset_mod] at h1
  refine ⟨(pa / 128, s.bytes (paOffset pa / 128 * 128) 128), ((s.useTlb a).sectorOf pa).2, ?_⟩
  unfold State.fetchHalf
  rw [if_neg (not_not_intro hc), if_neg (by rw [hr]; exact Bool.false_ne_true), ht]
  dsimp only
  rw [hpa, hp, hf, if_neg (by exact Bool.false_ne_true), if_neg Bool.false_ne_true]
  unfold State.sectorFor
  dsimp only
  rw [e]
  dsimp only
  rw [h0, h1]

end Sys2Proof.Machine

namespace Sys2Proof.Proofs

open Sys2Proof.Machine

/-- Settles O48: the list of moves has one member, the issue of the slot, and that issue is taken apart. -/
theorem stepRunsDecoded : Obligations.StepRunsDecoded := by
  unfold Obligations.StepRunsDecoded
  refine ⟨fun s core slot hs hf hi he hb hr hd => ?_, fun s t core slot h => State.ifIssued_of_issued h,
    fun s core slot bs u t => ?_,
    fun s a l q hc hr ht hp => State.fetchHalf_fresh hc hr ht hp⟩
  · have hstep := step_of_one hs hf hi he hb hr hd
    refine ⟨fun t h => ⟨s.noted t, ?_, State.noted_eq s t, State.noted_of_kept⟩, fun f h => ?_, fun f h => ?_⟩ <;>
    · rw [hstep, h]
      rfl
  · intro x hfl hfa her hu hd
    have hrun := State.issueSlot_eq hfl hfa her hu hd
    refine ⟨fun hm => ?_, fun m hm hs => ?_⟩
    · rw [hrun, runUnit, hm]
    · rw [hrun, runUnit_modified (s := t.issuing u.len (refusedBits bs) u.instr) hm hs]

end Sys2Proof.Proofs
end

section
/-! ## The events of memory (O36) -/

namespace Sys2Proof.Machine

variable {s : State}

/-! ### Replies -/

theorem exec_loadReply {id : Nat} {r : Reply}
    (hr : s.replies.find? (fun r => r.id == id && decide (r.slot < 1000)) = some r) :
    exec (.loadReply id) s = deliver { s with replies := s.replies.filter fun x => x.id != id } r := by
  show execLoadReply id s = _
  unfold execLoadReply
  rw [hr]

/-- A reply joins what the instruction that waits for it has got, and the last one resumes it. -/
theorem deliver_eq {r : Reply} {f : Flight} (ha : s.alive r.core r.slot r.inst = true)
    (hf : (s.strand r.core r.slot).flight = some f) (ho : f.on = .answers) : deliver s r =
      let f' : Flight := { f with got := f.got ++ [(r.elem, r.ans)], out := f.out - 1 }
      let u := s.setStrand r.core r.slot { s.strand r.core r.slot with flight := some f' }
      if f'.out = 0 then resumeInstr f.instr { u with issue := f.issue r.core r.slot } else event u u := by
  unfold deliver
  simp only [ha, hf, ho]
  rfl

theorem deliver_more {r : Reply} {f : Flight} (hs : s.man.stopped = false)
    (ha : s.alive r.core r.slot r.inst = true) (hf : (s.strand r.core r.slot).flight = some f)
    (ho : f.on = .answers) (h1 : 1 < f.out) : ∃ t : State, deliver s r = .next t ∧
      (t.strand r.core r.slot).flight = some { f with got := f.got ++ [(r.elem, r.ans)], out := f.out - 1 } ∧
      t.replies = s.replies := by
  have hout : f.out - 1 ≠ 0 := by omega
  refine ⟨_, (deliver_eq ha hf ho).trans ((if_neg hout).trans (event_of_running hs _)), ?_, rfl⟩
  rw [State.strand_setStrand_self]

theorem exec_loadReply_last {id : Nat} {r : Reply} {f : Flight} {g : Guard} {ty : LdTy} {d a : Reg}
    {off : BitVec 7}
    (hr : s.replies.find? (fun r => r.id == id && decide (r.slot < 1000)) = some r)
    (ha : s.alive r.core r.slot r.inst = true) (hf : (s.strand r.core r.slot).flight = some f)
    (ho : f.on = .answers) (h1 : f.out = 1) (hi : f.instr = .ld g ty d a off) : exec (.loadReply id) s =
      exec f.instr { ({ s with replies := s.replies.filter fun x => x.id != id }).setStrand r.core r.slot
        { s.strand r.core r.slot with
          flight := some { f with got := f.got ++ [(r.elem, r.ans)], out := 0 } } with
        issue := f.issue r.core r.slot } := by
  have hout : f.out - 1 = 0 := by omega
  rw [exec_loadReply hr, deliver_eq (s := { s with replies := s.replies.filter fun x => x.id != id }) ha hf ho]
  dsimp only
  rw [hout, if_pos rfl, hi]
  rfl

/-! ### Requests -/

section
variable {id : Nat} {r : Req} (hs : s.man.stopped = false)
  (hr : s.reqs.find? (fun r => r.id == id) = some r)
include hs hr

theorem exec_scratchpadRequest {c : Nat} (hp : r.place = .spad c) :
    exec (.scratchpadRequest id) s = .next ((s.serveSpad c r).apply r) := by
  refine (event_of_running hs _).trans (congrArg _ ?_)
  rw [hr]
  dsimp only
  rw [hp]

omit hs in
theorem State.portEvent_eq {kind : ReqOp → Bool} (hk : kind r.op = true) (other : State) :
    s.portEvent id kind other = s.servePlace r := by
  unfold State.portEvent
  rw [hr]
  exact if_pos hk

theorem exec_memoryPortRead (hk : r.op.isRead = true) :
    exec (.memoryPortRead id) s = .next (s.servePlace r) :=
  (event_of_running hs _).trans (congrArg _ (State.portEvent_eq hr hk _))

theorem exec_memoryPortWrite (hk : r.op.isWrite = true) :
    exec (.memoryPortWrite id) s = .next (s.servePlace r) :=
  (event_of_running hs _).trans (congrArg _ (State.portEvent_eq hr hk _))

theorem exec_memoryPortAtomic (hk : r.op.isAtomic = true) :
    exec (.memoryPortAtomic id) s = .next (s.servePlace r) :=
  (event_of_running hs _).trans (congrArg _ (State.portEvent_eq hr hk _))

theorem exec_poolWaitTimeout (hp : s.poolOver r = true) :
    exec (.poolWaitTimeout id) s = .next (s.answerReq r (.trap 14 0x4809 r.ea)) := by
  refine (event_of_running hs _).trans (congrArg _ ?_)
  rw [hr]
  exact if_pos hp

theorem exec_remoteRequestTimeout (hl : s.lateSince r.sent = true) :
    exec (.remoteRequestTimeout id) s = .next (s.failReq r) := by
  refine (event_of_running hs _).trans (congrArg _ ?_)
  rw [hr]
  exact if_pos hl

end

theorem State.servePlace_port {r : Req} {q : Nat} (hp : r.place = .port q) (ht : s.stackTraining r.addr = false)
    (hd : s.stackDead r.addr = false) : s.servePlace r = (s.serveHbm r).apply r := by
  unfold State.servePlace
  simp only [hp, ht, hd]
  rfl

theorem State.servePlace_host {r : Req} (hp : r.place = .host) : s.servePlace r = (s.serveHost r).apply r := by
  unfold State.servePlace
  rw [hp]

theorem State.servePlace_dev {r : Req} (hp : r.place = .dev) : s.servePlace r = s.serveDev r := by
  unfold State.servePlace
  rw [hp]

/-! ### Posted stores -/

section
variable {id c : Nat} {e : WbEntry} (hs : s.man.stopped = false)
  (hr : s.reqs.find? (fun r => r.id == id) = none) (he : s.findStore id = some (c, e))
include hs hr he

theorem exec_scratchpadRequest_store {n : Nat} (ha : s.applicable c e = true) (hp : e.place = .spad n) :
    exec (.scratchpadRequest id) s = .next ((s.writeSpad n e.addr e.bytes e.poison).accepted c e.id) := by
  refine (event_of_running hs _).trans (congrArg _ ?_)
  rw [hr]
  simp only [State.storeEvent, he, ha, hp, Place.isSpad, State.applyStore]
  rfl

theorem exec_memoryPortWrite_port {q : Nat} (ha : s.applicable c e = true) (hp : e.place = .port q)
    (ht : s.stackTraining e.addr = false) (hd : s.stackDead e.addr = false) :
    exec (.memoryPortWrite id) s = .next ((s.storeHbm c e).accepted c e.id) := by
  refine (event_of_running hs _).trans (congrArg _ ?_)
  unfold State.portEvent
  rw [hr]
  simp only [State.portStore, he, ha, hp, Place.isMemory, ht, hd, State.applyStore]
  rfl

theorem exec_memoryPortWrite_host (ha : s.applicable c e = true) (hp : e.place = .host) :
    exec (.memoryPortWrite id) s = .next ((s.putBytes e.addr e.bytes).accepted c e.id) := by
  refine (event_of_running hs _).trans (congrArg _ ?_)
  unfold State.portEvent
  rw [hr]
  simp only [State.portStore, he, ha, hp, Place.isMemory, State.applyStore]
  rfl

theorem exec_remoteRequestTimeout_store (hl : s.lateSince e.sent = true) :
    exec (.remoteRequestTimeout id) s =
      .next ((s.storeError c e.slot e.inst 0x6A04 e.ea).accepted c e.id) := by
  refine (event_of_running hs _).trans (congrArg _ ?_)
  rw [hr]
  dsimp only
  rw [he]
  exact if_pos hl

end

/-! ### The other events -/

theorem exec_redMergeGroupApply {id : Nat} {g : Group} (hs : s.man.stopped = false)
    (hg : s.groups.find? (fun g => g.id == id) = some g) :
    exec (.redMergeGroupApply id) s = .next (s.applyGroup g) := by
  refine (event_of_running hs _).trans (congrArg _ ?_)
  rw [hg]

theorem exec_reservationExpiry {line : Nat} {r : Resv} (hs : s.man.stopped = false)
    (hr : s.expired line = some r) : exec (.reservationExpiry line) s =
      .next ((({ s with resv := s.resv.erase r } : State).tally 0x0902).grant line) := by
  refine (event_of_running hs _).trans (congrArg _ ?_)
  rw [hr]

theorem exec_doomNotice {i : Nat} (hs : s.man.stopped = false) (hi : s.ver.notices.contains i = true) :
    ∃ t : State, exec (.doomNotice i) s = .next t ∧ t.ver.notices = s.ver.notices.filter (· != i) := by
  show ∃ t, execDoomNotice i s = _ ∧ _
  unfold execDoomNotice
  rw [hi]
  refine ⟨_, event_of_running (s := { s with ver := { s.ver with notices := s.ver.notices.filter (· != i) } })
    hs _, ?_⟩
  dsimp only
  split <;> rfl

/-! ### The end of a table walk leaves the module running -/

/-- The module has not stopped (R415). -/
abbrev State.Runs (s : State) : Prop := s.man.stopped = false

theorem State.Runs.checkGran (hs : s.Runs) (g : Nat) : (s.checkGran g).Runs := by
  unfold State.checkGran
  dsimp only
  split
  · exact hs
  · split
    · exact hs
    · split <;> exact hs

theorem State.Runs.readHbm (hs : s.Runs) (o n : Nat) : (s.readHbm o n).2.2.Runs :=
  foldl_keeps State.Runs _ (fun _ _ h => h.checkGran _) _ s hs

theorem State.Runs.evictLine (hs : s.Runs) (l : Nat) (d : Bool) : (s.evictLine l d).Runs := by
  refine foldl_keeps State.Runs _ (fun s j h => ?_) _ s hs
  dsimp only
  split <;> exact h

theorem State.Runs.setPort (hs : s.Runs) (q : Nat) (p : Port) : (s.setPort q p).Runs := hs

theorem State.Runs.choose (hs : s.Runs) (n : Nat) : (s.choose n).2.Runs := hs

theorem State.Runs.setCluster (hs : s.Runs) (n : Nat) (k : Cluster) : (s.setCluster n k).Runs := hs

theorem State.Runs.cacheAccess (hs : s.Runs) (o : Nat) : (s.cacheAccess o).Runs := by
  unfold State.cacheAccess
  dsimp only
  split
  · exact hs
  · split
    · exact hs
    · refine State.Runs.setPort ?_ _ _
      split
      · exact hs.evictLine _ _
      · exact hs

theorem State.Runs.cacheLines (hs : s.Runs) (o n : Nat) : (s.cacheLines o n).Runs :=
  foldl_keeps State.Runs _ (fun _ _ h => h.cacheAccess _) _ s hs

theorem State.Runs.emit (hs : s.Runs) (p : Packet) : (s.emit p).Runs := by
  unfold State.emit
  split <;> exact hs

theorem State.Runs.redEnd (hs : s.Runs) (x : RedVal) (ok : Bool) : (s.redEnd x ok).Runs := by
  unfold State.redEnd
  split
  · split <;> exact hs.emit _
  · split <;> exact hs

theorem State.Runs.markDirty (hs : s.Runs) (o : Nat) : (s.markDirty o).Runs := by
  unfold State.markDirty
  dsimp only
  split <;> exact hs

theorem State.Runs.writeGrans (hs : s.Runs) (o : Nat) (bs : List Byte) : (s.writeGrans o bs).Runs := by
  refine foldl_keeps State.Runs _ (fun s g h => ?_) (gransOf o bs.length) s hs
  split
  · exact h
  · exact h.checkGran _

theorem State.Runs.loseRecords (hs : s.Runs) (o n : Nat) : (s.loseRecords o n).Runs := by
  unfold State.loseRecords
  dsimp only
  refine foldl_keeps State.Runs _ ?_ _ _ (foldl_keeps State.Runs _ ?_ _ _ hs) <;>
  · intro t x ht
    split <;> exact ht

theorem State.Runs.writeHbm (hs : s.Runs) (o : Nat) (bs : List Byte) : (s.writeHbm o bs).Runs :=
  (foldl_keeps State.Runs _ (fun _ _ h => h.markDirty _) _ _ (hs.writeGrans o bs)).loseRecords _ _

theorem State.Runs.applyGroup (hs : s.Runs) (g : Group) : (s.applyGroup g).Runs := by
  have hr : State.Runs { s with groups := s.groups.filter fun x => x.id != g.id } := hs
  have h := (hr.cacheAccess g.addr).readHbm g.addr (redSize g.op g.w)
  unfold State.applyGroup
  dsimp only
  split
  · exact foldl_keeps State.Runs _ (fun _ _ h => h.redEnd _ _) _ _ h
  · exact foldl_keeps State.Runs _ (fun _ _ h => h.redEnd _ _) _ _ (h.writeHbm _ _)

theorem State.Runs.flushLine (hs : s.Runs) (o : Nat) : (s.flushLine o).Runs :=
  foldl_keeps State.Runs _ (fun _ _ h => h.applyGroup _) _ s hs

theorem State.Runs.hbmRead (hs : s.Runs) (o n : Nat) : (s.hbmRead o n).2.2.Runs :=
  ((foldl_keeps State.Runs _ (fun _ _ h => h.flushLine _) (linesOf o n) s hs).cacheLines o n).readHbm o n

theorem State.Runs.readEntry (hs : s.Runs) (pa : Nat) : (s.readEntry pa).2.2.Runs := hs.hbmRead ..

theorem State.Runs.walk (hs : s.Runs) (cl : Nat) (ctx : BitVec 12) (va n level pa : Nat) :
    (s.walk cl ctx va n level pa).2.Runs := by
  induction n generalizing s level pa with
  | zero => exact hs
  | succ n ih =>
    unfold State.walk
    grind [State.Runs.choose, State.Runs.readEntry, State.Runs.setCluster]

theorem State.Runs.walkRoot (hs : s.Runs) (cl : Nat) (root : Word) (va : Nat) :
    (s.walkRoot cl root va).2.Runs := by
  unfold State.walkRoot
  split
  · exact hs
  · exact hs.walk ..

theorem State.Runs.deliverWalk (hs : s.Runs) (ctx : BitVec 12) (g : Nat) (w : WalkOut) (who : Nat × Nat × Nat) :
    (s.deliverWalk ctx g w who).Runs := by
  unfold State.deliverWalk
  dsimp only
  split <;> exact hs

/-- The state in which the end of a table walk has reached all that wait for it. -/
theorem exec_tableWalkComplete {id : Nat} {ctx : BitVec 12} {g : BitVec 40} {w : Walk} (hs : s.man.stopped = false)
    (hw : (s.cluster id).walks.find? (fun w => w.ctx == ctx && w.granule == g.toNat) = some w) :
    let k := s.cluster id
    let p := (s.setCluster id ({ k with walks := k.walks.erase w }).serveWalks).walkRoot id w.root
      (g.toNat * 2 ^ 16)
    let u := w.waiters.foldl (fun s x => s.deliverWalk ctx g.toNat p.1 x) p.2
    (∀ f, p.1 = .fault f → exec (.tableWalkComplete id ctx g) s = .next u) ∧
    (∀ l, p.1 = .leaf l → exec (.tableWalkComplete id ctx g) s =
      .next (w.prefs.foldl (fun s x => s.prefetchLine l x.va x.sup)
        (if w.stale then u else w.cores.foldl (fun s c => s.cacheLeaf ctx g.toNat l c) u))) := by
  intro k p u
  have hk : State.Runs (s.setCluster id ({ k with walks := k.walks.erase w }).serveWalks) := hs
  have hu : u.Runs := foldl_keeps State.Runs _ (fun _ _ h => h.deliverWalk ..) _ _ (hk.walkRoot ..)
  have he : exec (.tableWalkComplete id ctx g) s = event u (match p.1 with
      | .leaf l =>
        w.prefs.foldl (fun s x => s.prefetchLine l x.va x.sup)
          (if w.stale then u else w.cores.foldl (fun s c => s.cacheLeaf ctx g.toNat l c) u)
      | .fault _ => u) := by
    show execTableWalkComplete id ctx g s = _
    unfold execTableWalkComplete
    dsimp only
    rw [hw] <;> rfl
  rw [he, event_of_running hu]
  exact ⟨fun f hf => by rw [hf], fun l hl => by rw [hl]⟩

end Sys2Proof.Machine
end

section
/-! ### What stands in HBM after a port has served (R207, R224, R265 to R267) -/

namespace Sys2Proof.Machine

variable {s : State}

/-- Only the ports changed, and check bits that were not clear. -/
def State.CachesOnly (s t : State) : Prop :=
  ∃ l ps, t = { s with latent := l, ports := ps } ∧ ∀ k, SMap.get s.latent 0 k = 0 → SMap.get l 0 k = 0

theorem State.CachesOnly.refl (s : State) : s.CachesOnly s := ⟨s.latent, s.ports, rfl, fun _ h => h⟩

theorem State.CachesOnly.trans {t u : State} (h : s.CachesOnly t) (h' : t.CachesOnly u) : s.CachesOnly u := by
  obtain ⟨l, ps, rfl, hl⟩ := h
  obtain ⟨l', ps', rfl, hl'⟩ := h'
  exact ⟨l', ps', rfl, fun k hk => hl' k (hl k hk)⟩

theorem State.CachesOnly.setPort {t : State} (h : s.CachesOnly t) (q : Nat) (p : Port) :
    s.CachesOnly (t.setPort q p) := by
  obtain ⟨l, ps, rfl, hl⟩ := h
  exact ⟨l, _, rfl, hl⟩

theorem State.CachesOnly.foldl {α : Type} {f : State → α → State} (hf : ∀ (s : State) x, s.CachesOnly (f s x))
    (l : List α) (s : State) : s.CachesOnly (l.foldl f s) := by
  induction l generalizing s with
  | nil => exact .refl s
  | cons a r ih => exact (hf s a).trans (ih (f s a))

theorem State.CachesOnly.mem {t : State} (h : s.CachesOnly t) : t.mem = s.mem := by
  obtain ⟨l, ps, rfl, -⟩ := h
  rfl

theorem State.CachesOnly.resv {t : State} (h : s.CachesOnly t) : t.resv = s.resv := by
  obtain ⟨l, ps, rfl, -⟩ := h
  rfl

theorem State.CachesOnly.granPois {t : State} (h : s.CachesOnly t) : t.granPois = s.granPois := by
  obtain ⟨l, ps, rfl, -⟩ := h
  rfl

theorem State.evictLine_caches (s : State) (line : Nat) (d : Bool) : s.CachesOnly (s.evictLine line d) := by
  refine .foldl (fun s j => ?_) _ s
  dsimp only
  split
  · next h3 =>
    refine ⟨_, s.ports, rfl, fun k hk => (SMap.get_put_of_ne _ _ _ ?_).trans hk⟩
    rintro rfl
    rw [h3] at hk
    exact absurd hk (by decide)
  · exact .refl s

/-- A cache access changes the ports, and check bits that are not clear. -/
theorem State.cacheAccess_caches (s : State) (o : Nat) : s.CachesOnly (s.cacheAccess o) := by
  unfold State.cacheAccess
  dsimp only
  split
  · exact (State.CachesOnly.refl s).setPort _ _
  · split
    · exact (State.CachesOnly.refl s).setPort _ _
    · refine State.CachesOnly.setPort ?_ _ _
      split
      · exact s.evictLine_caches ..
      · exact .refl s

theorem State.cacheLines_caches (s : State) (o n : Nat) : s.CachesOnly (s.cacheLines o n) :=
  .foldl (fun s l => s.cacheAccess_caches l) _ s

theorem State.checkGran_sound {g : Nat} (h : SMap.get s.latent 0 (4 * g) = 0) : s.checkGran g = s := by
  unfold State.checkGran
  simp [h]

/-- A read of HBM whose granules are sound finds their bytes, and changes nothing. -/
theorem State.readHbm_sound {o n : Nat} (h : ∀ g ∈ gransOf o n, SMap.get s.latent 0 (4 * g) = 0) :
    s.readHbm o n = (s.bytes o n, (wordsOf o n).map fun w => s.granPois (w / 4), s) := by
  have e : (gransOf o n).foldl (fun s g => s.checkGran g) s = s := by
    generalize gransOf o n = gs at h
    induction gs with
    | nil => rfl
    | cons g r ih =>
      rw [List.foldl_cons, State.checkGran_sound (h g List.mem_cons_self)]
      exact ih fun x hx => h x (List.mem_cons_of_mem _ hx)
  unfold State.readHbm
  rw [e]

theorem State.checkGran_eq (s : State) (g : Nat) : ∃ h l m,
    s.checkGran g = { s with hbmPoison := h, latent := l, man := m } := by
  unfold State.checkGran
  dsimp only
  split
  · exact ⟨_, _, _, rfl⟩
  · split
    · exact ⟨_, _, _, rfl⟩
    · split <;> exact ⟨_, _, _, rfl⟩

theorem State.writeGrans_eq (s : State) (o : Nat) (bs : List Byte) : ∃ h l m, s.writeGrans o bs =
    { s with mem := Machine.putBytes s.mem o bs, hbmPoison := h, latent := l, man := m } := by
  unfold State.writeGrans
  generalize gransOf o bs.length = gs
  induction gs generalizing s with
  | nil => exact ⟨_, _, _, rfl⟩
  | cons g r ih =>
    rw [List.foldl_cons]
    split
    · exact ih ({ s with latent := SMap.put s.latent 0 (4 * g) 0 }.setGranPois g false)
    · obtain ⟨h, l, m, e⟩ := s.checkGran_eq g
      rw [e]
      exact ih { s with hbmPoison := h, latent := l, man := m }

theorem State.markDirty_eq (s : State) (o : Nat) : ∃ ps, s.markDirty o = { s with ports := ps } := by
  unfold State.markDirty
  dsimp only
  split <;> exact ⟨_, rfl⟩

theorem State.markDirtyAll_eq (s : State) (ls : List Nat) :
    ∃ ps, ls.foldl (fun s l => s.markDirty l) s = { s with ports := ps } := by
  induction ls generalizing s with
  | nil => exact ⟨s.ports, rfl⟩
  | cons a r ih =>
    obtain ⟨ps, e⟩ := s.markDirty_eq a
    rw [List.foldl_cons, e]
    exact ih { s with ports := ps }

/-- A write changes no part of the state but memory, its poison and check bits, the ports and the records of
faults, where no queue of an engine has its block there. -/
theorem State.writeHbm_eq {o : Nat} {bs : List Byte} (hl : ∀ x ∈ s.loomQ, touchesBlock o bs.length x.1 = false)
    (hc : ∀ x ∈ s.scrQ, touchesBlock o bs.length x.1 = false) : ∃ h l m ps, s.writeHbm o bs =
      { s with mem := Machine.putBytes s.mem o bs, hbmPoison := h, latent := l, man := m, ports := ps } := by
  obtain ⟨h, l, m, e⟩ := s.writeGrans_eq o bs
  obtain ⟨ps, e'⟩ := State.markDirtyAll_eq (s.writeGrans o bs) (linesOf o bs.length)
  unfold State.writeHbm
  rw [e', e, State.loseRecords_none _ _ _ (fun x hx h => ?_) (fun x hx h => ?_)]
  · exact ⟨h, l, m, ps, rfl⟩
  · exact absurd h (ne_true_of_eq_false (hl x hx))
  · exact absurd h (ne_true_of_eq_false (hc x hx))

/-! ### Requests at a port, where nothing stands in their way -/

theorem State.SoundAt.flushLine {o n : Nat} (h : s.SoundAt o n) : s.flushLine o = s := by
  unfold State.flushLine
  rw [List.filter_eq_nil_iff.2 fun g hg => by simpa using h.groups g hg]
  rfl

theorem State.SoundAt.caches {t : State} {o n : Nat} (h : s.SoundAt o n) (hc : s.CachesOnly t) : t.SoundAt o n := by
  obtain ⟨l, ps, rfl, hl⟩ := hc
  exact ⟨h.line, h.groups, fun g hg => hl _ (h.sound g hg), h.looms, h.copies⟩

/-- The own module's port has answered request `r` with `a`, and left `bs` at offset `o` and every other byte. -/
structure State.Leaves (s t : State) (r : Req) (o : Nat) (bs : List Byte) (a : Answer) : Prop where
  bytes : t.bytes o bs.length = bs
  others : ∀ k, k < o ∨ o + bs.length ≤ k → t.byte k = s.byte k
  reqs : t.reqs = s.reqs.filter fun x => x.id != r.id
  replies : t.replies = s.replies ++ [⟨r.id, r.core, r.slot, r.inst, r.elem, a⟩]

theorem State.byte_congr {t : State} (h : t.mem = s.mem) (k : Nat) : t.byte k = s.byte k :=
  congrArg (fun m => SMap.get m 0 k) h

theorem State.answerReq_strand {r : Req} (hp : r.pkt = none) (a : Answer) : (s.answerReq r a).mem = s.mem ∧
    (s.answerReq r a).reqs = s.reqs.filter (fun x => x.id != r.id) ∧
    (s.answerReq r a).replies = s.replies ++ [⟨r.id, r.core, r.slot, r.inst, r.elem, a⟩] := by
  unfold State.answerReq
  rw [hp]
  exact ⟨rfl, rfl, rfl⟩

theorem State.SoundAt.readHbm {t : State} {o n : Nat} (h : s.SoundAt o n) (hc : s.CachesOnly t) :
    t.readHbm o n = (s.bytes o n, (wordsOf o n).map fun x => s.granPois (x / 4), t) := by
  rw [State.readHbm_sound (h.caches hc).sound, State.bytes_congr hc.mem, hc.granPois]

/-- An answer that leaves memory leaves every byte. -/
theorem State.leaves_answer {t : State} {r : Req} {a : Answer} (o n : Nat) (hp : r.pkt = none)
    (hc : s.CachesOnly t) : s.Leaves (t.answerReq r a) r o (s.bytes o n) a := by
  obtain ⟨hm, hq, hr⟩ := State.answerReq_strand (s := t) hp a
  rw [hc.mem] at hm
  obtain ⟨l, ps, rfl, -⟩ := hc
  refine ⟨?_, fun k _ => State.byte_congr hm k, hq, hr⟩
  rw [State.bytes_length, State.bytes_congr hm]

/-- An answer after a write leaves the bytes written. -/
theorem State.leaves_write {t : State} {r : Req} {a : Answer} {o : Nat} {bs : List Byte} (hp : r.pkt = none)
    (hc : s.CachesOnly t) (hl : ∀ x ∈ s.loomQ, touchesBlock o bs.length x.1 = false)
    (hs : ∀ x ∈ s.scrQ, touchesBlock o bs.length x.1 = false) :
    s.Leaves ((t.writeHbm o bs).answerReq r a) r o bs a := by
  obtain ⟨hm, hq, hr⟩ := State.answerReq_strand (s := t.writeHbm o bs) hp a
  obtain ⟨l, ps, rfl, -⟩ := hc
  obtain ⟨h, l', m, ps', e⟩ := State.writeHbm_eq (s := { s with latent := l, ports := ps }) hl hs
  rw [e] at hm hq hr ⊢
  refine ⟨?_, fun k hk => (State.byte_congr (s := s.putBytes o bs) hm k).trans (State.byte_putBytes_of_lt s o bs hk),
    hq, hr⟩
  exact (State.bytes_congr (s := s.putBytes o bs) hm o bs.length).trans (State.bytes_putBytes s o bs)

/-! ### What a port answers -/

/-- The write of `bs` at `o` and the answer `a` are what the port's service of a request comes to. -/
def State.Writes (s : State) (x : Served) (o : Nat) (bs : List Byte) (a : Answer) : Prop :=
  ∃ t, s.CachesOnly t ∧ x = .answer a (t.writeHbm o bs)

theorem State.touchLine_of_no_resv (h : s.resv = []) (l core slot inst : Nat) :
    s.touchLine l core slot inst = s := by
  obtain ⟨⟩ := s
  cases h
  rfl

/-- A write to a line that is not versioned, where no reservation stands, is made at once. -/
theorem State.writeLine_plain (h : s.resv = []) (o core slot inst : Nat) (k : State → State) :
    s.writeLine o false core slot inst k = some (k (s.cacheAccess o)) := by
  unfold State.writeLine State.commitLine
  rw [State.touchLine_of_no_resv ((s.cacheAccess_caches o).resv.trans h)]
  rfl

section
variable {r : Req} (hv : r.ver = false) (hresv : s.resv = [])
include hv hresv

/-- The port's service of such a request, its line flushed. -/
theorem State.serveHbm_read (hk : r.op.isRead = true) (h : s.SoundAt r.addr r.size) :
    ∃ t, s.CachesOnly t ∧ s.serveHbm r = .answer
      (.data (s.bytes r.addr r.size) ((wordsOf r.addr r.size).map fun x => s.granPois (x / 4))) t := by
  have hc := s.cacheLines_caches r.addr r.size
  have hport : s.portRead r.addr r.size false r.snap r.tx = _ := h.readHbm hc
  refine ⟨_, hc, ?_⟩
  unfold State.serveHbm
  dsimp only
  rw [hresv, hv, h.flushLine]
  cases ho : r.op <;> rw [ho] at hk <;> cases hk <;>
  · simp only [List.any_nil, Bool.false_and, Bool.false_eq_true, if_false, hport]

theorem State.serveHbm_bytes {bs : List Byte} (ho : r.op = .write .bytes bs) (hp : r.pkt = none) {n : Nat}
    (h : s.SoundAt r.addr n) : s.Writes (s.serveHbm r) r.addr bs (.note 0) := by
  refine ⟨_, s.cacheAccess_caches r.addr, ?_⟩
  unfold State.serveHbm
  dsimp only
  rw [hv, h.flushLine, ho]
  simp only [hresv, List.any_nil, Bool.false_and, Bool.false_eq_true, if_false, State.writeLine_plain hresv,
    State.writeBytes, hp]

theorem State.serveHbm_clear {bs : List Byte} (ho : r.op = .write .clear bs) {n : Nat}
    (h : s.SoundAt r.addr n) : s.Writes (s.serveHbm r) r.addr (List.replicate 128 0) (.note 0) := by
  refine ⟨_, s.cacheAccess_caches r.addr, ?_⟩
  unfold State.serveHbm
  dsimp only
  rw [hv, h.flushLine, ho]
  simp only [hresv, List.any_nil, Bool.false_and, Bool.false_eq_true, if_false, State.writeLine_plain hresv]

end

end Sys2Proof.Machine
end

section
/-! ### Read-writes and posted stores at a port, and the settling of O36 -/

namespace Sys2Proof.Machine

variable {s : State}

theorem leBytes_mod (n v : Nat) : leBytes n (v % 2 ^ (8 * n)) = leBytes n v := by
  induction n generalizing v with
  | zero => rfl
  | succ n ih =>
    have hp : 2 ^ (8 * (n + 1)) = 256 * 2 ^ (8 * n) := by rw [Nat.mul_succ, Nat.pow_add, Nat.mul_comm]
    have hb : BitVec.ofNat 8 (v % 2 ^ (8 * (n + 1))) = BitVec.ofNat 8 v := by
      apply BitVec.eq_of_toNat_eq
      rw [BitVec.toNat_ofNat, BitVec.toNat_ofNat, hp]
      exact Nat.mod_mul_right_mod v 256 _
    have hd : v % 2 ^ (8 * (n + 1)) / 256 = v / 256 % 2 ^ (8 * n) := by
      rw [hp, Nat.mod_mul_right_div_self]
    rw [leBytes, leBytes, hb, hd, ih]

theorem leBytes_leNat (bs : List Byte) : leBytes bs.length (leNat bs) = bs := by
  induction bs with
  | nil => rfl
  | cons b r ih =>
    have hb : BitVec.ofNat 8 (b.toNat + 256 * leNat r) = b := by
      apply BitVec.eq_of_toNat_eq
      rw [BitVec.toNat_ofNat]
      omega
    have hd : (b.toNat + 256 * leNat r) / 256 = leNat r := by omega
    rw [List.length_cons, leNat, leBytes, hb, hd, ih]

/-- The granule of a word of a span is a granule of the span. -/
theorem div_mem_gransOf {o n w : Nat} (h : w ∈ wordsOf o n) : w / 4 ∈ gransOf o n := by
  unfold wordsOf at h
  unfold gransOf
  split at h
  · cases h
  · next hn =>
    rw [if_neg hn]
    simp only [List.mem_map, List.mem_range] at h ⊢
    obtain ⟨k, hk, rfl⟩ := h
    exact ⟨(k + o / 8) / 4 - o / 32, by omega, by omega⟩

/-- A clean span reads free of poison. -/
theorem State.CleanAt.any_poison {o n : Nat} (h : s.CleanAt o n) :
    ((wordsOf o n).map fun x => s.granPois (x / 4)).any id = false := by
  simpa using fun w hw => h.clean _ (div_mem_gransOf hw)

section
variable {r : Req} (hv : r.ver = false) (hresv : s.resv = []) (h : s.CleanAt r.addr r.size)
include hv hresv h

/-- A read-write of a clean span answers what stood there, and writes what `k` makes of it. -/
theorem State.rmw_some {k : Nat → Option Nat} {new : Nat} (hk : k (leNat (s.bytes r.addr r.size)) = some new) :
    s.Writes (s.rmw r k) r.addr (leBytes r.size new)
      (.word (BitVec.ofNat 64 (leNat (s.bytes r.addr r.size))) false) := by
  have hc := s.cacheAccess_caches r.addr
  refine ⟨_, hc, ?_⟩
  unfold State.rmw
  extract_lets o
  rw [h.readHbm hc]
  dsimp only
  rw [h.any_poison, State.touchLine_of_no_resv (hc.resv.trans hresv), if_neg Bool.false_ne_true, hk]
  dsimp only
  rw [hv]
  rfl

omit hv in
/-- It writes nothing where `k` makes nothing of it. -/
theorem State.rmw_none {k : Nat → Option Nat} (hk : k (leNat (s.bytes r.addr r.size)) = none) :
    ∃ t, s.CachesOnly t ∧ s.rmw r k =
      .answer (.word (BitVec.ofNat 64 (leNat (s.bytes r.addr r.size))) false) t := by
  have hc := s.cacheAccess_caches r.addr
  refine ⟨_, hc, ?_⟩
  unfold State.rmw
  extract_lets o
  rw [h.readHbm hc]
  dsimp only
  rw [h.any_poison, State.touchLine_of_no_resv (hc.resv.trans hresv), if_neg Bool.false_ne_true, hk]

theorem State.serveHbm_amo {op : AmoOp} {w : Bool} {y : PW} (ho : r.op = .amo op w y) :
    s.serveHbm r = s.rmw r fun old => some (amoNew op w old y.v.toNat) := by
  unfold State.serveHbm
  dsimp only
  rw [hv, h.flushLine, ho]
  simp only [hresv, List.any_nil, Bool.false_and, Bool.false_eq_true, if_false]

theorem State.serveHbm_cas {w : Bool} {x : Word} {y : PW} (ho : r.op = .cas w x y) :
    s.serveHbm r = s.rmw r fun old =>
      if old = x.toNat % 2 ^ (8 * r.size) then some (y.v.toNat % 2 ^ (8 * r.size)) else none := by
  unfold State.serveHbm
  dsimp only
  rw [hv, h.flushLine, ho]
  simp only [hresv, List.any_nil, Bool.false_and, Bool.false_eq_true, if_false]

end

/-- A service that writes leaves what it wrote. -/
theorem State.Writes.leaves {x : Served} {r : Req} {o n : Nat} {bs : List Byte} {a : Answer}
    (hw : s.Writes x o bs a) (hp : r.pkt = none) (h : s.SoundAt o n) (hn : bs.length = n) :
    s.Leaves (x.apply r) r o bs a := by
  obtain ⟨t, hc, rfl⟩ := hw
  subst hn
  exact State.leaves_write hp hc h.looms h.copies

/-! ### A posted store -/

theorem State.sendPacket_mem (s : State) (cl m path : Nat) (op : PktOp) (pa : Nat) (bs : List Byte) (oflag : Bool)
    (aux : BitVec 7) (args : List Word) : (s.sendPacket cl m path op pa bs oflag aux args).2.mem = s.mem := by
  obtain ⟨_, _, _, _, h⟩ := s.sendPacket_eq cl m path op pa bs oflag aux args
  rw [h]
  rfl

/-- The count of packets on the way is no part of memory. -/
theorem State.sent_mem (s : State) (cl m path n core : Nat) (a : Allow) (c : Core) :
    (((s.setAllow cl m a).setInFlight cl m path n).setCore core c).mem = s.mem := rfl

theorem State.sendStore_mem (s : State) (core : Nat) (e : WbEntry) (m path : Nat) :
    (s.sendStore core e m path).mem = s.mem := by
  unfold State.sendStore
  cases e.op <;> exact (State.sent_mem ..).trans (s.sendPacket_mem ..)

theorem State.pump_mem (s : State) (core n : Nat) : (s.pump core n).mem = s.mem := by
  induction n generalizing s with
  | zero => rfl
  | succ n ih =>
    unfold State.pump
    split
    · rfl
    · exact (ih _).trans (s.sendStore_mem ..)

theorem State.accepted_mem (s : State) (core id : Nat) : (s.accepted core id).mem = s.mem :=
  State.pump_mem ..

/-- A posted store of plain bytes to a line that nothing stands in the way of is a write after a cache access. -/
theorem State.storeHbm_plain {e : WbEntry} {n : Nat} {bs : List Byte} (core : Nat) (hresv : s.resv = [])
    (hv : e.ver = false) (h : s.SoundAt e.addr n)
    (hb : e.op = .bytes ∧ e.bytes = bs ∨ e.op = .clear ∧ bs = List.replicate 128 0) :
    s.storeHbm core e = (s.cacheAccess e.addr).writeHbm e.addr bs := by
  have hr := (s.cacheAccess_caches e.addr).resv.trans hresv
  unfold State.storeHbm
  dsimp only
  rw [hv, if_neg Bool.false_ne_true]
  obtain ⟨ho, rfl⟩ | ⟨ho, rfl⟩ := hb <;>
  · simp only [ho, h.flushLine, State.touchLine_of_no_resv hr]
    rfl

theorem State.writeHbm_mem {o : Nat} {bs : List Byte} (h : s.SoundAt o bs.length) :
    ((s.cacheAccess o).writeHbm o bs).mem = (s.putBytes o bs).mem := by
  have hc := s.cacheAccess_caches o
  have h' := h.caches hc
  obtain ⟨_, _, _, _, e⟩ := State.writeHbm_eq h'.looms h'.copies
  rw [e]
  exact congrArg (Machine.putBytes · o bs) hc.mem

/-- A write leaves the bytes written, and every other byte. -/
theorem State.bytes_of_mem_putBytes {t : State} {o : Nat} {bs : List Byte} (h : t.mem = (s.putBytes o bs).mem) :
    t.bytes o bs.length = bs ∧ ∀ k, k < o ∨ o + bs.length ≤ k → t.byte k = s.byte k :=
  ⟨(State.bytes_congr h o bs.length).trans (State.bytes_putBytes s o bs),
    fun k hk => (State.byte_congr h k).trans (State.byte_putBytes_of_lt s o bs hk)⟩

theorem exec_memoryPortWrite_posted {id c q : Nat} {e : WbEntry} {bs : List Byte} (hs : s.man.stopped = false)
    (hr : s.reqs.find? (fun r => r.id == id) = none) (he : s.findStore id = some (c, e))
    (ha : s.applicable c e = true) (hp : e.place = .port q) (ht : s.stackTraining e.addr = false)
    (hd : s.stackDead e.addr = false) (hresv : s.resv = []) (hv : e.ver = false)
    (h : s.SoundAt e.addr bs.length)
    (hb : e.op = .bytes ∧ e.bytes = bs ∨ e.op = .clear ∧ bs = List.replicate 128 0) : ∃ t : State,
      exec (.memoryPortWrite id) s = .next t ∧ t.bytes e.addr bs.length = bs ∧
      ∀ k, k < e.addr ∨ e.addr + bs.length ≤ k → t.byte k = s.byte k := by
  refine ⟨_, exec_memoryPortWrite_port hs hr he ha hp ht hd, State.bytes_of_mem_putBytes ?_⟩
  rw [State.accepted_mem, State.storeHbm_plain c hresv hv h hb, State.writeHbm_mem h]

/-! ### A strand's request at a port, start to end -/

section
variable {r : Req} {q : Nat} (hport : r.place = .port q) (ht : s.stackTraining r.addr = false)
  (hd : s.stackDead r.addr = false) (hv : r.ver = false) (hp : r.pkt = none) (hresv : s.resv = [])
include hport ht hd hv hp hresv

theorem State.servePlace_read (hk : r.op.isRead = true) (h : s.SoundAt r.addr r.size) :
    s.Leaves (s.servePlace r) r r.addr (s.bytes r.addr r.size) (.data (s.bytes r.addr r.size)
      ((wordsOf r.addr r.size).map fun x => s.granPois (x / 4))) := by
  obtain ⟨t, hc, he⟩ := State.serveHbm_read hv hresv hk h
  rw [State.servePlace_port hport ht hd, he]
  exact State.leaves_answer _ _ hp hc

theorem State.servePlace_bytes {bs : List Byte} (ho : r.op = .write .bytes bs) (h : s.SoundAt r.addr bs.length) :
    s.Leaves (s.servePlace r) r r.addr bs (.note 0) := by
  rw [State.servePlace_port hport ht hd]
  exact (State.serveHbm_bytes hv hresv ho hp h).leaves hp h rfl

theorem State.servePlace_clear {bs : List Byte} (ho : r.op = .write .clear bs) (h : s.SoundAt r.addr 128) :
    s.Leaves (s.servePlace r) r r.addr (List.replicate 128 0) (.note 0) := by
  rw [State.servePlace_port hport ht hd]
  exact (State.serveHbm_clear hv hresv ho h).leaves hp h List.length_replicate

theorem State.servePlace_amo {op : AmoOp} {w : Bool} {y : PW} (ho : r.op = .amo op w y)
    (h : s.CleanAt r.addr r.size) : let old := leNat (s.bytes r.addr r.size)
      s.Leaves (s.servePlace r) r r.addr (leBytes r.size (amoNew op w old y.v.toNat))
        (.word (BitVec.ofNat 64 old) false) := by
  intro old
  rw [State.servePlace_port hport ht hd, State.serveHbm_amo hv hresv h ho]
  exact (State.rmw_some (k := fun old => some (amoNew op w old y.v.toNat)) hv hresv h rfl).leaves
    hp h.toSoundAt (length_leBytes ..)

/-- An unequal comparison leaves the bytes that stood there. -/
theorem State.servePlace_cas {w : Bool} {x : Word} {y : PW} (ho : r.op = .cas w x y)
    (h : s.CleanAt r.addr r.size) : let old := leNat (s.bytes r.addr r.size)
      s.Leaves (s.servePlace r) r r.addr
        (leBytes r.size (if old = x.toNat % 2 ^ (8 * r.size) then y.v.toNat else old))
        (.word (BitVec.ofNat 64 old) false) := by
  intro old
  rw [State.servePlace_port hport ht hd, State.serveHbm_cas hv hresv h ho]
  let k := fun old =>
    if old = x.toNat % 2 ^ (8 * r.size) then some (y.v.toNat % 2 ^ (8 * r.size)) else none
  by_cases hx : old = x.toNat % 2 ^ (8 * r.size)
  · rw [if_pos hx, ← leBytes_mod]
    exact (State.rmw_some (k := k) hv hresv h (if_pos hx)).leaves hp h.toSoundAt (length_leBytes ..)
  · obtain ⟨t, hc, he⟩ := State.rmw_none (k := k) hresv h (if_neg hx)
    have hold : leBytes r.size old = s.bytes r.addr r.size := by
      have := leBytes_leNat (s.bytes r.addr r.size)
      rwa [State.bytes_length] at this
    rw [if_neg hx, he, hold]
    exact State.leaves_answer _ _ hp hc

end

end Sys2Proof.Machine

namespace Sys2Proof.Proofs

open Sys2Proof.Machine

/-- Settles O36: each event by the lemma about it; at a port, by what the service of the request comes to. -/
theorem memoryEventsComplete : Obligations.MemoryEventsComplete := by
  unfold Obligations.MemoryEventsComplete
  refine ⟨fun s id hs => ⟨fun r hr ha f hf ho h1 => ?_, fun r hr ha f hf ho h1 g ty d a off hi =>
      exec_loadReply_last hr ha hf ho h1 hi, fun r hr => ⟨fun c hp => exec_scratchpadRequest hs hr hp,
      fun q hp ht hd => ?_, fun hp => ?_, fun hp => ?_, exec_poolWaitTimeout hs hr,
      exec_remoteRequestTimeout hs hr⟩, fun hr c e he => ⟨fun ha n => exec_scratchpadRequest_store hs hr he ha,
      fun ha q => exec_memoryPortWrite_port hs hr he ha, exec_memoryPortWrite_host hs hr he,
      exec_remoteRequestTimeout_store hs hr he⟩, fun g => exec_redMergeGroupApply hs,
      fun r => exec_reservationExpiry hs, fun i hi c k _ => exec_doomNotice hs hi, event_of_running hs _,
      event_of_running hs _, fun ctx g w => exec_tableWalkComplete hs⟩,
    fun s id q hs hresv => ⟨fun r hr hport ht hd hv hp => ?_, fun hr c e he ha hp ht hd hv bs h =>
      exec_memoryPortWrite_posted hs hr he ha hp ht hd hresv hv h⟩⟩
  · rw [exec_loadReply hr]
    exact deliver_more (s := { s with replies := s.replies.filter fun x => x.id != id }) hs ha hf ho h1
  · rw [← State.servePlace_port hp ht hd]
    exact ⟨exec_memoryPortRead hs hr, exec_memoryPortWrite hs hr, exec_memoryPortAtomic hs hr⟩
  · rw [← State.servePlace_host hp]
    exact ⟨exec_memoryPortRead hs hr, exec_memoryPortAtomic hs hr⟩
  · rw [← State.servePlace_dev hp]
    exact ⟨exec_memoryPortRead hs hr, exec_memoryPortWrite hs hr⟩
  · have leaves : ∀ {i : Instr} {bs : List Byte} {a : Answer}, exec i s = .next (s.servePlace r) →
        s.Leaves (s.servePlace r) r r.addr bs a → ∃ t : State, exec i s = .next t ∧
        t.bytes r.addr bs.length = bs ∧
        (∀ k, k < r.addr ∨ r.addr + bs.length ≤ k → t.byte k = s.byte k) ∧
        t.reqs = s.reqs.filter (fun x => x.id != r.id) ∧
        t.replies = s.replies ++ [⟨r.id, r.core, r.slot, r.inst, r.elem, a⟩] :=
      fun he h => ⟨_, he, h.bytes, h.others, h.reqs, h.replies⟩
    have write {op bs} (ho : r.op = .write op bs) := exec_memoryPortWrite hs hr (by rw [ho]; rfl)
    have atomic (hk : r.op.isAtomic = true) := exec_memoryPortAtomic hs hr hk
    refine ⟨fun hk h => leaves (exec_memoryPortRead hs hr hk)
        (State.servePlace_read hport ht hd hv hp hresv hk h),
      fun bs ho h => leaves (write ho) (State.servePlace_bytes hport ht hd hv hp hresv ho h),
      fun bs ho h => leaves (write ho) (State.servePlace_clear hport ht hd hv hp hresv ho h),
      fun op w y ho h => leaves (atomic (by rw [ho]; rfl)) (State.servePlace_amo hport ht hd hv hp hresv ho h),
      fun w x y ho h => leaves (atomic (by rw [ho]; rfl)) (State.servePlace_cas hport ht hd hv hp hresv ho h)⟩

end Sys2Proof.Proofs
end

section
/-! ## What a register-only instruction leaves alone (O57) -/

namespace Sys2Proof.Machine

variable {s t x : State} {rs : List Reg} {ps : List Pred}

/-! ### The own strand -/

/-- Strand `b` is strand `a` but for the registers `rs`, the predicates `ps`, sr.rctr in rounding mode 5, and
what a trap and the end of an instruction change. -/
structure Strand.Kept (rm : BitVec 3) (rs : List Reg) (ps : List Pred) (a b : Strand) : Prop where
  registers : ∀ r, r ∉ rs → b.reg r = a.reg r
  predicates : ∀ n, n ∉ ps → b.p n = a.p n
  shape : b.shape = a.shape
  snap : b.snap = a.snap
  tx : b.tx = a.tx
  task : b.task = a.task
  pmode : b.pmode = a.pmode
  kscr : b.kscr = a.kscr
  seed : b.seed = a.seed
  rctr : rm ≠ 5 → b.rctr = a.rctr
  level : a.priv = false → b.priv = false →
    b.epc = a.epc ∧ b.cause = a.cause ∧ b.tval = a.tval ∧ b.estat = a.estat ∧ b.priv = a.priv

namespace Strand.Kept

variable {rm : BitVec 3} {a b : Strand}

theorem refl (a : Strand) : a.Kept rm rs ps a :=
  ⟨fun _ _ => rfl, fun _ _ => rfl, rfl, rfl, rfl, rfl, rfl, rfl, rfl, fun _ => rfl, fun _ _ => ⟨rfl, rfl, rfl, rfl, rfl⟩⟩

theorem setReg (h : a.Kept rm rs ps b) {d : Reg} (hd : d ∈ rs) (v : PW) : a.Kept rm rs ps (b.setReg d v) where
  __ := h
  registers r hr := by
    rw [Strand.reg_setReg, if_neg fun (e : r = d) => hr (e ▸ hd)]
    exact h.registers r hr
  predicates := h.predicates

theorem setP (h : a.Kept rm rs ps b) {n : Pred} (hn : n ∈ ps) (v : Bool) : a.Kept rm rs ps (b.setP n v) := by
  have hp : ∀ m, m ∉ ps → (b.setP n v).p m = a.p m := fun m hm =>
    (Strand.p_setP_of_ne b v fun (e : m = n) => hm (e ▸ hn)).trans (h.predicates m hm)
  obtain ⟨w, e⟩ : ∃ w, b.setP n v = { b with pred := w } := by
    unfold Strand.setP
    split
    · exact ⟨b.pred, rfl⟩
    · exact ⟨_, rfl⟩
  rw [e] at hp ⊢
  exact { h with registers := h.registers, predicates := hp }

theorem draw (h : a.Kept rm rs ps b) (hrm : rm = 5) (v : Word) : a.Kept rm rs ps { b with rctr := v } :=
  { h with registers := h.registers, predicates := h.predicates, rctr := fun n => absurd hrm n }

theorem setPred (h : a.Kept rm rs ps b) (v : BitVec 16) : ({ a with pred := v }).Kept rm rs ps { b with pred := v } :=
  { h with registers := h.registers, predicates := fun _ _ => rfl }

theorem setSeed (h : a.Kept rm rs ps b) (v : Word) : ({ a with seed := v }).Kept rm rs ps { b with seed := v } :=
  { h with registers := h.registers, predicates := h.predicates, seed := rfl }

theorem setRctr (h : a.Kept rm rs ps b) (v : Word) : ({ a with rctr := v }).Kept rm rs ps { b with rctr := v } :=
  { h with registers := h.registers, predicates := h.predicates, rctr := fun _ => rfl }

theorem setShape (h : a.Kept rm rs ps b) (v : Word) : ({ a with shape := v }).Kept rm rs ps { b with shape := v } :=
  { h with registers := h.registers, predicates := h.predicates, shape := rfl }

theorem retired (h : a.Kept rm rs ps b) (pc : Word) : a.Kept rm rs ps (b.retired pc) :=
  { h with registers := h.registers, predicates := h.predicates }

theorem waiting (h : a.Kept rm rs ps b) (f : Flight) :
    a.Kept rm rs ps { b with st := .waiting, flight := some f } :=
  { h with registers := h.registers, predicates := h.predicates }

theorem halted (h : a.Kept rm rs ps b) :
    a.Kept rm rs ps { b with st := .halted, flight := none, walked := [], fetchWait := none } :=
  { h with registers := h.registers, predicates := h.predicates }

theorem enter (h : a.Kept rm rs ps b) (tvec : Word) (cause : BitVec 5) (code : Code) (v pc : Word) (len : Nat)
    (intr bare : Bool) : a.Kept rm rs ps (b.enter tvec cause code v pc len intr bare) :=
  { h with registers := h.registers, predicates := h.predicates, level := fun _ hp => nomatch hp }

end Strand.Kept

/-! ### All but the own strand -/

/-- A state with the cores, the counter of requests, the records of faults and the issue of another. -/
def State.over (t s : State) : State :=
  { t with cores := s.cores, nextId := s.nextId, man := s.man, issue := s.issue }

/-- A core with the strands, the port queue and the debug register of another. -/
def Core.over (c d : Core) : Core := { c with strands := d.strands, portQ := d.portQ, dbg := d.dbg }

/-- State `t` is state `s` but for the issuing strand, the debug registers, the counter of requests, the records
of faults, and in port mode the port queues. -/
structure State.Around (s t : State) : Prop where
  rest : t.over s = s
  core : t.issue.core = s.issue.core
  slot : t.issue.slot = s.issue.slot
  mw : t.issue.mw = s.issue.mw
  pops : t.issue.pops = true → s.me.pmode = true
  units : ∀ n, (t.core n).over (s.core n) = s.core n
  queues : s.me.pmode = false → ∀ n, (t.core n).portQ = (s.core n).portQ
  slots : ∀ k, k ≠ s.issue.slot → t.strand s.issue.core k = s.strand s.issue.core k
  cores : ∀ n, n ≠ s.issue.core → (t.core n).strands = (s.core n).strands

namespace State.Around

theorem setMe (h : s.Around t) (a : Strand) : s.Around (t.setMe a) where
  rest := h.rest
  core := h.core
  slot := h.slot
  mw := h.mw
  pops := h.pops
  units n := by
    rw [State.core_setMe]
    split
    · next e => exact e ▸ h.units n
    · exact h.units n
  queues hp n := by
    rw [State.core_setMe]
    split
    · next e => exact e ▸ h.queues hp n
    · exact h.queues hp n
  slots k hk := by
    unfold State.setMe
    rw [State.strand_setStrand, if_neg fun e => hk (e.2.trans h.slot)]
    exact h.slots k hk
  cores n hn := by
    rw [State.core_setMe, if_neg fun e => hn (e.trans h.core)]
    exact h.cores n hn

theorem setCore (h : s.Around t) {n : Nat} {c : Core} (hs : c.strands = (t.core n).strands)
    (hc : c.over (s.core n) = s.core n) (hq : s.me.pmode = false → c.portQ = (t.core n).portQ) :
    s.Around (t.setCore n c) where
  rest := h.rest
  core := h.core
  slot := h.slot
  mw := h.mw
  pops := h.pops
  units m := by
    rw [State.core_setCore]
    split
    · next e => exact e ▸ hc
    · exact h.units m
  queues hp m := by
    rw [State.core_setCore]
    split
    · next e => exact e ▸ (hq hp).trans (h.queues hp n)
    · exact h.queues hp m
  slots k hk := by
    rw [← h.slots k hk]
    unfold State.strand
    rw [State.core_setCore]
    split
    · next e => rw [hs, e]
    · rfl
  cores m hm := by
    rw [← h.cores m hm, State.core_setCore]
    split
    · next e => rw [hs, e]
    · rfl

theorem popPort (h : s.Around t) : s.Around t.popPort := by
  unfold State.popPort
  split
  · next hp =>
    refine h.setCore rfl (h.units _) fun hm => ?_
    rw [h.pops hp] at hm
    cases hm
  · exact h

theorem retire (h : s.Around t) (pc : Word) : s.Around (t.retire pc) := by
  rw [State.retire_eq]
  exact h.popPort.setMe _

/-- The own strand of the state before may be another. -/
theorem rebase (h : s.Around t) {a : Strand} (ha : a.pmode = s.me.pmode) : (s.setMe a).Around t where
  rest := by
    have := congrArg (fun u : State => u.setMe a) h.rest
    exact this
  core := h.core
  slot := h.slot
  mw := h.mw
  pops hp := by
    rw [State.me_setMe, ha]
    exact h.pops hp
  units n := by
    rw [State.core_setMe]
    split
    · next e =>
      have := congrArg (fun c : Core => c.setStrand s.issue.slot a) (h.units n)
      subst e
      exact this
    · exact h.units n
  queues hp n := by
    rw [State.me_setMe, ha] at hp
    rw [h.queues hp n, State.core_setMe]
    split
    · next e => exact e ▸ rfl
    · rfl
  slots k hk := by
    unfold State.setMe
    rw [State.strand_setStrand, if_neg fun e => hk e.2]
    exact h.slots k hk
  cores n hn := by
    rw [State.core_setMe, if_neg (show ¬ n = s.issue.core from hn)]
    exact h.cores n hn

/-- Both states with another slot size and tag table of the own core. -/
theorem resize {y : State} (h : s.Around y) {v : Word} {w : SMap Word} (hr : t.over y = y) (hi : t.issue = y.issue)
    (hc : ∀ n, t.core n = if n = s.issue.core then { y.core n with slotsize := v, tags := w } else y.core n) :
    (s.setMyCore { s.myCore with slotsize := v, tags := w }).Around t := by
  have hu (n : Nat) : (s.setMyCore { s.myCore with slotsize := v, tags := w }).core n =
      if n = s.issue.core then { s.core n with slotsize := v, tags := w } else s.core n := by
    unfold State.setMyCore
    rw [State.core_setCore]
    split
    · next e => rw [e]; rfl
    · rfl
  have hts (n : Nat) : (t.core n).strands = (y.core n).strands := by
    rw [hc]
    split <;> rfl
  have hus (n : Nat) : ((s.setMyCore { s.myCore with slotsize := v, tags := w }).core n).strands =
      (s.core n).strands := by
    rw [hu]
    split <;> rfl
  have hme : (s.setMyCore { s.myCore with slotsize := v, tags := w }).me = s.me :=
    State.me_setMyCore_of_strands rfl
  refine ⟨?_, hi ▸ h.core, hi ▸ h.slot, hi ▸ h.mw, ?_, fun n => ?_, fun hp n => ?_, fun k hk => ?_, fun n hn => ?_⟩
  · have h1 := congrArg (fun u : State => u.over (s.setMyCore { s.myCore with slotsize := v, tags := w })) hr
    have h2 := congrArg (fun u : State => u.setMyCore { s.myCore with slotsize := v, tags := w }) h.rest
    exact h1.trans h2
  · rw [hi, hme]
    exact h.pops
  · rw [hu, hc]
    split
    · exact congrArg (fun c : Core => { c with slotsize := v, tags := w }) (h.units n)
    · exact h.units n
  · rw [hme] at hp
    rw [hu, hc]
    split <;> exact h.queues hp n
  · have := h.slots k hk
    unfold State.strand at this ⊢
    rw [hts, hus]
    exact this
  · rw [hts, hus]
    exact h.cores n hn

end State.Around

/-! ### The whole state -/

/-- State `t` is state `s` but for the registers `rs` and the predicates `ps` of the issuing strand, and what
`State.Around` and `Strand.Kept` leave out. -/
structure State.Frame (rs : List Reg) (ps : List Pred) (s t : State) : Prop extends s.Around t where
  mine : s.me.Kept s.mw.rm rs ps t.me

namespace State.Frame

theorem keeps (h : s.Frame rs ps t) : Keeps s t rs ps := by
  have rest {α : Type} (f : State → α) (hf : f (t.over s) = f t) : f t = f s :=
    hf.symm.trans (congrArg f h.rest)
  have unit {α : Type} (f : Core → α) (hf : ∀ c d : Core, f (c.over d) = f c) (n : Nat) :
      f (t.core n) = f (s.core n) := (hf ..).symm.trans (congrArg f (h.units n))
  have tiles := unit Core.tiles fun _ _ => rfl
  exact {
    memory := State.byte_congr (rest (·.mem) rfl)
    poison := ⟨rest (·.hbmPoison) rfl, rest (·.spadPoison) rfl, rest (·.empty) rfl⟩
    units := ⟨rest (·.clusters) rfl, rest (·.ports) rfl, rest (·.ver) rfl, rest (·.disp) rfl, rest (·.loomQ) rfl,
      rest (·.scrQ) rfl, rest (·.routes) rfl⟩
    registers := h.mine.registers
    predicates := h.mine.predicates
    state := ⟨h.mine.shape, h.mine.snap, h.mine.tx, h.mine.task, h.mine.pmode, h.mine.kscr⟩
    draws := ⟨h.mine.seed, h.mine.rctr⟩
    requests := ⟨rest (·.reqs) rfl, rest (·.replies) rfl, rest (·.groups) rfl, rest (·.resv) rfl,
      rest (·.slotWaits) rfl⟩
    buffers := fun n => ⟨unit Core.wb (fun _ _ => rfl) n, unit Core.deque (fun _ _ => rfl) n,
      unit Core.arrivals (fun _ _ => rfl) n, unit Core.owner (fun _ _ => rfl) n⟩
    queues := h.queues
    slots := h.slots
    cores := fun n hn => ⟨h.cores n hn, tiles n⟩
    core := fun n => ⟨unit Core.tvec (fun _ _ => rfl) n, unit Core.xroot (fun _ _ => rfl) n,
      unit Core.cctl (fun _ _ => rfl) n, unit Core.ipend (fun _ _ => rfl) n, unit Core.tcmp (fun _ _ => rfl) n,
      unit Core.slotsize (fun _ _ => rfl) n, unit Core.loomblk (fun _ _ => rfl) n,
      unit Core.scrblk (fun _ _ => rfl) n, unit Core.dqring (fun _ _ => rfl) n,
      unit Core.arring (fun _ _ => rfl) n⟩
    tiles := ⟨tiles _, unit Core.layouts (fun _ _ => rfl) _, unit Core.tags (fun _ _ => rfl) _,
      unit Core.loom (fun _ _ => rfl) _⟩ }

theorem mw_eq (h : s.Frame rs ps t) : t.mw = s.mw := by
  unfold State.mw
  rw [h.mw]

theorem setMe (h : s.Frame rs ps t) {a : Strand} (ha : s.me.Kept s.mw.rm rs ps a) : s.Frame rs ps (t.setMe a) :=
  ⟨h.toAround.setMe a, by rwa [State.me_setMe]⟩

theorem setCore (h : s.Frame rs ps t) {n : Nat} {c : Core} (hs : c.strands = (t.core n).strands)
    (hc : c.over (s.core n) = s.core n) (hq : s.me.pmode = false → c.portQ = (t.core n).portQ) :
    s.Frame rs ps (t.setCore n c) :=
  ⟨h.toAround.setCore hs hc hq, by
    rw [State.me_setCore_of_strands hs]
    exact h.mine⟩

/-- A write to a register in the list, or in port mode to the port (R170). -/
theorem setG (h : s.Frame rs ps t) {d : Reg} (hd : d ∈ rs) (v : Word) (p : Bool) : s.Frame rs ps (t.setG d v p) := by
  unfold State.setG
  split
  · next hw =>
    refine h.setCore rfl (h.units _) fun hp => ?_
    rw [h.mine.pmode, hp] at hw
    cases hw
  · exact h.setMe (h.mine.setReg hd _)

theorem setP (h : s.Frame rs ps t) {n : Pred} (hn : n ∈ ps) (b : Bool) : s.Frame rs ps (t.setP n b) :=
  h.setMe (h.mine.setP hn b)

theorem drew (h : s.Frame rs ps t) (n : Nat) : s.Frame rs ps (t.drew t.mw.rm.toNat n) := by
  unfold State.drew
  split
  · next hrm =>
    rw [h.mw_eq] at hrm
    exact h.setMe (h.mine.draw (BitVec.eq_of_toNat_eq hrm) _)
  · exact h

theorem retire (h : s.Frame rs ps t) (pc : Word) : s.Frame rs ps (t.retire pc) :=
  ⟨h.toAround.retire pc, by
    rw [State.retire_me]
    exact h.mine.retired pc⟩

/-- Of another own strand before, what is left is how the own strand differs from it. -/
theorem rebase (h : s.Around t) {a : Strand} (ha : a.pmode = s.me.pmode) (hk : a.Kept s.mw.rm rs ps t.me) :
    (s.setMe a).Frame rs ps t :=
  ⟨h.rebase ha, by rwa [State.me_setMe]⟩

theorem withMan (h : s.Frame rs ps t) (m : Manage) : s.Frame rs ps { t with man := m } :=
  ⟨⟨h.rest, h.core, h.slot, h.mw, h.pops, h.units, h.queues, h.slots, h.cores⟩, h.mine⟩

theorem trap (h : s.Frame rs ps t) (cause : BitVec 5) (code : Code) (v pc : Word) (len : Nat) :
    s.Frame rs ps (t.trap t.issue.core t.issue.slot cause code v pc len) := by
  by_cases hd : t.me.priv = false ∨ t.me.estat.getLsbD 7 = true
  · obtain ⟨m, e⟩ := State.trap_own (s := t) (cause := cause) (code := code) (v := v) (pc := pc) (len := len) hd
    rw [e]
    exact (h.withMan m).setMe (h.mine.enter ..)
  · rw [not_or] at hd
    obtain ⟨m, m', e⟩ := State.trap_double (s := t) (cause := cause) (code := code) (v := v) (pc := pc)
      (len := len) (Bool.eq_true_of_not_eq_false hd.1) (Bool.eq_false_of_not_eq_true hd.2)
    rw [e]
    refine State.Frame.withMan ?_ m'
    refine State.Frame.setMe ?_ h.mine.halted
    exact (h.withMan m).setCore rfl (h.units _) fun _ => rfl

theorem hold (h : s.Frame rs ps t) (on : WaitOn) (got : List (Nat × Answer)) :
    s.Frame rs ps (Res.state (.hold t on got)) := by
  have hw := h.setMe (h.mine.waiting (t.flying on 0 got))
  exact ⟨⟨hw.rest, hw.core, hw.slot, hw.mw, hw.pops, hw.units, hw.queues, hw.slots, hw.cores⟩, hw.mine⟩

end State.Frame

/-! ### Results -/

/-- A result of an instruction whose state is as `State.Frame` says: it completes, traps, or waits to be issued
again. -/
inductive Res.Framed (rs : List Reg) (ps : List Pred) (s : State) : Res → Prop
  | done {t : State} (h : s.Frame rs ps t) : Framed rs ps s (.done t)
  | jump {t : State} (h : s.Frame rs ps t) (pc : Word) : Framed rs ps s (.jump t pc)
  | trap {t : State} (h : s.Frame rs ps t) (cause : BitVec 5) (code : Code) (v : Word) :
    Framed rs ps s (.trap t cause code v)
  | hold {t : State} (h : s.Frame rs ps t) (on : WaitOn) (got : List (Nat × Answer)) :
    Framed rs ps s (.hold t on got)

theorem Res.Framed.state {r : Res} (h : r.Framed rs ps s) : s.Frame rs ps r.state := by
  cases h with
  | done h => exact h.retire _
  | jump h pc => exact h.retire pc
  | trap h cause code v => exact h.trap ..
  | hold h on got => exact h.hold on got

theorem State.frame_begun (s : State) (i : Instr) : s.Frame rs ps (s.begun i) :=
  ⟨⟨rfl, rfl, rfl, rfl, fun h => (nomatch h), fun _ => rfl, fun _ _ => rfl, fun _ _ => rfl, fun _ _ => rfl⟩, .refl _⟩

/-- The port's check lets the instruction go on, or ends it in a trap or a wait (R170). -/
theorem portGate_cases {src dst : List Reg} {body : State → Res} (h : s.Frame rs ps x) :
    (portGate x src dst body).Framed rs ps s ∨
      ∃ y, s.Frame rs ps y ∧ y.me = x.me ∧ portGate x src dst body = body y := by
  unfold portGate
  split
  · exact .inr ⟨x, h, rfl, rfl⟩
  · next hp =>
    split
    · exact .inl (.trap h ..)
    · split
      · exact .inl (.hold h ..)
      · split
        · exact .inl (.hold h ..)
        · have hm : s.me.pmode = true := by
            rw [← h.mine.pmode]
            exact Bool.eq_true_of_not_eq_false fun e => hp (by rw [e]; rfl)
          exact .inr ⟨{ x with issue := { x.issue with pops := src.contains 30 } },
            ⟨⟨h.rest, h.core, h.slot, h.mw, fun _ => hm, h.units, h.queues, h.slots, h.cores⟩, h.mine⟩, rfl, rfl⟩

/-- An instruction under a guard ends before its own meaning, or acts from a state that differs in nothing. -/
theorem run_cases {i : Instr} {g : Guard} {body : State → Res} (h : run i g s body = .next t) :
    s.Frame rs ps t ∨ ∃ y, s.Frame rs ps y ∧ y.me = s.me ∧ t = (body y).state := by
  have ht : t = (begin i g s body).state := by
    unfold run event at h
    split at h
    · cases h
    · injection h with h
      exact h.symm
  have hb := s.frame_begun (rs := rs) (ps := ps) i
  rw [ht, begin_eq]
  split
  · exact .inl (hb.trap ..)
  · split
    · exact .inl (hb.trap ..)
    · split
      · exact .inl (hb.retire _)
      · obtain hf | ⟨y, hy, hm, e⟩ := portGate_cases (src := (named i).1) (dst := (named i).2) (body := body) hb
        · exact .inl hf.state
        · exact .inr ⟨y, hy, hm, congrArg Res.state e⟩

theorem frame_of_run {i : Instr} {g : Guard} {body : State → Res} 
    (hb : ∀ x, s.Frame rs ps x → x.me = s.me → (body x).Framed rs ps s) (h : run i g s body = .next t) :
    s.Frame rs ps t := by
  obtain hf | ⟨y, hy, hm, rfl⟩ := run_cases (rs := rs) (ps := ps) h
  · exact hf
  · exact (hb y hy hm).state



/-! ### Each kind of result -/

section
variable (h : s.Frame rs ps x)
include h

theorem Res.Framed.result {d : Reg} (hd : d ∈ rs) (v : Word) (p : Bool) : (x.result d v p).Framed rs ps s :=
  .done (h.setG hd v p)

theorem Res.Framed.drawn {d : Reg} (hd : d ∈ rs) (n : Nat) (v : Word) (p : Bool) :
    ((x.drew x.mw.rm.toNat n).result d v p).Framed rs ps s :=
  .done ((h.drew n).setG hd v p)

theorem Res.Framed.testInto {n : Pred} (hn : n ∈ ps) (srcs : List Reg) (b : Bool) :
    (Machine.testInto x n srcs b).Framed rs ps s := by
  unfold Machine.testInto
  split
  · exact .trap h ..
  · exact .done (h.setP hn b)

theorem Res.Framed.jumpTo (a : Reg) (imm : BitVec 10) {k : Word → Res} (hk : ∀ v, (k v).Framed rs ps s) :
    (Machine.jumpTo x a imm k).Framed rs ps s := by
  unfold Machine.jumpTo
  dsimp only
  split
  · exact .trap h ..
  · split
    · exact .trap h ..
    · exact hk _

theorem Res.Framed.consume (l : List Reg) {k : State → Res} (hk : (k x).Framed rs ps s) :
    (Machine.consume x l k).Framed rs ps s := by
  unfold Machine.consume
  split
  · exact .trap h ..
  · exact hk

theorem Res.Framed.portGate (src dst : List Reg) {body : State → Res}
    (hb : ∀ y, s.Frame rs ps y → (body y).Framed rs ps s) : (Machine.portGate x src dst body).Framed rs ps s := by
  obtain hf | ⟨y, hy, -, e⟩ := portGate_cases (src := src) (dst := dst) (body := body) h
  · exact hf
  · exact e ▸ hb y hy

end

/-! ### The scalar instructions -/

/-- Such an instruction is run under its guard, and differs in its destinations alone. -/
theorem exec_frame_of_targets {i : Instr} (hi : i.targets = some (rs, ps)) : ∃ (j : Instr) (g : Guard)
    (body : State → Res), (∀ s, exec i s = run j g s body) ∧ ∀ s x, s.Frame rs ps x → (body x).Framed rs ps s := by
  cases i with
  | add | sub | mul | mulhi | mulhn | div | divn | rem | remn | min | max | minn | maxn | and | or | xor | andn
  | shlRegister | shrRegister | shaRegister | rotRegister | mov | clz | ctz | popc | brev | bswap | mix64 | addi
  | andi | ori | xori | shlImmediate | shrImmediate | shaImmediate | rotImmediate | sel | lea | movwZ | movwK
  | movwS | addpc | fmin | fmax | fclass | self | pstat | movC16 | addC16 | subC16 | andC16 | orC16 | xorC16
  | shlC16 | shrC16 | addiC16 =>
    cases hi
    exact ⟨_, _, _, fun _ => rfl, fun _ _ h => .result h List.mem_cons_self ..⟩
  | fadd | fsub | fmul | fdiv | fsqrt | frnd | fcvt | fmaF64 | fmaF32 =>
    cases hi
    exact ⟨_, _, _, fun _ => rfl, fun _ _ h => .drawn h List.mem_cons_self ..⟩
  | cmp | cmpi | fcmp =>
    cases hi
    exact ⟨_, _, _, fun _ => rfl, fun _ _ h => .testInto h List.mem_cons_self ..⟩
  | pand | por | pxor | pnot | pmov | pset =>
    cases hi
    exact ⟨_, _, _, fun _ => rfl, fun _ _ h => .done (h.setP List.mem_cons_self _)⟩
  | br | brC16 =>
    cases hi
    exact ⟨_, _, _, fun _ => rfl, fun _ _ h => .jump h _⟩
  | brl =>
    cases hi
    exact ⟨_, _, _, fun _ => rfl, fun _ _ h => .jump (h.setG List.mem_cons_self ..) _⟩
  | jmp | jmpC16 =>
    cases hi
    exact ⟨_, _, _, fun _ => rfl, fun _ _ h => .jumpTo h _ _ fun _ => .jump h _⟩
  | jmpl =>
    cases hi
    exact ⟨_, _, _, fun _ => rfl, fun _ _ h => .jumpTo h _ _ fun _ => .jump (h.setG List.mem_cons_self ..) _⟩
  | nop | nopC16 =>
    cases hi
    exact ⟨_, _, _, fun _ => rfl, fun _ _ h => .done h⟩
  | fext | fins =>
    cases hi
    refine ⟨_, _, _, fun _ => rfl, fun _ x h => ?_⟩
    split
    · exact .trap h ..
    · exact .result h List.mem_cons_self ..
  | fpack g d a lay =>
    cases hi
    refine ⟨_, _, _, fun _ => rfl, fun _ x h => ?_⟩
    dsimp only
    split
    · exact .trap h ..
    · exact .portGate h _ _ fun _ hy => .result hy List.mem_cons_self ..
  | srd =>
    cases hi
    refine ⟨_, _, _, fun _ => rfl, fun _ x h => ?_⟩
    split
    · exact .result h List.mem_cons_self ..
    · exact .trap h ..
  | _ => cases hi

/-! ### FUNPACK, SHAPE and SWR -/

theorem State.Frame.members (h : s.Frame rs ps x) (hme : x.me = s.me) (lay : BitVec 4) :
    x.members lay = s.members lay := by
  have hl : x.myCore.layouts = s.myCore.layouts := by
    unfold State.myCore
    rw [h.core]
    exact (congrArg Core.layouts (h.units s.issue.core) :)
  have hk : x.kept 8 = s.kept 8 := by
    unfold State.kept State.answer State.got
    rw [hme]
  unfold State.members State.field State.layout
  rw [hl, hk]

theorem State.Frame.unpackFrom {d : Reg} {v : Word} {p : Bool} {l : List FieldSpec} {j : Nat} (h : s.Frame rs ps x)
    (hd : ∀ k, k < j + l.length → Reg.plus d k ∈ rs) : s.Frame rs ps (Machine.unpackFrom d v p x j l) := by
  induction l generalizing x j with
  | nil => exact h
  | cons f r ih =>
    refine ih (h.setG (hd j (by rw [List.length_cons]; omega)) _ _) fun k hk => hd k ?_
    rw [List.length_cons]
    omega

theorem frame_of_funpack {g : Guard} {d a : Reg} {lay : BitVec 4} (h : exec (.funpack g d a lay) s = .next t) :
    s.Frame (Reg.group d (s.members lay).length) [] t := by
  refine frame_of_run (fun x hx hme => ?_) h
  dsimp only
  split
  · exact .trap hx ..
  · refine .portGate hx _ _ fun y hy => .done (hy.unpackFrom fun k hk => ?_)
    rw [Nat.zero_add, hx.members hme] at hk
    exact List.mem_map_of_mem (List.mem_range.2 hk)

/-- Both states with another slot size and tag table of the own core. -/
theorem State.Frame.resize (h : s.Around x) {v : Word} {w : SMap Word} (hr : t.over x = x) (hi : t.issue = x.issue)
    (hc : ∀ n, t.core n = if n = s.issue.core then { x.core n with slotsize := v, tags := w } else x.core n)
    (hk : s.me.Kept s.mw.rm rs ps t.me) :
    (s.setMyCore { s.myCore with slotsize := v, tags := w }).Frame rs ps t :=
  ⟨h.resize hr hi hc, by
    rw [State.me_setMyCore_of_strands (c := { s.myCore with slotsize := v, tags := w }) rfl]
    exact hk⟩

/-! ### The user register that an instruction writes (R23) -/

/-- What keeps all but the registers `rs` and the predicates `ps` keeps all but a user register too. -/
theorem State.Frame.withUserReg (h : s.Frame rs ps t) (n : Nat) : (s.withUserReg t n).Frame rs ps t := by
  have hc := h.core
  unfold State.withUserReg
  split
  · exact .rebase h.toAround rfl (h.mine.setPred _)
  · exact .rebase h.toAround rfl (h.mine.setSeed _)
  · exact .rebase h.toAround rfl (h.mine.setRctr _)
  · exact .rebase h.toAround rfl (h.mine.setShape _)
  · refine .resize h.toAround rfl rfl (fun m => ?_) h.mine
    split
    · next e =>
      unfold State.myCore
      rw [e, hc]
    · rfl
  · exact h

/-- The own strand written whole, and the instruction completed, differ from another strand as written. -/
theorem State.Frame.of_set {a b : Strand} (h : s.Around x) (pc : Word)
    (ha : a.pmode = s.me.pmode) (hk : a.Kept s.mw.rm rs ps b) :
    (s.setMe a).Frame rs ps ((x.setMe b).retire pc) := by
  refine .rebase ((h.setMe b).retire pc) ha ?_
  rw [State.retire_me, State.me_setMe]
  exact hk.retired pc

/-- The same of a user register of the own strand, which `f` copies. -/
theorem State.Frame.of_done {n : Nat} {b : Strand} (h : s.Around x) (f : Strand → Strand)
    (hf : ∀ t, s.withUserReg t n = s.setMe (f t.me)) (ha : (f (b.retired (x.setMe b).nextPc)).pmode = s.me.pmode)
    (hk : (f (b.retired (x.setMe b).nextPc)).Kept s.mw.rm rs ps b) :
    (s.withUserReg (Res.state (.done (x.setMe b))) n).Frame rs ps (Res.state (.done (x.setMe b))) := by
  unfold Res.state
  dsimp only
  rw [hf, State.retire_me, State.me_setMe]
  exact .of_set h _ ha hk

theorem frame_of_shape {g : Guard} {f : BitVec 4} {c : BitVec 8} {r : BitVec 5}
    (h : exec (.shape g f c r) s = .next t) : (s.withUserReg t 0x06).Frame [] [] t := by
  obtain hf | ⟨y, hy, -, rfl⟩ := run_cases (rs := []) (ps := []) h
  · exact hf.withUserReg _
  dsimp only
  split
  · exact .of_done hy.toAround (fun c => { s.me with shape := c.shape }) (fun _ => rfl) rfl (hy.mine.setShape _)
  · exact (Res.Framed.trap hy ..).state.withUserReg _

/-- What the completion of an instruction leaves of the own core. -/
theorem State.myCore_retire (x : State) (pc : Word) : (x.retire pc).myCore = ({ x.myCore with
    portQ := if x.issue.pops = true then x.myCore.portQ.drop 1 else x.myCore.portQ }).setStrand x.issue.slot
      (x.me.retired pc) := by
  rw [State.myCore, State.retire_issue, State.retire_core, if_pos rfl, State.myCore, State.popPort_issue,
    State.popPort_core]
  simp only [and_true]
  rfl

/-- A core that takes another slot size, and the tags that are left, and completes. -/
theorem State.Frame.of_slotsize (h : s.Frame rs ps x) (v : Word) (w : SMap Word) (pc : Word) :
    let t := (x.setMyCore { x.myCore with slotsize := v, tags := w }).retire pc
    (s.withUserReg t 0x07).Frame rs ps t := by
  intro t
  have hz : (s.setMyCore { s.myCore with slotsize := v, tags := w }).Frame rs ps
      (x.setMyCore { x.myCore with slotsize := v, tags := w }) := by
    refine .resize h.toAround rfl rfl (fun m => ?_) ?_
    · unfold State.setMyCore State.myCore
      rw [State.core_setCore, h.core]
      split
      · next e => rw [e]
      · rfl
    · rw [State.me_setMyCore_of_strands (c := { x.myCore with slotsize := v, tags := w }) rfl]
      exact h.mine
  obtain ⟨hv, hw⟩ : t.myCore.slotsize = v ∧ t.myCore.tags = w := by
    have hc : t.myCore = _ := State.myCore_retire ..
    rw [hc, State.myCore_setMyCore]
    exact ⟨rfl, rfl⟩
  unfold State.withUserReg
  dsimp only
  rw [hv, hw]
  exact hz.retire pc

theorem frame_of_swr {g : Guard} {n : BitVec 8} {a : Reg} (h : exec (.swr g n a) s = .next t) :
    (s.withUserReg t n.toNat).Frame [] [] t := by
  obtain hf | ⟨y, hy, -, rfl⟩ := run_cases (rs := []) (ps := []) h
  · exact hf.withUserReg _
  have traps (cause code v) (m : Nat) := (Res.Framed.trap hy cause code v).state.withUserReg m
  unfold consume
  generalize n.toNat = m
  split
  · exact traps ..
  dsimp only
  split
  · split
    · exact .of_done hy.toAround (fun c => { s.me with pred := c.pred }) (fun _ => rfl) rfl (hy.mine.setPred _)
    · exact traps ..
  · exact .of_done hy.toAround (fun c => { s.me with seed := c.seed }) (fun _ => rfl) rfl (hy.mine.setSeed _)
  · exact .of_done hy.toAround (fun c => { s.me with rctr := c.rctr }) (fun _ => rfl) rfl (hy.mine.setRctr _)
  · split
    · exact .of_done hy.toAround (fun c => { s.me with shape := c.shape }) (fun _ => rfl) rfl (hy.mine.setShape _)
    · exact traps ..
  · split
    · exact hy.of_slotsize ..
    · exact traps ..
  · exact traps ..

/-- A user register is no part of what a trap saves. -/
theorem State.keepsTrapState_of_frame {n : Nat} (h : (s.withUserReg t n).Frame rs ps t) (hs : s.me.priv = false)
    (ht : t.me.priv = false) : KeepsTrapState s t := by
  obtain ⟨p, q, r, v, e⟩ : ∃ p q r v, (s.withUserReg t n).me =
      { s.me with pred := p, seed := q, rctr := r, shape := v } := by
    unfold State.withUserReg
    split
    · exact ⟨_, _, _, _, State.me_setMe ..⟩
    · exact ⟨_, _, _, _, State.me_setMe ..⟩
    · exact ⟨_, _, _, _, State.me_setMe ..⟩
    · exact ⟨_, _, _, _, State.me_setMe ..⟩
    · exact ⟨_, _, _, _, State.me_setMyCore_of_strands rfl⟩
    · exact ⟨_, _, _, _, rfl⟩
  have hl := h.mine.level
  rw [e] at hl
  exact hl hs ht

end Sys2Proof.Machine

namespace Sys2Proof.Proofs

open Sys2Proof.Machine

/-- Settles O57: each such instruction completes, traps or waits in a state that differs from the one before as
`State.Frame` says; SHAPE and SWR write one user register more. -/
theorem scalarInstructionsChangeTheirDestinationsAlone :
    Obligations.ScalarInstructionsChangeTheirDestinationsAlone := by
  unfold Obligations.ScalarInstructionsChangeTheirDestinationsAlone
  intro s t frame
  have both {rs ps} (h : s.Frame rs ps t) : Keeps s t rs ps ∧
      (s.me.priv = false → t.me.priv = false → KeepsTrapState s t) := ⟨h.keeps, h.mine.level⟩
  have user {n} (h : (s.withUserReg t n).Frame [] [] t) : Keeps (s.withUserReg t n) t [] [] ∧
      (s.me.priv = false → t.me.priv = false → KeepsTrapState s t) := ⟨h.keeps, State.keepsTrapState_of_frame h⟩
  refine ⟨fun i rs ps hi he => ?_, fun g d a lay he => both (frame_of_funpack he),
    fun g f c r he => user (frame_of_shape he), fun g n a he => user (frame_of_swr he)⟩
  obtain ⟨j, g, body, hx, hb⟩ := exec_frame_of_targets hi
  exact both (frame_of_run (fun x h _ => hb s x h) ((hx s).symm.trans he))

end Sys2Proof.Proofs
end

section
/-! ## The encoding (O50, O51, O49)

A word is a row of fields, so each format of R43 gets two lemmas: the fields of a word that the encoder builds, and
that every word with bit 0 set is built from its own fields. -/

namespace Sys2Proof

/-! ### Fields of a row, and rows of fields -/

@[simp] theorem extractLsb'_append_of_le {v w lo len : Nat} {x : BitVec v} {y : BitVec w} (h : w ≤ lo) :
    (x.append y).extractLsb' lo len = x.extractLsb' (lo - w) len :=
  BitVec.extractLsb'_append_eq_of_le h

@[simp] theorem extractLsb'_append_of_add_le {v w lo len : Nat} {x : BitVec v} {y : BitVec w}
    (h : lo + len ≤ w) : (x.append y).extractLsb' lo len = y.extractLsb' lo len :=
  BitVec.extractLsb'_append_eq_of_add_le h

@[simp] theorem append_extractLsb' {w lo hi m n : Nat} {x : BitVec w} (h : hi = lo + n) :
    (x.extractLsb' hi m).append (x.extractLsb' lo n) = x.extractLsb' lo (m + n) :=
  BitVec.extractLsb'_append_extractLsb'_eq_extractLsb' h

@[simp] theorem ofBool_beq_one (b : Bool) : (BitVec.ofBool b == 1#1) = b := by cases b <;> rfl

/-- A bit as the field of its own. -/
theorem ofBool_getLsbD {w : Nat} (x : BitVec w) (i : Nat) :
    BitVec.ofBool (x.getLsbD i) = x.extractLsb' i 1 := by
  ext j hj
  obtain rfl : j = 0 := by omega
  simp

@[simp] theorem ofBool_getElem {w i : Nat} (x : BitVec w) (h : i < w) :
    BitVec.ofBool x[i] = x.extractLsb' i 1 := ofBool_getLsbD x i

theorem eq_ofNat_of_toNat_eq {n k : Nat} {x : BitVec n} (h : x.toNat = k) : x = BitVec.ofNat n k := by
  rw [← h, BitVec.ofNat_toNat, BitVec.setWidth_eq]

theorem guardOf_eq (w : BitVec 32) : guardOf w = ⟨w.extractLsb' 7 4, w.extractLsb' 11 1 == 1#1⟩ := by
  rw [guardOf, BitVec.getLsbD_eq_extractLsb']

theorem guardBits_guardOf (w : BitVec 32) : guardBits (guardOf w) = w.extractLsb' 7 5 := by
  simp [guardBits, guardOf, HAppend.hAppend, -BitVec.append_eq]

theorem majorBits_of {w : BitVec 32} {m : BitVec 6} (h : w.getLsbD 0 = true) (hm : fld w 1 6 = m) :
    majorBits m = w.extractLsb' 0 7 := by
  have hb : 1#1 = w.extractLsb' 0 1 := by rw [← ofBool_getLsbD, h]; rfl
  rw [majorBits, hb, ← hm]
  exact append_extractLsb' rfl

/-! ### The formats of 32 bits (R43) -/

theorem encR_fields (fn b a d : BitVec 5) (g : Guard) (m : BitVec 6) :
    let w := encR fn b a d g m
    fld w 27 5 = fn ∧ fld w 22 5 = b ∧ fld w 17 5 = a ∧ fld w 12 5 = d ∧ guardOf w = g ∧ fld w 1 6 =
      m ∧ fld w 12 4 = d.extractLsb' 0 4 ∧ fld w 22 4 = b.extractLsb' 0 4 ∧ w.getLsbD 16 = d.getLsbD
      4 ∧ w.getLsbD 26 = b.getLsbD 4 := by
  simp [encR, guardOf_eq, guardBits, majorBits, BitVec.getLsbD_eq_extractLsb', HAppend.hAppend,
    -BitVec.append_eq, -BitVec.getLsbD_eq_getElem]

theorem exists_encR {w : BitVec 32} {m : BitVec 6} (h : w.getLsbD 0 = true) (hm : fld w 1 6 = m) :
    ∃ fn b a d g, w = encR fn b a d g m := by
  refine ⟨fld w 27 5, fld w 22 5, fld w 17 5, fld w 12 5, guardOf w, ?_⟩
  rw [encR, majorBits_of h hm]
  simp [guardBits_guardOf, HAppend.hAppend, -BitVec.append_eq]

theorem encI_fields (imm : BitVec 10) (a d : BitVec 5) (g : Guard) (m : BitVec 6) :
    let w := encI imm a d g m
    fld w 22 10 = imm ∧ fld w 17 5 = a ∧ fld w 12 5 = d ∧ guardOf w = g ∧ fld w 1 6 = m := by
  simp [encI, guardOf_eq, guardBits, majorBits, HAppend.hAppend, -BitVec.append_eq]

theorem exists_encI {w : BitVec 32} {m : BitVec 6} (h : w.getLsbD 0 = true) (hm : fld w 1 6 = m) :
    ∃ imm a d g, w = encI imm a d g m := by
  refine ⟨fld w 22 10, fld w 17 5, fld w 12 5, guardOf w, ?_⟩
  rw [encI, majorBits_of h hm]
  simp [guardBits_guardOf, HAppend.hAppend, -BitVec.append_eq]

theorem encK_fields (fn : BitVec 4) (sh : BitVec 6) (a d : BitVec 5) (g : Guard) :
    let w := encK fn sh a d g
    fld w 28 4 = fn ∧ fld w 22 6 = sh ∧ fld w 17 5 = a ∧ fld w 12 5 = d ∧ guardOf w = g ∧ fld w 1 6
      = 6 := by
  simp [encK, guardOf_eq, guardBits, majorBits, HAppend.hAppend, -BitVec.append_eq]

theorem exists_encK {w : BitVec 32} (h : w.getLsbD 0 = true) (hm : fld w 1 6 = 6) :
    ∃ fn sh a d g, w = encK fn sh a d g := by
  refine ⟨fld w 28 4, fld w 22 6, fld w 17 5, fld w 12 5, guardOf w, ?_⟩
  rw [encK, majorBits_of h hm]
  simp [guardBits_guardOf, HAppend.hAppend, -BitVec.append_eq]

theorem encC_fields (ft : BitVec 2) (b a : BitVec 5) (cc pd : BitVec 4) (g : Guard) (m : BitVec 6) :
    let w := encC ft b a cc pd g m
    fld w 30 2 = ft ∧ fld w 25 5 = b ∧ fld w 20 5 = a ∧ fld w 16 4 = cc ∧ fld w 12 4 = pd ∧ guardOf
      w = g ∧ fld w 1 6 = m := by
  simp [encC, guardOf_eq, guardBits, majorBits, HAppend.hAppend, -BitVec.append_eq]

theorem exists_encC {w : BitVec 32} {m : BitVec 6} (h : w.getLsbD 0 = true) (hm : fld w 1 6 = m) :
    ∃ ft b a cc pd g, w = encC ft b a cc pd g m := by
  refine ⟨fld w 30 2, fld w 25 5, fld w 20 5, fld w 16 4, fld w 12 4, guardOf w, ?_⟩
  rw [encC, majorBits_of h hm]
  simp [guardBits_guardOf, HAppend.hAppend, -BitVec.append_eq]

theorem encCI_fields (imm : BitVec 7) (a : BitVec 5) (cc pd : BitVec 4) (g : Guard) :
    let w := encCI imm a cc pd g
    fld w 25 7 = imm ∧ fld w 20 5 = a ∧ fld w 16 4 = cc ∧ fld w 12 4 = pd ∧ guardOf w = g ∧ fld w 1
      6 = 8 := by
  simp [encCI, guardOf_eq, guardBits, majorBits, HAppend.hAppend, -BitVec.append_eq]

theorem exists_encCI {w : BitVec 32} (h : w.getLsbD 0 = true) (hm : fld w 1 6 = 8) :
    ∃ imm a cc pd g, w = encCI imm a cc pd g := by
  refine ⟨fld w 25 7, fld w 20 5, fld w 16 4, fld w 12 4, guardOf w, ?_⟩
  rw [encCI, majorBits_of h hm]
  simp [guardBits_guardOf, HAppend.hAppend, -BitVec.append_eq]

theorem encP_fields (fn pb pa pd : BitVec 4) (g : Guard) :
    let w := encP fn pb pa pd g
    fld w 28 4 = 0 ∧ fld w 24 4 = fn ∧ fld w 20 4 = pb ∧ fld w 16 4 = pa ∧ fld w 12 4 = pd ∧ guardOf
      w = g ∧ fld w 1 6 = 9 := by
  simp [encP, guardOf_eq, guardBits, majorBits, HAppend.hAppend, -BitVec.append_eq]

theorem exists_encP {w : BitVec 32} (h : w.getLsbD 0 = true) (hm : fld w 1 6 = 9) (hz : fld w 28 4 = 0#4) :
    ∃ fn pb pa pd g, w = encP fn pb pa pd g := by
  refine ⟨fld w 24 4, fld w 20 4, fld w 16 4, fld w 12 4, guardOf w, ?_⟩
  rw [encP, majorBits_of h hm, ← hz]
  simp [guardBits_guardOf, HAppend.hAppend, -BitVec.append_eq]

theorem encS_fields (k : BitVec 1) (n : BitVec 4) (b a d : BitVec 5) (g : Guard) :
    let w := encS k n b a d g
    w.getLsbD 31 = (k == 1#1) ∧ w.getLsbD 30 = n.getLsbD 3 ∧ fld w 27 4 = n ∧ fld w 27 3 =
      n.extractLsb' 0 3 ∧ fld w 22 5 = b ∧ fld w 17 5 = a ∧ fld w 12 5 = d ∧ guardOf w = g ∧ fld w 1
      6 = 10 := by
  simp [encS, guardOf_eq, guardBits, majorBits, BitVec.getLsbD_eq_extractLsb', HAppend.hAppend,
    -BitVec.append_eq, -BitVec.getLsbD_eq_getElem]

theorem exists_encS {w : BitVec 32} (h : w.getLsbD 0 = true) (hm : fld w 1 6 = 10) :
    ∃ k n b a d g, w = encS k n b a d g := by
  refine ⟨BitVec.ofBool (w.getLsbD 31), fld w 27 4, fld w 22 5, fld w 17 5, fld w 12 5, guardOf w, ?_⟩
  rw [encS, majorBits_of h hm]
  simp [guardBits_guardOf, HAppend.hAppend, -BitVec.append_eq]

theorem encW_fields (op hw : BitVec 2) (imm : BitVec 16) (d : BitVec 5) :
    let w := encW op hw imm d
    fld w 30 2 = op ∧ fld w 28 2 = hw ∧ fld w 12 16 = imm ∧ fld w 7 5 = d ∧ fld w 1 6 = 11 := by
  simp [encW, majorBits, HAppend.hAppend, -BitVec.append_eq]

theorem exists_encW {w : BitVec 32} (h : w.getLsbD 0 = true) (hm : fld w 1 6 = 11) :
    ∃ op hw imm d, w = encW op hw imm d := by
  refine ⟨fld w 30 2, fld w 28 2, fld w 12 16, fld w 7 5, ?_⟩
  rw [encW, majorBits_of h hm]
  simp [HAppend.hAppend, -BitVec.append_eq]

theorem encB_fields (disp : BitVec 20) (g : Guard) (m : BitVec 6) :
    let w := encB disp g m
    fld w 12 20 = disp ∧ guardOf w = g ∧ fld w 1 6 = m := by
  simp [encB, guardOf_eq, guardBits, majorBits, HAppend.hAppend, -BitVec.append_eq]

theorem exists_encB {w : BitVec 32} {m : BitVec 6} (h : w.getLsbD 0 = true) (hm : fld w 1 6 = m) :
    ∃ disp g, w = encB disp g m := by
  refine ⟨fld w 12 20, guardOf w, ?_⟩
  rw [encB, majorBits_of h hm]
  simp [guardBits_guardOf, HAppend.hAppend, -BitVec.append_eq]

theorem encF_fields (fn f : BitVec 3) (lay : BitVec 4) (a d : BitVec 5) (g : Guard) :
    let w := encF fn f lay a d g
    fld w 29 3 = fn ∧ fld w 26 3 = f ∧ fld w 22 4 = lay ∧ fld w 17 5 = a ∧ fld w 12 5 = d ∧ guardOf
      w = g ∧ fld w 1 6 = 17 := by
  simp [encF, guardOf_eq, guardBits, majorBits, HAppend.hAppend, -BitVec.append_eq]

theorem exists_encF {w : BitVec 32} (h : w.getLsbD 0 = true) (hm : fld w 1 6 = 17) :
    ∃ fn f lay a d g, w = encF fn f lay a d g := by
  refine ⟨fld w 29 3, fld w 26 3, fld w 22 4, fld w 17 5, fld w 12 5, guardOf w, ?_⟩
  rw [encF, majorBits_of h hm]
  simp [guardBits_guardOf, HAppend.hAppend, -BitVec.append_eq]

theorem encFR_fields (fn : BitVec 3) (ft : BitVec 2) (b a d : BitVec 5) (g : Guard) :
    let w := encFR fn ft b a d g
    fld w 29 3 = fn ∧ fld w 27 2 = ft ∧ fld w 22 5 = b ∧ fld w 17 5 = a ∧ fld w 12 5 = d ∧ guardOf w
      = g ∧ fld w 1 6 = 18 := by
  simp [encFR, guardOf_eq, guardBits, majorBits, HAppend.hAppend, -BitVec.append_eq]

theorem exists_encFR {w : BitVec 32} (h : w.getLsbD 0 = true) (hm : fld w 1 6 = 18) :
    ∃ fn ft b a d g, w = encFR fn ft b a d g := by
  refine ⟨fld w 29 3, fld w 27 2, fld w 22 5, fld w 17 5, fld w 12 5, guardOf w, ?_⟩
  rw [encFR, majorBits_of h hm]
  simp [guardBits_guardOf, HAppend.hAppend, -BitVec.append_eq]

theorem encX_fields (fn : BitVec 2) (src tgt : BitVec 4) (a d : BitVec 5) (g : Guard) :
    let w := encX fn src tgt a d g
    fld w 30 2 = fn ∧ fld w 26 4 = src ∧ fld w 22 4 = tgt ∧ fld w 17 5 = a ∧ fld w 12 5 = d ∧
      guardOf w = g ∧ fld w 1 6 = 19 := by
  simp [encX, guardOf_eq, guardBits, majorBits, HAppend.hAppend, -BitVec.append_eq]

theorem exists_encX {w : BitVec 32} (h : w.getLsbD 0 = true) (hm : fld w 1 6 = 19) :
    ∃ fn src tgt a d g, w = encX fn src tgt a d g := by
  refine ⟨fld w 30 2, fld w 26 4, fld w 22 4, fld w 17 5, fld w 12 5, guardOf w, ?_⟩
  rw [encX, majorBits_of h hm]
  simp [guardBits_guardOf, HAppend.hAppend, -BitVec.append_eq]

theorem encSR_fields (fn : BitVec 2) (n : BitVec 8) (a d : BitVec 5) (g : Guard) :
    let w := encSR fn n a d g
    fld w 30 2 = fn ∧ fld w 22 8 = n ∧ fld w 17 5 = a ∧ fld w 12 5 = d ∧ guardOf w = g ∧ fld w 1 6 =
      23 := by
  simp [encSR, guardOf_eq, guardBits, majorBits, HAppend.hAppend, -BitVec.append_eq]

theorem exists_encSR {w : BitVec 32} (h : w.getLsbD 0 = true) (hm : fld w 1 6 = 23) :
    ∃ fn n a d g, w = encSR fn n a d g := by
  refine ⟨fld w 30 2, fld w 22 8, fld w 17 5, fld w 12 5, guardOf w, ?_⟩
  rw [encSR, majorBits_of h hm]
  simp [guardBits_guardOf, HAppend.hAppend, -BitVec.append_eq]

theorem encM_fields (off : BitVec 7) (ty : BitVec 3) (a d : BitVec 5) (g : Guard) (m : BitVec 6) :
    let w := encM off ty a d g m
    fld w 25 7 = off ∧ fld w 22 3 = ty ∧ fld w 17 5 = a ∧ fld w 12 5 = d ∧ guardOf w = g ∧ fld w 1 6
      = m := by
  simp [encM, guardOf_eq, guardBits, majorBits, HAppend.hAppend, -BitVec.append_eq]

theorem exists_encM {w : BitVec 32} {m : BitVec 6} (h : w.getLsbD 0 = true) (hm : fld w 1 6 = m) :
    ∃ off ty a d g, w = encM off ty a d g m := by
  refine ⟨fld w 25 7, fld w 22 3, fld w 17 5, fld w 12 5, guardOf w, ?_⟩
  rw [encM, majorBits_of h hm]
  simp [guardBits_guardOf, HAppend.hAppend, -BitVec.append_eq]

theorem encAM_fields (n : Bool) (op : BitVec 4) (b a d : BitVec 5) (g : Guard) (m : BitVec 6) :
    let w := encAM n op b a d g m
    w.getLsbD 31 = n ∧ fld w 27 4 = op ∧ fld w 22 5 = b ∧ fld w 17 5 = a ∧ fld w 12 5 = d ∧ guardOf
      w = g ∧ fld w 1 6 = m := by
  simp [encAM, guardOf_eq, guardBits, majorBits, BitVec.getLsbD_eq_extractLsb', HAppend.hAppend,
    -BitVec.append_eq, -BitVec.getLsbD_eq_getElem]

theorem exists_encAM {w : BitVec 32} {m : BitVec 6} (h : w.getLsbD 0 = true) (hm : fld w 1 6 = m) :
    ∃ n op b a d g, w = encAM n op b a d g m := by
  refine ⟨w.getLsbD 31, fld w 27 4, fld w 22 5, fld w 17 5, fld w 12 5, guardOf w, ?_⟩
  rw [encAM, majorBits_of h hm]
  simp [guardBits_guardOf, HAppend.hAppend, -BitVec.append_eq]

theorem encL_fields (fn : BitVec 2) (lp : BitVec 4) (v : Bool) (fmt : BitVec 3) (b a : BitVec 5) (g : Guard) :
    let w := encL fn lp v fmt b a g
    fld w 30 2 = fn ∧ fld w 26 4 = lp ∧ w.getLsbD 25 = v ∧ fld w 22 3 = fmt ∧ fld w 17 5 = b ∧ fld w
      12 5 = a ∧ guardOf w = g ∧ fld w 1 6 = 33 := by
  simp [encL, guardOf_eq, guardBits, majorBits, BitVec.getLsbD_eq_extractLsb', HAppend.hAppend,
    -BitVec.append_eq, -BitVec.getLsbD_eq_getElem]

theorem exists_encL {w : BitVec 32} (h : w.getLsbD 0 = true) (hm : fld w 1 6 = 33) :
    ∃ fn lp v fmt b a g, w = encL fn lp v fmt b a g := by
  refine ⟨fld w 30 2, fld w 26 4, w.getLsbD 25, fld w 22 3, fld w 17 5, fld w 12 5, guardOf w, ?_⟩
  rw [encL, majorBits_of h hm]
  simp [guardBits_guardOf, HAppend.hAppend, -BitVec.append_eq]

theorem encT3_fields (fn : BitVec 2) (tb ta td : BitVec 6) (g : Guard) (m : BitVec 6) :
    let w := encT3 fn tb ta td g m
    fld w 30 2 = fn ∧ fld w 24 6 = tb ∧ fld w 18 6 = ta ∧ fld w 12 6 = td ∧ guardOf w = g ∧ fld w 1
      6 = m := by
  simp [encT3, guardOf_eq, guardBits, majorBits, HAppend.hAppend, -BitVec.append_eq]

theorem exists_encT3 {w : BitVec 32} {m : BitVec 6} (h : w.getLsbD 0 = true) (hm : fld w 1 6 = m) :
    ∃ fn tb ta td g, w = encT3 fn tb ta td g m := by
  refine ⟨fld w 30 2, fld w 24 6, fld w 18 6, fld w 12 6, guardOf w, ?_⟩
  rw [encT3, majorBits_of h hm]
  simp [guardBits_guardOf, HAppend.hAppend, -BitVec.append_eq]

theorem encTG_fields (fn : BitVec 4) (b a : BitVec 5) (t : BitVec 6) (g : Guard) :
    let w := encTG fn b a t g
    fld w 28 4 = fn ∧ fld w 23 5 = b ∧ fld w 18 5 = a ∧ fld w 12 6 = t ∧ guardOf w = g ∧ fld w 1 6 =
      41 := by
  simp [encTG, guardOf_eq, guardBits, majorBits, HAppend.hAppend, -BitVec.append_eq]

theorem exists_encTG {w : BitVec 32} (h : w.getLsbD 0 = true) (hm : fld w 1 6 = 41) :
    ∃ fn b a t g, w = encTG fn b a t g := by
  refine ⟨fld w 28 4, fld w 23 5, fld w 18 5, fld w 12 6, guardOf w, ?_⟩
  rw [encTG, majorBits_of h hm]
  simp [guardBits_guardOf, HAppend.hAppend, -BitVec.append_eq]

theorem encTX_fields (fn : BitVec 3) (a : BitVec 5) (ti t : BitVec 6) (g : Guard) :
    let w := encTX fn a ti t g
    fld w 29 3 = fn ∧ fld w 24 5 = a ∧ fld w 18 6 = ti ∧ fld w 12 6 = t ∧ guardOf w = g ∧ fld w 1 6
      = 42 := by
  simp [encTX, guardOf_eq, guardBits, majorBits, HAppend.hAppend, -BitVec.append_eq]

theorem exists_encTX {w : BitVec 32} (h : w.getLsbD 0 = true) (hm : fld w 1 6 = 42) :
    ∃ fn a ti t g, w = encTX fn a ti t g := by
  refine ⟨fld w 29 3, fld w 24 5, fld w 18 6, fld w 12 6, guardOf w, ?_⟩
  rw [encTX, majorBits_of h hm]
  simp [guardBits_guardOf, HAppend.hAppend, -BitVec.append_eq]

theorem encSH_fields (fmt : BitVec 4) (c : BitVec 8) (r : BitVec 5) (g : Guard) :
    let w := encSH fmt c r g
    fld w 29 3 = 0 ∧ fld w 25 4 = fmt ∧ fld w 17 8 = c ∧ fld w 12 5 = r ∧ guardOf w = g ∧ fld w 1 6
      = 43 := by
  simp [encSH, guardOf_eq, guardBits, majorBits, HAppend.hAppend, -BitVec.append_eq]

theorem exists_encSH {w : BitVec 32} (h : w.getLsbD 0 = true) (hm : fld w 1 6 = 43) (hz : fld w 29 3 = 0#3) :
    ∃ fmt c r g, w = encSH fmt c r g := by
  refine ⟨fld w 25 4, fld w 17 8, fld w 12 5, guardOf w, ?_⟩
  rw [encSH, majorBits_of h hm, ← hz]
  simp [guardBits_guardOf, HAppend.hAppend, -BitVec.append_eq]

/-- The row of ADDPC (R52), as `encode` writes it. -/
def encAddpc (imm : BitVec 20) (d : BitVec 5) : BitVec 32 := imm ++ d ++ majorBits 12

theorem encAddpc_fields (imm : BitVec 20) (d : BitVec 5) :
    let w := encAddpc imm d
    fld w 12 20 = imm ∧ fld w 7 5 = d ∧ fld w 1 6 = 12 := by
  simp [encAddpc, majorBits, HAppend.hAppend, -BitVec.append_eq]

theorem exists_encAddpc {w : BitVec 32} (h : w.getLsbD 0 = true) (hm : fld w 1 6 = 12) :
    ∃ imm d, w = encAddpc imm d := by
  refine ⟨fld w 12 20, fld w 7 5, ?_⟩
  rw [encAddpc, majorBits_of h hm]
  simp [HAppend.hAppend, -BitVec.append_eq]

theorem encMW_fields (m : MW) :
    let w := encMW m
    w.getLsbD 31 = false ∧ fld w 28 3 = m.scope ∧ fld w 25 3 = m.ord ∧ fld w 22 3 = m.rm ∧ fld w 16 6 = m.scale ∧
      w.getLsbD 15 = m.absB ∧ w.getLsbD 14 = m.absA ∧ w.getLsbD 13 = m.negB ∧ w.getLsbD 12 = m.negA ∧
      w.getLsbD 11 = m.clamp ∧ fld w 7 4 = m.sat ∧ fld w 1 6 = 63 := by
  simp [encMW, majorBits, BitVec.getLsbD_eq_extractLsb', HAppend.hAppend, -BitVec.append_eq,
    -BitVec.getLsbD_eq_getElem]

/-! ### The compact format (R47) -/

theorem encC16_eq (n : BitVec 3) (d a op : BitVec 4) : encC16 n d a op = n ++ (d ++ a) ++ op ++ 0#1 := by
  exact congrArg (fun x : BitVec 11 => x ++ op ++ 0#1) BitVec.append_assoc

theorem encC16_fields (n : BitVec 3) (d a op : BitVec 4) :
    let h := encC16 n d a op
    h.extractLsb' 13 3 = n ∧ h.extractLsb' 9 4 = d ∧ h.extractLsb' 5 4 = a ∧ h.extractLsb' 1 4 = op := by
  simp [encC16, HAppend.hAppend, -BitVec.append_eq]

theorem encC16_disp (n : BitVec 3) (d a op : BitVec 4) : (encC16 n d a op).extractLsb' 5 8 = d ++ a := by
  rw [encC16_eq]
  simp [HAppend.hAppend, -BitVec.append_eq]

theorem exists_encC16 {h : BitVec 16} (h0 : h.getLsbD 0 = false) : ∃ n d a op, h = encC16 n d a op := by
  refine ⟨h.extractLsb' 13 3, h.extractLsb' 9 4, h.extractLsb' 5 4, h.extractLsb' 1 4, ?_⟩
  have hb : 0#1 = h.extractLsb' 0 1 := by rw [← ofBool_getLsbD, h0]; rfl
  rw [encC16, hb]
  simp [HAppend.hAppend, -BitVec.append_eq]

/-! ### Narrow fields in a field of five bits (R44) -/

/-- A field whose value needs no more than `n` bits is the row of zeros and those bits. -/
theorem zero_append_extractLsb' {m n : Nat} {x : BitVec (m + n)} (h : x.toNat < 2 ^ n) :
    0#m ++ x.extractLsb' 0 n = x := by
  refine BitVec.eq_of_toNat_eq ?_
  simp [Nat.mod_eq_of_lt h]

theorem toNat_zero_append {m n : Nat} (x : BitVec n) : (0#m ++ x).toNat = x.toNat := by
  rw [BitVec.toNat_append]
  simp

theorem exists_pred5 {x : BitVec 5} (h : (!x.getLsbD 4) = true) : ∃ p, x = pred5 p := by
  refine ⟨x.extractLsb' 0 4, ?_⟩
  have hb : 0#1 = x.extractLsb' 4 1 := by rw [← ofBool_getLsbD, (by simpa using h : x.getLsbD 4 = false)]; rfl
  rw [pred5, hb]
  exact ((append_extractLsb' (x := x) (m := 1) (n := 4) (lo := 0) rfl).trans BitVec.extractLsb'_eq_self).symm

@[simp] theorem pred5_extractLsb' (p : Pred) : (pred5 p).extractLsb' 0 4 = p :=
  BitVec.extractLsb'_append_eq_right

@[simp] theorem pred5_getLsbD (p : Pred) : (pred5 p).getLsbD 4 = false :=
  BitVec.getLsbD_append

theorem exists_bit5 {x : BitVec 5} (h : ¬ 2 ≤ x.toNat) : ∃ k, x = bit5 k :=
  ⟨x.getLsbD 0, by
    rw [bit5, ofBool_getLsbD]
    exact (zero_append_extractLsb' (m := 4) (n := 1) (Nat.not_le.mp h)).symm⟩

theorem exists_zero3_append {x : BitVec 4} (h : ¬ 2 ≤ x.toNat) : ∃ k, x = 0#3 ++ BitVec.ofBool k :=
  ⟨x.getLsbD 0, by
    rw [ofBool_getLsbD]
    exact (zero_append_extractLsb' (m := 3) (n := 1) (Nat.not_le.mp h)).symm⟩

theorem exists_zero2_append {x : BitVec 5} (h : x.toNat < 8) : ∃ k : BitVec 3, x = 0#2 ++ k :=
  ⟨_, (zero_append_extractLsb' (m := 2) (n := 3) h).symm⟩

@[simp] theorem bit5_getLsbD (k : Bool) : (bit5 k).getLsbD 0 = k := by cases k <;> rfl

@[simp] theorem getLsbD_zero3_append (k : Bool) : (0#3 ++ BitVec.ofBool k).getLsbD 0 = k := by cases k <;> rfl

@[simp] theorem extractLsb'_zero1_append (k : BitVec 3) : BitVec.extractLsb' 0 3 (0#1 ++ k) = k :=
  BitVec.extractLsb'_append_eq_right

theorem toNat_zero2_append3 (k : BitVec 3) : (0#2 ++ k : BitVec 5).toNat = k.toNat := toNat_zero_append k

theorem toNat_zero2_append4 (k : BitVec 4) : (0#2 ++ k : BitVec 6).toNat = k.toNat := toNat_zero_append k

theorem zero3_append_le (k : Bool) : (0#3 ++ BitVec.ofBool k : BitVec 4).toNat ≤ 1 := by cases k <;> decide

theorem bit5_le (k : Bool) : (bit5 k).toNat ≤ 1 := by cases k <;> decide

@[simp] theorem getLsbD_zero1_append (k : BitVec 3) : (0#1 ++ k).getLsbD 3 = false :=
  BitVec.getLsbD_append

theorem exists_append {m n : Nat} (x : BitVec (m + n)) : ∃ (y : BitVec m) (z : BitVec n), x = y ++ z :=
  ⟨_, _, BitVec.extractLsb'_append_extractLsb'.symm⟩

@[simp] theorem extractLsb'_zero2_append (k : BitVec 3) : BitVec.extractLsb' 0 3 (0#2 ++ k) = k :=
  BitVec.extractLsb'_append_eq_right

theorem exists_zero1_append {x : BitVec 4} (h : (!x.getLsbD 3) = true) : ∃ k : BitVec 3, x = 0#1 ++ k := by
  refine ⟨x.extractLsb' 0 3, ?_⟩
  have hb : 0#1 = x.extractLsb' 3 1 := by
    rw [← ofBool_getLsbD, (by simpa using h : x.getLsbD 3 = false)]
    rfl
  rw [hb]
  exact ((append_extractLsb' (x := x) (m := 1) (n := 3) (lo := 0) rfl).trans BitVec.extractLsb'_eq_self).symm

theorem eq_zero_of_beq_one {k : BitVec 1} (h : ¬ (k == 1#1) = true) : k = 0 := by
  revert k; decide

theorem eq_zero_of_append_eq_zero {m n : Nat} {x : BitVec m} {y : BitVec n} (h : x ++ y = 0) : x = 0 ∧ y = 0 :=
  ⟨BitVec.extractLsb'_append_eq_left.symm.trans ((congrArg _ h).trans BitVec.extractLsb'_zero),
    BitVec.extractLsb'_append_eq_right.symm.trans ((congrArg _ h).trans BitVec.extractLsb'_zero)⟩

theorem eq_three_of_ne {x : BitVec 2} (h0 : x.toNat ≠ 0) (h1 : x.toNat ≠ 1) (h2 : x.toNat ≠ 2) : x = 3 :=
  eq_ofNat_of_toNat_eq (by omega : x.toNat = 3)

/-! ### Coded fields (R55) -/

@[simp] theorem condOf_code (c : Cond) : condOf c.code.toNat = some c := by cases c <;> rfl

theorem condOf_eq_some {n : Nat} {c : Cond} : condOf n = some c ↔ n = c.code.toNat := by
  refine ⟨fun h => ?_, fun h => h ▸ condOf_code c⟩
  unfold condOf at h
  split at h <;> cases h <;> rfl

@[simp] theorem fcondOf_code (c : FCond) : fcondOf c.code.toNat = some c := by cases c <;> rfl

theorem fcondOf_eq_some {n : Nat} {c : FCond} : fcondOf n = some c ↔ n = c.code.toNat := by
  refine ⟨fun h => ?_, fun h => h ▸ fcondOf_code c⟩
  unfold fcondOf at h
  split at h <;> cases h <;> rfl

@[simp] theorem fmtOf_code (c : Fmt) : fmtOf c.code.toNat = some c := by cases c <;> rfl

theorem fmtOf_eq_some {n : Nat} {c : Fmt} : fmtOf n = some c ↔ n = c.code.toNat := by
  refine ⟨fun h => ?_, fun h => h ▸ fmtOf_code c⟩
  unfold fmtOf at h
  split at h <;> cases h <;> rfl

@[simp] theorem ldTyOf_code (c : LdTy) : ldTyOf c.code.toNat = some c := by cases c <;> rfl

theorem ldTyOf_eq_some {n : Nat} {c : LdTy} : ldTyOf n = some c ↔ n = c.code.toNat := by
  refine ⟨fun h => ?_, fun h => h ▸ ldTyOf_code c⟩
  unfold ldTyOf at h
  split at h <;> cases h <;> rfl

@[simp] theorem stTyOf_code (c : StTy) : stTyOf c.code.toNat = some c := by cases c <;> rfl

theorem stTyOf_eq_some {n : Nat} {c : StTy} : stTyOf n = some c ↔ n = c.code.toNat := by
  refine ⟨fun h => ?_, fun h => h ▸ stTyOf_code c⟩
  unfold stTyOf at h
  split at h <;> cases h <;> rfl

@[simp] theorem amoOpOf_code (c : AmoOp) : amoOpOf c.code.toNat = some c := by cases c <;> rfl

theorem amoOpOf_eq_some {n : Nat} {c : AmoOp} : amoOpOf n = some c ↔ n = c.code.toNat := by
  refine ⟨fun h => ?_, fun h => h ▸ amoOpOf_code c⟩
  unfold amoOpOf at h
  split at h <;> cases h <;> rfl

@[simp] theorem redOpOf_code (c : RedOp) : redOpOf c.code.toNat = some c := by cases c <;> rfl

theorem redOpOf_eq_some {n : Nat} {c : RedOp} : redOpOf n = some c ↔ n = c.code.toNat := by
  refine ⟨fun h => ?_, fun h => h ▸ redOpOf_code c⟩
  unfold redOpOf at h
  split at h <;> cases h <;> rfl

@[simp] theorem fenceKindOf_code (c : FenceKind) : fenceKindOf c.code.toNat = some c := by cases c <;> rfl

theorem fenceKindOf_eq_some {n : Nat} {c : FenceKind} : fenceKindOf n = some c ↔ n = c.code.toNat := by
  refine ⟨fun h => ?_, fun h => h ▸ fenceKindOf_code c⟩
  unfold fenceKindOf at h
  split at h <;> cases h <;> rfl

@[simp] theorem floatTyOf_code (t : FloatTy) : floatTyOf t.code = t := by cases t <;> rfl

theorem exists_floatTy (x : BitVec 2) : ∃ t : FloatTy, x = t.code := by
  refine ⟨floatTyOf x, ?_⟩
  unfold floatTyOf
  split_ifs with h0 h1 h2
  · exact h0
  · exact h1
  · exact h2
  · revert x; decide

@[simp] theorem loomFmtOf_code (f : LoomFmt) : loomFmtOf f.code = f := by cases f <;> rfl

theorem exists_loomFmt (x : BitVec 3) : ∃ f : LoomFmt, x = f.code := by
  refine ⟨loomFmtOf x, ?_⟩
  revert x; decide

@[simp] theorem lpOf_zero : lpOf 0#4 = some none := rfl

@[simp] theorem lpOf_lpBits (l : Option (BitVec 3)) : lpOf (lpBits l) = some l := by
  revert l; decide

theorem lpOf_eq_some {x : BitVec 4} {l : Option (BitVec 3)} : lpOf x = some l ↔ x = lpBits l := by
  constructor
  · revert x l; decide
  · rintro rfl
    revert l; decide

/-! ### What decodes is the encoding of what it decodes to (R46, R55, R56) -/

/-- `e` is the encoding of what `x` answers. -/
def EncodesTo (e : Encoded) (x : Decoded) : Prop := ∀ i, x = .ok i → encode i = some e

section
variable {e : Encoded}

theorem encodesTo_ok {i : Instr} : EncodesTo e (.ok i) ↔ encode i = some e :=
  ⟨fun h => h i rfl, fun h _ hi => Except.ok.inj hi ▸ h⟩

theorem encodesTo_error {r : DecodeError} : EncodesTo e (.error r) := by
  intro i h
  cases h

theorem encodesTo_zeroed {z : Bool} {i : Instr} :
    EncodesTo e (zeroed z i) ↔ (z = true → encode i = some e) := by
  cases z
  · simp [zeroed, encodesTo_error]
  · simp [zeroed, encodesTo_ok]

theorem encodesTo_coded {α : Type} {o : Option α} {k : α → Decoded} :
    EncodesTo e (coded o k) ↔ ∀ x, o = some x → EncodesTo e (k x) := by
  cases o
  · simp [coded, encodesTo_error]
  · simp [coded]

theorem encodesTo_ite {c : Prop} [Decidable c] {x y : Decoded} :
    EncodesTo e (if c then x else y) ↔ (c → EncodesTo e x) ∧ (¬ c → EncodesTo e y) := by
  split <;> simp [*]

end

section
variable {w : BitVec 32} (h : w.getLsbD 0 = true)
include h

theorem encodesTo_decodeInt (hm : fld w 1 6 = 1) : EncodesTo (.w w) (decodeInt w) := by
  obtain ⟨fn, b, a, d, g, rfl⟩ := exists_encR h hm
  simp only [decodeInt, encR_fields]
  split
  all_goals simp only [encodesTo_ok, encodesTo_zeroed, encodesTo_error, decide_eq_true_eq]
  all_goals rename_i e; obtain rfl := eq_ofNat_of_toNat_eq e
  all_goals intros; subst_vars; rfl

theorem encodesTo_decodeShift (hm : fld w 1 6 = 6) : EncodesTo (.w w) (decodeShift w) := by
  obtain ⟨fn, sh, a, d, g, rfl⟩ := exists_encK h hm
  simp only [decodeShift, encK_fields]
  split
  all_goals simp only [encodesTo_ok, encodesTo_error]
  all_goals rename_i e; obtain rfl := eq_ofNat_of_toNat_eq e
  all_goals rfl

theorem encodesTo_decodeField (hm : fld w 1 6 = 17) : EncodesTo (.w w) (decodeField w) := by
  obtain ⟨fn, f, lay, a, d, g, rfl⟩ := exists_encF h hm
  simp only [decodeField, encF_fields]
  split
  all_goals simp only [encodesTo_ok, encodesTo_zeroed, encodesTo_error, decide_eq_true_eq, and_imp]
  all_goals rename_i e; obtain rfl := eq_ofNat_of_toNat_eq e
  all_goals intros; subst_vars; rfl

theorem encodesTo_decodeFloat (hm : fld w 1 6 = 18) : EncodesTo (.w w) (decodeFloat w) := by
  obtain ⟨fn, ft, b, a, d, g, rfl⟩ := exists_encFR h hm
  obtain ⟨t, rfl⟩ := exists_floatTy ft
  simp only [decodeFloat, encFR_fields]
  split
  all_goals simp only [encodesTo_ok, floatTyOf_code, encodesTo_zeroed, encodesTo_error, decide_eq_true_eq]
  all_goals rename_i e; obtain rfl := eq_ofNat_of_toNat_eq e
  all_goals intros; subst_vars; rfl

theorem encodesTo_decodeConvert (hm : fld w 1 6 = 19) : EncodesTo (.w w) (decodeConvert w) := by
  obtain ⟨fn, src, tgt, a, d, g, rfl⟩ := exists_encX h hm
  simp only [decodeConvert, encX_fields]
  split
  all_goals simp only [encodesTo_ok, encodesTo_ite, encodesTo_coded, encodesTo_error, fmtOf_eq_some,
    BitVec.toNat_inj, not_not, implies_true, true_and]
  all_goals rename_i e; obtain rfl := eq_ofNat_of_toNat_eq e
  all_goals intros; subst_vars; rfl

theorem encodesTo_decodeStateReg (hm : fld w 1 6 = 23) : EncodesTo (.w w) (decodeStateReg w) := by
  obtain ⟨fn, n, a, d, g, rfl⟩ := exists_encSR h hm
  simp only [decodeStateReg, encSR_fields]
  split
  case h_4 h0 h1 h2 =>
    obtain rfl := eq_three_of_ne h0 h1 h2
    rw [encodesTo_zeroed, decide_eq_true_eq]
    rintro rfl
    rfl
  all_goals simp only [encodesTo_zeroed, decide_eq_true_eq]
  all_goals rename_i e; obtain rfl := eq_ofNat_of_toNat_eq e
  all_goals intros; subst_vars; rfl

theorem encodesTo_decodeIndexed (hm : fld w 1 6 = 27) : EncodesTo (.w w) (decodeIndexed w) := by
  obtain ⟨fn, b, a, d, g, rfl⟩ := exists_encR h hm
  simp only [decodeIndexed, encR_fields]
  split
  all_goals simp only [encodesTo_ok, encodesTo_error]
  all_goals rename_i e; obtain rfl := eq_ofNat_of_toNat_eq e
  all_goals rfl

theorem encodesTo_decodeMemory (hm : fld w 1 6 = 28) : EncodesTo (.w w) (decodeMemory w) := by
  obtain ⟨fn, b, a, d, g, rfl⟩ := exists_encR h hm
  simp only [decodeMemory, encR_fields]
  split
  case h_11 e =>
    obtain rfl := eq_ofNat_of_toNat_eq e
    rw [encodesTo_zeroed]
    intro hq
    obtain ⟨p, rfl⟩ := exists_pred5 hq
    rw [pred5_extractLsb']
    rfl
  case h_20 e =>
    obtain rfl := eq_ofNat_of_toNat_eq e
    rw [encodesTo_zeroed, decide_eq_true_eq]
    rintro ⟨hq, rfl, rfl⟩
    obtain ⟨p, rfl⟩ := exists_pred5 hq
    rw [pred5_extractLsb']
    rfl
  case h_12 e =>
    obtain rfl := eq_ofNat_of_toNat_eq e
    simp only [encodesTo_ite, encodesTo_error, encodesTo_coded, encodesTo_ok, implies_true, true_and,
      not_not, fenceKindOf_eq_some, BitVec.toNat_inj]
    rintro rfl hs k rfl
    obtain ⟨s, rfl⟩ := exists_zero2_append (x := a) (by omega)
    rw [extractLsb'_zero2_append]
    rfl
  case h_23 e =>
    obtain rfl := eq_ofNat_of_toNat_eq e
    rw [encodesTo_zeroed]
    intro hq
    obtain ⟨p, rfl⟩ := exists_pred5 hq
    rw [pred5_extractLsb']
    rfl
  all_goals simp only [encodesTo_ok, encodesTo_zeroed, encodesTo_error, decide_eq_true_eq, and_imp]
  all_goals rename_i e; obtain rfl := eq_ofNat_of_toNat_eq e
  all_goals intros; subst_vars; rfl

theorem encodesTo_decodeTask (hm : fld w 1 6 = 31) : EncodesTo (.w w) (decodeTask w) := by
  obtain ⟨fn, b, a, d, g, rfl⟩ := exists_encR h hm
  simp only [decodeTask, encR_fields]
  split
  case h_2 e | h_4 e | h_22 e | h_26 e =>
    obtain rfl := eq_ofNat_of_toNat_eq e
    rw [encodesTo_zeroed]
    intro hq
    obtain ⟨p, rfl⟩ := exists_pred5 hq
    rw [pred5_extractLsb']
    rfl
  case h_15 e =>
    obtain rfl := eq_ofNat_of_toNat_eq e
    simp only [encodesTo_ite, encodesTo_error, encodesTo_ok, implies_true, true_and, not_or, not_not]
    rintro ⟨rfl, rfl⟩ hk
    obtain ⟨k, rfl⟩ := exists_bit5 hk
    rw [bit5_getLsbD]
    rfl
  all_goals simp only [encodesTo_zeroed, encodesTo_error, decide_eq_true_eq, and_imp]
  all_goals rename_i e; obtain rfl := eq_ofNat_of_toNat_eq e
  all_goals intros; subst_vars; rfl

theorem encodesTo_decodeScriv (hm : fld w 1 6 = 32) : EncodesTo (.w w) (decodeScriv w) := by
  obtain ⟨fn, b, a, d, g, rfl⟩ := exists_encR h hm
  simp only [decodeScriv, encR_fields]
  split
  all_goals simp only [encodesTo_zeroed, encodesTo_error, decide_eq_true_eq]
  all_goals rename_i e; obtain rfl := eq_ofNat_of_toNat_eq e
  all_goals intros; subst_vars; rfl

theorem encodesTo_decodeTileG (hm : fld w 1 6 = 41) : EncodesTo (.w w) (decodeTileG w) := by
  obtain ⟨fn, b, a, t, g, rfl⟩ := exists_encTG h hm
  simp only [decodeTileG, encTG_fields]
  split
  all_goals simp only [encodesTo_ok, encodesTo_zeroed, encodesTo_error, decide_eq_true_eq]
  all_goals rename_i e; obtain rfl := eq_ofNat_of_toNat_eq e
  all_goals intros; subst_vars; rfl

theorem encodesTo_decodeTileX (hm : fld w 1 6 = 42) : EncodesTo (.w w) (decodeTileX w) := by
  obtain ⟨fn, a, ti, t, g, rfl⟩ := exists_encTX h hm
  simp only [decodeTileX, encTX_fields]
  split
  all_goals simp only [encodesTo_ok, encodesTo_error]
  all_goals rename_i e; obtain rfl := eq_ofNat_of_toNat_eq e
  all_goals rfl

theorem encodesTo_decodeSys (hm : fld w 1 6 = 44) : EncodesTo (.w w) (decodeSys w) := by
  obtain ⟨fn, b, a, d, g, rfl⟩ := exists_encR h hm
  simp only [decodeSys, encR_fields]
  split
  all_goals simp only [encodesTo_zeroed, encodesTo_error, decide_eq_true_eq, and_imp]
  all_goals rename_i e; obtain rfl := eq_ofNat_of_toNat_eq e
  all_goals intros; subst_vars; rfl

theorem encodesTo_decodeLoomC (hm : fld w 1 6 = 34) : EncodesTo (.w w) (decodeLoomC w) := by
  obtain ⟨fn, b, a, d, g, rfl⟩ := exists_encR h hm
  simp only [decodeLoomC, encR_fields]
  rw [encodesTo_ite]
  refine ⟨fun _ => by split <;> exact encodesTo_error, fun hb => ?_⟩
  obtain rfl := not_not.mp hb
  split
  case h_2 e =>
    obtain rfl := eq_ofNat_of_toNat_eq e
    simp only [encodesTo_ite, encodesTo_error, encodesTo_ok, implies_true, true_and, not_not]
    rintro rfl hk
    obtain ⟨k, rfl⟩ := exists_bit5 hk
    rw [bit5_getLsbD]
    rfl
  case h_3 e =>
    obtain rfl := eq_ofNat_of_toNat_eq e
    simp only [encodesTo_ite, encodesTo_error, encodesTo_ok, implies_true, true_and]
    intro hk
    obtain ⟨k, rfl⟩ := exists_bit5 hk
    rw [bit5_getLsbD]
    rfl
  case h_4 e =>
    obtain rfl := eq_ofNat_of_toNat_eq e
    simp only [encodesTo_ite, encodesTo_error, encodesTo_ok, implies_true, true_and]
    intro hk
    obtain ⟨k, rfl⟩ := exists_zero2_append (x := d) (by omega)
    rw [extractLsb'_zero2_append]
    rfl
  all_goals simp only [encodesTo_zeroed, encodesTo_error, decide_eq_true_eq, and_imp]
  all_goals rename_i e; obtain rfl := eq_ofNat_of_toNat_eq e
  all_goals intros; subst_vars; rfl

theorem encodesTo_decodeTileU (hm : fld w 1 6 = 40) : EncodesTo (.w w) (decodeTileU w) := by
  obtain ⟨z, fn, ta, td, g, rfl⟩ := exists_encT3 h hm
  simp only [decodeTileU, encT3_fields]
  rw [encodesTo_ite]
  refine ⟨fun _ => encodesTo_error, fun hz => ?_⟩
  obtain rfl := not_not.mp hz
  split
  all_goals simp only [encodesTo_ok, encodesTo_zeroed, encodesTo_error, decide_eq_true_eq]
  all_goals rename_i e; obtain rfl := eq_ofNat_of_toNat_eq e
  all_goals intros; subst_vars; rfl

theorem encodesTo_decodePred (hm : fld w 1 6 = 9) : EncodesTo (.w w) (decodePred w) := by
  unfold decodePred
  dsimp only
  rw [encodesTo_ite]
  refine ⟨fun _ => encodesTo_error, fun hz => ?_⟩
  obtain ⟨fn, pb, pa, pd, g, rfl⟩ := exists_encP h hm (not_not.mp hz)
  simp only [encP_fields]
  split
  case h_6 e =>
    obtain rfl := eq_ofNat_of_toNat_eq e
    simp only [encodesTo_ite, encodesTo_error, encodesTo_ok, implies_true, true_and, not_not]
    rintro rfl hk
    obtain ⟨k, rfl⟩ := exists_zero3_append hk
    rw [getLsbD_zero3_append]
    rfl
  all_goals simp only [encodesTo_ok, encodesTo_zeroed, encodesTo_error, decide_eq_true_eq]
  all_goals rename_i e; obtain rfl := eq_ofNat_of_toNat_eq e
  all_goals intros; subst_vars; rfl

theorem encodesTo_decodeMem_load (hm : fld w 1 6 = 24) : EncodesTo (.w w) (decodeMem 24 w) := by
  obtain ⟨off, ty, a, d, g, rfl⟩ := exists_encM h hm
  simp only [decodeMem, encM_fields, if_true, encodesTo_coded, encodesTo_ok, ldTyOf_eq_some, BitVec.toNat_inj]
  rintro t rfl
  rfl

theorem encodesTo_decodeMem_store (hm : fld w 1 6 = 25) : EncodesTo (.w w) (decodeMem 25 w) := by
  obtain ⟨off, ty, a, d, g, rfl⟩ := exists_encM h hm
  change EncodesTo _ (coded _ _)
  simp only [encM_fields, encodesTo_coded, encodesTo_ok, stTyOf_eq_some, BitVec.toNat_inj]
  rintro t rfl
  rfl

theorem encodesTo_decodeMem_pair (hm : fld w 1 6 = 26) : EncodesTo (.w w) (decodeMem 26 w) := by
  obtain ⟨off, ty, a, d, g, rfl⟩ := exists_encM h hm
  rw [decodeMem, if_neg (by decide), if_neg (by decide)]
  simp only [encM_fields]
  split
  all_goals simp only [encodesTo_ok, encodesTo_error]
  all_goals rename_i e; obtain rfl := eq_ofNat_of_toNat_eq e; rfl

theorem encodesTo_decodeAtomic_amo (hm : fld w 1 6 = 29) : EncodesTo (.w w) (decodeAtomic 29 w) := by
  obtain ⟨n, op, b, a, d, g, rfl⟩ := exists_encAM h hm
  simp only [decodeAtomic, encAM_fields, if_true, encodesTo_coded, encodesTo_ok, amoOpOf_eq_some, BitVec.toNat_inj]
  rintro t rfl
  rfl

theorem encodesTo_decodeAtomic_red (hm : fld w 1 6 = 30) : EncodesTo (.w w) (decodeAtomic 30 w) := by
  obtain ⟨n, op, b, a, d, g, rfl⟩ := exists_encAM h hm
  rw [decodeAtomic, if_neg (by decide)]
  simp only [encAM_fields, encodesTo_ite, encodesTo_error, encodesTo_coded, encodesTo_ok, redOpOf_eq_some,
    BitVec.toNat_inj, implies_true, true_and, not_not]
  rintro rfl t rfl
  rfl

theorem encodesTo_decodeLoomD (hm : fld w 1 6 = 33) : EncodesTo (.w w) (decodeLoomD w) := by
  obtain ⟨fn, lp, v, ft, b, a, g, rfl⟩ := exists_encL h hm
  obtain ⟨f, rfl⟩ := exists_loomFmt ft
  simp only [decodeLoomD, encL_fields, encodesTo_coded, lpOf_eq_some, loomFmtOf_code]
  rintro l rfl
  split
  case h_4 h0 h1 h2 =>
    obtain rfl := eq_three_of_ne h0 h1 h2
    rw [encodesTo_ok]
    rfl
  all_goals simp only [encodesTo_ite, encodesTo_error, encodesTo_ok, implies_true, true_and,
    Bool.not_eq_true, Option.isSome_eq_false_iff, Option.isNone_iff_eq_none]
  all_goals rename_i e; obtain rfl := eq_ofNat_of_toNat_eq e
  all_goals intros; subst_vars; rfl

theorem encodesTo_decodeTile3 {m : BitVec 6} (hm : fld w 1 6 = m) :
    EncodesTo (.w w) (decodeTile3 m.toNat w) := by
  obtain ⟨fn, tb, ta, td, g, rfl⟩ := exists_encT3 h hm
  simp only [decodeTile3, encT3_fields]
  split
  case h_4 e h0 h1 h2 | h_8 e h0 h1 h2 | h_12 e h0 h1 h2 | h_19 e h0 h1 h2 =>
    obtain rfl := eq_ofNat_of_toNat_eq e
    obtain rfl := eq_three_of_ne h0 h1 h2
    exact encodesTo_ok.mpr rfl
  case h_14 e f =>
    obtain rfl := eq_ofNat_of_toNat_eq e
    obtain rfl := eq_ofNat_of_toNat_eq f
    simp only [encodesTo_coded, encodesTo_ok, fmtOf_eq_some]
    intro t ht
    obtain rfl : tb = 0#2 ++ t.code := BitVec.eq_of_toNat_eq (ht.trans (toNat_zero_append _).symm)
    rfl
  all_goals simp only [encodesTo_ok, encodesTo_error]
  all_goals rename_i e f; obtain rfl := eq_ofNat_of_toNat_eq e; obtain rfl := eq_ofNat_of_toNat_eq f; rfl

theorem encodesTo_decodeFields (hm : fld w 1 6 ≠ 63) : EncodesTo (.w w) (decodeFields w) := by
  unfold decodeFields
  dsimp only
  split
  case h_1 e => exact encodesTo_decodeInt h (eq_ofNat_of_toNat_eq e)
  case h_2 e | h_3 e | h_4 e | h_5 e | h_16 e =>
    obtain ⟨imm, a, d, g, rfl⟩ := exists_encI h (eq_ofNat_of_toNat_eq e)
    simp only [encI_fields]
    exact encodesTo_ok.mpr rfl
  case h_6 e => exact encodesTo_decodeShift h (eq_ofNat_of_toNat_eq e)
  case h_7 e =>
    obtain ⟨ft, b, a, cc, pd, g, rfl⟩ := exists_encC h (eq_ofNat_of_toNat_eq e)
    simp only [encC_fields, encodesTo_ite, encodesTo_error, encodesTo_coded, encodesTo_ok, condOf_eq_some,
      BitVec.toNat_inj, implies_true, true_and, not_not]
    rintro rfl c rfl
    rfl
  case h_8 e =>
    obtain ⟨imm, a, cc, pd, g, rfl⟩ := exists_encCI h (eq_ofNat_of_toNat_eq e)
    simp only [encCI_fields, encodesTo_coded, encodesTo_ok, condOf_eq_some, BitVec.toNat_inj]
    rintro c rfl
    rfl
  case h_9 e => exact encodesTo_decodePred h (eq_ofNat_of_toNat_eq e)
  case h_10 e =>
    obtain ⟨k, n, b, a, d, g, rfl⟩ := exists_encS h (eq_ofNat_of_toNat_eq e)
    simp only [encS_fields, encodesTo_ite, encodesTo_zeroed, encodesTo_ok]
    refine ⟨fun hk hn => ?_, fun hk => ?_⟩
    · obtain rfl := beq_iff_eq.mp hk
      obtain ⟨sh, rfl⟩ := exists_zero1_append hn
      rw [extractLsb'_zero1_append]
      rfl
    · obtain rfl := eq_zero_of_beq_one hk
      rfl
  case h_11 e =>
    obtain ⟨op, hw, imm, d, rfl⟩ := exists_encW h (eq_ofNat_of_toNat_eq e)
    simp only [encW_fields]
    split
    all_goals simp only [encodesTo_ok, encodesTo_error]
    all_goals rename_i f; obtain rfl := eq_ofNat_of_toNat_eq f; rfl
  case h_12 e =>
    obtain ⟨i, d, rfl⟩ := exists_encAddpc h (eq_ofNat_of_toNat_eq e)
    simp only [encAddpc_fields]
    exact encodesTo_ok.mpr rfl
  case h_13 e | h_14 e =>
    obtain ⟨disp, g, rfl⟩ := exists_encB h (eq_ofNat_of_toNat_eq e)
    simp only [encB_fields]
    exact encodesTo_ok.mpr rfl
  case h_15 e =>
    obtain ⟨imm, a, d, g, rfl⟩ := exists_encI h (eq_ofNat_of_toNat_eq e)
    simp only [encI_fields, encodesTo_zeroed, decide_eq_true_eq]
    rintro rfl
    rfl
  case h_17 e => exact encodesTo_decodeField h (eq_ofNat_of_toNat_eq e)
  case h_18 e => exact encodesTo_decodeFloat h (eq_ofNat_of_toNat_eq e)
  case h_19 e => exact encodesTo_decodeConvert h (eq_ofNat_of_toNat_eq e)
  case h_20 e | h_21 e =>
    obtain ⟨fn, b, a, d, g, rfl⟩ := exists_encR h (eq_ofNat_of_toNat_eq e)
    simp only [encR_fields]
    exact encodesTo_ok.mpr rfl
  case h_22 e =>
    obtain ⟨ft, b, a, cc, pd, g, rfl⟩ := exists_encC h (eq_ofNat_of_toNat_eq e)
    obtain ⟨t, rfl⟩ := exists_floatTy ft
    simp only [encC_fields, encodesTo_coded, encodesTo_ok, fcondOf_eq_some, BitVec.toNat_inj, floatTyOf_code]
    rintro c rfl
    rfl
  case h_23 e => exact encodesTo_decodeStateReg h (eq_ofNat_of_toNat_eq e)
  case h_24 e => exact encodesTo_decodeMem_load h (eq_ofNat_of_toNat_eq e)
  case h_25 e => exact encodesTo_decodeMem_store h (eq_ofNat_of_toNat_eq e)
  case h_26 e => exact encodesTo_decodeMem_pair h (eq_ofNat_of_toNat_eq e)
  case h_27 e => exact encodesTo_decodeIndexed h (eq_ofNat_of_toNat_eq e)
  case h_28 e => exact encodesTo_decodeMemory h (eq_ofNat_of_toNat_eq e)
  case h_29 e => exact encodesTo_decodeAtomic_amo h (eq_ofNat_of_toNat_eq e)
  case h_30 e => exact encodesTo_decodeAtomic_red h (eq_ofNat_of_toNat_eq e)
  case h_31 e => exact encodesTo_decodeTask h (eq_ofNat_of_toNat_eq e)
  case h_32 e => exact encodesTo_decodeScriv h (eq_ofNat_of_toNat_eq e)
  case h_33 e => exact encodesTo_decodeLoomD h (eq_ofNat_of_toNat_eq e)
  case h_34 e => exact encodesTo_decodeLoomC h (eq_ofNat_of_toNat_eq e)
  case h_35 e | h_36 e | h_37 e | h_38 e | h_39 e =>
    exact encodesTo_decodeTile3 h (eq_ofNat_of_toNat_eq e)
  case h_40 e => exact encodesTo_decodeTileU h (eq_ofNat_of_toNat_eq e)
  case h_41 e => exact encodesTo_decodeTileG h (eq_ofNat_of_toNat_eq e)
  case h_42 e => exact encodesTo_decodeTileX h (eq_ofNat_of_toNat_eq e)
  case h_43 e =>
    rw [encodesTo_ite]
    refine ⟨fun _ => encodesTo_error, fun hz => ?_⟩
    obtain ⟨f, c, r, g, rfl⟩ := exists_encSH h (eq_ofNat_of_toNat_eq e) (not_not.mp hz)
    simp only [encSH_fields]
    exact encodesTo_ok.mpr rfl
  case h_44 e => exact encodesTo_decodeSys h (eq_ofNat_of_toNat_eq e)
  case h_45 e => exact absurd (eq_ofNat_of_toNat_eq e) hm
  case h_46 => exact encodesTo_error

end

theorem encodesTo_decode16 {w : BitVec 16} (h : w.getLsbD 0 = false) : EncodesTo (.h w) (decode16 w) := by
  obtain ⟨n, d, a, op, rfl⟩ := exists_encC16 h
  simp only [decode16, encC16_fields, encC16_disp]
  split
  case h_12 e =>
    obtain rfl := eq_ofNat_of_toNat_eq e
    rw [encodesTo_ok, encC16_eq]
    rfl
  case h_15 e =>
    obtain rfl := eq_ofNat_of_toNat_eq e
    rw [encodesTo_zeroed, decide_eq_true_eq]
    intro hz
    obtain ⟨rfl, rfl⟩ := eq_zero_of_append_eq_zero hz
    rfl
  all_goals simp only [encodesTo_ok, encodesTo_zeroed, encodesTo_error, decide_eq_true_eq]
  all_goals rename_i e; obtain rfl := eq_ofNat_of_toNat_eq e
  all_goals intros; subst_vars; rfl

/-! ### Decoding inverts encoding (R56) -/

/-- Every word of the encoding of `i` decodes to what the static limits leave of `i`. -/
def Decodes (i : Instr) : Prop := ∀ e, encode i = some e → decodeEncoded e = checked (.ok i)

theorem decodes_of_word {i : Instr} {w : BitVec 32} (he : encode i = some (.w w)) (hd : decodeFields w = .ok i) :
    Decodes i := by
  intro e h
  obtain rfl := Option.some.inj (he.symm.trans h)
  exact congrArg checked hd

section
variable {w : BitVec 32}

theorem decodeFields_eq_decodeInt (hm : fld w 1 6 = 1) : decodeFields w = decodeInt w := by
  simp only [decodeFields, hm]
  rfl

theorem decodeFields_eq_decodeShift (hm : fld w 1 6 = 6) : decodeFields w = decodeShift w := by
  simp only [decodeFields, hm]
  rfl

theorem decodeFields_eq_decodePred (hm : fld w 1 6 = 9) : decodeFields w = decodePred w := by
  simp only [decodeFields, hm]
  rfl

theorem decodeFields_eq_decodeField (hm : fld w 1 6 = 17) : decodeFields w = decodeField w := by
  simp only [decodeFields, hm]
  rfl

theorem decodeFields_eq_decodeFloat (hm : fld w 1 6 = 18) : decodeFields w = decodeFloat w := by
  simp only [decodeFields, hm]
  rfl

theorem decodeFields_eq_decodeConvert (hm : fld w 1 6 = 19) : decodeFields w = decodeConvert w := by
  simp only [decodeFields, hm]
  rfl

theorem decodeFields_eq_decodeStateReg (hm : fld w 1 6 = 23) : decodeFields w = decodeStateReg w := by
  simp only [decodeFields, hm]
  rfl

theorem decodeFields_eq_decodeIndexed (hm : fld w 1 6 = 27) : decodeFields w = decodeIndexed w := by
  simp only [decodeFields, hm]
  rfl

theorem decodeFields_eq_decodeMemory (hm : fld w 1 6 = 28) : decodeFields w = decodeMemory w := by
  simp only [decodeFields, hm]
  rfl

theorem decodeFields_eq_decodeTask (hm : fld w 1 6 = 31) : decodeFields w = decodeTask w := by
  simp only [decodeFields, hm]
  rfl

theorem decodeFields_eq_decodeScriv (hm : fld w 1 6 = 32) : decodeFields w = decodeScriv w := by
  simp only [decodeFields, hm]
  rfl

theorem decodeFields_eq_decodeLoomD (hm : fld w 1 6 = 33) : decodeFields w = decodeLoomD w := by
  simp only [decodeFields, hm]
  rfl

theorem decodeFields_eq_decodeLoomC (hm : fld w 1 6 = 34) : decodeFields w = decodeLoomC w := by
  simp only [decodeFields, hm]
  rfl

theorem decodeFields_eq_decodeTileU (hm : fld w 1 6 = 40) : decodeFields w = decodeTileU w := by
  simp only [decodeFields, hm]
  rfl

theorem decodeFields_eq_decodeTileG (hm : fld w 1 6 = 41) : decodeFields w = decodeTileG w := by
  simp only [decodeFields, hm]
  rfl

theorem decodeFields_eq_decodeTileX (hm : fld w 1 6 = 42) : decodeFields w = decodeTileX w := by
  simp only [decodeFields, hm]
  rfl

theorem decodeFields_eq_decodeSys (hm : fld w 1 6 = 44) : decodeFields w = decodeSys w := by
  simp only [decodeFields, hm]
  rfl

end

theorem decodes_of_half {i : Instr} {w : BitVec 16} (he : encode i = some (.h w)) (hd : decode16 w = .ok i)
    (hw : i.wf = true) : Decodes i := by
  intro e h
  obtain rfl := Option.some.inj (he.symm.trans h)
  exact hd.trans (if_pos hw).symm

theorem decodes_of_none {i : Instr} (he : encode i = none) : Decodes i := by
  intro e h
  cases he.symm.trans h

@[simp] theorem zeroed_true (i : Instr) : zeroed true i = .ok i := rfl

@[simp] theorem coded_some {α : Type} (x : α) (k : α → Decoded) : coded (some x) k = k x := rfl

theorem decodes_of_wf {i : Instr} (hw : i.wf = true) : Decodes i := by
  cases i with
  | add | sub | mul | mulhi | mulhn | div | divn | rem | remn | min | max | minn | maxn | and | or | xor
  | andn | shlRegister | shrRegister | shaRegister | rotRegister | mov | clz | ctz | popc | brev | bswap
  | mix64 =>
    refine decodes_of_word rfl ?_
    rw [decodeFields_eq_decodeInt (by simp only [encR_fields])]
    simp [decodeInt, encR_fields]
  | addi | andi | ori | xori | jmp | jmpl =>
    refine decodes_of_word rfl ?_
    simp [decodeFields, encI_fields]
  | shlImmediate | shrImmediate | shaImmediate | rotImmediate =>
    refine decodes_of_word rfl ?_
    rw [decodeFields_eq_decodeShift (by simp only [encK_fields])]
    simp [decodeShift, encK_fields]
  | cmp | fcmp =>
    refine decodes_of_word rfl ?_
    simp [decodeFields, encC_fields]
  | cmpi =>
    refine decodes_of_word rfl ?_
    simp [decodeFields, encCI_fields]
  | pand | por | pxor | pnot | pmov | pset =>
    refine decodes_of_word rfl ?_
    rw [decodeFields_eq_decodePred (by simp only [encP_fields])]
    simp [decodePred, encP_fields, zero3_append_le, -BitVec.getLsbD_eq_getElem]
  | sel | lea =>
    refine decodes_of_word rfl ?_
    simp [decodeFields, encS_fields, -BitVec.getLsbD_eq_getElem]
  | movwZ | movwK | movwS =>
    refine decodes_of_word rfl ?_
    simp [decodeFields, encW_fields]
  | addpc =>
    refine decodes_of_word rfl ?_
    change decodeFields (encAddpc _ _) = _
    simp [decodeFields, encAddpc_fields]
  | br | brl =>
    refine decodes_of_word rfl ?_
    simp [decodeFields, encB_fields]
  | fext | fins | fpack | funpack | layout =>
    refine decodes_of_word rfl ?_
    rw [decodeFields_eq_decodeField (by simp only [encF_fields])]
    simp [decodeField, encF_fields]
  | fadd | fsub | fmul | fdiv | fmin | fmax | fsqrt =>
    refine decodes_of_word rfl ?_
    rw [decodeFields_eq_decodeFloat (by simp only [encFR_fields])]
    simp [decodeFloat, encFR_fields]
  | fcvt | frnd | fclass =>
    refine decodes_of_word rfl ?_
    rw [decodeFields_eq_decodeConvert (by simp only [encX_fields])]
    simp [decodeConvert, encX_fields]
  | fmaF64 | fmaF32 =>
    refine decodes_of_word rfl ?_
    simp [decodeFields, encR_fields]
  | srd | swr | srdp | swrp =>
    refine decodes_of_word rfl ?_
    rw [decodeFields_eq_decodeStateReg (by simp only [encSR_fields])]
    simp [decodeStateReg, encSR_fields]
  | ld | st | ldp | stp =>
    refine decodes_of_word rfl ?_
    simp [decodeFields, encM_fields, decodeMem]
  | ldIndexed g t | stIndexed g t =>
    refine decodes_of_word rfl ?_
    rw [decodeFields_eq_decodeIndexed (by simp only [encR_fields])]
    simp [decodeIndexed, encR_fields]
    cases t <;> rfl
  | ldaN32 | ldaN64 | strN32 | strN64 | casN32 | casN64 | xclr | xrdF32 | xrdF64 | lrw | sch | lookup
  | tagset | tagclr | pref | snap | snapx | txb | txc | txa | txs | alw =>
    refine decodes_of_word rfl ?_
    rw [decodeFields_eq_decodeMemory (by simp only [encR_fields])]
    simp [decodeMemory, encR_fields, -BitVec.getLsbD_eq_getElem]
  | fence g k s =>
    have hs : s.toNat ≤ 5 := of_decide_eq_true hw
    refine decodes_of_word rfl ?_
    rw [decodeFields_eq_decodeMemory (by simp only [encR_fields])]
    simp [decodeMemory, encR_fields, toNat_zero2_append3, Nat.lt_succ_of_le hs]
  | amo | red =>
    refine decodes_of_word rfl ?_
    simp [decodeFields, encAM_fields, decodeAtomic, -BitVec.getLsbD_eq_getElem]
  | spawn | spawnq | touch | touchq | resolve | poison | cancel | fstat | fhold | fdrop | go | yield | exit
  | self | pmode | pbind | pstat | ldw | stw | bjoin | barv | bwait | bleave | bexpect | fpop | fpopq =>
    refine decodes_of_word rfl ?_
    rw [decodeFields_eq_decodeTask (by simp only [encR_fields])]
    simp [decodeTask, encR_fields, bit5_le, -BitVec.getLsbD_eq_getElem]
  | cpy | cpy2 | cpyg | tdset | cqstat =>
    refine decodes_of_word rfl ?_
    rw [decodeFields_eq_decodeScriv (by simp only [encR_fields])]
    simp [decodeScriv, encR_fields]
  | wld | weft | vrd | lgrp =>
    refine decodes_of_word rfl ?_
    rw [decodeFields_eq_decodeLoomD (by simp only [encL_fields])]
    simp [decodeLoomD, encL_fields, -BitVec.getLsbD_eq_getElem]
  | wswap | vclr | vadd | lfut | lres | lstat =>
    refine decodes_of_word rfl ?_
    rw [decodeFields_eq_decodeLoomC (by simp only [encR_fields])]
    simp [decodeLoomC, encR_fields, bit5_le, -BitVec.getLsbD_eq_getElem]
  | lloop g k =>
    refine decodes_of_word rfl ?_
    rw [decodeFields_eq_decodeLoomC (by simp only [encR_fields])]
    simp [decodeLoomC, encR_fields, toNat_zero2_append3, k.isLt]
  | tadd | tsub | tmul | tfma | tdiv | tmin | tmax | tsel | tand | tor | txor | tshl | tshr | tcvt | ttopk
  | tcmpEq | tcmpNe | tcmpLt | tcmpLe =>
    refine decodes_of_word rfl ?_
    simp [decodeFields, encT3_fields, decodeTile3, toNat_zero2_append4]
  | tmov | txpose | texp2 | tlog2 | trcp | trsq | tsqrt | ttanh | tredAdd | tredMin | tredMax | tscanAdd
  | tiota | trand =>
    refine decodes_of_word rfl ?_
    rw [decodeFields_eq_decodeTileU (by simp only [encT3_fields])]
    simp [decodeTileU, encT3_fields]
  | tld | tst | tsplat | tmovgRead | tmovgWrite =>
    refine decodes_of_word rfl ?_
    rw [decodeFields_eq_decodeTileG (by simp only [encTG_fields])]
    simp [decodeTileG, encTG_fields]
  | tldi | tsti =>
    refine decodes_of_word rfl ?_
    rw [decodeFields_eq_decodeTileX (by simp only [encTX_fields])]
    simp [decodeTileX, encTX_fields]
  | shape =>
    refine decodes_of_word rfl ?_
    simp [decodeFields, encSH_fields]
  | nop | trap | eret | wfi | tlbi | ctxsv | ctxld | dbgb =>
    refine decodes_of_word rfl ?_
    rw [decodeFields_eq_decodeSys (by simp only [encR_fields])]
    simp [decodeSys, encR_fields]
  | modifierWord =>
    refine decodes_of_word rfl ?_
    simp [decodeFields, encMW_fields, decodeModifier, -BitVec.getLsbD_eq_getElem]
  | movC16 | addC16 | subC16 | andC16 | orC16 | xorC16 | shlC16 | shrC16 | addiC16 | ldN64C16 |
  stN64C16 | touchC16 | jmpC16 | nopC16 =>
    refine decodes_of_half rfl ?_ hw
    simp only [decode16, encC16_fields, encC16_disp]
    rfl
  | brC16 n x =>
    obtain ⟨d, a, rfl⟩ := exists_append (m := 4) (n := 4) x
    refine decodes_of_half (w := encC16 n d a 12) (by rw [encC16_eq]; rfl) ?_ hw
    simp only [decode16, encC16_fields, encC16_disp]
    rfl
  | _ => exact decodes_of_none rfl

/-! ### Both directions -/

theorem checked_eq_ok {x : Decoded} {i : Instr} : checked x = .ok i ↔ x = .ok i ∧ i.wf = true := by
  cases x with
  | error => simp [checked]
  | ok j =>
    simp only [checked, Except.ok.injEq]
    split
    · next h => exact ⟨fun e => ⟨Except.ok.inj e, Except.ok.inj e ▸ h⟩, fun e => congrArg _ e.1⟩
    · next h => exact ⟨nofun, fun e => absurd (e.1 ▸ e.2) h⟩

theorem wf_of_decode16 {w : BitVec 16} {i : Instr} (h : decode16 w = .ok i) : i.wf = true := by
  unfold decode16 at h
  dsimp only at h
  split at h
  case h_14 | h_15 =>
    unfold zeroed at h
    split at h <;> cases h
    rfl
  all_goals cases h
  all_goals rfl

end Sys2Proof

namespace Sys2Proof.Proofs

/-- Settles O50: each instruction by the fields of the row that encodes it. -/
theorem decodingInvertsEncoding : Obligations.DecodingInvertsEncoding := by
  unfold Obligations.DecodingInvertsEncoding
  intro i e hw he
  exact (decodes_of_wf hw e he).trans (if_pos hw)

/-- Settles O51: a word is the row of its own fields, and each decoder names the row that it reads. -/
theorem decodedWordsAreEncodings : Obligations.DecodedWordsAreEncodings := by
  unfold Obligations.DecodedWordsAreEncodings
  refine ⟨fun w i hm hd h => ?_, fun w i hd h => ⟨encodesTo_decode16 h i hd, wf_of_decode16 hd⟩⟩
  obtain ⟨hf, hw⟩ := checked_eq_ok.mp hd
  exact ⟨encodesTo_decodeFields h hm i hf, hw⟩

/-- Settles O49: each word is decoded. -/
theorem wordsDecode : Obligations.WordsDecode := by
  unfold Obligations.WordsDecode
  intro p
  refine ⟨?_, ?_, ?_, ?_, ?_, ?_, ?_, ?_, ?_, ?_, ?_, ?_, ?_, ?_⟩ <;> decide

end Sys2Proof.Proofs
end

section
/-! ## Logic, shifts and counts (O2) -/

namespace Sys2Proof.Machine

/-! ### Forms of one shape -/

theorem computes3_of_run {mk : Guard → Reg → Reg → Reg → Instr} {f : MW → Word → Word → Word}
    (he : ∀ s g d a b, exec (mk g d a b) s = run (mk g d a b) g s fun s => binary s d a b (f s.mw)) :
    Computes3 mk f := fun s g d a b h => exec_done (he s g d a b) h rfl

theorem computes2_of_run {mk : Guard → Reg → Reg → Instr} {f : MW → Word → Word}
    (he : ∀ s g d a, exec (mk g d a) s = run (mk g d a) g s fun s => unary s d a (f s.mw)) :
    Computes2 mk f := fun s g d a h => exec_done (he s g d a) h rfl

theorem finds2_of_run {mk : Guard → Reg → Reg → Instr} {f : Word → Word → Prop} (v : Word → Word)
    (he : ∀ s g d a, exec (mk g d a) s = run (mk g d a) g s fun s => unary s d a v) (hf : ∀ x, f x (v x)) :
    Finds2 mk f := fun s g d a h => ⟨v (s.gv a), exec_done (he s g d a) h rfl, hf _⟩

/-- A compact form is carried out as its 32-bit form (R47). -/
theorem short3_of_computes3 {mk : BitVec 3 → BitVec 4 → BitVec 4 → Instr}
    {full : Guard → Reg → Reg → Reg → Instr} {f : MW → Word → Word → Word} (h : Computes3 full f) (he : ∀ s n d a, exec (mk n d a) s =
      exec (full (compactGuard n) (compactReg d) (compactReg d) (compactReg a)) s) : Short3 mk full f :=
  fun s n d a hi => (he s n d a).trans (h s _ _ _ _ hi)

/-! ### Shifts -/

theorem ofNat_two_pow (n : Nat) : BitVec.ofNat 64 (2 ^ n) = BitVec.twoPow 64 n :=
  BitVec.eq_of_toNat_eq (by simp)

theorem ofInt_two_pow (n : Nat) : BitVec.ofInt 64 (2 ^ n) = BitVec.twoPow 64 n := by
  rw [show (2 : Int) ^ n = ((2 ^ n : Nat) : Int) by norm_cast, BitVec.ofInt_natCast, ofNat_two_pow]

theorem shiftLeft_zero (x : Word) (n : Nat) : shiftLeft 0 x n = x <<< n := by
  change BitVec.ofInt 64 (x.toInt * 2 ^ n) = x <<< n
  rw [BitVec.ofInt_mul, BitVec.ofInt_toInt, ofInt_two_pow, BitVec.shiftLeft_eq_mul_twoPow]

theorem shiftLeft_eq (m : MW) (x : Word) (n : Nat) : shiftLeft m.sat.toNat x n =
    if m.sat = 0 then x <<< n else limited m (operandInt m x * 2 ^ n) := by
  by_cases h : m.sat = 0
  · rw [if_pos h, h]
    exact shiftLeft_zero x n
  · have h' : m.sat.toNat ≠ 0 := fun e => h (BitVec.eq_of_toNat_eq e)
    unfold shiftLeft saturate limited operandInt asInt satSigned
    simp only [if_neg h, if_neg h', decide_eq_true_eq]

theorem sshiftRight_eq_ofInt_div (x : Word) (n : Nat) : x.sshiftRight n = BitVec.ofInt 64 (x.toInt / 2 ^ n) := by
  rw [BitVec.sshiftRight, Int.shiftRight_eq_div_pow]
  rfl

/-! ### Counts (R92) -/

theorem clzFrom_le (x : Word) (n : Nat) : clzFrom x n ≤ n := by
  induction n with
  | zero => exact Nat.le_refl 0
  | succ n ih =>
    unfold clzFrom
    split <;> omega

theorem getLsbD_of_lt_clzFrom (x : Word) (n j : Nat) (h : j < clzFrom x n) : x.getLsbD (n - 1 - j) = false := by
  induction n generalizing j with
  | zero => exact absurd h (Nat.not_lt_zero j)
  | succ n ih =>
    unfold clzFrom at h
    split at h
    · exact absurd h (Nat.not_lt_zero j)
    · next hb =>
      cases j with
      | zero => simpa using hb
      | succ j => rw [← ih j (by omega)]; congr 1; omega

theorem getLsbD_clzFrom (x : Word) (n : Nat) (h : clzFrom x n < n) : x.getLsbD (n - 1 - clzFrom x n) = true := by
  induction n with
  | zero => exact absurd h (Nat.not_lt_zero _)
  | succ n ih =>
    unfold clzFrom at h ⊢
    split at h
    · next hb => simp [hb]
    · next hb =>
      rw [if_neg hb, ← ih (by omega)]; congr 1; omega

theorem getLsbD_reverse_word (x : Word) {j : Nat} (h : j < 64) : x.reverse.getLsbD j = x.getLsbD (63 - j) := by
  rw [BitVec.getLsbD_reverse, BitVec.getMsbD_eq_getLsbD, decide_eq_true h, Bool.true_and]

/-- The trailing zeros of a word are the leading ones of its reversal, counted from the other end. -/
theorem ctzFrom_eq_clzFrom (x : Word) (n : Nat) (h : n ≤ 64) : ctzFrom x n = clzFrom x.reverse n := by
  induction n with
  | zero => rfl
  | succ n ih =>
    rw [ctzFrom, clzFrom, ih (by omega), getLsbD_reverse_word x (by omega)]

theorem popFrom_eq_countP (x : Word) (n : Nat) : popFrom x n = (List.range n).countP x.getLsbD := by
  induction n with
  | zero => rfl
  | succ n ih => rw [popFrom, ih, List.range_succ, List.countP_append, List.countP_singleton]

/-! ### Reversals (R92) -/

theorem testBit_foldl_bits (x : Word) (n j : Nat) :
    ((List.range n).foldl (fun v i => 2 * v + (if x.getLsbD i then 1 else 0)) 0).testBit j =
      (decide (j < n) && x.getLsbD (n - 1 - j)) := by
  induction n generalizing j with
  | zero => simp
  | succ n ih =>
    rw [List.range_succ, List.foldl_append]
    generalize List.foldl _ _ _ = v at ih ⊢
    have hv : (2 * v + if x.getLsbD n then 1 else 0) = Nat.bit (x.getLsbD n) v := by
      cases x.getLsbD n <;> rfl
    simp only [List.foldl_cons, List.foldl_nil, hv]
    cases j with
    | zero => simp
    | succ j =>
      rw [Nat.testBit_bit_succ, ih]
      congr 1
      · simp
      · congr 1; omega

theorem brev64_getLsbD (x : Word) {j : Nat} (h : j < 64) : (brev64 x).getLsbD j = x.getLsbD (63 - j) := by
  rw [brev64, BitVec.getLsbD_ofNat, testBit_foldl_bits]
  simp [h]

theorem getElem_leBytes (n v j : Nat) (h : j < (leBytes n v).length) :
    (leBytes n v)[j] = BitVec.ofNat 8 (v / 256 ^ j) := by
  induction n generalizing v j with
  | zero => simp [leBytes] at h
  | succ n ih =>
    cases j with
    | zero => simp [leBytes]
    | succ j => simp [leBytes, ih, Nat.div_div_eq_div_mul, Nat.pow_succ']

theorem extractLsb'_eq_leBytes (x : Word) {j : Nat} (h : j < 8) :
    x.extractLsb' (8 * j) 8 = (leBytes 8 x.toNat)[j]'(by simpa using h) := by
  refine BitVec.eq_of_toNat_eq ?_
  rw [getElem_leBytes, BitVec.extractLsb'_toNat, BitVec.toNat_ofNat, Nat.shiftRight_eq_div_pow, Nat.pow_mul]

/-- The bytes of a number of `n` bytes cut to as many. -/
theorem leBytes_leWord {bs : List Byte} (h : bs.length = 8) : leBytes 8 (leWord bs).toNat = bs := by
  rw [leWord, BitVec.toNat_ofNat, leBytes_mod 8, ← h, leBytes_leNat]

theorem bswap_extractLsb' (x : Word) {j : Nat} (h : j < 8) :
    (leWord (leBytes 8 x.toNat).reverse).extractLsb' (8 * j) 8 = x.extractLsb' (8 * (7 - j)) 8 := by
  rw [extractLsb'_eq_leBytes _ h, extractLsb'_eq_leBytes x (by omega)]
  simp only [leBytes_leWord (bs := (leBytes 8 x.toNat).reverse) (by simp), List.getElem_reverse, length_leBytes]

end Sys2Proof.Machine

namespace Sys2Proof.Proofs

open Sys2Proof.Machine

/-- Settles O2: each form is a result of one or two sources; the shifts to the left with their saturation. -/
theorem logicShiftsAndCountsComplete : Obligations.LogicShiftsAndCountsComplete := by
  unfold Obligations.LogicShiftsAndCountsComplete
  have hand : Computes3 .and fun _ x y => x &&& y := computes3_of_run fun _ _ _ _ _ => rfl
  have hor : Computes3 .or fun _ x y => x ||| y := computes3_of_run fun _ _ _ _ _ => rfl
  have hxor : Computes3 .xor fun _ x y => x ^^^ y := computes3_of_run fun _ _ _ _ _ => rfl
  have hshl : Computes3 .shlRegister fun m x y => if m.sat = 0 then x <<< (y.toNat % 64)
      else limited m (operandInt m x * 2 ^ (y.toNat % 64)) :=
    computes3_of_run fun _ _ _ _ _ => by simp only [← shiftLeft_eq]; rfl
  have hshr : Computes3 .shrRegister fun _ x y => x >>> (y.toNat % 64) := computes3_of_run fun _ _ _ _ _ => rfl
  refine ⟨⟨hand, hor, hxor, computes3_of_run fun _ _ _ _ _ => rfl, hshl, hshr,
    computes3_of_run fun _ _ _ _ _ => by simp only [← sshiftRight_eq_ofInt_div]; rfl,
    computes3_of_run fun _ _ _ _ _ => rfl, fun imm => ⟨computes2_of_run fun _ _ _ _ => rfl,
      computes2_of_run fun _ _ _ _ => rfl, computes2_of_run fun _ _ _ _ => rfl⟩,
    fun sh => ⟨computes2_of_run fun _ _ _ _ => by simp only [← shiftLeft_eq]; rfl,
      computes2_of_run fun _ _ _ _ => rfl,
      computes2_of_run fun _ _ _ _ => by simp only [← sshiftRight_eq_ofInt_div]; rfl,
      computes2_of_run fun _ _ _ _ => rfl⟩,
    short3_of_computes3 hand fun _ _ _ _ => rfl, short3_of_computes3 hor fun _ _ _ _ => rfl,
    short3_of_computes3 hxor fun _ _ _ _ => rfl, short3_of_computes3 hshl fun _ _ _ _ => rfl,
    short3_of_computes3 hshr fun _ _ _ _ => rfl⟩, ?_, ?_, ?_, ?_, ?_, ?_⟩
  · refine finds2_of_run (fun x => BitVec.ofNat 64 (clzFrom x 64)) (fun _ _ _ _ => rfl) fun x => ?_
    rw [BitVec.toNat_ofNat, Nat.mod_eq_of_lt (Nat.lt_of_le_of_lt (clzFrom_le x 64) (by decide))]
    exact ⟨clzFrom_le x 64, getLsbD_of_lt_clzFrom x 64, getLsbD_clzFrom x 64⟩
  · refine finds2_of_run (fun x => BitVec.ofNat 64 (ctzFrom x 64)) (fun _ _ _ _ => rfl) fun x => ?_
    have hr (j : Nat) (hj : j < 64) : x.reverse.getLsbD (63 - j) = x.getLsbD j := by
      rw [getLsbD_reverse_word x (by omega), show 63 - (63 - j) = j by omega]
    rw [ctzFrom_eq_clzFrom x 64 (by decide), BitVec.toNat_ofNat,
      Nat.mod_eq_of_lt (Nat.lt_of_le_of_lt (clzFrom_le _ 64) (by decide))]
    refine ⟨clzFrom_le _ 64, fun j hj => ?_, fun hv => ?_⟩
    · rw [← hr j (by have := clzFrom_le x.reverse 64; omega)]
      exact getLsbD_of_lt_clzFrom _ 64 j hj
    · rw [← hr _ hv]
      exact getLsbD_clzFrom _ 64 hv
  · exact computes2_of_run fun _ _ _ _ => by simp only [← popFrom_eq_countP]; rfl
  · exact finds2_of_run brev64 (fun _ _ _ _ => rfl) fun x j h => brev64_getLsbD x h
  · exact finds2_of_run _ (fun _ _ _ _ => rfl) fun x j h => bswap_extractLsb' x h
  · exact computes2_of_run fun _ _ _ _ => rfl

end Sys2Proof.Proofs
end

section
/-! ## Compares, predicates and moves (O3) -/

namespace Sys2Proof.Machine

/-- What a compare condition says of its operands (R94). -/
def condMeans (x y : Word) : Cond → Prop
  | .eq => x = y
  | .ne => x ≠ y
  | .lt => x.toInt < y.toInt
  | .ge => y.toInt ≤ x.toInt
  | .le => x.toInt ≤ y.toInt
  | .gt => y.toInt < x.toInt
  | .ltn => x.toNat < y.toNat
  | .gen => y.toNat ≤ x.toNat
  | .len => x.toNat ≤ y.toNat
  | .gtn => y.toNat < x.toNat
  | .tst => x &&& y ≠ 0
  | .tsz => x &&& y = 0

theorem condHolds_iff (cc : Cond) (x y : Word) : condHolds cc x y = true ↔ condMeans x y cc := by
  cases cc <;> simp [condHolds, condMeans, BitVec.slt, BitVec.ult]

theorem testInto_clean {s : State} {rs : List Reg} (h : s.clean rs) (pd : Pred) (b : Bool) :
    testInto s pd rs b = .done (s.setP pd b) := by
  unfold testInto
  rw [clean_find h]

theorem setWidth_shiftLeft (imm : BitVec 16) (n : Nat) :
    (imm.setWidth 64 <<< n : Word) = BitVec.ofNat 64 (imm.toNat * 2 ^ n) := by
  refine BitVec.eq_of_toNat_eq ?_
  rw [BitVec.toNat_shiftLeft, Nat.shiftLeft_eq, BitVec.toNat_setWidth, BitVec.toNat_ofNat,
    Nat.mod_eq_of_lt (by omega : imm.toNat < 2 ^ 64)]

theorem signExtend_shiftLeft (imm : BitVec 16) (n : Nat) :
    (imm.signExtend 64 <<< n : Word) = BitVec.ofInt 64 (imm.toInt * 2 ^ n) := by
  rw [BitVec.ofInt_mul, BitVec.shiftLeft_eq_mul_twoPow, ofInt_two_pow]
  rfl

theorem ffff_getLsbD (i : Nat) : (0xFFFF : Word).getLsbD i = decide (i < 16) := by
  rw [show (0xFFFF : Word) = (BitVec.allOnes 16).setWidth 64 by decide, BitVec.getLsbD_setWidth,
    BitVec.getLsbD_allOnes, Bool.and_eq_right_iff_imp]
  exact fun h => decide_eq_true (by have := of_decide_eq_true h; omega)

/-- A halfword replaced: each halfword reads the new one or as before (R52). -/
theorem extractLsb'_replaced (x : Word) (imm : BitVec 16) {h j : Nat} (hh : h < 4) (hj : j < 4) :
    ((x &&& ~~~((0xFFFF : Word) <<< (16 * h))) ||| (imm.setWidth 64 <<< (16 * h))).extractLsb' (16 * j) 16 =
      if j = h then imm else x.extractLsb' (16 * j) 16 := by
  refine BitVec.eq_of_getLsbD_eq fun i hi => ?_
  simp only [BitVec.getLsbD_extractLsb', BitVec.getLsbD_or, BitVec.getLsbD_and, BitVec.getLsbD_not,
    BitVec.getLsbD_shiftLeft, BitVec.getLsbD_setWidth, ffff_getLsbD]
  have hlt : 16 * j + i < 64 := by omega
  split
  · next e =>
    subst e
    simp [hi, hlt]
    omega
  · next e =>
    rw [BitVec.getLsbD_extractLsb']
    rcases Nat.lt_or_gt_of_ne e with e | e
    · have : 16 * j + i < 16 * h := by omega
      simp [hi, hlt, this]
    · have : ¬ 16 * j + i < 16 * h := by omega
      have : ¬ 16 * j + i - 16 * h < 16 := by omega
      simp [*, imm.getLsbD_of_ge (16 * j + i - 16 * h) (by omega)]

end Sys2Proof.Machine

namespace Sys2Proof.Proofs

open Sys2Proof.Machine

/-- Settles O3: a compare by what its condition means, the others by what they write. -/
theorem comparesPredicatesAndMovesComplete : Obligations.ComparesPredicatesAndMovesComplete := by
  unfold Obligations.ComparesPredicatesAndMovesComplete
  refine ⟨⟨fun s g cc pd a b h hc => ?_, fun s g cc pd a imm h hc => ?_, fun s g pd pa pb k => ?_⟩,
    computes2_of_run fun _ _ _ _ => rfl, fun s n d a h => exec_done (i := .mov ..) rfl h rfl, fun sh => ?_,
    fun s g d pn a b h => ?_, fun s d hw imm h => ?_, fun s d hw imm h => ?_, fun s d hw imm h => ?_,
    fun s d imm h => exec_done rfl h rfl⟩
  · refine ⟨_, exec_done rfl h (testInto_clean (clean_opened hc) ..), ?_⟩
    rw [condHolds_iff]
    cases cc <;> exact Iff.rfl
  · have hi : imm.toInt = (imm.signExtend 64 : Word).toInt := (BitVec.toInt_signExtend_of_le (by decide)).symm
    refine ⟨_, exec_done rfl h (testInto_clean (clean_opened hc) ..), ?_⟩
    rw [condHolds_iff, hi]
    cases cc <;> exact Iff.rfl
  · exact ⟨fun h => exec_done rfl h rfl, fun h => exec_done rfl h rfl, fun h => exec_done rfl h rfl,
      fun h => exec_done rfl h rfl, fun h => exec_done rfl h rfl, fun h => exec_done rfl h rfl⟩
  · refine computes3_of_run fun _ _ _ _ _ => ?_
    simp only [ofNat_two_pow, ← BitVec.shiftLeft_eq_mul_twoPow]
    rfl
  · refine exec_done rfl h ?_
    rw [State.p_opened]
    cases s.p pn <;> rfl
  · rw [← setWidth_shiftLeft]
    exact exec_done rfl h rfl
  · rw [← signExtend_shiftLeft]
    exact exec_done rfl h rfl
  · exact ⟨_, exec_done rfl h rfl, fun j hj => extractLsb'_replaced _ imm hw.isLt hj⟩

end Sys2Proof.Proofs
end

section
/-! ## Control transfers (O4) -/

namespace Sys2Proof.Machine

theorem jumpTo_poisoned {s : State} {a : Reg} (h : s.gp a = true) (imm : BitVec 10) (k : Word → Res) :
    jumpTo s a imm k = .trap s 4 0x2105 (a.setWidth 64) := if_pos h

theorem jumpTo_odd {s : State} {a : Reg} {imm : BitVec 10} (h : s.gp a = false)
    (ho : (s.gv a + imm.signExtend 64).getLsbD 0 = true) (k : Word → Res) :
    jumpTo s a imm k = .trap s 7 0x6108 (s.gv a + imm.signExtend 64) :=
  (if_neg (ne_true_of_eq_false h)).trans (if_pos ho)

theorem jumpTo_even {s : State} {a : Reg} {imm : BitVec 10} (h : s.gp a = false)
    (ho : (s.gv a + imm.signExtend 64).getLsbD 0 = false) (k : Word → Res) :
    jumpTo s a imm k = k (s.gv a + imm.signExtend 64) :=
  (if_neg (ne_true_of_eq_false h)).trans (if_neg (ne_true_of_eq_false ho))

/-- The first of two sources that is poisoned is the one a test consumes (R88). -/
theorem testInto_poisoned {s : State} {rs : List Reg} {r : Reg} (h : rs.find? (fun r => s.gp r) = some r)
    (pd : Pred) (b : Bool) : testInto s pd rs b = .trap s 4 0x2105 (r.setWidth 64) := by
  unfold testInto
  rw [h]
  rfl

end Sys2Proof.Machine

namespace Sys2Proof.Proofs

open Sys2Proof.Machine

/-- Settles O4: a transfer by the three ends of its target's checks, a compare by its first poisoned source. -/
theorem controlTransfersCompleteOrTrap : Obligations.ControlTransfersCompleteOrTrap := by
  unfold Obligations.ControlTransfersCompleteOrTrap
  have clean {s : State} {a : Reg} (h : s.clean [a]) : s.gp a = false := h a (List.mem_singleton_self a)
  refine ⟨⟨fun s g disp h => exec_jump rfl h rfl, fun s g disp h => exec_jump rfl h rfl,
    fun s g a imm h hc ho => exec_jump rfl h (jumpTo_even (s := s.opened _) (clean (clean_opened hc)) ho _),
    fun s g d a imm h hc ho => exec_jump rfl h (jumpTo_even (s := s.opened _) (clean (clean_opened hc)) ho _),
    fun s g h => exec_done rfl h rfl, fun s n disp h => ?_, fun s n a h hc ho => ?_,
    fun s n h => exec_done (i := .nop (compactGuard n)) rfl h rfl⟩,
    fun s g a imm h => ?_,
    fun s g d a imm h => ⟨fun hp => exec_trap rfl h (jumpTo_poisoned (s := s.opened _) hp imm _),
      fun hp ho => exec_trap rfl h (jumpTo_odd (s := s.opened _) hp ho _)⟩, fun s g cc pd a imm h hp => ?_,
    fun s g cc ft pd a b h => ⟨fun hp => ?_, fun hp hq => ?_⟩,
    fun s g cc pd a b h => ⟨fun hp => ?_, fun hp hq => ?_⟩⟩
  · have hd : (disp.signExtend 20).signExtend 64 = disp.signExtend 64 := BitVec.eq_of_toInt_eq (by
      simp only [BitVec.toInt_signExtend_of_le (by decide : 8 ≤ 64),
        BitVec.toInt_signExtend_of_le (by decide : 8 ≤ 20), BitVec.toInt_signExtend_of_le (by decide : 20 ≤ 64)])
    rw [← hd]
    exact exec_jump (i := .br ..) rfl h rfl
  · have ht : s.gv (compactReg a) = s.gv (compactReg a) + (0 : BitVec 10).signExtend 64 := by simp
    rw [ht] at ho ⊢
    exact exec_jump (i := .jmp ..) rfl h (jumpTo_even (s := s.opened _) (clean (clean_opened hc)) ho _)
  · split
    · next hp => exact exec_trap rfl h (jumpTo_poisoned (s := s.opened _) hp imm _)
    · next hp =>
      split
      · next ho => exact exec_trap rfl h (jumpTo_odd (s := s.opened _) (Bool.eq_false_iff.mpr hp) ho _)
      · next ho => exact exec_jump rfl h (jumpTo_even (s := s.opened _) (Bool.eq_false_iff.mpr hp)
          (Bool.eq_false_iff.mpr ho) _)
  · exact exec_trap rfl h (testInto_poisoned (s := s.opened _) (List.find?_cons_of_pos hp) ..)
  · exact exec_trap rfl h (testInto_poisoned (s := s.opened _) (List.find?_cons_of_pos hp) ..)
  · exact exec_trap rfl h (testInto_poisoned (s := s.opened _)
      ((List.find?_cons_of_neg (ne_true_of_eq_false hp)).trans (List.find?_cons_of_pos hq)) ..)
  · exact exec_trap rfl h (testInto_poisoned (s := s.opened _) (List.find?_cons_of_pos hp) ..)
  · exact exec_trap rfl h (testInto_poisoned (s := s.opened _)
      ((List.find?_cons_of_neg (ne_true_of_eq_false hp)).trans (List.find?_cons_of_pos hq)) ..)

end Sys2Proof.Proofs
end

section
/-! ## Field instructions (O5) -/

namespace Sys2Proof.Machine

/-! ### A field put into a word and taken out of it (R97) -/

theorem mask_getLsbD (w lo i : Nat) (h : lo + i < 64) :
    (BitVec.ofNat 64 ((2 ^ w - 1) * 2 ^ lo)).getLsbD (lo + i) = decide (i < w) := by
  rw [BitVec.getLsbD_ofNat, Nat.testBit_mul_two_pow, Nat.testBit_two_pow_sub_one, Nat.add_sub_cancel_left]
  simp [h]

theorem FieldSpec.put_getLsbD (e : FieldSpec) (x v : Word) {i : Nat} (hi : i < e.width)
    (hw : e.lo + e.width ≤ 64) : (e.put x v).getLsbD (e.lo + i) = v.getLsbD i := by
  have h : e.lo + i < 64 := by omega
  simp only [FieldSpec.put, BitVec.getLsbD_or, BitVec.getLsbD_and, BitVec.getLsbD_not, BitVec.getLsbD_shiftLeft,
    mask_getLsbD _ _ _ h]
  simp [h, hi]

/-- The bits of a field that has been put are the low bits of what was put there. -/
theorem FieldSpec.bits_put (e : FieldSpec) (x v : Word) (hw : e.lo + e.width ≤ 64) :
    (e.put x v).toNat / 2 ^ e.lo % 2 ^ e.width = v.toNat % 2 ^ e.width := by
  refine Nat.eq_of_testBit_eq fun i => ?_
  rw [Nat.testBit_mod_two_pow, Nat.testBit_mod_two_pow, ← Nat.shiftRight_eq_div_pow, Nat.testBit_shiftRight,
    BitVec.testBit_toNat, BitVec.testBit_toNat]
  by_cases hi : i < e.width
  · rw [e.put_getLsbD x v hi hw]
  · simp [hi]

/-- The residue of the balanced remainder: the upper half is lowered by the modulus. -/
theorem bmod_two_pow (n : Nat) {w : Nat} (hw : 0 < w) : Int.bmod n (2 ^ w) =
    if 2 ^ (w - 1) ≤ n % 2 ^ w then ((n % 2 ^ w : Nat) : Int) - 2 ^ w else (n % 2 ^ w : Nat) := by
  obtain ⟨w, rfl⟩ := Nat.exists_eq_succ_of_ne_zero hw.ne'
  have hp : 2 ^ (w + 1) = 2 * 2 ^ w := Nat.pow_succ'
  have hc : ((2 ^ (w + 1) : Nat) : Int) = 2 ^ (w + 1) := by norm_cast
  rw [Int.bmod, ← Int.natCast_emod, Nat.succ_eq_add_one, Nat.add_sub_cancel, ← hc]
  split <;> split <;> omega

theorem FieldSpec.get_put (e : FieldSpec) (x v : Word) (h : 0 < e.width) (hw : e.lo + e.width ≤ 64) :
    e.get (e.put x v) = if e.signed then BitVec.ofInt 64 (Int.bmod v.toNat (2 ^ e.width))
      else BitVec.ofNat 64 (v.toNat % 2 ^ e.width) := by
  unfold FieldSpec.get
  simp only [e.bits_put x v hw, bmod_two_pow _ h]
  cases e.signed
  · rfl
  · simp only [Bool.true_and, decide_eq_true_eq, if_true]
    split
    · rfl
    · exact (BitVec.ofInt_natCast 64 _).symm

/-! ### Layouts -/

theorem portGate_off {s : State} (h : s.me.pmode = false) (src dst : List Reg) (body : State → Res) :
    portGate s src dst body = body s := if_pos (by rw [h]; rfl)

theorem packFrom_opened (s : State) (i : Instr) (a : Reg) (x : Word) (j : Nat) (ms : List FieldSpec) :
    packFrom (s.opened i) a x j ms = packFrom s a x j ms := by
  induction ms generalizing x j with
  | nil => rfl
  | cons f r ih => exact ih ..

theorem find?_not_eq_none {p : Nat → Bool} {n : Nat} (h : ∀ i < n, p i = true) :
    (List.range n).find? (fun i => !p i) = none := by
  simpa using h

end Sys2Proof.Machine

namespace Sys2Proof.Proofs

open Sys2Proof.Machine

/-- Settles O5: an entry by whether it is present, a layout by the range of its group and by its words. -/
theorem fieldInstructionsCompleteOrTrap : Obligations.FieldInstructionsCompleteOrTrap := by
  unfold Obligations.FieldInstructionsCompleteOrTrap
  refine ⟨⟨fun s g d a lay f e he => ⟨fun h => ?_, fun h => ?_⟩, fun s g d a lay hm h hn => ?_,
    fun s g d a lay hm h hn => ?_, fun s g lay a o h hc ho ht h0 h1 hok => ?_, FieldSpec.get_put⟩,
    fun s g d a lay f he => ⟨fun h => ?_, fun h => ?_⟩, fun s g d a lay h hn => ?_, fun s g d a lay h hn => ?_⟩
  · have he' : (s.opened (.fext g d a lay f)).field lay f.toNat = some e := he
    refine exec_done rfl h ?_
    simp only [he']
    rfl
  · have he' : (s.opened (.fins g d a lay f)).field lay f.toNat = some e := he
    refine exec_done rfl h ?_
    simp only [he']
    rfl
  · refine exec_done rfl h ((if_neg (Nat.not_lt.mpr hn)).trans ((portGate_off (s := s.opened _) hm ..).trans ?_))
    rw [packFrom_opened]
    rfl
  · exact exec_done rfl h ((if_neg (Nat.not_lt.mpr hn)).trans (portGate_off (s := s.opened _) hm ..))
  · refine exec_done rfl h ((loadAt_own (s := s.opened _) hc ho.opened ht.opened).trans ?_)
    have h8 : o % 8 = 0 :=
      Nat.mod_eq_zero_of_dvd (.trans (by decide) (Nat.dvd_of_mod_eq_zero (ho.align (by decide))))
    rw [wordsOf_two h8]
    simp only [State.issue_core_opened, State.spadPois_opened, State.bytes_opened, List.map_cons,
      List.map_nil, h0, h1, List.any_cons, List.any_nil, id_eq, Bool.or_false, Bool.false_eq_true, if_false, find?_not_eq_none hok]
    rfl
  · have he' : (s.opened (.fext g d a lay f)).field lay f.toNat = none := he
    refine exec_trap rfl h ?_
    simp only [he']
    rfl
  · have he' : (s.opened (.fins g d a lay f)).field lay f.toNat = none := he
    refine exec_trap rfl h ?_
    simp only [he']
    rfl
  · exact exec_trap rfl h (if_pos hn)
  · exact exec_trap rfl h (if_pos hn)

end Sys2Proof.Proofs
end

section
/-! ## Scalar floats (O6) -/

namespace Sys2Proof.Proofs

open Sys2Proof.Machine

/-- Settles O6: each form is carried out on the opened state, whose registers, modifier and draws are the
strand's own; a compare of clean sources writes its predicate. -/
theorem scalarFloatsComplete : Obligations.ScalarFloatsComplete := by
  unfold Obligations.ScalarFloatsComplete
  exact ⟨fun s g ft d a b => ⟨fun h => exec_done rfl h rfl, fun h => exec_done rfl h rfl,
      fun h => exec_done rfl h rfl, fun h => exec_done rfl h rfl, fun h => exec_done rfl h rfl,
      fun h => exec_done rfl h rfl, fun h => exec_done rfl h rfl,
      fun cc pd h hc => exec_done rfl h (testInto_clean (clean_opened hc) ..)⟩,
    fun s g d a b c => ⟨fun h => exec_done rfl h rfl, fun h => exec_done rfl h rfl⟩,
    fun s g tgt src d a => ⟨fun h => exec_done rfl h rfl, fun h => exec_done rfl h rfl,
      fun h => exec_done rfl h rfl⟩⟩

end Sys2Proof.Proofs
end

section
/-! ## Traps of an instruction, of bits that are none, and of a fetch (O30) -/

namespace Sys2Proof.Machine

theorem bits_eq_extractLsb' (w : Word) (hi lo : Nat) : bits w hi lo = (w.extractLsb' lo (hi + 1 - lo)).toNat := by
  rw [BitVec.extractLsb'_toNat, Nat.shiftRight_eq_div_pow]
  rfl

/-- The state word of a strand that takes a trap in an instruction (R336, R339). -/
theorem Strand.enter_estat (t : Strand) (tvec : Word) (cause : BitVec 5) (code : Code) (v pc : Word) (len : Nat) :
    let w := (t.enter tvec cause code v pc len false false).estat
    bits w 3 2 = (if len = 2 then 0 else if len = 4 then 1 else 2) ∧ w.getLsbD 5 = false ∧ w.getLsbD 6 = false ∧
      w.getLsbD 7 = false ∧ bits w 1 0 = 0 := by
  intro w
  have hw : w = (if t.priv then 0x10 else 0) ||| (ilenOf len <<< 2) := by simp [w, Strand.enter]
  have hl : ilenOf len = if len = 2 then 0 else if len = 4 then 1 else 2 := rfl
  rw [hw, hl]
  by_cases h2 : len = 2
  · simp only [if_pos h2]
    cases t.priv <;> decide
  · by_cases h4 : len = 4
    · simp only [if_neg h2, if_pos h4]
      cases t.priv <;> decide
    · simp only [if_neg h2, if_neg h4]
      cases t.priv <;> decide

/-- A trap that is no double trap enters the handler on the issuing strand, with its state saved (R339). -/
theorem State.trap_enters {s : State} (cause : BitVec 5) (code : Code) (v : Word)
    (h : s.me.priv = true → s.me.estat.getLsbD 7 = true) :
    let t := s.trap s.issue.core s.issue.slot cause code v s.me.pc s.issue.len
    t.me = s.me.enter s.myCore.tvec cause code v s.me.pc s.issue.len false false ∧ ∀ a, t.byte a = s.byte a := by
  have h' : s.me.priv = false ∨ s.me.estat.getLsbD 7 = true := by
    cases hp : s.me.priv
    · exact .inl rfl
    · exact .inr (h hp)
  obtain ⟨m, ht⟩ :=
    State.trap_own (cause := cause) (code := code) (v := v) (pc := s.me.pc) (len := s.issue.len) h'
  rw [ht]
  exact ⟨State.me_setMe .., fun a => rfl⟩

/-! ### DBGB under catch (R345) -/

theorem Core.caught_getLsbD (c : Core) (slot k : Nat) (hk : k < 32) :
    (c.caught slot k).dbg.getLsbD (32 + slot) = decide (slot < 32) := by
  by_cases hs : slot < 32
  · have hr : slot * 2 ^ 20 + k * 2 ^ 15 < 2 ^ (32 + slot) :=
      Nat.lt_of_lt_of_le (by omega) (Nat.pow_le_pow_right (by decide) (Nat.le_add_right 32 slot))
    unfold Core.caught
    dsimp only
    rw [BitVec.getLsbD_or, BitVec.getLsbD_ofNat, Nat.add_assoc, Nat.testBit_two_pow_add_eq,
      Nat.testBit_lt_two_pow hr]
    simp only [Bool.not_false, Bool.and_true, hs, decide_true]
    rw [decide_eq_true (by omega), Bool.or_true]
  · rw [BitVec.getLsbD_of_ge _ _ (by omega), decide_eq_false hs]

theorem caught_fields (p slot k : Nat) (hk : k < 32) :
    (2 ^ 32 * p + slot * 2 ^ 20 + k * 2 ^ 15) % 2 ^ 64 / 2 ^ 15 % 2 ^ 5 = k ∧
    (2 ^ 32 * p + slot * 2 ^ 20 + k * 2 ^ 15) % 2 ^ 64 / 2 ^ 20 % 2 ^ 5 = slot % 32 := by
  omega

theorem Core.caught_bits (c : Core) (slot k : Nat) (hk : k < 32) :
    bits (c.caught slot k).dbg 19 15 = k ∧ bits (c.caught slot k).dbg 24 20 = slot % 32 := by
  have bits_caught : ∀ hi lo, hi + 1 - lo = 5 → (~~~0x0000000001FF8000 : Word).extractLsb' lo 5 = 0#5 →
      bits (c.caught slot k).dbg hi lo =
        (2 ^ (32 + slot) + slot * 2 ^ 20 + k * 2 ^ 15) % 2 ^ 64 / 2 ^ lo % 2 ^ 5 := by
    intro hi lo hn h0
    rw [bits_eq_extractLsb', hn, Core.caught, BitVec.extractLsb'_or, BitVec.extractLsb'_and, h0,
      BitVec.and_zero, BitVec.zero_or, BitVec.extractLsb'_toNat, BitVec.toNat_ofNat, Nat.shiftRight_eq_div_pow]
  rw [bits_caught 19 15 rfl (by decide), bits_caught 24 20 rfl (by decide), Nat.pow_add]
  exact caught_fields (2 ^ slot) slot k hk

/-- A strand halted by a caught breakpoint, after its instruction has completed (R345). -/
def State.catches (s : State) (pc : Word) (k : Nat) : State :=
  let t := (s.retire pc).setMe { (s.retire pc).me with st := .halted }
  t.setMyCore (t.myCore.caught t.issue.slot k)

theorem State.me_setMyCore_caught (s : State) (n k : Nat) : (s.setMyCore (s.myCore.caught n k)).me = s.me :=
  State.me_setMyCore_of_strands rfl

theorem State.catches_me (s : State) (pc : Word) (k : Nat) :
    (s.catches pc k).me = { s.me.retired pc with st := .halted } := by
  rw [State.catches, State.me_setMyCore_caught, State.me_setMe, State.retire_me]

theorem State.catches_myCore (s : State) (pc : Word) (k : Nat) :
    ∃ c : Core, (s.catches pc k).myCore = c.caught s.issue.slot k :=
  ⟨_, by rw [State.catches, State.myCore_setMyCore, State.setMe_issue, State.retire_eq, State.setMe_issue,
    State.popPort_issue]⟩

end Sys2Proof.Machine

namespace Sys2Proof.Proofs

open Sys2Proof.Machine

/-- Settles O30: each of them is a trap of the issuing strand, which enters the handler; a DBGB under catch halts
its strand and names it in the debug word. -/
theorem trapsEnterTheHandler : Obligations.TrapsEnterTheHandler := by
  unfold Obligations.TrapsEnterTheHandler
  refine ⟨fun s g k hd => ?_, fun s v cause code hs hd => ?_⟩
  · intro entered
    have enters : ∀ i cause code, entered (s.traps i cause code (k.setWidth 64)) cause code := by
      intro i cause code
      obtain ⟨hme, hbyte⟩ := State.trap_enters (s := s.opened i) cause code (k.setWidth 64) hd
      obtain ⟨hl, h5, h6, h7, h1⟩ :=
        Strand.enter_estat s.me s.myCore.tvec cause code (k.setWidth 64) s.me.pc s.issue.len
      exact ⟨congrArg Strand.epc hme, congrArg Strand.cause hme, congrArg Strand.tval hme,
        (congrArg (fun t => t.estat.getLsbD 4) hme).trans (Strand.enter_estat_priv ..),
        (congrArg (fun t => bits t.estat 3 2) hme).trans hl,
        (congrArg (fun t => t.estat.getLsbD 5) hme).trans h5,
        (congrArg (fun t => t.estat.getLsbD 6) hme).trans h6,
        (congrArg (fun t => t.estat.getLsbD 7) hme).trans h7,
        (congrArg (fun t => bits t.estat 1 0) hme).trans h1, congrArg Strand.priv hme, congrArg Strand.pc hme,
        congrArg Strand.st hme, fun r => congrArg (fun t => t.reg r) hme,
        fun n => congrArg (fun t => t.p n) hme, hbyte⟩
    refine ⟨fun h => ⟨_, exec_trap rfl h rfl, enters (.trap g k) _ _⟩,
      fun h hc => ⟨_, exec_trap rfl h ?_, enters (.dbgb g k) _ _⟩,
      fun h hc => ⟨(s.opened (.dbgb g k)).catches s.nextPc k.toNat, exec_gone rfl h (if_pos hc), ?_⟩⟩
    · exact if_neg (ne_true_of_eq_false hc)
    · have hme := State.catches_me (s.opened (.dbgb g k)) s.nextPc k.toNat
      obtain ⟨c, hcore⟩ := State.catches_myCore (s.opened (.dbgb g k)) s.nextPc k.toNat
      obtain ⟨hk, hs⟩ := c.caught_bits s.issue.slot k.toNat k.isLt
      exact ⟨congrArg Strand.st hme, congrArg Strand.pc hme, (congrArg Strand.priv hme :),
        (congrArg (fun c : Core => c.dbg.getLsbD (32 + s.issue.slot)) hcore).trans (c.caught_getLsbD _ _ k.isLt),
        (congrArg (fun c : Core => bits c.dbg 19 15) hcore).trans hk,
        (congrArg (fun c : Core => bits c.dbg 24 20) hcore).trans hs⟩
  · intro entered
    have enters : ∀ cause code,
        entered (s.trap s.issue.core s.issue.slot cause code v s.me.pc s.issue.len) cause code := by
      intro cause code
      obtain ⟨hme, -⟩ := State.trap_enters (s := s) cause code v hd
      exact ⟨congrArg Strand.epc hme, congrArg Strand.cause hme, congrArg Strand.tval hme,
        congrArg Strand.priv hme, congrArg Strand.pc hme⟩
    exact ⟨⟨_, event_of_running hs _, enters _ _⟩, ⟨_, event_of_running hs _, enters _ _⟩⟩

end Sys2Proof.Proofs
end

section
/-! ## Accesses to HBM do not look at the instruction -/

namespace Sys2Proof.Machine

/-- The same state with another instruction issued. -/
def State.withIssue (s : State) (j : Issue) : State := { s with issue := j }

/-- A change of state that neither reads nor writes what is issued. -/
def IssueBlind (f : State → State) : Prop := ∀ s j, f (s.withIssue j) = (f s).withIssue j

theorem IssueBlind.comp {f g : State → State} (hf : IssueBlind f) (hg : IssueBlind g) :
    IssueBlind fun s => g (f s) := fun s j => (congrArg g (hf s j)).trans (hg (f s) j)

theorem IssueBlind.foldl {α : Type} {f : State → α → State} (h : ∀ x, IssueBlind fun s => f s x) (l : List α) :
    IssueBlind fun s => l.foldl f s := by
  induction l with
  | nil => exact fun s j => rfl
  | cons x r ih => exact (h x).comp ih

theorem IssueBlind.ite {f g : State → State} {p : State → Prop} [DecidablePred p]
    (hp : ∀ s j, p (s.withIssue j) ↔ p s) (hf : IssueBlind f) (hg : IssueBlind g) :
    IssueBlind fun s => if p s then f s else g s := by
  intro s j
  by_cases h : p s
  · exact (if_pos ((hp s j).mpr h)).trans ((hf s j).trans (congrArg (State.withIssue · j) (if_pos h).symm))
  · exact (if_neg fun h' => h ((hp s j).mp h')).trans
      ((hg s j).trans (congrArg (State.withIssue · j) (if_neg h).symm))

theorem State.bytes_withIssue (s : State) (j : Issue) (k n : Nat) : (s.withIssue j).bytes k n = s.bytes k n := by
  induction n generalizing k with
  | zero => rfl
  | succ n ih => exact congrArg (s.byte k :: ·) (ih (k + 1))

theorem issueBlind_checkGran (g : Nat) : IssueBlind (·.checkGran g) :=
  .ite (fun _ _ => Iff.rfl) (fun _ _ => rfl) (.ite (fun _ _ => Iff.rfl) (fun _ _ => rfl)
    (.ite (fun _ _ => Iff.rfl) (fun _ _ => rfl) fun _ _ => rfl))

theorem State.readHbm_withIssue (s : State) (j : Issue) (o n : Nat) : (s.withIssue j).readHbm o n =
    ((s.readHbm o n).1, (s.readHbm o n).2.1, (s.readHbm o n).2.2.withIssue j) := by
  unfold State.readHbm
  simp only [IssueBlind.foldl issueBlind_checkGran (gransOf o n) s j, State.bytes_withIssue]
  rfl

theorem issueBlind_writeGrans (o : Nat) (bs : List Byte) : IssueBlind (·.writeGrans o bs) := by
  refine IssueBlind.comp (g := fun s => s.putBytes o bs) (IssueBlind.foldl (fun g => ?_) _) fun s j => rfl
  split
  · exact fun s j => rfl
  · exact issueBlind_checkGran g

theorem issueBlind_markDirty (o : Nat) : IssueBlind (·.markDirty o) := by
  intro s j
  have hp : (s.withIssue j).port (homePort o) = s.port (homePort o) := rfl
  unfold State.markDirty
  simp only [hp]
  split <;> rfl

theorem issueBlind_loseRecords (o n : Nat) : IssueBlind (·.loseRecords o n) := by
  intro s j
  refine (congrArg (List.foldl _ · _) (IssueBlind.foldl (fun x => ?_) _ s j)).trans
    (IssueBlind.foldl (fun x => ?_) _ _ j)
  · cases x.2.cmds with
    | nil => exact fun s j => rfl
    | cons c r => exact fun s j => rfl
  · cases x.2.cmds with
    | nil => exact fun s j => rfl
    | cons c r => exact fun s j => rfl

theorem issueBlind_writeHbm (o : Nat) (bs : List Byte) : IssueBlind (·.writeHbm o bs) :=
  ((issueBlind_writeGrans o bs).comp (IssueBlind.foldl issueBlind_markDirty _)).comp
    (issueBlind_loseRecords o bs.length)

theorem issueBlind_evictLine (line : Nat) (dirty : Bool) : IssueBlind (·.evictLine line dirty) :=
  IssueBlind.foldl (fun _ => .ite (fun _ _ => Iff.rfl) (fun _ _ => rfl) fun _ _ => rfl) _

theorem issueBlind_cacheAccess (o : Nat) : IssueBlind (·.cacheAccess o) := by
  intro s j
  have hp : (s.withIssue j).port (homePort o) = s.port (homePort o) := rfl
  have ho : (s.withIssue j).ownPa o = s.ownPa o := rfl
  unfold State.cacheAccess
  simp only [hp, ho]
  split
  · rfl
  · split
    · rfl
    · next w old _ =>
      cases old with
      | none => rfl
      | some l =>
        dsimp only
        rw [show (s.withIssue j).evictLine l _ = _ from issueBlind_evictLine l _ s j]
        rfl

theorem issueBlind_emit (p : Packet) : IssueBlind (·.emit p) := by
  intro s j
  have hp : (s.withIssue j).usablePath p.dst.toNat p.path = s.usablePath p.dst.toNat p.path := rfl
  unfold State.emit
  simp only [hp]
  split <;> rfl

theorem issueBlind_redEnd (x : RedVal) (ok : Bool) : IssueBlind (·.redEnd x ok) := by
  intro s j
  unfold State.redEnd
  cases x.pkt with
  | some p => cases ok <;> exact issueBlind_emit _ s j
  | none => cases ok <;> rfl

theorem IssueBlind.readHbm {k : List Byte → List Bool → State → State} (o n : Nat)
    (hk : ∀ bs ps, IssueBlind (k bs ps)) :
    IssueBlind fun s => k (s.readHbm o n).1 (s.readHbm o n).2.1 (s.readHbm o n).2.2 := by
  intro s j
  dsimp only
  rw [State.readHbm_withIssue]
  exact hk _ _ _ j

/-- A group of reductions once its bytes have been read. -/
def finishGroup (g : Group) (bs : List Byte) (ps : List Bool) (s : State) : State :=
  if ps.any id then g.vals.foldl (fun s x => s.redEnd x false) s
  else g.vals.foldl (fun s x => s.redEnd x true)
    (s.writeHbm g.addr (redBytes g.op g.w (g.vals.map (·.v)) bs))

theorem issueBlind_finishGroup (g : Group) (bs : List Byte) (ps : List Bool) : IssueBlind (finishGroup g bs ps) :=
  .ite (fun _ _ => Iff.rfl) (.foldl (fun x => issueBlind_redEnd x false) _)
    ((issueBlind_writeHbm g.addr _).comp (.foldl (fun x => issueBlind_redEnd x true) _))

theorem issueBlind_applyGroup (g : Group) : IssueBlind (·.applyGroup g) :=
  (IssueBlind.comp (f := fun s => { s with groups := s.groups.filter fun x => x.id != g.id }) (fun _ _ => rfl)
    (issueBlind_cacheAccess g.addr)).comp (.readHbm g.addr (redSize g.op g.w) (issueBlind_finishGroup g))

theorem issueBlind_flushLine (o : Nat) : IssueBlind (·.flushLine o) :=
  fun s j => IssueBlind.foldl issueBlind_applyGroup _ s j

theorem issueBlind_flushLines (o n : Nat) : IssueBlind (·.flushLines o n) :=
  .foldl issueBlind_flushLine _

theorem State.seen_withIssue (s : State) (j : Issue) (o n : Nat) : (s.withIssue j).seen o n = s.seen o n := by
  unfold State.seen
  rw [show (s.withIssue j).flushLines o n = _ from issueBlind_flushLines o n s j, State.bytes_withIssue]

theorem State.block_opened (s : State) (i : Instr) (r : Word) : (s.opened i).block r = s.block r := by
  have hs : ∀ o n, (s.opened i).seen o n = s.seen o n := s.seen_withIssue _
  have ho : ∀ pa, (s.opened i).ownHbm pa = s.ownHbm pa := fun _ => rfl
  simp only [State.block, State.seenWord, hs, ho]
  rfl

@[simp] theorem State.myLoom_opened (s : State) (i : Instr) : (s.opened i).myLoom = s.myLoom :=
  congrArg (Option.map _) (s.block_opened i s.myCore.loomblk)

end Sys2Proof.Machine
end

section
/-! ## WFI, TLBI, modifier words and contexts (O33) -/

namespace Sys2Proof.Machine

variable {s : State}

/-! ### TLBI (R353) -/

theorem SMap.get_map {α : Type} (f : Nat → α → α) (m : SMap α) (d : α) (n : Nat) :
    SMap.get (m.map fun x => (x.1, f x.1 x.2)) d n = f n (SMap.get m d n) ∨
      SMap.get (m.map fun x => (x.1, f x.1 x.2)) d n = d := by
  induction m with
  | nil => exact .inr rfl
  | cons x r ih =>
    rw [List.map_cons, SMap.get, SMap.get]
    split
    · next e => exact .inl (by rw [← e])
    · exact ih

theorem mem_reachCores {core reach : Nat} (h : core < 2304) : core ∈ reachCores core reach := by
  unfold reachCores
  split
  · exact List.mem_singleton_self core
  · split
    · refine List.mem_map.mpr ⟨core % 24, List.mem_range.mpr (Nat.mod_lt _ (by decide)), ?_⟩
      exact Nat.mod_add_div core 24
    · exact List.mem_range.mpr h

/-- No translation that a TLBI names stays with the issuing core. -/
theorem State.tlbi_tlb {reach kind : Nat} {ctx : BitVec 12} {va : Word} (h : s.issue.core < 2304) :
    ∀ e ∈ ((s.tlbi reach kind ctx va).core s.issue.core).tlb, kind ≠ 0 ∧ e.named kind ctx va = false := by
  intro e he
  have hc : (s.tlbi reach kind ctx va).core s.issue.core = (s.core s.issue.core).invalidate kind ctx va ∨
      (s.tlbi reach kind ctx va).core s.issue.core = {} := by
    have := SMap.get_map
      (fun n c => if (reachCores s.issue.core reach).contains n then c.invalidate kind ctx va else c) s.cores {} s.issue.core
    rwa [if_pos (List.contains_iff_mem.mpr (mem_reachCores h))] at this
  rcases hc with hc | hc
  · rw [hc] at he
    have hn : e.named kind ctx va = false := by simpa using (List.mem_filter.mp he).2
    exact ⟨fun h0 => by simp [TlbEntry.named, h0] at hn, hn⟩
  · rw [hc] at he
    exact absurd he List.not_mem_nil

/-! ### CTXSV (R349, R350) -/

@[simp] theorem State.slotFree_opened (s : State) (i : Instr) (n k : Nat) :
    (s.opened i).slotFree n k = s.slotFree n k := rfl
@[simp] theorem State.isParked_opened (s : State) (i : Instr) (cl n : Nat) :
    (s.opened i).isParked cl n = s.isParked cl n := rfl
@[simp] theorem State.myCluster_opened (s : State) (i : Instr) : (s.opened i).myCluster = s.myCluster := rfl

@[simp] theorem State.saveOk_opened (s : State) (i : Instr) (w : Word) : (s.opened i).saveOk w = s.saveOk w := by
  simp only [State.saveOk, State.myCore_opened, State.issue_slot_opened, State.myLoom_opened]

@[simp] theorem State.loadOk_opened (s : State) (i : Instr) (w : Word) : (s.opened i).loadOk w = s.loadOk w := by
  simp only [State.loadOk, State.myCore_opened, State.issue_core_opened, State.myLoom_opened,
    State.slotFree_opened, State.isParked_opened, State.myCluster_opened]

section
variable {w : Word} {t : State}

theorem exec_ctxsv {g : Guard} {a : Reg} (h : s.Issues (.ctxsv g a) g) (hc : s.clean [a])
    (hw : ctxWordOk (s.gv a) 7 = true) (hs : s.saveOk (s.gv a) = true) (hd : s.settled)
    (hb : savePart (s.opened (.ctxsv g a)) (s.gv a) = .done t) : exec (.ctxsv g a) s = .next t.completes := by
  refine exec_done rfl h ((consume_clean (s := s.opened _) hc _).trans ?_)
  simp only [State.gv_opened, hw, State.saveOk_opened, hs]
  exact (draining_settled (s := s.opened _) hd _ _).trans hb

theorem savePart_strand (h : ctxPart w = 0) (hs : s.canStop s.issue.core (ctxIndex w) = true)
    (hd : s.strandDrained s.issue.core (ctxIndex w) = true) :
    savePart s w = .done (s.saveStrand (ctxIndex w) (ctxOff w)) := by
  simp only [savePart, h, hs, hd, Bool.and_self, if_true]

theorem savePart_tile (h : ctxPart w = 1) (hp : s.myCore.tilePending (ctxIndex w) = false) :
    savePart s w = .done (s.saveArea (ctxOff w) (s.myCore.tile (ctxIndex w)).image) := by
  simp only [savePart, h, hp]
  rfl

theorem savePart_layouts (h : ctxPart w = 2) :
    savePart s w = .done (s.saveArea (ctxOff w) s.myCore.layoutImage) := by
  simp only [savePart, h]

theorem savePart_tags (h : ctxPart w = 3) :
    savePart s w = .done (s.saveArea (ctxOff w) (s.myCore.tagImage (ctxIndex w))) := by
  simp only [savePart, h]

theorem savePart_loom {key : Nat} {b : Block} (h : ctxPart w = 4) (hb : s.myLoom = some (key, b)) :
    savePart s w = .done (s.hbmWrite (b.off + 32) s.myCore.loom.image) := by
  simp only [savePart, h, hb]

theorem savePart_plane (h : ctxPart w = 5) :
    savePart s w = .done (s.saveArea (ctxOff w) (s.myCore.loom.plane (ctxIndex w)).image) := by
  simp only [savePart, h]

theorem savePart_vat (h : ctxPart w = 6) : savePart s w =
    .done (s.saveArea (ctxOff w) ((s.myCore.loom.vat (ctxIndex w / 4)).image (ctxIndex w % 4))) := by
  simp only [savePart, h]

theorem savePart_port (h : ctxPart w = 7) (hi : ctxIndex w = 0) : savePart s w =
    .done ((s.saveArea (ctxOff w) s.myCore.portImage).setMyCore { s.myCore with portQ := [] }) := by
  simp only [savePart, h, hi]
  rfl

theorem savePart_deque (h : ctxPart w = 7) (hi : ctxIndex w = 1) : savePart s w =
    .done ((s.saveArea (ctxOff w) (queueImage s.myCore.deque)).setMyCore { s.myCore with deque := [] }) := by
  simp only [savePart, h, hi]
  rfl

theorem savePart_arrivals (h : ctxPart w = 7) (hi : ctxIndex w = 2) : savePart s w =
    .done ((s.saveArea (ctxOff w) (queueImage s.myCore.arrivals)).setMyCore { s.myCore with arrivals := [] }) := by
  simp only [savePart, h, hi]
  rfl

/-! ### CTXLD (R349, R351) -/

theorem exec_ctxld {g : Guard} {a : Reg} (h : s.Issues (.ctxld g a) g) (hc : s.clean [a])
    (hw : ctxWordOk (s.gv a) 9 = true) (hs : s.loadOk (s.gv a) = true)
    (hb : loadPart (s.opened (.ctxld g a)) (s.gv a) = .done t) : exec (.ctxld g a) s = .next t.completes := by
  refine exec_done rfl h ((consume_clean (s := s.opened _) hc _).trans ?_)
  simp only [State.gv_opened, hw, State.loadOk_opened, hs]
  exact hb

theorem firstPoison_eq_none {ps : List Bool} (h : ∀ p ∈ ps, p = false) (ws : List Nat) :
    firstPoison ws ps = none := by
  refine List.find?_eq_none.mpr fun w _ => ne_true_of_eq_false ?_
  rw [List.getD_eq_getElem?_getD]
  cases hp : ps[w]? with
  | none => rfl
  | some p => exact h p (List.mem_of_getElem? hp)

/-- An image that can be read now, none of it poisoned, is read at once. -/
theorem readArea_ready {off n : Nat} (hf : s.me.flight = none) (hs : s.soundWords (wordsOf (0xF0000 + off) n))
    (ht : s.tagsReady (0xF0000 + off) n true)
    (hp : ∀ x ∈ wordsOf (0xF0000 + off) n, s.spadPois s.issue.core x = false) (control : List Nat)
    (k : State → List Byte → List Bool → Res) : readArea s off n control k =
      k s (s.bytes (spadKey s.issue.core (0xF0000 + off)) n)
        ((wordsOf (0xF0000 + off) n).map (s.spadPois s.issue.core)) := by
  unfold readArea
  rw [ownTag_ready _ (checkTags_sound hs) hf ht]
  simp only [State.readSpad, checkWords_sound hs]
  rw [firstPoison_eq_none]
  intro p hm
  obtain ⟨x, hx, rfl⟩ := List.mem_map.mp hm
  exact hp x hx

/-- The reading of a part from the reserved area. -/
def readPart (s : State) (w : Word) : List Nat → (State → List Byte → List Bool → Res) → Res :=
  readArea s (ctxOff w) (partBytes (ctxPart w) (ctxIndex w))

/-- The control words of a part whose words are all of that kind. -/
def allWords (w : Word) : List Nat := wordRange 0 (partBytes (ctxPart w) (ctxIndex w) / 8)

theorem loadPart_strand (h : ctxPart w = 0) : loadPart s w = readPart s w recordControl fun s bs ps =>
    .done (s.loadStrand (ctxIndex w) bs ps) := by
  simp only [loadPart, h, readPart]

theorem loadPart_tile (h : ctxPart w = 1) : loadPart s w = readPart s w (wordRange 128 138) fun s bs ps =>
    .done (s.setMyCore { s.myCore with tiles := SMap.put s.myCore.tiles {} (ctxIndex w) (tileOf bs ps) }) := by
  simp only [loadPart, h, readPart]

theorem loadPart_layouts (h : ctxPart w = 2) : loadPart s w = readPart s w (allWords w) fun s bs _ =>
    .done (s.setMyCore (s.myCore.loadLayouts bs)) := by
  simp only [loadPart, h, readPart, allWords]

theorem loadPart_tags (h : ctxPart w = 3) : loadPart s w = readPart s w (allWords w) fun s bs _ =>
    .done (s.setMyCore (s.myCore.loadTags (ctxIndex w) bs)) := by
  simp only [loadPart, h, readPart, allWords]

theorem loadPart_loom {key : Nat} {b : Block} (h : ctxPart w = 4) (hb : s.myLoom = some (key, b)) :
    loadPart s w = loadSmall s b := by
  simp only [loadPart, h, hb]

theorem loadPart_plane (h : ctxPart w = 5) : loadPart s w = readPart s w (allWords w) fun s bs _ =>
    .done (s.setLoom (if ctxIndex w = 0 then { s.myCore.loom with warp := planeOf bs }
      else { s.myCore.loom with shadow := planeOf bs })) := by
  simp only [loadPart, h, readPart, allWords]

/-- The Loom with rows of one of its vats loaded. -/
def Loom.loadVat (m : Loom) (n : Nat) (bs : List Byte) : Loom :=
  let v := (m.vat (n / 4)).loadRows (n % 4) bs
  if n < 4 then { m with v0 := v } else { m with v1 := v }

theorem loadPart_vat (h : ctxPart w = 6) : loadPart s w = readPart s w (allWords w) fun s bs _ =>
    .done (s.setLoom (s.myCore.loom.loadVat (ctxIndex w) bs)) := by
  have hv : (ctxIndex w / 4 = 0) = (ctxIndex w < 4) := propext (by omega)
  simp only [loadPart, h, readPart, allWords, Loom.loadVat, hv]

theorem loadPart_port (h : ctxPart w = 7) (hi : ctxIndex w = 0) : loadPart s w =
    readPart s w [8, 9] fun s bs ps => .done (s.setMyCore (s.myCore.loadPort bs ps)) := by
  simp only [loadPart, h, hi, readPart, if_true]

theorem loadPart_deque (h : ctxPart w = 7) (hi : ctxIndex w = 1) : loadPart s w =
    readPart s w queueControl fun s bs ps => .done (s.setMyCore { s.myCore with deque := queueOf bs ps }) := by
  simp only [loadPart, h, hi, readPart]
  rfl

theorem loadPart_arrivals (h : ctxPart w = 7) (hi : ctxIndex w = 2) : loadPart s w =
    readPart s w queueControl fun s bs ps => .done (s.setMyCore { s.myCore with arrivals := queueOf bs ps }) := by
  simp only [loadPart, h, hi, readPart]
  rfl

theorem loadPart_task (h : ctxPart w = 8) : loadPart s w = readPart s w recordControl fun s bs _ =>
    .done (s.killTask s.issue.core (descOf (bs.take 160)).self (leWord ((bs.drop 328).take 8))
      (s.refreshTx (leWord ((bs.drop 336).take 8))) (BitVec.ofNat 64 (ctxCode w))) := by
  simp only [loadPart, h, readPart]

theorem loadPart_parked (h : ctxPart w = 9) :
    loadPart s w = .done (s.killParked (ctxIndex w) (BitVec.ofNat 64 (ctxCode w))) := by
  simp only [loadPart, h]

theorem loadSmall_clean {b : Block} (h : ∀ p ∈ (s.hbmRead (b.off + 32) 224).2.1, p = false) :
    let r := s.hbmRead (b.off + 32) 224
    loadSmall s b = .done (r.2.2.setLoom (r.2.2.myCore.loom.loadImage r.1)) := by
  unfold loadSmall
  simp only [firstPoison_eq_none h]

end

end Sys2Proof.Machine

namespace Sys2Proof.Proofs

open Sys2Proof.Machine

/-- Settles O33: WFI and TLBI by their conditions, a context instruction by the part that its word names. -/
theorem systemInstructionsAndContextsComplete : Obligations.SystemInstructionsAndContextsComplete := by
  unfold Obligations.SystemInstructionsAndContextsComplete
  refine ⟨fun s g a b m => ⟨fun h hp => exec_done rfl h (if_pos hp), fun h hc hf hcore => ?_,
    fun hs => event_of_running hs _⟩, fun s g a => ?_, fun s g a => ?_⟩
  · intro w t h51 hr hk hw
    have hgot : (s.opened (.tlbi g a b)).got = [] := by
      unfold State.got
      rw [State.me_opened, hf]
    refine ⟨exec_done rfl h ((consume_clean (s := s.opened _) hc _).trans ?_),
      State.tlbi_tlb (s := s.opened _) hcore⟩
    refine (if_neg fun hbad => ?_).trans ?_
    · rcases hbad with hbad | hbad | hbad
      · exact hbad h51
      · exact hr hbad
      · exact hk hbad
    · simp only [hgot, List.isEmpty_nil, if_true]
      exact if_neg (ne_true_of_eq_false hw)
  · intro i w off n c h hc hw hs hd done area
    have saves : ∀ {t}, savePart (s.opened i) w = .done t → done t := exec_ctxsv h hc hw hs hd
    exact ⟨fun hp hst hdr => saves (savePart_strand hp hst hdr), fun hp ht => saves (savePart_tile hp ht),
      fun hp => saves (savePart_layouts hp), fun hp => saves (savePart_tags hp),
      fun hp key b hb => saves (savePart_loom hp ((s.myLoom_opened i).trans hb)),
      fun hp => saves (savePart_plane hp),
      fun hp => saves (savePart_vat hp), fun hp => ⟨fun hi => saves (savePart_port hp hi),
        fun hi => saves (savePart_deque hp hi), fun hi => saves (savePart_arrivals hp hi)⟩⟩
  · intro i w n c m h hc hw hs done fw
    have loads : ∀ {t}, loadPart (s.opened i) w = .done t → done t := exec_ctxld h hc hw hs
    refine ⟨fun _ _ hf => ?_,
      fun hp key b hb hr => loads ((loadPart_loom hp ((s.myLoom_opened i).trans hb)).trans (loadSmall_clean hr)),
      fun hp => loads (loadPart_parked hp)⟩
    intro o words hsound ht hpois bs ps core loom
    have reads : ∀ control k, readPart (s.opened i) w control k = k (s.opened i) bs ps := by
      intro control k
      refine (readArea_ready (s := s.opened i) hf hsound ht hpois control k).trans ?_
      rw [State.bytes_opened]
      rfl
    exact ⟨fun hp => loads ((loadPart_strand hp).trans (reads ..)),
      fun hp => loads ((loadPart_tile hp).trans (reads ..)),
      fun hp => loads ((loadPart_layouts hp).trans (reads ..)),
      fun hp => loads ((loadPart_tags hp).trans (reads ..)),
      fun hp => loads ((loadPart_plane hp).trans (reads ..)),
      fun hp => loads ((loadPart_vat hp).trans (reads ..)),
      fun hp => ⟨fun hi => loads ((loadPart_port hp hi).trans (reads ..)),
        fun hi => loads ((loadPart_deque hp hi).trans (reads ..)),
        fun hi => loads ((loadPart_arrivals hp hi).trans (reads ..))⟩,
      fun hp => loads ((loadPart_task hp).trans (reads ..))⟩

end Sys2Proof.Proofs
end

section
/-! ## Tile functions, reductions, selection and the transpose (O27) -/

namespace Sys2Proof.Machine

variable {s : State} {i : Instr} {g : Guard} {h k : Shape} {td ta : TReg} {srcs dests : List TReg}

/-! ### A tile instruction whose checks pass -/

section
variable {ok : Fmt → Bool} {body : State → Shape → Res}
  (he : exec i s = run i g s fun s => tileSteps s ok s.usualMods srcs dests body) (hi : s.Issues i g)
  (ht : s.TileReady h srcs dests) (hk : ok h.fmt = true)
include he hi ht hk

theorem exec_tile_done {t : State} (hb : body (s.opened i) h = .done t) : exec i s = .next t.completes :=
  exec_done he hi ((ht.opened.steps hk body).trans hb)

theorem exec_tile_fills {raws : List Nat} {ps : List Bool} {scales : List Byte}
    (hb : body (s.opened i) h = tileDone (s.opened i) srcs td k raws ps scales) :
    exec i s = .next (s.fills i srcs td k raws ps scales) := exec_tile_done he hi ht hk hb

theorem exec_tile_fillsRounded {vs : List Val} {ps : List Bool}
    (hb : body (s.opened i) h = floatTile (s.opened i) srcs td k vs ps) :
    exec i s = .next (s.fillsRounded i srcs td k vs ps) := exec_tile_done he hi ht hk hb

theorem exec_tile_fillsInts {vs : List Int} {ps : List Bool}
    (hb : body (s.opened i) h = intTile (s.opened i) srcs td k vs ps) :
    exec i s = .next (s.fillsInts i srcs td k vs ps) := exec_tile_done he hi ht hk hb

end

/-! ### Conversions and functions (R126, R127) -/

/-- Between integer formats TCVT takes no rounding mode (R50), and so none that draws. -/
theorem rm_eq_zero_of_cvtAccepts {m : MW} {tgt f : Fmt} (hm : cvtAccepts m tgt f = true)
    (ht : tgt.isFloat = false) (hf : f.isFloat = false) : m.rm = 0 := by
  simp only [cvtAccepts, ht, hf, Bool.or_self, Bool.false_or, Bool.and_eq_true, beq_iff_eq] at hm
  obtain ⟨⟨⟨hrm, -⟩, -⟩, -⟩ := hm
  exact hrm

/-- The draws of a conversion to integers: one an element from a float format, none from an integer one. -/
theorem drew_of_cvtAccepts {tgt f : Fmt} (n : Nat) (hm : cvtAccepts s.mw tgt f = true)
    (ht : tgt.isFloat = false) (t : State) : (if f.isFloat = true then t.drew s.mw.rm.toNat n else t) =
      t.drew s.mw.rm.toNat (if f.isFloat = true then n else 0) := by
  cases hf : f.isFloat
  · rw [rm_eq_zero_of_cvtAccepts hm ht hf]
    rfl
  · rfl

section
variable {tgt : Fmt} (hs : shapeOf s.me.shape = some h) (hm : cvtAccepts s.mw tgt h.fmt = true)
  (hf : s.me.flight = none)
  (hc : s.chainAllows s.issue.core (chainNeeds [ta] [td]) s.nextId = true)
  (ha : (s.tile ta).agrees h = true) (hi : s.Issues (.tcvt g tgt td ta) g)
include hs hm hf hc ha hi

/-- A conversion whose checks pass goes on to its own tests and its effect (R126). -/
theorem exec_tcvt_done {t : State} {k : State → Shape → Res}
    (he : exec (.tcvt g tgt td ta) s = run (.tcvt g tgt td ta) g s fun s =>
      tileSteps s anyFmt (cvtAccepts s.mw tgt) [ta] [td] k)
    (hb : k (s.opened (.tcvt g tgt td ta)) h = .done t) : exec (.tcvt g tgt td ta) s = .next t.completes :=
  exec_done he hi ((tileSteps_ready (s := s.opened _) hs rfl hm hf hc (List.forall_mem_singleton.mpr ha) k).trans hb)

theorem exec_tcvt_float (hw : h.size * tgt.width ≤ 8192) (ht : tgt.isFloat = true) : exec (.tcvt g tgt td ta) s =
    let r := s.formTile tgt s.mw.rm.toNat s.mw.clamp ((s.vals h ta).map (Val.scale s.mw.scale.toInt))
    .next ((((s.opened (.tcvt g tgt td ta)).drew s.mw.rm.toNat h.size).emptySources [ta]).writeTile td
      { h with fmt := tgt } r.1 (s.elementPoison h [ta]) r.2).completes :=
  exec_tcvt_done hs hm hf hc ha hi rfl ((if_neg (Nat.not_lt.mpr hw)).trans (if_pos ht))

theorem exec_tcvt_integer (hw : h.size * tgt.width ≤ 8192) (ht : tgt.isFloat = false) : exec (.tcvt g tgt td ta) s =
    .next ((((s.opened (.tcvt g tgt td ta)).drew s.mw.rm.toNat
      (if h.fmt.isFloat = true then h.size else 0)).emptySources [ta]).writeTile td { h with fmt := tgt }
      ((List.range h.size).map fun e =>
        convert (((s.vals h ta).map (Val.scale s.mw.scale.toInt)).getD e .nan) (!h.fmt.isFloat) tgt
          s.mw.rm.toNat s.mw.clamp s.mw.sat.toNat (s.draw e))
      (s.elementPoison h [ta]) []).completes := by
  rw [← drew_of_cvtAccepts h.size hm ht]
  exact exec_tcvt_done hs hm hf hc ha hi rfl
    ((if_neg (Nat.not_lt.mpr hw)).trans (if_neg (ne_true_of_eq_false ht)))

end

/-- A function of one float source rounds each of its values once (R127). -/
theorem exec_tileFunction {fn : Val → Val} (he : exec i s = run i g s fun s => tileFunction s td ta fn)
    (ht : s.TileReady h [ta] [td]) (hf : h.fmt.isFloat = true) (hi : s.Issues i g) :
    exec i s = .next (s.fillsRounded i [ta] td h ((s.vals h ta).map fn) (s.elementPoison h [ta])) :=
  exec_tile_fillsRounded he hi ht hf rfl

/-! ### Reductions and scans (R128) -/

/-- A sum over pieces of the rows: of values, rounded once, or of integers. -/
theorem exec_tileSum {pieces : {α : Type} → Shape → List α → List (List α)} {cols : Shape → Nat}
    (he : exec i s = run i g s fun s => tileSum s td ta pieces cols) (ht : s.TileReady h [ta] [td])
    (hi : s.Issues i g) : exec i s = .next (if h.fmt.isFloat = true then
        s.fillsRounded i [ta] td { h with cols := cols h }
          ((pieces h (s.vals h ta)).map (sumVals h.fmt s.mw.rm.toNat))
          ((pieces h ((s.tile ta).poisons h)).map fun l => l.any id)
      else s.fillsInts i [ta] td { h with cols := cols h }
        ((pieces h (s.ints h ta)).map fun l => l.foldl (· + ·) 0)
        ((pieces h ((s.tile ta).poisons h)).map fun l => l.any id)) := by
  split
  · next hf => exact exec_tile_fillsRounded he hi ht rfl (if_pos hf)
  · next hf => exact exec_tile_fillsInts he hi ht rfl (if_neg hf)

theorem pick_eq_min_or_max (least : Bool) :
    (fun x y : Int => if decide (x < y) == least then x else y) = if least then min else max := by
  funext x y
  cases least with
  | true =>
    simp only [beq_true, decide_eq_true_eq, if_true]
    omega
  | false =>
    simp only [beq_false, Bool.not_eq_true', decide_eq_false_iff_not, Bool.false_eq_true, if_false]
    omega

/-- The extreme of each row: in a float format with a canonical NaN (R69), or of integers. -/
theorem exec_tileExtreme {least : Bool} (he : exec i s = run i g s fun s => tileExtreme s td ta least)
    (ht : s.TileReady h [ta] [td]) (hn : isNarrow h.fmt = false) (hi : s.Issues i g) :
    exec i s = .next (if h.fmt.isFloat = true then s.fills i [ta] td { h with cols := 1 }
        ((rowsOf h ((s.tile ta).elems h)).map fun l =>
          if h.fmt.value (foldRow (pickFloat h.fmt least) 0 l) = .nan then h.fmt.nanBits
          else foldRow (pickFloat h.fmt least) 0 l)
        ((rowsOf h ((s.tile ta).poisons h)).map fun l => l.any id) []
      else s.fillsInts i [ta] td { h with cols := 1 }
        ((rowsOf h (s.ints h ta)).map (foldRow (if least then min else max) 0))
        ((rowsOf h ((s.tile ta).poisons h)).map fun l => l.any id)) := by
  have hk : (!isNarrow h.fmt) = true := by rw [hn]; rfl
  split
  · next hf => exact exec_tile_fills he hi ht hk (if_pos hf)
  · next hf =>
    rw [← pick_eq_min_or_max]
    exact exec_tile_fillsInts he hi ht hk (if_neg hf)

/-! ### The transpose (R130) -/

/-- What `f` gives of each place of a tile, in the order of the transpose. -/
theorem map_transposed {α : Type} (h : Shape) (f : Nat → α) :
    ((List.range h.cols).flatMap fun j => (List.range h.rows).map fun r => r * h.cols + j).map f =
      (List.range h.cols).flatMap fun j => (List.range h.rows).map fun r => f (r * h.cols + j) := by
  simp only [List.map_flatMap, List.map_map, Function.comp_def]

theorem exec_txpose (ht : s.TileReady h [ta] [td]) (hi : s.Issues (.txpose g td ta) g) (hc : h.cols ≤ 32)
    (hn : isNarrow h.fmt = false) : exec (.txpose g td ta) s =
      .next (s.fills (.txpose g td ta) [ta] td ⟨h.cols, h.rows, h.fmt⟩
        ((List.range h.cols).flatMap fun j => (List.range h.rows).map fun r =>
          ((s.tile ta).elems h).getD (r * h.cols + j) 0)
        ((List.range h.cols).flatMap fun j => (List.range h.rows).map fun r =>
          ((s.tile ta).poisons h).getD (r * h.cols + j) false) []) := by
  rw [← map_transposed h fun e => ((s.tile ta).elems h).getD e 0,
    ← map_transposed h fun e => ((s.tile ta).poisons h).getD e false]
  exact exec_tile_fills rfl hi ht rfl ((if_neg (Nat.not_lt.mpr hc)).trans (if_neg (ne_true_of_eq_false hn)))

end Sys2Proof.Machine

namespace Sys2Proof.Proofs

open Sys2Proof.Machine

/-- Settles O27: a conversion by the kind of its target, the functions and the reductions by the shared
operation that carries them out, TTOPK and the transpose by the tests that they pass. -/
theorem tileFunctionsAndReductionsComplete : Obligations.TileFunctionsAndReductionsComplete := by
  unfold Obligations.TileFunctionsAndReductionsComplete
  refine ⟨⟨fun s g tgt td ta h hs hm hf hc ha hw hi => ?_, fun s g td ta h ht hf =>
      ⟨exec_tileFunction rfl ht hf, exec_tileFunction rfl ht hf, exec_tileFunction rfl ht hf,
        exec_tileFunction rfl ht hf, exec_tileFunction rfl ht hf, exec_tileFunction rfl ht hf⟩⟩,
    fun s g td ta h => ⟨fun ht => ⟨exec_tileSum (pieces := rowsOf) (cols := fun _ => 1) rfl ht,
      exec_tileSum (pieces := scansOf) (cols := (·.cols)) rfl ht, fun least => ?_, exec_txpose ht⟩,
      fun k1 ht hn hi hc hw hx => ?_⟩⟩
  · cases hk : tgt.isFloat with
    | true => exact ⟨_, _, _, exec_tcvt_float hs hm hf hc ha hi hw hk, fun _ => ⟨rfl, rfl⟩, nofun⟩
    | false => exact ⟨_, _, _, exec_tcvt_integer hs hm hf hc ha hi hw hk, nofun, fun _ => ⟨rfl, rfl, rfl⟩⟩
  · cases least
    · exact exec_tileExtreme rfl ht
    · exact exec_tileExtreme rfl ht
  · refine exec_tile_done rfl hi ht rfl (if_neg ?_)
    simp only [hn, Bool.false_eq_true, false_or, not_or, Nat.not_lt]
    exact ⟨hc, hw, hx⟩

end Sys2Proof.Proofs
end

section
/-! ## Integer arithmetic (O1) -/

namespace Sys2Proof.Machine

/-! ### Saturation (R91) -/

theorem ofInt_saturate (m : MW) (v : Int) : BitVec.ofInt 64 (saturate m.sat.toNat v) = limited m v := by
  by_cases h : m.sat = 0
  · simp [saturate, limited, h]
  · have h' : m.sat.toNat ≠ 0 := fun e => h (BitVec.eq_of_toNat_eq e)
    rw [saturate, limited, if_neg h, if_neg h']

theorem asInt_satSigned (m : MW) (x : Word) : asInt (satSigned m.sat.toNat) x = operandInt m x := by
  simp [asInt, satSigned, operandInt]

theorem operandInt_of_sat_eq_zero {m : MW} (h : m.sat = 0) (x : Word) : operandInt m x = x.toInt :=
  if_pos (by simp [h])

/-- Without a sat code an exact value is cut to 64 bits. -/
theorem limited_eq_ite {m : MW} {v : Int} {w : Word} (h : m.sat = 0 → BitVec.ofInt 64 v = w) :
    limited m v = if m.sat = 0 then w else limited m v := by
  split
  · next hm => exact (if_pos hm).trans (h hm)
  · rfl

/-- A form of two sources that is carried out as the exact operation `f`, which `h` cuts to 64 bits (R89). -/
theorem computes3_of_arith {mk : Guard → Reg → Reg → Reg → Instr} {f : Int → Int → Int} {h : Word → Word → Word}
    (he : ∀ s g d a b, exec (mk g d a b) s = run (mk g d a b) g s fun s => arith s d a b f)
    (hf : ∀ x y : Word, BitVec.ofInt 64 (f x.toInt y.toInt) = h x y) :
    Computes3 mk fun m x y => if m.sat = 0 then h x y else limited m (f (operandInt m x) (operandInt m y)) := by
  have hv (m : MW) (x y : Word) := limited_eq_ite (m := m) (v := f (operandInt m x) (operandInt m y)) (w := h x y)
    fun hm => by rw [operandInt_of_sat_eq_zero hm, operandInt_of_sat_eq_zero hm, hf]
  refine computes3_of_run fun s g d a b => ?_
  rw [he]
  simp only [arith, ofInt_saturate, asInt_satSigned, ← hv]

theorem computes2_addi (imm : BitVec 10) : Computes2 (fun g d a => .addi g d a imm) fun m x =>
    if m.sat = 0 then x + imm.signExtend 64 else limited m (operandInt m x + imm.toInt) := by
  have hv (m : MW) (x : Word) := limited_eq_ite (m := m) (v := operandInt m x + imm.toInt)
    (w := x + imm.signExtend 64) fun hm => by
      rw [operandInt_of_sat_eq_zero hm, BitVec.ofInt_add, BitVec.ofInt_toInt]
      rfl
  refine computes2_of_run fun s g d a => ?_
  change run _ g s (fun s => arithImm s d a imm.toInt) = _
  simp only [arithImm, ofInt_saturate, asInt_satSigned, ← hv]

/-! ### High products, quotients and remainders (R89, R90) -/

theorem mulhi_eq (x y : Word) : BitVec.ofInt 64 (x.toInt * y.toInt / 2 ^ 64) =
    (x.signExtend 128 * y.signExtend 128).extractLsb' 64 64 := by
  have hp : x.signExtend 128 * y.signExtend 128 = BitVec.ofInt 128 (x.toInt * y.toInt) :=
    (BitVec.ofInt_mul ..).symm
  rw [hp]
  generalize x.toInt * y.toInt = p
  refine BitVec.eq_of_toNat_eq ?_
  rw [BitVec.extractLsb'_toNat, BitVec.toNat_ofInt, BitVec.toNat_ofInt, Nat.shiftRight_eq_div_pow]
  omega

theorem mulhn_eq (x y : Word) : BitVec.ofNat 64 (x.toNat * y.toNat / 2 ^ 64) =
    (x.setWidth 128 * y.setWidth 128).extractLsb' 64 64 := by
  have hp : x.toNat * y.toNat < 2 ^ 128 := by
    have := Nat.mul_lt_mul'' x.isLt y.isLt
    omega
  refine BitVec.eq_of_toNat_eq ?_
  rw [BitVec.extractLsb'_toNat, BitVec.toNat_ofNat, BitVec.toNat_mul, BitVec.toNat_setWidth_of_le (by decide),
    BitVec.toNat_setWidth_of_le (by decide), Nat.mod_eq_of_lt hp, Nat.shiftRight_eq_div_pow]

theorem sdiv64_eq (x y : Word) : sdiv64 x y = if y = 0 then BitVec.allOnes 64 else x.sdiv y := by
  have h : BitVec.ofInt 64 (x.toInt.tdiv y.toInt) = x.sdiv y :=
    BitVec.eq_of_toInt_eq (by rw [BitVec.toInt_sdiv, BitVec.toInt_ofInt])
  rw [sdiv64, h]

theorem srem64_eq (x y : Word) : srem64 x y = if y = 0 then x else x.srem y := by
  have h : BitVec.ofInt 64 (x.toInt.tmod y.toInt) = x.srem y := by
    rw [← BitVec.toInt_srem, BitVec.ofInt_toInt]
  rw [srem64, h]

/-! ### The least and the greatest of two values (R89) -/

/-- Which of two values of equal keys is taken makes no difference. -/
theorem ite_lt_eq_ite_le {α β : Type} [LinearOrder β] {key : α → β} (hk : Function.Injective key) (x y : α) :
    (if key x < key y then y else x) = if key x ≤ key y then y else x := by
  obtain h | h | h := lt_trichotomy (key x) (key y)
  · rw [if_pos h, if_pos h.le]
  · rw [hk h, ite_self, ite_self]
  · rw [if_neg h.not_gt, if_neg h.not_ge]

theorem minWord_eq (x y : Word) : (if y.slt x then y else x) = if x.toInt ≤ y.toInt then x else y := by
  simp only [BitVec.slt_iff_toInt_lt, ← not_le, ite_not]

theorem maxWord_eq (x y : Word) : (if x.slt y then y else x) = if x.toInt ≤ y.toInt then y else x := by
  simp only [BitVec.slt_iff_toInt_lt]
  exact ite_lt_eq_ite_le (fun _ _ => BitVec.eq_of_toInt_eq) x y

theorem minnWord_eq (x y : Word) : (if y.ult x then y else x) = if x.toNat ≤ y.toNat then x else y := by
  simp only [BitVec.ult_iff_toNat_lt, ← not_le, ite_not]

theorem maxnWord_eq (x y : Word) : (if x.ult y then y else x) = if x.toNat ≤ y.toNat then y else x := by
  simp only [BitVec.ult_iff_toNat_lt]
  exact ite_lt_eq_ite_le (fun _ _ => BitVec.eq_of_toNat_eq) x y

end Sys2Proof.Machine

namespace Sys2Proof.Proofs

open Sys2Proof.Machine

/-- Settles O1: ADD, SUB and MUL are the exact operation cut or limited, the others what their word function
comes to. -/
theorem integerArithmeticCompletes : Obligations.IntegerArithmeticCompletes := by
  unfold Obligations.IntegerArithmeticCompletes
  have hadd := computes3_of_arith (mk := .add) (h := (· + ·)) (fun _ _ _ _ _ => rfl) fun x y => by
    rw [BitVec.ofInt_add, BitVec.ofInt_toInt, BitVec.ofInt_toInt]
  have hsub := computes3_of_arith (mk := .sub) (h := (· - ·)) (fun _ _ _ _ _ => rfl) fun x y => by
    rw [Int.sub_eq_add_neg, BitVec.ofInt_add, BitVec.ofInt_neg, BitVec.ofInt_toInt, BitVec.ofInt_toInt,
      BitVec.sub_eq_add_neg]
  have hmul := computes3_of_arith (mk := .mul) (h := (· * ·)) (fun _ _ _ _ _ => rfl) fun x y => by
    rw [BitVec.ofInt_mul, BitVec.ofInt_toInt, BitVec.ofInt_toInt]
  refine ⟨⟨hadd, hsub, hmul, computes2_addi, short3_of_computes3 hadd fun _ _ _ _ => rfl,
    short3_of_computes3 hsub fun _ _ _ _ => rfl, fun s n d imm => ?_⟩, ?_, ?_, ?_, ?_, ?_, ?_, ?_, ?_, ?_, ?_⟩
  · intro i h hm
    have he : (imm.signExtend 10).signExtend 64 = imm.signExtend 64 :=
      congrArg (BitVec.ofInt 64) (BitVec.toInt_signExtend_of_le (by decide))
    refine (computes2_addi (imm.signExtend 10) s _ _ _ h).trans ?_
    dsimp only
    rw [if_pos hm, he]
  · exact computes3_of_run fun _ _ _ _ _ => by simp only [← mulhi_eq]; rfl
  · exact computes3_of_run fun _ _ _ _ _ => by simp only [← mulhn_eq]; rfl
  · exact computes3_of_run fun _ _ _ _ _ => by simp only [← sdiv64_eq]; rfl
  · exact computes3_of_run fun _ _ _ _ _ => rfl
  · exact computes3_of_run fun _ _ _ _ _ => by simp only [← srem64_eq]; rfl
  · exact computes3_of_run fun _ _ _ _ _ => rfl
  · exact computes3_of_run fun _ _ _ _ _ => by simp only [← minWord_eq]; rfl
  · exact computes3_of_run fun _ _ _ _ _ => by simp only [← maxWord_eq]; rfl
  · exact computes3_of_run fun _ _ _ _ _ => by simp only [← minnWord_eq]; rfl
  · exact computes3_of_run fun _ _ _ _ _ => by simp only [← maxnWord_eq]; rfl

end Sys2Proof.Proofs
end

section
/-! ## Accesses to the own scratchpad (O9, O10) -/

namespace Sys2Proof.Machine

variable {s : State}

/-! ### The poison of words (R108, R202) -/

theorem spadWord_inj {core w v : Nat} (h : spadWord core w = spadWord core v) : w = v := Nat.add_left_cancel h

theorem State.spadPois_setSpadPois (core w v : Nat) (b : Bool) :
    (s.setSpadPois core w b).spadPois core v = if v = w then b else s.spadPois core v := by
  unfold State.spadPois State.setSpadPois
  rw [SMap.get_put]
  by_cases h : v = w
  · rw [if_pos h, if_pos (congrArg _ h)]
  · rw [if_neg h, if_neg fun e => h (spadWord_inj e)]

/-- A check of the bits of one word leaves the poison of the others. -/
theorem State.spadPois_checkData {core w v : Nat} (h : v ≠ w) :
    (s.checkData core w).spadPois core v = s.spadPois core v := by
  unfold State.checkData
  dsimp only
  split
  · rfl
  · split
    · change ((s.freshWord core w).setSpadPois core w true).spadPois core v = _
      rw [State.spadPois_setSpadPois, if_neg h]
      rfl
    · rfl

/-- A pass over a list reads at the end as its last step on `x` left it, when the other steps keep that. -/
theorem foldl_eq_of_mem {α β : Type} {f : State → α → State} {read : State → β} {x : α} {v : β}
    (hx : ∀ s, read (f s x) = v) (hy : ∀ s y, y ≠ x → read (f s y) = read s) {l : List α} (hl : x ∈ l) :
    read (l.foldl f s) = v := by
  have keep {t : State} (ht : read t = v) (r : List α) : read (r.foldl f t) = v :=
    foldl_keeps (read · = v) f (fun t y e => by
      by_cases hyx : y = x
      · exact hyx ▸ hx t
      · exact (hy t y hyx).trans e) r t ht
  induction l generalizing s with
  | nil => cases hl
  | cons y r ih =>
    obtain rfl | hr := List.mem_cons.1 hl
    · exact keep (hx s) r
    · exact ih hr

theorem mem_wordsOf {o n w : Nat} (h1 : o ≤ 8 * w) (h2 : 8 * w + 8 ≤ o + n) : w ∈ wordsOf o n := by
  unfold wordsOf
  rw [if_neg (by omega)]
  exact List.mem_map.2 ⟨w - o / 8, List.mem_range.2 (by omega), by omega⟩

/-- A word written whole takes the poison given (R108). -/
theorem State.spadPois_writeSpad {core o w : Nat} {bs : List Byte} {ps : List Bool} (h1 : o ≤ 8 * w)
    (h2 : 8 * w + 8 ≤ o + bs.length) : (s.writeSpad core o bs ps).spadPois core w = ps.getD (w - o / 8) false := by
  unfold State.writeSpad
  refine foldl_eq_of_mem (read := fun t => t.spadPois core w) (fun t => ?_) (fun t v hv => ?_) (mem_wordsOf h1 h2)
  · dsimp only
    rw [if_pos ⟨h1, h2⟩, State.spadPois_setSpadPois, if_pos rfl]
  · dsimp only
    split
    · exact (State.spadPois_setSpadPois ..).trans (if_neg hv.symm)
    · rw [State.spadPois_setSpadPois, if_neg hv.symm, State.spadPois_checkData hv.symm]

theorem State.byte_writeSpad_add {core o j : Nat} {bs : List Byte} {ps : List Bool} (h : j < bs.length) :
    (s.writeSpad core o bs ps).byte (spadKey core o + j) = bs[j] := by
  unfold State.byte
  rw [State.writeSpad_mem]
  exact get_putBytes_add bs _ _ j h

/-! ### Loads (R106 to R109) -/

theorem ldSize_cases (ty : LdTy) : ldSize ty = 1 ∨ ldSize ty = 2 ∨ ldSize ty = 4 ∨ ldSize ty = 8 := by
  cases ty <;> decide

/-- A load of one value from the own scratchpad touches one word, whose poison it takes. -/
theorem scalarLoad_own {i : Instr} {ty : LdTy} {d : Reg} {srcs : List Reg} {ea : Word} {o : Nat} (hc : s.clean srcs)
    (h : s.OwnWords ea o (ldSize ty)) (ht : s.tagsReady o (ldSize ty) true) :
    scalarLoad (s.opened i) ty d srcs ea = .done ((s.opened i).setG d
      (ldExtend ty (s.bytes (spadKey s.issue.core o) (ldSize ty))) (s.spadPois s.issue.core (o / 8))) := by
  have hd : ldSize ty ∣ 2 ^ 20 := by cases ty <;> decide
  unfold scalarLoad
  rw [loadAt_own (clean_opened hc) h.opened ht.opened, wordsOf_one (h.align hd) (ldSize_cases ty)]
  simp [State.result]

/-- An aligned pair lies in two words. -/
theorem loadPair_own {i : Instr} {d : Reg} {srcs : List Reg} {ea : Word} {o : Nat} (hc : s.clean srcs) (h : s.OwnWords ea o 16)
    (ht : s.tagsReady o 16 true) :
    (loadAt (s.opened i) srcs ea 16 fun s bs ps =>
      .done ((s.setG d (leWord (bs.take 8)) (ps.getD 0 false)).setG (Reg.plus d 1) (leWord (bs.drop 8))
        (ps.getD 1 false))) =
      .done (((s.opened i).setG d (s.word (spadKey s.issue.core o)) (s.spadPois s.issue.core (o / 8))).setG
        (Reg.plus d 1) (s.word (spadKey s.issue.core o + 8)) (s.spadPois s.issue.core (o / 8 + 1))) := by
  have ho : o % 16 = 0 := h.align (by decide)
  rw [loadAt_own (clean_opened hc) h.opened ht.opened, wordsOf_two (by omega), State.bytes_opened]
  rfl

/-! ### Stores (R106 to R109) -/

theorem scalarStore_own {i : Instr} {addressed rel : Bool} {ty : StTy} {d : Reg} {srcs : List Reg} {ea : Word}
    {o : Nat} (hc : s.clean srcs) (hr : s.mayStore rel) (h : s.OwnWords ea o (stSize ty)) :
    scalarStore (s.opened i) addressed rel ty d srcs ea =
      .done ((s.opened i).writeSpad s.issue.core o (leBytes (stSize ty) (s.gv d).toNat) [s.gp d]) :=
  storeAt_own (clean_opened hc) (by rw [length_leBytes]; exact h.opened) hr

end Sys2Proof.Machine

namespace Sys2Proof.Proofs

open Sys2Proof.Machine

/-- Settles O9: a load ends with the words it finds, a store with the words written. -/
theorem ownScratchpadLoadsAndStoresComplete : Obligations.OwnScratchpadLoadsAndStoresComplete := by
  unfold Obligations.OwnScratchpadLoadsAndStoresComplete
  refine ⟨fun s g d a b ty off o => ?_, fun s g d a b ty off o => ?_⟩
  · intro key word bad
    refine ⟨fun h hc ho ht => exec_done rfl h (scalarLoad_own hc ho ht),
      fun h hc ho ht => exec_done rfl h (scalarLoad_own hc ho ht),
      fun h hc ho ht => exec_done rfl h (scalarLoad_own (ty := .n32) hc ho ht),
      fun h hc ho ht => exec_done rfl h (scalarLoad_own (ty := .n64) hc ho ht),
      fun n d a h hc ho ht => exec_done rfl h (scalarLoad_own (ty := .n64) hc ho ht),
      fun h hc ho ht => exec_done rfl h (loadPair_own hc ho ht)⟩
  · intro wrote low free
    refine ⟨fun h hc hr ho => exec_done rfl h (scalarStore_own hc hr ho),
      fun h hc hr ho => exec_done rfl h (scalarStore_own hc hr ho),
      fun h hc hr ho => exec_done rfl h (scalarStore_own (ty := .n32) hc hr ho),
      fun h hc hr ho => exec_done rfl h (scalarStore_own (ty := .n64) hc hr ho),
      fun n d a h hc hr ho => exec_done rfl h (scalarStore_own (ty := .n64) hc hr ho), fun h hc hr ho => ?_⟩
    refine exec_done rfl h (storeAt_own (clean_opened hc) ?_ hr)
    rw [List.length_append, length_leBytes, length_leBytes]
    exact ho.opened

/-- Settles O10: the bytes by what a write of memory leaves, the poison by the step of the write at that word. -/
theorem scratchpadStoreReadsBack : Obligations.ScratchpadStoreReadsBack := by
  unfold Obligations.ScratchpadStoreReadsBack
  intro s core o bs ps t
  refine ⟨fun j hj => ?_, fun k hk => State.byte_writeSpad_of_lt s core o bs ps hk,
    fun w h1 h2 => State.spadPois_writeSpad h1 h2⟩
  rw [List.getD_eq_getElem _ _ hj]
  exact State.byte_writeSpad_add hj

end Sys2Proof.Proofs
end

section
/-! ## What loads and stores leave alone (O58, O59) -/

namespace Sys2Proof.Machine

variable {s t u x : State}

/-! ### Steps that reach no byte, strand or tile -/

/-- State `t` has the bytes, the strands, the tiles and the issue of state `s`. -/
structure State.Steady (s t : State) : Prop where
  mem : t.mem = s.mem
  issue : t.issue = s.issue
  strands : ∀ n, (t.core n).strands = (s.core n).strands
  tiles : ∀ n, (t.core n).tiles = (s.core n).tiles

namespace State.Steady

theorem refl (s : State) : s.Steady s := ⟨rfl, rfl, fun _ => rfl, fun _ => rfl⟩

theorem trans (h : s.Steady t) (k : t.Steady u) : s.Steady u :=
  ⟨k.mem.trans h.mem, k.issue.trans h.issue, fun n => (k.strands n).trans (h.strands n),
    fun n => (k.tiles n).trans (h.tiles n)⟩

theorem of_eq (hm : t.mem = s.mem) (hi : t.issue = s.issue) (hc : t.cores = s.cores) : s.Steady t :=
  ⟨hm, hi, fun _ => by unfold State.core; rw [hc], fun _ => by unfold State.core; rw [hc]⟩

theorem me (h : s.Steady t) : t.me = s.me := by
  unfold State.me State.strand
  rw [h.issue, h.strands]

theorem setCore (h : s.Steady t) {n : Nat} {c : Core} (hs : c.strands = (t.core n).strands)
    (ht : c.tiles = (t.core n).tiles) : s.Steady (t.setCore n c) := by
  refine h.trans ⟨rfl, rfl, fun m => ?_, fun m => ?_⟩
  · rw [State.core_setCore]
    split
    · next e => rw [hs, e]
    · rfl
  · rw [State.core_setCore]
    split
    · next e => rw [ht, e]
    · rfl

theorem setCluster (h : s.Steady t) (n : Nat) (k : Cluster) : s.Steady (t.setCluster n k) :=
  h.trans (of_eq rfl rfl rfl)

theorem withMan (h : s.Steady t) (m : Manage) : s.Steady { t with man := m } := h.trans (of_eq rfl rfl rfl)

theorem tally (h : s.Steady t) (code : Code) : s.Steady (t.tally code) := h.withMan _

theorem withNextId (h : s.Steady t) (n : Nat) : s.Steady { t with nextId := n } := h.trans (of_eq rfl rfl rfl)

theorem foldl {α : Type} {f : State → α → State} (hf : ∀ (s : State) a, s.Steady (f s a)) (l : List α) (s : State) :
    s.Steady (l.foldl f s) :=
  foldl_keeps s.Steady f (fun t a h => h.trans (hf t a)) l s (refl s)

end State.Steady

/-! ### Checks of words, requests and posted stores -/

theorem State.steady_freshWord (core w : Nat) : s.Steady (s.freshWord core w) := .of_eq rfl rfl rfl

theorem State.steady_setSpadPois (core w : Nat) (b : Bool) : s.Steady (s.setSpadPois core w b) := .of_eq rfl rfl rfl

theorem State.steady_checkTag (core w : Nat) : s.Steady (s.checkTag core w) := by
  unfold State.checkTag
  dsimp only
  split
  · exact .refl s
  · exact .of_eq rfl rfl rfl

theorem State.steady_checkData (core w : Nat) : s.Steady (s.checkData core w) := by
  unfold State.checkData
  dsimp only
  split
  · refine .tally (.setCore ?_ ?_ ?_) _
    · exact (State.steady_freshWord core w).withMan _
    · rfl
    · rfl
  · split
    · exact .of_eq rfl rfl rfl
    · exact .refl s

theorem State.steady_checkTags (core : Nat) (ws : List Nat) : s.Steady (s.checkTags core ws) :=
  .foldl (fun _ w => State.steady_checkTag core w) ws s

theorem State.steady_readSpad (core o n : Nat) : s.Steady (s.readSpad core o n).2.2 :=
  .foldl (fun _ w => (State.steady_checkTag core w).trans (State.steady_checkData core w)) _ s

theorem State.steady_startWalk (g : Nat) : s.Steady (s.startWalk g true) := .of_eq rfl rfl rfl

theorem State.steady_useTlb (ea : Word) : s.Steady (s.useTlb ea) := by
  unfold State.useTlb
  split
  · exact .setCore (.refl s) rfl rfl
  · exact .refl s

theorem State.steady_ask (elem : Nat) (op : ReqOp) (place : Place) (addr pa : Nat) (ea : Word) (size : Nat)
    (ver : Bool) : s.Steady (s.ask elem op place addr pa ea size ver) := by
  unfold State.ask
  dsimp only
  generalize (Req.mk ..) = r
  obtain ⟨k, f, n, m, y, e⟩ := State.sendReq_eq (s := { s with nextId := s.nextId + 1, reqs := s.reqs ++ [r] }) r
  rw [e]
  exact .of_eq rfl rfl rfl

theorem State.steady_sendPacket (cl m path : Nat) (op : PktOp) (pa : Nat) (bs : List Byte) (oflag : Bool)
    (aux : BitVec 7) (args : List Word) : s.Steady (s.sendPacket cl m path op pa bs oflag aux args).2 := by
  obtain ⟨k, f, n, x, h⟩ := State.sendPacket_eq (s := s) cl m path op pa bs oflag aux args
  rw [h]
  exact .of_eq rfl rfl rfl

theorem State.steady_sendStore (core : Nat) (e : WbEntry) (m path : Nat) : s.Steady (s.sendStore core e m path) := by
  unfold State.sendStore
  dsimp only
  split <;>
    exact .setCore (.setCluster (.setCluster (State.steady_sendPacket ..) _ _) _ _) rfl rfl

theorem State.steady_pump (core n : Nat) : s.Steady (s.pump core n) := by
  induction n generalizing s with
  | zero => exact .refl s
  | succ n ih =>
    unfold State.pump
    split
    · exact .refl s
    · exact (State.steady_sendStore ..).trans ih

theorem State.steady_post (e : WbEntry) : s.Steady (s.post e) := by
  unfold State.post State.pumpCore
  refine .trans (.setCore (.withNextId (.refl s) _) ?_ ?_) (State.steady_pump _ _)
  · rfl
  · rfl

/-- A write of a scratchpad looks at check bits and sets poison before it writes its bytes (R202). -/
theorem State.exists_steady_writeSpad (core o : Nat) (bs : List Byte) (ps : List Bool) :
    ∃ u, s.Steady u ∧ s.writeSpad core o bs ps = u.putBytes (spadKey core o) bs := by
  refine ⟨_, .foldl (fun u w => ?_) (wordsOf o bs.length) s, rfl⟩
  dsimp only
  split
  · exact (State.steady_freshWord core w).trans (State.steady_setSpadPois ..)
  · exact (State.steady_checkData core w).trans (State.steady_setSpadPois ..)

/-! ### What an access leaves -/

/-- State `t` is state `s` but for the bytes that `ks` holds of, and of the issuing strand for the registers `rs`
and what a trap, a wait and the end of an instruction change; the tiles of its core stand. -/
structure State.Accessed (rs : List Reg) (ks : Nat → Prop) (s t : State) : Prop where
  core : t.issue.core = s.issue.core
  slot : t.issue.slot = s.issue.slot
  byte : ∀ k, ¬ ks k → t.byte k = s.byte k
  tiles : (t.core s.issue.core).tiles = (s.core s.issue.core).tiles
  mine : s.me.Kept s.mw.rm rs [] t.me

variable {rs : List Reg} {ks : Nat → Prop}

namespace State.Accessed

theorem steady (h : s.Accessed rs ks t) (k : t.Steady u) : s.Accessed rs ks u :=
  ⟨k.issue ▸ h.core, k.issue ▸ h.slot, fun n hn => (State.byte_congr k.mem n).trans (h.byte n hn),
    (k.tiles _).trans h.tiles, k.me ▸ h.mine⟩

theorem setMe (h : s.Accessed rs ks t) {a : Strand} (ha : s.me.Kept s.mw.rm rs [] a) :
    s.Accessed rs ks (t.setMe a) := by
  refine ⟨h.core, h.slot, h.byte, ?_, by rwa [State.me_setMe]⟩
  rw [← h.tiles, State.core_setMe]
  split
  · next e => rw [e]; rfl
  · rfl

theorem setG (h : s.Accessed rs ks t) {d : Reg} (hd : d ∈ rs) (v : Word) (p : Bool) :
    s.Accessed rs ks (t.setG d v p) := by
  unfold State.setG
  split
  · exact h.steady (.setCore (.refl _) rfl rfl)
  · exact h.setMe (h.mine.setReg hd _)

theorem retire (h : s.Accessed rs ks t) (pc : Word) : s.Accessed rs ks (t.retire pc) := by
  have hp : t.Steady t.popPort := by
    unfold State.popPort
    split
    · exact .setCore (.refl t) rfl rfl
    · exact .refl t
  rw [State.retire_eq]
  exact (h.steady hp).setMe (h.mine.retired pc)

theorem trap (h : s.Accessed rs ks t) (cause : BitVec 5) (code : Code) (v pc : Word) (len : Nat) :
    s.Accessed rs ks (t.trap t.issue.core t.issue.slot cause code v pc len) := by
  have man {u : State} (hu : s.Accessed rs ks u) (m : Manage) : s.Accessed rs ks { u with man := m } :=
    hu.steady (.withMan (.refl u) m)
  by_cases hd : t.me.priv = false ∨ t.me.estat.getLsbD 7 = true
  · obtain ⟨m, e⟩ := State.trap_own (s := t) (cause := cause) (code := code) (v := v) (pc := pc) (len := len) hd
    rw [e]
    exact (man h m).setMe (h.mine.enter ..)
  · rw [not_or] at hd
    obtain ⟨m, m', e⟩ := State.trap_double (s := t) (cause := cause) (code := code) (v := v) (pc := pc)
      (len := len) (Bool.eq_true_of_not_eq_false hd.1) (Bool.eq_false_of_not_eq_true hd.2)
    rw [e]
    refine man (.setMe ?_ h.mine.halted) m'
    exact (man h m).steady (.setCore (.refl _) rfl rfl)

/-- A write of the own scratchpad changes the bytes written alone. -/
theorem writeSpad (h : s.Accessed rs ks t) {core o : Nat} {bs : List Byte} (ps : List Bool)
    (hk : ∀ j, j < bs.length → ks (spadKey core (o + j))) : s.Accessed rs ks (t.writeSpad core o bs ps) := by
  obtain ⟨u, hu, e⟩ := State.exists_steady_writeSpad (s := t) core o bs ps
  have hs := h.steady hu
  rw [e]
  refine ⟨hs.core, hs.slot, fun k hn => ?_, hs.tiles, hs.mine⟩
  rw [State.byte_putBytes_of_lt, hs.byte k hn]
  by_contra hc
  refine hn (Eq.subst ?_ (hk (k - spadKey core o) (by omega)))
  unfold spadKey at hc ⊢
  omega

end State.Accessed

/-! ### Results -/

/-- A result of an instruction whose state is as `State.Accessed` says. -/
inductive Res.Accessed (rs : List Reg) (ks : Nat → Prop) (s : State) : Res → Prop
  | done {t : State} (h : s.Accessed rs ks t) : Accessed rs ks s (.done t)
  | trap {t : State} (h : s.Accessed rs ks t) (cause : BitVec 5) (code : Code) (v : Word) :
    Accessed rs ks s (.trap t cause code v)
  | hold {t : State} (h : s.Accessed rs ks t) (on : WaitOn) (got : List (Nat × Answer)) :
    Accessed rs ks s (.hold t on got)
  | await {t : State} (h : s.Accessed rs ks t) (n : Nat) (got : List (Nat × Answer)) :
    Accessed rs ks s (.await t n got)

theorem Res.Accessed.state {r : Res} (h : r.Accessed rs ks s) : s.Accessed rs ks r.state := by
  have waits {t : State} (h : s.Accessed rs ks t) (f : Flight) :
      s.Accessed rs ks { t.setMe { t.me with st := .waiting, flight := some f } with nextId := t.nextId + 1 } :=
    (h.setMe (h.mine.waiting f)).steady (.withNextId (.refl _) _)
  cases h with
  | done h => exact h.retire _
  | trap h cause code v => exact h.trap ..
  | hold h on got => exact waits h _
  | await h n got => exact waits h _

theorem Res.Accessed.issued (ea : Word) {r : Res} (h : r.Accessed rs ks s) : (r.issued ea).Accessed rs ks s := by
  cases h with
  | done h => exact .done h
  | trap h cause code v => exact .trap h ..
  | await h n got => exact .await h ..
  | hold h on got =>
    unfold Res.issued
    dsimp only
    split
    · exact .hold h ..
    · split
      · exact .hold h ..
      · refine .hold (h.setMe ?_) ..
        exact { h.mine with registers := h.mine.registers, predicates := h.mine.predicates }

/-! ### The parts of an access -/

/-- The bytes of the own scratchpad of `core` that `n` bytes at `ea` name (R34). -/
def ownBytes (core : Nat) (ea : Word) (n k : Nat) : Prop :=
  ∃ o j, regionOf core ea = .spad core o ∧ j < n ∧ k = spadKey core (o + j)

theorem State.regionOf_of_spot {s : State} {ea : Word} {c o : Nat} (h : s.spot ea = some (.spad c o)) :
    regionOf s.issue.core ea = .spad c o := by
  unfold State.spot at h
  split at h
  · next hr =>
    cases h
    exact hr
  · cases hl : s.leafAt ea <;> rw [hl] at h <;> cases h
  · cases h

section
variable (h : s.Accessed rs ks x)
include h

theorem Res.Accessed.consume (l : List Reg) {k : State → Res} (hk : (k x).Accessed rs ks s) :
    (Machine.consume x l k).Accessed rs ks s := by
  unfold Machine.consume
  split
  · exact .trap h ..
  · exact hk

theorem Res.Accessed.andThen (c : Chk) {k : State → Res} (hk : (k x).Accessed rs ks s) :
    (c.andThen x k).Accessed rs ks s := by
  unfold Chk.andThen
  split
  · exact hk
  · exact .trap h ..
  · exact .hold (h.steady (State.steady_startWalk _)) ..

theorem Res.Accessed.answered {fin : State → Answer → Res} {first : State → Res}
    (hf : ∀ a, (fin x a).Accessed rs ks s) (hk : (first x).Accessed rs ks s) :
    (Machine.answered x fin first).Accessed rs ks s := by
  unfold Machine.answered
  split
  · exact .trap h ..
  · exact hf _
  · exact hk

theorem Res.Accessed.releaseIf (rel : Bool) {k : State → Res} (hk : (k x).Accessed rs ks s) :
    (Machine.releaseIf x rel k).Accessed rs ks s := by
  unfold Machine.releaseIf releasing unlessError
  split
  · split
    · split
      · refine .trap (h.setMe ?_) ..
        exact { h.mine with registers := h.mine.registers, predicates := h.mine.predicates }
      · exact hk
    · exact .hold h ..
  · exact hk

theorem Res.Accessed.askOne (p : Spot) (ea : Word) (op : ReqOp) (n : Nat) :
    (Machine.askOne x p ea op n).Accessed rs ks s := by
  unfold Machine.askOne
  dsimp only
  split
  · exact .hold h ..
  · exact .await (h.steady ((State.steady_useTlb ea).trans (State.steady_ask ..))) ..

/-- A read ends with what `fin` makes of the bytes found, traps, waits, or asks for them. -/
theorem Res.Accessed.readUnit (ea : Word) (n : Nat) (op : ReqOp) {fin : State → List Byte → List Bool → Res}
    (hf : ∀ y bs ps, s.Accessed rs ks y → (fin y bs ps).Accessed rs ks s) :
    (Machine.readUnit x ea n op fin).Accessed rs ks s := by
  unfold Machine.readUnit
  split
  · exact .trap h ..
  · split
    · unfold ownTag
      dsimp only
      split
      · exact hf _ _ _ (h.steady ((State.steady_checkTags ..).trans (State.steady_readSpad ..)))
      · exact .hold (h.steady (State.steady_checkTags ..)) ..
    · exact .askOne h ..
  · exact .askOne h ..

theorem Res.Accessed.loadAt (srcs : List Reg) (ea : Word) (n : Nat) {fin : State → List Byte → List Bool → Res}
    (hf : ∀ y bs ps, s.Accessed rs ks y → (fin y bs ps).Accessed rs ks s) :
    (Machine.loadAt x srcs ea n fin).Accessed rs ks s := by
  unfold Machine.loadAt
  refine .answered h (fun a => ?_) (.issued ea (.consume h _ (.andThen h _ (.andThen h _ (.readUnit h _ _ _ hf)))))
  split
  · exact hf _ _ _ h
  · exact .done h

theorem Res.Accessed.scalarLoad (ty : LdTy) {d : Reg} (hd : d ∈ rs) (srcs : List Reg) (ea : Word) :
    (Machine.scalarLoad x ty d srcs ea).Accessed rs ks s :=
  .loadAt h _ _ _ fun _ _ _ hy => .done (hy.setG hd ..)

/-- A write beyond the core is posted, asked for, or waits: no byte is written yet (R109, R251). -/
theorem Res.Accessed.writeUnit (p : Spot) (ea : Word) (op : StoreOp) (bs : List Byte) (ps : List Bool) (n : Nat) :
    (Machine.writeUnit x p ea op bs ps n).Accessed rs ks s := by
  have posted : (postStore x p ea op bs ps).Accessed rs ks s := by
    unfold postStore
    dsimp only
    split
    · exact .hold h ..
    · split
      · exact .hold h ..
      · exact .done (h.steady ((State.steady_useTlb ea).trans (State.steady_post _)))
  have asked : (askWrite x p ea op bs n).Accessed rs ks s := by
    unfold askWrite
    dsimp only
    split
    · exact .hold h ..
    · split
      · exact .hold h ..
      · exact .await (h.steady ((State.steady_useTlb ea).trans (State.steady_ask ..))) ..
  unfold Machine.writeUnit
  split
  · split
    · exact asked
    · exact posted
  · exact posted

/-- A store writes the bytes that it names in the own scratchpad, or none yet. -/
theorem Res.Accessed.storeAt (addressed rel : Bool) (srcs : List Reg) (dirty : Option Reg) (ea : Word)
    {bs : List Byte} (ps : List Bool) {n : Nat} (hn : bs.length = n)
    (hk : ∀ k, ownBytes s.issue.core ea n k → ks k) :
    (Machine.storeAt x addressed rel srcs dirty ea bs ps).Accessed rs ks s := by
  unfold Machine.storeAt
  refine .answered h (fun _ => .done h) (.issued ea (.consume h _ (.andThen h _ ?_)))
  split
  · exact .trap h ..
  · next c o hs =>
    refine .releaseIf h _ ?_
    split
    · next hc =>
      split
      · exact .hold h ..
      · have hr := State.regionOf_of_spot hs
        rw [h.core] at hr hc
        subst hc
        exact .done (h.writeSpad ps fun j hj => hk _ ⟨o, j, hr, hn ▸ hj, rfl⟩)
    · exact .writeUnit h ..
  · refine .andThen h _ ?_
    split
    · exact .trap h ..
    · exact .andThen h _ (.releaseIf h _ (.writeUnit h ..))

end

/-! ### From a meaning to exec -/

/-- The state in which the issuing instruction is `i`, and takes the head of the port or does not. -/
def State.entered (s : State) (i : Instr) (pops : Bool) : State :=
  { s with issue := { s.issue with instr := i, pops := pops } }

theorem State.accessed_entered (s : State) (i : Instr) (b : Bool) : s.Accessed rs ks (s.entered i b) :=
  ⟨rfl, rfl, fun _ _ => rfl, rfl, .refl _⟩

theorem Res.Accessed.portGate_entered {i : Instr} {src dst : List Reg} {body : State → Res}
    (hb : ∀ b, (body (s.entered i b)).Accessed rs ks s) :
    (Machine.portGate (s.begun i) src dst body).Accessed rs ks s := by
  have h : s.Accessed rs ks (s.begun i) := s.accessed_entered i false
  unfold Machine.portGate
  split
  · exact hb false
  · split
    · exact .trap h ..
    · split
      · exact .hold h ..
      · split
        · exact .hold h ..
        · exact hb _

/-- An instruction leaves what its own meaning leaves. -/
theorem accessed_of_run {i : Instr} {g : Guard} {body : State → Res}
    (hb : ∀ b, (body (s.entered i b)).Accessed rs ks s) (hr : run i g s body = .next t) : s.Accessed rs ks t := by
  have h : s.Accessed rs ks (s.begun i) := s.accessed_entered i false
  have ht : t = (begin i g s body).state := by
    unfold run event at hr
    split at hr
    · cases hr
    · injection hr with hr
      exact hr.symm
  rw [ht, begin_eq]
  refine Res.Accessed.state ?_
  split
  · exact .trap h ..
  · split
    · exact .trap h ..
    · split
      · exact .done h
      · exact .portGate_entered hb

end Sys2Proof.Machine

namespace Sys2Proof.Proofs

open Sys2Proof.Machine

/-- Settles O58: whatever its outcome, a load writes its destinations alone. -/
theorem loadsChangeTheirDestinationsAlone : Obligations.LoadsChangeTheirDestinationsAlone := by
  unfold Obligations.LoadsChangeTheirDestinationsAlone
  intro i s t rs hi he
  have h : s.Accessed rs (fun _ => False) t := by
    have scalar {i : Instr} {g : Guard} {ty : LdTy} {d : Reg} {srcs : List Reg} {ea : State → Word}
        (hr : run i g s (fun s => scalarLoad s ty d srcs (ea s)) = .next t) : s.Accessed [d] (fun _ => False) t :=
      accessed_of_run (fun b => .scalarLoad (s.accessed_entered i b) ty List.mem_cons_self _ _) hr
    obtain ⟨g, ty, d, a, off, rfl, rfl⟩ | ⟨g, ty, d, a, b, rfl, rfl⟩ | ⟨g, d, a, off, rfl, rfl⟩ |
      ⟨n, d, a, rfl, rfl⟩ | ⟨g, d, a, rfl, rfl⟩ | ⟨g, d, a, rfl, rfl⟩ := hi
    · exact scalar he
    · exact scalar he
    · exact accessed_of_run (fun b => .loadAt (s.accessed_entered _ b) _ _ _ fun _ _ _ hy =>
        .done ((hy.setG List.mem_cons_self ..).setG (List.mem_cons_of_mem _ List.mem_cons_self) ..)) he
    · exact scalar he
    · exact scalar he
    · exact scalar he
  exact ⟨fun k => h.byte k not_false, h.mine.registers, fun n => h.mine.predicates n List.not_mem_nil, h.mine.shape,
    h.mine.snap, h.mine.tx, h.mine.task, h.mine.seed, h.tiles⟩

/-- Settles O59: whatever its outcome, a store writes the bytes that it names in its own scratchpad alone. -/
theorem storesChangeTheirBytesAlone : Obligations.StoresChangeTheirBytesAlone := by
  unfold Obligations.StoresChangeTheirBytesAlone
  intro i s t ea n hi he
  have h : s.Accessed [] (ownBytes s.issue.core ea n) t := by
    obtain ⟨g, ty, d, a, off, rfl, rfl, rfl⟩ | ⟨g, ty, d, a, b, rfl, rfl, rfl⟩ | ⟨g, d, a, off, rfl, rfl, rfl⟩ := hi
    · exact accessed_of_run (fun b => .storeAt (s.accessed_entered _ b) _ _ _ _ _ _ (length_leBytes ..) fun _ => id)
        he
    · exact accessed_of_run (fun b => .storeAt (s.accessed_entered _ b) _ _ _ _ _ _ (length_leBytes ..) fun _ => id)
        he
    · refine accessed_of_run (fun b => .storeAt (s.accessed_entered _ b) _ _ _ _ _ _ ?_ fun _ => id) he
      rw [List.length_append, length_leBytes, length_leBytes]
  refine ⟨fun k hk => h.byte k ?_, fun r => h.mine.registers r List.not_mem_nil,
    fun m => h.mine.predicates m List.not_mem_nil, h.mine.shape, h.mine.snap, h.mine.tx, h.mine.task, h.mine.seed,
    h.tiles⟩
  rintro ⟨o, j, hr, hj, e⟩
  exact hk o j hr hj e

end Sys2Proof.Proofs
end

section
/-! ## Tile arithmetic and logic (O26) -/

namespace Sys2Proof.Machine

variable {s : State} {i : Instr} {g : Guard} {h : Shape} {td ta tb : TReg}

/-- Sums, differences, products and quotients: of values rounded once, or of integers. -/
theorem exec_tileArith {fop : Nat → Val → Val → Val} {iop : Int → Int → Int}
    (he : exec i s = run i g s fun s => tileArith s td ta tb fop iop) (ht : s.TileReady h [ta, tb] [td])
    (hi : s.Issues i g) : if h.fmt.isFloat = true then
        exec i s = .next (s.fillsRounded i [ta, tb] td h
          (List.zipWith (fop s.mw.rm.toNat) (s.valsA h ta) (s.valsB h tb)) (s.elementPoison h [ta, tb]))
      else exec i s = .next (s.fillsInts i [ta, tb] td h (List.zipWith iop (s.ints h ta) (s.ints h tb))
        (s.elementPoison h [ta, tb])) := by
  split
  · next hf => exact exec_tile_fillsRounded he hi ht rfl (if_pos hf)
  · next hf => exact exec_tile_fillsInts he hi ht rfl (if_neg hf)

/-- The lesser or greater elements: by value in a narrow format, else with the operands' own bits. -/
theorem exec_tilePick {least : Bool} (he : exec i s = run i g s fun s => tilePick s td ta tb least)
    (ht : s.TileReady h [ta, tb] [td]) (hi : s.Issues i g) : if isNarrow h.fmt = true then
        exec i s = .next (s.fillsRounded i [ta, tb] td h
          (List.zipWith (pickVal least) (s.valsA h ta) (s.valsB h tb)) (s.elementPoison h [ta, tb]))
      else if h.fmt.isFloat = true then exec i s = .next (s.fills i [ta, tb] td h
        (List.zipWith (pickFloat h.fmt least) (s.rawA h ta) (s.rawB h tb)) (s.elementPoison h [ta, tb]) [])
      else exec i s = .next (s.fillsInts i [ta, tb] td h
        (List.zipWith (if least then min else max) (s.ints h ta) (s.ints h tb))
        (s.elementPoison h [ta, tb])) := by
  split
  · next hn => exact exec_tile_fillsRounded he hi ht rfl (if_pos hn)
  · next hn =>
    split
    · next hf => exact exec_tile_fills he hi ht rfl ((if_neg hn).trans (if_pos hf))
    · next hf =>
      rw [← pick_eq_min_or_max]
      exact exec_tile_fillsInts he hi ht rfl ((if_neg hn).trans (if_neg hf))

theorem exec_tfma (ht : s.TileReady h [ta, tb, td] [td]) (hi : s.Issues (.tfma g td ta tb) g) :
    if h.fmt.isFloat = true then exec (.tfma g td ta tb) s =
        .next (s.fillsRounded (.tfma g td ta tb) [ta, tb, td] td h (List.zipWith (Val.add s.mw.rm.toNat)
          (List.zipWith Val.mul (s.valsA h ta) (s.valsB h tb)) (s.vals h td)) (s.elementPoison h [ta, tb, td]))
      else exec (.tfma g td ta tb) s = .next (s.fillsInts (.tfma g td ta tb) [ta, tb, td] td h
        (List.zipWith (· + ·) (List.zipWith (· * ·) (s.ints h ta) (s.ints h tb)) (s.ints h td))
        (s.elementPoison h [ta, tb, td])) := by
  split
  · next hf => exact exec_tile_fillsRounded rfl hi ht rfl (if_pos hf)
  · next hf => exact exec_tile_fillsInts rfl hi ht rfl (if_neg hf)

theorem exec_tsel (ht : s.TileReady h [ta, tb, td] [td]) (hi : s.Issues (.tsel g td ta tb) g) :
    if isNarrow h.fmt = true then exec (.tsel g td ta tb) s =
        .next (s.fillsRounded (.tsel g td ta tb) [ta, tb, td] td h
          (chooseBy (((s.tile td).elems h).map (· != 0)) (s.vals h ta) (s.vals h tb))
          (s.elementPoison h [ta, tb, td]))
      else exec (.tsel g td ta tb) s = .next (s.fills (.tsel g td ta tb) [ta, tb, td] td h
        (chooseBy (((s.tile td).elems h).map (· != 0)) ((s.tile ta).elems h) ((s.tile tb).elems h))
        (s.elementPoison h [ta, tb, td]) []) := by
  split
  · next hn => exact exec_tile_fillsRounded rfl hi ht rfl (if_pos hn)
  · next hn => exact exec_tile_fills rfl hi ht rfl (if_neg hn)

/-- Logic works on raw bits in any format, and keeps the scale bytes of the first source (R114). -/
theorem exec_tileLogic {op : Nat → Nat → Nat} (he : exec i s = run i g s fun s => tileLogic s td ta tb op)
    (ht : s.TileReady h [ta, tb] [td]) (hi : s.Issues i g) : exec i s = .next (s.fills i [ta, tb] td h
      (List.zipWith op ((s.tile ta).elems h) ((s.tile tb).elems h)) (s.elementPoison h [ta, tb])
      (s.tile ta).scales) :=
  exec_tile_fills he hi ht rfl rfl

/-- Shifts take integer formats alone, and their amounts modulo the width (R125). -/
theorem exec_tileShift {op : Int → Nat → Int} (he : exec i s = run i g s fun s => tileShift s td ta tb op)
    (ht : s.TileReady h [ta, tb] [td]) (hf : h.fmt.isFloat = false) (hi : s.Issues i g) :
    exec i s = .next (s.fillsInts i [ta, tb] td h
      (List.zipWith op (s.ints h ta) (((s.tile tb).elems h).map (· % h.width))) (s.elementPoison h [ta, tb])) :=
  have hk : (!h.fmt.isFloat) = true := by rw [hf]; rfl
  exec_tile_fillsInts he hi ht hk rfl

/-- A compare sets every bit of an element where it holds, of values or of integers (R125). -/
theorem exec_tileCmp {cc : FCond} (he : exec i s = run i g s fun s => tileCmp s td ta tb cc)
    (ht : s.TileReady h [ta, tb] [td]) (hi : s.Issues i g) : exec i s = .next (s.fills i [ta, tb] td h
      (if h.fmt.isFloat then List.zipWith (fun x y => if fcondHolds cc (x.order y) then 2 ^ h.width - 1 else 0)
          (s.valsA h ta) (s.valsB h tb)
        else List.zipWith (fun x y => if fcondHolds cc (some (Ord.compare x y)) then 2 ^ h.width - 1 else 0)
          (s.ints h ta) (s.ints h tb)) (s.elementPoison h [ta, tb]) []) :=
  exec_tile_fills he hi ht rfl rfl

end Sys2Proof.Machine

namespace Sys2Proof.Proofs

open Sys2Proof.Machine

/-- Settles O26: each instruction by the shared operation that carries it out. -/
theorem tileArithmeticAndLogicComplete : Obligations.TileArithmeticAndLogicComplete := by
  unfold Obligations.TileArithmeticAndLogicComplete
  refine ⟨fun s g td ta tb h => ⟨fun ht => ⟨exec_tileArith (fop := fun rm x y => x.add rm y) (iop := (· + ·)) rfl ht,
      exec_tileArith (fop := fun rm x y => x.add rm y.neg) (iop := (· - ·)) rfl ht,
      exec_tileArith (fop := fun _ x y => x.mul y) (iop := (· * ·)) rfl ht,
      exec_tileArith (fop := fun _ x y => x.div y) (iop := intDiv) rfl ht, fun least => ?_⟩,
      fun ht => ⟨exec_tfma ht, exec_tsel ht⟩⟩,
    fun s g td ta tb h ht => ⟨exec_tileLogic rfl ht, exec_tileLogic rfl ht, exec_tileLogic rfl ht,
      exec_tileShift rfl ht, exec_tileShift rfl ht, exec_tileCmp rfl ht, exec_tileCmp rfl ht, exec_tileCmp rfl ht,
      exec_tileCmp rfl ht⟩⟩
  cases least
  · exact exec_tilePick rfl ht
  · exact exec_tilePick rfl ht

end Sys2Proof.Proofs
end

section
/-! ## A tile written whole (O25) -/

namespace Sys2Proof.Machine

/-! ### Elements packed (R113) -/

theorem packElems_succ (w e : Nat) (l : List Nat) : packElems w (e + 1) l = 2 ^ w * packElems w e l := by
  induction l generalizing e with
  | nil => rfl
  | cons x r ih =>
    rw [packElems, packElems, ih, Nat.succ_mul, Nat.pow_add]
    ring

theorem packElems_zero_cons (w x : Nat) (r : List Nat) :
    packElems w 0 (x :: r) = x % 2 ^ w + 2 ^ w * packElems w 0 r := by
  rw [packElems, packElems_succ, Nat.zero_mul, Nat.pow_zero, Nat.mul_one]

theorem packElems_lt (w : Nat) (l : List Nat) : packElems w 0 l < 2 ^ (l.length * w) := by
  induction l with
  | nil => exact Nat.two_pow_pos _
  | cons x r ih =>
    have hx : x % 2 ^ w < 2 ^ w := Nat.mod_lt _ (Nat.two_pow_pos w)
    rw [packElems_zero_cons, List.length_cons, Nat.succ_mul, Nat.pow_add, Nat.mul_comm (2 ^ (r.length * w))]
    calc x % 2 ^ w + 2 ^ w * packElems w 0 r < 2 ^ w * (packElems w 0 r + 1) := by rw [Nat.mul_add]; omega
      _ ≤ 2 ^ w * 2 ^ (r.length * w) := Nat.mul_le_mul_left _ ih

/-- Elements that fit into `b` bits lose nothing there. -/
theorem toNat_ofNat_packElems {w b : Nat} {l : List Nat} (h : l.length * w ≤ b) :
    (BitVec.ofNat b (packElems w 0 l)).toNat = packElems w 0 l :=
  Nat.mod_eq_of_lt ((packElems_lt w l).trans_le (Nat.pow_le_pow_right two_pos h))

theorem packElems_div_mod (w e : Nat) (l : List Nat) :
    packElems w 0 l / 2 ^ (e * w) % 2 ^ w = l.getD e 0 % 2 ^ w := by
  induction l generalizing e with
  | nil => simp [packElems]
  | cons x r ih =>
    rw [packElems_zero_cons]
    cases e with
    | zero => simp
    | succ e =>
      rw [List.getD_cons_succ, ← ih e, Nat.succ_mul, Nat.add_comm (e * w) w, Nat.pow_add, ← Nat.div_div_eq_div_mul,
        Nat.add_mul_div_left _ _ (Nat.two_pow_pos w), Nat.div_eq_of_lt (Nat.mod_lt _ (Nat.two_pow_pos w)),
        Nat.zero_add]

/-! ### The poison of strips (R115) -/

/-- Bits set one by one, each where its test holds. -/
theorem getLsbD_foldl_or (c : Nat → Bool) (f : Nat → Nat) {q : Nat} (hq : q < 32) (n : Nat) :
    ((List.range n).foldl (fun (m : BitVec 32) e => if c e then m ||| BitVec.ofNat 32 (2 ^ f e) else m) 0).getLsbD q =
      true ↔ ∃ e, e < n ∧ f e = q ∧ c e = true := by
  induction n with
  | zero => simp
  | succ n ih =>
    rw [Nat.exists_lt_succ_right, ← ih, List.range_succ, List.foldl_append, List.foldl_cons, List.foldl_nil]
    by_cases hc : c n = true
    · rw [if_pos hc, BitVec.getLsbD_or, BitVec.getLsbD_ofNat, Nat.testBit_two_pow]
      simp [hc, hq]
    · simp [hc]

/-- A strip is poisoned where one of its elements is. -/
theorem getLsbD_stripPoison (w : Nat) (ps : List Bool) {q : Nat} (hq : q < 32) :
    (stripPoison w ps).getLsbD q = true ↔ ∃ e, e < ps.length ∧ stripOf w e = q ∧ ps.getD e false = true :=
  getLsbD_foldl_or (fun e => ps.getD e false) (stripOf w) hq ps.length

/-! ### The entry (R112, R117) -/

/-- The entry after a whole write: the chain bit that stood, full, and a shape. -/
def wholeEntry (e : Word) (n : Nat) : Word := (e &&& 0x8000000000000000) ||| 0x4000000000000000 ||| BitVec.ofNat 64 n

theorem getLsbD_wholeEntry {e : Word} {n k : Nat} (hn : n < 2 ^ 62) (hk : 62 ≤ k) : (wholeEntry e n).getLsbD k =
    (e.getLsbD k && (0x8000000000000000 : Word).getLsbD k || (0x4000000000000000 : Word).getLsbD k) := by
  have : n.testBit k = false := Nat.testBit_lt_two_pow (Nat.lt_of_lt_of_le hn (Nat.pow_le_pow_right two_pos hk))
  simp only [wholeEntry, BitVec.getLsbD_or, BitVec.getLsbD_and, BitVec.getLsbD_ofNat, this, Bool.and_false,
    Bool.or_false]

theorem wholeEntry_full {e : Word} {n : Nat} (hn : n < 2 ^ 62) : (wholeEntry e n).getLsbD 62 = true := by
  rw [getLsbD_wholeEntry hn (Nat.le_refl _)]
  simp

theorem wholeEntry_chain {e : Word} {n : Nat} (hn : n < 2 ^ 62) :
    (wholeEntry e n).getLsbD 63 = e.getLsbD 63 := by
  rw [getLsbD_wholeEntry hn (by decide)]
  simp

theorem wholeEntry_shape {e : Word} {n : Nat} (hn : n < 2 ^ 24) : wholeEntry e n &&& 0xFFFFFF = BitVec.ofNat 64 n := by
  apply BitVec.eq_of_toNat_eq
  have hn' : n < 2 ^ 64 := by omega
  have mask : (0xFFFFFF : Word).toNat = 2 ^ 24 - 1 := rfl
  have h63 : (0x8000000000000000 : Word).toNat % 2 ^ 24 = 0 := rfl
  have h62 : (0x4000000000000000 : Word).toNat % 2 ^ 24 = 0 := rfl
  rw [BitVec.toNat_and, mask, Nat.and_two_pow_sub_one_eq_mod, wholeEntry, BitVec.toNat_or, BitVec.toNat_or,
    BitVec.toNat_and, Nat.or_mod_two_pow, Nat.or_mod_two_pow, Nat.and_mod_two_pow, h63, h62, Nat.and_zero,
    BitVec.toNat_ofNat, Nat.mod_eq_of_lt hn', Nat.mod_eq_of_lt hn]
  simp

/-! ### The shape (R30) -/

theorem shapeOf_word {h : Shape} (hr : 0 < h.rows) (hr' : h.rows ≤ 32) (hc : 0 < h.cols) (hc' : h.cols ≤ 256) :
    shapeOf (BitVec.ofNat 64 h.word) = some h := by
  have hk : h.fmt.code.toNat < 16 := h.fmt.code.isLt
  have hw : (BitVec.ofNat 64 h.word).toNat = h.fmt.code.toNat * 2 ^ 20 + (h.cols - 1) * 2 ^ 8 + (h.rows - 1) := by
    rw [BitVec.toNat_ofNat, Shape.word, Nat.mod_eq_of_lt (by omega)]
  have code : shapeCode (BitVec.ofNat 64 h.word) = h.fmt.code.toNat := by
    unfold shapeCode bits
    omega
  have cols : shapeCols (BitVec.ofNat 64 h.word) = h.cols := by
    unfold shapeCols bits
    omega
  have rows : shapeRows (BitVec.ofNat 64 h.word) = h.rows := by
    unfold shapeRows bits
    omega
  unfold shapeOf
  rw [code, cols, rows, fmtOf_code]
  rfl

theorem Shape.word_lt {h : Shape} (hr : h.rows ≤ 32) (hc : h.cols ≤ 256) : h.word < 2 ^ 24 := by
  have hk : h.fmt.code.toNat < 16 := h.fmt.code.isLt
  unfold Shape.word
  omega

/-- A shape that fits a register has a word far below the bits of an entry that say chain and full. -/
theorem Shape.word_lt_of_size {h : Shape} (hr : 0 < h.rows) (hc : 0 < h.cols) (hw : 0 < h.width)
    (hs : h.size * h.width ≤ 8192) : h.word < 2 ^ 62 := by
  have hk : h.fmt.code.toNat < 16 := h.fmt.code.isLt
  have size : h.size ≤ 8192 := (Nat.le_mul_of_pos_right _ hw).trans hs
  have rows : h.rows ≤ 8192 := (Nat.le_mul_of_pos_right _ hc).trans size
  have cols : h.cols ≤ 8192 := (Nat.le_mul_of_pos_left _ hr).trans size
  unfold Shape.word
  omega

/-! ### A whole write -/

theorem Tile.write_entry (t : Tile) (h : Shape) (raws : List Nat) (ps : List Bool) (scales : List Byte) :
    (t.write h raws ps scales).entry = wholeEntry t.entry h.word := rfl

theorem Tile.write_data {t : Tile} {h : Shape} {raws : List Nat} {ps : List Bool} {scales : List Byte}
    (hl : raws.length * h.width ≤ 8192) :
    (t.write h raws ps scales).data.toNat = packElems h.width 0 raws :=
  toNat_ofNat_packElems hl

end Sys2Proof.Machine

namespace Sys2Proof.Proofs

open Sys2Proof.Machine

/-- Settles O25: the elements by their packing, the poison by the strips set, the flags and the shape by the bits
of the entry. -/
theorem tileWriteReadsBack : Obligations.TileWriteReadsBack := by
  unfold Obligations.TileWriteReadsBack
  intro t h raws ps scales hr hc hw hs hlen hps x
  have data : x.data.toNat = packElems h.width 0 raws := Tile.write_data (hlen ▸ hs)
  have entry : x.entry = wholeEntry t.entry h.word := Tile.write_entry ..
  have small : h.word < 2 ^ 62 := Shape.word_lt_of_size hr hc hw hs
  refine ⟨fun e _ => ?_, ?_, ?_, ?_, fun q hq => ?_, fun hr' hc' => ?_, fun hn => if_neg (ne_true_of_eq_false hn),
    fun hn => if_pos hn⟩
  · rw [elemAt, data, packElems_div_mod]
  · rw [data, ← hlen]
    exact packElems_lt ..
  · rw [Tile.full, entry, wholeEntry_full small]
  · rw [Tile.chain, entry, wholeEntry_chain small]
    rfl
  · rw [← hps]
    exact getLsbD_stripPoison _ _ hq
  · rw [Tile.shape, entry, wholeEntry_shape (Shape.word_lt hr' hc'), shapeOf_word hr hr' hc hc']

end Sys2Proof.Proofs
end

section
/-! ## Tiles moved, filled, and read and written by element (O28) -/

namespace Sys2Proof.Machine

variable {s : State} {i : Instr} {g : Guard} {h : Shape} {td ta t : TReg} {a b : Reg}

/-! ### A tile register written -/

theorem State.tile_setTile (s : State) (t u : TReg) (x : Tile) :
    (s.setTile t x).tile u = if u = t then x else s.tile u := by
  unfold State.setTile State.tile Core.tile
  rw [State.myCore_setMyCore, SMap.get_put]
  exact if_congr BitVec.toNat_inj rfl rfl

theorem State.tile_setMyCore_of_tiles {c : Core} (hc : c.tiles = s.myCore.tiles) (u : TReg) :
    (s.setMyCore c).tile u = s.tile u := by
  unfold State.tile Core.tile
  rw [State.myCore_setMyCore, hc]

theorem State.tile_moveTile (s : State) (t u : TReg) (p : TilePatch) :
    (s.moveTile t p).tile u = if u = t then (s.tile t).patch p else s.tile u := by
  unfold State.moveTile
  rw [State.tile_setTile]
  split
  · rfl
  · rw [State.tile_setMyCore_of_tiles]
    rfl

/-! ### Bytes of a word, and bytes put into a list -/

theorem leNat_div_mod (bs : List Byte) (j : Nat) : leNat bs / 256 ^ j % 256 = (bs.getD j 0).toNat := by
  induction bs generalizing j with
  | nil => simp [leNat]
  | cons b r ih =>
    have hb : b.toNat < 256 := b.isLt
    cases j with
    | zero =>
      simp only [leNat, Nat.pow_zero, Nat.div_one, List.getD_cons_zero]
      omega
    | succ j =>
      have hd : (b.toNat + 256 * leNat r) / 256 = leNat r := by omega
      rw [leNat, Nat.pow_succ', ← Nat.div_div_eq_div_mul, hd, List.getD_cons_succ, ih]

/-- Byte `j` of the word that a list of bytes makes. -/
theorem extractLsb'_leWord (bs : List Byte) {j : Nat} (hj : j < 8) :
    (leWord bs).extractLsb' (8 * j) 8 = bs.getD j 0 := by
  refine BitVec.eq_of_toNat_eq ?_
  have hw : leBytes 8 (leWord bs).toNat = leBytes 8 (leNat bs) := leBytes_mod 8 (leNat bs)
  rw [extractLsb'_eq_leBytes _ hj]
  simp only [hw, getElem_leBytes, BitVec.toNat_ofNat]
  exact leNat_div_mod bs j

theorem length_splice {l m : List Byte} {k : Nat} (hk : k + m.length ≤ l.length) :
    (l.take k ++ m ++ l.drop (k + m.length)).length = l.length := by
  simp only [List.length_append, List.length_take, List.length_drop]
  omega

/-- What reads where the bytes `m` have been put into a list from place `k` on. -/
theorem getD_splice {l m : List Byte} {k : Nat} (hk : k + m.length ≤ l.length) (j : Nat) :
    (l.take k ++ m ++ l.drop (k + m.length)).getD j 0 =
      if k ≤ j ∧ j < k + m.length then m.getD (j - k) 0 else l.getD j 0 := by
  have ht : (l.take k).length = k := List.length_take_of_le (by omega)
  have hm : (l.take k ++ m).length = k + m.length := by rw [List.length_append, ht]
  by_cases h2 : j < k + m.length
  · rw [List.getD_append _ _ _ _ (hm ▸ h2)]
    by_cases h1 : k ≤ j
    · rw [if_pos ⟨h1, h2⟩, List.getD_append_right _ _ _ _ (ht.symm ▸ h1), ht]
    · rw [if_neg fun h => h1 h.1, List.getD_append _ _ _ _ (by omega), List.getD_eq_getElem?_getD,
        List.getElem?_take_of_lt (by omega), List.getD_eq_getElem?_getD]
  · rw [if_neg fun h => h2 h.2, List.getD_append_right _ _ _ _ (by omega), hm, List.getD_eq_getElem?_getD,
      List.getElem?_drop, Nat.add_sub_cancel' (by omega), List.getD_eq_getElem?_getD]

/-! ### Moves and fills (R123) -/

theorem exec_tmov (hi : s.Issues (.tmov g td ta) g) (hf : s.me.flight = none)
    (hc : s.chainAllows s.issue.core (chainNeeds [ta] [td]) s.nextId = true) :
    let t := (s.opened (.tmov g td ta)).emptySources [ta]
    exec (.tmov g td ta) s = .next ((t.noteWrite td t.nextId true).setTile td { s.tile ta with
      entry := ((t.tile td).entry &&& 0x8000000000000000) ||| 0x4000000000000000 |||
        ((s.tile ta).entry &&& 0xFFFFFF) }).completes :=
  exec_done rfl hi (chainGate_ready (s := s.opened _) hf hc _)

theorem exec_tiota_float (ht : s.TileReady h [] [t]) (hi : s.Issues (.tiota g t) g) (hf : h.fmt.isFloat = true) :
    let r := s.formTile h.fmt 0 true ((List.range h.size).map fun e => Val.fin false e 0)
    exec (.tiota g t) s = .next (s.fills (.tiota g t) [] t h r.1 (List.replicate h.size false) r.2) :=
  exec_tile_fills rfl hi ht rfl (if_pos hf)

theorem exec_tiota_integer (ht : s.TileReady h [] [t]) (hi : s.Issues (.tiota g t) g) (hf : h.fmt.isFloat = false) :
    exec (.tiota g t) s = .next (s.fills (.tiota g t) [] t h (List.range h.size) (List.replicate h.size false) []) :=
  exec_tile_fills rfl hi ht rfl (if_neg (ne_true_of_eq_false hf))

theorem exec_trand (ht : s.TileReady h [] [t]) (hi : s.Issues (.trand g t) g) (hn : isNarrow h.fmt = false) :
    exec (.trand g t) s = .next ((((s.opened (.trand g t)).drew 5 h.size).writeTile t h
      ((List.range h.size).map fun e => randElem h.fmt (s.draw e)) (List.replicate h.size false) []).completes) :=
  have hk : (!isNarrow h.fmt) = true := by rw [hn]; rfl
  exec_tile_done rfl hi ht hk rfl

/-! ### Single elements, scale bytes and entries (R124) -/

/-- Equal results leave equal states. -/
theorem next_state_congr {r q : Res} (h : r = q) : (.next r.state : Out) = .next q.state := congrArg _ (congrArg _ h)

/-- The body of TMOVG's read, past the test of its index word. -/
def moveRead (s : State) (t : TReg) (a b : Reg) (h : Shape) : Option (Nat × Nat) → Res
  | none => .operand s (s.gv b)
  | some (0, e) => s.result a (BitVec.ofNat 64 (h.fmt.widen (elemAt (s.tile t).data h.width e)))
      ((s.tile t).pois.getLsbD (stripOf h.width e))
  | some (1, e) => s.result a (leWord (((s.tile t).scales.drop (8 * e)).take 8)) false
  | some _ => s.result a (s.tile t).entry false

/-- The body of TMOVG's write, past the test of its index word. -/
def moveWrite (s : State) (t : TReg) (a b : Reg) (h : Shape) : Option (Nat × Nat) → Res
  | none => .operand s (s.gv b)
  | some (0, e) => .done (s.moveTile t (.elem h.width e (s.gv a).toNat (s.gp a)))
  | some (1, e) => consume s [a] fun s' => .done (s'.moveTile t (.scale e (s.gv a)))
  | some _ => consume s [a] fun s' =>
      if entryGood (s.gv a) then .done (s'.moveTile t (.entry (s.gv a))) else .operand s' (s.gv a)

theorem moveWrite_scale (s : State) (t : TReg) (a b : Reg) (h : Shape) (e : Nat) :
    moveWrite s t a b h (some (1, e)) = consume s [a] fun s' => .done (s'.moveTile t (.scale e (s.gv a))) := rfl

theorem moveWrite_entry (s : State) (t : TReg) (a b : Reg) (h : Shape) (e : Nat) :
    moveWrite s t a b h (some (2, e)) = consume s [a] fun s' =>
      if entryGood (s.gv a) then .done (s'.moveTile t (.entry (s.gv a))) else .operand s' (s.gv a) := rfl

section
variable (hb : s.clean [b]) (hs : (s.tile t).shape = some h)
include hb hs

theorem exec_tmovgRead (hi : s.Issues (.tmovgRead g t a b) g) : exec (.tmovgRead g t a b) s =
    .next (moveRead (s.opened (.tmovgRead g t a b)) t a b h (moveIndex h (s.gv b))).state := by
  refine (run_of_issues hi _).trans ?_
  rw [consume_clean (clean_opened hb)]
  dsimp only [State.tile_opened, State.gv_opened]
  rw [hs]
  dsimp only
  unfold moveRead
  rcases moveIndex h (s.gv b) with _ | ⟨_ | _ | _, e⟩ <;> rfl

theorem exec_tmovgWrite (hi : s.Issues (.tmovgWrite g t a b) g) : exec (.tmovgWrite g t a b) s =
    .next (moveWrite (s.opened (.tmovgWrite g t a b)) t a b h (moveIndex h (s.gv b))).state := by
  refine (run_of_issues hi _).trans ?_
  rw [consume_clean (clean_opened hb)]
  dsimp only [State.tile_opened, State.gv_opened]
  rw [hs]
  dsimp only
  unfold moveWrite
  rcases moveIndex h (s.gv b) with _ | ⟨_ | _ | _, e⟩ <;> rfl

/-- A write of TMOVG that comes to an end changes its register, as the patch says, and no other. -/
theorem exec_tmovgWrite_done {p : TilePatch} (hi : s.Issues (.tmovgWrite g t a b) g)
    (hp : moveWrite (s.opened (.tmovgWrite g t a b)) t a b h (moveIndex h (s.gv b)) =
      .done ((s.opened (.tmovgWrite g t a b)).moveTile t p)) :
    exec (.tmovgWrite g t a b) s = .next ((s.opened (.tmovgWrite g t a b)).moveTile t p).completes ∧
      ((s.opened (.tmovgWrite g t a b)).moveTile t p).tile t = (s.tile t).patch p ∧
      ∀ k, k ≠ t → ((s.opened (.tmovgWrite g t a b)).moveTile t p).tile k = s.tile k := by
  refine ⟨?_, (State.tile_moveTile ..).trans (if_pos rfl), fun k hk => (State.tile_moveTile ..).trans (if_neg hk)⟩
  rw [exec_tmovgWrite hb hs hi, hp]
  rfl

end

theorem clean_singleton {r : Reg} (hr : s.gp r = false) : s.clean [r] := List.forall_mem_singleton.mpr hr

theorem consume_poisoned_single {r : Reg} (hr : s.gp r = true) (k : State → Res) :
    consume s [r] k = .contain s (r.setWidth 64) := by
  unfold consume
  rw [List.find?_cons_of_pos hr]
  rfl

theorem lt_of_moveIndex_scale {x : Word} {e : Nat} (hx : moveIndex h x = some (1, e)) : e < 8 := by
  unfold moveIndex at hx
  grind

/-- The scale bytes after a write of eight of them (R124). -/
theorem Tile.patch_scale {x : Tile} {e : Nat} (v : Word) (hx : x.scales.length = 64) (he : e < 8) :
    (x.patch (.scale e v)).scales.length = 64 ∧ ∀ j, j < 64 → (x.patch (.scale e v)).scales.getD j 0 =
      if j / 8 = e then v.extractLsb' (8 * (j % 8)) 8 else x.scales.getD j 0 := by
  have hk : 8 * e + (leBytes 8 v.toNat).length ≤ x.scales.length := by
    rw [length_leBytes, hx]
    omega
  have hp : (x.patch (.scale e v)).scales =
      x.scales.take (8 * e) ++ leBytes 8 v.toNat ++ x.scales.drop (8 * e + (leBytes 8 v.toNat).length) := by
    rw [length_leBytes]
    rfl
  rw [hp]
  refine ⟨(length_splice hk).trans hx, fun j _ => (getD_splice hk j).trans ?_⟩
  rw [length_leBytes]
  by_cases hj : j / 8 = e
  · have hm : j - 8 * e = j % 8 := by omega
    have hl : j % 8 < 8 := Nat.mod_lt _ (by decide)
    rw [if_pos hj, if_pos (by omega), hm, extractLsb'_eq_leBytes v hl, List.getD_eq_getElem]
  · rw [if_neg hj, if_neg (by omega)]

end Sys2Proof.Machine

namespace Sys2Proof.Proofs

open Sys2Proof.Machine

/-- Settles O28: the moves and fills by the checks that they pass, TMOVG by what its index word selects. -/
theorem tileMovesAndFillsComplete : Obligations.TileMovesAndFillsComplete := by
  unfold Obligations.TileMovesAndFillsComplete
  refine ⟨fun s g td ta hi hf hc => exec_tmov hi hf hc, fun s g t a h ht =>
    ⟨fun hi => exec_tile_fills rfl hi ht rfl rfl, exec_tiota_integer ht, exec_tiota_float ht, exec_trand ht⟩,
    fun s g t a b h e hb hs => ?_, fun s g t a b i hi hp hs => ?_⟩
  · intro x reads writes wrote contained
    refine ⟨fun hm => ⟨fun hi => ?_, fun hi => ?_⟩, fun hm => ⟨fun hi => ?_, fun hi ha => ?_, fun ha => ?_⟩,
      fun hm => ⟨fun hi => ?_, fun hi ha => ?_, fun ha => ⟨fun hv hi => ?_, fun hv hi => ?_⟩⟩, fun hm i hr hi => ?_⟩
    · rw [exec_tmovgRead hb hs hi, hm]
      rfl
    · exact exec_tmovgWrite_done hb hs hi (congrArg (moveWrite _ t a b h) hm)
    · refine ⟨leWord ((x.scales.drop (8 * e)).take 8), ?_, fun j hj => ?_⟩
      · rw [exec_tmovgRead hb hs hi, hm]
        rfl
      · rw [extractLsb'_leWord _ hj, List.getD_eq_getElem?_getD, List.getElem?_take_of_lt hj, List.getElem?_drop,
          List.getD_eq_getElem?_getD]
    · rw [exec_tmovgWrite hb hs hi, hm, moveWrite_scale, consume_poisoned_single (s := s.opened _) ha]
      rfl
    · have he := lt_of_moveIndex_scale hm
      refine ⟨(x.patch (.scale e (s.gv a))).scales, fun hi => exec_tmovgWrite_done hb hs hi ?_,
        fun hx => Tile.patch_scale (s.gv a) hx he⟩
      rw [hm, moveWrite_scale, consume_clean (clean_opened (clean_singleton ha))]
      rfl
    · rw [exec_tmovgRead hb hs hi, hm]
      rfl
    · rw [exec_tmovgWrite hb hs hi, hm, moveWrite_entry, consume_poisoned_single (s := s.opened _) ha]
      rfl
    · refine exec_tmovgWrite_done hb hs hi ?_
      rw [hm, moveWrite_entry, consume_clean (clean_opened (clean_singleton ha))]
      exact if_pos hv
    · rw [exec_tmovgWrite hb hs hi, hm, moveWrite_entry, consume_clean (clean_opened (clean_singleton ha))]
      exact next_state_congr (if_neg (ne_true_of_eq_false hv))
    · obtain rfl | rfl := hr
      · rw [exec_tmovgRead hb hs hi, hm]
        rfl
      · rw [exec_tmovgWrite hb hs hi, hm]
        rfl
  · have trapped (k : State → Res) : consume (s.opened i) [b] k = .contain (s.opened i) (b.setWidth 64) :=
      consume_poisoned_single (s := s.opened i) hp k
    obtain rfl | rfl := hi
    · exact exec_trap rfl hs (trapped _)
    · exact exec_trap rfl hs (trapped _)

end Sys2Proof.Proofs
end

section
/-! ## What a tile instruction leaves alone (O60) -/

namespace Sys2Proof.Machine

variable {s t x : State} {ts : List TReg}

/-! ### All but the tiles named -/

/-- State `t` is state `s` but for the tiles `ts` of the own core, for sr.rctr, and for what a trap, a wait and the
end of an instruction change. -/
structure State.Tiled (ts : List TReg) (s t : State) : Prop where
  core : t.issue.core = s.issue.core
  slot : t.issue.slot = s.issue.slot
  memory : ∀ k, t.byte k = s.byte k
  mine : s.me.Kept 5 [] [] t.me
  named : ∀ u, u ∉ ts → (t.core s.issue.core).tile u.toNat = s.tile u
  others : ∀ n, n ≠ s.issue.core → (t.core n).tiles = (s.core n).tiles
  registers : ∀ n, (t.core n).tvec = (s.core n).tvec ∧ (t.core n).xroot = (s.core n).xroot ∧
    (t.core n).cctl = (s.core n).cctl

/-- Draws are allowed in any mode. -/
theorem Strand.Kept.anyMode {rm : BitVec 3} {rs : List Reg} {ps : List Pred} {a b : Strand} (h : a.Kept rm rs ps b) :
    a.Kept 5 rs ps b :=
  { h with registers := h.registers, predicates := h.predicates, rctr := fun n => absurd rfl n }

/-- A state that differs as that of a register-only instruction has every tile. -/
theorem State.Frame.tiled (h : s.Frame [] [] t) : s.Tiled ts t where
  core := h.core
  slot := h.slot
  memory := h.keeps.memory
  mine := h.mine.anyMode
  named u _ := by
    unfold Core.tile
    rw [h.keeps.tiles.1]
    rfl
  others n hn := (h.keeps.cores n hn).2
  registers n := by
    obtain ⟨tvec, xroot, cctl, -⟩ := h.keeps.core n
    exact ⟨tvec, xroot, cctl⟩

namespace State.Tiled

/-- A change of the own core that keeps its strands, its registers and the tiles not named. -/
theorem setMyCore (h : s.Tiled ts t) {c : Core} (hs : c.strands = t.myCore.strands)
    (hr : c.tvec = t.myCore.tvec ∧ c.xroot = t.myCore.xroot ∧ c.cctl = t.myCore.cctl)
    (ht : ∀ u, u ∉ ts → c.tile u.toNat = t.myCore.tile u.toNat) : s.Tiled ts (t.setMyCore c) where
  core := h.core
  slot := h.slot
  memory := h.memory
  mine := by
    rw [State.me_setMyCore_of_strands hs]
    exact h.mine
  named u hu := by
    rw [State.setMyCore, h.core, State.core_setCore_self, ht u hu, ← h.named u hu, ← h.core]
    rfl
  others n hn := by
    rw [State.setMyCore, h.core, State.core_setCore_of_ne _ _ hn]
    exact h.others n hn
  registers n := by
    rw [State.setMyCore, State.core_setCore]
    split
    · next e =>
      obtain ⟨tvec, xroot, cctl⟩ := hr
      rw [tvec, xroot, cctl, e]
      exact h.registers _
    · exact h.registers n

/-- A change of the own core that keeps its tiles too. -/
theorem setMyCore_of_tiles (h : s.Tiled ts t) {c : Core} (hs : c.strands = t.myCore.strands)
    (hr : c.tvec = t.myCore.tvec ∧ c.xroot = t.myCore.xroot ∧ c.cctl = t.myCore.cctl)
    (ht : c.tiles = t.myCore.tiles) : s.Tiled ts (t.setMyCore c) :=
  h.setMyCore hs hr fun u _ => by
    unfold Core.tile
    rw [ht]

theorem setMe (h : s.Tiled ts t) {a : Strand} (ha : s.me.Kept 5 [] [] a) : s.Tiled ts (t.setMe a) := by
  have same {α : Type} (f : Core → α) (hf : ∀ c : Core, f (c.setStrand t.issue.slot a) = f c) (n : Nat) :
      f ((t.setMe a).core n) = f (t.core n) := by
    rw [State.core_setMe]
    split
    · next e => rw [hf, e]; rfl
    · rfl
  refine ⟨h.core, h.slot, h.memory, by rwa [State.me_setMe], fun u hu => ?_, fun n hn => ?_, fun n => ?_⟩
  · exact (same (fun c => c.tile u.toNat) (fun _ => rfl) _).trans (h.named u hu)
  · exact (same Core.tiles (fun _ => rfl) n).trans (h.others n hn)
  · obtain ⟨tvec, xroot, cctl⟩ := h.registers n
    exact ⟨(same Core.tvec (fun _ => rfl) n).trans tvec, (same Core.xroot (fun _ => rfl) n).trans xroot,
      (same Core.cctl (fun _ => rfl) n).trans cctl⟩

theorem setTile (h : s.Tiled ts t) {u : TReg} (hu : u ∈ ts) (y : Tile) : s.Tiled ts (t.setTile u y) := by
  refine h.setMyCore rfl ⟨rfl, rfl, rfl⟩ fun v hv => ?_
  exact SMap.get_put_of_ne _ _ _ fun e => hv (BitVec.eq_of_toNat_eq e ▸ hu)

theorem noteWrite (h : s.Tiled ts t) (u : TReg) (order : Nat) (b : Bool) : s.Tiled ts (t.noteWrite u order b) :=
  h.setMyCore_of_tiles rfl ⟨rfl, rfl, rfl⟩ rfl

theorem writeTile (h : s.Tiled ts t) {u : TReg} (hu : u ∈ ts) (k : Shape) (raws : List Nat) (ps : List Bool)
    (scales : List Byte) : s.Tiled ts (t.writeTile u k raws ps scales) :=
  (h.noteWrite u _ _).setTile hu _

theorem emptySources (h : s.Tiled ts t) {srcs : List TReg} (hs : srcs ⊆ ts) :
    s.Tiled ts (t.emptySources srcs) := by
  unfold State.emptySources
  induction srcs generalizing t with
  | nil => exact h
  | cons u r ih =>
    rw [List.cons_subset] at hs
    obtain ⟨hu, hr⟩ := hs
    rw [List.foldl_cons]
    refine ih ?_ hr
    dsimp only
    split
    · exact h.setTile hu _
    · exact h

theorem drew (h : s.Tiled ts t) (rm n : Nat) : s.Tiled ts (t.drew rm n) := by
  unfold State.drew
  split
  · exact h.setMe (h.mine.draw rfl _)
  · exact h

theorem drewIf (h : s.Tiled ts t) (c : Prop) [Decidable c] (rm n : Nat) :
    s.Tiled ts (if c then t.drew rm n else t) := by
  split
  · exact h.drew rm n
  · exact h

theorem retire (h : s.Tiled ts t) (pc : Word) : s.Tiled ts (t.retire pc) := by
  rw [State.retire_eq]
  refine setMe ?_ (h.mine.retired pc)
  unfold State.popPort
  split
  · exact h.setMyCore_of_tiles rfl ⟨rfl, rfl, rfl⟩ rfl
  · exact h

end State.Tiled

/-! ### Results -/

/-- A result of a tile instruction: it completes with tiles of `ts` written, or ends as a register-only one. -/
inductive Res.Tiled (ts : List TReg) (s : State) : Res → Prop
  | done {t : State} (h : s.Tiled ts t) : Tiled ts s (.done t)
  | framed {r : Res} (h : r.Framed [] [] s) : Tiled ts s r

theorem Res.Tiled.state {r : Res} (h : r.Tiled ts s) : s.Tiled ts r.state := by
  cases h with
  | done h => exact h.retire _
  | framed h => exact h.state.tiled

theorem Res.Tiled.ite {c : Prop} [Decidable c] {a b : Res} (ha : a.Tiled ts s) (hb : b.Tiled ts s) :
    (if c then a else b).Tiled ts s := by
  split
  · exact ha
  · exact hb

/-- An instruction leaves what its own meaning leaves. -/
theorem tiled_of_run {i : Instr} {g : Guard} {body : State → Res}
    (hb : ∀ x, s.Frame [] [] x → (body x).Tiled ts s) (h : run i g s body = .next t) : s.Tiled ts t := by
  obtain hf | ⟨y, hy, -, rfl⟩ := run_cases (rs := []) (ps := []) h
  · exact hf.tiled
  · exact (hb y hy).state

section
variable (hx : s.Frame [] [] x)
include hx

theorem Res.Tiled.operand (v : Word) : (Res.operand x v).Tiled ts s := .framed (.trap hx ..)

theorem Res.Tiled.chainGate (srcs dests : List TReg) {k : State → Res} (hk : (k x).Tiled ts s) :
    (Machine.chainGate x srcs dests k).Tiled ts s := by
  unfold Machine.chainGate
  dsimp only
  split
  · exact hk
  · exact .framed (.hold hx ..)

/-- The checks of R118 trap, wait, or let the instruction go on. -/
theorem Res.Tiled.tileSteps (ok mods : Fmt → Bool) (srcs dests : List TReg) {k : State → Shape → Res}
    (hk : ∀ h, (k x h).Tiled ts s) : (Machine.tileSteps x ok mods srcs dests k).Tiled ts s := by
  unfold Machine.tileSteps
  split
  · exact .operand hx _
  · split
    · exact .operand hx _
    · refine .chainGate hx _ _ ?_
      unfold agree
      split
      · exact .operand hx _
      · exact hk _

end

/-! ### The effects -/

section
variable (h : s.Tiled ts x) {srcs : List TReg} (hs : srcs ⊆ ts) {td : TReg} (hd : td ∈ ts)
include h hs hd

theorem Res.Tiled.tileDone (k : Shape) (raws : List Nat) (ps : List Bool) (scales : List Byte) :
    (Machine.tileDone x srcs td k raws ps scales).Tiled ts s :=
  .done ((h.emptySources hs).writeTile hd ..)

theorem Res.Tiled.floatTile (k : Shape) (vs : List Val) (ps : List Bool) :
    (Machine.floatTile x srcs td k vs ps).Tiled ts s :=
  .tileDone (h.drew _ _) hs hd ..

theorem Res.Tiled.intTile (k : Shape) (vs : List Int) (ps : List Bool) :
    (Machine.intTile x srcs td k vs ps).Tiled ts s :=
  .tileDone h hs hd ..

end

/-! ### The instructions -/

/-- A tile instruction without memory is run under its guard, and changes the tiles it names alone. -/
theorem exec_tiled_of_named {i : Instr} (hi : i.tilesNamed = some ts) : ∃ (g : Guard) (body : State → Res),
    (∀ s, exec i s = run i g s body) ∧ ∀ s x, s.Frame [] [] x → (body x).Tiled ts s := by
  have fst {td : TReg} {l : List TReg} : td ∈ td :: l := List.mem_cons_self
  have rest {td : TReg} {l : List TReg} : l ⊆ td :: l := List.subset_cons_self ..
  have all (td ta tb : TReg) : [ta, tb, td] ⊆ [td, ta, tb] := (List.perm_append_singleton td [ta, tb]).subset
  cases i with
  | tadd | tsub | tmul | tdiv | tredAdd | tscanAdd =>
    cases hi
    exact ⟨_, _, fun _ => rfl, fun s x hx => .tileSteps hx _ _ _ _ fun h =>
      .ite (.floatTile hx.tiled rest fst ..) (.intTile hx.tiled rest fst ..)⟩
  | tfma g td ta tb =>
    cases hi
    exact ⟨_, _, fun _ => rfl, fun s x hx => .tileSteps hx _ _ _ _ fun h =>
      .ite (.floatTile hx.tiled (all ..) fst ..) (.intTile hx.tiled (all ..) fst ..)⟩
  | tsel g td ta tb =>
    cases hi
    exact ⟨_, _, fun _ => rfl, fun s x hx => .tileSteps hx _ _ _ _ fun h =>
      .ite (.floatTile hx.tiled (all ..) fst ..) (.tileDone hx.tiled (all ..) fst ..)⟩
  | tmin | tmax =>
    cases hi
    exact ⟨_, _, fun _ => rfl, fun s x hx => .tileSteps hx _ _ _ _ fun h =>
      .ite (.floatTile hx.tiled rest fst ..)
        (.ite (.tileDone hx.tiled rest fst ..) (.intTile hx.tiled rest fst ..))⟩
  | tand | tor | txor | tcmpEq | tcmpNe | tcmpLt | tcmpLe =>
    cases hi
    exact ⟨_, _, fun _ => rfl, fun s x hx => .tileSteps hx _ _ _ _ fun h => .tileDone hx.tiled rest fst ..⟩
  | tshl | tshr =>
    cases hi
    exact ⟨_, _, fun _ => rfl, fun s x hx => .tileSteps hx _ _ _ _ fun h => .intTile hx.tiled rest fst ..⟩
  | texp2 | tlog2 | trcp | trsq | tsqrt | ttanh =>
    cases hi
    exact ⟨_, _, fun _ => rfl, fun s x hx => .tileSteps hx _ _ _ _ fun h => .floatTile hx.tiled rest fst ..⟩
  | tredMin | tredMax =>
    cases hi
    exact ⟨_, _, fun _ => rfl, fun s x hx => .tileSteps hx _ _ _ _ fun h =>
      .ite (.tileDone hx.tiled rest fst ..) (.intTile hx.tiled rest fst ..)⟩
  | tcvt =>
    cases hi
    exact ⟨_, _, fun _ => rfl, fun s x hx => .tileSteps hx _ _ _ _ fun h =>
      .ite (.operand hx _) (.ite (.tileDone (hx.tiled.drew ..) rest fst ..)
        (.tileDone (hx.tiled.drewIf ..) rest fst ..))⟩
  | txpose =>
    cases hi
    exact ⟨_, _, fun _ => rfl, fun s x hx => .tileSteps hx _ _ _ _ fun h =>
      .ite (.operand hx _) (.ite (.tileDone hx.tiled rest fst ..) (.tileDone hx.tiled rest fst ..))⟩
  | tmov =>
    cases hi
    exact ⟨_, _, fun _ => rfl, fun s x hx => .chainGate hx _ _
      (.done (((hx.tiled.emptySources rest).noteWrite ..).setTile fst _))⟩
  | tiota =>
    cases hi
    exact ⟨_, _, fun _ => rfl, fun s x hx => .tileSteps hx _ _ _ _ fun h =>
      .ite (.tileDone hx.tiled (List.nil_subset _) fst ..) (.tileDone hx.tiled (List.nil_subset _) fst ..)⟩
  | trand =>
    cases hi
    exact ⟨_, _, fun _ => rfl, fun s x hx => .tileSteps hx _ _ _ _ fun h =>
      .tileDone (hx.tiled.drew ..) (List.nil_subset _) fst ..⟩
  | tsplat =>
    cases hi
    exact ⟨_, _, fun _ => rfl, fun s x hx => .tileSteps hx _ _ _ _ fun h =>
      .tileDone hx.tiled (List.nil_subset _) fst ..⟩
  | _ => cases hi

end Sys2Proof.Machine

namespace Sys2Proof.Proofs

open Sys2Proof.Machine

/-- Settles O60: whatever its outcome, a tile instruction without memory leaves what `State.Tiled` says. -/
theorem tileInstructionsChangeTheirTilesAlone : Obligations.TileInstructionsChangeTheirTilesAlone := by
  unfold Obligations.TileInstructionsChangeTheirTilesAlone
  intro i s t ts hi he
  obtain ⟨g, body, hr, hb⟩ := exec_tiled_of_named hi
  have h : s.Tiled ts t := tiled_of_run (hb s) ((hr s).symm.trans he)
  refine ⟨fun u hu => ?_, h.memory, fun r => h.mine.registers r List.not_mem_nil,
    fun n => h.mine.predicates n List.not_mem_nil, h.mine.shape, h.mine.snap, h.mine.tx, h.mine.task, h.others,
    h.registers⟩
  rw [← h.named u hu, State.tile, State.myCore, h.core]

end Sys2Proof.Proofs
end

section
/-! ## Tile memory in the own scratchpad (O29) -/

namespace Sys2Proof.Machine

variable {s : State} {i : Instr} {g : Guard} {h : Shape} {t ti : TReg} {a b : Reg} {srcs : List TReg} {u : Nat}

/-! ### Addresses in the own scratchpad -/

theorem State.spot_of_ownOff {ea : Word} {o : Nat} (h : s.ownOff ea = some o) :
    s.spot ea = some (.spad s.issue.core o) := by
  unfold State.ownOff at h
  split at h
  · next hs =>
    split at h
    · next hc =>
      rw [hs, hc, Option.some.inj h]
    · cases h
  · cases h

theorem State.regionOf_of_ownOff {ea : Word} {o : Nat} (h : s.ownOff ea = some o) :
    regionOf s.issue.core ea = .spad s.issue.core o :=
  State.regionOf_of_spot (State.spot_of_ownOff h)

theorem regionClass_ne_zero {c k o : Nat} {ea : Word} (h : regionOf c ea = .spad k o) : regionClass ea ≠ 0 := by
  unfold regionOf at h
  unfold regionClass
  dsimp only at h ⊢
  split at h
  · cases h
  · next hn =>
    rw [if_neg hn]
    split
    · decide
    · split <;> decide

/-! ### Runs (R121, R122) -/

/-- A run that is not empty begins with a piece at its own address. -/
theorem Run.exists_piece {r : Run} (hn : r.n ≠ 0) : ∃ p ∈ r.pieces, p.ea = r.ea := by
  unfold Run.pieces sectors
  dsimp only
  rw [if_neg hn]
  exact ⟨_, List.mem_cons_self, BitVec.add_zero r.ea⟩

theorem Shape.unit_pos (h : Shape) : 0 < h.unit := Nat.lt_of_lt_of_le Nat.one_pos (Nat.le_max_left ..)

theorem Shape.cols_pos {w : Word} (hs : shapeOf w = some h) : 0 < h.cols := by
  unfold shapeOf at hs
  obtain ⟨f, -, rfl⟩ := Option.map_eq_some_iff.1 hs
  exact Nat.succ_pos _

/-- A row holds a byte at least: one of f4 has two columns. -/
theorem Shape.rowBytes_ne_zero (hc : 0 < h.cols) (h4 : h.fmt = .f4 → h.cols % 2 = 0) : h.rowBytes ≠ 0 := by
  have hw : 8 ≤ h.cols * h.width := by
    by_cases hf : h.fmt = .f4
    · have h2 := h4 hf
      have : h.width = 4 := by rw [Shape.width, hf]; rfl
      rw [this]
      omega
    · have : 8 ≤ h.width := by
        unfold Shape.width
        cases hk : h.fmt with
        | f4 => exact absurd hk hf
        | _ => decide
      exact this.trans (Nat.le_mul_of_pos_left _ hc)
  unfold Shape.rowBytes
  omega

theorem n_ne_zero_of_rowRuns {base stride : Word} (hn : h.rowBytes ≠ 0) : ∀ r ∈ rowRuns h base stride, r.n ≠ 0 := by
  intro r hr
  obtain ⟨j, -, rfl⟩ := List.mem_map.1 hr
  exact hn

theorem n_ne_zero_of_indexRuns {base : Word} {idx : List Int} {bads : List Bool} :
    ∀ r ∈ indexRuns h base idx bads, r.n ≠ 0 := by
  intro r hr
  obtain ⟨j, -, rfl⟩ := List.mem_map.1 hr
  exact h.unit_pos.ne'

/-- The runs that the index tile of an indexed form names. -/
abbrev State.indexed (s : State) (h ks : Shape) (ti : TReg) (a : Reg) : List Run :=
  indexRuns h (s.gv a) (((s.tile ti).elems ks).map (intElem ks.fmt 0)) ((s.tile ti).poisons ks)

/-! ### The checks of runs (R118 step 6) -/

theorem checkPieces_own {kind : Kind} {fs : List Nat} (k : State → Res) {l : List Run}
    (hl : ∀ p ∈ l, ∃ o, s.ownOff p.ea = some o) : checkPieces s kind fs k l = k s := by
  induction l with
  | nil => rfl
  | cons p r ih =>
    rw [List.forall_mem_cons] at hl
    obtain ⟨⟨o, ho⟩, hr⟩ := hl
    unfold checkPieces State.pageRules
    rw [State.spot_of_ownOff ho]
    exact ih hr

theorem State.OwnRun.piece {need : Need} {r p : Run} (hr : s.OwnRun u need r) (hp : p ∈ r.pieces) :
    ∃ o, s.ownOff p.ea = some o := by
  obtain ⟨o, ho, -⟩ := hr.own p hp p List.mem_cons_self
  exact ⟨o, ho⟩

/-- Runs of the own scratchpad pass; data with poison may be written there. -/
theorem checkRuns_own {need : Need} {kind : Kind} {fs : List Nat} {dirty : Bool} (k : State → Res) {runs : List Run}
    (hr : ∀ r ∈ runs, s.OwnRun u need r) (hn : dirty = true → ∀ r ∈ runs, r.n ≠ 0) :
    checkRuns s u need kind fs ti t dirty k runs = k s := by
  induction runs with
  | nil => rfl
  | cons r l ih =>
    rw [List.forall_mem_cons] at hr
    obtain ⟨own, hl⟩ := hr
    have clean : ¬ (dirty && regionClass r.ea == 0) = true := by
      intro hd
      rw [Bool.and_eq_true, beq_iff_eq] at hd
      obtain ⟨hd, h0⟩ := hd
      obtain ⟨p, hp, e⟩ := Run.exists_piece (hn hd r List.mem_cons_self)
      obtain ⟨o, ho⟩ := own.piece hp
      exact regionClass_ne_zero (State.regionOf_of_ownOff ho) (e ▸ h0)
    unfold checkRuns
    rw [own.index, own.checked, if_neg Bool.false_ne_true, Chk.andThen, if_neg clean,
      checkPieces_own _ fun p hp => own.piece hp]
    exact ih hl fun hd x hx => hn hd x (List.mem_cons_of_mem _ hx)

theorem stridedRuns_ready (hc : s.clean [a, b]) (h4 : h.fmt = .f4 → h.cols % 2 = 0)
    (ha : (s.gv a).toNat % h.unit = 0) (hb : (s.gv b).toNat % h.unit = 0) (k : State → List Run → Res) :
    stridedRuns s h a b k = k s (rowRuns h (s.gv a) (s.gv b)) := by
  have even : ¬ (h.fmt = .f4 ∧ h.cols % 2 = 1) := by
    rintro ⟨hf, h1⟩
    rw [h4 hf] at h1
    cases h1
  unfold stridedRuns
  rw [if_neg even, consume_clean hc, if_neg (not_not_intro ha), if_neg (not_not_intro hb)]

/-! ### An instruction that has not waited -/

section
variable (hf : s.me.flight = none)
include hf

theorem State.passed_of_flight : s.passed = false := by
  rw [State.passed, answer_of_flight hf]
  rfl

theorem State.issueOrder_of_flight : s.issueOrder = s.nextId := by
  rw [State.issueOrder, answer_of_flight hf]

theorem State.indexTile_of_flight : s.indexTile ti = s.tile ti := by
  rw [State.indexTile, answer_of_flight hf]

theorem State.cargo_of_flight : s.cargo t = ⟨(s.tile t).data, (s.tile t).pois⟩ := by
  rw [State.cargo, answer_of_flight hf]

theorem State.progress_of_flight (hp : s.me.posted = []) : s.progress = (0, s.nextId) := by
  rw [State.progress, answer_of_flight hf, hp]
  rfl

theorem indexedSteps_ready {dests : List TReg} (hs : shapeOf s.me.shape = some h) (h4 : h.fmt ≠ .f4)
    (hm : s.usualMods h.fmt = true) (hc : s.chainAllows s.issue.core (chainNeeds srcs dests) s.nextId = true)
    (k : State → Shape → Res) : indexedSteps s srcs dests k = k s h := by
  unfold indexedSteps
  rw [hs]
  dsimp only
  rw [if_neg (by simp [h4, hm]), chainGate_ready hf hc]

theorem indexedRuns_ready {ks : Shape} (hx : indexShape h (s.tile ti) = some ks) (hc : s.clean [a])
    (ha : (s.gv a).toNat % h.unit = 0) (k : State → List Run → Res) : indexedRuns s h ti a k =
      k s (indexRuns h (s.gv a) (((s.tile ti).elems ks).map (intElem ks.fmt 0)) ((s.tile ti).poisons ks)) := by
  unfold indexedRuns
  dsimp only
  rw [State.indexTile_of_flight hf, hx]
  dsimp only
  rw [consume_clean hc, if_neg (not_not_intro ha)]

end

/-! ### Reads (R121, R122) -/

/-- What one run brings from the own scratchpad. -/
def State.ownRead (s : State) (r : Run) : Nat × Answer :=
  let o := (s.ownOff r.ea).getD 0
  (r.off, .data (s.bytes (spadKey s.issue.core o) r.n) ((wordsOf o r.n).map (s.spadPois s.issue.core)))

/-- A run in the own scratchpad whose words can be read now. -/
def State.Readable (s : State) (r : Run) : Prop :=
  ∃ o, s.ownOff r.ea = some o ∧ s.soundWords (wordsOf o r.n) ∧ s.tagsReady o r.n true

theorem readRun_own {r : Run} (hr : s.Readable r) (got : List (Nat × Answer)) :
    readRun (s, got) r = (s, got ++ [s.ownRead r]) := by
  obtain ⟨o, ho, hw, ht⟩ := hr
  have allow : s.tagsAllow s.issue.core (wordsOf o r.n) true s.nextId = true := ht
  have tags : s.checkTags s.issue.core (wordsOf o r.n) = s := checkTags_sound hw
  have words : s.checkWords s.issue.core (wordsOf o r.n) = s := checkWords_sound hw
  unfold readRun State.ownRead
  dsimp only
  rw [ho]
  dsimp only
  rw [tags, if_pos allow, State.readSpad, words]
  rfl

theorem foldl_readRun_own {parts : List Run} (hp : ∀ r ∈ parts, s.Readable r) (got : List (Nat × Answer)) :
    parts.foldl readRun (s, got) = (s, got ++ parts.map s.ownRead) := by
  induction parts generalizing got with
  | nil => rw [List.foldl_nil, List.map_nil, List.append_nil]
  | cons r l ih =>
    rw [List.forall_mem_cons] at hp
    rw [List.foldl_cons, readRun_own hp.1, ih hp.2, List.map_cons, List.append_assoc]
    rfl

/-- The parts in which a run is read are its pieces and their units. -/
theorem mem_readRuns {r q : Run} (hq : q ∈ readRuns s u r) : ∃ p ∈ r.pieces, q ∈ p :: p.units u := by
  obtain ⟨p, hp, hq⟩ := List.mem_flatMap.1 hq
  refine ⟨p, hp, ?_⟩
  split at hq
  · split at hq
    · exact List.mem_cons_of_mem _ hq
    · exact List.mem_singleton.1 hq ▸ List.mem_cons_self
  · exact List.mem_cons_of_mem _ hq

theorem readable_of_ownRuns {runs : List Run} (hr : ∀ r ∈ runs, s.OwnRun u .read r) :
    ∀ q ∈ runs.flatMap (readRuns s u), s.Readable q := by
  intro q hq
  obtain ⟨r, hr', hq⟩ := List.mem_flatMap.1 hq
  obtain ⟨p, hp, hq⟩ := mem_readRuns hq
  obtain ⟨o, ho, hw, ht⟩ := (hr r hr').own p hp q hq
  exact ⟨o, ho, hw, ht rfl⟩

/-- A load of the own scratchpad reads all its parts at once. -/
theorem loadIssue_own {runs : List Run} (hr : ∀ r ∈ runs, s.OwnRun h.unit .read r) (hf : s.me.flight = none)
    (extra : List (Nat × Answer)) : loadIssue s t srcs h extra runs =
      loadDone (s.emptySources srcs) t h runs ((runs.flatMap (readRuns s h.unit)).map s.ownRead) := by
  have readable := readable_of_ownRuns hr
  have own (q) (hq : q ∈ runs.flatMap (readRuns s h.unit)) : ∃ o, s.ownOff q.ea = some o := by
    obtain ⟨o, ho, -⟩ := readable q hq
    exact ⟨o, ho⟩
  have ready : (runs.flatMap (readRuns s h.unit)).any s.runWaits = false := by
    refine List.any_eq_false.2 fun q hq => ?_
    obtain ⟨o, ho⟩ := own q hq
    unfold State.runWaits
    rw [State.spot_of_ownOff ho, ho]
    exact Bool.false_ne_true
  have found : (runs.flatMap (readRuns s h.unit)).find? (fun r => (s.spot r.ea).isNone) = none := by
    refine List.find?_eq_none.2 fun q hq => ?_
    obtain ⟨o, ho⟩ := own q hq
    rw [State.spot_of_ownOff ho]
    exact Bool.false_ne_true
  unfold loadIssue
  dsimp only
  rw [if_neg (ne_true_of_eq_false ready), found]
  dsimp only
  rw [foldl_readRun_own readable, List.nil_append]
  dsimp only
  rw [if_pos (List.length_map ..), State.emptyOnce, State.passed_of_flight hf]
  rfl

/-- What the emptying of sources leaves for the order of writes (R116). -/
structure State.SameOrder (s v : State) : Prop where
  now : v.now = s.now
  nextId : v.nextId = s.nextId
  me : v.me = s.me
  written : v.myCore.written = s.myCore.written
  moved : v.myCore.moved = s.myCore.moved

theorem State.sameOrder_emptySources (s : State) (srcs : List TReg) : s.SameOrder (s.emptySources srcs) := by
  refine foldl_keeps s.SameOrder _ (fun v x hv => ?_) srcs s ⟨rfl, rfl, rfl, rfl, rfl⟩
  dsimp only
  split
  · refine ⟨hv.now, hv.nextId, (State.me_setMyCore_of_strands ?_).trans hv.me, ?_, ?_⟩
    · rfl
    · rw [State.setTile, State.myCore_setMyCore]
      exact hv.written
    · rw [State.setTile, State.myCore_setMyCore]
      exact hv.moved
  · exact hv

theorem State.SameOrder.outWritten {v : State} (hv : s.SameOrder v) (n : Nat) :
    v.outWritten t n = s.outWritten t n := by
  unfold State.outWritten State.overWritten State.writtenNow State.movesAfter
  rw [hv.now, hv.written, hv.moved]

/-- The end of a load after which nothing else has been written: the register is written whole (R113, R121). -/
theorem loadDone_first {runs : List Run} {got : List (Nat × Answer)} (hf : s.me.flight = none)
    (hn : s.outWritten t s.nextId = false) : loadDone (s.emptySources srcs) t h runs got =
      .done (((s.emptySources srcs).noteWrite t s.nextId (isNarrow h.fmt)).setTile t {
        data := BitVec.ofNat 8192 (gatherData got), pois := gatherPoison (addrOf runs) got,
        scales := if isNarrow h.fmt then padScales [] else ((s.emptySources srcs).tile t).scales,
        entry := (((s.emptySources srcs).tile t).entry &&& 0x8000000000000000) ||| 0x4000000000000000 |||
          BitVec.ofNat 64 h.word }).endClaims := by
  have same := s.sameOrder_emptySources srcs
  have order : (s.emptySources srcs).issueOrder = s.nextId :=
    (State.issueOrder_of_flight ((congrArg Strand.flight same.me).trans hf)).trans same.nextId
  unfold loadDone
  dsimp only
  rw [order, if_neg (ne_true_of_eq_false ((same.outWritten _).trans hn))]

/-! ### Stores (R121, R122) -/

theorem State.wb_checkData (core w n : Nat) : ((s.checkData core w).core n).wb = (s.core n).wb := by
  unfold State.checkData
  dsimp only
  split
  · change ((State.setCore _ core _).core n).wb = _
    rw [State.core_setCore]
    split
    · next e => rw [e]; rfl
    · rfl
  · split <;> rfl

/-- A write of a scratchpad posts nothing. -/
theorem State.wb_writeSpad (core o n : Nat) (bs : List Byte) (ps : List Bool) :
    ((s.writeSpad core o bs ps).core n).wb = (s.core n).wb := by
  refine foldl_keeps (fun v => (v.core n).wb = (s.core n).wb) _ (fun v w hv => ?_) (wordsOf o bs.length) s rfl
  dsimp only
  split
  · exact hv
  · exact (State.wb_checkData core w n).trans hv

/-- What the writes of a store to the own scratchpad leave for its next entry. -/
structure State.Storing (s v : State) : Prop where
  issue : v.issue = s.issue
  me : v.me = s.me
  posted : v.posted = s.posted

theorem State.Storing.writeSpad {v : State} (hv : s.Storing v) (core o : Nat) (bs : List Byte) (ps : List Bool) :
    s.Storing (v.writeSpad core o bs ps) := by
  obtain ⟨w, hw, e⟩ := State.exists_steady_writeSpad (s := v) core o bs ps
  have issue : (v.writeSpad core o bs ps).issue = v.issue := e ▸ hw.issue
  have me : (v.writeSpad core o bs ps).me = v.me := e ▸ hw.me
  refine ⟨issue.trans hv.issue, me.trans hv.me, Eq.trans ?_ hv.posted⟩
  unfold State.posted State.myCore
  rw [issue, me, State.wb_writeSpad]

/-- One entry of a store written to the own scratchpad at the offset that state `s` finds. -/
def State.storeEntry (s : State) (c : Cargo) (v : State) (p : Run) : State :=
  v.writeSpad s.issue.core ((s.ownOff p.ea).getD 0) (c.bytes p.off p.n) (c.poison p)

/-- Entries in the own scratchpad are written one after the other, and the store ends. -/
theorem storeRuns_own {c : Cargo} {extra : List (Nat × Answer)} {grp n : Nat} {l : List Run} {v : State}
    (hl : ∀ p ∈ l, ∃ o, s.ownOff p.ea = some o)
    (ho : s.oflag = true → s.postedOn (.spad s.issue.core) = false) (hf : s.me.flight = none) (hv : s.Storing v) :
    storeRuns v c srcs extra grp n l = .done ((l.foldl (s.storeEntry c) v).emptySources srcs).endClaims := by
  induction l generalizing v n with
  | nil =>
    unfold storeRuns State.emptyOnce
    rw [State.passed_of_flight ((congrArg Strand.flight hv.me).trans hf), if_neg Bool.false_ne_true]
    rfl
  | cons p r ih =>
    rw [List.forall_mem_cons] at hl
    obtain ⟨⟨o, hp⟩, hr⟩ := hl
    have spot : v.spot p.ea = some (.spad s.issue.core o) := by
      unfold State.spot
      rw [hv.issue, State.regionOf_of_ownOff hp]
    have flag : v.oflag = s.oflag := by
      unfold State.oflag State.mw
      rw [hv.issue]
    have free : ¬ (v.oflag && v.postedOn (.spad s.issue.core)) = true := by
      rw [flag, State.postedOn, hv.posted, Bool.and_eq_true]
      rintro ⟨h1, h2⟩
      exact ne_true_of_eq_false (ho h1) h2
    unfold storeRuns
    rw [spot]
    dsimp only
    rw [hv.issue, if_pos rfl, if_neg free, ih hr (hv.writeSpad ..), List.foldl_cons, State.storeEntry, hp]
    rfl

/-- A store whose runs lie in the own scratchpad, and which no earlier store keeps waiting, is carried out at once. -/
theorem storeFrom_own {runs : List Run} (hr : ∀ r ∈ runs, s.OwnRun u .write r) (hf : s.me.flight = none)
    (hp : s.me.posted = []) (hm : s.mayStore s.isRelease) (extra : List (Nat × Answer)) :
    storeFrom s t srcs extra runs =
      .done ((((runs.flatMap Run.pieces).foldl (s.storeEntry ⟨(s.tile t).data, (s.tile t).pois⟩) s).emptySources
        srcs).endClaims) := by
  have own : ∀ p ∈ runs.flatMap Run.pieces, ∃ o, s.ownOff p.ea = some o := by
    intro p hp
    obtain ⟨r, hr', hp⟩ := List.mem_flatMap.1 hp
    exact (hr r hr').piece hp
  have go (grp : Nat) : storeRuns s (s.cargo t) srcs extra grp 0 (runs.flatMap Run.pieces) = _ :=
    storeRuns_own own hm.2 hf ⟨rfl, rfl, rfl⟩
  unfold storeFrom
  simp only [answer_of_flight hf, State.progress_of_flight hf hp, Option.isSome_none, Bool.false_eq_true, if_false,
    List.drop_zero, ← State.cargo_of_flight hf]
  cases hrel : s.isRelease with
  | false => exact go _
  | true =>
    obtain ⟨released, err⟩ := hm.1 hrel
    rw [scopeOf, released, err]
    exact go _

/-! ### The instructions, past their checks -/

theorem State.ownRead_opened (s : State) (i : Instr) : (s.opened i).ownRead = s.ownRead := by
  funext r
  unfold State.ownRead
  dsimp only
  rw [State.bytes_opened]
  rfl

theorem State.OwnRun.opened {need : Need} {r : Run} (hr : s.OwnRun u need r) : (s.opened i).OwnRun u need r :=
  ⟨hr.index, hr.checked, hr.own⟩

theorem ownRuns_opened {need : Need} {runs : List Run} (hr : ∀ r ∈ runs, s.OwnRun u need r) :
    ∀ r ∈ runs, (s.opened i).OwnRun u need r := fun r h => (hr r h).opened

section
variable (hi : s.Issues i g) (ha : (s.gv a).toNat % h.unit = 0)
include hi ha

section
variable (hc : s.clean [a, b]) (h4 : h.fmt = .f4 → h.cols % 2 = 0) (hb : (s.gv b).toNat % h.unit = 0)
include hc h4 hb

theorem exec_tld_own (he : i = .tld g t a b) (ht : s.TileReady h [] [t])
    (hr : ∀ r ∈ rowRuns h (s.gv a) (s.gv b), s.OwnRun h.unit .read r) : exec i s =
      .next (loadIssue (s.opened i) t [] h [] (rowRuns h (s.gv a) (s.gv b))).state := by
  subst he
  have ready := ht.opened (i := .tld g t a b)
  refine (run_of_issues hi _).trans ?_
  rw [State.passed_of_flight ready.afresh, ready.shape]
  dsimp only
  rw [ready.steps rfl, stridedRuns_ready (clean_opened hc) h4 ha hb]
  exact next_state_congr (checkRuns_own _ (ownRuns_opened hr) fun hd => absurd hd Bool.false_ne_true)

theorem exec_tst_own (he : i = .tst g t a b) (ht : s.TileReady h [t] [])
    (hr : ∀ r ∈ rowRuns h (s.gv a) (s.gv b), s.OwnRun h.unit .write r) : exec i s =
      .next (storeFrom (s.opened i) t [t] [] (rowRuns h (s.gv a) (s.gv b))).state := by
  subst he
  have ready := ht.opened (i := .tst g t a b)
  have some_bytes := n_ne_zero_of_rowRuns (base := s.gv a) (stride := s.gv b)
    (Shape.rowBytes_ne_zero (Shape.cols_pos ht.shape) h4)
  refine (run_of_issues hi _).trans ?_
  rw [State.passed_of_flight ready.afresh, ready.shape]
  dsimp only
  rw [ready.steps rfl, stridedRuns_ready (clean_opened hc) h4 ha hb]
  exact next_state_congr (checkRuns_own _ (ownRuns_opened hr) fun _ => some_bytes)

end

section
variable {ks : Shape} (hc : s.clean [a]) (h4 : h.fmt ≠ .f4) (hx : indexShape h (s.tile ti) = some ks)
  (hs : shapeOf s.me.shape = some h) (hm : s.usualMods h.fmt = true) (hf : s.me.flight = none)
include hc h4 hx hs hm hf

theorem exec_tldi_own (he : i = .tldi g t ti a)
    (hw : s.chainAllows s.issue.core (chainNeeds [ti] [t]) s.nextId = true)
    (hr : ∀ r ∈ s.indexed h ks ti a, s.OwnRun h.unit .read r) : exec i s =
      .next (loadIssue (s.opened i) t [ti] h ((s.opened i).keepIndex ti) (s.indexed h ks ti a)).state := by
  subst he
  have fresh : (s.opened (.tldi g t ti a)).me.flight = none := hf
  have shape : shapeOf (s.opened (.tldi g t ti a)).me.shape = some h := hs
  refine (run_of_issues hi _).trans ?_
  rw [State.passed_of_flight fresh, shape]
  dsimp only
  rw [indexedSteps_ready fresh shape h4 hm hw, indexedRuns_ready fresh hx (clean_opened hc) ha]
  exact next_state_congr (checkRuns_own _ (ownRuns_opened hr) fun hd => absurd hd Bool.false_ne_true)

theorem exec_tsti_own (he : i = .tsti g t ti a)
    (hw : s.chainAllows s.issue.core (chainNeeds [t, ti] []) s.nextId = true) (hg : (s.tile t).agrees h = true)
    (hr : ∀ r ∈ s.indexed h ks ti a, s.OwnRun h.unit .write r) : exec i s =
      .next (storeFrom (s.opened i) t [t, ti] ((s.opened i).keepIndex ti) (s.indexed h ks ti a)).state := by
  subst he
  have fresh : (s.opened (.tsti g t ti a)).me.flight = none := hf
  have shape : shapeOf (s.opened (.tsti g t ti a)).me.shape = some h := hs
  have agrees : ∀ x ∈ [t], ((s.opened (.tsti g t ti a)).tile x).agrees h = true := List.forall_mem_singleton.mpr hg
  refine (run_of_issues hi _).trans ?_
  rw [State.passed_of_flight fresh, shape]
  dsimp only
  rw [indexedSteps_ready fresh shape h4 hm hw, agree_ready agrees, indexedRuns_ready fresh hx (clean_opened hc) ha]
  exact next_state_congr (checkRuns_own _ (ownRuns_opened hr) fun _ => n_ne_zero_of_indexRuns)

end

end

end Sys2Proof.Machine

namespace Sys2Proof.Proofs

open Sys2Proof.Machine

/-- Settles O29: an access whose checks pass reads or writes its runs one after the other, and ends. -/
theorem tileMemoryCompletes : Obligations.TileMemoryCompletes := by
  unfold Obligations.TileMemoryCompletes
  refine ⟨fun s g t ti a b h ks i srcs runs hi hs ha hr => ?_,
    fun s g t ti a b h ks i srcs runs hi hs ha hr hp hm => ?_⟩
  · intro parts got hn
    obtain ⟨extra, hf, he⟩ : ∃ extra, s.me.flight = none ∧
        exec i s = .next (loadIssue (s.opened i) t srcs h extra runs).state := by
      obtain ⟨hi, rfl, rfl, hc, h4, hb, ht⟩ | ⟨hi, rfl, hc, h4, hx, rfl, hsh, hm, hf, hw⟩ := hi
      · exact ⟨_, ht.afresh, exec_tld_own hs ha hc h4 hb hi ht hr⟩
      · exact ⟨_, hf, exec_tldi_own hs ha hc h4 hx hsh hm hf hi hw hr⟩
    rw [he, loadIssue_own (ownRuns_opened hr) hf, State.ownRead_opened, loadDone_first (s := s.opened i) hf hn]
    rfl
  · intro c
    obtain ⟨extra, hf, he⟩ : ∃ extra, s.me.flight = none ∧
        exec i s = .next (storeFrom (s.opened i) t srcs extra runs).state := by
      obtain ⟨hi, rfl, rfl, hc, h4, hb, ht⟩ | ⟨hi, rfl, hc, h4, hx, rfl, hsh, hm', hf, hw, hg⟩ := hi
      · exact ⟨_, ht.afresh, exec_tst_own hs ha hc h4 hb hi ht hr⟩
      · exact ⟨_, hf, exec_tsti_own hs ha hc h4 hx hsh hm' hf hi hw hg hr⟩
    rw [he, storeFrom_own (ownRuns_opened hr) hf hp hm]
    rfl

end Sys2Proof.Proofs
end

section
/-! ## Ports (O19) -/

namespace Sys2Proof.Proofs

open Sys2Proof.Machine

/-- Settles O19: each form by what it writes; PBIND by its operand and the owner of the port. -/
theorem portInstructionsComplete : Obligations.PortInstructionsComplete := by
  unfold Obligations.PortInstructionsComplete
  refine fun s g d a k => ⟨fun h => exec_done rfl h rfl, fun h hc => ⟨fun hv ho => ?_, fun hv ho => ?_⟩,
    fun h => exec_done rfl h rfl⟩
  · refine exec_done_of_clean rfl h hc ?_
    simp only [State.gv_opened, State.myCore_opened, hv, ho, if_true]
    rfl
  · refine exec_done_of_clean rfl h hc ?_
    have ho' : (s.opened (.pbind g a)).ownsPort = true := ho
    simp only [State.gv_opened, State.myCore_opened, hv, ho', if_true]
    rfl

end Sys2Proof.Proofs
end

section
/-! ## Atomics and tagged words of the own scratchpad (O12) -/

namespace Sys2Proof.Machine

variable {s : State}

/-- An AMO of 32 bits takes its operand's low half alone (R265). -/
theorem amoNew_low (op : AmoOp) (w : Bool) (old : Nat) (y : Word) :
    amoNew op w old (if w then BitVec.ofNat 64 (bits y 31 0) else y).toNat = amoNew op w old y.toNat := by
  cases w
  · rfl
  · have h : (BitVec.ofNat 64 (bits y 31 0)).toNat % 2 ^ 32 = y.toNat % 2 ^ 32 := by
      simp only [bits, BitVec.toNat_ofNat]
      omega
    simp only [amoNew, if_true, h]

theorem releaseIf_released (hr : s.isRelease = true → s.released s.mw.scope.toNat) (k : State → Res) :
    releaseIf s s.isRelease k = k s := by
  unfold releaseIf
  split
  · exact releasing_released (hr ‹_›) k
  · rfl

/-- An addressed form whose checks pass at the own scratchpad is its own meaning there (R262). -/
theorem atForm_own {srcs data : List Reg} {ea : Word} {n o : Nat} {need : Need} {host : Bool} {kind : Kind}
    {fs : List Nat} {k : State → Spot → Res} (hc : s.clean srcs) (h : s.OwnWords ea o n) :
    atForm s srcs data ea n need true host kind fs k = (k s (.spad s.issue.core o)).issued ea := by
  have hform : s.checkForm ea n need true = .ok := by
    simp [State.checkForm, h.class_ne.2, h.check]
  have hplace : s.checkPlace ea host = .ok := by
    simp only [State.checkPlace, h.spot]
  unfold atForm
  rw [consume_clean hc]
  simp only [hform, hplace, Chk.andThen, h.spot]

theorem oldValue_zero {t : State} {d : Reg} {v : Word} {p : Bool} (h : d = 0) : oldValue t true d v p = .done t :=
  if_pos (by simp [h])

theorem oldValue_of_ne {t : State} {amo : Bool} {d : Reg} {v : Word} {p : Bool} (h : amo = false ∨ d ≠ 0) :
    oldValue t amo d v p = .done (t.setG d v p) :=
  if_neg fun e => by
    obtain ⟨ha, hd⟩ := Bool.and_eq_true_iff.mp e
    exact h.elim (fun h => Bool.false_ne_true (h.symm.trans ha)) fun h => h (eq_of_beq hd)

theorem casNew_eight (cmp y : Word) : casNew 8 cmp y = fun old => if old = cmp.toNat then some y.toNat else none := by
  funext old
  rw [casNew, Nat.mod_eq_of_lt cmp.isLt, Nat.mod_eq_of_lt y.isLt]

@[simp] theorem Res.issued_oldValue (t : State) (amo : Bool) (d : Reg) (v : Word) (p : Bool) (ea : Word) :
    (oldValue t amo d v p).issued ea = oldValue t amo d v p := by
  unfold oldValue
  split <;> rfl

/-- An atomic on the own scratchpad whose checks pass is done at once (R262, R267). -/
theorem atomic_own {amo host : Bool} {srcs : List Reg} {a b d : Reg} {n o : Nat} {fs : List Nat} {op : ReqOp}
    {new : Nat → Option Nat} (hc : s.clean srcs) (hr : s.isRelease = true → s.released s.mw.scope.toNat)
    (h : s.OwnWords (s.gv a) o n) (ht : s.tagsReady o n true) :
    atomic s amo srcs a b d n host fs op new =
      oldValue (s.spadRmw s.issue.core o n (s.gp b) new).2 amo d
        (s.spadRmw s.issue.core o n (s.gp b) new).1.v (s.spadRmw s.issue.core o n (s.gp b) new).1.p := by
  unfold atomic
  rw [answered_none (h.answer 0)]
  dsimp only
  rw [atForm_own hc h, releaseIf_released hr]
  dsimp only
  rw [if_pos rfl, ownTag_ready _ h.tags h.afresh ht, Res.issued_oldValue]

/-- The checks of LDW and STW pass at a word of the own scratchpad (R196). -/
theorem tagWord_own {a : Reg} {o : Nat} {k : State → Nat → Nat → Res} (hc : s.clean [a])
    (h : s.OwnWords (s.gv a) o 8) : tagWord s a k = k s s.issue.core o := by
  have hp : (!s.me.priv && touchesReserved s.issue.core (s.gv a) 8) = false := by
    rcases h.allowed with hp | hp <;> simp [hp]
  unfold tagWord
  dsimp only
  rw [consume_clean hc, if_neg h.class_ne.2, if_neg h.class_ne.1, if_neg (not_not.mpr h.aligned), hp, h.region]
  rfl

theorem State.OwnWords.takeWord {ea : Word} {o : Nat} (h : s.OwnWords ea o 8) :
    s.takeWord s.issue.core o = (⟨s.word (spadKey s.issue.core o), s.spadPois s.issue.core (o / 8)⟩,
      s.setTag s.issue.core (o / 8) false) := by
  have hw : wordsOf o 8 = [o / 8] := wordsOf_one (h.align (by decide)) (by omega)
  have hs := h.words
  rw [hw] at hs
  unfold State.takeWord State.readSpad State.word
  simp only [hw, hs, List.map, List.any, id, Bool.or_false]

end Sys2Proof.Machine

namespace Sys2Proof.Proofs

open Sys2Proof.Machine

/-- Settles O12: each atomic as a read-write of its words, LDW and STW as a read or a write with its tag. -/
theorem ownScratchpadAtomicsAndTagsComplete : Obligations.OwnScratchpadAtomicsAndTagsComplete := by
  unfold Obligations.OwnScratchpadAtomicsAndTagsComplete
  refine ⟨fun s g d a b o => ?_, fun s g d a b o hc ho => ⟨fun h ht => ?_, fun h ht hr => ?_⟩⟩
  · intro done dropped free
    refine ⟨fun w op => ?_, fun h hc hr ho ht => ?_, fun h hc hr ho ht => ?_⟩
    · intro n h hc hr ho ht new
      let y : PW := ⟨if w then BitVec.ofNat 64 (bits (s.gv b) 31 0) else s.gv b, s.gp b⟩
      have he : (fun old => some (amoNew op w old y.v.toNat)) = new :=
        funext fun old => congrArg some (amoNew_low op w old (s.gv b))
      have hb := atomic_own (amo := true) (host := op = .add ∨ op = .swap) (d := d) (b := b)
        (fs := [if op = .fadd then 1 else 0]) (op := .amo op w y) (new := fun old => some (amoNew op w old y.v.toNat))
        (clean_opened hc) hr ho.opened (ht.opened (i := .amo g w op d a b))
      by_cases hd : d = 0
      · rw [if_pos hd]
        rw [oldValue_zero hd] at hb
        exact (exec_done rfl h hb).trans (congrArg (dropped (.amo g w op d a b) n) he)
      · rw [if_neg hd]
        rw [oldValue_of_ne (.inr hd)] at hb
        exact (exec_done rfl h hb).trans (congrArg (done (.amo g w op d a b) n) he)
    · have hb := atomic_own (amo := false) (host := true) (d := d) (b := b) (fs := [2])
        (op := .cas true (s.gv d) ⟨s.gv b, s.gp b⟩) (new := casNew 4 (s.gv d) (s.gv b))
        (clean_opened hc) hr ho.opened (ht.opened (i := .casN32 g d a b))
      rw [oldValue_of_ne (.inl rfl)] at hb
      exact exec_done rfl h hb
    · have hb := atomic_own (amo := false) (host := true) (d := d) (b := b) (fs := [2])
        (op := .cas false (s.gv d) ⟨s.gv b, s.gp b⟩) (new := casNew 8 (s.gv d) (s.gv b))
        (clean_opened hc) hr ho.opened (ht.opened (i := .casN64 g d a b))
      rw [oldValue_of_ne (.inl rfl)] at hb
      exact (exec_done rfl h hb).trans (congrArg (done (.casN64 g d a b) 8) (casNew_eight ..))
  · refine exec_done rfl h ?_
    rw [answered_none (ho.opened.answer 0), tagWord_own (clean_opened hc) ho.opened]
    dsimp only
    rw [if_pos rfl, ownTag_ready _ ho.opened.tags ho.afresh ht.opened, ho.opened.takeWord, State.word,
      State.bytes_opened]
    rfl
  · refine exec_done rfl h ?_
    rw [answered_none (ho.opened.answer 0), tagWord_own (clean_opened hc) ho.opened]
    have hr' : (s.opened (.stw g a b)).released (s.opened (.stw g a b)).mw.scope.toNat := hr
    dsimp only
    rw [scopeOf, releasing_released hr', if_pos rfl]
    exact ownTag_ready _ ho.opened.tags ho.afresh ht.opened

end Sys2Proof.Proofs
end

section
/-! ## Futures that are final (O18) -/

namespace Sys2Proof.Machine

variable {s t : State}

/-! ### A future table after a change of one entry (R142, R152) -/

theorem SMap.find_ins_self {α : Type} {m : SMap α} {k : Nat} {v : α} (h : ∀ e ∈ m, e.1 ≠ k) :
    (SMap.ins m k v).find? (fun x => x.1 == k) = some (k, v) := by
  induction m with
  | nil => simp [SMap.ins]
  | cons e r ih =>
    obtain ⟨i, w⟩ := e
    have hi : i ≠ k := h (i, w) List.mem_cons_self
    unfold SMap.ins
    split
    · simp
    · rw [List.find?_cons_of_neg (by simpa using hi)]
      exact ih fun e he => h e (List.mem_cons_of_mem _ he)

/-- The module's number and the bases of its tables stand as they were, and no more slots are lost. -/
structure State.SameBases (s t : State) : Prop where
  modNo : t.modNo = s.modNo
  parkbase : ∀ c, (t.cluster c).parkbase = (s.cluster c).parkbase
  futbase : ∀ c, (t.cluster c).futbase = (s.cluster c).futbase
  lostSlots : ∀ c, (t.cluster c).lostSlots = (s.cluster c).lostSlots

/-- So do the entries that its tables hold. -/
structure State.SameTables (s t : State) : Prop extends s.SameBases t where
  fut : ∀ c, (t.cluster c).fut = (s.cluster c).fut

theorem State.SameBases.trans {u : State} (h : s.SameBases t) (h' : t.SameBases u) : s.SameBases u :=
  ⟨h'.1.trans h.1, fun c => (h'.2 c).trans (h.2 c), fun c => (h'.3 c).trans (h.3 c), fun c => (h'.4 c).trans (h.4 c)⟩

theorem State.SameTables.trans {u : State} (h : s.SameTables t) (h' : t.SameTables u) : s.SameTables u :=
  ⟨h.toSameBases.trans h'.toSameBases, fun c => (h'.fut c).trans (h.fut c)⟩

theorem State.SameTables.of_clusters (hm : t.modNo = s.modNo) (hc : t.clusters = s.clusters) : s.SameTables t := by
  have hk : ∀ c, t.cluster c = s.cluster c := fun c => by rw [State.cluster, State.cluster, hc]
  exact ⟨⟨hm, fun c => by rw [hk], fun c => by rw [hk], fun c => by rw [hk]⟩, fun c => by rw [hk]⟩

/-- What holds of the cluster that is written, and of all others, holds of all. -/
theorem State.cluster_setCluster_eq {α : Type} (f : Cluster → α) {n : Nat} {k : Cluster} (h : f k = f (s.cluster n))
    (c : Nat) : f ((s.setCluster n k).cluster c) = f (s.cluster c) := by
  rw [State.cluster_setCluster]
  split
  · next e => rw [h, e]
  · rfl

theorem State.setCluster_bases {n : Nat} {k : Cluster} (hp : k.parkbase = (s.cluster n).parkbase)
    (hf : k.futbase = (s.cluster n).futbase) (hl : k.lostSlots = (s.cluster n).lostSlots) :
    s.SameBases (s.setCluster n k) :=
  ⟨rfl, State.cluster_setCluster_eq _ hp, State.cluster_setCluster_eq _ hf, State.cluster_setCluster_eq _ hl⟩

theorem State.setFut_bases (cl slot : Nat) (e : Option FutEntry) : s.SameBases (s.setFut cl slot e) :=
  State.setCluster_bases rfl rfl rfl

theorem State.SameBases.parkOff (h : s.SameBases t) (cl : Nat) : t.parkOff cl = s.parkOff cl := by
  rw [State.parkOff, State.parkOff, h.parkbase]

theorem State.SameBases.parkPa (h : s.SameBases t) (cl i : Nat) : t.parkPa cl i = s.parkPa cl i := by
  rw [State.parkPa, State.parkPa, State.ownPa, State.ownPa, h.parkOff, h.modNo]

/-- A future is live by the tables alone. -/
theorem State.Live.congr {h : Word} {e : FutEntry} (l : s.Live h e) (ht : s.SameTables t) : t.Live h e :=
  ⟨by rw [ht.modNo]; exact l.own, l.cluster, l.gen, l.kind, by rw [State.futBase, ht.futbase]; exact l.base,
    by rw [ht.lostSlots]; exact l.kept, by rw [ht.fut]; exact l.held, l.live⟩

/-- An entry put in the place of a live future's with its generation and kind is live. -/
theorem State.Live.setFut {h : Word} {e e' : FutEntry} (l : s.Live h e) (hg : e'.gen = e.gen) (hk : e'.kind = e.kind)
    (hs : e'.state ≠ 0) : (s.setFut (hCluster h) (hSlot h) (some e')).Live h e' := by
  have hb := s.setFut_bases (hCluster h) (hSlot h) (some e')
  refine ⟨l.own, l.cluster, by rw [hg]; exact l.gen, by rw [hk]; exact l.kind,
    by rw [State.futBase, hb.futbase]; exact l.base, by rw [hb.lostSlots]; exact l.kept, ?_, hs⟩
  rw [State.setFut, State.cluster_setCluster, if_pos rfl]
  exact SMap.find_ins_self fun x hx => (SMap.key_of_mem_del hx).1

theorem State.Live.putEntry {h : Word} {e e' : FutEntry} (l : s.Live h e) (hg : e'.gen = e.gen) (hk : e'.kind = e.kind)
    (hs : e'.state ≠ 0) :
    (s.putEntry (hCluster h) (hSlot h) e').Live h { e' with dirty := true, use := s.now } := l.setFut hg hk hs

theorem State.Live.renew {h : Word} {e : FutEntry} (l : s.Live h e) :
    (s.renew (hCluster h) (hSlot h) e).Live h { e with use := s.now } := l.setFut rfl rfl l.live

/-! ### The end of a future without waiters of a chain (R145) -/

/-- A fold whose steps leave the module's number and its clusters leaves the tables. -/
theorem foldl_tables {α : Type} {f : State → α → State} (h : ∀ s x, State.SameTables s (f s x)) (l : List α)
    (s : State) : s.SameTables (l.foldl f s) :=
  foldl_keeps s.SameTables f (fun t x hs => hs.trans (h t x)) l s (.of_clusters rfl rfl)

theorem State.answerSlots_tables (s : State) (kind : Nat) (obj after : Word) (a : Answer) :
    s.SameTables (s.answerSlots kind obj after a) := by
  unfold State.answerSlots
  extract_lets mine ws s'
  refine State.SameTables.trans (t := s') (.of_clusters rfl rfl) (foldl_tables (fun _ _ => ?_) ws s')
  exact .of_clusters rfl rfl

theorem State.answerLeft_tables (s : State) (kind : Nat) (obj : Word) (a : Answer) :
    s.SameTables (s.answerLeft kind obj a) := foldl_tables (fun s t => s.answerSlots_tables kind obj t a) _ s

@[simp] theorem State.deliverChain_zero (s : State) (cl : Nat) (h : Word) (ok : Bool) (v : Word) (n : Nat) :
    s.deliverChain cl h ok v n 0 = s := by
  cases n with
  | zero => rfl
  | succ n => rfl

/-- A future that ends without a chain stays live, with the state and the value given. -/
theorem State.Live.finish {h : Word} {e : FutEntry} {st : BitVec 3} (v : Word) (l : s.Live h e) (hh : e.head = 0)
    (hst : st ≠ 0) : (s.finish (hCluster h) (hSlot h) e st v).Live h
      { e with state := st, value := v, head := 0, tail := 0, dirty := true, use := s.now } := by
  have hput := l.putEntry (e' := { e with state := st, value := v, head := 0, tail := 0 }) rfl rfl hst
  unfold State.finish
  rw [hh]
  dsimp only
  rw [State.deliverChain_zero]
  exact hput.congr ((State.answerSlots_tables ..).trans (State.answerLeft_tables ..))

/-! ### Requests to a future that is final -/

section
variable {h : Word} {e : FutEntry} (l : s.Live h e)
include l

theorem State.Live.cancelPort_final (hs : e.state ≠ 1) :
    s.cancelPort h = (.ok, s.renew (hCluster h) (hSlot h) e) := by
  simp only [State.cancelPort, l.find, if_pos hs]

theorem State.Live.endFuture_final (hs : e.state ≠ 1) (st : BitVec 3) (v : Word) :
    s.endFuture h st v = s.renew (hCluster h) (hSlot h) e := by
  simp only [State.endFuture, if_neg (not_not.mpr l.own), l.find, if_neg hs]

/-- RESOLVE and POISON change nothing at a final future, whoever makes them (R187). -/
theorem State.Live.endPort_final (hs : e.state ≠ 1) (task : Word) (st : BitVec 3) (v : Word) :
    (s.endPort h task st v).2 = s.renew (hCluster h) (hSlot h) e := by
  simp only [State.endPort, l.find, if_pos hs, apply_ite Prod.snd, ite_self]

/-- The task whose future it is, and any of a promise, may make them. -/
theorem State.Live.endPort_mine {task : Word} (hs : e.state ≠ 1) (hk : e.kind = 4 ∨ (e.kind = 0 ∧ h = task))
    (st : BitVec 3) (v : Word) : s.endPort h task st v = (.ok, s.renew (hCluster h) (hSlot h) e) := by
  have h1 : ¬ (e.kind ≠ 0 ∧ e.kind ≠ 4) := fun hn => hk.elim hn.2 fun hk => hn.1 hk.1
  have h2 : ¬ (e.kind = 0 ∧ h ≠ task) := fun hn =>
    hk.elim (fun hk => absurd (hk.symm.trans hn.1) (by decide)) fun hk => hn.2 hk.2
  simp only [State.endPort, l.find, if_neg h1, if_neg h2, if_pos hs]

/-- A handle of another generation or kind is stale at the port of a live future's slot (R149). -/
theorem State.Live.peek_stale {h' : Word} (hm : hModule h' = hModule h) (hc : hCluster h' = hCluster h)
    (hn : hSlot h' = hSlot h) (hd : hGen h' ≠ hGen h ∨ hKind h' ≠ hKind h) :
    s.peek h' = (.stale, s) := by
  have hfill : s.fill (hCluster h) (hSlot h) = (some e, s) := by
    unfold State.fill
    simp only [l.kept, l.held, Bool.false_eq_true, if_false]
  unfold State.peek
  dsimp only
  rw [hm, hc, hn, hfill]
  split
  · rfl
  · refine if_pos ?_
    rcases hd with hd | hd
    · exact .inr (.inl fun hg => hd (hg.symm.trans l.gen.2))
    · exact .inr (.inr fun hk => hd (hk.symm.trans l.kind.2))

end

/-- A request that its port grants ends its instruction (R183). -/
theorem viaPort_ok {h : Word} {code : Nat} {x : Word} {here : State → PortAns × State} (ho : hModule h = s.modNo.toNat)
    (hf : s.me.flight = none) (hh : here s = (.ok, t)) : viaPort s h code x here (plainPort h) = .done t := by
  rw [viaPort_here ho hf, hh]
  rfl

theorem FutEntry.freed_gen (e : FutEntry) : e.freed.gen ≠ e.gen ∧ (e.gen ≠ 0 → e.freed.gen ≠ 0) := by
  unfold FutEntry.freed
  dsimp only
  split
  · next h => rw [h]; decide
  · next h => constructor <;> bv_omega

end Sys2Proof.Machine

namespace Sys2Proof.Proofs

open Sys2Proof.Machine

/-- Settles O18: the entry is written with its generation and kind, and a request that finds it final only uses
it. -/
theorem finishedFuturesStayFinal : Obligations.FinishedFuturesStayFinal := by
  unfold Obligations.FinishedFuturesStayFinal
  have hpend {x : BitVec 3} (h : x = 2 ∨ x = 3 ∨ x = 4) : x ≠ 1 := by
    rcases h with rfl | rfl | rfl <;> decide
  refine ⟨fun s h e st v l _ hh hst => ⟨_, l.finish v hh hst, rfl, rfl, rfl⟩, fun s h e l hs =>
      ⟨⟨_, l.renew, rfl, rfl, rfl⟩, l.cancelPort_final (hpend hs), fun st v task =>
        ⟨l.endFuture_final (hpend hs) st v, l.endPort_final (hpend hs) task st v, fun hk =>
          congrArg Prod.fst (l.endPort_mine (hpend hs) hk st v)⟩⟩,
    fun s g a b e l hs hk hc hf hd => ?_, fun s h e l h' hm hcl _ hn hg => ?_,
    fun e => ⟨rfl, e.freed_gen⟩⟩
  · intro used
    refine ⟨fun h => exec_done_of_clean rfl h hc ?_, fun h h0 h5 => exec_done_of_clean rfl h hc ?_⟩
    · rw [draining_settled (settled_opened hd)]
      exact viaPort_ok l.own hf (l.opened.endPort_mine (hpend hs) hk 2 _)
    · have hw : faultWordOk ((s.opened (.poison g a b)).gv b) = true := decide_eq_true ⟨h0, h5⟩
      rw [hw, draining_settled (settled_opened hd)]
      exact viaPort_ok l.own hf (l.opened.endPort_mine (hpend hs) hk 3 _)
  · have hp := l.peek_stale hm hcl hn hg
    simp only [State.touchPort, State.find, State.statPort, hp, and_self]

end Sys2Proof.Proofs
end

section
/-! ## What futures, barriers and parked tasks leave of the strands -/

namespace Sys2Proof.Machine

variable {s t u : State}

/-- State `t` has come from `s` beside its strands: what is issued, every strand, the words of the ports and the
module's number stand. -/
structure State.Beside (s t : State) : Prop where
  issue : t.issue = s.issue
  modNo : t.modNo = s.modNo
  strands : ∀ n, (t.core n).strands = (s.core n).strands
  portQ : ∀ n, (t.core n).portQ = (s.core n).portQ

namespace State.Beside

theorem refl (s : State) : s.Beside s := ⟨rfl, rfl, fun _ => rfl, fun _ => rfl⟩

theorem trans (h : s.Beside t) (k : t.Beside u) : s.Beside u :=
  ⟨k.issue.trans h.issue, k.modNo.trans h.modNo, fun n => (k.strands n).trans (h.strands n),
    fun n => (k.portQ n).trans (h.portQ n)⟩

theorem of_eq (hi : t.issue = s.issue) (hm : t.modNo = s.modNo) (hc : t.cores = s.cores) : s.Beside t :=
  ⟨hi, hm, fun _ => by unfold State.core; rw [hc], fun _ => by unfold State.core; rw [hc]⟩

theorem strand (h : s.Beside t) (n k : Nat) : t.strand n k = s.strand n k := by
  rw [State.strand, State.strand, h.strands]

theorem me (h : s.Beside t) : t.me = s.me := by
  rw [State.me, State.me, h.strand, h.issue]

theorem gv (h : s.Beside t) (r : Reg) : t.gv r = s.gv r := by
  have hq : t.myCore.portQ = s.myCore.portQ := by rw [State.myCore, State.myCore, h.portQ, h.issue]
  rw [State.gv, State.gv, State.g, State.g, h.me, hq]

theorem setCore (h : s.Beside t) {n : Nat} {c : Core} (hs : c.strands = (t.core n).strands)
    (hq : c.portQ = (t.core n).portQ) : s.Beside (t.setCore n c) := by
  refine h.trans ⟨rfl, rfl, fun m => ?_, fun m => ?_⟩
  · rw [State.core_setCore]
    split
    · next e => rw [hs, e]
    · rfl
  · rw [State.core_setCore]
    split
    · next e => rw [hq, e]
    · rfl

theorem foldl {α : Type} {f : State → α → State} (h : s.Beside t) (l : List α)
    (hf : ∀ (u : State) a, s.Beside u → s.Beside (f u a)) : s.Beside (l.foldl f t) :=
  foldl_keeps s.Beside f hf l t h

theorem withLinks (h : s.Beside t) (k : SMap Cluster) (f : List (Nat × Packet)) (n : Nat) (m : Manage) :
    s.Beside (t.withLinks k f n m) := h.trans (of_eq rfl rfl rfl)

theorem record (h : s.Beside t) (c : Code) (l v : Nat) : s.Beside (t.record c l v) := h.trans (of_eq rfl rfl rfl)

theorem setCluster (h : s.Beside t) (n : Nat) (k : Cluster) : s.Beside (t.setCluster n k) :=
  h.trans (of_eq rfl rfl rfl)

theorem setFut (h : s.Beside t) (cl slot : Nat) (e : Option FutEntry) : s.Beside (t.setFut cl slot e) :=
  h.setCluster _ _

theorem putEntry (h : s.Beside t) (cl slot : Nat) (e : FutEntry) : s.Beside (t.putEntry cl slot e) := h.setFut _ _ _

theorem setFarLink (h : s.Beside t) (x y : Word) : s.Beside (t.setFarLink x y) := h.trans (of_eq rfl rfl rfl)

/-! ### HBM read and written by the device -/

theorem caches (h : s.Beside t) (k : t.CachesOnly u) : s.Beside u := by
  obtain ⟨l, ps, rfl, -⟩ := k
  exact h.trans (of_eq rfl rfl rfl)

theorem checkGran (h : s.Beside t) (g : Nat) : s.Beside (t.checkGran g) := by
  obtain ⟨p, l, m, e⟩ := t.checkGran_eq g
  rw [e]
  exact h.trans (of_eq rfl rfl rfl)

theorem readHbm (h : s.Beside t) (o n : Nat) : s.Beside (t.readHbm o n).2.2 := h.foldl _ fun _ g h => h.checkGran g

theorem loseRecords (h : s.Beside t) (o n : Nat) : s.Beside (t.loseRecords o n) := by
  unfold State.loseRecords
  dsimp only
  refine (h.foldl _ fun u x h => ?_).foldl _ fun u x h => ?_ <;>
  · split
    · exact h
    · exact h.trans (of_eq rfl rfl rfl)

theorem writeHbm (h : s.Beside t) (o : Nat) (bs : List Byte) : s.Beside (t.writeHbm o bs) := by
  obtain ⟨p, l, m, e⟩ := t.writeGrans_eq o bs
  obtain ⟨ps, e'⟩ := State.markDirtyAll_eq (t.writeGrans o bs) (linesOf o bs.length)
  refine State.Beside.loseRecords ?_ o bs.length
  rw [e', e]
  exact h.trans (of_eq rfl rfl rfl)

theorem emit (h : s.Beside t) (p : Packet) : s.Beside (t.emit p) := by
  obtain ⟨k, f, n, m, e⟩ := State.emit_eq (s := t) p
  rw [e]
  exact h.withLinks ..

theorem redEnd (h : s.Beside t) (x : RedVal) (ok : Bool) : s.Beside (t.redEnd x ok) := by
  unfold State.redEnd
  cases x.pkt with
  | some p => cases ok <;> exact h.emit _
  | none =>
    cases ok
    · exact h.trans (of_eq rfl rfl rfl)
    · exact h

theorem applyGroup (h : s.Beside t) (g : Group) : s.Beside (t.applyGroup g) := by
  have hg : s.Beside { t with groups := t.groups.filter fun x => x.id != g.id } := h.trans (of_eq rfl rfl rfl)
  have hr := (hg.caches (State.cacheAccess_caches _ g.addr)).readHbm g.addr (redSize g.op g.w)
  unfold State.applyGroup
  dsimp only
  split
  · exact hr.foldl _ fun _ x h => h.redEnd x false
  · exact (hr.writeHbm ..).foldl _ fun _ x h => h.redEnd x true

theorem flushLine (h : s.Beside t) (o : Nat) : s.Beside (t.flushLine o) := h.foldl _ fun _ g h => h.applyGroup g

theorem flushLines (h : s.Beside t) (o n : Nat) : s.Beside (t.flushLines o n) := h.foldl _ fun _ l h => h.flushLine l

theorem cacheLines (h : s.Beside t) (o n : Nat) : s.Beside (t.cacheLines o n) := h.caches (t.cacheLines_caches o n)

theorem hbmRead (h : s.Beside t) (o n : Nat) : s.Beside (t.hbmRead o n).2.2 :=
  ((h.flushLines o n).cacheLines o n).readHbm o n

theorem hbmWrite (h : s.Beside t) (o : Nat) (bs : List Byte) : s.Beside (t.hbmWrite o bs) := by
  have hc := (h.flushLines o bs.length).cacheLines o bs.length
  refine State.Beside.writeHbm (State.Beside.foldl hc _ fun u l hu => ?_) o bs
  exact hu.trans (of_eq rfl rfl rfl)

theorem meetTail (h : s.Beside t) (x : Word) : s.Beside (t.meetTail x) := by
  unfold State.meetTail
  split
  · exact h.hbmRead ..
  · exact h

/-! ### Arrivals and park records (R137, R145, R156, R158) -/

theorem arrive (h : s.Beside t) (core : Nat) (d : Desc) : s.Beside (t.arrive core d) := by
  have hr (i : Nat) : s.Beside (t.ringPut (t.core core).arring i d) := h.hbmWrite _ _
  unfold State.arrive
  dsimp only
  split
  · exact h.setCore rfl rfl
  · split
    · have hr := hr (((t.core core).arHead + (t.core core).arFill) % ringSize (t.core core).arring)
      generalize t.ringPut _ _ _ = u at hr
      refine hr.setCore ?_ ?_
      · rfl
      · rfl
    · exact h.setCore rfl rfl

theorem wake (h : s.Beside t) (cl idx : Nat) : s.Beside (t.wake cl idx) := by
  unfold State.wake
  split
  · exact h
  · exact (h.hbmRead ..).arrive ..

theorem putImage (h : s.Beside t) (o d : Nat) (v : Word) : s.Beside (t.putImage o d v) :=
  ((h.hbmRead ..).hbmWrite ..).hbmWrite ..

theorem putPred (h : s.Beside t) (o n : Nat) (b : Bool) : s.Beside (t.putPred o n b) := by
  unfold State.putPred
  split
  · exact h
  · exact (h.hbmRead ..).hbmWrite ..

theorem deliverRecord (h : s.Beside t) (pa : Nat) (ok : Bool) (v : Word) : s.Beside (t.deliverRecord pa ok v) := by
  unfold State.deliverRecord
  split
  · exact h
  · have hr := h.hbmRead (paOffset pa + 294) 3
    refine State.Beside.wake ?_ _ _
    split
    · exact (hr.putImage ..).putPred ..
    · split
      · exact hr.putImage ..
      · exact (hr.hbmWrite ..).hbmWrite ..

/-! ### Requests and messages to other modules -/

theorem sendPacket (h : s.Beside t) (cl m path : Nat) (op : PktOp) (pa : Nat) (bs : List Byte) (oflag : Bool)
    (aux : BitVec 7) (args : List Word) : s.Beside (t.sendPacket cl m path op pa bs oflag aux args).2 := by
  obtain ⟨k, f, n, x, e⟩ := State.sendPacket_eq (s := t) cl m path op pa bs oflag aux args
  rw [e]
  exact h.withLinks ..

theorem sendReq (h : s.Beside t) (r : Req) : s.Beside (t.sendReq r) := by
  obtain ⟨k, f, n, m, y, e⟩ := State.sendReq_eq (s := t) r
  rw [e]
  exact h.trans (of_eq rfl rfl rfl)

theorem errand (h : s.Beside t) (cl elem : Nat) (op : ReqOp) (m pa size : Nat) :
    s.Beside (t.errand cl elem op m pa size) := by
  unfold State.errand
  extract_lets r
  have hr : s.Beside { t with nextId := t.nextId + 1, reqs := t.reqs ++ [r] } := h.trans (of_eq rfl rfl rfl)
  exact hr.sendReq r

theorem ask (h : s.Beside t) (elem : Nat) (op : ReqOp) (place : Place) (addr pa : Nat) (ea : Word) (size : Nat)
    (ver : Bool) : s.Beside (t.ask elem op place addr pa ea size ver) := by
  unfold State.ask
  extract_lets _ r u
  have hu : s.Beside u := h.trans (of_eq rfl rfl rfl)
  exact hu.sendReq r

theorem farRequest (h : s.Beside t) (cl elem : Nat) (x : Word) (code : Nat) (y : Word) :
    s.Beside (t.farRequest cl elem x code y) := by
  unfold State.farRequest
  split
  · exact h.errand ..
  · exact h

/-! ### Tables of futures (R142 to R152) -/

theorem writeBack (h : s.Beside t) (cl slot : Nat) (e : FutEntry) : s.Beside (t.writeBack cl slot e) := by
  unfold State.writeBack
  split
  · exact (h.hbmWrite ..).hbmWrite ..
  · exact h

theorem evict (h : s.Beside t) (cl : Nat) : s.Beside (t.evict cl) := by
  unfold State.evict
  split
  · exact h
  · split
    · exact (h.writeBack ..).setFut ..
    · exact h

theorem fill (h : s.Beside t) (cl slot : Nat) : s.Beside (t.fill cl slot).2 := by
  unfold State.fill
  dsimp only
  split
  · exact h.record ..
  · split
    · exact h
    · have hr := ((h.evict cl).hbmRead ((t.evict cl).futOff cl slot) 32).hbmRead
        (((t.evict cl).hbmRead ((t.evict cl).futOff cl slot) 32).2.2.memberOff cl slot) 64
      split
      · exact (hr.setCluster ..).record ..
      · dsimp only
        exact hr.setFut ..

theorem peek (h : s.Beside t) (x : Word) : s.Beside (t.peek x).2 := by
  unfold State.peek
  dsimp only
  split
  · exact h
  · have hf := h.fill (hCluster x) (hSlot x)
    generalize t.fill (hCluster x) (hSlot x) = y at hf
    obtain ⟨_ | e, u⟩ := y
    · exact hf
    · dsimp only
      split <;> exact hf

theorem find (h : s.Beside t) (x : Word) : s.Beside (t.find x).2 := by
  have hp := h.peek x
  unfold State.find
  generalize t.peek x = y at hp
  obtain ⟨_ | _ | ⟨cl, slot, e⟩, u⟩ := y
  · exact hp
  · exact hp
  · dsimp only
    exact hp.setFut ..

theorem answerSlots (h : s.Beside t) (kind : Nat) (obj after : Word) (a : Answer) :
    s.Beside (t.answerSlots kind obj after a) := by
  unfold State.answerSlots
  extract_lets mine ws t'
  have h' : s.Beside t' := h.trans (of_eq rfl rfl rfl)
  refine h'.foldl ws fun u w hu => ?_
  exact hu.trans (of_eq rfl rfl rfl)

theorem answerLeft (h : s.Beside t) (kind : Nat) (obj : Word) (a : Answer) : s.Beside (t.answerLeft kind obj a) :=
  h.foldl _ fun _ x h => h.answerSlots kind obj x a

theorem deliverTo (h : s.Beside t) (cl : Nat) (x y : Word) (ok : Bool) (v : Word) :
    s.Beside (t.deliverTo cl x y ok v) := by
  unfold State.deliverTo
  split
  · exact h.deliverRecord ..
  · dsimp only
    split
    · exact (h.setFarLink y 0).trans (of_eq (s := t.setFarLink y 0) rfl rfl rfl)
    · exact (h.setFarLink ..).sendPacket ..

theorem deliverChain (h : s.Beside t) (cl : Nat) (x : Word) (ok : Bool) (v : Word) (n : Nat) (y : Word) :
    s.Beside (t.deliverChain cl x ok v n y) := by
  induction n generalizing t y with
  | zero => exact h
  | succ n ih =>
    unfold State.deliverChain
    split
    · exact h
    · exact ih (((h.meetTail y).deliverTo ..).answerSlots ..) _

theorem finish (h : s.Beside t) (cl slot : Nat) (e : FutEntry) (st : BitVec 3) (v : Word) :
    s.Beside (t.finish cl slot e st v) :=
  (((h.putEntry ..).answerSlots ..).deliverChain ..).answerLeft ..

theorem endFuture (h : s.Beside t) (x : Word) (st : BitVec 3) (v : Word) : s.Beside (t.endFuture x st v) := by
  have hf := h.find x
  unfold State.endFuture
  split
  · exact h.farRequest ..
  · generalize t.find x = y at hf
    obtain ⟨_ | _ | ⟨cl, slot, e⟩, u⟩ := y
    · exact hf
    · exact hf
    · dsimp only
      split
      · exact hf.finish ..
      · exact hf

theorem dropRef (h : s.Beside t) (x : Word) : s.Beside (t.dropRef x) := by
  have hf := h.find x
  unfold State.dropRef
  split
  · exact h.farRequest ..
  · generalize t.find x = y at hf
    obtain ⟨_ | _ | ⟨cl, slot, e⟩, u⟩ := y
    · exact hf
    · exact hf
    · dsimp only
      split
      · exact hf.putEntry ..
      · refine State.Beside.putEntry ?_ _ _ _
        split
        · exact hf.finish ..
        · exact hf

/-! ### Barriers and memberships (R173 to R177) -/

theorem openBarrier (h : s.Beside t) (o : Nat) : s.Beside (t.openBarrier o) := h.hbmRead o 32

theorem putBarrier (h : s.Beside t) (o : Nat) (b : Barrier) : s.Beside (t.putBarrier o b) := h.hbmWrite ..

theorem releaseChain (h : s.Beside t) (va v tail : Word) (ok : Bool) (n : Nat) (x : Word) :
    s.Beside (t.releaseChain va v tail ok n x) := by
  induction n generalizing t x with
  | zero => exact h
  | succ n ih =>
    unfold State.releaseChain
    dsimp only
    split
    · exact h
    · split
      · split
        · exact h.meetTail x
        · split
          · exact (h.meetTail x).deliverRecord ..
          · exact ih ((h.meetTail x).deliverRecord ..) _
      · split
        · exact h.errand ..
        · exact h

theorem endPhase (h : s.Beside t) (o : Nat) (va : Word) (b : Barrier) (last : Nat) :
    s.Beside (t.endPhase o va b last) := ((h.putBarrier ..).answerLeft ..).releaseChain ..

theorem settleBarrier (h : s.Beside t) (o : Nat) (va : Word) (b : Barrier) : s.Beside (t.settleBarrier o va b) := by
  unfold State.settleBarrier
  split
  · exact h.endPhase ..
  · exact h.putBarrier ..

theorem barrierPort (h : s.Beside t) (o : Nat) (va : Word) (code : Nat) (m : Member) (x : Word) :
    s.Beside (t.barrierPort o va code m x).2 := by
  have ho := h.openBarrier o
  unfold State.barrierPort
  generalize t.openBarrier o = u at ho
  split <;> dsimp only
  · split
    · exact ho
    · exact ho.settleBarrier ..
  · split
    · exact ho
    · exact ho.settleBarrier ..
  · exact ho.settleBarrier ..
  · split
    · exact ho
    · exact ho.settleBarrier ..
  · exact ho.endPhase ..
  · split
    · exact ho
    · split <;> exact ho

theorem members? (h : s.Beside t) (task : Word) : s.Beside (t.members? task).2 := by
  have hf := h.find task
  unfold State.members?
  generalize t.find task = y at hf
  obtain ⟨_ | _ | ⟨cl, slot, e⟩, u⟩ := y <;> exact hf

theorem putMembers (h : s.Beside t) (cl slot : Nat) (ms : List Member) : s.Beside (t.putMembers cl slot ms) :=
  h.putEntry ..

theorem takeMembers (h : s.Beside t) (task : Word) : s.Beside (t.takeMembers task).2 := by
  have hm := h.members? task
  unfold State.takeMembers
  generalize t.members? task = y at hm
  obtain ⟨_ | ⟨cl, slot, e⟩, u⟩ := y
  · exact hm
  · exact hm.putMembers ..

theorem walk (h : s.Beside t) (cl : Nat) (ctx : BitVec 12) (va n level pa : Nat) :
    s.Beside (t.walk cl ctx va n level pa).2 := by
  induction n generalizing t level pa with
  | zero => exact h
  | succ n ih =>
    have choose {t : State} (h : s.Beside t) (n : Nat) : s.Beside (t.choose n).2 := h.trans (of_eq rfl rfl rfl)
    have readEntry {t : State} (h : s.Beside t) (pa : Nat) : s.Beside (t.readEntry pa).2.2 := h.hbmRead ..
    have hu (b : Bool) : s.Beside (if b then t.choose 2 else (0, t)).2 := by cases b <;> [exact h; exact choose h 2]
    have hv {u : State} (hu : s.Beside u) (b : Bool) (e : Word) (pa : Nat) :
        s.Beside (if b then (e, false, u) else u.readEntry pa).2.2 := by
      cases b <;> [exact readEntry hu pa; exact hu]
    unfold State.walk
    extract_lets ea held usable
    replace hu := hu usable
    generalize (if usable then t.choose 2 else (0, t)) = x at hu
    obtain ⟨c, u⟩ := x
    dsimp only
    split
    · exact hu
    replace hv := hv hu (usable && c == 1) held ea
    generalize (if usable && c == 1 then (held, false, u) else u.readEntry ea) = y at hv
    obtain ⟨e, p, v⟩ := y
    dsimp only
    split
    · exact hv
    · exact hv
    · refine ih ?_ _ _
      split
      · exact hv.setCluster ..
      · exact hv

theorem barrierPa (h : s.Beside t) (cl : Nat) (root va : Word) : s.Beside (t.barrierPa cl root va).2 := by
  have hw : s.Beside (t.walkRoot cl root va.toNat).2 := by
    unfold State.walkRoot
    split
    · exact h
    · exact h.walk ..
  unfold State.barrierPa
  generalize t.walkRoot cl root va.toNat = y at hw
  obtain ⟨_ | _, u⟩ := y <;> exact hw

theorem leaveOne (h : s.Beside t) (cl : Nat) (root : Word) (code : Nat) (m : Member) :
    s.Beside (t.leaveOne cl root code m).2 := by
  have hp := h.barrierPa cl root m.addr
  unfold State.leaveOne
  generalize t.barrierPa cl root m.addr = y at hp
  obtain ⟨_ | pa, u⟩ := y
  · exact hp
  · dsimp only
    split
    · exact hp.barrierPort ..
    · exact hp

/-- The requests and messages that a task's end sends out for its memberships. -/
theorem exitLeaves (h : s.Beside t) (ms : List Member) : s.Beside (t.exitLeaves ms).2 := by
  refine List.foldlRecOn (motive := fun x : Nat × State => s.Beside x.2) ms _ h fun x hx m _ => ?_
  have hl := hx.leaveOne t.myCluster t.root 16 m
  generalize x.2.leaveOne t.myCluster t.root 16 m = y at hl
  obtain ⟨_ | pa, u⟩ := y
  · exact hl
  · dsimp only
    exact hl.ask ..

/-! ### Reservations (R276) -/

theorem answerReq (h : s.Beside t) (r : Req) (a : Answer) : s.Beside (t.answerReq r a) := by
  have hr : s.Beside { t with reqs := t.reqs.filter fun x => x.id != r.id } := h.trans (of_eq rfl rfl rfl)
  unfold State.answerReq
  cases r.pkt with
  | some p => exact hr.emit _
  | none => exact hr.trans (of_eq rfl rfl rfl)

theorem grant (h : s.Beside t) (line : Nat) : s.Beside (t.grant line) := by
  unfold State.grant
  split
  · exact h
  · split
    · dsimp only
      split
      · exact h.trans (of_eq rfl rfl rfl)
      · next q _ =>
        refine State.Beside.answerReq (State.Beside.readHbm (State.Beside.cacheLines (State.Beside.flushLine ?_ _)
          _ _) _ _) _ _
        exact h.trans (of_eq rfl rfl rfl)
    · exact h

theorem releaseResv (h : s.Beside t) (core slot inst : Nat) : s.Beside (t.releaseResv core slot inst) := by
  unfold State.releaseResv State.releaseLines
  dsimp only
  generalize t.resv.filter _ = rs
  have hr : s.Beside { t with resv := rs } := h.trans (of_eq rfl rfl rfl)
  refine hr.foldl _ fun u r hu => ?_
  split
  · exact hu.grant _
  · split
    · exact hu
    · exact hu.sendPacket ..

theorem useTlb (h : s.Beside t) (ea : Word) : s.Beside (t.useTlb ea) := by
  unfold State.useTlb
  split
  · exact h.setCore rfl rfl
  · exact h

end State.Beside

end Sys2Proof.Machine
end

section
/-! ## Park records in HBM, and parking (R134 to R137) -/

namespace Sys2Proof.Machine

variable {s t : State}

/-! ### HBM read and written by the device where nothing stands in its way -/

theorem State.QuietAt.flushLines {o n : Nat} (h : s.QuietAt o n) : s.flushLines o n = s := by
  unfold State.flushLines
  have hl : ∀ l ∈ linesOf o n, s.flushLine l = s := by
    intro l hl
    unfold linesOf at hl
    split at hl
    · cases hl
    · simp only [List.mem_map, List.mem_range] at hl
      obtain ⟨i, hi, rfl⟩ := hl
      unfold State.flushLine
      rw [List.filter_eq_nil_iff.2 fun g hg => ?_]
      · rfl
      · have := h.groups g hg
        simp only [beq_iff_eq]
        omega
  generalize linesOf o n = ls at hl
  induction ls with
  | nil => rfl
  | cons a r ih =>
    rw [List.foldl_cons, hl a List.mem_cons_self]
    exact ih fun x hx => hl x (List.mem_cons_of_mem _ hx)

theorem State.QuietAt.caches {o n : Nat} (h : s.QuietAt o n) (hc : s.CachesOnly t) : t.QuietAt o n := by
  obtain ⟨l, ps, rfl, hl⟩ := hc
  exact ⟨h.groups, fun g hg => hl _ (h.sound g hg), h.looms, h.copies⟩

/-- A read finds the bytes that stand, and changes caches alone (R210, R212). -/
theorem State.QuietAt.hbmRead {o n : Nat} (h : s.QuietAt o n) : ∃ t, s.CachesOnly t ∧
    s.hbmRead o n = (s.bytes o n, (wordsOf o n).map (fun w => s.granPois (w / 4)), t) := by
  have hc := s.cacheLines_caches o n
  refine ⟨_, hc, ?_⟩
  rw [State.hbmRead, h.flushLines, State.readHbm_sound (h.caches hc).sound, State.bytes_congr hc.mem, hc.granPois]

/-- A reservation of the same strand on the same line. -/
def Resv.SameHolder (r r' : Resv) : Prop := r.line = r'.line ∧ r.core = r'.core ∧ r.slot = r'.slot ∧ r.inst = r'.inst

theorem Resv.SameHolder.trans {r r' x : Resv} (h : r.SameHolder r') (k : r'.SameHolder x) : r.SameHolder x := by
  obtain ⟨h1, h2, h3, h4⟩ := h
  obtain ⟨k1, k2, k3, k4⟩ := k
  exact ⟨h1.trans k1, h2.trans k2, h3.trans k3, h4.trans k4⟩

/-- What a write of the device leaves of the reservations: their holders, not that they are intact (R273). -/
theorem State.engineTouches_eq (s : State) (ls : List Nat) : ∃ rs, ls.foldl (fun s l => s.engineTouch l) s =
    { s with resv := rs } ∧ ∀ r ∈ rs, ∃ r' ∈ s.resv, r.SameHolder r' := by
  induction ls generalizing s with
  | nil => exact ⟨s.resv, rfl, fun r hr => ⟨r, hr, rfl, rfl, rfl, rfl⟩⟩
  | cons a l ih =>
    obtain ⟨rs, e, hrs⟩ := ih (s.engineTouch a)
    refine ⟨rs, e, fun r hr => ?_⟩
    obtain ⟨r', hr', hsame⟩ := hrs r hr
    obtain ⟨x, hx, rfl⟩ := List.mem_map.1 hr'
    have hs : (if x.line = s.ownPa a / 128 ∧ ¬(x.core = 2 ^ 40 ∧ x.slot = 0 ∧ x.inst = 0) then
        { x with intact := false } else x).SameHolder x := by
      split <;> exact ⟨rfl, rfl, rfl, rfl⟩
    exact ⟨x, hx, hsame.trans hs⟩

/-- A write leaves memory with its bytes; what else it changes is their poison, check bits, caches, records of
faults and what reservations are worth. -/
theorem State.QuietAt.hbmWrite {o : Nat} {bs : List Byte} (h : s.QuietAt o bs.length) :
    ∃ p l m ps rs, s.hbmWrite o bs =
      { s with mem := Machine.putBytes s.mem o bs, hbmPoison := p, latent := l, man := m, ports := ps, resv := rs } ∧
      ∀ r ∈ rs, ∃ r' ∈ s.resv, r.SameHolder r' := by
  unfold State.hbmWrite
  rw [h.flushLines]
  obtain ⟨l, ps, e, -⟩ := s.cacheLines_caches o bs.length
  rw [e]
  obtain ⟨rs, e', hrs⟩ := State.engineTouches_eq { s with latent := l, ports := ps } (linesOf o bs.length)
  dsimp only
  rw [e']
  obtain ⟨p, l', m, ps', e''⟩ := State.writeHbm_eq
    (s := { s with latent := l, ports := ps, resv := rs }) h.looms h.copies
  exact ⟨p, l', m, ps', rs, e'', hrs⟩

/-! ### The end of a strand's stay in its slot -/

/-- A strand that holds no reservation has none to release. -/
theorem State.releaseResv_none {core slot inst : Nat}
    (h : ∀ r ∈ s.resv, ¬(r.core = core ∧ r.slot = slot ∧ r.inst = inst)) : s.releaseResv core slot inst = s := by
  have hit : ∀ r ∈ s.resv, (r.core == core && r.slot == slot && r.inst == inst && true) = false := by
    intro r hr
    simpa [and_assoc] using h r hr
  unfold State.releaseResv State.releaseLines
  dsimp only
  rw [List.filter_eq_nil_iff.2 fun r hr => ne_true_of_eq_false (hit r hr),
    List.filter_eq_self.2 fun r hr => by rw [hit r hr]; rfl]
  rfl

theorem State.strand_vacate (core slot : Nat) (owner park : Option Nat) :
    (s.vacate core slot owner park).strand core slot = (s.strand core slot).freed := by
  unfold State.vacate State.strand Core.setStrand
  rw [State.core_setCore_self]
  exact SMap.get_put_self ..

theorem State.strand_freeSlot (core slot : Nat) : (s.freeSlot core slot).strand core slot =
    (s.strand core slot).freed := by
  unfold State.freeSlot
  dsimp only
  split <;> exact State.strand_vacate ..

theorem State.strand_parkSlot (core slot idx : Nat) : (s.parkSlot core slot idx).strand core slot =
    (s.strand core slot).freed := by
  unfold State.parkSlot
  dsimp only
  split <;> exact State.strand_vacate ..

/-- A slot given up is a change of its core alone. -/
theorem State.parkSlot_eq (core slot idx : Nat) : ∃ c, s.parkSlot core slot idx = s.setCore core c := by
  unfold State.parkSlot
  dsimp only
  split <;> exact ⟨_, rfl⟩

/-! ### A park index taken, and the strand parked under it -/

/-- A park index taken is marked with its core, and nothing else of the cluster changes (R136). -/
theorem State.takePark_eq {core n : Nat} (h : s.takePark core = some (n, t)) : t =
    { s with fresh := s.fresh + 1 }.setCluster (clusterOf core) { s.cluster (clusterOf core) with
      parked := SMap.put (s.cluster (clusterOf core)).parked 0 n (core + 1) } := by
  unfold State.takePark State.pickFree at h
  dsimp only at h
  split at h
  · cases h
  · split at h
    · cases h
    · next heq =>
      split at heq
      · cases heq
      · obtain ⟨⟩ := heq
        obtain ⟨⟩ := h
        rfl

theorem State.parkIndex_some {n : Nat} (h : s.parkIndex = some (n, t)) :
    s.me.pmode = false ∧ s.takePark s.issue.core = some (n, t) := by
  unfold State.parkIndex at h
  split at h
  · cases h
  · next hp => exact ⟨eq_false_of_ne_true hp, h⟩

/-- A strand that parks has its record written and its reservations released; then its slot is freed (R135, R136). -/
theorem State.parkAs_eq (s : State) (n : Nat) (pc : Word) (x : ParkTail) : ∃ c p, s.parkAs n pc x =
    ((((s.hbmWrite (s.parkOff s.myCluster + 384 * n) (s.recordBytes s.me pc x)).releaseResv s.issue.core s.issue.slot
      s.me.inst).setCluster s.myCluster { State.cluster ((s.hbmWrite (s.parkOff s.myCluster + 384 * n)
        (s.recordBytes s.me pc x)).releaseResv s.issue.core s.issue.slot s.me.inst) s.myCluster with
          parkSup := p }).setCore s.issue.core c).parkSlot s.issue.core s.issue.slot n := by
  have hw := (State.Beside.refl s).hbmWrite (s.parkOff s.myCluster + 384 * n) (s.recordBytes s.me pc x)
  unfold State.parkAs
  unfold State.myCluster at hw ⊢
  dsimp only
  generalize s.hbmWrite _ _ = w at hw
  rw [hw.issue]
  have hu := hw.releaseResv s.issue.core s.issue.slot s.me.inst
  generalize w.releaseResv _ _ _ = u at hu
  refine ⟨((u.core s.issue.core).count 5 1),
    SMap.put (u.cluster (clusterOf s.issue.core)).parkSup {} n s.me.supervisor, ?_⟩
  rw [← hu.issue]
  rfl

theorem State.parkAs_st (n : Nat) (pc : Word) (x : ParkTail) :
    ((s.parkAs n pc x).strand s.issue.core s.issue.slot).st = .free := by
  obtain ⟨c, p, e⟩ := s.parkAs_eq n pc x
  rw [e, State.strand_parkSlot]
  rfl

end Sys2Proof.Machine
end

section
/-! ## The fields of a park record (R137) -/

namespace Sys2Proof.Machine

variable {s t : State}

theorem State.bytes_append_iff {o : Nat} {as bs : List Byte} : s.bytes o (as ++ bs).length = as ++ bs ↔
    s.bytes o as.length = as ∧ s.bytes (o + as.length) bs.length = bs := by
  have hb (o a b : Nat) : s.bytes o (a + b) = s.bytes o a ++ s.bytes (o + a) b := by
    induction a generalizing o with
    | zero => simp [State.bytes]
    | succ a ih =>
      rw [Nat.succ_add_eq_add_succ, Nat.add_succ]
      simp [State.bytes, ih, Nat.add_assoc, Nat.add_comm 1]
  rw [List.length_append, hb]
  exact ⟨fun h => List.append_inj h (State.bytes_length ..), fun ⟨h, k⟩ => by rw [h, k]⟩

/-- Bytes inside of a stretch that is known. -/
theorem State.bytes_slice {o n i k : Nat} {bs : List Byte} (h : s.bytes o n = bs) (hk : i + k ≤ n) :
    s.bytes (o + i) k = (bs.drop i).take k := by
  subst h
  refine List.ext_getElem ?_ fun j h1 h2 => ?_
  · simp only [State.bytes_length, List.length_take, List.length_drop]
    omega
  · rw [State.bytes_getElem, List.getElem_take, List.getElem_drop, State.bytes_getElem, Nat.add_assoc]

theorem length_flatMap_leBytes {α : Type} (f : α → Nat) (l : List α) :
    (l.flatMap fun a => leBytes 8 (f a)).length = 8 * l.length := by
  simp [List.length_flatMap, Nat.mul_comm]

/-- One word of a row of words. -/
theorem take_drop_flatMap_leBytes (f : Nat → Nat) {n i : Nat} (h : i < n) :
    (((List.range n).flatMap fun a => leBytes 8 (f a)).drop (8 * i)).take 8 = leBytes 8 (f i) := by
  have hd (l : List Nat) (i : Nat) : (l.flatMap fun a => leBytes 8 (f a)).drop (8 * i) =
      (l.drop i).flatMap fun a => leBytes 8 (f a) := by
    induction l generalizing i with
    | nil => simp
    | cons a r ih =>
      cases i with
      | zero => rfl
      | succ i => simp [Nat.mul_add, List.drop_append, ih, List.drop_eq_nil_of_le]
  rw [hd, List.drop_eq_getElem_cons (by simpa using h), List.flatMap_cons, List.getElem_range,
    List.take_left' (length_leBytes ..)]

theorem length_descBytes (d : Desc) : d.bytes.length = 160 := by
  simp [Desc.bytes]

theorem length_recordBytes (pc : Word) (x : ParkTail) (y : Strand) : (s.recordBytes y pc x).length = 384 := by
  unfold State.recordBytes
  dsimp only
  simp only [List.length_append, length_leBytes, length_flatMap_leBytes, List.length_take, length_descBytes,
    List.length_range]
  rfl

/-- The poison bits of the registers of a record, as a number. -/
theorem testBit_poisonSum (f : Nat → Bool) (n : Nat) :
    (List.range n).foldl (fun m i => if f i then m + 2 ^ i else m) 0 < 2 ^ n ∧
    ∀ i < n, ((List.range n).foldl (fun m i => if f i then m + 2 ^ i else m) 0).testBit i = f i := by
  induction n with
  | zero => simp
  | succ n ih =>
    obtain ⟨hl, hb⟩ := ih
    rw [List.range_succ, List.foldl_append]
    generalize (List.range n).foldl (fun m i => if f i then m + 2 ^ i else m) 0 = m at hl hb
    simp only [List.foldl_cons, List.foldl_nil]
    cases hf : f n
    · refine ⟨by simp only [Bool.false_eq_true, if_false]; omega, fun i hi => ?_⟩
      rcases Nat.lt_succ_iff_lt_or_eq.1 hi with hi | rfl
      · simpa using hb i hi
      · simpa [hf] using Nat.testBit_lt_two_pow hl
    · refine ⟨by simp only [if_true]; omega, fun i hi => ?_⟩
      rw [if_pos rfl, Nat.add_comm]
      rcases Nat.lt_succ_iff_lt_or_eq.1 hi with hi | rfl
      · rw [Nat.testBit_two_pow_add_gt hi]
        exact hb i hi
      · rw [Nat.testBit_two_pow_add_eq, Nat.testBit_lt_two_pow hl, hf]
        rfl

theorem leNat_leBytes (n v : Nat) : leNat (leBytes n v) = v % 256 ^ n := by
  induction n generalizing v with
  | zero => simp [leBytes, leNat, Nat.mod_one]
  | succ n ih =>
    rw [leBytes, leNat, ih, BitVec.toNat_ofNat, Nat.pow_succ' (m := 256), Nat.mod_mul (a := 256)]

theorem leWord_leBytes (v : Word) : leWord (leBytes 8 v.toNat) = v := by
  rw [leWord, leNat_leBytes, Nat.mod_eq_of_lt (b := 256 ^ 8) v.isLt, BitVec.ofNat_toNat, BitVec.setWidth_eq]

theorem State.byte_of_bytes {k v : Nat} (h : t.bytes k 1 = leBytes 1 v) : t.byte k = BitVec.ofNat 8 v := by
  simpa [State.bytes, leBytes] using h

theorem State.word_of_bytes {k : Nat} {v : Word} (h : t.bytes k 8 = leBytes 8 v.toNat) : t.word k = v := by
  rw [State.word, h, leWord_leBytes]

theorem leNat_append (as bs : List Byte) : leNat (as ++ bs) = leNat as + 256 ^ as.length * leNat bs := by
  induction as with
  | nil => simp [leNat]
  | cons a r ih =>
    rw [List.cons_append, leNat, leNat, ih, List.length_cons, Nat.pow_succ']
    ring

/-- The first words of a strand's descriptor: its resume address and its task's handle (R139). -/
theorem State.descOfStrand_words (y : Strand) (pc : Word) : ∃ w0 w1 : Word, w0.toNat % 2 ^ 56 = pc.toNat % 2 ^ 56 ∧
    (s.descOfStrand y pc).bytes.take 32 =
      leBytes 8 w0.toNat ++ leBytes 8 w1.toNat ++ leBytes 8 y.task.toNat ++ leBytes 8 y.parent.toNat := by
  have hl (v : Nat) : leBytes 8 v = leBytes 8 (BitVec.ofNat 64 v).toNat := (leBytes_mod 8 v).symm
  have hp : (s.descOfStrand y pc).pc = pc.setWidth 56 := rfl
  have hs : (s.descOfStrand y pc).self = y.task := rfl
  have hq : (s.descOfStrand y pc).parent = y.parent := rfl
  have ht : (s.descOfStrand y pc).tiles = 0 := rfl
  rw [Desc.bytes, List.take_left' (by simp), hp, hs, hq, ht, hl (_ + _ + _ + _), hl (_ + _ + _ + _ + _)]
  refine ⟨_, _, ?_, rfl⟩
  rw [BitVec.toNat_ofNat, BitVec.toNat_setWidth]
  simp only [BitVec.ofNat_eq_ofNat, BitVec.toNat_ofNat]
  omega

/-- A bit of a word of which the first four bytes are known. -/
theorem State.getLsbD_word {k v i : Nat} {b : Bool} (h : t.bytes k 4 = leBytes 4 v) (hb : v.testBit i = b)
    (hi : i < 32) : (t.word k).getLsbD i = b := by
  have hw : t.bytes k 8 = t.bytes k 4 ++ t.bytes (k + 4) 4 := by simp [State.bytes, Nat.add_assoc]
  rw [State.word, hw, leWord, BitVec.getLsbD_ofNat, leNat_append, h, leNat_leBytes, length_leBytes, Nat.add_comm,
    show 256 ^ 4 = 2 ^ 32 from rfl, Nat.testBit_two_pow_mul_add _ (Nat.mod_lt _ (by decide)), if_pos hi,
    Nat.testBit_mod_two_pow, hb]
  simp only [hi, Nat.lt_trans hi (by decide : 32 < 64), decide_true, Bool.true_and]

theorem byte295_lt (d : Reg) (n : Nat) (q : Bool) : byte295 d n q < 256 := by
  have := d.isLt
  unfold byte295
  split <;> [skip; split] <;> cases q <;> simp <;> omega

/-- The record of a strand that waits for a future, as HBM holds it. -/
theorem State.holdsPark_of_bytes {o : Nat} {pc : Word} {d : Reg} {q : Option Pred} {h : Word}
    (hb : t.bytes o 384 = s.recordBytes s.me pc
      { kind := 1, b295 := byte295 d s.issue.len q.isSome, b296 := (q.getD 0).toNat, obj := h }) :
    t.HoldsPark s o pc d q h := by
  rw [← length_recordBytes (s := s) pc
    { kind := 1, b295 := byte295 d s.issue.len q.isSome, b296 := (q.getD 0).toNat, obj := h } s.me] at hb
  unfold State.recordBytes at hb
  dsimp only at hb
  simp only [State.bytes_append_iff] at hb
  simp only [List.length_append, length_leBytes, length_flatMap_leBytes, List.length_take, length_descBytes,
    List.length_range, Nat.reduceAdd, Nat.reduceMul, Nat.reduceLeDiff, inf_of_le_left, and_assoc] at hb
  obtain ⟨hhead, hregs, hpois, hpred, hkind, h295, h296, -, -, -, -, -, -, -, -, -, hobj, hlink, -⟩ := hb
  obtain ⟨w0, w1, hw0, hwords⟩ := s.descOfStrand_words s.me pc
  have hslice := hhead.trans hwords
  rw [show 32 = (leBytes 8 w0.toNat ++ leBytes 8 w1.toNat ++ leBytes 8 s.me.task.toNat ++
    leBytes 8 s.me.parent.toNat).length by simp] at hslice
  simp only [State.bytes_append_iff] at hslice
  simp only [List.length_append, length_leBytes, Nat.reduceAdd, and_assoc] at hslice
  obtain ⟨hpc, -, htask, -⟩ := hslice
  have hreg (r : Reg) := (State.bytes_slice hregs (i := 8 * r.toNat) (k := 8) (by have := r.isLt; omega)).trans
    (take_drop_flatMap_leBytes (fun i => (s.me.reg (BitVec.ofNat 5 i)).v.toNat) r.isLt)
  obtain ⟨-, hsum⟩ := testBit_poisonSum (fun i => (s.me.reg (BitVec.ofNat 5 i)).p) 32
  exact
    { header := hhead
      resume := by
        rw [State.word_of_bytes hpc, bits, Nat.pow_zero, Nat.div_one]
        exact hw0
      task := State.word_of_bytes htask
      registers := fun r => by simpa using State.word_of_bytes (hreg r)
      poison := fun r => by simpa using State.getLsbD_word hpois (hsum r.toNat r.isLt) r.isLt
      preds := by
        rw [hpred, leNat_leBytes]
        exact Nat.mod_eq_of_lt s.me.pred.isLt
      kind := State.byte_of_bytes hkind
      dest := by
        rw [State.byte_of_bytes h295, BitVec.toNat_ofNat, Nat.mod_eq_of_lt (byte295_lt d s.issue.len q.isSome)]
        rfl
      pred := by
        have hlt := (q.getD 0).isLt
        rw [State.byte_of_bytes h296, BitVec.toNat_ofNat]
        omega
      object := State.word_of_bytes hobj
      link := State.word_of_bytes hlink }

end Sys2Proof.Machine
end

section
/-! ## Waits on futures (O16) -/

namespace Sys2Proof.Machine

variable {s t : State}

theorem State.setCluster_tables {n : Nat} {k : Cluster} (hp : k.parkbase = (s.cluster n).parkbase)
    (hf : k.futbase = (s.cluster n).futbase) (hl : k.lostSlots = (s.cluster n).lostSlots)
    (hfut : k.fut = (s.cluster n).fut) : s.SameTables (s.setCluster n k) :=
  ⟨State.setCluster_bases hp hf hl, State.cluster_setCluster_eq _ hfut⟩

/-- The record of a strand that parks is written, and the tables of futures stand. -/
theorem State.parkAs_written (s : State) {n : Nat} (pc : Word) (x : ParkTail)
    (hq : s.QuietAt (s.parkOff s.myCluster + 384 * n) 384)
    (hr : ∀ r ∈ s.resv, ¬(r.core = s.issue.core ∧ r.slot = s.issue.slot ∧ r.inst = s.me.inst)) :
    (s.parkAs n pc x).bytes (s.parkOff s.myCluster + 384 * n) 384 = s.recordBytes s.me pc x ∧
      s.SameTables (s.parkAs n pc x) := by
  obtain ⟨c, p, e⟩ := s.parkAs_eq n pc x
  have hl := length_recordBytes (s := s) pc x s.me
  generalize s.recordBytes s.me pc x = bs at e hl ⊢
  generalize s.parkOff s.myCluster + 384 * n = o at e hq ⊢
  rw [← hl] at hq ⊢
  obtain ⟨hp, l, m, ps, rs, ew, hrs⟩ := hq.hbmWrite
  have hu : (s.hbmWrite o bs).releaseResv s.issue.core s.issue.slot s.me.inst = s.hbmWrite o bs := by
    refine State.releaseResv_none fun r h => ?_
    rw [ew] at h
    obtain ⟨r', hr', -, hc, hs, hi⟩ := hrs r h
    rw [hc, hs, hi]
    exact hr r' hr'
  have hw : (s.hbmWrite o bs).bytes o bs.length = bs ∧ s.SameTables (s.hbmWrite o bs) := by
    rw [ew]
    exact ⟨(State.bytes_congr (s := s.putBytes o bs) (by rfl) ..).trans (State.bytes_putBytes s o bs),
      .of_clusters rfl rfl⟩
  rw [hu] at e
  generalize s.hbmWrite o bs = w at e hw
  obtain ⟨c', e'⟩ := State.parkSlot_eq (s := (w.setCluster s.myCluster { w.cluster s.myCluster with
    parkSup := p }).setCore s.issue.core c) s.issue.core s.issue.slot n
  rw [e, e']
  refine ⟨(State.bytes_congr (s := w) (by rfl) ..).trans hw.1, hw.2.trans (.trans (State.setCluster_tables ?_ ?_ ?_ ?_)
    (.of_clusters rfl rfl))⟩ <;> rfl

/-- A park index taken for a strand leaves its tables, and all that its record is made of. -/
theorem State.parkIndex_eq {n : Nat} (h : s.parkIndex = some (n, t)) : s.me.pmode = false ∧ s.SameTables t ∧
    ∃ f ks, t = { s with fresh := f, clusters := ks } := by
  obtain ⟨hp, ht⟩ := State.parkIndex_some h
  have e := State.takePark_eq ht
  refine ⟨hp, ?_, _, _, e⟩
  rw [e]
  refine .trans (t := { s with fresh := s.fresh + 1 }) (.of_clusters rfl rfl)
    (State.setCluster_tables ?_ ?_ ?_ ?_) <;> rfl

theorem State.joinLink_eq (tok : Word) : ∃ ls, s.joinLink tok = { s with farLinks := ls } := by
  unfold State.joinLink
  split <;> exact ⟨_, rfl⟩

/-- What becomes of a token that reaches a future's table. -/
def State.joined (s : State) (h tok : Word) : State :=
  match (s.find h).1 with
  | .entry cl slot e => (s.find h).2.joinChain cl slot e tok
  | _ => (s.find h).2

/-- A waiter that joins an empty chain is its head and its tail (R145). -/
theorem State.Live.joined {h : Word} {e : FutEntry} (tok : Word) (l : s.Live h e) (hh : e.head = 0) :
    (s.joined h tok).mem = s.mem ∧ (s.joined h tok).cores = s.cores ∧
      ∃ x, (s.joined h tok).Live h x ∧ x.state = e.state ∧ x.head = tok ∧ x.tail = tok := by
  have hj : s.joined h tok = ((s.renew (hCluster h) (hSlot h) e).joinLink tok).putEntry (hCluster h) (hSlot h)
      { e with head := tok, tail := tok } := by
    rw [State.joined, l.find]
    exact if_pos hh
  obtain ⟨ls, e'⟩ := State.joinLink_eq (s := s.renew (hCluster h) (hSlot h) e) tok
  have hl : State.Live ((s.renew (hCluster h) (hSlot h) e).joinLink tok) h { e with use := s.now } := by
    rw [e']
    exact l.renew.congr (.of_clusters rfl rfl)
  rw [hj]
  refine ⟨?_, ?_, _, hl.putEntry rfl rfl l.live, rfl, rfl, rfl⟩ <;> rw [e'] <;> rfl

/-- A pending future of the own module is parked on where a park index is free (R134, R146). -/
theorem touchHere_park {h : Word} {e : FutEntry} {d : Reg} {q : Option Pred} {n : Nat} {s1 : State} (l : s.Live h e)
    (hs : e.state = 1) (hd : s.settled)
    (hp : (s.renew (hCluster h) (hSlot h) e).parkIndex = some (n, s1)) :
    let u := s1.popPort.parkAs n s1.nextPc (s1.parkTail 1 d q h)
    touchHere s d q h = .gone (u.joined h (s1.parkToken n)) := by
  intro u
  have ht : s.touchPort h = (.pending, s.renew (hCluster h) (hSlot h) e) := by
    simp only [State.touchPort, l.find, if_pos hs]
  have hd' : (s.renew (hCluster h) (hSlot h) e).settled := hd
  unfold touchHere
  rw [ht]
  simp only [parkOr, hp, Option.isNone_some, Bool.false_eq_true, if_false, draining_settled hd']
  change (match u.find h with
    | (.entry cl slot e, s) => Res.gone (s.joinChain cl slot e (s1.parkToken n))
    | (_, s) => .gone s) = _
  unfold State.joined
  generalize u.find h = y
  obtain ⟨_ | _ | ⟨cl, slot, e⟩, v⟩ := y <;> rfl

theorem touchAny_here {d a : Reg} {q : Option Pred} (hc : s.clean [a]) (ho : hModule (s.gv a) = s.modNo.toNat)
    (hf : s.me.flight = none) : touchAny s d a q = touchHere s d q (s.gv a) := by
  rw [touchAny, consume_clean hc]
  simp only [ho, if_true, answer_of_flight hf]

theorem touchHere_final {h : Word} {e : FutEntry} {d : Reg} {q : Option Pred} (l : s.Live h e) (hs : e.state ≠ 1) :
    touchHere s d q h = touched (s.renew (hCluster h) (hSlot h) e) d q h (.final (e.state == 2) e.value) := by
  have ht : s.touchPort h = (.final (e.state == 2) e.value, s.renew (hCluster h) (hSlot h) e) := by
    simp only [State.touchPort, l.find, if_neg hs]
  rw [touchHere, ht]

/-- State `t` has come from `s` by the start of an instruction, the use of a future and the choice of a park
index: nothing of what a record is made of has changed. -/
structure State.ReadyToPark (s t : State) : Prop extends s.SameBases t where
  core : t.issue.core = s.issue.core
  slot : t.issue.slot = s.issue.slot
  len : t.issue.len = s.issue.len
  me : t.me = s.me
  pc : t.nextPc = s.nextPc
  resv : t.resv = s.resv
  record : ∀ y pc x, t.recordBytes y pc x = s.recordBytes y pc x
  quiet : ∀ {o n}, s.QuietAt o n → t.QuietAt o n
  pops : t.issue.pops = false

theorem State.ReadyToPark.parkToken (h : s.ReadyToPark t) (n : Nat) : t.parkToken n = s.parkToken n := by
  rw [State.parkToken, State.parkToken, State.myCluster, h.core, h.parkPa]
  rfl

theorem State.ReadyToPark.popPort (h : s.ReadyToPark t) : t.popPort = t := by
  rw [State.popPort, h.pops]
  rfl

theorem State.ReadyToPark.parkTail (h : s.ReadyToPark t) (k : Nat) (d : Reg) (q : Option Pred) (x : Word) :
    t.parkTail k d q x = s.parkTail k d q x := by
  rw [State.parkTail, State.parkTail, h.len]

/-- A live future is used by the instruction that then parks. -/
theorem State.readyToPark_of_renew {i : Instr} {h : Word} {e : FutEntry} {n : Nat}
    (hp : ((s.opened i).renew (hCluster h) (hSlot h) e).parkIndex = some (n, t)) : s.ReadyToPark t := by
  obtain ⟨hpm, htab, f, ks, e⟩ := State.parkIndex_eq hp
  have hopen : s.SameTables (s.opened i) := .of_clusters rfl rfl
  have hbase := hopen.toSameBases.trans ((State.setFut_bases ..).trans htab.toSameBases)
  have hpops : (s.me.pmode && (named i).1.contains 30) = false := by
    rw [show s.me.pmode = false from hpm, Bool.false_and]
  rw [e] at hbase ⊢
  exact ⟨hbase, rfl, rfl, rfl, rfl, rfl, rfl, fun _ _ _ => rfl, fun h => ⟨h.groups, h.sound, h.looms, h.copies⟩, hpops⟩

theorem State.strand_congr (h : t.cores = s.cores) (n k : Nat) : t.strand n k = s.strand n k := by
  unfold State.strand State.core
  rw [h]

theorem State.HoldsPark.congr {u : State} {o : Nat} {pc : Word} {d : Reg} {q : Option Pred} {h : Word}
    (k : t.HoldsPark s o pc d q h) (hm : u.mem = t.mem) : u.HoldsPark s o pc d q h := by
  have hb := State.bytes_congr hm
  have hw (k : Nat) : u.word k = t.word k := by rw [State.word, State.word, hb]
  have hy (k : Nat) : u.byte k = t.byte k := by rw [State.byte, State.byte, hm]
  obtain ⟨h1, h2, h3, h4, h5, h6, h7, h8, h9, h10, h11⟩ := k
  exact ⟨(hb ..).trans h1, (congrArg (bits · 55 0) (hw o)).trans h2, (hw _).trans h3, fun r => (hw _).trans (h4 r),
    fun r => (congrArg (·.getLsbD r.toNat) (hw _)).trans (h5 r), (congrArg leNat (hb ..)).trans h6, (hy _).trans h7,
    (congrArg BitVec.toNat (hy _)).trans h8, (congrArg BitVec.toNat (hy _)).trans h9, (hw _).trans h10,
    (hw _).trans h11⟩

theorem touched_resolved {x : BitVec 3} (h : x = 2) (d : Reg) (obj v : Word) :
    touched s d none obj (.final (x == 2) v) = .done (s.setG d v false) := by
  rw [h]
  rfl

theorem touched_failed {x : BitVec 3} (h : x ≠ 2) (d : Reg) (obj v : Word) :
    touched s d none obj (.final (x == 2) v) = .trap s 11 (v.extractLsb' 0 16) v := by
  rw [touched, beq_false_of_ne h]
  rfl

end Sys2Proof.Machine

namespace Sys2Proof.Proofs

open Sys2Proof.Machine

/-- Settles O16: a final future's entry gives the answer; for a pending one the strand's record is written, and it
joins the chain. -/
theorem touchesTakeOrWait : Obligations.TouchesTakeOrWait := by
  unfold Obligations.TouchesTakeOrWait
  refine ⟨fun s g d a pq e l hc hf hs => ?_, fun s g i d a q e n s1 hi => ?_⟩
  · intro used
    have hrun (i : Instr) (d : Reg) (q : Option Pred) : touchAny (s.opened i) d a q =
        touched (used i) d q (s.gv a) (.final (e.state == 2) e.value) :=
      (touchAny_here (clean_opened hc) l.own hf).trans (touchHere_final l.opened hs)
    refine ⟨fun h => ?_, fun h => exec_done rfl h (hrun _ d (some pq)), fun n d a l hc hs h => ?_⟩
    · split
      · next h2 => exact exec_done rfl h ((hrun _ d none).trans (touched_resolved h2 ..))
      · next h2 => exact exec_trap rfl h ((hrun _ d none).trans (touched_failed h2 ..))
    · have hr := (touchAny_here (d := compactReg d) (q := none) (clean_opened (i := .touchC16 n d a) hc) l.own hf).trans
        (touchHere_final l.opened (by rw [hs]; decide))
      exact exec_done rfl h (hr.trans (touched_resolved hs ..))
  · intro h his l hc hf hs hd hp u v o
    have hr1 := State.readyToPark_of_renew hp
    have hcl : s1.myCluster = s.myCluster := congrArg clusterOf hr1.core
    have hrun : exec i s = .next (u.joined h (s.parkToken n)) := by
      have hr := (touchAny_here (d := d) (q := q) (clean_opened (i := i) hc) l.own hf).trans
        (touchHere_park l.opened hs (settled_opened hd) hp)
      rw [hr1.popPort, hr1.pc, hr1.parkTail, hr1.parkToken] at hr
      rcases hi with ⟨rfl, rfl⟩ | ⟨pq, rfl, rfl⟩ | ⟨m, x, y, rfl, rfl, rfl, rfl, rfl⟩ <;>
        exact exec_gone rfl his hr
    have hfree : (u.strand s.issue.core s.issue.slot).st = .free := by
      rw [← hr1.core, ← hr1.slot]
      exact State.parkAs_st ..
    refine ⟨hrun, hfree, fun hr hq => ?_⟩
    have hu : u.HoldsPark s o s.nextPc d q h ∧ u.Live h { e with use := s.now } := by
      obtain ⟨hb, ht⟩ := s1.parkAs_written (n := n) s.nextPc (s.parkTail 1 d q h)
        (by rw [hcl, hr1.parkOff]; exact hr1.quiet hq) (by rw [hr1.resv, hr1.core, hr1.slot, hr1.me]; exact hr)
      rw [hcl, hr1.parkOff, hr1.record, hr1.me] at hb
      exact ⟨State.holdsPark_of_bytes hb, ((l.opened.renew).congr (State.parkIndex_eq hp).2.1).congr ht⟩
    refine ⟨hu.1, fun hh => ?_⟩
    obtain ⟨hmem, hcores, x, hlive, hst, hhead, htail⟩ := hu.2.joined (s.parkToken n) hh
    exact ⟨_, x, hrun, (congrArg Strand.st (State.strand_congr hcores ..)).trans hfree, hu.1.congr hmem, hlive,
      hst.trans hs, hhead, htail⟩

end Sys2Proof.Proofs
end

section
/-! ## Barriers and feed queues (O20) -/

namespace Sys2Proof.Machine

variable {s t u : State}

theorem State.Beside.answer (h : s.Beside t) (n : Nat) : t.answer n = s.answer n := by
  rw [State.answer, State.answer, State.got, State.got, h.me]

theorem State.ownHbm_iff {pa : Nat} :
    s.ownHbm pa = true ↔ paModule pa = s.modNo.toNat ∧ inHbm (paOffset pa) = true := by
  rw [State.ownHbm, Bool.and_eq_true, beq_iff_eq]

theorem State.kept_of_flight (h : s.me.flight = none) (n : Nat) : s.kept n = none := by
  rw [State.kept, answer_of_flight h]

theorem settled_useTlb (h : s.settled) (ea : Word) : (s.useTlb ea).settled := by
  have hw : (s.useTlb ea).myCore.wb = s.myCore.wb := by
    unfold State.useTlb
    split
    · rw [State.myCore_setMyCore]
      rfl
    · rfl
  have he : (s.useTlb ea).errors = s.errors := by
    unfold State.useTlb
    split <;> rfl
  simpa only [State.settled, State.drained, State.posted, State.errorDue, hw, he, State.useTlb_me,
    State.useTlb_issue] using h

/-- The checks of a barrier instruction pass, and lead to its record (R197). -/
theorem checkBarrier_here {a : Reg} {extra : List Reg} {dr : Bool} {o : Nat} {k : State → Nat → Res}
    (hc : s.clean (a :: extra)) (hb : s.BarrierAt (s.gv a) o) (hd : dr = true → s.settled) :
    ∃ pa, s.ownHbm pa = true ∧ paOffset pa = o ∧
      checkBarrier s a extra dr k = (k (s.useTlb (s.gv a)) pa).issued (s.gv a) := by
  obtain ⟨l, pa, hs, ho, hp⟩ := hb.spot
  obtain ⟨hm, hi⟩ := State.ownHbm_iff.1 ho
  refine ⟨pa, ho, hp, ?_⟩
  have hx : ¬((s.gv a).toNat % 32 ≠ 0 ∨ regionClass (s.gv a) ≠ 0) := by
    rw [hb.aligned, hb.global]
    decide
  have hf : s.checkFeatures l pa (s.gv a) [8] = .ok := if_neg fun h => h.2.1 hm
  have hd' : dr = true → (s.useTlb (s.gv a)).settled := fun h => settled_useTlb (hd h) _
  unfold checkBarrier
  rw [consume_clean hc]
  simp only [if_neg hx, hb.checked, hs, hf, Chk.andThen, hi, Bool.not_true, Bool.false_eq_true, if_false]
  cases dr
  · rfl
  · rw [if_pos rfl, draining_settled (hd' rfl)]

theorem State.BarrierAt.opened {i : Instr} {va : Word} {o : Nat} (h : s.BarrierAt va o) : (s.opened i).BarrierAt va o :=
  ⟨h.1, h.2, h.3, h.4⟩

/-- A barrier instruction of a task of this module, at a record of this module, goes on with both (R177, R197). -/
theorem atBarrier_here {a : Reg} {extra : List Reg} {dr : Bool} {o cl slot : Nat} {e : FutEntry} {s1 : State}
    {lost : State → Word → Res} {k : State → BarSpot → Option (List Member) → Res}
    (hc : s.clean (a :: extra)) (hb : s.BarrierAt (s.gv a) o) (hd : dr = true → s.settled) (hf : s.me.flight = none)
    (ho : hModule s.me.task = s.modNo.toNat)
    (hm : (s.useTlb (s.gv a)).members? s.me.task = (some (cl, slot, e), s1))
    (hk : k s1 (.here o) (some e.members) = .done t) : atBarrier s a extra dr lost k = .done t := by
  have hu := (State.Beside.refl s).useTlb (s.gv a)
  unfold atBarrier
  dsimp only
  rw [State.kept_of_flight hf]
  obtain ⟨pa, hown, hp, e'⟩ := checkBarrier_here (k := fun s pa => _) hc hb hd
  rw [e']
  have ho' : (s.useTlb (s.gv a)).ownHbm pa = true := by rwa [State.ownHbm, hu.modNo]
  have hw : withMembers (s.useTlb (s.gv a)) lost (fun s m => k s (.here (paOffset pa)) m) = .done t := by
    unfold withMembers
    dsimp only
    rw [hu.me, hu.modNo, if_pos ho, hm, hp]
    exact hk
  dsimp only
  simp only [ho', if_true, hw]
  split <;> rfl

/-- A request to a barrier's record of this module is served at once. -/
theorem barrierOp_here {o : Nat} {va x : Word} {code : Nat} {m : Member} {r : BarAns}
    {k : State → BarAns → List (Nat × Answer) → Res} (ha : s.answer 0 = none)
    (hp : s.barrierPort o va code m x = (r, t)) :
    barrierOp s (.here o) va code m x k = k t r ((0, answerOfBarrier r) :: t.got) := by
  unfold barrierOp
  rw [ha]
  dsimp only
  rw [hp]

/-- The memberships of a task of this module are changed at its future (R177). -/
theorem putMember_here {va : Word} {m : Option Member} {cl slot : Nat} {e : FutEntry} {got : List (Nat × Answer)}
    (ho : hModule s.me.task = s.modNo.toNat) (hm : s.members? s.me.task = (some (cl, slot, e), t)) :
    putMember s va m got .done = .done (t.putMembers cl slot (setMember e.members va m)) := by
  unfold putMember
  dsimp only
  rw [if_pos ho, hm]


/-! ### Feed queues (R178, R198) -/

/-- A record taken raises the head of its queue (R372). -/
theorem State.feed_of_popFeed {f : Nat} {v : Word} (h : s.popFeed f = some (v, t)) :
    t.feed f = { s.feed f with fhead := (s.feed f).fhead + 1 } := by
  unfold State.popFeed at h
  generalize s.hbmRead _ 8 = x at h
  dsimp only at h
  split at h
  · cases h
  · rw [Option.some.injEq, Prod.mk.injEq] at h
    rw [← h.2]
    exact SMap.get_put_self ..

section
variable {d a : Reg} (hc : s.clean [a]) (hf : s.me.flight = none) (hz : bits (s.gv a) 63 10 = 0)
  (he : (s.feed ((s.gv a).toNat % 1024)).en = true)
include hc hf hz he

theorem feedPop_some (q : Option Pred) {v : Word} (hp : s.popFeed ((s.gv a).toNat % 1024) = some (v, t)) :
    feedPop s d a q = .done (q.elim (t.setG d v false) fun pq => (t.setG d v false).setP pq true) := by
  rw [feedPop, answered_none (answer_of_flight hf 0), consume_clean hc]
  simp only [hz, he, hp]
  cases q <;> rfl

theorem feedPop_empty {pq : Pred} (hp : s.popFeed ((s.gv a).toNat % 1024) = none) :
    feedPop s d a (some pq) = .done (s.setP pq false) := by
  rw [feedPop, answered_none (answer_of_flight hf 0), consume_clean hc]
  simp only [hz, he, hp]
  rfl

end

end Sys2Proof.Machine

namespace Sys2Proof.Proofs

open Sys2Proof.Machine

/-- Settles O20: what a barrier's record does to its waiters leaves the issuing strand and its registers, so the task's
membership is changed in the state that the record leaves. -/
theorem barriersAndFeedsComplete : Obligations.BarriersAndFeedsComplete := by
  unfold Obligations.BarriersAndFeedsComplete
  refine ⟨fun s g d a b pq o hc hb hf => ?_, fun s g d a pq => ?_⟩
  · intro va found kept member ho
    have hs1 {i : Instr} {e : FutEntry} {s1 u : State} (h : found i e s1 u) : (s.opened i).Beside s1 := by
      obtain ⟨-, cl, slot, h⟩ := h
      have hm := (((State.Beside.refl (s.opened i)).useTlb va).members? s.me.task)
      rwa [h] at hm
    have hput {i : Instr} {w t : State} {m : Option Member} {got : List (Nat × Answer)} (hw : (s.opened i).Beside w)
        (hk : kept w m t) : putMember w va m got .done = .done t := by
      obtain ⟨cl, slot, e, s1, hm, rfl⟩ := hk
      exact putMember_here (by rw [hw.me, hw.modNo]; exact ho) (by rw [hw.me]; exact hm)
    have hgot {i : Instr} {s1 : State} (h : (s.opened i).Beside s1) : s1.answer 0 = none :=
      (h.answer 0).trans (answer_of_flight hf 0)
    have hmine {e : FutEntry} {x : Member} (hx : member e x) : memberOf va (some e.members) = some x := hx
    refine ⟨fun e s1 u t h hi hl hn hx hx' hk => exec_done rfl hi ?_,
      fun e s1 u t x h hx hi hd hp hk => exec_done rfl hi ?_,
      fun e s1 u t x h hx hi hd hk => exec_done rfl hi ?_, ?_,
      fun e s1 u x h hx hi harr hph hl => exec_done rfl hi ?_⟩
    · have h1 := hs1 h
      obtain ⟨rfl, cl, slot, hm⟩ := h
      have hva : s1.gv a = va := h1.gv a
      have hany : (e.members.any fun x => x.addr == va) = false := by simpa using hn
      have hport : s1.barrierPort o va 14 ⟨va, false, 0⟩ 0 = (.done _, _) := if_neg (by omega)
      have hg : ¬(s1.answer 0 = none ∧ (4 ≤ e.members.length ∨ (e.members.any fun x => x.addr == va) = true)) := by
        rw [hany]
        exact fun h => h.2.elim (by omega) (by decide)
      refine atBarrier_here hc hb.opened (fun h => nomatch h) hf ho hm ?_
      dsimp only
      rw [hva, if_neg hg, barrierOp_here (hgot h1) hport]
      exact hput ((h1.openBarrier o).settleBarrier ..) hk
    · have h1 := hs1 h
      obtain ⟨rfl, cl, slot, hm⟩ := h
      have hva : s1.gv a = va := h1.gv a
      have hport : s1.barrierPort o va 15 x 0 = (.done _, _) := if_neg fun h => hp h.1 h.2
      refine atBarrier_here hc hb.opened (fun _ => settled_opened hd) hf ho hm ?_
      dsimp only
      rw [hva, hmine hx]
      dsimp only
      rw [barrierOp_here (hgot h1) hport]
      exact hput ((h1.openBarrier o).settleBarrier ..) hk
    · have h1 := hs1 h
      obtain ⟨rfl, cl, slot, hm⟩ := h
      have hva : s1.gv a = va := h1.gv a
      have hport : s1.barrierPort o va 16 x 0 = (.done _, _) := rfl
      refine atBarrier_here hc hb.opened (fun _ => settled_opened hd) hf ho hm ?_
      dsimp only
      rw [hva, hmine hx]
      dsimp only
      rw [barrierOp_here (hgot h1) hport]
      exact hput ((h1.openBarrier o).settleBarrier ..) hk
    · intro e s1 u x h hx hcb hi n h0 h32 hn
      have h1 := hs1 h
      obtain ⟨rfl, cl, slot, hm⟩ := h
      have hva : s1.gv a = va := h1.gv a
      have hport : s1.barrierPort o va 17 x (s1.gv b) = (.done _, _) := if_neg (by omega)
      refine exec_done rfl hi (atBarrier_here (clean_cons hc hcb) hb.opened (fun h => nomatch h) hf ho hm ?_)
      dsimp only
      rw [hva, hmine hx]
      dsimp only
      rw [barrierOp_here (hgot h1) hport]
    · have h1 := hs1 h
      obtain ⟨rfl, cl, slot, hm⟩ := h
      have hva : s1.gv a = va := h1.gv a
      have hport : s1.barrierPort o va 18 x 0 = (.ended (x.aphase.setWidth 64) true, s1.openBarrier o) := by
        have := x.aphase.isLt
        exact (if_neg (by omega)).trans (if_pos ⟨hph, hl⟩)
      have hlast : (s.opened (.bwait g d a pq)).got.getLast? = none := by
        rw [State.got_opened, State.got, hf]
        rfl
      dsimp only
      rw [hlast]
      refine atBarrier_here hc hb.opened (fun h => nomatch h) hf ho hm ?_
      dsimp only
      rw [hva, hmine hx]
      dsimp only
      rw [harr, waitHere, hport]
      rfl
  · intro f hz hc hf he
    have hclean {i : Instr} := clean_opened (i := i) hc
    refine ⟨fun v s1 h hi => exec_done rfl hi (feedPop_some hclean hf hz he none h),
      fun v s1 h hi => exec_done rfl hi (feedPop_some hclean hf hz he (some pq) h),
      fun h hi => exec_done rfl hi (feedPop_empty hclean hf hz he (if_pos h)), fun v s1 => State.feed_of_popFeed⟩

end Sys2Proof.Proofs
end

section
/-! ## Tasks (O15) -/

namespace Sys2Proof.Machine

variable {s t : State}

/-! ### Futures allocated (R144) -/

theorem State.Beside.pickFree {u v : State} (h : s.Beside u) {used : List Nat} {total n : Nat}
    (hp : u.pickFree used total = some (n, v)) : s.Beside v := by
  unfold State.pickFree at hp
  split at hp
  · cases hp
  · cases hp
    exact h.trans (.of_eq rfl rfl rfl)

theorem State.Beside.allocSlot {u : State} (h : s.Beside u) (cl kind n : Nat) :
    s.Beside (u.allocSlot cl kind n).2 := by
  induction n generalizing u with
  | zero => exact h
  | succ n ih =>
    unfold State.allocSlot
    split
    · exact h
    · next slot v hp =>
      have hv := (h.pickFree hp).fill cl slot
      generalize v.fill cl slot = y at hv
      obtain ⟨_ | e, w⟩ := y
      · exact ih hv
      · exact hv.putEntry ..

theorem State.Beside.allocate {u : State} (h : s.Beside u) (cl kind : Nat) : s.Beside (u.allocate cl kind).2 := by
  unfold State.allocate
  split
  · exact h
  · exact h.allocSlot ..

/-! ### SPAWN and SPAWNQ (R184) -/

theorem entryWord_ok {e : Word} (h1 : bits e 57 56 = 0) (h2 : bits e 60 58 ≤ 4)
    (h3 : bits e 55 0 = 0 → bits e 63 56 = 0) :
    ¬(bits e 57 56 ≠ 0 ∨ 4 < bits e 60 58 ∨ bits e 55 0 = 0 ∧ bits e 63 56 ≠ 0) := by
  rintro (h | h | h)
  · exact h h1
  · exact Nat.not_lt.2 h2 h
  · exact h.2 (h3 h.1)

section
variable {d a : Reg} {q : Option Pred} {h : Word} (hc : s.clean [a]) (hd : s.settled) (hf : s.me.flight = none)
  (hg : ¬(bits (s.gv a) 57 56 ≠ 0 ∨ 4 < bits (s.gv a) 60 58 ∨ bits (s.gv a) 55 0 = 0 ∧ bits (s.gv a) 63 56 ≠ 0))
include hc hd hf hg

/-- A SPAWN without a start address makes a future only. -/
theorem spawn_promise (h0 : bits (s.gv a) 55 0 = 0) (ha : s.allocate s.myCluster 4 = (some h, t)) :
    spawn s d a q = spawned t d q h true := by
  unfold spawn
  rw [consume_clean hc]
  simp only [beq_iff_eq, if_neg hg, draining_settled hd, answer_of_flight hf]
  simp only [h0, if_true, ha]

/-- One with a start address pushes the child's descriptor where the ring has room. -/
theorem spawn_task (h0 : bits (s.gv a) 55 0 ≠ 0) (ha : s.allocate s.myCluster 0 = (some h, t))
    (hr : t.myCore.dequeRoom = true) (hs : t.me.snap = 0) : spawn s d a q =
      spawned ((t.pushDeque t.issue.core (t.childDesc (s.gv a) h)).count t.issue.core 1 1) d q h true := by
  unfold spawn
  rw [consume_clean hc]
  simp only [beq_iff_eq, if_neg hg, draining_settled hd, answer_of_flight hf]
  simp only [h0, if_false, ha, hr, hs, ne_eq, not_true_eq_false, Bool.not_true, Bool.false_eq_true]

theorem spawnq_none {pq : Pred} (ha : s.allocate s.myCluster (if bits (s.gv a) 55 0 = 0 then 4 else 0) = (none, t)) :
    spawn s d a (some pq) = spawned t d (some pq) 0 false := by
  unfold spawn
  rw [consume_clean hc]
  simp only [beq_iff_eq, if_neg hg, draining_settled hd, answer_of_flight hf, ha]

end

/-! ### GO and YIELD (R192, R193) -/

theorem State.ownsPort_useTlb (ea : Word) : (s.useTlb ea).ownsPort = s.ownsPort := by
  unfold State.useTlb
  split
  · unfold State.ownsPort
    rw [State.myCore_setMyCore]
    rfl
  · rfl

/-- What a GO does with its task, once its checks have passed and its stores are accepted. -/
def goOn (s : State) (m c : Nat) : Res :=
  let out := s.releaseResv s.issue.core s.issue.slot s.me.inst
  let d := s.descOfStrand s.me s.nextPc
  let left := out.freeSlot s.issue.core s.issue.slot
  if m = s.modNo.toNat ∧ c = s.issue.core then
    .gone (out.setMe { out.freshStrand d with st := .ready, inst := s.me.inst, last := s.me.last })
  else if m = s.modNo.toNat ∧ (!(s.core c).arrivalRoom) = true then .hold s .ring s.got
  else if m = s.modNo.toNat then .gone (left.arrive c d)
  else .gone { left with migrations := left.migrations ++ [(m, c, d)] }

/-- A GO whose address passes the checks, of a strand that may move, goes on with its task. -/
theorem exec_go {g : Guard} {a : Reg} {m c : Nat} (hi : s.Issues (.go g a) g) (hc : s.clean [a]) (hd : s.settled)
    (hx : s.checkGo (s.gv a) = .ok) (hh : ((s.opened (.go g a)).useTlb (s.gv a)).home (s.gv a) = some (m, c))
    (hp : s.me.pmode = false) (ho : s.ownsPort = false)
    (hv : ¬(m ≠ s.modNo.toNat ∧ (s.me.snap ≠ 0 ∨ txState s.me.tx ≠ 0)))
    (hdr : ¬(m = s.modNo.toNat ∧ clusterOf c ≠ s.myCluster ∧
      2 ≤ ((s.opened (.go g a)).useTlb (s.gv a)).drainState (clusterOf c)))
    (hb : goOn ((s.opened (.go g a)).useTlb (s.gv a)) m c = .gone t) : exec (.go g a) s = .next t := by
  have hu := (State.Beside.refl (s.opened (.go g a))).useTlb (s.gv a)
  have hpo : ((s.opened (.go g a)).useTlb (s.gv a)).ownsPort = false := (State.ownsPort_useTlb _).trans ho
  have hd' := settled_useTlb (settled_opened (i := .go g a) hd) (s.gv a)
  refine exec_gone rfl hi ((consume_clean (clean_opened hc) _).trans ?_)
  have hx' : (s.opened (.go g a)).checkGo (s.gv a) = .ok := hx
  dsimp only
  rw [State.gv_opened, hx']
  unfold Chk.andThen
  dsimp only
  generalize (s.opened (.go g a)).useTlb (s.gv a) = u at *
  have hme : u.me = s.me := hu.me
  have hmod : u.modNo = s.modNo := hu.modNo
  have hcl : u.myCluster = s.myCluster := by
    rw [State.myCluster, hu.issue]
    rfl
  rw [← hmod, ← hme] at hv
  rw [← hmod, ← hcl] at hdr
  rw [hh]
  refine congrArg (Res.issued (s.gv a)) ((?_ : _ = Res.gone t))
  have hstay : ¬(u.me.pmode || u.ownsPort) = true := by
    rw [hme, hp, hpo]
    decide
  refine (if_neg hstay).trans ((if_neg hv).trans ((if_neg hdr).trans ?_))
  rw [draining_settled hd']
  exact hb

theorem State.parkSlot_issue (core slot n : Nat) : (s.parkSlot core slot n).issue = s.issue := by
  obtain ⟨c, e⟩ := State.parkSlot_eq (s := s) core slot n
  rw [e]
  rfl

theorem State.parkAs_issue (n : Nat) (pc : Word) (x : ParkTail) : (s.parkAs n pc x).issue = s.issue := by
  obtain ⟨c, p, e⟩ := s.parkAs_eq n pc x
  have hw := ((State.Beside.refl s).hbmWrite (s.parkOff s.myCluster + 384 * n) (s.recordBytes s.me pc x)).releaseResv
    s.issue.core s.issue.slot s.me.inst
  rw [e, State.parkSlot_issue]
  generalize State.releaseResv _ _ _ _ = w at hw
  exact hw.issue

/-! ### EXIT (R162, R189) -/

theorem State.await_st (h : s.Beside t) (n : Nat) (got : List (Nat × Answer)) :
    ((Res.await t n got).state.strand s.issue.core s.issue.slot).st = .waiting := by
  rw [← h.issue]
  exact congrArg Strand.st (State.me_setMe t _)

theorem State.quit_st (h : s.Beside t) : (t.quit.strand s.issue.core s.issue.slot).st = .free := by
  rw [State.quit, h.issue, State.strand_freeSlot]
  rfl

theorem exitResolve_here {v : Word} {k : State → Res} (ho : hModule s.me.task = s.modNo.toNat) :
    exitResolve s v k = k (s.endFuture s.me.task 2 v) := if_pos ho

theorem exitDrop_here {k : State → Res} (ho : hModule s.me.task = s.modNo.toNat) :
    exitDrop s k = k (s.dropRef s.me.task) := if_pos ho

/-- A task of this module whose barriers' records all lie here asks nobody. -/
theorem exitLeave_here {k : State → Res} (ho : hModule s.me.task = s.modNo.toNat)
    (hl : ((s.takeMembers s.me.task).2.exitLeaves (s.takeMembers s.me.task).1).1 = 0) :
    exitLeave s k = k ((s.takeMembers s.me.task).2.exitLeaves (s.takeMembers s.me.task).1).2 := by
  rw [exitLeave, if_pos ho]
  dsimp only
  generalize State.exitLeaves _ _ = x at hl
  obtain ⟨n, u⟩ := x
  cases hl
  rfl

/-- The port of a task's module is not asked where the handle names none or its module is not there. -/
theorem exitAsk_none {elem code : Nat} {x : Word} {got : List (Nat × Answer)} {k : State → Option Answer → Res}
    (ha : s.answer elem = none) (hh : hGen s.me.task = 0 ∨ s.present (hModule s.me.task) = false) :
    exitAsk s elem code x got k = k s none := by
  have hn : ¬(hGen s.me.task ≠ 0 && s.takesRequests (hModule s.me.task)) = true := by
    rw [State.takesRequests]
    rcases hh with hh | hh <;> simp [hh]
  unfold exitAsk
  rw [ha]
  exact if_neg hn

/-- The steps of an EXIT with its drain behind it; answer 33 tells that its memberships have been given up. -/
def exitOn (s : State) (v : Word) : Res :=
  let last := fun (s : State) => exitDrop s fun s => .gone s.quit
  if (s.answer 33).isSome then last s else exitResolve s v fun s => exitLeave s last

theorem exitOn_first {v : Word} (h : s.answer 33 = none) :
    exitOn s v = exitResolve s v fun s => exitLeave s fun s => exitDrop s fun s => .gone s.quit := by
  unfold exitOn
  rw [h]
  rfl

/-- An EXIT's outcome is that of its steps. -/
theorem exec_exit {g : Guard} {a : Reg} (hi : s.Issues (.exit g a) g) (hc : s.clean [a]) (hd : s.settled)
    (hb : exitOn (s.opened (.exit g a)) (s.gv a) = .gone t) : exec (.exit g a) s = .next t := by
  refine exec_gone rfl hi ((consume_clean (clean_opened hc) _).trans ?_)
  rw [draining_settled (settled_opened hd)]
  exact hb

/-- The state in which a task of this module has resolved its future and left its barriers, with the number of
barriers of other modules that it asks. -/
def State.exitLeft (s : State) (v : Word) : Nat × State :=
  let ended := (s.endFuture s.me.task 2 v).takeMembers s.me.task
  ended.2.exitLeaves ended.1

theorem State.Beside.exitLeft (v : Word) : s.Beside (s.exitLeft v).2 :=
  (((State.Beside.refl s).endFuture ..).takeMembers _).exitLeaves _

/-- A task of this module whose barriers lie here quits at once (R162). -/
theorem exitOn_here {v : Word} (h : s.answer 33 = none) (ho : hModule s.me.task = s.modNo.toNat)
    (hl : (s.exitLeft v).1 = 0) : exitOn s v = .gone ((s.exitLeft v).2.dropRef s.me.task).quit := by
  have h1 := (State.Beside.refl s).endFuture s.me.task 2 v
  have hm1 : (s.endFuture s.me.task 2 v).me.task = s.me.task := congrArg Strand.task h1.me
  have ho1 : hModule (s.endFuture s.me.task 2 v).me.task = (s.endFuture s.me.task 2 v).modNo.toNat := by
    rw [hm1, h1.modNo]
    exact ho
  have h3 := State.Beside.exitLeft (s := s) v
  have hm3 : (s.exitLeft v).2.me.task = s.me.task := congrArg Strand.task h3.me
  have ho3 : hModule (s.exitLeft v).2.me.task = (s.exitLeft v).2.modNo.toNat := by
    rw [hm3, h3.modNo]
    exact ho
  rw [exitOn_first h, exitResolve_here ho]
  refine (exitLeave_here ho1 (by rw [hm1]; exact hl)).trans ?_
  rw [hm1]
  exact (exitDrop_here ho3).trans (by rw [hm3])

section
variable {v : Word} (ho : hModule s.me.task ≠ s.modNo.toNat)
include ho

/-- A task whose handle names no future, or one of a module that is not there, quits at once. -/
theorem exitOn_absent (ha : ∀ n, s.answer n = none)
    (hh : hGen s.me.task = 0 ∨ s.present (hModule s.me.task) = false) : exitOn s v = .gone s.quit := by
  have hn : ¬(s.answer 30 = none && hGen s.me.task ≠ 0 && s.present (hModule s.me.task) &&
      !s.featBit (hModule s.me.task) 8) = true := by
    rcases hh with hh | hh <;> simp [hh]
  rw [exitOn_first (ha 33)]
  refine (if_neg ho).trans ((if_neg hn).trans ((exitAsk_none (ha 30) hh).trans ?_))
  refine (if_neg ho).trans ((exitAsk_none (ha 31) hh).trans ?_)
  exact (if_neg ho).trans (exitAsk_none (ha 34) hh)

/-- A task whose last answers have come quits. -/
theorem exitOn_answered (h33 : (s.answer 33).isSome = true) (h34 : (s.answer 34).isSome = true) :
    exitOn s v = .gone s.quit := by
  obtain ⟨x, hx⟩ := Option.isSome_iff_exists.1 h34
  unfold exitOn
  dsimp only
  rw [if_pos h33]
  refine (if_neg ho).trans ?_
  unfold exitAsk
  rw [hx]

/-- A task of another module sends its result there, and waits (R386). -/
theorem exitOn_asks (ha : ∀ n, s.answer n = none) (hg : hGen s.me.task ≠ 0)
    (hp : s.present (hModule s.me.task) = true) (hb : s.featBit (hModule s.me.task) 8 = true) :
    exitOn s v = .await (s.ask 30 (.future 4 s.me.task v s.me.task) (.remote (hModule s.me.task)) 0 0 0 0 false) 1
      s.got := by
  have hn : ¬(s.answer 30 = none && hGen s.me.task ≠ 0 && s.present (hModule s.me.task) &&
      !s.featBit (hModule s.me.task) 8) = true := by
    simp [hb]
  have hy : (hGen s.me.task ≠ 0 && s.takesRequests (hModule s.me.task)) = true := by
    simp [State.takesRequests, hb, hp, hg]
  rw [exitOn_first (ha 33)]
  refine (if_neg ho).trans ((if_neg hn).trans ?_)
  unfold exitAsk
  rw [ha]
  exact if_pos hy

end

end Sys2Proof.Machine

namespace Sys2Proof.Proofs

open Sys2Proof.Machine

/-- Settles O15: an EXIT's steps at the ports of this module leave the issuing strand's issue and its task, so each next
step acts for the same task and the slot that is freed is its own. -/
theorem taskInstructionsAndExitComplete : Obligations.TaskInstructionsAndExitComplete := by
  unfold Obligations.TaskInstructionsAndExitComplete
  refine ⟨⟨?_, ?_, ?_, ?_, ?_⟩, ?_⟩
  · intro s g d a q h s1 i e kind given hi hc hd hf h1 h2 h3 ha
    have hg := entryWord_ok h1 h2 h3
    have hb := ((State.Beside.refl (s.opened i)).allocate s.myCluster kind)
    rw [ha] at hb
    have hcore : s1.issue.core = s.issue.core := by
      rw [hb.issue]
      rfl
    rw [← hcore]
    by_cases h0 : bits (s.gv a) 55 0 = 0
    · have hk : kind = 4 := if_pos h0
      rw [hk] at ha
      refine ⟨fun _ => ?_, fun h => absurd (hk.symm.trans h) (by decide)⟩
      cases q with
      | none => exact exec_done rfl hi (spawn_promise (clean_opened hc) (settled_opened hd) hf hg h0 ha)
      | some pq => exact exec_done rfl hi (spawn_promise (clean_opened hc) (settled_opened hd) hf hg h0 ha)
    · have hk : kind = 0 := if_neg h0
      rw [hk] at ha
      refine ⟨fun h => absurd (hk.symm.trans h) (by decide), fun _ hr hs => ?_⟩
      cases q with
      | none => exact exec_done rfl hi (spawn_task (clean_opened hc) (settled_opened hd) hf hg h0 ha hr hs)
      | some pq => exact exec_done rfl hi (spawn_task (clean_opened hc) (settled_opened hd) hf hg h0 ha hr hs)
  · intro s g d a pq s1 i e hi hc hd hf h1 h2 h3 ha
    have hg := entryWord_ok h1 h2 h3
    exact exec_done rfl hi (spawnq_none (clean_opened hc) (settled_opened hd) hf hg ha)
  · intro s g a m c i u out d hi hc hd hx hh hp ho
    have hu : (s.opened i).Beside u := (State.Beside.refl (s.opened i)).useTlb (s.gv a)
    have hme : u.me = s.me := hu.me
    have hgoOn : goOn u m c =
        if m = s.modNo.toNat ∧ c = s.issue.core then
          .gone (out.setMe { out.freshStrand d with st := .ready, inst := s.me.inst, last := s.me.last })
        else if m = s.modNo.toNat ∧ (!(u.core c).arrivalRoom) = true then .hold u .ring u.got
        else if m = s.modNo.toNat then .gone ((out.freeSlot s.issue.core s.issue.slot).arrive c d)
        else .gone { out.freeSlot s.issue.core s.issue.slot with
          migrations := (out.freeSlot s.issue.core s.issue.slot).migrations ++ [(m, c, d)] } := by
      have hpc : u.nextPc = s.nextPc := by
        rw [State.nextPc, hu.me, hu.issue]
        rfl
      unfold goOn
      rw [hme, hu.issue, hu.modNo, hpc]
      rfl
    refine ⟨fun hm hdr => ?_, fun hm hs ht => ?_⟩
    · have hgo {t : State} := exec_go (t := t) hi hc hd hx hh hp ho (fun h => h.1 hm)
        fun h => absurd (hdr h.2.1) (Nat.not_lt.2 h.2.2)
      refine ⟨fun hcc => hgo ?_, fun hcc hr => hgo ?_⟩
      · rw [hgoOn, if_pos ⟨hm, hcc⟩]
      · rw [hgoOn, if_neg fun h => hcc h.2, if_neg (by rw [hr]; exact fun h => nomatch h.2), if_pos hm]
    · refine exec_go hi hc hd hx hh hp ho (fun h => h.2.elim (absurd hs) (absurd ht)) (fun h => hm h.1) ?_
      rw [hgoOn, if_neg fun h => hm h.1, if_neg fun h => hm h.1, if_neg hm]
  · intro s g n s1 i hi
    refine ⟨fun h => exec_done rfl hi ?_, fun ho hp hd => exec_gone rfl hi ?_⟩
    · rcases h with h | h
      · exact if_pos h
      · dsimp only
        rw [h]
        split <;> rfl
    · have ho' : (s.opened i).ownsPort = false := ho
      have hr : s1.issue = (s.opened i).issue := by
        obtain ⟨-, -, f, ks, e⟩ := State.parkIndex_eq hp
        rw [e]
      dsimp only
      rw [ho', hp, draining_settled (settled_opened hd), hp]
      dsimp only
      rw [State.parkAs_issue, hr]
      rfl
  · intro s g d hi
    exact exec_done rfl hi rfl
  · intro s g a hi hc hd u h m goes
    have hgoes {w : State} (hw : u.Beside w) (hb : exitOn u (s.gv a) = .gone w.quit) : goes w.quit :=
      ⟨exec_exit hi hc hd hb, State.quit_st (s := u) hw⟩
    refine ⟨fun hf ho => ?_, fun ho => ⟨fun hf hh => ?_, fun h33 h34 => ?_, fun hf hg hp hb => ?_⟩⟩
    · intro ended left hl
      exact hgoes ((State.Beside.exitLeft _).dropRef h) (exitOn_here (answer_of_flight hf 33) ho hl)
    · exact hgoes (.refl u) (exitOn_absent ho (answer_of_flight hf) hh)
    · exact hgoes (.refl u) (exitOn_answered ho h33 h34)
    · have hasks := exitOn_asks (s := u) (v := s.gv a) ho (answer_of_flight hf) hg hp hb
      obtain ⟨r, hr, -, -, -, hop, hpl, -⟩ := State.exists_mem_ask (s := u) 30 (.future 4 h (s.gv a) h)
        (.remote (hModule h)) 0 0 0 0 false
      refine ⟨_, run_await (n := 1) (got := u.got) hi ((consume_clean (clean_opened hc) _).trans ?_), ?_, r, hr,
        hop, hpl⟩
      · rw [draining_settled (settled_opened hd)]
        exact hasks
      · exact State.await_st (s := u) ((State.Beside.refl u).ask ..) 1 u.got

end Sys2Proof.Proofs
end

section
/-! ## Replies of the fabric (O43) -/

namespace Sys2Proof.Machine

variable {s t : State} {p : Packet}

theorem onPacket_own (hs : s.man.stopped = false) (hd : p.dst = s.modNo) {op : PktOp} (ho : p.op = op) (k : State) :
    s.onPacket p op k = .next k := by
  rw [State.onPacket, event_of_running hs]
  simp [hd, ho]

/-- The answer of a delivery, where the release of a barrier's waiter asks for one (R173; log 11). -/
theorem exec_fabricFutureDelivery (hs : s.man.stopped = false) (hd : p.dst = s.modNo) (ho : p.op = .futDel) :
    exec (.fabricFutureDelivery p) s = .next
      (match (s.meetTail (p.arg 4)).deliverToken (p.arg 4) (p.arg 5) (p.arg 6) (p.arg 7) (p.arg 8).toNat with
        | some (link, v) =>
          if p.arg 8 = 2 then v.emit (answerPacket p 0 (.data (leBytes 8 link.toNat) [false])) else v
        | none =>
          if p.arg 8 = 2 then (s.meetTail (p.arg 4)).emit (answerPacket p 0 (.note 2))
          else s.meetTail (p.arg 4)) := by
  refine (onPacket_own hs hd ho _).trans (congrArg _ ?_)
  dsimp only
  generalize State.deliverToken _ _ _ _ _ _ = x
  obtain _ | ⟨link, v⟩ := x <;> rfl

theorem exec_fabricReadReply (hs : s.man.stopped = false) (hd : p.dst = s.modNo) (ho : p.op = .readReply) {r : Req}
    (hr : s.reqOf p = some r) : exec (.fabricReadReply p) s = .next (s.finishReq r (answerOf r p)) :=
  (onPacket_own hs hd ho _).trans (by rw [hr])

theorem exec_fabricAck (hs : s.man.stopped = false) (hd : p.dst = s.modNo) (ho : p.op = .ack) :
    exec (.fabricAck p) s = .next (s.tagged p (p.tag :: p.args.map (·.toNat)) State.ackNamed) :=
  onPacket_own hs hd ho _

theorem exec_fabricErrorReply (hs : s.man.stopped = false) (hd : p.dst = s.modNo) (ho : p.op = .error)
    (ha : p.args.drop 3 = []) : exec (.fabricErrorReply p) s =
      .next (s.tagged p [p.tag] fun s x => s.failNamed (errorCode p) x) :=
  (onPacket_own hs hd ho _).trans (by rw [ha]; rfl)

/-! ### Tokens (R153) -/

section
variable {x st v obj : Word} {kind : Nat}

/-- The token of a park record whose task is not about to park. -/
theorem State.deliverToken_park {cl idx : Nat} (ho : paOffset (bits x 55 0) < 2 ^ 46)
    (hp : s.parkOf (bits x 55 0) = some (cl, idx)) (hn : s.parkingSoon cl idx = false) :
    s.deliverToken x st v obj kind = if s.waitsOn (bits x 55 0) kind obj then
      some (s.seenWord (paOffset (bits x 55 0) + 352), s.deliverRecord (bits x 55 0) (st == 2) v) else none := by
  rw [State.deliverToken, if_neg (by omega), if_neg (by omega), State.deliverPark, hp]
  dsimp only
  rw [hn, if_neg Bool.false_ne_true]
  split <;> rfl

/-- The token of a slot. -/
theorem State.deliverToken_slot (h46 : 2 ^ 46 ≤ paOffset (bits x 55 0))
    (h47 : paOffset (bits x 55 0) < 2 ^ 46 + 2 ^ 45) : s.deliverToken x st v obj kind =
      (s.deliverSlot (paOffset (bits x 55 0) % 2 ^ 17 / 32) (paOffset (bits x 55 0) % 32) x st v).map
        fun u => (0, u) := by
  rw [State.deliverToken, if_neg (by omega), if_pos h46]

end

/-! ### What the tags of a reply name (R381, R388) -/

theorem State.tagNames_some {k : Nat} {r : Req} (h : s.reqNamed p k = some r) : s.tagNames p k = (some r, []) := by
  rw [State.tagNames, h]

theorem State.tagNames_none {k : Nat} (h : s.reqNamed p k = none) : s.tagNames p k = (none, s.storesOf p k) := by
  rw [State.tagNames, h]

/-- Where a reply names sectors, the allowance follows their number. -/
theorem State.tagged_sectors {tags : List Nat} {n : Nat} {k : State → Option Req × List (Nat × WbEntry) → State}
    {l : List (Option Req × List (Nat × WbEntry))} (hl : tags.map (s.tagNames p) = l)
    (hn : (l.map sectorsNamed).sum = n) (h0 : n ≠ 0) :
    s.tagged p tags k = l.foldl k (s.sectorsDone p.sclus p.src.toNat p.path n p.mark) := by
  rw [State.tagged, hl, hn, if_neg h0]

/-- Where it names none, the allowance stays. -/
theorem State.tagged_plain {tags : List Nat} {k : State → Option Req × List (Nat × WbEntry) → State}
    {l : List (Option Req × List (Nat × WbEntry))} (hl : tags.map (s.tagNames p) = l)
    (hn : (l.map sectorsNamed).sum = 0) : s.tagged p tags k = l.foldl k s := by
  rw [State.tagged, hl, hn]
  rfl

theorem sectorsNamed_write {r : Req} (h : r.op.isWrite = true) (l : List (Nat × WbEntry)) :
    sectorsNamed (some r, l) = 1 := if_pos h

theorem sectorsNamed_read {r : Req} (h : r.op.isWrite = false) (l : List (Nat × WbEntry)) :
    sectorsNamed (some r, l) = 0 := if_neg (by rw [h]; decide)

/-- A request that is a strand's own ends with its answer. -/
theorem State.finishReq_strand {r : Req} (h : r.slot ≠ errandSlot) (a : Answer) :
    s.finishReq r a = s.answerReq r a := if_neg fun k => h k.1

theorem State.finishReq_errand {r : Req} (h : r.slot = errandSlot) (hp : r.pkt = none) (a : Answer) :
    s.finishReq r a = s.endErrand r a := if_pos ⟨h, by rw [hp]; rfl⟩

end Sys2Proof.Machine

namespace Sys2Proof.Proofs

open Sys2Proof.Machine

/-- Settles O43: a reply's tags name either a request or stores, and each of them ends once. -/
theorem fabricRepliesComplete : Obligations.FabricRepliesComplete := by
  unfold Obligations.FabricRepliesComplete
  intro s p hs
  refine ⟨fun hd => ?_, fun n k f m hl idx t ht => ?_⟩
  · intro t pa o u ends
    refine ⟨fun ho h46 cl idx hpark hsoon => ⟨fun hw => ?_, fun hw => ?_⟩, fun ho h46 h47 v hv => ?_,
      fun ho r hr => ⟨fun h => ?_, fun h hp => ?_⟩, fun ho ha r hr hw h => ?_, fun ho hr c e l ha hst => ?_,
      fun ho k r e c ha hr hw h hk hst => ?_,
      fun ho ha => ⟨fun r hr hw hc => ?_, fun r hr h => ⟨fun hw => ?_, fun hw hc => ?_⟩, fun hr c e hst => ?_⟩⟩
    · refine (exec_fabricFutureDelivery hs hd ho).trans ?_
      rw [State.deliverToken_park (s := u) h46 hpark hsoon, if_pos hw]
    · refine (exec_fabricFutureDelivery hs hd ho).trans ?_
      rw [State.deliverToken_park (s := u) h46 hpark hsoon, if_neg (by rw [hw]; decide)]
    · refine (exec_fabricFutureDelivery hs hd ho).trans ?_
      rw [State.deliverToken_slot (s := u) h46 h47, hv]
      rfl
    · rw [exec_fabricReadReply hs hd ho hr, State.finishReq_strand h]
    · rw [exec_fabricReadReply hs hd ho hr, State.finishReq_errand h hp]
    · have hl : (p.tag :: p.args.map (·.toNat)).map (s.tagNames p) = [(some r, [])] := by
        rw [ha]
        exact congrArg (fun x => [x]) (State.tagNames_some hr)
      have hn : ([(some r, [])].map sectorsNamed).sum = 1 := congrArg (fun n => n + 0) (sectorsNamed_write hw _)
      rw [exec_fabricAck hs hd ho, State.tagged_sectors hl hn (by decide), List.foldl_cons, List.foldl_nil,
        State.ackNamed, State.finishReq_strand h]
    · have hl : (p.tag :: p.args.map (·.toNat)).map (s.tagNames p) = [(none, (c, e) :: l)] := by
        rw [ha, ← hst]
        exact congrArg (fun x => [x]) (State.tagNames_none hr)
      rw [exec_fabricAck hs hd ho, State.tagged_sectors hl rfl (Nat.succ_ne_zero _), List.foldl_cons, List.foldl_nil,
        State.ackNamed]
      rfl
    · have hl : (p.tag :: p.args.map (·.toNat)).map (s.tagNames p) = [(some r, []), (none, [(c, e)])] := by
        rw [ha, ← hst]
        exact congrArg₂ (fun x y => [x, y]) (State.tagNames_some hr) (State.tagNames_none hk)
      have hn : ([(some r, []), (none, [(c, e)])].map sectorsNamed).sum = 2 :=
        congrArg (fun n => n + 1) (sectorsNamed_write hw _)
      rw [exec_fabricAck hs hd ho, State.tagged_sectors hl hn (by decide), List.foldl_cons, List.foldl_cons,
        List.foldl_nil, State.ackNamed, State.ackNamed, State.finishReq_strand h, List.foldl_cons, List.foldl_nil]
    · have hl : [p.tag].map (s.tagNames p) = [(some r, [])] := congrArg (fun x => [x]) (State.tagNames_some hr)
      have hn : ([(some r, [])].map sectorsNamed).sum = 0 := congrArg (fun n => n + 0) (sectorsNamed_read hw _)
      rw [exec_fabricErrorReply hs hd ho ha, State.tagged_plain hl hn, List.foldl_cons, List.foldl_nil, State.failNamed,
        if_neg hc, hw, if_neg Bool.false_ne_true]
    · have hl : [p.tag].map (s.tagNames p) = [(some r, [])] := congrArg (fun x => [x]) (State.tagNames_some hr)
      have hn : ([(some r, [])].map sectorsNamed).sum = 1 := congrArg (fun n => n + 0) (sectorsNamed_write hw _)
      rw [exec_fabricErrorReply hs hd ho ha, State.tagged_sectors hl hn (by decide), List.foldl_cons, List.foldl_nil,
        State.failNamed, State.finishReq_strand h, State.finishReq_strand h, hw, if_pos rfl]
      split
      · next hc => rw [hc]
      · rfl
    · have hl : [p.tag].map (s.tagNames p) = [(some r, [])] := congrArg (fun x => [x]) (State.tagNames_some hr)
      have hn : ([(some r, [])].map sectorsNamed).sum = 0 := congrArg (fun n => n + 0) (sectorsNamed_read hw _)
      rw [exec_fabricErrorReply hs hd ho ha, State.tagged_plain hl hn, List.foldl_cons, List.foldl_nil, State.failNamed,
        if_pos hc, State.finishReq_strand h, hc]
    · have hl : [p.tag].map (s.tagNames p) = [(none, [(c, e)])] := by
        rw [← hst]
        exact congrArg (fun x => [x]) (State.tagNames_none hr)
      rw [exec_fabricErrorReply hs hd ho ha, State.tagged_sectors hl rfl (Nat.succ_ne_zero 0), List.foldl_cons,
        List.foldl_nil, State.failNamed, List.foldl_cons, List.foldl_nil]
      rfl
  · intro u x rows
    refine (event_of_running hs _).trans (congrArg _ ?_)
    rw [hl]
    dsimp only
    rw [ht]
    rfl

end Sys2Proof.Proofs
end

section
/-! ## Binding, stealing and rings (O35) -/

namespace Sys2Proof.Machine

variable {s t u : State}

/-! ### Poison of what the device reads -/

theorem exists_mem_wordsOf {o n g : Nat} (h : g ∈ gransOf o n) : ∃ w ∈ wordsOf o n, w / 4 = g := by
  unfold gransOf at h
  unfold wordsOf
  split at h
  · cases h
  · next hn =>
    obtain ⟨i, hi, rfl⟩ := List.mem_map.1 h
    rw [List.mem_range] at hi
    refine ⟨max (o / 8) (4 * (i + o / 32)), ?_, by omega⟩
    rw [if_neg hn]
    exact List.mem_map.2 ⟨max (o / 8) (4 * (i + o / 32)) - o / 8, List.mem_range.2 (by omega), by omega⟩

/-- A word that the device reads is poisoned exactly where a granule of its stretch is (R204). -/
theorem State.any_poison_iff {o n : Nat} : ((wordsOf o n).map fun w => s.granPois (w / 4)).any id = true ↔
    ∃ g ∈ gransOf o n, s.granPois g = true := by
  simp only [List.any_map, List.any_eq_true, Function.comp_def, id_eq]
  constructor
  · rintro ⟨w, hw, hp⟩
    exact ⟨w / 4, div_mem_gransOf hw, hp⟩
  · rintro ⟨g, hg, hp⟩
    obtain ⟨w, hw, rfl⟩ := exists_mem_wordsOf hg
    exact ⟨w, hw, hp⟩

theorem State.any_poison_false {o n : Nat} (hp : ∀ g ∈ gransOf o n, s.granPois g = false) :
    ((wordsOf o n).map fun w => s.granPois (w / 4)).any id = false := by
  refine eq_false_of_ne_true fun h => ?_
  obtain ⟨g, hg, h⟩ := State.any_poison_iff.1 h
  exact absurd (h.symm.trans (hp g hg)) (by decide)

/-! ### The registers of a strand that is bound -/

theorem SMap.get_foldl_put {α : Type} [DecidableEq α] (d : α) (f : Nat → α) (n k : Nat) :
    SMap.get ((List.range n).foldl (fun m i => SMap.put m d i (f i)) []) d k = if k < n then f k else d := by
  induction n with
  | zero => rfl
  | succ n ih =>
    rw [List.range_succ, List.foldl_append, List.foldl_cons, List.foldl_nil, SMap.get_put, ih]
    grind

theorem setWidth_extractLsb'_bits (x : Word) : (x.extractLsb' 0 56).setWidth 64 = BitVec.ofNat 64 (bits x 55 0) := by
  refine BitVec.eq_of_toNat_eq ?_
  simp [bits]

/-- A resumed strand has what its record holds (R137). -/
theorem State.strandOf_bytes {o : Nat} {bs : List Byte} (h : s.bytes o 384 = bs) (u : State) :
    (u.strandOf bs).pc = evenPc (BitVec.ofNat 64 (bits (s.word o) 55 0)) ∧
    (u.strandOf bs).task = s.word (o + 16) ∧ (u.strandOf bs).parent = s.word (o + 24) ∧
    (∀ r : Reg, (u.strandOf bs).reg r =
      ⟨s.word (o + 32 + 8 * r.toNat), (s.word (o + 288)).getLsbD r.toNat⟩) ∧
    (u.strandOf bs).pred = BitVec.ofNat 16 (leNat (s.bytes (o + 292) 2)) ||| 1 ∧
    (u.strandOf bs).seed = s.word (o + 304) ∧ (u.strandOf bs).rctr = s.word (o + 312) ∧
    (u.strandOf bs).shape = s.word (o + 320) ∧ (u.strandOf bs).snap = s.word (o + 328) := by
  have hs (i k : Nat) (hk : i + k ≤ 384) : (bs.drop i).take k = s.bytes (o + i) k := (State.bytes_slice h hk).symm
  have hw (i : Nat) (hk : i + 8 ≤ 384) : BitVec.ofNat 64 (leNat ((bs.drop i).take 8)) = s.word (o + i) := by
    rw [hs i 8 hk]
    rfl
  have hd (i : Nat) (hk : i < 4) : leWord (((bs.take 32 ++ List.replicate 128 0).drop (8 * i)).take 8) =
      s.word (o + 8 * i) := by
    have hl : bs.length = 384 := by rw [← h, State.bytes_length]
    rw [List.drop_append_of_le_length (by rw [List.length_take]; omega), List.take_append_of_le_length
      (by rw [List.length_drop, List.length_take]; omega), List.drop_take, List.take_take,
      Nat.min_eq_left (by omega), hs _ 8 (by omega)]
    rfl
  refine ⟨?_, hd 2 (by decide), hd 3 (by decide), fun r => ?_, ?_, hw 304 (by decide), hw 312 (by decide),
    hw 320 (by decide), hw 328 (by decide)⟩
  · exact congrArg evenPc ((setWidth_extractLsb'_bits _).trans
      (congrArg (fun x => BitVec.ofNat 64 (bits x 55 0)) (hd 0 (by decide))))
  · have hr := r.isLt
    have hp : (s.word (o + 288)).getLsbD r.toNat = (leNat ((bs.drop 288).take 4) / 2 ^ r.toNat % 2 == 1) := by
      refine State.getLsbD_word ?_ (Nat.testBit_eq_decide_div_mod_eq ..) hr
      rw [hs 288 4 (by decide)]
      have := leBytes_leNat (s.bytes (o + 288) 4)
      rw [State.bytes_length] at this
      exact this.symm
    rw [hp, Nat.add_assoc, ← hw (32 + 8 * r.toNat) (by omega)]
    exact (SMap.get_foldl_put (⟨0, false⟩ : PW) (fun i => ⟨BitVec.ofNat 64 (leNat ((bs.drop (32 + 8 * i)).take 8)),
      leNat ((bs.drop 288).take 4) / 2 ^ i % 2 == 1⟩) 32 r.toNat).trans (if_pos hr)
  · rw [← hs 292 2 (by decide)]
    rfl

/-! ### Binding (R150, R157) -/

/-- The state in which a free slot is chosen for the task taken from its queue. -/
def State.taking (s : State) (n : Nat) (a : Bool) : State :=
  (s.choose (s.freeSlots n).length).2.setCore n ((s.core n).takeTask a)

/-- The slot chosen. -/
def State.chosenSlot (s : State) (n : Nat) : Nat :=
  (s.freeSlots n).getD (s.choose (s.freeSlots n).length).1 0

/-- A core whose Reeve may bind takes its next task. -/
theorem exec_bindTask {n : Nat} {a : Bool} {d : Desc} (hs : s.man.stopped = false) (hb : s.binds n = true)
    (hf : s.freeSlots n ≠ []) (ht : (s.core n).nextTask = some (a, d)) (hl : (s.core n).landed = none)
    (hr : d.needsTiles = true → s.tileRoom (clusterOf n) d = true) : exec (.bindTask n) s = .next
      (if d.needsTiles then (s.taking n a).beginPrefetch n (s.chosenSlot n) d
      else if d.resume then (s.taking n a).bindResume n (s.chosenSlot n) d
      else (s.taking n a).bindFresh n (s.chosenSlot n) d) := by
  have hbind : s.bindable n = some (a, d) := by
    have hroom : (d.needsTiles && !s.tileRoom (clusterOf n) d) = false := by
      cases h : d.needsTiles
      · rfl
      · rw [hr h]
        rfl
    unfold State.bindable
    dsimp only
    rw [hb, ht, List.isEmpty_eq_false_iff.2 hf]
    dsimp only
    rw [hroom]
    rfl
  refine (event_of_running hs _).trans (congrArg _ ?_)
  unfold State.bind
  rw [hl]
  dsimp only
  unfold State.bindNext
  rw [hbind]
  rfl

theorem State.strand_bound (n k : Nat) : (s.bound n).strand n k = s.strand n k := by
  unfold State.bound State.strand
  rw [State.core_setCore_self]
  rfl

theorem State.strand_place (n k : Nat) (x : Strand) :
    (s.place n k x).strand n k = { x with st := .ready, inst := s.nextId } := State.strand_setStrand_self ..

theorem State.strand_taking (n k : Nat) (a : Bool) : (s.taking n a).strand n k = s.strand n k := by
  unfold State.taking State.strand
  rw [State.core_setCore_self]
  unfold Core.takeTask
  split <;> rfl

/-- A fresh task is placed where its start request passes (R150). -/
theorem State.bindFresh_true {n k : Nat} {d : Desc} (h : s.startFuture d.self = (true, t)) :
    s.bindFresh n k d = (t.place n k (t.freshStrand d)).bound n := by
  rw [State.bindFresh, h]

theorem State.bindFresh_false {n k : Nat} {d : Desc} (h : s.startFuture d.self = (false, t)) :
    s.bindFresh n k d = ((t.releaseDesc d).dropRef d.self).count n 7 1 := by
  rw [State.bindFresh, h]

/-- What a fresh strand has of its descriptor (R40, R247). -/
theorem State.freshStrand_eq (s : State) (d : Desc) : (s.freshStrand d).pc = evenPc (d.pc.setWidth 64) ∧
    (s.freshStrand d).priv = false ∧ (s.freshStrand d).task = d.self ∧ (s.freshStrand d).pred = d.pred ||| 1 ∧
    (s.freshStrand d).mig = d.mig ∧ (s.freshStrand d).prio = d.prio ∧ (s.freshStrand d).parent = d.parent ∧
    (∀ r : Reg, (s.freshStrand d).reg r =
      if r.toNat < 16 then ⟨d.carry.getD r.toNat 0, d.pois.getLsbD r.toNat⟩ else ⟨0, false⟩) ∧
    (d.ixk = 0 → (s.freshStrand d).snap = 0 ∧ (s.freshStrand d).tx = 0) ∧
    (d.ixk = 1 → (s.freshStrand d).snap = (SMap.get s.ver.snaps {} d.index.toNat).stamp) := by
  refine ⟨rfl, rfl, rfl, rfl, rfl, rfl, rfl, fun r => SMap.get_foldl_put (⟨0, false⟩ : PW)
    (fun i => ⟨d.carry.getD i 0, d.pois.getLsbD i⟩) 16 r.toNat, fun h => ?_, fun h => ?_⟩ <;>
  · unfold State.freshStrand
    rw [h]
    simp

/-- Two strands stand at one place in one task, with the same registers. -/
structure Strand.SameTask (x y : Strand) : Prop where
  pc : y.pc = x.pc
  task : y.task = x.task
  parent : y.parent = x.parent
  g : y.g = x.g
  pred : y.pred = x.pred
  seed : y.seed = x.seed
  rctr : y.rctr = x.rctr
  shape : y.shape = x.shape
  snap : y.snap = x.snap

theorem State.moveOwner_eq (n idx : Nat) (k : Option Nat) : (s.moveOwner n idx k).mem = s.mem ∧
    (s.moveOwner n idx k).clusters = s.clusters := by
  unfold State.moveOwner
  dsimp only
  split <;> exact ⟨rfl, rfl⟩

theorem Strand.SameTask.reg {x y : Strand} (h : x.SameTask y) (r : Reg) : y.reg r = x.reg r := by
  rw [Strand.reg, Strand.reg, h.g]

theorem Strand.sameTask_withSup (x : Strand) (p : ParkSup) (f : Option (Word × Word × Nat))
    (r : List (Word × Nat × Nat)) : x.SameTask { x.withSup p with failed := f, posted := r } :=
  ⟨rfl, rfl, rfl, rfl, rfl, rfl, rfl, rfl, rfl⟩

theorem State.strand_placed (n k : Nat) (x : Strand) :
    ((s.place n k x).bound n).strand n k = { x with st := .ready, inst := s.nextId } := by
  rw [State.strand_bound, State.strand_place]

theorem Strand.SameTask.placed {x y : Strand} (h : x.SameTask y) (n k : Nat) :
    x.SameTask (((s.place n k y).bound n).strand n k) := by
  rw [State.strand_placed]
  exact ⟨h.pc, h.task, h.parent, h.g, h.pred, h.seed, h.rctr, h.shape, h.snap⟩

theorem State.mem_placed (n k : Nat) (x : Strand) : ((s.place n k x).bound n).mem = s.mem := rfl

theorem State.cluster_placed (n k c : Nat) (x : Strand) : ((s.place n k x).bound n).cluster c = s.cluster c := rfl

/-- A task whose record is sound is placed as its record says (R135). -/
theorem State.bindResume_sound {n k o : Nat} {d : Desc} (ho : s.parkOff (clusterOf n) + 384 * d.parkIndex = o)
    (hq : s.QuietAt o 384) (hp : ∀ g ∈ gransOf o 384, s.granPois g = false) :
    (s.bindResume n k d).mem = s.mem ∧
      SMap.get ((s.bindResume n k d).cluster (clusterOf n)).parked 0 d.parkIndex = 0 ∧
      ((s.bindResume n k d).strand n k).st = .ready ∧
      ∃ u : State, (u.strandOf (s.bytes o 384)).SameTask ((s.bindResume n k d).strand n k) := by
  obtain ⟨t, ht, hr⟩ := hq.hbmRead
  have hany := State.any_poison_false hp
  have hgive : SMap.get ((t.givePark (clusterOf n) d.parkIndex).cluster (clusterOf n)).parked 0 d.parkIndex = 0 := by
    unfold State.givePark
    rw [State.cluster_setCluster, if_pos rfl]
    dsimp only
    exact SMap.get_put_self ..
  unfold State.bindResume
  dsimp only
  rw [ho, hr]
  dsimp only
  rw [hany, if_neg Bool.false_ne_true]
  generalize hv : State.moveOwner _ n d.parkIndex (some k) = v
  have hmv : v.mem = s.mem ∧ v.clusters = (t.givePark (clusterOf n) d.parkIndex).clusters := by
    rw [← hv]
    exact ⟨(State.moveOwner_eq ..).1.trans ht.mem, (State.moveOwner_eq ..).2⟩
  refine ⟨?_, ?_, ?_, t, ?_⟩
  · rw [State.mem_placed]
    exact hmv.1
  · rw [State.cluster_placed, State.cluster, hmv.2]
    exact hgive
  · rw [State.strand_placed]
  · exact (Strand.sameTask_withSup ..).placed n k

/-- A task whose record has lost data is recorded, and bound nowhere (R155; log 45). -/
theorem State.bindResume_lost {n k o : Nat} {d : Desc} (ho : s.parkOff (clusterOf n) + 384 * d.parkIndex = o)
    (hq : s.QuietAt o 384) (hp : ∃ g ∈ gransOf o 384, s.granPois g = true) :
    ∃ t, s.CachesOnly t ∧ s.bindResume n k d = t.record 0x8607 (0x0900 + clusterOf n) d.parkIndex := by
  obtain ⟨t, ht, hr⟩ := hq.hbmRead
  refine ⟨t, ht, ?_⟩
  unfold State.bindResume
  dsimp only
  rw [ho, hr]
  dsimp only
  rw [State.any_poison_iff.2 hp, if_pos rfl]

/-! ### Rings (R156) -/

/-- The entry of a ring that stands in HBM. -/
def State.ringDesc (s : State) (ring : Word) (i : Nat) : Desc :=
  descOf (s.bytes (paOffset (ringPa ring) + 160 * i) 160)

/-- An entry can be read: nothing stands in the way of it, and it has lost no data. -/
def State.RingSound (s : State) (ring : Word) (i : Nat) : Prop :=
  s.QuietAt (paOffset (ringPa ring) + 160 * i) 160 ∧
    ∀ g ∈ gransOf (paOffset (ringPa ring) + 160 * i) 160, s.granPois g = false

theorem State.RingSound.ringGet {ring : Word} {i : Nat} (h : s.RingSound ring i) (n : Nat) :
    ∃ t, s.CachesOnly t ∧ s.ringGet n ring i = (some (s.ringDesc ring i), t) := by
  obtain ⟨t, ht, hr⟩ := h.1.hbmRead
  refine ⟨t, ht, ?_⟩
  unfold State.ringGet
  rw [hr]
  dsimp only
  rw [State.any_poison_false h.2, if_neg Bool.false_ne_true]
  rfl

theorem State.RingSound.caches {ring : Word} {i : Nat} (h : s.RingSound ring i) (hc : s.CachesOnly t) :
    t.RingSound ring i := ⟨h.1.caches hc, by rw [hc.granPois]; exact h.2⟩

theorem State.RingSound.setCore {ring : Word} {i : Nat} (h : s.RingSound ring i) (n : Nat) (c : Core) :
    (s.setCore n c).RingSound ring i := ⟨⟨h.1.groups, h.1.sound, h.1.looms, h.1.copies⟩, h.2⟩

theorem State.CachesOnly.core (h : s.CachesOnly t) (n : Nat) : t.core n = s.core n := by
  obtain ⟨l, ps, rfl, -⟩ := h
  rfl

theorem State.refillDeque_stop {n : Nat} (h : (s.core n).dqFill = 0 ∨ 32 ≤ (s.core n).deque.length) (fuel : Nat) :
    s.refillDeque n fuel = s := by
  cases fuel with
  | zero => rfl
  | succ fuel => exact if_pos h

theorem exec_dequeRefill {n : Nat} (hs : s.man.stopped = false) : exec (.dequeRefill n) s =
    .next (if (s.core n).deque.length ≤ 16 then s.refillDeque n 65536 else s) := event_of_running hs _

/-- The core whose deque has taken an entry back from its ring. -/
def Core.unspilled (c : Core) (d : Desc) : Core :=
  { c with dqFill := c.dqFill - 1, deque := d :: c.deque }.count 3 1

theorem State.refillDeque_succ {n fuel : Nat} {d : Desc}
    (h : ¬((s.core n).dqFill = 0 ∨ 32 ≤ (s.core n).deque.length))
    (hg : s.ringGet n (s.core n).dqring ((s.core n).dqFill - 1) = (some d, t)) :
    s.refillDeque n (fuel + 1) = (t.setCore n ((t.core n).unspilled d)).refillDeque n fuel := by
  rw [State.refillDeque]
  dsimp only
  rw [if_neg h, hg]
  rfl

/-- The youngest entries of the ring come back to the deque, as many as it takes (R156). -/
theorem State.refillDeque_eq {n k fuel : Nat} (hk : k = min (s.core n).dqFill (32 - (s.core n).deque.length))
    (hf : k ≤ fuel) (hr : ∀ i, (s.core n).dqFill - k ≤ i → i < (s.core n).dqFill → s.RingSound (s.core n).dqring i) :
    (s.refillDeque n fuel).mem = s.mem ∧ ((s.refillDeque n fuel).core n).dqFill = (s.core n).dqFill - k ∧
      ((s.refillDeque n fuel).core n).deque =
        (List.range' ((s.core n).dqFill - k) k).map (s.ringDesc (s.core n).dqring) ++ (s.core n).deque := by
  induction k generalizing s fuel with
  | zero =>
    rw [State.refillDeque_stop (by omega)]
    exact ⟨rfl, rfl, rfl⟩
  | succ k ih =>
    obtain ⟨fuel, rfl⟩ : ∃ m, fuel = m + 1 := ⟨fuel - 1, by omega⟩
    obtain ⟨t, ht, hg⟩ := (hr ((s.core n).dqFill - 1) (by omega) (by omega)).ringGet n
    generalize hd : s.ringDesc (s.core n).dqring ((s.core n).dqFill - 1) = d at hg
    have hcore : (t.setCore n ((t.core n).unspilled d)).core n = (s.core n).unspilled d := by
      rw [State.core_setCore_self, ht.core]
    have hfill : ((s.core n).unspilled d).dqFill = (s.core n).dqFill - 1 := rfl
    have hdeque : ((s.core n).unspilled d).deque = d :: (s.core n).deque := rfl
    have hring : ((s.core n).unspilled d).dqring = (s.core n).dqring := rfl
    have hdesc (ring : Word) : (t.setCore n ((t.core n).unspilled d)).ringDesc ring = s.ringDesc ring := by
      funext i
      exact congrArg descOf (State.bytes_congr (t := t.setCore n _) ht.mem ..)
    obtain ⟨hm, hq, hl⟩ := ih (s := t.setCore n ((t.core n).unspilled d)) (fuel := fuel)
      (by rw [hcore, hfill, hdeque, List.length_cons]; omega) (by omega) fun i h1 h2 => by
        rw [hcore, hfill] at h1 h2
        rw [hcore, hring]
        exact ((hr i (by omega) (by omega)).caches ht).setCore n _
    rw [hcore, hfill] at hq hl
    rw [State.refillDeque_succ (by omega) hg]
    refine ⟨hm.trans ht.mem, hq.trans (by omega), hl.trans ?_⟩
    have hfirst : (s.core n).dqFill - 1 - k = (s.core n).dqFill - (k + 1) := by omega
    have hlast : (s.core n).dqFill - (k + 1) + 1 * k = (s.core n).dqFill - 1 := by omega
    rw [hring, hdeque, hdesc, hfirst, List.range'_concat, hlast, List.map_append, List.append_assoc, ← hd]
    rfl

/-- A ring's entry moves to the end of the arrival queue. -/
theorem State.refillArrivals_some {n : Nat} {d : Desc} (h0 : (s.core n).arFill ≠ 0)
    (hl : (s.core n).arrivals.length < 64) (hg : s.ringGet n (s.core n).arring (s.core n).arHead = (some d, t)) :
    ((s.refillArrivals n).core n).arrivals = (t.core n).arrivals ++ [d] ∧
      ((s.refillArrivals n).core n).arFill = (t.core n).arFill - 1 := by
  unfold State.refillArrivals
  dsimp only
  rw [if_neg (by omega), hg]
  dsimp only
  rw [State.core_setCore_self]
  exact ⟨rfl, rfl⟩

/-! ### Stealing (R159, R160) -/

theorem State.stealRound_true {n : Nat} (hm : s.mayStealNow n = true) (hp : s.probes n 12 1 = (true, t)) :
    s.stealRound n = t := by
  unfold State.stealRound
  rw [hm, hp]
  rfl

theorem State.stealRound_false {n : Nat} (hm : s.mayStealNow n = true) (hp : s.probes n 12 1 = (false, t)) :
    s.stealRound n = t.setCore n { t.core n with
      due := t.now + (t.core n).backoff, backoff := min (2 * (t.core n).backoff) 4096 } := by
  unfold State.stealRound
  rw [hm, hp]
  rfl

end Sys2Proof.Machine

namespace Sys2Proof.Proofs

open Sys2Proof.Machine

/-- Settles O35: the device's read of a record or of a ring's entry brings the bytes that stand in HBM where nothing is
in its way, and a placed strand is the one that they describe. -/
theorem taskEventsComplete : Obligations.TaskEventsComplete := by
  unfold Obligations.TaskEventsComplete
  intro s n hs c free i taken slot cl fresh
  have hplaced {d : Desc} {j : Nat} {v u : State} (h : v.startFuture d.self = (true, u)) :
      fresh d j u (v.bindFresh n j d) ∧ (v.bindFresh n j d).mem = u.mem := by
    rw [State.bindFresh_true h]
    refine ⟨?_, rfl⟩
    have hst := u.strand_placed n j (u.freshStrand d)
    dsimp only [fresh]
    rw [hst]
    exact ⟨rfl, u.freshStrand_eq d⟩
  refine ⟨fun a d hb hf ht hl => ⟨?_, fun hd h0 => ?_, fun hd h0 hr => ?_⟩, fun j d hb hl => ?_, fun hm t hp => ?_,
    fun hm t hp => ?_, fun hlen => ?_, fun h0 => ?_, fun d t h0 hl hg => ?_, fun d r hr ha => ?_, fun cl slot => ?_⟩
  · intro hd o hq
    have hneeds : d.needsTiles = false := by rw [Desc.needsTiles, hd]; rfl
    have hexec := exec_bindTask hs hb hf ht hl (fun h => absurd (hneeds.symm.trans h) (by decide))
    rw [hneeds, if_neg Bool.false_ne_true, if_pos hd] at hexec
    have hqv : (s.taking n a).QuietAt o 384 := ⟨hq.groups, hq.sound, hq.looms, hq.copies⟩
    have ho : (s.taking n a).parkOff (clusterOf n) + 384 * d.parkIndex = o := rfl
    have hslot : s.chosenSlot n = slot := rfl
    have hmem0 : (s.taking n a).mem = s.mem := rfl
    have hstrand : (s.taking n a).strand n slot = s.strand n slot := State.strand_taking ..
    have hwritten : (s.taking n a).man = s.man := rfl
    have hpois : (s.taking n a).granPois = s.granPois := rfl
    rw [hslot] at hexec
    generalize s.taking n a = v at *
    refine ⟨fun hp => ?_, fun hp => ?_⟩
    · obtain ⟨hmem, hpark, hst, u, hu⟩ := State.bindResume_sound (k := slot) ho hqv (by rw [hpois]; exact hp)
      obtain ⟨hpc, htask, hparent, hreg, hpred, hseed, hrctr, hshape, hsnap⟩ :=
        State.strandOf_bytes (State.bytes_congr hmem0.symm o 384) u
      generalize v.bindResume n slot d = t at *
      exact ⟨t, hexec, hst, hu.pc.trans hpc, hu.task.trans htask, hu.parent.trans hparent,
        fun r => (hu.reg r).trans (hreg r), hu.pred.trans hpred, hu.seed.trans hseed, hu.rctr.trans hrctr,
        hu.shape.trans hshape, hu.snap.trans hsnap, hpark, hmem.trans hmem0⟩
    · obtain ⟨t, hc, hr⟩ := State.bindResume_lost (k := slot) ho hqv (by rw [hpois]; exact hp)
      have hman : t.man = s.man := by
        obtain ⟨l, ps, rfl, -⟩ := hc
        exact hwritten
      rw [hr] at hexec
      refine ⟨_, hexec, ?_, ?_, hc.mem.trans hmem0⟩
      · refine Eq.trans ?_ hstrand
        exact congrArg (fun c : Core => SMap.get c.strands {} slot) (hc.core n)
      · rw [State.record, hman]
        exact Nat.lt_succ_self _
  · have hneeds : d.needsTiles = false := by rw [Desc.needsTiles, hd, h0]; rfl
    have hexec := exec_bindTask hs hb hf ht hl (fun h => absurd (hneeds.symm.trans h) (by decide))
    rw [hneeds, if_neg Bool.false_ne_true, hd, if_neg Bool.false_ne_true] at hexec
    refine ⟨fun v hv => ?_, fun v hv => ?_⟩
    · exact ⟨_, hexec, hplaced hv⟩
    · exact hexec.trans (congrArg _ (State.bindFresh_false hv))
  · have hneeds : d.needsTiles = true := by
      rw [Desc.needsTiles, hd]
      simpa using h0
    exact (exec_bindTask hs hb hf ht hl (fun _ => hr)).trans (by rw [hneeds]; rfl)
  · intro u
    have hexec : exec (.bindTask n) s = .next (u.bindFresh n j d) := by
      refine (event_of_running hs _).trans (congrArg _ ?_)
      unfold State.bind
      rw [hl]
      exact if_pos hb
    exact ⟨fun v hv => ⟨_, hexec, hplaced hv⟩, fun v hv => hexec.trans (congrArg _ (State.bindFresh_false hv))⟩
  · exact (event_of_running hs _).trans (congrArg _ (State.stealRound_true hm hp))
  · refine ⟨_, (event_of_running hs _).trans (congrArg _ (State.stealRound_false hm hp)), ?_, ?_⟩ <;>
      rw [State.core_setCore_self]
  · intro k at_ hr
    obtain ⟨hmem, hfill, hdeque⟩ := State.refillDeque_eq (s := s) (n := n) (k := k) (fuel := 65536) rfl (by omega) hr
    have hexec := exec_dequeRefill (n := n) hs
    rw [if_pos hlen] at hexec
    generalize s.refillDeque n 65536 = t at *
    exact ⟨t, hexec, hmem, hfill, hdeque⟩
  · refine (exec_dequeRefill hs).trans (congrArg _ ?_)
    split
    · exact State.refillDeque_stop (.inl h0) _
    · rfl
  · obtain ⟨har, hfill⟩ := State.refillArrivals_some h0 hl hg
    exact ⟨_, event_of_running hs _, har, hfill⟩
  · refine (event_of_running hs _).trans (congrArg _ ?_)
    unfold State.resendArrival
    dsimp only
    rw [show (s.core n).resend = d :: r from hr]
    exact if_pos ha
  · exact event_of_running hs _

end Sys2Proof.Proofs
end

section
/-! ## Ending a future, its status and its references (O17) -/

namespace Sys2Proof.Machine

variable {s : State}

/-! ### Requests to a live future at its port -/

/-- A strand's request to end a plain future, or the future of its own task, is not refused (R187). -/
theorem not_refused_of_mine {h task : Word} {k : Byte} (hk : k = 4 ∨ (k = 0 ∧ h = task)) :
    ¬(k ≠ 0 ∧ k ≠ 4) ∧ ¬(k = 0 ∧ h ≠ task) := by
  rcases hk with rfl | ⟨rfl, rfl⟩
  · exact ⟨fun hn => hn.2 rfl, fun hn => absurd hn.1 (by decide)⟩
  · exact ⟨fun hn => hn.1 rfl, fun hn => hn.2 rfl⟩

section
variable {h : Word} {e : FutEntry} (l : s.Live h e)
include l

/-- RESOLVE and POISON of a pending future end it (R187). -/
theorem State.Live.endPort_pending {task : Word} (hs : e.state = 1) (hk : e.kind = 4 ∨ (e.kind = 0 ∧ h = task))
    (st : BitVec 3) (v : Word) : s.endPort h task st v =
      (.ok, (s.renew (hCluster h) (hSlot h) e).finish (hCluster h) (hSlot h) e st v) := by
  obtain ⟨hkind, htask⟩ := not_refused_of_mine hk
  simp only [State.endPort, l.find, if_neg hkind, if_neg htask, if_neg (not_not.mpr hs)]

/-- CANCEL ends a pending plain future (R150). -/
theorem State.Live.cancelPort_plain (hs : e.state = 1) (hk : e.kind = 4) : s.cancelPort h =
    (.ok, (s.renew (hCluster h) (hSlot h) e).finish (hCluster h) (hSlot h) e 4 0x0601) := by
  simp only [State.cancelPort, l.find, if_neg (not_not.mpr hs), if_pos hk]

/-- CANCEL of a task or a command that has started only records the request (R150). -/
theorem State.Live.cancelPort_started (hs : e.state = 1) (h3 : e.kind ≠ 3) (h4 : e.kind ≠ 4)
    (hst : e.started = true) : s.cancelPort h =
      (.ok, (s.renew (hCluster h) (hSlot h) e).putEntry (hCluster h) (hSlot h) { e with cxreq := true }) := by
  simp only [State.cancelPort, l.find, if_neg (not_not.mpr hs), if_neg h4, if_neg h3, if_pos hst]

/-- The status word (R154); nothing is changed (R190). -/
theorem State.Live.statPort : s.statPort h =
    (BitVec.ofNat 64 ((if e.state = 3 ∨ e.state = 4 then bits e.value 15 0 else 0) * 2 ^ 48 +
      e.refs.toNat * 2 ^ 32 +
      b1 (decide (e.head ≠ 0 ∨ s.slotWaits.any (fun w => w.kind == 1 && w.obj == h) = true)) * 2 ^ 5 +
      b1 e.started * 2 ^ 4 + b1 e.cxreq * 2 ^ 3 + e.state.toNat), s) := by
  have hbit (p : Prop) [Decidable p] : (if p then 32 else 0) = b1 (decide p) * 2 ^ 5 := by
    by_cases hp : p <;> simp [b1, hp]
  simp only [State.statPort, l.peek, hbit]
  rfl

theorem State.Live.holdPort (hr : e.refs ≠ 0xFFFF) : s.holdPort h =
    (.ok, (s.renew (hCluster h) (hSlot h) e).putEntry (hCluster h) (hSlot h) { e with refs := e.refs + 1 }) := by
  simp only [State.holdPort, l.find, if_neg hr]

/-- One of several references is given up, and the future stays (R148). -/
theorem State.Live.dropRef (hr : 1 < e.refs.toNat) : s.dropRef h =
    (s.renew (hCluster h) (hSlot h) e).putEntry (hCluster h) (hSlot h) { e with refs := e.refs - 1 } := by
  simp only [State.dropRef, if_neg (not_not.mpr l.own), l.find, if_pos hr]

/-- FDROP uses the entry once for its test and once for the drop (R191). -/
theorem State.Live.dropPort (hr : 1 < e.refs.toNat) : s.dropPort h =
    (.ok, (s.renew (hCluster h) (hSlot h) e).dropRef h) := by
  have hlast : ¬(e.state = 1 ∧ e.kind ≠ 4 ∧ e.refs.toNat ≤ 1) := fun hn => Nat.not_le.2 hr hn.2.2
  simp only [State.dropPort, l.find, if_neg hlast]

end

end Sys2Proof.Machine

namespace Sys2Proof.Proofs

open Sys2Proof.Machine

/-- Settles O17: each request reaches the live entry at its port, which grants it. -/
theorem futureInstructionsComplete : Obligations.FutureInstructionsComplete := by
  unfold Obligations.FutureInstructionsComplete
  intro s g d a b e l hc hf cl k used ended put again mine
  have hgrant {i : Instr} {code : Nat} {x : Word} {here : State → PortAns × State} {t : State}
      (hh : here (s.opened i) = (.ok, t)) :
      viaPort (s.opened i) (s.gv a) code x here (plainPort (s.gv a)) = .done t := viaPort_ok l.own hf hh
  refine ⟨fun hi hb hd hm hs => ?_, fun hi hb hd hm hs h0 h5 => ?_, fun hi => ⟨fun hs => ?_, fun hs h4 => ?_,
    fun hs h3 h4 hst => ?_⟩, fun hi => ?_, fun hi hr => ?_, fun hi hr => ?_⟩
  · refine exec_done_of_clean rfl hi (clean_cons hc hb) ?_
    rw [draining_settled (settled_opened hd)]
    exact hgrant (l.opened.endPort_pending hs hm 2 _)
  · have hw : faultWordOk ((s.opened (.poison g a b)).gv b) = true := decide_eq_true ⟨h0, h5⟩
    refine exec_done_of_clean rfl hi (clean_cons hc hb) ?_
    rw [hw, draining_settled (settled_opened hd)]
    exact hgrant (l.opened.endPort_pending hs hm 3 _)
  · exact exec_done_of_clean rfl hi hc (hgrant (l.opened.cancelPort_final hs))
  · exact exec_done_of_clean rfl hi hc (hgrant (l.opened.cancelPort_plain hs h4))
  · exact exec_done_of_clean rfl hi hc (hgrant (l.opened.cancelPort_started hs h3 h4 hst))
  · refine exec_done_of_clean rfl hi hc ?_
    have ho : hModule ((s.opened (.fstat g d a)).gv a) = (s.opened (.fstat g d a)).modNo.toNat := l.own
    have hfirst : (s.opened (.fstat g d a)).answer 0 = none := answer_of_flight hf 0
    dsimp only
    rw [answered_none hfirst, if_pos ho, State.gv_opened, l.opened.statPort]
    rfl
  · exact exec_done_of_clean rfl hi hc (hgrant (l.opened.holdPort hr))
  · refine exec_done_of_clean rfl hi hc (hgrant ((l.opened.dropPort hr).trans ?_))
    rw [l.opened.renew.dropRef hr]
    rfl

end Sys2Proof.Proofs
end

section
/-! ## A packet's request at a port, where nothing stands in its way -/

namespace Sys2Proof.Machine

variable {s t : State} {p : Packet} {r : Req} {a : Answer} {o : Nat} {bs : List Byte}

/-! ### Packets that set out -/

/-- A packet leaves both states on one link. -/
structure State.SameWay (s t : State) : Prop where
  out : t.fabricOut = s.fabricOut
  routes : t.routes = s.routes
  man : t.man = s.man

theorem State.SameWay.usablePath (h : s.SameWay t) (m q : Nat) : t.usablePath m q = s.usablePath m q := by
  obtain ⟨-, hr, hm⟩ := h
  obtain ⟨⟩ := s
  obtain ⟨⟩ := t
  cases hr
  cases hm
  rfl

theorem State.SameWay.emit (h : s.SameWay t) (p : Packet) : (t.emit p).fabricOut = (s.emit p).fabricOut := by
  have hroute : t.route p.dst.toNat = s.route p.dst.toNat := congrArg (SMap.get · 0 p.dst.toNat) h.routes
  unfold State.emit
  rw [h.usablePath, hroute]
  cases s.usablePath p.dst.toNat p.path with
  | none => exact h.out
  | some q => exact congrArg (· ++ _) h.out

theorem State.CachesOnly.sameWay (h : s.CachesOnly t) : s.SameWay t := by
  obtain ⟨l, ps, rfl, -⟩ := h
  exact ⟨rfl, rfl, rfl⟩

/-- The answer to a packet's request sets out, and leaves memory and the reservations. -/
theorem State.answerReq_packet (hp : r.pkt = some p) (a : Answer) : (s.answerReq r a).mem = s.mem ∧
    (s.answerReq r a).resv = s.resv ∧
    (s.answerReq r a).fabricOut = (s.emit (answerPacket p r.addr a)).fabricOut := by
  let u : State := { s with reqs := s.reqs.filter fun x => x.id != r.id }
  have hu : s.answerReq r a = u.emit (answerPacket p r.addr a) := by
    unfold State.answerReq
    rw [hp]
  obtain ⟨k, f, n, m, e⟩ := State.emit_eq (s := u) (answerPacket p r.addr a)
  rw [hu]
  refine ⟨?_, ?_, State.SameWay.emit (s := s) (t := u) ⟨rfl, rfl, rfl⟩ _⟩ <;>
  · rw [e]
    rfl

/-! ### Writes that meet no error (R202, R212) -/

/-- A write of granules whose check bits are clear records no fault. -/
theorem State.writeGrans_sound (h : ∀ g ∈ gransOf o bs.length, SMap.get s.latent 0 (4 * g) = 0) :
    ∃ q l, s.writeGrans o bs =
      { s with mem := Machine.putBytes s.mem o bs, hbmPoison := q, latent := l } := by
  unfold State.writeGrans
  generalize gransOf o bs.length = gs at h
  induction gs generalizing s with
  | nil => exact ⟨_, _, rfl⟩
  | cons g r ih =>
    have hr : ∀ x ∈ r, SMap.get s.latent 0 (4 * x) = 0 := fun x hx => h x (List.mem_cons_of_mem _ hx)
    rw [List.foldl_cons]
    split
    · refine ih (s := { s with latent := SMap.put s.latent 0 (4 * g) 0 }.setGranPois g false) fun x hx => ?_
      refine (SMap.get_put s.latent 0 0 (4 * g) (4 * x)).trans ?_
      split
      · rfl
      · exact hr x hx
    · rw [State.checkGran_sound (h g List.mem_cons_self)]
      exact ih hr

theorem State.SoundAt.writeHbm (h : s.SoundAt o bs.length) : ∃ q l ps, s.writeHbm o bs =
    { s with mem := Machine.putBytes s.mem o bs, hbmPoison := q, latent := l, ports := ps } := by
  obtain ⟨q, l, e⟩ := State.writeGrans_sound h.sound
  obtain ⟨ps, e'⟩ := State.markDirtyAll_eq (s.writeGrans o bs) (linesOf o bs.length)
  refine ⟨q, l, ps, ?_⟩
  unfold State.writeHbm
  rw [e', e]
  exact State.loseRecords_none _ _ _ (fun x hx k => absurd k (ne_true_of_eq_false (h.looms x hx)))
    fun x hx k => absurd k (ne_true_of_eq_false (h.copies x hx))

theorem State.SoundAt.writeHbm_sameWay (h : s.SoundAt o bs.length) : s.SameWay (s.writeHbm o bs) := by
  obtain ⟨q, l, ps, e⟩ := h.writeHbm
  rw [e]
  exact ⟨rfl, rfl, rfl⟩

theorem State.SameWay.trans {u : State} (h : s.SameWay t) (k : t.SameWay u) : s.SameWay u :=
  ⟨k.out.trans h.out, k.routes.trans h.routes, k.man.trans h.man⟩

/-! ### Answers -/

/-- The request that packet `p` brought has been answered with `a`: `bs` stand at offset `o`, every other byte as
it stood. -/
structure State.Answered (s t : State) (p : Packet) (o : Nat) (bs : List Byte) (a : Answer) : Prop where
  bytes : t.bytes o bs.length = bs
  others : ∀ k, k < o ∨ o + bs.length ≤ k → t.byte k = s.byte k
  out : t.fabricOut = (s.emit (answerPacket p o a)).fabricOut

/-- What `s` holds of a packet's request does not tell it from a state with the same memory and links. -/
theorem State.Answered.of_same {u : State} (h : u.Answered t p o bs a) (hm : u.mem = s.mem) (hw : s.SameWay u) :
    s.Answered t p o bs a :=
  ⟨h.bytes, fun k hk => (h.others k hk).trans (State.byte_congr hm k), h.out.trans (hw.emit _)⟩

/-- An answer that leaves memory leaves every byte. -/
theorem State.answered_read {n : Nat} (hp : r.pkt = some p) (hc : s.CachesOnly t) (hb : s.bytes r.addr n = bs)
    (a : Answer) : s.Answered (t.answerReq r a) p r.addr bs a := by
  obtain ⟨hm, -, ho⟩ := State.answerReq_packet (s := t) hp a
  subst hb
  have hmem := hm.trans hc.mem
  refine ⟨?_, fun k _ => State.byte_congr hmem k, ho.trans (hc.sameWay.emit _)⟩
  rw [State.bytes_length, State.bytes_congr hmem]

/-- An answer after a write leaves the bytes written; `v` is the state after it, but for what no byte and no packet
shows. -/
theorem State.answered_write {v : State} (hp : r.pkt = some p) (hc : s.CachesOnly t) (h : s.SoundAt r.addr bs.length)
    (hm : v.mem = (t.writeHbm r.addr bs).mem) (hw : (t.writeHbm r.addr bs).SameWay v) (a : Answer) :
    s.Answered (v.answerReq r a) p r.addr bs a := by
  obtain ⟨hmem, -, ho⟩ := State.answerReq_packet (s := v) hp a
  have ht := h.caches hc
  obtain ⟨q, l, ps, e⟩ := ht.writeHbm
  have hput : (t.writeHbm r.addr bs).mem = (s.putBytes r.addr bs).mem := by
    rw [e]
    exact congrArg (Machine.putBytes · r.addr bs) hc.mem
  obtain ⟨hbytes, hothers⟩ := State.bytes_of_mem_putBytes ((hmem.trans hm).trans hput)
  exact ⟨hbytes, hothers, ho.trans (((hc.sameWay.trans ht.writeHbm_sameWay).trans hw).emit _)⟩

theorem State.Writes.answered {x : Served} (hw : s.Writes x r.addr bs a) (hp : r.pkt = some p)
    (h : s.SoundAt r.addr bs.length) : s.Answered (x.apply r) p r.addr bs a := by
  obtain ⟨t, hc, rfl⟩ := hw
  exact State.answered_write hp hc h rfl ⟨rfl, rfl, rfl⟩ a

/-! ### The bytes of a packet (R379) -/

theorem byteRuns_run {b : List (Nat × Byte)} {k : Nat} (hb : b ≠ [])
    (h : b.map (·.1) = (List.range b.length).map (k + ·)) : byteRuns b = [(k, b.map (·.2))] := by
  induction b generalizing k with
  | nil => exact absurd rfl hb
  | cons x r ih =>
    obtain ⟨i, y⟩ := x
    rw [List.length_cons, List.range_succ_eq_map, List.map_cons, List.map_cons, List.map_map,
      List.cons.injEq] at h
    obtain ⟨hi, hr⟩ := h
    obtain rfl : i = k := hi
    cases r with
    | nil => rfl
    | cons z l =>
      have e := ih (k := i + 1) nofun (hr.trans (List.map_congr_left fun n _ => by simp; omega))
      rw [byteRuns, e]
      exact if_pos rfl

theorem Packet.data_length (p : Packet) : p.data.length = p.bytes.length := List.length_map ..

theorem State.markPoison_clean (h : p.poison = 0) : s.markPoison p = s := by
  unfold State.markPoison
  rw [h]
  induction p.bytes with
  | nil => rfl
  | cons b r ih =>
    have hb : (0 : BitVec 16).getLsbD (b.1 / 8) = false := BitVec.getLsbD_zero
    rw [List.foldl_cons, hb, if_neg Bool.false_ne_true]
    exact ih

/-- The offset of a packet's first byte, in its line. -/
theorem Packet.line_off (h : p.off < 128) : paOffset p.pa / 128 * 128 + p.off = paOffset p.pa := by
  unfold paOffset Packet.pa
  omega

/-- A packet whose mask names bytes without a gap, none of them poisoned, writes them at once. -/
theorem State.writeBytes_run (hb : p.bytes ≠ []) (hpois : p.poison = 0) (hoff : p.off < 128)
    (hrun : p.bytes.map (·.1) = (List.range p.bytes.length).map (p.off + ·)) (bs : List Byte) :
    s.writeBytes (paOffset p.pa) bs (some p) = s.writeHbm (paOffset p.pa) p.data := by
  unfold State.writeBytes
  dsimp only
  rw [State.markPoison_clean hpois, byteRuns_run hb hrun, List.foldl_cons, List.foldl_nil, Packet.line_off hoff]
  rfl

/-! ### Reservations of one record (R273 to R276) -/

theorem State.grant_of_no_resv (h : s.resv = []) (line : Nat) : s.grant line = s := by
  unfold State.grant
  rw [h]
  rfl

theorem State.ownLine_ownPa (pa : Nat) : s.ownLine (s.ownPa (paOffset pa) / 128) = true := by
  unfold State.ownLine State.ownPa paOffset
  rw [beq_iff_eq]
  omega

/-- The release of the only record, of a line here. -/
theorem State.releaseResv_only {x : Resv} (h : s.resv = [x]) (hl : s.ownLine x.line = true) :
    s.releaseResv x.core x.slot x.inst = { s with resv := [] } := by
  let hit := fun r : Resv => r.core == x.core && r.slot == x.slot && r.inst == x.inst && true
  have hmine : s.resv.filter hit = [x] := by simp [h, hit]
  have hrest : s.resv.filter (fun r => !hit r) = [] := by simp [h, hit]
  unfold State.releaseResv State.releaseLines
  dsimp only
  rw [hmine, hrest, List.foldl_cons, List.foldl_nil]
  exact (if_pos hl).trans (State.grant_of_no_resv rfl _)

/-- A write of the only record's own strand leaves it. -/
theorem State.touchLine_only {x : Resv} {core slot inst : Nat} (h : s.resv = [x]) (hcore : x.core = core)
    (hslot : x.slot = slot) (hinst : x.inst = inst) (line : Nat) : s.touchLine line core slot inst = s := by
  have hmap : (if x.line = line ∧ ¬(x.core = core ∧ x.slot = slot ∧ x.inst = inst)
      then { x with intact := false } else x) = x := if_neg fun k => k.2 ⟨hcore, hslot, hinst⟩
  unfold State.touchLine
  rw [h, List.map_cons, List.map_nil, hmap, ← h]

/-- The grant of the only record: its LRW reads a line that is sound, and is answered (R274). -/
theorem State.grant_only {line core slot inst : Nat} (hr : s.reqs.find? (fun q => q.id == r.id) = some r)
    (hv : r.ver = false) (h : s.SoundAt r.addr 8)
    (hresv : s.resv = [⟨line, core, slot, inst, some r.id, none, true⟩]) : ∃ t,
      ({ s with resv := [⟨line, core, slot, inst, none, some s.now, true⟩] } : State).CachesOnly t ∧
      s.grant line =
        t.answerReq r (.data (s.bytes r.addr 8) ((wordsOf r.addr 8).map fun x => s.granPois (x / 4))) := by
  let u : State := { s with resv := [⟨line, core, slot, inst, none, some s.now, true⟩] }
  have hu : u.SoundAt r.addr 8 := ⟨h.line, h.groups, h.sound, h.looms, h.copies⟩
  have hc := u.cacheLines_caches r.addr 8
  have hread : (u.flushLine r.addr).portRead r.addr 8 r.ver 0 0 = (u.bytes r.addr 8,
      (wordsOf r.addr 8).map fun x => s.granPois (x / 4), u.cacheLines r.addr 8) := by
    rw [hu.flushLine, hv]
    exact hu.readHbm hc
  have hbytes : u.bytes r.addr 8 = s.bytes r.addr 8 :=
    State.bytes_congr (s := s) (t := u) rfl _ _
  refine ⟨_, hc, ?_⟩
  have hfind : s.resv.find? (fun r => r.line == line) = some ⟨line, core, slot, inst, some r.id, none, true⟩ := by
    simp [hresv]
  unfold State.grant
  rw [hfind]
  dsimp only
  rw [hr, hresv, List.map_cons, List.map_nil, if_pos rfl]
  dsimp only
  rw [hread, hbytes]

/-! ### The service of a packet's request, where nothing stands in its way -/

section
variable (hp : r.pkt = some p) (hv : r.ver = false) (hresv : s.resv = [])
include hp hv hresv

theorem State.answered_load (hk : r.op.isRead = true) (h : s.SoundAt r.addr r.size)
    (hb : s.bytes r.addr r.size = bs) : s.Answered ((s.serveHbm r).apply r) p r.addr bs
      (.data bs ((wordsOf r.addr r.size).map fun x => s.granPois (x / 4))) := by
  obtain ⟨t, hc, he⟩ := State.serveHbm_read hv hresv hk h
  rw [he, hb]
  exact State.answered_read hp hc hb _

theorem State.answered_clear (ho : r.op = .write .clear bs) (h : s.SoundAt r.addr 128) :
    s.Answered ((s.serveHbm r).apply r) p r.addr (List.replicate 128 0) (.note 0) :=
  (State.serveHbm_clear hv hresv ho h).answered hp (by rwa [List.length_replicate])

theorem State.answered_bytes (ho : r.op = .write .bytes bs) (haddr : r.addr = paOffset p.pa) (hpois : p.poison = 0)
    (hoff : p.off < 128) (hrun : p.bytes.map (·.1) = (List.range p.bytes.length).map (p.off + ·))
    (h : s.SoundAt r.addr p.data.length) : s.Answered ((s.serveHbm r).apply r) p r.addr p.data (.note 0) := by
  have hb : p.bytes ≠ [] := fun e => absurd h.line.1 (by simp [Packet.data, e])
  have hw : s.Writes (s.serveHbm r) r.addr p.data (.note 0) := by
    refine ⟨_, s.cacheAccess_caches r.addr, ?_⟩
    unfold State.serveHbm
    dsimp only
    rw [hv, h.flushLine, ho]
    simp only [hresv, List.any_nil, Bool.false_and, Bool.false_eq_true, if_false, State.writeLine_plain hresv, hp,
      haddr, State.writeBytes_run hb hpois hoff hrun]
  exact hw.answered hp h

theorem State.answered_amo {op : AmoOp} {w : Bool} {y : PW} {old : Nat} (ho : r.op = .amo op w y)
    (h : s.CleanAt r.addr r.size) (hold : leNat (s.bytes r.addr r.size) = old) :
    s.Answered ((s.serveHbm r).apply r) p r.addr (leBytes r.size (amoNew op w old y.v.toNat))
      (.word (BitVec.ofNat 64 old) false) := by
  rw [State.serveHbm_amo hv hresv h ho, ← hold]
  exact (State.rmw_some (k := fun old => some (amoNew op w old y.v.toNat)) hv hresv h rfl).answered hp
    (by rw [length_leBytes]; exact h.toSoundAt)

/-- An unequal comparison leaves the bytes that stood there. -/
theorem State.answered_cas {w : Bool} {x : Word} {y : PW} {old : Nat} (ho : r.op = .cas w x y)
    (h : s.CleanAt r.addr r.size) (hold : leNat (s.bytes r.addr r.size) = old) :
    s.Answered ((s.serveHbm r).apply r) p r.addr
      (leBytes r.size (if old = x.toNat % 2 ^ (8 * r.size) then y.v.toNat else old))
      (.word (BitVec.ofNat 64 old) false) := by
  rw [State.serveHbm_cas hv hresv h ho]
  subst hold
  let k := fun old =>
    if old = x.toNat % 2 ^ (8 * r.size) then some (y.v.toNat % 2 ^ (8 * r.size)) else none
  by_cases hx : leNat (s.bytes r.addr r.size) = x.toNat % 2 ^ (8 * r.size)
  · rw [if_pos hx, ← leBytes_mod]
    exact (State.rmw_some (k := k) hv hresv h (if_pos hx)).answered hp
      (by rw [length_leBytes]; exact h.toSoundAt)
  · obtain ⟨t, hc, he⟩ := State.rmw_none (k := k) hresv h (if_neg hx)
    have hback : leBytes r.size (leNat (s.bytes r.addr r.size)) = s.bytes r.addr r.size := by
      have := leBytes_leNat (s.bytes r.addr r.size)
      rwa [State.bytes_length] at this
    rw [if_neg hx, he, hback]
    exact State.answered_read hp hc rfl _

/-- An SCH whose strand holds no reservation stores nothing (R275). -/
theorem State.answered_sch_none {y : Word} {n : Nat} (ho : r.op = .sch y) (h : s.SoundAt r.addr n)
    (hb : s.bytes r.addr n = bs) : s.Answered ((s.serveHbm r).apply r) p r.addr bs (.pred false) := by
  have hserve : s.serveHbm r = .answer (.pred false) s := by
    unfold State.serveHbm
    dsimp only
    rw [hv, h.flushLine, ho]
    simp [hresv, State.holds, State.touchLine_of_no_resv hresv,
      State.releaseResv_none (s := s) (fun x hx => by rw [hresv] at hx; cases hx)]
  rw [hserve]
  exact State.answered_read hp (.refl s) hb _

end

/-- An SCH whose strand holds the only reservation stores its word, and releases it (R275, R276). -/
theorem State.answered_sch_only {x : Resv} {y : Word} {pa : Nat} (hp : r.pkt = some p) (hv : r.ver = false)
    (ho : r.op = .sch y) (ha : r.addr = paOffset pa) (h : s.SoundAt r.addr 8) (hresv : s.resv = [x])
    (hline : x.line = s.ownPa r.addr / 128) (hcore : x.core = r.core) (hslot : x.slot = r.slot)
    (hinst : x.inst = r.inst) (hreq : x.req = none) (hgrant : x.granted.isSome = true) (hintact : x.intact = true) :
    s.Answered ((s.serveHbm r).apply r) p r.addr (leBytes 8 y.toNat) (.pred true) ∧
      ((s.serveHbm r).apply r).resv = [] := by
  have hc := s.cacheAccess_caches r.addr
  have hr := hc.resv.trans hresv
  have hl : s.SoundAt r.addr (leBytes 8 y.toNat).length := by rwa [length_leBytes]
  obtain ⟨q, l, ps, e⟩ := (hl.caches hc).writeHbm
  let u := (s.cacheAccess r.addr).writeHbm r.addr (leBytes 8 y.toNat)
  have hwrite : s.writeLine r.addr false r.core r.slot r.inst (fun u => u.writeHbm r.addr (leBytes 8 y.toNat)) =
      some u := by
    unfold State.writeLine State.commitLine
    rw [State.touchLine_only hr hcore hslot hinst]
    rfl
  have hholds : s.holds r = true := by
    simp [State.holds, hresv, hline, hcore, hslot, hinst, hgrant, hintact]
  have hrelease : u.releaseResv r.core r.slot r.inst = { u with resv := [] } := by
    rw [← hcore, ← hslot, ← hinst]
    refine State.releaseResv_only ?_ ?_
    · exact (congrArg State.resv e).trans hr
    · obtain ⟨l', ps', e', -⟩ := hc
      have hown : u.ownLine x.line = s.ownLine x.line := by
        show State.ownLine (State.writeHbm _ _ _) _ = _
        rw [e, e']
        rfl
      rw [hown, hline, ha]
      exact State.ownLine_ownPa pa
  have hqueued : s.resv.any (fun x => x.req == some r.id) = false := by simp [hresv, hreq]
  have hserve : s.serveHbm r = .answer (.pred true) { u with resv := [] } := by
    unfold State.serveHbm
    dsimp only
    rw [hqueued, hv, h.flushLine, ho]
    simp only [hholds, hrelease, hwrite, Bool.false_and, Bool.not_true, Bool.false_eq_true, if_false]
  rw [hserve]
  exact ⟨State.answered_write (v := { u with resv := [] }) hp hc hl rfl ⟨rfl, rfl, rfl⟩ _,
    (State.answerReq_packet (s := { u with resv := [] }) hp _).2.1⟩

theorem Served.apply_stay (s : State) (r : Req) : (Served.stay s).apply r = s := rfl

/-- An LRW that no other waits before finds a record free where none stands (R273). -/
theorem State.recordFree_first (hresv : s.resv = []) (hfirst : ∀ x ∈ s.reqs, x.op = .lrw → x.id = r.id) :
    s.recordFree r = true := by
  unfold State.recordFree
  simp +contextual [hresv, hfirst]

/-- It takes the record, and is granted at once (R273, R274). -/
theorem State.serveHbm_lrw {n : Nat} (hv : r.ver = false) (ho : r.op = .lrw) (h : s.SoundAt r.addr n)
    (hresv : s.resv = []) (hfirst : ∀ x ∈ s.reqs, x.op = .lrw → x.id = r.id) :
    s.serveHbm r = .stay (State.grant
      { s with resv := [⟨s.ownPa r.addr / 128, r.core, r.slot, r.inst, some r.id, none, true⟩] }
      (s.ownPa r.addr / 128)) := by
  have hrelease : s.releaseResv r.core r.slot r.inst = s :=
    State.releaseResv_none fun x hx => by rw [hresv] at hx; cases hx
  unfold State.serveHbm
  dsimp only
  rw [hv, h.flushLine, ho]
  simp only [hrelease, State.recordFree_first hresv hfirst, hresv, List.any_nil, List.nil_append, Bool.false_and,
    Bool.not_true, Bool.false_eq_true, if_false]

/-- An LRW that finds no reservation, and no LRW before it, is granted and answered. -/
theorem State.answered_lrw (hp : r.pkt = some p) (hv : r.ver = false) (ho : r.op = .lrw) (h : s.SoundAt r.addr 8)
    (hresv : s.resv = []) (hr : s.reqs.find? (fun q => q.id == r.id) = some r)
    (hfirst : ∀ x ∈ s.reqs, x.op = .lrw → x.id = r.id) (hb : s.bytes r.addr 8 = bs) :
    s.Answered ((s.serveHbm r).apply r) p r.addr bs
        (.data bs ((wordsOf r.addr 8).map fun x => s.granPois (x / 4))) ∧
      ((s.serveHbm r).apply r).mem = s.mem ∧ ((s.serveHbm r).apply r).resv =
        [⟨s.ownPa r.addr / 128, r.core, r.slot, r.inst, none, some s.now, true⟩] := by
  rw [State.serveHbm_lrw hv ho h hresv hfirst]
  generalize s.ownPa r.addr / 128 = line
  let u : State := { s with resv := [⟨line, r.core, r.slot, r.inst, some r.id, none, true⟩] }
  let v : State := { s with resv := [⟨line, r.core, r.slot, r.inst, none, some s.now, true⟩] }
  have hu : u.SoundAt r.addr 8 := ⟨h.line, h.groups, h.sound, h.looms, h.copies⟩
  have hub : u.bytes r.addr 8 = s.bytes r.addr 8 := State.bytes_congr (s := s) (t := u) rfl _ _
  have hvb : v.bytes r.addr 8 = s.bytes r.addr 8 := State.bytes_congr (s := s) (t := v) rfl _ _
  obtain ⟨t, hc, hgrant⟩ := State.grant_only (s := u) hr hv hu rfl
  rw [hub, hb] at hgrant
  have hc' : v.CachesOnly t := hc
  obtain ⟨hmem, hres, -⟩ := State.answerReq_packet (s := t) hp
    (.data bs ((wordsOf r.addr 8).map fun x => s.granPois (x / 4)))
  rw [Served.apply_stay, hgrant]
  exact ⟨(State.answered_read hp hc' (hvb.trans hb) _).of_same rfl ⟨rfl, rfl, rfl⟩, hmem.trans hc'.mem,
    hres.trans hc'.resv⟩

end Sys2Proof.Machine
end

section
/-! ## Requests of the fabric (O42) -/

namespace Sys2Proof.Machine

variable {s : State} {p : Packet} {r : Req} {o : Nat}

/-! ### The request that a packet brings (R207, R386) -/

/-- The request of a packet, as it is listed. -/
def State.packetReq (s : State) (p : Packet) (op : ReqOp) (n : Nat) : Req :=
  { id := s.nextId, core := p.party, slot := (p.arg 2).toNat, inst := (p.arg 3).toNat, elem := 0,
    place := s.placeOf p.pa, op := op, addr := paOffset p.pa, pa := p.pa, ea := 0, size := n,
    ver := p.arg 0 == 1, snap := 0, tx := 0, oflag := false, since := 0, cyc := s.now, pool := none,
    sent := none, pkt := some p }

/-- The state in which a request stands listed. -/
def State.listed (s : State) (r : Req) : State := { s with nextId := s.nextId + 1, reqs := s.reqs ++ [r] }

theorem State.listed_sameWay (s : State) (r : Req) : s.SameWay (s.listed r) := ⟨rfl, rfl, rfl⟩

theorem State.bytes_listed (s : State) (r : Req) (o n : Nat) : (s.listed r).bytes o n = s.bytes o n :=
  State.bytes_congr (s := s) (t := s.listed r) rfl o n

theorem State.SoundAt.listed {n : Nat} (h : s.SoundAt o n) (r : Req) : (s.listed r).SoundAt o n :=
  ⟨h.line, h.groups, h.sound, h.looms, h.copies⟩

theorem State.CleanAt.listed {n : Nat} (h : s.CleanAt o n) (r : Req) : (s.listed r).CleanAt o n :=
  ⟨h.toSoundAt.listed r, h.clean⟩

/-- At a port whose stack is ready the request is served. -/
theorem State.remoteReq_port {q n : Nat} {op : ReqOp} (hplace : s.placeOf p.pa = .port q)
    (ht : s.stackTraining (paOffset p.pa) = false) (hd : s.stackDead (paOffset p.pa) = false) :
    s.remoteReq p op n =
      ((s.listed (s.packetReq p op n)).serveHbm (s.packetReq p op n)).apply (s.packetReq p op n) := by
  unfold State.remoteReq State.listed State.packetReq
  simp only [hplace]
  exact (if_neg (ne_true_of_eq_false hd)).trans (if_neg (ne_true_of_eq_false ht))

/-! ### Each kind of packet -/

section
variable (hs : s.man.stopped = false) (hd : p.dst = s.modNo)
include hs hd

theorem exec_fabricRead (ho : p.op = .read) :
    exec (.fabricRead p) s = .next (s.remoteReq p .load p.bytes.length) := onPacket_own hs hd ho _

theorem exec_fabricWrite (ho : p.op = .write) :
    exec (.fabricWrite p) s = .next (s.remoteReq p (.write .bytes p.data) p.bytes.length) := onPacket_own hs hd ho _

theorem exec_fabricAmo {op : AmoOp} (ho : p.op = .amo) (h : amoOpOf (p.aux.toNat / 2 % 16) = some op) :
    exec (.fabricAmo p) s = .next (s.remoteReq p (.amo op (p.aux.getLsbD 0) ⟨p.arg 4, false⟩)
      (if p.aux.getLsbD 0 then 4 else 8)) := by
  refine (onPacket_own hs hd ho _).trans (congrArg _ ?_)
  rw [amoOfAux, h]
  rfl

theorem exec_fabricCas (ho : p.op = .cas) : exec (.fabricCas p) s =
    .next (s.remoteReq p (.cas (p.aux.getLsbD 0) (p.arg 4) ⟨p.arg 5, false⟩) (if p.aux.getLsbD 0 then 4 else 8)) :=
  onPacket_own hs hd ho _

/-- A reduction of a line that is not versioned joins a merge group (R269). -/
theorem exec_fabricRed {op : RedOp} (ho : p.op = .red) (h : redOpOf (p.aux.toNat / 2 % 16) = some op)
    (hv : p.arg 0 ≠ 1) (hin : inHbm (paOffset p.pa) = true) (ht : s.stackTraining (paOffset p.pa) = false)
    (hdead : s.stackDead (paOffset p.pa) = false) : exec (.fabricRed p) s =
      .next (s.joinRed (paOffset p.pa) op (p.aux.getLsbD 0)
        ⟨p.arg 4, p.party, (p.arg 2).toNat, (p.arg 3).toNat, 0, some p⟩) := by
  refine (onPacket_own hs hd ho _).trans (congrArg _ ?_)
  rw [redOfAux, h]
  refine if_neg ?_
  rintro (k | k | k | k)
  · exact hv k
  · rw [hin] at k
    cases k
  · exact ne_true_of_eq_false hdead k
  · exact ne_true_of_eq_false ht k

theorem exec_fabricLrw (ho : p.op = .lrw) : exec (.fabricLrw p) s = .next (s.remoteReq p .lrw 8) :=
  onPacket_own hs hd ho _

theorem exec_fabricSch_store (ho : p.op = .sch) (h1 : p.arg 4 ≠ 1) (h2 : p.arg 4 ≠ 2) :
    exec (.fabricSch p) s = .next (s.remoteReq p (.sch (p.arg 5)) 8) :=
  (onPacket_own hs hd ho _).trans (congrArg _ ((if_neg h1).trans (if_neg h2)))

/-- The packet of a release stores nothing (R276; log 11). -/
theorem exec_fabricSch_release (ho : p.op = .sch) (h1 : p.arg 4 = 1) :
    exec (.fabricSch p) s = .next (s.releaseFor p) :=
  (onPacket_own hs hd ho _).trans (congrArg _ (if_pos h1))

/-- Nor does that of an LRW asked back (R350; log 11). -/
theorem exec_fabricSch_recall (ho : p.op = .sch) (h2 : p.arg 4 = 2) :
    exec (.fabricSch p) s = .next (s.recalled p) := by
  have h1 : p.arg 4 ≠ 1 := by rw [h2]; decide
  exact (onPacket_own hs hd ho _).trans (congrArg _ ((if_neg h1).trans (if_pos h2)))

theorem exec_fabricXrd (ho : p.op = .xrdXclr) (h1 : p.arg 4 ≠ 1) :
    exec (.fabricXrdXclr p) s = .next (s.remoteReq p .xrd 128) :=
  (onPacket_own hs hd ho _).trans (congrArg _ (if_neg h1))

theorem exec_fabricXclr (ho : p.op = .xrdXclr) (h1 : p.arg 4 = 1) :
    exec (.fabricXrdXclr p) s = .next (s.remoteReq p (.write .clear []) 128) :=
  (onPacket_own hs hd ho _).trans (congrArg _ (if_pos h1))

theorem exec_fabricFutureRequest_future (ho : p.op = .futReq) (hc : (p.arg 4).toNat < 14) :
    let x := s.futureRequest (p.arg 4).toNat (p.arg 5) (p.arg 6) (p.arg 7)
    exec (.fabricFutureRequest p) s = .next (x.2.emit (answerPacket p 0 x.1)) := by
  refine (onPacket_own hs hd ho _).trans (congrArg _ ?_)
  dsimp only
  rw [if_pos hc]

theorem exec_fabricFutureRequest_barrier (ho : p.op = .futReq) (hc : 14 ≤ (p.arg 4).toNat) :
    let y := s.barrierRequest p.pa (p.arg 4).toNat (p.arg 5) (p.arg 6) (p.arg 7)
    exec (.fabricFutureRequest p) s = .next (y.2.emit (answerPacket p 0 y.1)) := by
  refine (onPacket_own hs hd ho _).trans (congrArg _ ?_)
  dsimp only
  rw [if_neg (Nat.not_lt.2 hc)]

end

end Sys2Proof.Machine

namespace Sys2Proof.Proofs

open Sys2Proof.Machine

/-- Settles O42: a packet's request is served at its port, and what the service leaves and answers is that of the
access it carries. -/
theorem fabricRequestsComplete : Obligations.FabricRequestsComplete := by
  unfold Obligations.FabricRequestsComplete
  refine ⟨fun s p hs hd => ?_, fun s p q hs hd hplace ht hdead hver hlrw => ?_⟩
  · intro place o served
    have serve {i : Instr} {op : ReqOp} {n : Nat} (he : exec i s = .next (s.remoteReq p op n)) : served i op n :=
      fun q hplace ht hdead => he.trans (congrArg _ (State.remoteReq_port hplace ht hdead))
    refine ⟨fun ho => serve (exec_fabricRead hs hd ho), fun ho => serve (exec_fabricWrite hs hd ho),
      fun ho op h => serve (exec_fabricAmo hs hd ho h), fun ho => serve (exec_fabricCas hs hd ho),
      fun ho op h hv hin ht hdead => exec_fabricRed hs hd ho h hv hin ht hdead,
      fun ho => serve (exec_fabricLrw hs hd ho), fun ho h1 h2 => serve (exec_fabricSch_store hs hd ho h1 h2),
      fun ho hq => ⟨fun h1 => ?_, fun h2 => ?_⟩, fun ho r hq => ⟨fun h1 => ?_, fun h2 => ?_⟩,
      fun ho h1 => serve (exec_fabricXrd hs hd ho h1), fun ho h1 => serve (exec_fabricXclr hs hd ho h1),
      fun ho => ⟨exec_fabricFutureRequest_future hs hd ho, exec_fabricFutureRequest_barrier hs hd ho⟩⟩
    · rw [exec_fabricSch_release hs hd ho h1, State.releaseFor, hq]
    · rw [exec_fabricSch_recall hs hd ho h2, State.recalled, hq]
    · rw [exec_fabricSch_release hs hd ho h1, State.releaseFor, hq]
      rfl
    · rw [exec_fabricSch_recall hs hd ho h2, State.recalled, hq]
      rfl
  · intro o w n old answers leaves word
    have hv : (p.arg 0 == 1) = false := beq_false_of_ne hver
    have leave {i : Instr} {op : ReqOp} {n : Nat} {bs : List Byte} {a : Answer}
        (he : exec i s = .next (s.remoteReq p op n))
        (h : let r := s.packetReq p op n
          (s.listed r).Answered (((s.listed r).serveHbm r).apply r) p o bs a) : leaves i bs a := by
      have h' := State.Answered.of_same (s := s) h rfl (s.listed_sameWay _)
      exact ⟨_, he.trans (congrArg _ (State.remoteReq_port hplace ht hdead)), h'.bytes, h'.others, h'.out⟩
    have same (op : ReqOp) (k n : Nat) : (s.listed (s.packetReq p op k)).bytes o n = s.bytes o n :=
      State.bytes_listed ..
    refine ⟨fun hresv => ⟨fun ho h => leave (exec_fabricRead hs hd ho) ?_,
      fun ho hpois hoff hrun h => leave (exec_fabricWrite hs hd ho) ?_,
      fun ho op hop h => leave (exec_fabricAmo hs hd ho hop) ?_, fun ho h => leave (exec_fabricCas hs hd ho) ?_,
      fun ho h hid => ?_, fun ho h1 h2 h => leave (exec_fabricSch_store hs hd ho h1 h2) ?_,
      fun ho h1 h => leave (exec_fabricXrd hs hd ho h1) ?_, fun ho h1 h => leave (exec_fabricXclr hs hd ho h1) ?_⟩,
      fun ho h1 h2 h x hresv hline hcore hslot hinst hreq hgrant hintact => ?_⟩
    · exact State.answered_load rfl hv hresv rfl (h.listed _) (same ..)
    · exact State.answered_bytes rfl hv hresv rfl rfl hpois hoff hrun (by rw [Packet.data_length]; exact h.listed _)
    · let r := s.packetReq p (.amo op w ⟨p.arg 4, false⟩) n
      exact State.answered_amo (s := s.listed r) (r := r) rfl hv hresv rfl (h.listed r) (congrArg leNat (same ..))
    · let r := s.packetReq p (.cas w (p.arg 4) ⟨p.arg 5, false⟩) n
      exact State.answered_cas (s := s.listed r) (r := r) rfl hv hresv rfl (h.listed r) (congrArg leNat (same ..))
    · let r := s.packetReq p .lrw 8
      have hfind : (s.reqs ++ [r]).find? (fun q => q.id == s.nextId) = some r := by
        rw [List.find?_append, List.find?_eq_none.2 fun y hy => by simpa using hid y hy]
        simp [r, State.packetReq]
      have hfirst : ∀ y ∈ s.reqs ++ [r], y.op = .lrw → y.id = r.id := by
        intro y hy hop
        obtain hy | hy := List.mem_append.1 hy
        · exact absurd hop (hlrw y hy)
        · rw [List.mem_singleton.1 hy]
      obtain ⟨ha, hmem, hres⟩ := State.answered_lrw (s := s.listed r) rfl hv rfl (h.listed r) hresv hfind hfirst
        (same ..)
      exact ⟨_, (exec_fabricLrw hs hd ho).trans (congrArg _ (State.remoteReq_port hplace ht hdead)), hmem, hres,
        (State.Answered.of_same (s := s) ha rfl (s.listed_sameWay r)).out⟩
    · exact State.answered_sch_none rfl hv hresv rfl (h.listed _) (same ..)
    · exact State.answered_load rfl hv hresv rfl (h.listed _) (same ..)
    · exact State.answered_clear rfl hv hresv rfl (h.listed _)
    · let r := s.packetReq p (.sch (p.arg 5)) 8
      obtain ⟨ha, hres⟩ := State.answered_sch_only (s := s.listed r) (r := r) (pa := p.pa) rfl hv rfl rfl
        (h.listed r) hresv hline hcore hslot hinst hreq hgrant hintact
      have ha' := State.Answered.of_same (s := s) ha rfl (s.listed_sameWay r)
      exact ⟨_, (exec_fabricSch_store hs hd ho h1 h2).trans (congrArg _ (State.remoteReq_port hplace ht hdead)),
        ha'.bytes, ha'.others, hres, ha'.out⟩

end Sys2Proof.Proofs
end

section
/-! ## Register and debug writes (O45)

The debug word's halt takes back the waits of the slot's strand. The statement asks for a strand that is ready, with no
instruction in flight and nothing on its way to it, and says that memory stays; it does not ask that the strand has left
every object's waiters, and leaving a feed queue writes the link of the popper before it. -/

namespace Sys2Proof.Machine

/-- A strand that is ready and has no instruction in flight still stands among the poppers of feed queue 0, behind the
park record at 0x1000, whose link has a byte that is not 0. -/
def readyPopper : State :=
  let c : Core := { started := true, strands := [(0, { st := .ready })] }
  let w : SlotWait := { kind := 3, obj := 0, core := 0, slot := 0, inst := 0, d := 1, q := none, len := 4,
                        pops := false, token := 5, after := 0 }
  { State.reset with
    mem := [(0x1000 + 352, 1)]
    cores := [(0, c)]
    slotWaits := [w]
    disp := { feeds := [(0, { poppers := [(0x1000, 0), (0, 5)] })] } }

/-- The halt clears that link: the record before the strand is the last popper. -/
theorem readyPopper_halted_mem : (readyPopper.writeDebug .pf 0
    (readyPopper.debugKeep 0 ||| BitVec.ofNat 64 (2 ^ (32 + 0)))).mem = [] := by decide +kernel

end Sys2Proof.Machine

namespace Sys2Proof.Proofs

open Sys2Proof.Machine

/-- Refutes O45: a halt writes memory where the strand, ready and with nothing in flight, is still listed as a popper
of a feed queue. -/
theorem not_registerAndDebugWritesComplete : ¬ Obligations.RegisterAndDebugWritesComplete := by
  unfold Obligations.RegisterAndDebugWritesComplete
  rintro ⟨-, hdebug⟩
  have hs : readyPopper.man.stopped = false := rfl
  obtain ⟨hhalt, -⟩ := hdebug readyPopper 0 0 hs (by decide)
  obtain ⟨t, hexec, -, -, -, hmem⟩ := hhalt (by decide +kernel) rfl rfl (by decide +kernel)
  obtain rfl : _ = t := Host.Outcome.next.inj ((event_of_running hs _).symm.trans hexec)
  exact absurd (readyPopper_halted_mem.symm.trans hmem) (by decide)

end Sys2Proof.Proofs
end

section
/-! ## Fences, tags and hints (O14) -/

namespace Sys2Proof.Machine

variable {s : State}

/-! ### Fences (R231) -/

@[simp] theorem State.dropFetches_icache : s.dropFetches.myCore.icache = [] :=
  congrArg Core.icache (State.core_setCore_self ..)

@[simp] theorem State.dropFetches_mem : s.dropFetches.mem = s.mem := rfl

theorem State.dropFetches_core_of_ne {n : Nat} (h : n ≠ s.issue.core) : s.dropFetches.core n = s.core n :=
  State.core_setCore_of_ne (s := s) _ h

theorem exec_fence {g : Guard} {k : FenceKind} {scope : BitVec 3} (hi : s.Issues (.fence g k scope) g)
    (hr : k = .loads ∨ s.released scope.toNat) :
    exec (.fence g k scope) s = .next (if k = .fetch then (s.opened (.fence g k scope)).dropFetches.completes
      else (s.opened (.fence g k scope)).completes) := by
  have hr' : k ≠ .loads → (s.opened (.fence g k scope)).released scope.toNat := hr.resolve_left
  cases k
  case loads => exact exec_done rfl hi rfl
  case fetch | all | stores => exact exec_done rfl hi (releasing_released (hr' (by decide)) _)

/-! ### The software cache (R206, R278, R279) -/

/-- An address is missed where its top byte is not 0, and where no tag matches it. -/
theorem Core.hit_none {c : Core} {x : Word} (h : bits x 63 56 ≠ 0 ∨ c.lookup x = none) : c.hit x = none := by
  unfold Core.hit
  split
  · next h0 => rw [h.resolve_left (absurd h0)]; rfl
  · rfl

theorem Core.hit_some {c : Core} {x e : Word} (h0 : bits x 63 56 = 0) (h : c.lookup x = some e) :
    c.hit x = some (tagSlot e * (128 * 2 ^ c.slotZ) + x.toNat % (128 * 2 ^ c.slotZ)) := by
  rw [Core.hit, if_pos h0, h, Option.map_some]

theorem exec_lookup_miss {g : Guard} {d a : Reg} (hi : s.Issues (.lookup g d a) g) (hc : s.clean [a])
    (hk : s.kept 7 = none) (hh : s.myCore.hit (s.gv a) = none) :
    exec (.lookup g d a) s = .next (s.gives (.lookup g d a) d 0 false) := by
  have hn : ((s.opened (.lookup g d a)).kept 7).or
      ((s.opened (.lookup g d a)).myCore.hit ((s.opened (.lookup g d a)).gv a)) = none :=
    Option.or_eq_none_iff.mpr ⟨hk, hh⟩
  refine exec_done rfl hi ((consume_clean (clean_opened hc) _).trans ?_)
  rw [hn]
  rfl

/-- A LOOKUP that hits a word whose tags stand ready gives its address in the own scratchpad (R278). -/
theorem exec_lookup_hit {g : Guard} {d a : Reg} {off : Nat} (hi : s.Issues (.lookup g d a) g) (hc : s.clean [a])
    (hf : s.me.flight = none) (hh : s.myCore.hit (s.gv a) = some off) (ht : s.tagsReady (off / 8 * 8) 8 true)
    (hs : s.soundWords (wordsOf (off / 8 * 8) 8)) : exec (.lookup g d a) s =
      .next (s.gives (.lookup g d a) d (0xFFFFFFFFFF000000 + BitVec.ofNat 64 off) false) := by
  have hk : (s.opened (.lookup g d a)).kept 7 = none := State.kept_of_flight hf 7
  have hh' : (s.opened (.lookup g d a)).myCore.hit ((s.opened (.lookup g d a)).gv a) = some off := hh
  refine exec_done rfl hi ((consume_clean (clean_opened hc) _).trans ?_)
  rw [hk, hh', Option.none_or]
  dsimp only
  rw [ownTag_ready (s := s.opened _) _ (checkTags_sound hs) hf ht]
  rfl

theorem exec_tagset {g : Guard} {a b : Reg} (hi : s.Issues (.tagset g a b) g) (hc : s.clean [a, b])
    (hn : (s.gv a).toNat < 2048) (h0 : bits (s.gv b) 62 60 = 0)
    (he : tagValid (s.gv b) = false ∨ s.myCore.tagRefused (s.gv a).toNat (s.gv b) = false) :
    exec (.tagset g a b) s = .next ((s.opened (.tagset g a b)).setMyCore { s.myCore with
      tags := SMap.put s.myCore.tags 0 (s.gv a).toNat (s.gv b) }).completes := by
  have hx : ¬(bits (s.gv b) 62 60 ≠ 0 ∨ tagValid (s.gv b) ∧ s.myCore.tagRefused (s.gv a).toNat (s.gv b)) := by
    rcases he with he | he <;> simp [h0, he]
  exact exec_done rfl hi ((consume_clean (clean_opened hc) _).trans ((if_neg (Nat.not_le.mpr hn)).trans (if_neg hx)))

theorem exec_tagclr {g : Guard} {a : Reg} (hi : s.Issues (.tagclr g a) g) (hc : s.clean [a])
    (hn : (s.gv a).toNat < 2048) : exec (.tagclr g a) s =
      .next ((s.opened (.tagclr g a)).setMyCore { s.myCore with
        tags := SMap.put s.myCore.tags 0 (s.gv a).toNat 0 }).completes :=
  exec_done rfl hi ((consume_clean (clean_opened hc) _).trans (if_neg (Nat.not_le.mpr hn)))

/-! ### Hints (R277) -/

theorem State.prefetchLine_caches (l : Leaf) (ea : Word) (sup : Bool) : s.CachesOnly (s.prefetchLine l ea sup) := by
  unfold State.prefetchLine
  dsimp only
  split
  · exact s.cacheAccess_caches _
  · exact .refl s

/-- What PREF leaves: outside global memory, or without a root, nothing; where no translation is cached, a hint
with the walk of its granule; else the translation used and its line allocated. -/
def State.hinted (s : State) (ea : Word) : State :=
  if regionClass ea ≠ 0 || !rootEn s.root then s
  else match s.myCore.tlbFind s.context (granuleOf ea) with
    | none => s.startWalk (granuleOf ea) false [⟨s.issue.core, ea, s.me.priv⟩]
    | some l => (s.useTlb ea).prefetchLine l ea s.me.priv

theorem exec_pref {g : Guard} {a : Reg} (hi : s.Issues (.pref g a) g) (hc : s.clean [a]) :
    exec (.pref g a) s = .next ((s.opened (.pref g a)).hinted (s.gv a)).completes := by
  refine exec_done rfl hi ((consume_clean (clean_opened hc) _).trans ?_)
  unfold State.hinted
  dsimp only [State.gv_opened]
  split
  · rfl
  · cases (s.opened (.pref g a)).myCore.tlbFind (s.opened (.pref g a)).context (granuleOf (s.gv a)) <;> rfl

@[simp] theorem State.hinted_mem (ea : Word) : (s.hinted ea).mem = s.mem := by
  unfold State.hinted
  split
  · rfl
  · split
    · rfl
    · exact (State.prefetchLine_caches ..).mem.trans (State.useTlb_mem ea)

theorem State.hinted_beside (ea : Word) : s.Beside (s.hinted ea) := by
  unfold State.hinted
  split
  · exact .refl s
  · split
    · exact (State.Beside.refl s).setCluster _ _
    · exact ((State.Beside.refl s).useTlb ea).caches (State.prefetchLine_caches ..)

/-! ### Allowances (R392) -/

section
variable {g : Guard} {d a : Reg} {pq : Pred} (hi : s.Issues (.alw g d a pq) g) (hc : s.clean [a])
  (hz : bits (s.gv a) 63 32 = 0 ∧ bits (s.gv a) 15 9 = 0)
include hi hc hz

/-- ALW of the own module needs no allowance. -/
theorem exec_alw_own (hm : bits (s.gv a) 8 0 = s.modNo.toNat) : exec (.alw g d a pq) s =
    .next ((((s.opened (.alw g d a pq)).setG d 0xFFFF false).setP pq true).completes) :=
  exec_done rfl hi ((consume_clean (clean_opened hc) _).trans
    ((if_neg (not_or.mpr ⟨not_not.mpr hz.1, not_not.mpr hz.2⟩)).trans (if_pos hm)))

theorem exec_alw_absent (hm : bits (s.gv a) 8 0 ≠ s.modNo.toNat) (hp : s.present (bits (s.gv a) 8 0) = false) :
    exec (.alw g d a pq) s =
      .next ((((s.opened (.alw g d a pq)).setG d 0 false).setP pq false).completes) :=
  exec_done rfl hi ((consume_clean (clean_opened hc) _).trans
    ((if_neg (not_or.mpr ⟨not_not.mpr hz.1, not_not.mpr hz.2⟩)).trans
      ((if_neg hm).trans (if_pos (Bool.not_eq_eq_eq_not.mpr hp)))))

theorem exec_alw_present (hm : bits (s.gv a) 8 0 ≠ s.modNo.toNat) (hp : s.present (bits (s.gv a) 8 0) = true) :
    let w := s.allow s.myCluster (bits (s.gv a) 8 0)
    exec (.alw g d a pq) s = .next ((((s.opened (.alw g d a pq)).setG d (BitVec.ofNat 64 (w.w - w.n)) false).setP pq
      (decide (max (bits (s.gv a) 31 16) 1 ≤ w.w - w.n))).completes) :=
  have hp' : ¬(!s.present (bits (s.gv a) 8 0)) = true := by simp [hp]
  exec_done rfl hi ((consume_clean (clean_opened hc) _).trans
    ((if_neg (not_or.mpr ⟨not_not.mpr hz.1, not_not.mpr hz.2⟩)).trans ((if_neg hm).trans (if_neg hp'))))

end

end Sys2Proof.Machine

namespace Sys2Proof.Proofs

open Sys2Proof.Machine

/-- Settles O14: each instruction by the lemma that says how it ends, ALW by where its module stands. -/
theorem fencesTagsAndHintsComplete : Obligations.FencesTagsAndHintsComplete := by
  unfold Obligations.FencesTagsAndHintsComplete
  refine ⟨fun s g k scope hi hr => ⟨exec_fence hi hr, State.dropFetches_icache, State.dropFetches_mem,
      fun n => State.dropFetches_core_of_ne⟩,
    fun s g d a hi hc hm hk => exec_lookup_miss hi hc hk (Core.hit_none hm), ?_,
    fun s g a b => exec_tagset, fun s g a => exec_tagclr,
    fun s g a hi hc => ⟨_, exec_pref hi hc, State.hinted_mem _, (State.hinted_beside _).me⟩, ?_⟩
  · intro s g d a e hi hc h0 he hf size off ht hs
    exact exec_lookup_hit hi hc hf (Core.hit_some h0 he) ht hs
  intro s g d a pq hi hc h1 h2 m w v ok
  by_cases hm : m = s.modNo.toNat
  · have hv : v = 0xFFFF := if_pos hm
    have hok : ok := .inl hm
    rw [decide_eq_true hok, hv]
    exact exec_alw_own hi hc ⟨h1, h2⟩ hm
  by_cases hp : s.present m = true
  · have hv : v = w.w - w.n := (if_neg hm).trans (if_pos hp)
    have hok : ok ↔ max (bits (s.gv a) 31 16) 1 ≤ w.w - w.n := by simp only [ok, hm, hp, hv, false_or, true_and]
    rw [decide_eq_decide.mpr hok, hv]
    exact exec_alw_present hi hc ⟨h1, h2⟩ hm hp
  · have hv : v = 0 := (if_neg hm).trans (if_neg hp)
    have hok : ¬ok := fun h => h.elim hm fun h => hp h.1
    rw [decide_eq_false hok, hv]
    exact exec_alw_absent hi hc ⟨h1, h2⟩ hm (Bool.eq_false_of_not_eq_true hp)

end Sys2Proof.Proofs
end

section
/-! ## Store conditional answers (O13) -/

namespace Sys2Proof.Machine

variable {s : State}

/-! ### The read of a grant (R274) -/

theorem State.flushLine_of_no_group {o : Nat} (h : ∀ x ∈ s.groups, x.addr / 128 ≠ o / 128) : s.flushLine o = s := by
  unfold State.flushLine
  rw [List.filter_eq_nil_iff.2 fun g hg => by simpa using h g hg]
  rfl

/-- A read of HBM changes no part of the state but poison, check bits and the records of faults. -/
theorem State.readHbm_eq (s : State) (o n : Nat) : ∃ h l m,
    (s.readHbm o n).2.2 = { s with hbmPoison := h, latent := l, man := m } := by
  unfold State.readHbm
  dsimp only
  generalize gransOf o n = gs
  induction gs generalizing s with
  | nil => exact ⟨_, _, _, rfl⟩
  | cons g r ih =>
    obtain ⟨h, l, m, e⟩ := s.checkGran_eq g
    rw [List.foldl_cons, e]
    exact ih { s with hbmPoison := h, latent := l, man := m }

@[simp] theorem State.portRead_resv (o n : Nat) (ver : Bool) (snap tx : Word) :
    (s.portRead o n ver snap tx).2.2.resv = s.resv := by
  unfold State.portRead
  dsimp only
  generalize (if ver = true then _ else o) = src
  obtain ⟨h, l, m, e⟩ := (s.cacheLines src n).readHbm_eq src n
  rw [e]
  exact (s.cacheLines_caches src n).resv

/-- The answer to a request of this module is one more reply on its way, and leaves the reservations. -/
theorem State.answerReq_own {r : Req} (hp : r.pkt = none) (a : Answer) :
    (s.answerReq r a).replies = s.replies ++ [⟨r.id, r.core, r.slot, r.inst, r.elem, a⟩] ∧
      (s.answerReq r a).resv = s.resv := by
  unfold State.answerReq
  rw [hp]
  exact ⟨rfl, rfl⟩

/-! ### Grant and release (R274, R276) -/

/-- The record `n` of a strand to which its line has been granted at time `now`. -/
def Resv.held (n : Resv) (now : Nat) : Resv := { n with granted := some now, req := none, intact := true }

/-- The state in which the record `n` has been granted its line. -/
def State.heldBy (s : State) (n : Resv) : State :=
  { s with resv := s.resv.map fun r => if r = n then n.held s.now else r }

theorem State.grant_of_no_line {line : Nat} (h : ∀ r ∈ s.resv, r.line ≠ line) : s.grant line = s := by
  unfold State.grant
  rw [List.find?_eq_none.2 fun r hr => by simpa using h r hr]

/-- The first in the line's queue, whose LRW waits at the port, is granted, and its LRW is answered with the data
read. -/
theorem State.grant_waiting {line id : Nat} {n : Resv} {q : Req} (hn : s.resv.find? (fun r => r.line == line) = some n)
    (hg : n.granted = none) (hr : n.req = some id) (hq : s.reqs.find? (fun r => r.id == id) = some q) :
    ∃ t bs ps, ((s.heldBy n).flushLine q.addr).portRead q.addr 8 q.ver 0 0 = (bs, ps, t) ∧
      s.grant line = t.answerReq q (.data bs ps) := by
  refine ⟨_, _, _, rfl, ?_⟩
  unfold State.grant
  rw [hn]
  dsimp only
  rw [hg, hr]
  dsimp only
  rw [hq]
  rfl

/-- With no reduction pending on the line, the grant of a strand of this module writes its record, and its answer is
on its way. -/
theorem State.grant_own {line id : Nat} {n : Resv} {q : Req} (hn : s.resv.find? (fun r => r.line == line) = some n)
    (hg : n.granted = none) (hr : n.req = some id) (hq : s.reqs.find? (fun r => r.id == id) = some q)
    (hp : q.pkt = none) (hgroups : ∀ x ∈ s.groups, x.addr / 128 ≠ q.addr / 128) :
    (s.grant line).resv = s.resv.map (fun r => if r = n then n.held s.now else r) ∧
      ∃ r ∈ (s.grant line).replies, r.core = q.core ∧ r.slot = q.slot ∧ r.inst = q.inst ∧ r.elem = q.elem ∧
        ∃ bs ps, r.ans = .data bs ps := by
  obtain ⟨t, bs, ps, hread, hgrant⟩ := State.grant_waiting hn hg hr hq
  rw [State.flushLine_of_no_group (s := s.heldBy n) hgroups] at hread
  obtain ⟨hreplies, hresv⟩ := t.answerReq_own hp (.data bs ps)
  have ht : t.resv = s.resv.map (fun r => if r = n then n.held s.now else r) := by
    rw [← congrArg (fun x => x.2.2.resv) hread, State.portRead_resv]
    rfl
  rw [hgrant, hreplies]
  exact ⟨hresv.trans ht, _, List.mem_append_right _ (List.mem_singleton.2 rfl), rfl, rfl, rfl, rfl, bs, ps, rfl⟩

/-- Whether a record is one of the issuing strand. -/
def State.reserves (s : State) (r : Resv) : Bool :=
  r.core == s.issue.core && r.slot == s.issue.slot && r.inst == s.me.inst

theorem State.releaseMine_none (h : ∀ r ∈ s.resv, s.reserves r = false) : s.releaseMine = s :=
  State.releaseResv_none fun r hr ⟨hcore, hslot, hinst⟩ =>
    absurd (h r hr) (by simp [State.reserves, hcore, hslot, hinst])

/-- The state without the records of the issuing strand. -/
def State.unreserved (s : State) : State := { s with resv := s.resv.filter fun r => !s.reserves r }

/-- The release of the strand's one record, of a line here, grants the line to the next in its queue. -/
theorem State.releaseMine_one {h : Resv} (hmine : s.resv.filter s.reserves = [h]) (hl : s.ownLine h.line = true) :
    s.releaseMine = s.unreserved.grant h.line := by
  unfold State.releaseMine State.releaseResv State.releaseLines
  simp only [Bool.and_true]
  change (s.resv.filter s.reserves).foldl _ s.unreserved = _
  rw [hmine, List.foldl_cons, List.foldl_nil]
  exact if_pos hl

/-! ### The answer to an SCH (R275, R276) -/

/-- What stands when an SCH's answer has taken from the records those of the strand of another module's line. -/
def State.endedElsewhere (s : State) : State :=
  { s with resv := s.resv.filter fun r => !(s.reserves r && !s.ownLine r.line) }

theorem exec_sch_answered {g : Guard} {pd : Pred} {a b : Reg} {ok : Bool} (ha : s.answer 0 = some (.pred ok))
    (hi : s.Issues (.sch g pd a b) g) : exec (.sch g pd a b) s =
      .next ((s.opened (.sch g pd a b)).endedElsewhere.releaseMine.setP pd ok).completes := by
  refine exec_done rfl hi ?_
  unfold answered
  rw [State.answer_opened, ha]
  rfl

theorem State.endedElsewhere_releaseMine_away (h : ∀ r ∈ s.resv, s.reserves r = true → s.ownLine r.line = false) :
    s.endedElsewhere.releaseMine = s.unreserved := by
  have hf : s.resv.filter (fun r => !(s.reserves r && !s.ownLine r.line)) = s.resv.filter fun r => !s.reserves r :=
    List.filter_congr fun r hr => by
      cases hm : s.reserves r
      · rfl
      · rw [h r hr hm]; rfl
  unfold State.endedElsewhere
  rw [hf]
  exact State.releaseMine_none (s := s.unreserved) fun r hr =>
    (Bool.not_eq_true' (s.reserves r)).mp (List.mem_filter.1 hr).2

theorem State.endedElsewhere_of_own (h : ∀ r ∈ s.resv, s.reserves r = true → s.ownLine r.line = true) :
    s.endedElsewhere = s := by
  have hf : s.resv.filter (fun r => !(s.reserves r && !s.ownLine r.line)) = s.resv :=
    List.filter_eq_self.2 fun r hr => by
      cases hm : s.reserves r
      · rfl
      · rw [h r hr hm]; rfl
  unfold State.endedElsewhere
  rw [hf]

end Sys2Proof.Machine

namespace Sys2Proof.Proofs

open Sys2Proof.Machine

/-- Settles O13: the answer releases the strand's records, and a release is the grant of its line. -/
theorem storeConditionalAnswers : Obligations.StoreConditionalAnswers := by
  unfold Obligations.StoreConditionalAnswers
  intro s g pd a b ok ha hi mine u
  have hexec := exec_sch_answered ha hi
  refine ⟨fun haway => ?_, fun h hmine hl => ⟨?_, State.grant_of_no_line, fun n id q hn hg hr hq hp hgroups =>
    State.grant_own hn hg hr hq hp hgroups⟩⟩
  · rwa [State.endedElsewhere_releaseMine_away (s := s.opened _) haway] at hexec
  · have hown : ∀ r ∈ s.resv, mine r = true → s.ownLine r.line = true := fun r hr hm => by
      have hrh : r ∈ s.resv.filter mine := List.mem_filter.2 ⟨hr, hm⟩
      rw [hmine, List.mem_singleton] at hrh
      rw [hrh, hl]
    rwa [State.endedElsewhere_of_own (s := s.opened _) hown,
      State.releaseMine_one (s := s.opened _) hmine hl] at hexec

end Sys2Proof.Proofs
end

section
/-! ## Snapshots and transactions (O21) -/

namespace Sys2Proof.Machine

variable {s : State}

@[simp] theorem State.ver_opened (i : Instr) : (s.opened i).ver = s.ver := rfl

/-! ### Snapshots (R280) -/

section
variable (h0 : txState s.me.tx = 0)
include h0

theorem exec_snap {g : Guard} {d : Reg} {t : State} (hi : s.Issues (.snap g d) g)
    (ht : (s.opened (.snap g d)).changeSnap s.ver.vclock = some t) :
    exec (.snap g d) s = .next (t.setG d s.ver.vclock false).completes := by
  refine exec_done rfl hi ((if_neg (not_not.mpr h0)).trans ?_)
  dsimp only [State.ver_opened]
  rw [ht]
  rfl

theorem exec_snapx_zero {g : Guard} {a : Reg} (hi : s.Issues (.snapx g a) g) (hc : s.clean [a]) (ha : s.gv a = 0) :
    exec (.snapx g a) s = .next (((s.opened (.snapx g a)).releaseStamp s.me.snap).setMe
      { ((s.opened (.snapx g a)).releaseStamp s.me.snap).me with snap := 0 }).completes :=
  exec_done rfl hi ((if_neg (not_not.mpr h0)).trans ((consume_clean (clean_opened hc) _).trans (if_pos ha)))

theorem exec_snapx_stamp {g : Guard} {a : Reg} {t : State} (hi : s.Issues (.snapx g a) g) (hc : s.clean [a])
    (ha : s.gv a ≠ 0) (hlow : s.ver.vlow ≤ s.gv a) (hclock : s.gv a ≤ s.ver.vclock)
    (ht : (s.opened (.snapx g a)).changeSnap (s.gv a) = some t) :
    exec (.snapx g a) s = .next t.completes := by
  have hrange : ¬(s.gv a < s.ver.vlow ∨ s.ver.vclock < s.gv a) :=
    not_or.mpr ⟨BitVec.not_lt.mpr hlow, BitVec.not_lt.mpr hclock⟩
  refine exec_done rfl hi ((if_neg (not_not.mpr h0)).trans ((consume_clean (clean_opened hc) _).trans
    ((if_neg ha).trans ((if_neg hrange).trans ?_))))
  rw [State.gv_opened, ht]

/-! ### Transactions (R281 to R283) -/

/-- TXB whose registry entry, stamp and future are there begins a transaction. -/
theorem exec_txb {g : Guard} {n : Nat} {s1 s2 s3 : State} {h : Word} (hi : s.Issues (.txb g) g)
    (hn : (s.opened (.txb g)).pickFree (s.ver.txs.map (·.1)) 4096 = some (n, s1))
    (hroom : (s1.changeSnap s.ver.vclock).isSome = true) (hh : s1.allocate s.myCluster 3 = (some h, s2))
    (ht : s2.changeSnap s.ver.vclock = some s3) : exec (.txb g) s =
      .next ((s3.setTx n ⟨s.ver.vclock, 0, h, 0, 0, 1⟩).setMe
        { (s3.setTx n ⟨s.ver.vclock, 0, h, 0, 0, 1⟩).me with tx := txWord 1 0 n }).completes := by
  obtain ⟨t, hsome⟩ := Option.isSome_iff_exists.mp hroom
  refine exec_done rfl hi ((if_neg (not_not.mpr h0)).trans ?_)
  simp only [State.ver_opened, State.myCluster_opened, hn, hsome, hh, ht, Option.getD_some]

end

section
variable {g : Guard} {pd : Pred} (hi : s.Issues (.txc g pd) g) (h0 : txState s.me.tx ≠ 0) (hd : s.settled)
include hi h0 hd

/-- TXC of a transaction that is live commits it with one stamp (R253), which its future resolves to. -/
theorem exec_txc_commit (he : (s.tx (txIndex s.me.tx)).state = 1) :
    let f := (s.tx (txIndex s.me.tx)).future
    let c := (s.opened (.txc g pd)).commitTx (txIndex s.me.tx)
    exec (.txc g pd) s = .next (((((c.2.endFuture f 2 c.1).dropRef f).freeTx (txIndex s.me.tx)).clearTx).setP pd
      true).completes :=
  exec_done rfl hi ((if_neg h0).trans ((draining_settled (settled_opened hd) _ _).trans (if_pos he)))

/-- TXC of a doomed transaction aborts it with the fault of its doom. -/
theorem exec_txc_doomed (he : (s.tx (txIndex s.me.tx)).state ≠ 1) :
    exec (.txc g pd) s = .next ((((s.opened (.txc g pd)).abortTx (txIndex s.me.tx) 3
      (BitVec.ofNat 64 (0x2800 + (s.tx (txIndex s.me.tx)).cause.toNat))).clearTx).setP pd false).completes :=
  exec_done rfl hi ((if_neg h0).trans ((draining_settled (settled_opened hd) _ _).trans (if_neg he)))

end

theorem exec_txa_outside {g : Guard} (hi : s.Issues (.txa g) g) (h0 : txState s.me.tx = 0) :
    exec (.txa g) s = .next (s.opened (.txa g)).completes :=
  exec_done rfl hi (if_pos h0)

theorem exec_txa {g : Guard} (hi : s.Issues (.txa g) g) (h0 : txState s.me.tx ≠ 0) (hd : s.settled) :
    exec (.txa g) s =
      .next (((s.opened (.txa g)).abortTx (txIndex s.me.tx) 4 0x0601).clearTx).completes :=
  exec_done rfl hi ((if_neg h0).trans (draining_settled (settled_opened hd) _ _))

theorem exec_txs {g : Guard} {d : Reg} (hi : s.Issues (.txs g d) g) : exec (.txs g d) s =
    .next ((((s.opened (.txs g d)).setMe { s.me with tx := s.refreshTx s.me.tx }).setG d
      (if txState s.me.tx = 0 then 0 else (s.tx (txIndex s.me.tx)).future) false).completes) :=
  exec_done rfl hi rfl

end Sys2Proof.Machine

namespace Sys2Proof.Proofs

open Sys2Proof.Machine

/-- Settles O21: each instruction by the lemma that says how it ends; TXC by whether the transaction is live, TXA by
whether there is one. -/
theorem versionInstructionsComplete : Obligations.VersionInstructionsComplete := by
  unfold Obligations.VersionInstructionsComplete
  intro s g d a pd x e
  exact ⟨fun t hi h0 => exec_snap h0 hi, fun hi h0 => exec_snapx_zero h0 hi, fun t hi h0 => exec_snapx_stamp h0 hi,
    fun n s1 s2 s3 h hi h0 => exec_txb h0 hi,
    fun hi h0 hd => ⟨exec_txc_commit hi h0 hd, exec_txc_doomed hi h0 hd⟩,
    fun hi => ⟨exec_txa_outside hi, exec_txa hi⟩, exec_txs⟩

end Sys2Proof.Proofs
end

section
/-! ## Loom commands at issue (O23) -/

namespace Sys2Proof.Machine

variable {s : State}

/-! ### The checks and the acceptance of R300 -/

theorem State.LoomTakes.opened {key n : Nat} {b : Block} (h : s.LoomTakes key b n) (i : Instr) :
    (s.opened i).LoomTakes key b n :=
  ⟨(s.myLoom_opened i).trans h.block, h.room, h.settled⟩

/-- Clean operands and a block that is set pass steps 2 and 3 of R300. -/
theorem loomSteps_block {rs : List Reg} {key : Nat} {b : Block} {k : State → Nat → Block → Res} (hc : s.clean rs)
    (hb : s.myLoom = some (key, b)) : loomSteps s rs k = k s key b := by
  unfold loomSteps
  rw [consume_clean hc, hb]

theorem loomAddress_pass {ea : Word} {align : Nat} {k : State → Res} (h : s.engineAddress ea align) :
    loomAddress s ea align k = k s := by
  obtain ⟨hclass, halign, harea⟩ := h
  have hr : (!s.me.priv && touchesReserved s.issue.core ea 1) = false := by
    rcases harea with h | h <;> simp [h]
  unfold loomAddress
  rw [if_neg hclass, if_neg (not_not.mpr halign), hr]
  exact if_neg Bool.false_ne_true

theorem loomRoom_of_room {key : Nat} {b : Block} {c : LoomCmd} {got : List (Nat × Answer)} {k : State → Res}
    (h : s.LoomTakes key b c.records) : loomRoom s key b c got k = k s :=
  if_neg (Nat.not_lt.mpr h.room)

theorem acceptLoom_of_room {key : Nat} {b : Block} {c : LoomCmd} {got : List (Nat × Answer)} {fin : State → Res}
    (h : s.LoomTakes key b c.records) : acceptLoom s key b c got fin = fin (s.loomPush key b c) :=
  (loomRoom_of_room h).trans (draining_settled h.settled _ _)

/-- WLD and WEFT with operands that pass are accepted. -/
theorem loomStream_accepted {i j : Instr} {f : LoomFmt} {lp : Option (BitVec 3)} {a b : Reg} {key : Nat} {blk : Block}
    (hc : s.clean [a, b]) (ht : s.LoomTakes key blk 1) (hg : geoOk f lp (s.gv b) = true)
    (ha : s.engineAddress (s.gv a) (loomAlign f)) :
    loomStream (s.opened j) i f lp a b = .done ((s.opened j).loomPush key blk (s.command i (s.gv a) (s.gv b))) := by
  refine (loomSteps_block (s := s.opened j) hc (ht.opened j).block).trans ?_
  refine (if_neg (by simp [hg])).trans ?_
  exact (loomAddress_pass (s := s.opened j) ha).trans (acceptLoom_of_room (ht.opened j))

/-- A modifier word is that of what is issued. -/
theorem State.Beside.mw {t : State} (h : s.Beside t) : t.mw = s.mw := by rw [State.mw, State.mw, h.issue]

/-! ### Blocks and rings leave the strands -/

namespace State.Beside

variable {t : State}

theorem openBlock (h : s.Beside t) (o : Nat) : s.Beside (t.openBlock o) := h.hbmRead o 32

theorem setLoomQ (h : s.Beside t) (k : Nat) (q : EngineQ LoomCmd) : s.Beside (t.setLoomQ k q) :=
  h.trans (of_eq rfl rfl rfl)

theorem loomPush (h : s.Beside t) (k : Nat) (b : Block) (c : LoomCmd) : s.Beside (t.loomPush k b c) :=
  ((h.openBlock _).setLoomQ _ _).hbmWrite _ _

end State.Beside

/-! ### LGRP (R306) -/

theorem groupFault_none {f : LoomFmt} {ea : Word} {es : List ((Word × Word) × Bool)}
    (h : ∀ e ∈ es, e.2 = false ∧ groupOk f e.1 = true) : ∀ i, groupFault s f ea i es = none := by
  induction es with
  | nil => exact fun _ => rfl
  | cons e es ih =>
    intro i
    obtain ⟨hbad, hok⟩ := h e List.mem_cons_self
    simp only [groupFault, hbad, hok, Bool.not_true, Bool.false_eq_true, if_false]
    exact ih (fun x hx => h x (List.mem_cons_of_mem _ hx)) _

/-- A table whose entries pass is accepted with its groups. -/
theorem lgrpAccept_accepted {i : Instr} {f : LoomFmt} {ea cnt : Word} {n key : Nat} {blk : Block}
    {got : List (Nat × Answer)} (hok : ∀ e ∈ groupsOf n got, e.2 = false ∧ groupOk f e.1 = true)
    (hrows : ((groupsOf n got).map fun e => grpRows e.1).foldl (· + ·) 0 ≤ 32)
    (ht : s.LoomTakes key blk (1 + (16 * n + 63) / 64)) :
    lgrpAccept s i f ea cnt n key blk got = .done (s.loomPush key blk { s.command i ea cnt with
      groups := (groupsOf n got).map (·.1), records := 1 + (16 * n + 63) / 64 }) := by
  unfold lgrpAccept
  simp only [groupFault_none hok, if_neg (Nat.not_lt.mpr hrows)]
  exact acceptLoom_of_room ht

theorem exec_lgrp {g : Guard} {f : LoomFmt} {v : Bool} {lp : Option (BitVec 3)} {a b : Reg} {key n : Nat} {blk : Block}
    (hi : s.Issues (.lgrp g f v lp a b) g) (hc : s.clean [a, b])
    (hn : n = if lp.isSome then 32 else bits (s.gv b) 5 0) (ht : s.LoomTakes key blk (1 + (16 * n + 63) / 64))
    (hmax : n ≤ 32) (hhigh : (s.gv b).toNat / 2 ^ 6 = 0) (hlp : lp.isSome = true → s.gv b = 0)
    (ha : s.engineAddress (s.gv a) 16) (hgot : s.got = [] → n = 0) (htrap : s.trapAnswer = none)
    (hok : ∀ e ∈ groupsOf n s.got, e.2 = false ∧ groupOk f e.1 = true)
    (hrows : ((groupsOf n s.got).map fun e => grpRows e.1).foldl (· + ·) 0 ≤ 32) :
    exec (.lgrp g f v lp a b) s = .next ((s.opened (.lgrp g f v lp a b)).loomPush key blk
      { s.command (.lgrp g f v lp a b) (s.gv a) (s.gv b) with
        groups := (groupsOf n s.got).map (·.1), records := 1 + (16 * n + 63) / 64 }).completes := by
  have hcount : ¬(32 < n ∨ (!clearBits (s.gv b) 63 6) = true ∨ lp.isSome = true ∧ s.gv b ≠ 0) := by
    rintro (h | h | ⟨h, h0⟩)
    · omega
    · simp only [clearBits, bits, hhigh] at h
      exact absurd h (by decide)
    · exact h0 (hlp h)
  have hacc := lgrpAccept_accepted (s := s.opened (.lgrp g f v lp a b)) (i := .lgrp g f v lp a b) (ea := s.gv a)
    (cnt := s.gv b) hok hrows (ht.opened _)
  refine exec_done rfl hi ((loomSteps_block (clean_opened hc) (ht.opened _).block).trans ?_)
  refine (loomAddress_pass (s := s.opened _) ha).trans ?_
  simp only [State.gv_opened, ← hn, if_neg hcount, State.got_opened,
    show (s.opened (.lgrp g f v lp a b)).trapAnswer = none from htrap]
  by_cases he : s.got = []
  · have hacc0 := hacc
    obtain rfl := hgot he
    rw [he] at hacc0 ⊢
    exact hacc0
  · exact (if_pos (by simp [he])).trans hacc

end Sys2Proof.Machine

namespace Sys2Proof.Proofs

open Sys2Proof.Machine

/-- Settles O23: each instruction by its checks and the acceptance they share. -/
theorem loomListsAndCommandsAreAccepted : Obligations.LoomListsAndCommandsAreAccepted := by
  unfold Obligations.LoomListsAndCommandsAreAccepted
  refine ⟨fun s g a b f lp v k m key blk hc ht => ?_, fun s g a b f lp v key blk => ?_⟩
  · have hca : s.clean [a] := fun r hr => hc r (List.mem_cons.mpr (.inl (List.mem_singleton.mp hr)))
    have h0 : s.clean [] := nofun
    have accepts (i : Instr) (x y : Word) : acceptLoom (s.opened i) key blk (s.command i x y) s.got .done =
        .done ((s.opened i).loomPush key blk (s.command i x y)) := acceptLoom_of_room (ht.opened i)
    have addressed (i : Instr) (j : Nat) (hj : s.engineAddress (s.gv a) j) (k : State → Res) :
        loomAddress (s.opened i) (s.gv a) j k = k (s.opened i) := loomAddress_pass (s := s.opened i) hj
    have steps (i : Instr) {rs : List Reg} (hr : s.clean rs) (k : State → Nat → Block → Res) :
        loomSteps (s.opened i) rs k = k (s.opened i) key blk :=
      loomSteps_block (s := s.opened i) hr (ht.opened i).block
    refine ⟨fun hi hg ha => exec_done rfl hi (loomStream_accepted hc ht hg ha),
      fun hi hg ha => exec_done rfl hi (loomStream_accepted hc ht hg ha), fun hi hg ha => ?_,
      fun hi => exec_done rfl hi ((steps _ h0 _).trans (accepts _ _ _)),
      fun hi => exec_done rfl hi ((steps _ h0 _).trans (accepts _ _ _)),
      fun hi ha => exec_done rfl hi ((steps _ hca _).trans ((addressed _ _ ha _).trans (accepts _ _ _))),
      fun hi ha => exec_done rfl hi ((steps _ hca _).trans ((addressed _ _ ha _).trans (accepts _ _ _)))⟩
    refine exec_done rfl hi ((steps _ hc _).trans ((if_neg (by simp [hg])).trans ((addressed _ _ ha _).trans ?_)))
    exact (acceptLoom_of_room (ht.opened _)).trans (congrArg (fun m : MW => Res.done (State.drew _ m.rm.toNat _))
      ((State.Beside.refl (s.opened _)).loomPush ..).mw)
  · intro i n hi hc ht hmax hhigh hlp ha hgot htrap hok hrows
    exact exec_lgrp hi hc rfl ht hmax hhigh hlp ha hgot htrap hok hrows

end Sys2Proof.Proofs
end

section
/-! ## Loom markers, LRES and LSTAT (O24) -/

namespace Sys2Proof.Machine

variable {s : State} {key : Nat} {blk : Block}

/-! ### LFUT (R309) -/

section
variable {g : Guard} {d : Reg} {h : Word} {t : State}

/-- Once its future is allocated and the ring has room, LFUT is the acceptance of its marker. -/
theorem exec_lfut_accept {u : State} (hi : s.Issues (.lfut g d) g) (ht : s.LoomTakes key blk 1)
    (hf : s.me.flight = none) (ha : (s.opened (.lfut g d)).allocate s.myCluster 2 = (some h, t))
    (hu : lfutAccept t (.lfut g d) d key blk h = .done u) : exec (.lfut g d) s = .next u.completes := by
  refine exec_done rfl hi ?_
  simp only [State.answer_opened, answer_of_flight hf]
  refine (loomSteps_block (rs := []) (fun r hr => absurd hr List.not_mem_nil) (ht.opened _).block).trans ?_
  simp only [State.answer_opened, answer_of_flight hf]
  refine (draining_settled (ht.opened _).settled _ _).trans ?_
  simp only [State.myCluster_opened, ha]
  exact hu

theorem lfutAccept_running {i : Instr} (ht : t.LoomTakes key blk 1) (hs : t.myCore.loom.seq ≠ .stopped) :
    lfutAccept t i d key blk h =
      .done ((t.loomPush key blk { t.command i 0 0 with fut := h }).setG d h false) := by
  unfold lfutAccept
  simp only [beq_eq_false_iff_ne.mpr hs, Bool.false_eq_true, if_false]
  exact loomRoom_of_room ht

/-- While the sequencer is stopped the marker holds no future, and the one given is poisoned. -/
theorem lfutAccept_stopped {i : Instr} (ht : t.LoomTakes key blk 1) (hs : t.myCore.loom.seq = .stopped) :
    lfutAccept t i d key blk h = .done ((((t.loomPush key blk { t.command i 0 0 with fut := 0 }).endFuture h 3
      (loomFaultWord (key * 512) t.myCore.loom.code)).dropRef h).setG d h false) := by
  unfold lfutAccept
  simp only [beq_iff_eq.mpr hs, if_true]
  exact loomRoom_of_room ht

end

/-! ### LRES and LSTAT (R310, R311) -/

/-- LRES of an act, or of any operand where nothing is stopped. -/
theorem exec_lres {g : Guard} {a : Reg} (hi : s.Issues (.lres g a) g) (hc : s.clean [a])
    (ht : s.LoomTakes key blk 1) (hv : (s.gv a).toNat ≤ 2 ∨ s.myCore.loom.seq ≠ .stopped) :
    let t := s.opened (.lres g a)
    exec (.lres g a) s = .next (if s.myCore.loom.seq ≠ .stopped then t.completes
      else if s.gv a = 0 then t.loomRun.completes
      else if s.gv a = 1 then (t.loomPop key).loomRun.completes
      else (t.loomFlush key blk).loomRun.completes) := by
  intro t
  have steps {k : State → Nat → Block → Res} : loomSteps t [a] k = k t key blk :=
    loomSteps_block (clean_opened hc) (ht.opened _).block
  by_cases hs : s.myCore.loom.seq ≠ .stopped
  · rw [if_pos hs]
    exact exec_done rfl hi (steps.trans (if_pos hs))
  · have acts {x y : Res} (hxy : x = y) : (if t.myCore.loom.seq ≠ .stopped then Res.done t
        else if 2 < (t.gv a).toNat then .operand t (t.gv a) else x) = y :=
      (if_neg hs).trans ((if_neg (Nat.not_lt.mpr (hv.resolve_right hs))).trans hxy)
    rw [if_neg hs]
    split
    · exact exec_done rfl hi (steps.trans (acts (if_pos ‹_›)))
    · next h0 =>
      split
      · exact exec_done rfl hi (steps.trans (acts ((if_neg h0).trans (if_pos ‹_›))))
      · exact exec_done rfl hi (steps.trans (acts ((if_neg h0).trans (if_neg ‹_›))))

theorem State.loomStatus_block (hb : s.myLoom = some (key, blk)) : s.loomStatus = BitVec.ofNat 64 (
    (if s.myCore.loom.seq = .running then 0 else 1) * 2 ^ 63 + min (s.loomQueue key).cmds.length 32767 * 2 ^ 48 +
    vatCode s.myCore.loom.v1.mode * 2 ^ 46 + vatCode s.myCore.loom.v0.mode * 2 ^ 44 +
    s.myCore.loom.shadow.fmt.code.toNat * 2 ^ 41 + s.myCore.loom.shadow.count * 2 ^ 30 +
    s.myCore.loom.warp.fmt.code.toNat * 2 ^ 27 + s.myCore.loom.warp.count * 2 ^ 16 + s.myCore.loom.code.toNat) := by
  have hr : b1 (s.myCore.loom.seq != .running) = if s.myCore.loom.seq = .running then 0 else 1 := by
    cases s.myCore.loom.seq <;> rfl
  unfold State.loomStatus
  rw [hb]
  simp only [hr]

end Sys2Proof.Machine

namespace Sys2Proof.Proofs

open Sys2Proof.Machine

/-- Settles O24: LFUT by whether the sequencer is stopped; LRES by its operand; LSTAT by the fields of the Loom. -/
theorem loomMarkersAndStatusComplete : Obligations.LoomMarkersAndStatusComplete := by
  unfold Obligations.LoomMarkersAndStatusComplete
  intro s g d a key blk ht hc hf
  refine ⟨fun h s1 hi ha ht1 => ⟨fun hs => exec_lfut_accept hi ht hf ha (lfutAccept_running ht1 hs),
    fun hs => exec_lfut_accept hi ht hf ha (lfutAccept_stopped ht1 hs)⟩, fun hi hv => exec_lres hi hc ht hv,
    fun hi => ?_⟩
  refine exec_done rfl hi ?_
  rw [State.loomStatus_block (ht.opened _).block]
  rfl

end Sys2Proof.Proofs
end

section
/-! ## The supervisor registers (O8) -/

namespace Sys2Proof.Machine

variable {s : State}

@[simp] theorem State.superReg_opened (i : Instr) (n : Nat) : (s.opened i).superReg n = s.superReg n := rfl
@[simp] theorem State.cluster_opened (i : Instr) (cl : Nat) : (s.opened i).cluster cl = s.cluster cl := rfl
@[simp] theorem State.loomBusy_opened (i : Instr) : (s.opened i).loomBusy = s.loomBusy := rfl
@[simp] theorem State.scrBusy_opened (i : Instr) : (s.opened i).scrBusy = s.scrBusy := rfl

/-- The supervisor registers of R336 as SRDP reads them. -/
theorem State.superReg_of_mem {n : BitVec 8} {v : Word}
    (h : (n, v) ∈ [((0x00 : BitVec 8), s.me.epc), (0x01, s.me.cause), (0x02, s.me.tval), (0x03, s.me.estat),
      (0x04, s.me.kscr), (0x10, s.myCore.tvec), (0x11, s.myCore.xroot), (0x12, s.myCore.readCctl),
      (0x13, s.ipendOf s.myCore), (0x14, s.myCore.tcmp), (0x15, s.myCore.loomblk),
      (0x16, s.myCore.scrblk), (0x17, s.myCore.dqring), (0x18, s.myCore.arring), (0x19, s.myCore.slots),
      (0x20, (s.cluster s.myCluster).parkbase), (0x21, (s.cluster s.myCluster).futbase),
      (0x22, (s.cluster s.myCluster).reeveblk)]) : s.superReg n.toNat = some v := by
  simp only [List.mem_cons, Prod.mk.injEq, List.not_mem_nil, or_false] at h
  rcases h with ⟨rfl, rfl⟩ | ⟨rfl, rfl⟩ | ⟨rfl, rfl⟩ | ⟨rfl, rfl⟩ | ⟨rfl, rfl⟩ | ⟨rfl, rfl⟩ |
    ⟨rfl, rfl⟩ | ⟨rfl, rfl⟩ | ⟨rfl, rfl⟩ | ⟨rfl, rfl⟩ | ⟨rfl, rfl⟩ | ⟨rfl, rfl⟩ | ⟨rfl, rfl⟩ |
    ⟨rfl, rfl⟩ | ⟨rfl, rfl⟩ | ⟨rfl, rfl⟩ | ⟨rfl, rfl⟩ | ⟨rfl, rfl⟩ <;> rfl

theorem exec_srdp_some {g : Guard} {d : Reg} {n : BitVec 8} {v : Word} (hi : s.Issues (.srdp g d n) g)
    (hv : s.superReg n.toNat = some v) : exec (.srdp g d n) s = .next (s.gives (.srdp g d n) d v false) := by
  refine exec_done rfl hi ?_
  rw [State.superReg_opened, hv]
  rfl

theorem exec_srdp_none {g : Guard} {d : Reg} {n : BitVec 8} (hi : s.Issues (.srdp g d n) g)
    (hv : s.superReg n.toNat = none) :
    exec (.srdp g d n) s = .next (s.traps (.srdp g d n) 0 0x6101 s.issue.word) := by
  refine exec_trap rfl hi ?_
  rw [State.superReg_opened, hv]
  rfl

/-- SWRP of a number assigned: the write that its register has, or the operand trap, as the test `ok` of the value
says (R336, R338). -/
theorem exec_swrp {g : Guard} {n : BitVec 8} {a : Reg} {ok : Prop} {b : Bool} {t : State} (hc : s.clean [a])
    (hr : (s.superReg n.toNat).isSome = true)
    (hw : (s.opened (.swrp g n a)).writeSuper n.toNat (s.gv a) = if b then some t else none) (hb : b = true ↔ ok)
    (hi : s.Issues (.swrp g n a) g) : (ok → exec (.swrp g n a) s = .next t.completes) ∧
      (¬ok → exec (.swrp g n a) s = .next (s.traps (.swrp g n a) 2 0x6103 (s.gv a))) := by
  refine ⟨fun h => exec_done_of_clean rfl hi hc ?_, fun h => exec_trap_of_clean rfl hi hc ?_⟩
  · rw [State.gv_opened, hw, if_pos (hb.mpr h)]
  · rw [State.gv_opened, hw, if_neg (mt hb.mp h), State.superReg_opened]
    exact if_pos hr

/-- A register that takes every value. -/
theorem exec_swrp_always {g : Guard} {n : BitVec 8} {a : Reg} {t : State} (hc : s.clean [a])
    (hr : (s.superReg n.toNat).isSome = true)
    (hw : (s.opened (.swrp g n a)).writeSuper n.toNat (s.gv a) = some t) (hi : s.Issues (.swrp g n a) g) :
    (True → exec (.swrp g n a) s = .next t.completes) ∧
      (¬True → exec (.swrp g n a) s = .next (s.traps (.swrp g n a) 2 0x6103 (s.gv a))) :=
  exec_swrp hc hr (b := true) hw (by simp) hi

/-! ### The tests of a value (R336) -/

@[simp] theorem clearBits_iff {v : Word} {hi lo : Nat} : clearBits v hi lo = true ↔ bits v hi lo = 0 := by
  simp [clearBits]

@[simp] theorem blockOk_iff {v : Word} : blockOk v = true ↔ bits v 63 56 = 0 ∧ bits v 8 0 = 0 := by
  simp [blockOk]

@[simp] theorem baseOk_iff {v : Word} : baseOk v = true ↔ bits v 63 56 = 0 ∧ bits v 11 0 = 0 := by
  simp [baseOk]

@[simp] theorem cctlOk_iff {v : Word} :
    cctlOk v = true ↔ bits v 63 16 = 0 ∧ bits v 7 6 = 0 ∧ bits v 3 2 ≠ 3 := by
  simp [cctlOk, and_assoc]

@[simp] theorem ringOk_iff {v : Word} : ringOk v = true ↔
    bits v 63 56 = 0 ∧ bits v 7 5 = 0 ∧ (bits v 4 0 = 0 ∨ 8 ≤ bits v 4 0 ∧ bits v 4 0 ≤ 16) := by
  simp [ringOk, and_assoc]

end Sys2Proof.Machine

namespace Sys2Proof.Proofs

open Sys2Proof.Machine

/-- Settles O8: SRDP by the table of R336; SWRP register by register, each with its test of the value. -/
theorem supervisorRegistersReadAndWritten : Obligations.SupervisorRegistersReadAndWritten := by
  unfold Obligations.SupervisorRegistersReadAndWritten
  refine ⟨⟨fun s g d n v hi hv => exec_srdp_some hi (State.superReg_of_mem hv),
    fun s g d hi => exec_srdp_none hi rfl⟩, fun s g a hc => ?_⟩
  refine ⟨exec_swrp_always hc rfl rfl, exec_swrp hc rfl rfl ?_, exec_swrp_always hc rfl rfl, exec_swrp hc rfl rfl ?_,
    exec_swrp_always hc rfl rfl, exec_swrp hc rfl rfl ?_, exec_swrp hc rfl rfl ?_, exec_swrp hc rfl rfl ?_,
    exec_swrp_always hc rfl rfl, exec_swrp hc rfl rfl ?_, exec_swrp hc rfl rfl ?_, exec_swrp hc rfl rfl ?_,
    exec_swrp hc rfl rfl ?_, exec_swrp hc rfl rfl ?_, exec_swrp_always hc rfl rfl, exec_swrp hc rfl rfl ?_,
    exec_swrp hc rfl rfl ?_, exec_swrp hc rfl rfl ?_⟩
  all_goals simp [and_assoc]

end Sys2Proof.Proofs
end

section
/-! ## What reset leaves (O54) -/

namespace Sys2Proof.Machine

/-! ### Units that reset does not list stand at their defaults -/

@[simp] theorem State.reset_core (n : Nat) : State.reset.core n = {} := rfl
@[simp] theorem State.reset_strand (n k : Nat) : State.reset.strand n k = {} := rfl
@[simp] theorem State.reset_cluster (cl : Nat) : State.reset.cluster cl = {} := rfl
@[simp] theorem State.reset_route (m : Nat) : State.reset.route m = 0 := rfl
@[simp] theorem State.reset_allow (cl m : Nat) : State.reset.allow cl m = {} := rfl
@[simp] theorem State.reset_queue (q : Nat) : State.reset.queue q = {} := rfl
@[simp] theorem State.reset_linkUp (l : Nat) : State.reset.linkUp l = false := rfl
@[simp] theorem State.reset_sem (i : Nat) : State.reset.sem i = 0 := rfl
@[simp] theorem State.reset_ver : State.reset.ver = {} := rfl
@[simp] theorem State.reset_man : State.reset.man = {} := rfl

end Sys2Proof.Machine

namespace Sys2Proof.Proofs

open Sys2Proof.Machine

/-- Settles O54: reset lists no unit, so each reads its default. -/
theorem resetLeaves : Obligations.ResetLeaves := by
  unfold Obligations.ResetLeaves
  simp

end Sys2Proof.Proofs
end

section
/-! ## Traps at supervisor level (O31) -/

namespace Sys2Proof.Machine

variable {s : State} {n k : Nat} {cause : BitVec 5} {code : Code} {v pc : Word} {len : Nat}

/-! ### The debug word of a double trap (R354) -/

/-- A debug word with dtrap set and the slot of a double trap. -/
def dtrapWord (w : Word) (k : Nat) : Word :=
  (w &&& ~~~0x0000000001F00000) ||| 0x40000000 ||| BitVec.ofNat 64 (k * 2 ^ 20)

theorem dtrapWord_dtrap (w : Word) (k : Nat) : (dtrapWord w k).getLsbD 30 = true := by
  unfold dtrapWord
  rw [BitVec.getLsbD_or, BitVec.getLsbD_or]
  simp

theorem dtrapWord_slot (w : Word) (hk : k < 32) : bits (dtrapWord w k) 24 20 = k := by
  have hmask : (~~~0x0000000001F00000 : Word).extractLsb' 20 5 = 0#5 := by decide
  have hdtrap : (0x40000000 : Word).extractLsb' 20 5 = 0#5 := by decide
  rw [bits_eq_extractLsb', dtrapWord, BitVec.extractLsb'_or, BitVec.extractLsb'_or, BitVec.extractLsb'_and, hmask,
    hdtrap, BitVec.and_zero, BitVec.zero_or, BitVec.zero_or, BitVec.extractLsb'_toNat, BitVec.toNat_ofNat,
    Nat.shiftRight_eq_div_pow]
  omega

/-- A field of five bits from bit 20 on has no others. -/
theorem getLsbD_slotField {j : Nat} (hk : k < 32) (hj : j < 20 ∨ 24 < j) :
    (BitVec.ofNat 64 (k * 2 ^ 20)).getLsbD j = false := by
  rw [BitVec.getLsbD_ofNat, Nat.testBit_mul_two_pow]
  rcases hj with hj | hj
  · simp [Nat.not_le.mpr hj]
  · have hpow : k < 2 ^ (j - 20) := 
      Nat.lt_of_lt_of_le hk (show 2 ^ 5 ≤ _ from Nat.pow_le_pow_right (by decide) (by omega))
    simp [Nat.testBit_lt_two_pow hpow]

theorem dtrapWord_other (w : Word) {j : Nat} (hk : k < 32) (hj : j < 20 ∨ 24 < j) (h30 : j ≠ 30) :
    (dtrapWord w k).getLsbD j = w.getLsbD j := by
  have hmask : (0x0000000001F00000 : Word).getLsbD j = false := getLsbD_slotField (k := 31) (by decide) hj
  have hdtrap : (0x40000000 : Word).getLsbD j = false := by
    rw [show (0x40000000 : Word) = BitVec.ofNat 64 (2 ^ 30) from rfl, BitVec.getLsbD_ofNat,
      Nat.testBit_two_pow_of_ne h30.symm, Bool.and_false]
  rw [dtrapWord, BitVec.getLsbD_or, BitVec.getLsbD_or, BitVec.getLsbD_and, BitVec.getLsbD_not, hmask, hdtrap,
    getLsbD_slotField hk hj]
  by_cases h : j < 64
  · simp [h]
  · simp [BitVec.getLsbD_of_ge _ _ (Nat.le_of_not_lt h)]

/-! ### The history keeps a fresh entry (R402) -/

/-- A new entry steps back only past entries of its own device time, so where fewer than `m` of them stand it is
among the first `m`. -/
theorem mem_take_addRecord {r : FaultRec} : ∀ {l : List FaultRec} {m : Nat},
    (l.filter fun x => x.time == r.time).length < m → r ∈ (addRecord r l).take m
  | [], m + 1, _ => List.mem_cons_self
  | x :: l, m + 1, h => by
    by_cases hx : x.time = r.time ∧ r.code < x.code
    · rw [addRecord_cons_ahead hx]
      rw [List.filter_cons_of_pos (p := fun x : FaultRec => x.time == r.time) (beq_iff_eq.mpr hx.1),
        List.length_cons] at h
      exact List.mem_cons_of_mem _ (mem_take_addRecord (Nat.lt_of_succ_lt_succ h))
    · rw [addRecord_cons_behind hx]
      exact List.mem_cons_self

theorem State.record_filter_length (s : State) (code : Code) (loc v : Nat) (p : FaultRec → Bool) :
    ((s.record code loc v).man.history.filter p).length ≤ (s.man.history.filter p).length + 1 := by
  have hs : ((s.record code loc v).man.history.filter p).length ≤
      ((addRecord ⟨s.time, code, BitVec.ofNat 16 loc, BitVec.ofNat 32 v⟩ s.man.history).filter p).length :=
    ((List.take_sublist _ _).filter p).length_le
  rw [((addRecord_perm _ s.man.history).filter p).length_eq] at hs
  refine hs.trans ?_
  rw [List.filter_cons]
  split
  · exact Nat.le_refl _
  · exact Nat.le_succ _

theorem State.strand_record (s : State) (code : Code) (loc v m j : Nat) :
    (s.record code loc v).strand m j = s.strand m j := rfl

theorem State.core_record (s : State) (code : Code) (loc v m : Nat) : (s.record code loc v).core m = s.core m := rfl

theorem State.setStrand_core_dbg (s : State) (n k : Nat) (t : Strand) :
    ((s.setStrand n k t).core n).dbg = (s.core n).dbg := by
  rw [State.setStrand, State.core_setCore_self]
  rfl

/-! ### The two kinds of trap (R339, R342) -/

/-- What stands once the trap's own code has been recorded, where it is. -/
def State.trapRecorded (s : State) (n : Nat) (cause : BitVec 5) (code : Code) (v : Word) : State :=
  if recorded cause then s.record code n v.toNat else s

theorem State.trapRecorded_man (s : State) (n : Nat) (cause : BitVec 5) (code : Code) (v : Word) :
    ∃ m, s.trapRecorded n cause code v = { s with man := m } := by
  unfold State.trapRecorded
  split
  · exact ⟨_, rfl⟩
  · exact ⟨s.man, rfl⟩

theorem State.trapRecorded_written (s : State) (n : Nat) (cause : BitVec 5) (code : Code) (v : Word) :
    (s.trapRecorded n cause code v).man.written + 1 = s.man.written + (if recorded cause then 2 else 1) := by
  unfold State.trapRecorded
  split <;> rfl

theorem State.trapRecorded_filter_length (s : State) (n : Nat) (cause : BitVec 5) (code : Code) (v : Word)
    (p : FaultRec → Bool) :
    ((s.trapRecorded n cause code v).man.history.filter p).length ≤ (s.man.history.filter p).length + 1 := by
  unfold State.trapRecorded
  split
  · exact s.record_filter_length ..
  · exact Nat.le_succ _

/-- The strand of a double trap. -/
def Strand.doubleTrapped (t : Strand) : Strand :=
  { t with st := .halted, flight := none, walked := [], fetchWait := none }

/-- A trap at supervisor level with ok clear: the strand halts, and the debug word and the census show it. -/
theorem State.trap_eq_double (hp : (s.strand n k).priv = true) (he : (s.strand n k).estat.getLsbD 7 = false) :
    s.trap n k cause code v pc len =
      (((s.trapRecorded n cause code v).setCore n { s.core n with dbg := dtrapWord (s.core n).dbg k }).setStrand n k
        (s.strand n k).doubleTrapped).record 0x6302 n v.toNat := by
  have hd : ((s.strand n k).priv && !(s.strand n k).estat.getLsbD 7) = true := by rw [hp, he]; rfl
  unfold State.trap State.trapRecorded
  cases recorded cause
  · exact if_pos hd
  · exact if_pos hd

section
variable (hp : (s.strand n k).priv = true) (he : (s.strand n k).estat.getLsbD 7 = false)
include hp he

theorem State.trap_double_strand :
    (s.trap n k cause code v pc len).strand n k = (s.strand n k).doubleTrapped := by
  rw [State.trap_eq_double hp he, State.strand_record, State.strand_setStrand_self]

theorem State.trap_double_dbg :
    ((s.trap n k cause code v pc len).core n).dbg = dtrapWord (s.core n).dbg k := by
  rw [State.trap_eq_double hp he, State.core_record, State.setStrand_core_dbg, State.core_setCore_self]

theorem State.trap_double_man :
    (s.trap n k cause code v pc len).man = ((s.trapRecorded n cause code v).record 0x6302 n v.toNat).man := by
  obtain ⟨m, hm⟩ := s.trapRecorded_man n cause code v
  rw [State.trap_eq_double hp he, hm]
  rfl

end

/-- A trap leaves the other slots of its core, and memory. -/
theorem State.trap_beside :
    (∀ j, j ≠ k → (s.trap n k cause code v pc len).strand n j = s.strand n j) ∧
      ∀ a, (s.trap n k cause code v pc len).byte a = s.byte a := by
  obtain ⟨m, hm⟩ := s.trapRecorded_man n cause code v
  by_cases hd : ((s.strand n k).priv && !(s.strand n k).estat.getLsbD 7) = true
  · obtain ⟨hp, he⟩ := Bool.and_eq_true_iff.mp hd
    rw [State.trap_eq_double hp (Bool.not_eq_true' _ |>.mp he), hm]
    refine ⟨fun j hj => ?_, fun a => by
      simp only [State.byte, State.record_mem, State.setStrand_mem, State.setCore_mem]⟩
    rw [State.strand_record, State.strand_setStrand, if_neg fun h => hj h.2, State.strand, State.core_setCore_self]
    rfl
  · rw [State.trap_eq _ _ _ _ _ _ _ _ (Bool.eq_false_of_not_eq_true hd)]
    have hr : (if recorded cause = true then s.record code n v.toNat else s) = { s with man := m } := hm
    rw [hr]
    exact ⟨fun j hj => (State.strand_setStrand ..).trans (if_neg fun h => hj h.2), fun a => rfl⟩

/-- A trap that is no double trap enters the handler and leaves the debug word. -/
theorem State.trap_single (h : (s.strand n k).priv = false ∨ (s.strand n k).estat.getLsbD 7 = true) :
    (s.trap n k cause code v pc len).strand n k =
        (s.strand n k).enter (s.core n).tvec cause code v pc len false false ∧
      ((s.trap n k cause code v pc len).core n).dbg = (s.core n).dbg := by
  obtain ⟨m, hm⟩ := s.trapRecorded_man n cause code v
  have hd : ((s.strand n k).priv && !(s.strand n k).estat.getLsbD 7) = false := by
    rcases h with h | h <;> simp [h]
  have hr : (if recorded cause = true then s.record code n v.toNat else s) = { s with man := m } := hm
  rw [State.trap_eq _ _ _ _ _ _ _ _ hd, hr]
  exact ⟨State.strand_setStrand_self .., State.setStrand_core_dbg ..⟩

end Sys2Proof.Machine

namespace Sys2Proof.Proofs

open Sys2Proof.Machine

/-- Settles O31: a trap nests or is a double trap; the history keeps the entry of a double trap because no more
entries of its device time stand ahead of it than the history holds. -/
theorem doubleTrapHaltsTheStrand : Obligations.DoubleTrapHaltsTheStrand := by
  unfold Obligations.DoubleTrapHaltsTheStrand
  refine ⟨fun s n k cause code v pc len => ?_, fun s g k hi => exec_trap rfl hi rfl⟩
  intro t u x
  refine ⟨fun h => ?_, fun hp he hk => ?_, State.trap_beside⟩
  · obtain ⟨hx, hdbg⟩ := State.trap_single (s := s) (cause := cause) (code := code) (v := v) (pc := pc) (len := len) h
    obtain ⟨-, -, -, hok, -⟩ := Strand.enter_estat t (s.core n).tvec cause code v pc len
    change x = _ at hx
    clear_value x
    subst hx
    exact ⟨rfl, rfl, rfl, rfl, hok, Strand.enter_estat_priv .., rfl, rfl, hdbg⟩
  · have hx : x = t.doubleTrapped := State.trap_double_strand hp he
    have hdbg : (u.core n).dbg = dtrapWord (s.core n).dbg k := State.trap_double_dbg hp he
    have hman : u.man = _ := State.trap_double_man hp he
    obtain ⟨m, hm⟩ := s.trapRecorded_man n cause code v
    have htime : (s.trapRecorded n cause code v).time = s.time := by rw [hm]; rfl
    have hhistory : u.man.history = (addRecord ⟨s.time, 0x6302, BitVec.ofNat 16 n, BitVec.ofNat 32 v.toNat⟩
        (s.trapRecorded n cause code v).man.history).take 4096 := by
      rw [hman, ← htime]
      rfl
    clear_value x u
    subst hx
    refine ⟨rfl, rfl, rfl, rfl, rfl, rfl, hp, rfl, fun r => rfl, fun p => rfl, ?_, ?_, ?_, ?_, hhistory, ?_⟩
    · rw [hdbg, dtrapWord_dtrap]
    · rw [hdbg, dtrapWord_slot _ hk]
    · intro j hj h30
      rw [hdbg, dtrapWord_other _ hk hj h30]
    · rw [hman, ← s.trapRecorded_written n cause code v]
      rfl
    · intro hroom
      refine ⟨⟨s.time, 0x6302, BitVec.ofNat 16 n, BitVec.ofNat 32 v.toNat⟩, ?_, rfl, rfl, rfl⟩
      rw [hhistory]
      exact mem_take_addRecord (Nat.lt_of_le_of_lt (s.trapRecorded_filter_length ..) (Nat.succ_lt_succ hroom))

end Sys2Proof.Proofs
end

section
/-! ## Core events (O34)

An interrupt takes back the waits of the strand that it takes (R350). The statement asks for a strand with nothing on its
way to it, and says that memory stays where the strand has no instruction in flight; it does not ask that the strand has
left every object's waiters, and leaving a feed queue writes the link of the popper before it, as in `readyPopper`. -/

namespace Sys2Proof.Machine

/-- The strand of `readyPopper`, with an interrupt pending on its core. -/
def interruptedPopper : State :=
  readyPopper.setCore 0 { readyPopper.core 0 with ipend := 1, cctl := 0xFF00 }

/-- The interrupt clears the link that named the strand. -/
theorem interruptedPopper_taken_byte : (match interruptedPopper.interruptDue 0 with
    | some (k, bare) => interruptedPopper.interrupt 0 k bare
    | none => interruptedPopper).byte (0x1000 + 352) = 0 := by decide +kernel

end Sys2Proof.Machine

namespace Sys2Proof.Proofs

open Sys2Proof.Machine

/-- Refutes O34: an interrupt writes memory where the strand that it takes, ready and with nothing in flight, is still
listed as a popper of a feed queue. -/
theorem not_coreEventsComplete : ¬ Obligations.CoreEventsComplete := by
  unfold Obligations.CoreEventsComplete
  intro h
  have hs : interruptedPopper.man.stopped = false := rfl
  obtain ⟨htaken, -⟩ := h interruptedPopper 0 0 hs
  obtain ⟨t, hexec, -, -, -, -, hmem⟩ := htaken (by decide +kernel) (by decide) rfl nofun (by decide +kernel) rfl
    (by decide +kernel)
  obtain rfl : _ = t := Host.Outcome.next.inj ((event_of_running hs _).symm.trans hexec)
  have hbyte := (interruptedPopper_taken_byte.symm.trans (hmem rfl _) : (0 : Byte) = 1)
  exact absurd hbyte (by decide)

end Sys2Proof.Proofs
end

section
/-! ## Copies at issue, CQSTAT and TDSET (O22) -/

namespace Sys2Proof.Machine

variable {s t : State}

/-! ### The acceptance of a copy (R320, R321) -/

theorem State.Beside.setTag (h : s.Beside t) (core w : Nat) (full : Bool) : s.Beside (t.setTag core w full) :=
  h.trans (of_eq rfl rfl rfl)

/-- The state in which the tags of words have been emptied (R165). -/
def State.emptied (s : State) (ws : List (Nat × Nat)) : State := ws.foldl (fun s x => s.setTag x.1 x.2 false) s

theorem State.Beside.emptied (h : s.Beside t) (ws : List (Nat × Nat)) : s.Beside (t.emptied ws) :=
  h.foldl ws fun _ x h => h.setTag x.1 x.2 false

@[simp] theorem State.myScr_opened (i : Instr) : (s.opened i).myScr = s.myScr :=
  congrArg (Option.map _) (s.block_opened i s.myCore.scrblk)

theorem State.root_of_flight (h : s.me.flight = none) : s.root = s.myCore.xroot := by
  rw [State.root, h]

/-- Steps 1 to 5 of R320 pass. -/
theorem copyChecks_pass {kind : Nat} {rs : List Reg} {k : State → List Word → Res} (hc : s.clean rs)
    (hlimit : copyLimit kind (rs.map s.gv) = none)
    (htrap : (copyRanges kind (rs.map s.gv)).findSome? Range.trapByte = none)
    (halign : copyMisaligned kind (rs.map s.gv) = none)
    (hwindow : ((copyRanges kind (rs.map s.gv)).findSome? fun r => r.windowByte s.issue.core (!s.me.priv)) = none) :
    copyChecks s kind rs k = k s (rs.map s.gv) := by
  unfold copyChecks
  rw [consume_clean hc]
  simp only [hlimit, htrap, halign, hwindow]

/-- With room in the ring the tags of the destination are emptied, and the record and the handle given. -/
theorem acceptCopy_room {kind : Nat} {ops : List Word} {d : Reg} {key : Nat} {b : Block} {h : Word}
    (hf : s.me.flight = none) (hroom : (s.scrQueue key).cmds.length < 2 ^ b.m) :
    let words := (copyDests kind ops).flatMap fun r => r.words s.issue.core
    let u := s.emptied words
    acceptCopy s kind ops d key b h = .done ((u.scrPush key b
      { kind := kind, ops := ops, xroot := u.myCore.xroot, user := !u.me.priv, core := s.issue.core, fut := h,
        emptied := words, pad := 0 }).setG d h false) := by
  intro words u
  have hu : u.me.flight = none := by rw [((State.Beside.refl s).emptied words).me, hf]
  rw [← State.root_of_flight hu]
  exact if_neg (Nat.not_le.mpr hroom)

/-- A copy whose checks pass is the acceptance of its record, once its future is allocated. -/
theorem copyAt_accepted {i : Instr} {kind n : Nat} {d a : Reg} {key : Nat} {b : Block} {h : Word}
    (hc : s.clean (Reg.group a n)) (hf : s.me.flight = none)
    (hlimit : copyLimit kind ((Reg.group a n).map s.gv) = none)
    (htrap : (copyRanges kind ((Reg.group a n).map s.gv)).findSome? Range.trapByte = none)
    (halign : copyMisaligned kind ((Reg.group a n).map s.gv) = none)
    (hwindow : ((copyRanges kind ((Reg.group a n).map s.gv)).findSome? fun r =>
      r.windowByte s.issue.core (!s.me.priv)) = none)
    (hb : s.myScr = some (key, b)) (ha : (s.opened i).allocate s.myCluster 1 = (some h, t)) (hd : s.settled) :
    copyAt (s.opened i) kind n d a = acceptCopy t kind ((Reg.group a n).map s.gv) d key b h := by
  unfold copyAt
  refine (copyChecks_pass (s := s.opened i) hc hlimit htrap halign hwindow).trans ?_
  simp only [State.myScr_opened, hb, State.answer_opened, answer_of_flight hf]
  refine (draining_settled (settled_opened hd) _ _).trans ?_
  simp only [State.myCluster_opened, ha]
  rfl

/-! ### CQSTAT (R327) -/

theorem State.copyStatus_opened (i : Instr) (cl q : Nat) : (s.opened i).copyStatus cl q = s.copyStatus cl q := by
  have hs : ∀ o n, (s.opened i).seen o n = s.seen o n := s.seen_withIssue _
  have hq : (s.opened i).queueReg cl q = s.queueReg cl q := rfl
  simp only [State.copyStatus, State.block_opened, State.blockHead, State.seenWord, hs, hq]
  rfl

theorem exec_cqstat {g : Guard} {d a : Reg} (hi : s.Issues (.cqstat g d a) g) (hc : s.clean [a])
    (hq : (s.gv a).toNat ≤ 24) : exec (.cqstat g d a) s =
      .next (s.gives (.cqstat g d a) d (s.copyStatus s.myCluster (s.gv a).toNat) false) := by
  refine exec_done_of_clean rfl hi hc ?_
  simp only [State.gv_opened, if_neg (Nat.not_lt.mpr hq), State.myCluster_opened, State.copyStatus_opened]
  rfl

/-! ### TDSET (R328) -/

theorem exec_tdset {g : Guard} {k : BitVec 5} {a : Reg} {o : Nat} (hi : s.Issues (.tdset g k a) g) (hc : s.clean [a])
    (ho : s.OwnWords (s.gv a) o 32) (ht : s.tagsReady o 32 true)
    (hp : ∀ w ∈ wordsOf o 32, s.spadPois s.issue.core w = false)
    (hok : tdOk (s.bytes (spadKey s.issue.core o) 32) = true) :
    let bs := s.bytes (spadKey s.issue.core o) 32
    exec (.tdset g k a) s = .next ((s.opened (.tdset g k a)).setCluster s.myCluster { s.cluster s.myCluster with
      tdesc := SMap.put (s.cluster s.myCluster).tdesc none k.toNat
        (if (bs.take 24).all (· == 0) then none else some (BitVec.ofNat 256 (leNat bs))) }).completes := by
  refine exec_done rfl hi ((loadAt_own (clean_opened hc) ho.opened (ht.opened (i := .tdset g k a))).trans ?_)
  simp only [State.bytes_opened, State.issue_core_opened, hok]
  rw [if_neg (by simpa using hp)]
  rfl

end Sys2Proof.Machine

namespace Sys2Proof.Proofs

open Sys2Proof.Machine

/-- Settles O22: the three copies share their checks and their acceptance. -/
theorem copyInstructionsComplete : Obligations.CopyInstructionsComplete := by
  unfold Obligations.CopyInstructionsComplete
  refine ⟨fun s g d a i kind n key b h s1 hkind => ?_, fun s g d a k o hc =>
    ⟨fun hi hq => exec_cqstat hi hc hq, fun hi ho ht hp hok => exec_tdset hi hc ho ht hp hok⟩⟩
  intro ops words emptied hi hc hf hlimit htrap halign hwindow hb ha hroom hd
  have hs1 : s1.me.flight = none := by
    have hbeside := (State.Beside.refl (s.opened i)).allocate s.myCluster 1
    rw [ha] at hbeside
    rw [hbeside.me]
    exact hf
  have hcopy : copyAt (s.opened i) kind n d a = _ :=
    (copyAt_accepted hc hf hlimit htrap halign hwindow hb ha hd).trans (acceptCopy_room hs1 hroom)
  simp only [List.mem_cons, Prod.mk.injEq, List.not_mem_nil, or_false] at hkind
  rcases hkind with ⟨rfl, rfl, rfl⟩ | ⟨rfl, rfl, rfl⟩ | ⟨rfl, rfl, rfl⟩
  · exact exec_done rfl hi hcopy
  · exact exec_done rfl hi hcopy
  · exact exec_done rfl hi hcopy

end Sys2Proof.Proofs
end

section
/-! ## Engine events (O37)

A Loom command that has been stopped or paused goes on from its progress record, which the sequencer reads (R313): that
read meets the check bits of the record (R212). The statement has the command run from the state before that read. -/

namespace Sys2Proof.Machine

/-- A WSWAP that has been paused. -/
def wswapCmd : LoomCmd :=
  { instr := .wswap always, word := 0, core := 0, xroot := 0, user := false, a := 0, b := 0, mw := none, seed := 0,
    rctr := 0, groups := [], fut := 0, records := 1, part := true }

/-- The command at the head of the Loom queue of core 0, whose block lies at 0x200: one bit is to be corrected in the
progress record, at 0x300. The cache of the port holds both lines. -/
def pausedWswap : State :=
  { State.reset with
    mem := [(0x208, 6)]
    latent := [(0x300 / 8, 1)]
    ports := [(0, { lines := [(0x200 / 128, ⟨0, false, 0⟩), (0x300 / 128, ⟨1, false, 0⟩)] })]
    cores := [(0, { started := true, loomblk := 0x200 })]
    loomQ := [(1, ⟨0, 6, [wswapCmd]⟩)] }

theorem pausedWswap_head : pausedWswap.loomHead 0 = some (1, ⟨0x200, 0, 6⟩, wswapCmd) := by decide +kernel

theorem pausedWswap_ready : pausedWswap.loomReady 0 = true := by decide +kernel

/-- The event corrects the bit. -/
theorem pausedWswap_event_latent : (match pausedWswap.loomHead 0 with
    | some (_, _, c) => if pausedWswap.loomReady 0 && (match c.instr with | .wswap .. => true | _ => false)
        then pausedWswap.loomStep 0 else pausedWswap
    | none => pausedWswap).latent = [] := by decide +kernel

/-- Run from the state before the record is read, the command leaves it. -/
theorem pausedWswap_unmet_latent :
    ((pausedWswap.putLoom 0 { pausedWswap.loom 0 with
      warp := (pausedWswap.loom 0).shadow, shadow := (pausedWswap.loom 0).warp }).loomEnds 0 1).latent =
        [(0x300 / 8, 1)] := by decide +kernel

end Sys2Proof.Machine

namespace Sys2Proof.Proofs

open Sys2Proof.Machine

/-- Refutes O37: the read of the progress record of a command that goes on is left out of the statement. -/
theorem not_engineEventsComplete : ¬ Obligations.EngineEventsComplete := by
  unfold Obligations.EngineEventsComplete
  rintro ⟨hevents, -⟩
  have hs : pausedWswap.man.stopped = false := rfl
  obtain ⟨hcommands, -⟩ := hevents pausedWswap 0 0 hs
  obtain ⟨-, hwswap, -⟩ := hcommands 1 ⟨0x200, 0, 6⟩ wswapCmd pausedWswap_head pausedWswap_ready
  have hstate := Host.Outcome.next.inj ((event_of_running hs _).symm.trans (hwswap always rfl))
  have hlatent := pausedWswap_event_latent.symm.trans ((congrArg State.latent hstate).trans pausedWswap_unmet_latent)
  exact absurd hlatent (by decide)

end Sys2Proof.Proofs
end

section
/-! ## Copies run (O38) -/

namespace Sys2Proof.Machine

variable {s : State} {x : CopyCtx} {own : List (Nat × Nat)} {ws : List CopyWord}

/-! ### Words of a copy that lie in scratchpads (R322) -/

theorem State.quiet.engineGot (h : s.quiet x) (elem : Nat) : s.engineGot x elem = none := by
  unfold State.engineGot
  rw [List.find?_eq_none.2 fun r hr => by simp [h r hr]]
  rfl

theorem State.takes.checkTag {k o n : Nat} (h : s.takes own k o n) : s.checkTag k (o / 8) = s := by
  simp [State.checkTag, h.1 _ List.mem_cons_self]

theorem State.takes.checkWords {k o n : Nat} (h : s.takes own k o n) : s.checkWords k (wordsOf o n) = s :=
  checkWords_sound fun w hw => h.1 w (List.mem_cons_of_mem _ hw)

/-- The words are read in their order, and nothing changes. -/
theorem State.copyReads_spads {cls n : Nat} (hq : s.quiet x) {vas : List Nat} {acc : ReadList}
    (h : ∀ va ∈ vas, ∃ k o, s.copySpot x .read va = (.spad k o, s) ∧ s.takes own k o n) :
    s.copyReads x own cls n acc false vas = .ok (acc.reverse ++ vas.map (s.copyGot x n)) s := by
  induction vas generalizing acc with
  | nil => simp [State.copyReads]
  | cons va r ih =>
    obtain ⟨k, o, hspot, ht⟩ := h va List.mem_cons_self
    have hown : (own.contains (k, o / 8) || s.tagsAllow k [o / 8] true s.nextId) = true := by simpa using ht.2
    have hgot : s.copyGot x n va =
        (va, leNat (s.bytes (spadKey k o) n), ((wordsOf o n).map (s.spadPois k)).any id) := by
      rw [State.copyGot, hspot]
    rw [State.copyReads, hspot]
    simp only [ht.checkTag, hq.engineGot, hown, if_true, State.copyFetch, State.readSpad, ht.checkWords]
    rw [ih fun va hv => h va (List.mem_cons_of_mem _ hv), List.map_cons, hgot, List.reverse_cons, List.append_assoc]
    rfl

/-- The store of a word of a copy whose reads gave `vals`. -/
def State.copyStoreOf (s : State) (x : CopyCtx) (vals : ReadList) (w : CopyWord) : CopyStore :=
  ⟨w.dst, (w.value vals).1, (w.value vals).2, (s.copySpot x .write w.dst).1⟩

section
variable {vals : ReadList} (h : ∀ w ∈ ws, ∃ k o, s.copySpot x .write w.dst = (.spad k o, s))
include h

theorem State.copyStores_spads : s.copyStores x vals ws = (ws.map (s.copyStoreOf x vals), none, s) := by
  induction ws with
  | nil => rfl
  | cons w r ih =>
    obtain ⟨k, o, hspot⟩ := h w List.mem_cons_self
    rw [State.copyStores, hspot]
    simp only [Bool.false_and, Bool.false_eq_true, if_false, ih fun w hw => h w (List.mem_cons_of_mem _ hw),
      List.map_cons, State.copyStoreOf, hspot]

theorem State.copyFar_spads : s.copyFar x (ws.map (s.copyStoreOf x vals)) = (false, s) := by
  induction ws with
  | nil => rfl
  | cons w r ih =>
    obtain ⟨k, o, hspot⟩ := h w List.mem_cons_self
    rw [List.map_cons, State.copyFar]
    simp only [State.copyStoreOf, hspot]
    exact ih fun w hw => h w (List.mem_cons_of_mem _ hw)

end

theorem State.quiet.farFault (h : s.quiet x) (l : List CopyStore) : s.farFault x l = none := by
  unfold State.farFault
  refine List.findSome?_eq_none_iff.2 fun w _ => ?_
  rw [h.engineGot]

/-- A copy whose words are at hand moves them all. -/
theorem State.CopyHere.moveWords (h : s.CopyHere x own ws) :
    s.moveWords x own ws = .done (8 * ws.length) (s.copied x ws) := by
  unfold State.moveWords
  simp only [State.copyReads_spads h.quiet h.reads, List.reverse_nil, List.nil_append, State.copyStores_spads h.writes,
    State.copyFar_spads h.writes, h.quiet.farFault]
  rfl

/-! ### The heads of the queues (R316, R323) -/

/-- No destination in the global region lies on a V page (R256). -/
theorem State.firstOnV_near {core : Nat} {root : Word} {vas : List Nat}
    (h : ∀ va ∈ vas, regionOf core (BitVec.ofNat 64 va) ≠ .global) : s.firstOnV core root vas = (none, s) := by
  induction vas with
  | nil => rfl
  | cons va r ih =>
    have hva := h va List.mem_cons_self
    rw [State.firstOnV]
    split
    · exact absurd ‹_› hva
    · exact ih fun va hv => h va (List.mem_cons_of_mem _ hv)

section
variable {cl q key : Nat} {c : CopyCmd}

theorem State.runCopy_near {t : State}
    (hn : ∀ va ∈ copyDsts c.kind c.ops, regionOf x.core (BitVec.ofNat 64 va) ≠ .global)
    (hk : c.kind ≠ 2) (h : t.CopyHere x c.emptied (copyWords c.kind c.ops [])) :
    t.runCopy x c = .done (8 * (copyWords c.kind c.ops []).length) (t.copied x (copyWords c.kind c.ops [])) := by
  unfold State.runCopy
  simp only [State.firstOnV_near hn, if_neg hk, h.moveWords]

/-- A gather reads its indices, and then moves the words that they name. -/
theorem State.runCopy_gather {t : State} {ix : List Word}
    (hn : ∀ va ∈ copyDsts c.kind c.ops, regionOf x.core (BitVec.ofNat 64 va) ≠ .global) (hk : c.kind = 2)
    (hq : t.quiet x) (hi : ∀ va ∈ indexAddrs c.ops, ∃ k o, t.copySpot x .read va = (.spad k o, t) ∧
      t.takes c.emptied k o (indexSize (opOf c.ops 3)))
    (hp : ∀ y ∈ (indexAddrs c.ops).map (t.copyGot x (indexSize (opOf c.ops 3))), y.2.2 = false)
    (hix : ix = ((indexAddrs c.ops).map (t.copyGot x (indexSize (opOf c.ops 3)))).map fun y => BitVec.ofNat 64 y.2.1)
    (hb : gatherBad x c.ops ix = none) (h : t.CopyHere x c.emptied (copyWords 2 c.ops ix)) :
    t.runCopy x c = .done (8 * (copyWords 2 c.ops ix).length) (t.copied x (copyWords 2 c.ops ix)) := by
  have hpoison : ((indexAddrs c.ops).map (t.copyGot x (indexSize (opOf c.ops 3)))).find? (fun y => y.2.2) = none :=
    List.find?_eq_none.2 fun y hy => by simp [hp y hy]
  unfold State.runCopy State.gatherWords
  simp only [State.firstOnV_near hn, if_pos hk, State.copyReads_spads hq hi, List.reverse_nil, List.nil_append, hpoison,
    ← hix, hb, h.moveWords]

/-- A copy that has run to its end completes. -/
theorem State.serveCopy_done {t u : State} {n : Nat} (hs : s.mayStart c.fut = true) (ht : t = (s.startFuture c.fut).2)
    (h : t.runCopy ⟨c.core, c.xroot, c.user, cl, q, c.fut.toNat⟩ c = .done n u) :
    s.serveCopy cl q key c = u.copyEnds ⟨c.core, c.xroot, c.user, cl, q, c.fut.toNat⟩ key c.fut n := by
  subst ht
  unfold State.serveCopy
  simp only [hs, Bool.not_true, Bool.false_eq_true, if_false, h]
  rfl

theorem scrEvent_head (hh : s.scrHead cl q = some (key, c)) {kind : Nat} (hk : c.kind = kind) :
    s.scrEvent cl q kind = s.serveCopy cl q key c := by
  unfold State.scrEvent
  rw [hh]
  exact if_pos hk

end

/-! ### Tiles (R329, R330) -/

section
variable {cl key : Nat} {c : CopyCmd}

theorem exec_tilePrefetch (hs : s.man.stopped = false) (hh : s.scrHead cl 24 = some (key, c)) :
    exec (.tilePrefetch cl) s = .next (s.serveTile cl key c) := by
  refine (event_of_running hs _).trans ?_
  rw [hh]

/-- A tile whose prefetch has ended fills its words with poison. -/
theorem State.serveTile_none (h : (s.core c.core).prefetchOf c.fut = none) :
    s.serveTile cl key c = ((s.spoilRest c.emptied []).scrPop key).scrServed cl 24 := by
  unfold State.serveTile
  simp only [h]

/-- A tile that cannot move ends its task's prefetch. -/
theorem State.serveTile_code {d : Desc} {y : Nat × Nat} {f : Code} (h : (s.core c.core).prefetchOf c.fut = some (d, y))
    (hf : c.tileCode = some f) : s.serveTile cl key c =
      (((s.spoilRest c.emptied []).scrPop key).scrServed cl 24).prefetchFault cl c.core d f 0 := by
  unfold State.serveTile
  simp only [h, hf]

theorem CopyCmd.tileCode_bad (h : c.bad = true) : c.tileCode = some 0x4C03 := if_pos h

theorem CopyCmd.tileCode_good (h : c.bad = false) : c.tileCode = tileFault (opOf c.ops 0) c.tile := by
  have hw : c.ops.headD 0 = opOf c.ops 0 := by
    unfold opOf
    cases c.ops <;> rfl
  rw [CopyCmd.tileCode, h, hw]
  rfl

/-- A tile whose words are at hand lands. -/
theorem State.serveTile_lands {d : Desc} {slot n : Nat} {e : BitVec 256} {x : CopyCtx}
    (hx : x = ⟨c.core, c.xroot, true, cl, 24, 32 * c.fut.toNat + n⟩)
    (h : (s.core c.core).prefetchOf c.fut = some (d, slot, n)) (hf : c.tileCode = none) (he : c.tile = some e)
    (hm : s.CopyHere x c.emptied (tileWords e (opOf c.ops 0))) :
    let u := (((s.copied x (tileWords e (opOf c.ops 0))).dropAnswers x).scrPop key).scrServed cl 24
    s.serveTile cl key c = u.setCore c.core ((u.core c.core).tileLanded c.fut) := by
  subst hx
  unfold State.serveTile
  simp only [h, hf, he, Option.getD_some, hm.moveWords]

theorem Core.prefetchOf_tileLanded (k : Core) (self : Word) :
    (k.tileLanded self).prefetchOf self = (k.prefetchOf self).map fun y => (y.1, y.2.1, y.2.2 + 1) := by
  unfold Core.tileLanded Core.prefetchOf
  dsimp only
  induction k.prefetch with
  | nil => rfl
  | cons y r ih =>
    rw [List.map_cons]
    by_cases hy : y.1.self = self
    · rw [if_pos hy, List.find?_cons_of_pos (by simp [hy]), List.find?_cons_of_pos (by simp [hy])]
      rfl
    · rw [if_neg hy, List.find?_cons_of_neg (by simp [hy]), List.find?_cons_of_neg (by simp [hy]), ih]

end

end Sys2Proof.Machine

namespace Sys2Proof.Proofs

open Sys2Proof.Machine

/-- Settles O38: a copy whose words are at hand is a pass over its reads and one over its writes; a tile is one, or ends
before it moves. -/
theorem copiesRun : Obligations.CopiesRun := by
  unfold Obligations.CopiesRun
  intro s cl q key c hs hh
  refine ⟨fun hstart => ?_, fun hq => ?_⟩
  · intro t x near ends
    have done {i : Instr} {ws : List CopyWord} {kind : Nat} (hk : c.kind = kind)
        (he : exec i s = event s (s.scrEvent cl q kind))
        (hrun : t.runCopy x c = .done (8 * ws.length) (t.copied x ws)) : ends i ws := by
      have h := he.trans (event_of_running hs _)
      rw [scrEvent_head hh hk, State.serveCopy_done hstart rfl hrun] at h
      exact h
    refine ⟨fun hk hn h => ?_, fun hk hn h => ?_, fun hk hn => ?_⟩
    · rw [← hk] at h ⊢
      exact done hk rfl (State.runCopy_near hn (by rw [hk]; decide) h)
    · rw [← hk] at h ⊢
      exact done hk rfl (State.runCopy_near hn (by rw [hk]; decide) h)
    · intro size got ix hi hp hb h
      exact done hk rfl (State.runCopy_gather hn hk h.quiet hi hp rfl hb h)
  · intro gone
    subst hq
    have serves := exec_tilePrefetch hs hh
    refine ⟨fun h => ?_, fun d slot n h => ?_⟩
    · rw [serves, State.serveTile_none h]
    intro w
    refine ⟨fun hb => ?_, fun hb f hf => ?_, fun hb e he hf hm => ⟨?_, Core.prefetchOf_tileLanded ..⟩⟩
    · rw [serves, State.serveTile_code h (CopyCmd.tileCode_bad hb)]
    · rw [serves, State.serveTile_code h ((CopyCmd.tileCode_good hb).trans hf)]
    · rw [serves, State.serveTile_lands rfl h ((CopyCmd.tileCode_good hb).trans hf) he hm]

end Sys2Proof.Proofs
end


section
/-! ## Links and forwarding (O44) -/

namespace Sys2Proof.Machine

variable {s : State}

/-! ### Ready bits and route words (R382, R387, R404) -/

theorem State.unready_ready (b j : Nat) :
    (s.unready b).man.ready.getLsbD j = (s.man.ready.getLsbD j && decide (j ≠ b)) := by
  change (s.man.ready &&& ~~~(BitVec.ofNat 21 (2 ^ b))).getLsbD j = _
  rw [BitVec.getLsbD_and, BitVec.getLsbD_not, BitVec.getLsbD_ofNat, Nat.testBit_two_pow]
  by_cases hj : j < 21
  · simp [hj, eq_comm]
  · simp [BitVec.getLsbD_of_ge _ _ (Nat.not_lt.1 hj)]

theorem State.setFeature_route (m k : Nat) (w : Word) : (s.setFeature m w).route k =
    if k = m then (s.route m &&& 0x0000FFFFFFFFFFFF) ||| (w <<< 48) else s.route k := by
  unfold State.route State.setFeature
  exact SMap.get_put _ _ _ _ _

theorem pathMask_getElem {i : Nat} (h : i < 64) : (0x0000FFFFFFFFFFFF#64)[i] = decide (i < 48) := by
  rw [BitVec.getElem_eq_testBit_toNat]
  exact Nat.testBit_two_pow_sub_one 48 i

/-- The upper 16 bits of a route word are its feature word. -/
theorem feature_of_routeWord (r : Word) (w : BitVec 16) :
    ((r &&& 0x0000FFFFFFFFFFFF) ||| (w.setWidth 64 <<< 48)).extractLsb' 48 16 = w := by
  ext i hi
  have hmask := pathMask_getElem (i := 48 + i) (by omega)
  rw [decide_eq_false (by omega)] at hmask
  simp [BitVec.getLsbD_eq_getElem, hi, hmask, show 48 + i < 64 by omega]

/-- The paths of a route word stand below its feature word. -/
theorem paths_of_routeWord (r : Word) (w : BitVec 16) :
    ((r &&& 0x0000FFFFFFFFFFFF) ||| (w.setWidth 64 <<< 48)).extractLsb' 0 48 = r.extractLsb' 0 48 := by
  ext i hi
  have hmask := pathMask_getElem (i := i) (by omega)
  rw [decide_eq_true hi] at hmask
  simp [BitVec.getLsbD_eq_getElem, hi, hmask, show i < 64 by omega]

/-! ### Links (R385) -/

theorem State.setLink_link (l j : Nat) (x : Link) :
    (s.setLink l x).link j = if j = l then x else s.link j :=
  SMap.get_put _ _ _ _ _

theorem State.anyLink_iff : s.anyLink = true ↔ ∃ j, j < 36 ∧ s.linkUp j = true := by
  simp [State.anyLink]

theorem State.link_congr {t : State} (h : t.man.links = s.man.links) (l : Nat) : t.link l = s.link l := by
  rw [State.link, State.link, h]

/-- After a link has gone down, another that was up is all that keeps the module on the fabric. -/
theorem State.anyLink_down {l : Nat} {x : Link} {t : State} (hx : x.state = 1)
    (ht : t.man.links = (s.setLink l x).man.links) :
    t.anyLink = true ↔ ∃ j, j < 36 ∧ j ≠ l ∧ s.linkUp j = true := by
  have hlink := fun j => (State.link_congr ht j).trans (State.setLink_link l j x)
  have hup : ∀ j, t.linkUp j = true ↔ j ≠ l ∧ s.linkUp j = true := by
    intro j
    rw [State.linkUp, hlink]
    by_cases hj : j = l
    · simp [hj, hx]
    · simp [hj, State.linkUp]
  simp only [State.anyLink_iff, hup]

/-! ### A packet that is sent leaves the links as they are -/

/-- The links of `t` stand as those of `s`. -/
def State.SameLinks (s t : State) : Prop := t.man.links = s.man.links

theorem State.SameLinks.trans {t u : State} (h : s.SameLinks t) (h' : t.SameLinks u) : s.SameLinks u :=
  Eq.trans h' h

theorem State.sameLinks_foldl {α : Type} (f : State → α → State) (hf : ∀ (t : State) (a : α), t.SameLinks (f t a))
    (l : List α) : s.SameLinks (l.foldl f s) := by
  induction l generalizing s with
  | nil => exact rfl
  | cons a l ih => exact (hf s a).trans ih

theorem State.sameLinks_emit (p : Packet) : s.SameLinks (s.emit p) := by
  unfold State.emit
  split <;> rfl

theorem State.sameLinks_sendPacket (cl m path : Nat) (op : PktOp) (pa : Nat) (bs : List Byte) (oflag : Bool)
    (aux : BitVec 7) (args : List Word) :
    s.SameLinks (s.sendPacket cl m path op pa bs oflag aux args).2 :=
  State.sameLinks_emit (s := { s with nextTag := (s.nextTag + 1) % 65536 }) _

theorem State.sameLinks_sendReq (r : Req) : s.SameLinks (s.sendReq r) := by
  unfold State.sendReq
  split
  · next m _ =>
    dsimp only
    split
    · rfl
    · next p _ =>
      have hsent := State.sameLinks_sendPacket (s := s) (clusterOf r.core) m p (reqPktOp r.op) r.pa
        (reqBytes r.op r.size) r.oflag (reqAux r.op) (reqArgs r)
      split <;> exact hsent.trans rfl
  · rfl

theorem State.sameLinks_sendStore (core : Nat) (e : WbEntry) (m path : Nat) :
    s.SameLinks (s.sendStore core e m path) := by
  unfold State.sendStore
  dsimp only
  split <;> exact (State.sameLinks_sendPacket _ _ _ _ _ _ _ _ _).trans rfl

theorem State.sameLinks_pump (core n : Nat) : s.SameLinks (s.pump core n) := by
  induction n generalizing s with
  | zero => rfl
  | succ n ih =>
    unfold State.pump
    split
    · rfl
    · exact (State.sameLinks_sendStore _ _ _ _).trans ih

theorem State.sameLinks_resend : s.SameLinks s.resend := by
  refine State.SameLinks.trans (State.sameLinks_foldl _ (fun t r => ?_) _)
    (State.sameLinks_foldl _ (fun t x => State.sameLinks_pump _ _) _)
  split
  · exact State.sameLinks_sendReq r
  · rfl

/-! ### Forwarding (R383, R384) -/

theorem State.lastOn_none {l : Nat} (h : ∀ x ∈ s.fabricOut, x.1 ≠ l) (p : Packet) : s.lastOn l p = none := by
  have hempty : (((List.range s.fabricOut.length).zip s.fabricOut).filter fun x =>
      x.2.1 == l && x.2.2.hop == p.hop && x.2.2.isRequest == p.isRequest) = [] := by
    refine List.filter_eq_nil_iff.2 fun x hx => ?_
    have := h _ (List.of_mem_zip hx).2
    simp [this]
  simp only [State.lastOn, hempty, List.getLast?_nil, Option.map_none]

/-- The state that has sent a packet on, `b` telling that its queue was busy (R390). -/
def State.sentOn (s : State) (p : Packet) (q : Nat) (b : Bool) : State :=
  { s with
    fresh := s.fresh + 1,
    fabricOut := s.fabricOut ++ [(pathLink (s.route p.dst.toNat) q,
      { p with hop := p.hop + 1, mark := p.mark || (p.isRequest && b) })] }

theorem State.forward_eq {p : Packet} {q : Nat} (hhop : p.hop < 5) (hq : s.forwardPath p = some q)
    (hl : ∀ x ∈ s.fabricOut, x.1 ≠ pathLink (s.route p.dst.toNat) q) :
    s.forward p = s.sentOn p q (Config.queueBusy s.fresh) := by
  unfold State.forward
  rw [if_neg (Nat.not_le.2 hhop), hq]
  dsimp only
  rw [State.lastOn_none (s := { s with fresh := s.fresh + 1 }) hl]
  dsimp only [State.emit]
  rw [show State.usablePath { s with fresh := s.fresh + 1 } p.dst.toNat p.path = some q from hq]
  rfl

theorem State.forward_discards {p : Packet} (h : 5 ≤ p.hop ∨ s.forwardPath p = none) :
    s.forward p = s.record 0x6A05 0xFFFF 0 := by
  unfold State.forward
  split
  · rfl
  · next hhop => rw [h.resolve_left hhop]

/-! ### Links that fall and rise (R385) -/

/-- The state after a link has fallen, but for the fabric's ready bit. -/
def State.linkLost (s : State) (l : Nat) : State :=
  let s := (s.setLink l { s.link l with state := 1 }).record 0x4A02 (0x09B0 + l) 0
  { s with fabricOut := s.fabricOut.filter fun x => x.1 != l }

theorem State.linkLost_link (l j : Nat) :
    (s.linkLost l).link j = if j = l then { s.link l with state := 1 } else s.link j :=
  State.setLink_link l j _

theorem State.linkLost_history (l : Nat) :
    (s.linkLost l).man.history = (s.record 0x4A02 (0x09B0 + l) 0).man.history := by
  rfl

theorem exec_linkDown {l : Nat} (h : s.man.stopped = false) (hl : l < 36) (hup : s.linkUp l = true) :
    exec (.linkDown l) s =
      .next (if (s.linkLost l).anyLink then s.linkLost l else (s.linkLost l).unready 18) :=
  (event_of_running h _).trans (by rw [if_pos ⟨hl, hup⟩]; rfl)

/-- The state after a link has come up, before what waited for it is sent. -/
def State.linkRaised (s : State) (l : Nat) : State :=
  let x := s.link l
  let t := (s.setLink l { x with state := 2, retrains := x.retrains + (if x.state = 1 then 1 else 0) }).setFeature
    s.modNo.toNat ownFeatures
  if x.state = 1 then t.record 0x0A06 (0x09B0 + l) 0 else t

theorem exec_linkUp {l : Nat} (h : s.man.stopped = false) (hl : l < 36) (hup : s.linkUp l = false)
    (hf : s.feature 1 = true) (hr : s.man.running = true) :
    exec (.linkUp l) s = .next (s.linkRaised l).resend :=
  (event_of_running h _).trans (by
    rw [if_neg (by simp [hup, hf, hr, hl])]
    rfl)

theorem State.linkRaised_link (l : Nat) : (s.linkRaised l).link l =
    { s.link l with
      state := 2, retrains := (s.link l).retrains + (if (s.link l).state = 1 then 1 else 0) } := by
  unfold State.linkRaised
  dsimp only
  split <;> exact (State.setLink_link l l _).trans (if_pos rfl)

/-- The state after a die boundary has failed (R378). -/
theorem exec_dieBoundaryFailure {b : Nat} (h : s.man.stopped = false) (hb : b < 4) :
    ∃ (x : Boundary) (n : Nat), x.state = 2 ∧ exec (.dieBoundaryFailure b) s = .next
      ((State.record { s with fresh := n, man := { s.man with
        boundaries := SMap.put s.man.boundaries {} b x } } 0x8A01 (0x09A0 + b) 0).unready (14 + b)) :=
  ⟨_, _, rfl, (event_of_running h _).trans (by rw [if_pos hb])⟩

end Sys2Proof.Machine

namespace Sys2Proof.Proofs

open Sys2Proof.Machine

/-- Settles O44, event by event: what is sent on or after a link has come up leaves the links as they
are. -/
theorem linksAndForwardingComplete : Obligations.LinksAndForwardingComplete := by
  unfold Obligations.LinksAndForwardingComplete
  intro s p l m w hs
  refine ⟨fun hdst hgone => ?discarded, fun hdst hhop q hq => ?forwarded, fun hl hup => ?linkDown,
    fun hl hup hf hr => ?linkUp, ?feature, fun hl => ?boundary⟩
  case discarded =>
    exact (event_of_running hs _).trans (by rw [if_neg hdst, State.forward_discards hgone])
  case forwarded =>
    intro link hfree
    refine ⟨s.sentOn p q (Config.queueBusy s.fresh), Config.queueBusy s.fresh,
      (event_of_running hs _).trans ?_, rfl, rfl, rfl⟩
    rw [if_neg hdst, State.forward_eq hhop hq hfree]
  case linkDown =>
    have hany := State.anyLink_down (s := s) (l := l) (x := { s.link l with state := 1 })
      (t := s.linkLost l) rfl rfl
    have hself := (State.linkLost_link (s := s) l l).trans (if_pos rfl)
    have hother := fun j (hj : j ≠ l) => (State.linkLost_link (s := s) l j).trans (if_neg hj)
    have hhist := State.linkLost_history (s := s) l
    refine ⟨_, exec_linkDown hs hl hup, ?_⟩
    by_cases hleft : (s.linkLost l).anyLink = true
    · rw [if_pos hleft]
      exact ⟨congrArg Link.state hself, (congrArg Link.errors hself).trans rfl, hhist, rfl, hother,
        ⟨fun h => ⟨h, hany.1 hleft⟩, fun h => h.1⟩, fun b _ => rfl⟩
    · rw [if_neg hleft]
      refine ⟨congrArg Link.state hself, (congrArg Link.errors hself).trans rfl, hhist, rfl, hother,
        ⟨fun h => ?_, fun h => absurd (hany.2 h.2) hleft⟩, fun b hb => ?_⟩
      · rw [State.unready_ready, decide_eq_false (not_not.2 rfl), Bool.and_false] at h
        cases h
      · rw [State.unready_ready, decide_eq_true hb, Bool.and_true]
        rfl
  case linkUp =>
    refine ⟨_, exec_linkUp hs hl hup hf hr, ?_⟩
    rw [State.link_congr State.sameLinks_resend, State.linkRaised_link]
    exact ⟨rfl, rfl⟩
  case feature =>
    refine ⟨_, event_of_running hs _, ?_, ?_, fun k hk => ?_⟩
    · rw [State.setFeature_route, if_pos rfl, feature_of_routeWord]
    · rw [State.setFeature_route, if_pos rfl, paths_of_routeWord]
    · rw [State.setFeature_route, if_neg hk]
  case boundary =>
    obtain ⟨x, n, hx, he⟩ := exec_dieBoundaryFailure hs hl
    refine ⟨_, he, ?_, rfl, ?_, fun b hb => ?_⟩
    · exact (congrArg Boundary.state (SMap.get_put_self _ _ _ _)).trans hx
    · simp [State.unready_ready]
    · rw [State.unready_ready, decide_eq_true hb, Bool.and_true]
      rfl

end Sys2Proof.Proofs
end


section
/-! ## The module's own events (O46) -/

namespace Sys2Proof.Machine

variable {s : State}

/-! ### Ready bits and stacks (R404) -/

/-- The ready bits after a function has set its own. -/
theorem ready_set (r : BitVec 21) {b : Nat} (hb : b < 21) (j : Nat) :
    (r ||| BitVec.ofNat 21 (2 ^ b)).getLsbD j = (r.getLsbD j || decide (j = b)) := by
  rw [BitVec.getLsbD_or, BitVec.getLsbD_ofNat, Nat.testBit_two_pow]
  by_cases hj : j = b
  · simp [hj, hb]
  · simp [hj, Ne.symm hj]

theorem State.setStack_stack (k j : Nat) (x : Stack) :
    (s.setStack k x).stack j = if j = k then x else s.stack j :=
  SMap.get_put _ _ _ _ _

/-- What a function that comes up leaves alone. -/
theorem State.bringUp_keeps (b : Nat) :
    (s.bringUp b).mem = s.mem ∧ (s.bringUp b).cores = s.cores ∧ (s.bringUp b).man.ready = s.man.ready := by
  unfold State.bringUp
  split
  · exact ⟨rfl, rfl, rfl⟩
  · split <;> exact ⟨rfl, rfl, rfl⟩

theorem exec_functionReady {b : Nat} (h : s.man.stopped = false) (hb : s.mayReady b = true) :
    exec (.functionReady b) s = .next { s.bringUp b with man :=
      { (s.bringUp b).man with ready := (s.bringUp b).man.ready ||| BitVec.ofNat 21 (2 ^ b) } } :=
  (event_of_running h _).trans (by rw [if_pos hb])

/-! ### Firmware (R411, R413) -/

theorem exec_powerOn (h : s.man.stopped = false) (hr : s.man.running = false) (hm : s.man.mgmtOnly = false) :
    exec .powerOn s = .next s.boot :=
  (event_of_running h _).trans (by simp [hr, hm])

/-! ### Attestation (R412) -/

theorem State.spdmAnswer_ready (h : s.man.ready.getLsbD 20 = true) (code : Nat) (body : List Byte) :
    (s.spdmAnswer code body).man.spdm = s.man.spdm ++ [Config.spdmBody code body] ∧
      (s.spdmAnswer code body).mem = s.mem ∧ (s.spdmAnswer code body).cores = s.cores := by
  unfold State.spdmAnswer
  rw [if_pos h]
  exact ⟨rfl, rfl, rfl⟩

/-! ### A module that has stopped (R415) -/

theorem step_of_stopped {i : Instr} (h : s.man.stopped = true) (hin : s.inbox = [i]) (hi : i ≠ .moduleReset) :
    step s = .fault .moduleStopped := by
  unfold step State.stoppedStep
  rw [if_pos h, hin]
  split
  · next heq => exact absurd (List.cons.inj heq).1 hi
  · rfl

end Sys2Proof.Machine

namespace Sys2Proof.Proofs

open Sys2Proof.Machine

/-- Settles O46, event by event. -/
theorem moduleEventsComplete : Obligations.ModuleEventsComplete := by
  unfold Obligations.ModuleEventsComplete
  intro s image hs
  have attests : ∀ (i : Instr) (code : Nat) (body : List Byte),
      exec i s = event s (s.spdmAnswer code body) → s.man.ready.getLsbD 20 = true → ∃ t : State,
        exec i s = .next t ∧ t.man.spdm = s.man.spdm ++ [Config.spdmBody code body] ∧
          t.mem = s.mem ∧ t.cores = s.cores :=
    fun i code body he hr => ⟨_, he.trans (event_of_running hs _), State.spdmAnswer_ready hr code body⟩
  intro fresh kept spdm
  refine ⟨fun hf hg => ?powerOn, fun hf hg => ?powerOnBad, fun hm hg => ?load, fun hv => ?update,
    fun hv => ?updateBad, fun b hb hr => ?ready, attests _ _ _ rfl, attests _ _ _ rfl, attests _ _ _ rfl,
    attests _ _ _ rfl, attests _ _ _ rfl, attests _ _ _ rfl, attests _ _ _ rfl, fun ht => ?throttle,
    fun ht => ?throttleEnd, ?shutdown, fun k hk => ?stack, ?reset⟩
  case powerOn =>
    refine ⟨_, exec_powerOn hs hf.1 hf.2, ?_⟩
    rw [State.boot, if_pos hg]
    exact ⟨rfl, hf.2, rfl, rfl⟩
  case powerOnBad =>
    refine ⟨_, exec_powerOn hs hf.1 hf.2, ?_⟩
    rw [State.boot, if_neg (ne_true_of_eq_false hg)]
    exact ⟨hf.1, rfl, rfl, rfl, rfl⟩
  case load =>
    refine ⟨_, (event_of_running hs _).trans (congrArg _ (if_pos ?_)), rfl, rfl, rfl, rfl⟩
    rw [hm, hg]
    rfl
  case update =>
    exact ⟨_, (event_of_running hs _).trans (congrArg _ (if_neg (Nat.not_lt.2 hv))), rfl, rfl, rfl, rfl⟩
  case updateBad => exact (event_of_running hs _).trans (congrArg _ (if_pos hv))
  case ready =>
    obtain ⟨hmem, hcores, hold⟩ := State.bringUp_keeps (s := s) b
    refine ⟨_, exec_functionReady hs hr, ?_, fun j hj => ?_, hmem, hcores⟩
    · rw [ready_set _ hb, decide_eq_true rfl, Bool.or_true]
    · rw [ready_set _ hb, decide_eq_false hj, Bool.or_false, hold]
  case throttle =>
    exact ⟨_, (event_of_running hs _).trans (congrArg _ (if_neg (ne_true_of_eq_false ht))), rfl, rfl, rfl, rfl⟩
  case throttleEnd => exact ⟨_, (event_of_running hs _).trans (congrArg _ (if_pos ht)), rfl, rfl, rfl, rfl⟩
  case shutdown =>
    exact ⟨_, event_of_running hs _, rfl, rfl, ⟨rfl, rfl⟩, fun i hi => step_of_stopped rfl rfl hi⟩
  case stack =>
    refine ⟨_, (event_of_running hs _).trans (congrArg _ (if_pos hk)), ?_, fun j hj => ?_, ?_, fun b hb => ?_,
      rfl, rfl⟩
    · exact congrArg Stack.state ((State.setStack_stack (s := s) k k { s.stack k with state := 2 }).trans (if_pos rfl))
    · exact (State.setStack_stack (s := s) k j { s.stack k with state := 2 }).trans (if_neg hj)
    · rw [State.unready_ready, decide_eq_false (not_not.2 rfl), Bool.and_false]
    · rw [State.unready_ready, decide_eq_true hb, Bool.and_true]
      rfl
  case reset => exact ⟨_, rfl, rfl, rfl, rfl, rfl, rfl, rfl⟩

end Sys2Proof.Proofs
end


section
/-! ## What the accesses of Dispatch leave of its own state -/

namespace Sys2Proof.Machine

variable {s t u : State}

/-- State `t` has come from `s` beside Dispatch: its queues, units and semaphores and the module's number stand, and
no record of the fault history has been taken back. -/
structure State.OffDispatch (s t : State) : Prop where
  disp : t.disp = s.disp
  modNo : t.modNo = s.modNo
  written : s.man.written ≤ t.man.written

namespace State.OffDispatch

theorem refl (s : State) : s.OffDispatch s := ⟨rfl, rfl, le_rfl⟩

theorem trans (h : s.OffDispatch t) (k : t.OffDispatch u) : s.OffDispatch u :=
  ⟨k.disp.trans h.disp, k.modNo.trans h.modNo, h.written.trans k.written⟩

theorem of_eq (hd : t.disp = s.disp) (hm : t.modNo = s.modNo) (hw : t.man.written = s.man.written) :
    s.OffDispatch t :=
  ⟨hd, hm, hw.ge⟩

theorem foldl {α : Type} {f : State → α → State} (h : s.OffDispatch t) (l : List α)
    (hf : ∀ (u : State) a, s.OffDispatch u → s.OffDispatch (f u a)) : s.OffDispatch (l.foldl f t) :=
  foldl_keeps s.OffDispatch f hf l t h

theorem queue (h : s.OffDispatch t) (n : Nat) : t.queue n = s.queue n := by
  rw [State.queue, State.queue, h.disp]

theorem placeOf (h : s.OffDispatch t) (pa : Nat) : t.placeOf pa = s.placeOf pa := by
  rw [State.placeOf, State.placeOf, h.modNo]

theorem record (h : s.OffDispatch t) (c : Code) (l v : Nat) : s.OffDispatch (t.record c l v) :=
  h.trans ⟨rfl, rfl, Nat.le_succ _⟩

theorem caches (h : s.OffDispatch t) (k : t.CachesOnly u) : s.OffDispatch u := by
  obtain ⟨l, ps, rfl, -⟩ := k
  exact h.trans (of_eq rfl rfl rfl)

/-! ### HBM read and written (R210 to R212, R224, R269) -/

theorem checkGran (h : s.OffDispatch t) (g : Nat) : s.OffDispatch (t.checkGran g) := by
  refine h.trans ?_
  unfold State.checkGran
  dsimp only
  split
  · exact of_eq rfl rfl rfl
  · split
    · exact ⟨rfl, rfl, Nat.le_succ _⟩
    · split
      · exact of_eq rfl rfl rfl
      · exact refl _

theorem readHbm (h : s.OffDispatch t) (o n : Nat) : s.OffDispatch (t.readHbm o n).2.2 :=
  h.foldl _ fun _ g h => h.checkGran g

theorem writeGrans (h : s.OffDispatch t) (o : Nat) (bs : List Byte) : s.OffDispatch (t.writeGrans o bs) := by
  have hg := h.foldl (gransOf o bs.length) (f := fun s g =>
    if o ≤ 32 * g ∧ 32 * g + 32 ≤ o + bs.length then
      { s with latent := SMap.put s.latent 0 (4 * g) 0 }.setGranPois g false
    else s.checkGran g) fun u g hu => by
      split
      · exact hu.trans (of_eq rfl rfl rfl)
      · exact hu.checkGran g
  exact hg.trans (of_eq rfl rfl rfl)

theorem loseRecords (h : s.OffDispatch t) (o n : Nat) : s.OffDispatch (t.loseRecords o n) := by
  unfold State.loseRecords
  dsimp only
  refine (h.foldl _ fun u x h => ?_).foldl _ fun u x h => ?_ <;>
  · split
    · exact h
    · exact h.trans ⟨rfl, rfl, Nat.le_succ _⟩

theorem writeHbm (h : s.OffDispatch t) (o : Nat) (bs : List Byte) : s.OffDispatch (t.writeHbm o bs) := by
  obtain ⟨ps, e⟩ := State.markDirtyAll_eq (t.writeGrans o bs) (linesOf o bs.length)
  refine State.OffDispatch.loseRecords ?_ o bs.length
  rw [e]
  exact (h.writeGrans o bs).trans (of_eq rfl rfl rfl)

theorem emit (h : s.OffDispatch t) (p : Packet) : s.OffDispatch (t.emit p) := by
  refine h.trans ?_
  unfold State.emit
  split
  · exact of_eq rfl rfl rfl
  · exact (refl t).record _ _ _

theorem redEnd (h : s.OffDispatch t) (x : RedVal) (ok : Bool) : s.OffDispatch (t.redEnd x ok) := by
  unfold State.redEnd
  cases x.pkt with
  | some p => cases ok <;> exact h.emit _
  | none =>
    cases ok
    · exact h.trans (of_eq rfl rfl rfl)
    · exact h

theorem applyGroup (h : s.OffDispatch t) (g : Group) : s.OffDispatch (t.applyGroup g) := by
  have hg : s.OffDispatch { t with groups := t.groups.filter fun x => x.id != g.id } := h.trans (of_eq rfl rfl rfl)
  have hr := (hg.caches (State.cacheAccess_caches _ g.addr)).readHbm g.addr (redSize g.op g.w)
  unfold State.applyGroup
  dsimp only
  split
  · exact hr.foldl _ fun _ x h => h.redEnd x false
  · exact (hr.writeHbm ..).foldl _ fun _ x h => h.redEnd x true

theorem flushLine (h : s.OffDispatch t) (o : Nat) : s.OffDispatch (t.flushLine o) :=
  h.foldl _ fun _ g h => h.applyGroup g

theorem cacheLines (h : s.OffDispatch t) (o n : Nat) : s.OffDispatch (t.cacheLines o n) :=
  h.caches (t.cacheLines_caches o n)

theorem cacheAccess (h : s.OffDispatch t) (o : Nat) : s.OffDispatch (t.cacheAccess o) :=
  h.caches (t.cacheAccess_caches o)

theorem hbmRead (h : s.OffDispatch t) (o n : Nat) : s.OffDispatch (t.hbmRead o n).2.2 :=
  State.OffDispatch.readHbm ((h.foldl _ fun _ l h => h.flushLine l).cacheLines o n) o n

theorem engineTouch (h : s.OffDispatch t) (o : Nat) : s.OffDispatch (t.engineTouch o) := h.trans (of_eq rfl rfl rfl)

theorem hbmWrite (h : s.OffDispatch t) (o : Nat) (bs : List Byte) : s.OffDispatch (t.hbmWrite o bs) := by
  have hf : s.OffDispatch (t.flushLines o bs.length) := h.foldl _ fun _ l h => h.flushLine l
  exact State.OffDispatch.writeHbm ((hf.cacheLines o bs.length).foldl _ fun _ l h => h.engineTouch l) o bs

/-! ### The exchange that is due at a line (R244, R253) -/

theorem setVer (h : s.OffDispatch t) (v : Versions) : s.OffDispatch (t.setVer v) := h.trans (of_eq rfl rfl rfl)

theorem relink (h : s.OffDispatch t) (line : Nat) : s.OffDispatch (t.relink line) := by
  refine h.foldl _ fun u x h => ?_
  unfold State.poolImage
  split
  · exact h
  · exact h.hbmWrite _ _

theorem writeVersion (h : s.OffDispatch t) (o : Nat) (bs : List Byte) (ps : List Bool) :
    s.OffDispatch (t.writeVersion o bs ps) :=
  ((h.cacheLines o 128).writeHbm o bs).foldl _ fun _ _ h => h.trans (of_eq rfl rfl rfl)

theorem settle (h : s.OffDispatch t) (line : Nat) : s.OffDispatch (t.settle line) := by
  unfold State.settle
  split
  · exact h
  · refine State.OffDispatch.relink (State.OffDispatch.setVer (State.OffDispatch.setVer ?_ _) _) _
    exact (((h.hbmRead _ _).hbmRead _ _).writeVersion _ _ _).writeVersion _ _ _

/-! ### Requests to other modules, and host memory -/

theorem sendPacket (h : s.OffDispatch t) (cl m path : Nat) (op : PktOp) (pa : Nat) (bs : List Byte) (oflag : Bool)
    (aux : BitVec 7) (args : List Word) : s.OffDispatch (t.sendPacket cl m path op pa bs oflag aux args).2 :=
  State.OffDispatch.emit (t := { t with nextTag := (t.nextTag + 1) % 65536 }) (h.trans (of_eq rfl rfl rfl)) _

theorem sendReq (h : s.OffDispatch t) (r : Req) : s.OffDispatch (t.sendReq r) := by
  unfold State.sendReq
  split
  · next m _ =>
    dsimp only
    split
    · exact h.trans (of_eq rfl rfl rfl)
    · next p _ =>
      have hsent := h.sendPacket (clusterOf r.core) m p (reqPktOp r.op) r.pa (reqBytes r.op r.size) r.oflag
        (reqAux r.op) (reqArgs r)
      split <;> exact hsent.trans (of_eq rfl rfl rfl)
  · exact h.trans (of_eq rfl rfl rfl)

theorem errand (h : s.OffDispatch t) (cl elem : Nat) (op : ReqOp) (m pa size : Nat) :
    s.OffDispatch (t.errand cl elem op m pa size) := by
  unfold State.errand
  extract_lets r
  have hr : s.OffDispatch { t with nextId := t.nextId + 1, reqs := t.reqs ++ [r] } := h.trans (of_eq rfl rfl rfl)
  exact hr.sendReq r

theorem readHost (h : s.OffDispatch t) (o n : Nat) : s.OffDispatch (t.readHost o n).2.2 := by
  have hf : s.OffDispatch { t with fresh := t.fresh + 1 } := h.trans (of_eq rfl rfl rfl)
  unfold State.readHost
  dsimp only
  split
  · exact hf.record _ _ _
  · exact hf

/-! ### The accesses of Dispatch (R359, R369) -/

theorem dispRead (h : s.OffDispatch t) (pa n : Nat) : s.OffDispatch (t.dispRead pa n).2.2 := by
  unfold State.dispRead
  dsimp only
  split
  · exact h
  · split
    · exact ((h.flushLine _).cacheLines _ _).readHbm _ _
    · split
      · exact h.readHost _ _
      · exact h

theorem dispWrite (h : s.OffDispatch t) (pa : Nat) (bs : List Byte) : s.OffDispatch (t.dispWrite pa bs) := by
  unfold State.dispWrite
  dsimp only
  split
  · exact h.errand _ _ _ _ _ _
  · split
    · exact h.record _ _ _
    · split
      · exact ((((h.flushLine _).settle _).cacheAccess _).engineTouch _).writeHbm _ _
      · exact h.trans (of_eq rfl rfl rfl)

theorem putRecord (h : s.OffDispatch t) (n : Nat) (x : BitVec 32) (ws : List Word) (code : Code) (v : Word) :
    s.OffDispatch (t.putRecord n x ws code v) := by
  unfold State.putRecord
  dsimp only
  split
  · exact h
  · exact h.dispWrite _ _

theorem readPackets (h : s.OffDispatch t) (n : Nat) (c : Cur) (k : Nat) :
    s.OffDispatch (t.readPackets n c k).2.2 := by
  induction k with
  | zero => exact h
  | succ k ih => exact ih.dispRead _ _

end State.OffDispatch

end Sys2Proof.Machine
end


section
/-! ## Queue and feed blocks and semaphores as they are written (O41) -/

namespace Sys2Proof.Machine

variable {s t : State}

/-! ### Queues (R358, R366) -/

theorem State.setQueue_queue (n m : Nat) (q : HQueue) :
    (s.setQueue n q).queue m = if m = n then q else s.queue m :=
  SMap.get_put _ _ _ _ _

@[simp] theorem State.setQueue_queue_self (n : Nat) (q : HQueue) : (s.setQueue n q).queue n = q :=
  SMap.get_put_self _ _ _ _

theorem State.refillHeap_eq (k : Nat) : ∃ r l q,
    s.refillHeap k = s.setDisp { s.disp with ready := r, heap := l, seq := q } := by
  induction k generalizing s with
  | zero => exact ⟨_, _, _, rfl⟩
  | succ k ih =>
    unfold State.refillHeap
    dsimp only
    split
    · exact ⟨_, _, _, rfl⟩
    · split
      · exact ⟨_, _, _, rfl⟩
      · exact ih

/-- State `t` has come from `s` by what Dispatch gave back of queue `n`: of its block the count of admissions alone
may have changed, of the module the heap. -/
structure State.GivesBack (s t : State) (n : Nat) : Prop where
  mem : t.mem = s.mem
  cores : t.cores = s.cores
  man : t.man = s.man
  queue : ∃ a, t.queue n = { s.queue n with adm := a }

theorem State.unadmit_givesBack (n : Nat) : s.GivesBack (s.unadmit n) n := by
  unfold State.unadmit
  dsimp only
  split
  · obtain ⟨r, l, q, e⟩ := State.refillHeap_eq (s := (s.setDisp { s.disp with
      ready := s.disp.ready.filter fun j => !(j.q == n && j.era == (s.queue n).era),
      heap := s.disp.heap.filter fun j => !(j.q == n && j.era == (s.queue n).era) }).setQueue n
        { s.queue n with adm := (s.queue n).adm - 1 }) 256
    rw [e]
    exact ⟨rfl, rfl, rfl, _, State.setQueue_queue_self _ _⟩
  · exact ⟨rfl, rfl, rfl, _, rfl⟩

/-- Without an indirect buffer none ends. -/
theorem State.settleBuffers_none {n : Nat} (h : (s.queue n).inds = []) :
    s.settleBuffers n = s.setQueue n { s.queue n with inds := [] } := by
  unfold State.settleBuffers
  simp only [h, List.filter_nil, List.foldl_nil]

/-! ### A stop (R370) -/

/-- What a stop of queue `n` on packet `pkt` with code `c` leaves: where the queue stood it stands. -/
structure State.Stops (s t : State) (n : Nat) (pkt : BitVec 32) (c : Code) : Prop where
  state : (t.queue n).state = 2
  code : (t.queue n).code = c
  pkt : (t.queue n).pkt = pkt
  head : (t.queue n).head = (s.queue n).head
  tail : (t.queue n).tail = (s.queue n).tail
  done : (t.queue n).done = (s.queue n).done
  written : s.man.written < t.man.written

/-- A stop on a queue that has not been disabled since. -/
theorem State.stopQueue_stops {n era : Nat} (he : (s.queue n).era = era) (hst : (s.queue n).state ≠ 0)
    (pkt : BitVec 32) (inner : Option Nat) (ws : Option (List Word)) (c : Code) (v : Word) (skip : Nat × Nat)
    (taken : Bool) : s.Stops (s.stopQueue n era pkt inner ws c v skip taken) n pkt c := by
  unfold State.stopQueue
  extract_lets s1 q1 tagged s2 s3 q3
  have hoff : s1.OffDispatch s2 := by
    dsimp only [s2]
    generalize tagged = o
    cases o with
    | none => exact .refl s1
    | some x => exact (State.OffDispatch.refl s1).putRecord _ _ _ _ _
  have hlive : ¬(q1.era ≠ era ∨ q1.state = 0) := not_or.2 ⟨not_not.2 he, hst⟩
  rw [if_neg hlive]
  obtain ⟨-, -, hman, a, hq⟩ := State.unadmit_givesBack (s := s2) n
  rw [hoff.queue n] at hq
  have hw : s.man.written < (s2.unadmit n).man.written := hman ▸ Nat.lt_of_succ_le hoff.written
  have hnote : q3.head = (s3.queue n).head ∧ q3.tail = (s3.queue n).tail ∧ q3.done = (s3.queue n).done := by
    dsimp only [q3]
    split <;> exact ⟨rfl, rfl, rfl⟩
  obtain ⟨hhead, htail, hdone⟩ := hnote
  exact
    { state := congrArg HQueue.state (State.setQueue_queue_self _ _)
      code := congrArg HQueue.code (State.setQueue_queue_self _ _)
      pkt := congrArg HQueue.pkt (State.setQueue_queue_self _ _)
      head := (congrArg HQueue.head (State.setQueue_queue_self _ _)).trans
        (hhead.trans ((congrArg HQueue.head hq).trans rfl))
      tail := (congrArg HQueue.tail (State.setQueue_queue_self _ _)).trans
        (htail.trans ((congrArg HQueue.tail hq).trans rfl))
      done := (congrArg HQueue.done (State.setQueue_queue_self _ _)).trans
        (hdone.trans ((congrArg HQueue.done hq).trans rfl))
      written := hw }

/-! ### What an owner writes (R360, R370) -/

theorem State.mayWriteQueue_owner {who : Agent} {n k : Nat} (hw : who.fn = some (s.queue n).fn)
    (hk : k = 0 ∨ k = 1 ∨ k = 2 ∨ k = 6) : s.mayWriteQueue who n k = true := by
  unfold State.mayWriteQueue
  rcases hk with rfl | rfl | rfl | rfl <;> simp [hw]

/-- A write of the tail by the owner. -/
theorem exec_tailWrite {who : Agent} {n : Nat} (v : Word) (h : s.man.stopped = false)
    (hw : who.fn = some (s.queue n).fn) : exec (.tailWrite who n 8 v) s = .next (s.writeTail n v) :=
  (event_of_running h _).trans (by simp [State.writeQueue, State.mayWriteQueue_owner hw])

/-- The control actions, of an owner at a stopped queue. -/
theorem State.writeQueue_control {who : Agent} {n : Nat} (v : Word) (hw : who.fn = some (s.queue n).fn) :
    s.writeQueue who n 6 v = s.writeControl n v := by
  simp [State.writeQueue, State.mayWriteQueue_owner hw]

theorem exec_queueSkip {who : Agent} {n : Nat} (h : s.man.stopped = false)
    (hw : who.fn = some (s.queue n).fn) (hst : (s.queue n).state = 2) :
    exec (.queueSkip who n) s = .next (s.skipStop n) :=
  (event_of_running h _).trans (by simp [State.writeQueue_control _ hw, State.writeControl, hst])

theorem exec_queueRetry {who : Agent} {n : Nat} (h : s.man.stopped = false)
    (hw : who.fn = some (s.queue n).fn) (hst : (s.queue n).state = 2) :
    exec (.queueRetry who n) s = .next (s.retryStop n) :=
  (event_of_running h _).trans (by simp [State.writeQueue_control _ hw, State.writeControl, hst])

theorem exec_queueReset {who : Agent} {n : Nat} (h : s.man.stopped = false)
    (hw : who.fn = some (s.queue n).fn) (hst : (s.queue n).state = 2) :
    exec (.queueReset who n) s = .next (s.resetStop n) :=
  (event_of_running h _).trans (by simp [State.writeQueue_control _ hw, State.writeControl, hst])

/-! ### What Laninak writes (R358, R372) -/

theorem getLsbD_set_33 (v : Word) : (v ||| 0x200000000).getLsbD 33 = true := by
  rw [BitVec.getLsbD_or]
  exact Bool.or_true _

theorem getLsbD_clear_33 (v : Word) : (v &&& ~~~0x200000000).getLsbD 33 = false := by
  rw [BitVec.getLsbD_and]
  exact Bool.and_false _

theorem getLsbD_set_63 (v : Word) : (v ||| 0x8000000000000000).getLsbD 63 = true := by
  rw [BitVec.getLsbD_or]
  exact Bool.or_true _

theorem getLsbD_clear_63 (v : Word) : (v &&& ~~~0x8000000000000000).getLsbD 63 = false := by
  rw [BitVec.getLsbD_and]
  exact Bool.and_false _

/-- A field below bit 63 does not see that bit set. -/
theorem bits_set_63 (v : Word) : bits (v ||| 0x8000000000000000) 4 0 = bits v 4 0 := by
  have hlow : ∀ x : Word, bits x 4 0 = (x.setWidth 5).toNat := fun x => by
    simp [bits, BitVec.toNat_setWidth]
  rw [hlow, hlow, BitVec.setWidth_or]
  simp

/-- Word 4 as Laninak has written it, before the queue is enabled or disabled. -/
def State.putWord4 (s : State) (n : Nat) (v : Word) : State :=
  s.setQueue n { s.queue n with
    budget := bits v 63 48, e := bits v 47 43, prio := bits v 42 41, fn := bits v 40 34 }

theorem State.writeQueue_laninak (n : Nat) (v : Word) : s.writeQueue .laninak n 4 v = s.writeWord4 n v := by
  have hmay : s.mayWriteQueue .laninak n 4 = true := rfl
  simp [State.writeQueue, hmay]

theorem State.writeWord4_enable {n : Nat} {v : Word} (hok : s.badWord4 n v = false) (hv : v.getLsbD 33 = true)
    (hen : (s.queue n).en = false) : s.writeWord4 n v = (s.putWord4 n v).enableQueue n := by
  rw [State.writeWord4, if_neg (ne_true_of_eq_false hok), hv]
  exact if_pos (by rw [hen]; rfl)

theorem State.writeWord4_disable {n : Nat} {v : Word} (hok : s.badWord4 n v = false) (hv : v.getLsbD 33 = false)
    (hen : (s.queue n).en = true) : s.writeWord4 n v = (s.putWord4 n v).disableQueue n := by
  rw [State.writeWord4, if_neg (ne_true_of_eq_false hok), hv]
  exact (if_neg Bool.false_ne_true).trans (if_pos (by rw [hen]; rfl))

theorem exec_queueEnable {n : Nat} {v : Word} (h : s.man.stopped = false)
    (hok : s.badWord4 n (v ||| 0x200000000) = false) (hen : (s.queue n).en = false) :
    exec (.queueEnable .laninak n v) s = .next ((s.putWord4 n (v ||| 0x200000000)).enableQueue n) :=
  (event_of_running h _).trans (congrArg _
    ((State.writeQueue_laninak n _).trans (State.writeWord4_enable hok (getLsbD_set_33 v) hen)))

theorem exec_queueDisable {n : Nat} {v : Word} (h : s.man.stopped = false)
    (hok : s.badWord4 n (v &&& ~~~0x200000000) = false) (hen : (s.queue n).en = true) :
    exec (.queueDisable .laninak n v) s = .next ((s.putWord4 n (v &&& ~~~0x200000000)).disableQueue n) :=
  (event_of_running h _).trans (congrArg _
    ((State.writeQueue_laninak n _).trans (State.writeWord4_disable hok (getLsbD_clear_33 v) hen)))

/-- A queue without an indirect buffer, disabled. -/
theorem State.disableQueue_plain {n : Nat} (hi : (s.queue n).inds = []) :
    ((s.disableQueue n).queue n).en = false ∧ ((s.disableQueue n).queue n).state = 0 ∧
      (s.disableQueue n).mem = s.mem ∧ (s.disableQueue n).cores = s.cores := by
  obtain ⟨hmem, hcores, -, a, hq⟩ := State.unadmit_givesBack (s := s) n
  have hinds : ((s.unadmit n).queue n).inds = [] := by rw [hq]; exact hi
  unfold State.disableQueue
  dsimp only
  rw [State.settleBuffers_none (by rw [State.setQueue_queue_self, hinds]; rfl)]
  exact ⟨by simp, by simp, hmem, hcores⟩

theorem State.setFeed_feed (f : Nat) (x : FeedQ) : (s.setFeed f x).feed f = x :=
  SMap.get_put_self _ _ _ _

theorem State.writeFeed_enable {f : Nat} {v : Word} (hok : s.badFeedWord v = false) (hv : v.getLsbD 63 = true)
    (hen : (s.feed f).en = false) : s.writeFeed .laninak f 0 v = s.setFeed f { s.feed f with
      base := v &&& 0x00FFFFFFFFFFFF00, f := bits v 4 0, en := true, ftail := 0, fhead := 0 } := by
  rw [State.writeFeed, if_neg (not_not.2 rfl), if_neg (by decide), if_neg (by simp [hok]), hv, hen]
  rfl

theorem State.writeFeed_disable {f : Nat} {v : Word} (hok : s.badFeedWord v = false) (hv : v.getLsbD 63 = false)
    (hen : (s.feed f).en = true) : s.writeFeed .laninak f 0 v = (s.disableFeed f).setFeed f { s.feed f with
      base := v &&& 0x00FFFFFFFFFFFF00, f := bits v 4 0, en := false, fhead := (s.feed f).ftail, poppers := [] } := by
  rw [State.writeFeed, if_neg (not_not.2 rfl), if_neg (by decide), if_neg (by simp [hok]), hv, hen]
  rfl

/-! ### Semaphores (R371) -/

theorem State.completeRing_sems (n era : Nat) (x : BitVec 32) (ws : List Word) (k : Nat) (c : Code) (v : Word) :
    (s.completeRing n era x ws k c v).disp.sems = s.disp.sems := by
  have hput : ∀ t : State, (t.putRecord n x ws c v).disp.sems = t.disp.sems := fun t =>
    congrArg Dispatch.sems ((State.OffDispatch.refl t).putRecord n x ws c v).disp
  unfold State.completeRing
  dsimp only
  split
  · rw [hput]
    split <;> rfl
  · split <;> rfl

theorem State.settleBuffers_sems (n : Nat) : (s.settleBuffers n).disp.sems = s.disp.sems := by
  unfold State.settleBuffers
  extract_lets q isOver ended u
  have hu : u.disp.sems = s.disp.sems := rfl
  exact foldl_keeps (fun t => t.disp.sems = s.disp.sems) _
    (fun t x ht => (State.completeRing_sems n x.era x.pkt x.words 1 x.code 0).trans ht) ended u hu

theorem State.completePacket_sems (n era : Nat) (x : BitVec 32) (inner : Option Nat) (ws : List Word) (k : Nat)
    (c : Code) (v : Word) : (s.completePacket n era x inner ws k c v).disp.sems = s.disp.sems := by
  unfold State.completePacket
  split
  · exact State.completeRing_sems ..
  · exact (State.settleBuffers_sems n).trans rfl

/-- A semaphore holds what has been written, once the waits for it have been tested. -/
theorem State.sem_setSem (i : Nat) (v : Word) : (s.setSem i v).sem i = v := by
  have hsems : ∀ u : State, u.retest.disp.sems = u.disp.sems := fun u =>
    foldl_keeps (fun t => t.disp.sems = u.disp.sems) _
      (fun t j ht => (State.completePacket_sems ..).trans ht) _ _ rfl
  unfold State.sem State.setSem
  rw [hsems]
  exact SMap.get_put_self _ _ _ _

end Sys2Proof.Machine

namespace Sys2Proof.Proofs

open Sys2Proof.Machine

/-- Settles O41, word by word of the blocks. -/
theorem queueWritesComplete : Obligations.QueueWritesComplete := by
  unfold Obligations.QueueWritesComplete
  intro s who q v hs x kept
  refine ⟨fun hw => ⟨fun hv hst hle => ?tail, fun hv hst hgt h1 => ?tailStop, fun h2 hb => ?skip, fun h2 => ?retry,
    fun h2 hi => ?reset⟩, fun hw => ?enable, fun hw => ?disable, fun hw => ?sem, fun hw hok hen => ?feedEnable,
    fun hw hok hen hp => ?feedDisable⟩
  case tail =>
    refine ⟨_, exec_tailWrite v hs hw, ?_⟩
    rw [State.writeTail, if_neg (not_not.2 hv), if_neg hst, if_neg (Nat.not_lt.2 hle)]
    exact ⟨by simp, by simp [x], rfl, rfl⟩
  case tailStop =>
    refine ⟨_, exec_tailWrite v hs hw, ?_⟩
    rw [State.writeTail, if_neg (not_not.2 hv), if_neg hst, if_pos hgt]
    have hstop := State.stopQueue_stops (s := s) (n := q) rfl hst (s.queue q).head none none 0x6403 0 (0, 0) false
    exact ⟨hstop.state, hstop.code, hstop.tail⟩
  case skip =>
    refine ⟨_, exec_queueSkip hs hw h2, ?_⟩
    rw [State.skipStop, if_neg (ne_true_of_eq_false hb)]
    exact ⟨by simp, by simp [x], by simp [x], rfl, rfl⟩
  case retry =>
    refine ⟨_, exec_queueRetry hs hw h2, ?_⟩
    unfold State.retryStop
    refine ⟨by simp, by simp [x], ?_, rfl, rfl⟩
    simp only [State.setQueue_queue_self, x]
    split <;> rfl
  case reset =>
    refine ⟨_, exec_queueReset hs hw h2, ?_⟩
    have hinds : (s.queue q).inds = [] := hi
    unfold State.resetStop
    dsimp only
    rw [State.settleBuffers_none (by simp [hinds])]
    exact ⟨by simp, by simp [x], rfl, rfl⟩
  case enable =>
    subst hw
    intro w hok hen
    refine ⟨_, exec_queueEnable hs hok hen, ?_⟩
    unfold State.enableQueue State.putWord4
    simp only [State.setQueue_queue_self]
    exact ⟨trivial, trivial, trivial, trivial, trivial, rfl, rfl, rfl, rfl⟩
  case disable =>
    subst hw
    intro w hok hen hi
    have hinds : ((s.putWord4 q w).queue q).inds = [] := by
      rw [State.putWord4, State.setQueue_queue_self]
      exact hi
    exact ⟨_, exec_queueDisable hs hok hen, State.disableQueue_plain hinds⟩
  case sem =>
    refine ⟨s.setSem q v, (event_of_running hs _).trans ?_, State.sem_setSem q v⟩
    rcases hw with rfl | rfl | rfl <;> rfl
  case feedEnable =>
    subst hw
    refine ⟨_, (event_of_running hs _).trans (congrArg _ (State.writeFeed_enable hok (getLsbD_set_63 v) hen)), ?_⟩
    rw [State.setFeed_feed]
    exact ⟨rfl, rfl, rfl, bits_set_63 v, rfl, rfl⟩
  case feedDisable =>
    subst hw
    refine ⟨_, (event_of_running hs _).trans (congrArg _ (State.writeFeed_disable hok (getLsbD_clear_63 v) hen)), ?_⟩
    rw [State.setFeed_feed, State.disableFeed, hp]
    exact ⟨rfl, rfl, rfl, rfl⟩

end Sys2Proof.Proofs
end


section
/-! ## The packets of a queue (O39) -/

namespace Sys2Proof.Machine

variable {s t : State} {n : Nat} {c : Cur} {ws : List Word} {p : Bool}

/-! ### The packet at which a queue stands (R359, R363, R364) -/

theorem State.current_state (h : s.current n = some c) : (s.queue n).state = 1 := by
  unfold State.current at h
  dsimp only at h
  split at h
  · cases h
  · next hn =>
    have : ((s.queue n).state != 1) = false := by
      simp only [Bool.or_eq_true, not_or, Bool.not_eq_true] at hn
      exact hn.1.2
    simpa using this

/-- The packet a queue stands at has been read beside Dispatch, of a queue that runs. -/
theorem State.headPacket_read (h : s.headPacket n = some (c, ws, p, t)) :
    s.OffDispatch t ∧ (s.queue n).state = 1 := by
  have hread := fun k c => (State.OffDispatch.refl s).readPackets n c k
  unfold State.headPacket at h
  split at h
  · cases h
  · next c' hc =>
    refine ⟨?_, State.current_state hc⟩
    dsimp only at h
    split at h
    · cases h
      exact hread 1 _
    · split at h
      · split at h
        · cases h
          exact hread 1 _
        · cases h
      · cases h
        exact hread _ _

section
variable {op : Nat → Bool} {k : State → Cur → List Word → State}

/-- A packet that passes, and whose turn it is, acts. -/
theorem State.packetEvent_acts (h : s.headPacket n = some (c, ws, false, t)) (hop : op (hdrOp ws) = true)
    (hcode : t.packetCode ws c = 0)
    (hturn : (hdrFence ws || hdrOp ws == 5 || hdrOp ws == 7 || hdrOp ws == 9) = true → t.allDone n c = true) :
    s.packetEvent n op k = k t c ws := by
  have hgo : ¬((hdrFence ws || hdrOp ws == 5 || hdrOp ws == 7 || hdrOp ws == 9) && !t.allDone n c) = true := by
    rw [Bool.and_eq_true, Bool.not_eq_true', not_and]
    exact fun hf => ne_false_of_eq_true (hturn hf)
  unfold State.packetEvent
  rw [h]
  dsimp only
  rw [if_neg (by simp [hop]), if_neg Bool.false_ne_true, hcode, if_neg (by simp), if_neg (by decide), if_neg hgo]

/-- The event of a packet that passes, and whose turn it is, is what the packet does. -/
theorem event_packetEvent (hs : s.man.stopped = false) (h : s.headPacket n = some (c, ws, false, t))
    (hfence : hdrFence ws = true → t.allDone n c = true) (hcode : t.packetCode ws c = 0) (hop : op (hdrOp ws) = true)
    (hturn : hdrOp ws = 5 ∨ hdrOp ws = 7 ∨ hdrOp ws = 9 → t.allDone n c = true) :
    event s (s.packetEvent n op k) = .next (k t c ws) := by
  rw [event_of_running hs, State.packetEvent_acts h hop hcode]
  intro hor
  simp only [Bool.or_eq_true, beq_iff_eq] at hor
  rcases hor with ((h1 | h5) | h7) | h9
  · exact hfence h1
  · exact hturn (.inl h5)
  · exact hturn (.inr (.inl h7))
  · exact hturn (.inr (.inr h9))

/-- A packet of an unknown opcode with skip acts as well. -/
theorem State.packetEvent_skips (h : s.headPacket n = some (c, ws, false, t)) (hop : op (hdrOp ws) = true)
    (hcode : t.packetCode ws c = 0x0406) : s.packetEvent n op k = k t c ws := by
  unfold State.packetEvent
  rw [h]
  dsimp only
  rw [if_neg (by simp [hop]), if_neg Bool.false_ne_true, hcode, if_neg (by simp), if_pos rfl]

/-- A packet that is read with poison stops its queue. -/
theorem State.packetEvent_poisoned (h : s.headPacket n = some (c, ws, true, t)) (hop : op (hdrOp ws) = true) :
    s.packetEvent n op k = t.stopQueue n (s.queue n).era c.pkt c.inner (some ws) (s.unreadCode c) 0
      (c.skips (packetSpan ws)) c.again := by
  unfold State.packetEvent
  rw [h]
  dsimp only
  rw [if_neg (by simp [hop]), if_pos rfl]

/-- A packet that fails the checks of R363 stops its queue. -/
theorem State.packetEvent_fails (h : s.headPacket n = some (c, ws, false, t)) (hop : op (hdrOp ws) = true)
    (hcode : t.packetCode ws c ≠ 0) (hskip : t.packetCode ws c ≠ 0x0406) :
    s.packetEvent n op k = t.stopQueue n (s.queue n).era c.pkt c.inner (some ws) (t.packetCode ws c) 0
      (c.skips (packetSpan ws)) c.again := by
  unfold State.packetEvent
  rw [h]
  dsimp only
  rw [if_neg (by simp [hop]), if_neg Bool.false_ne_true, if_pos ⟨hcode, hskip⟩]

/-- What stops a queue at its packet leaves it where it stood. -/
theorem State.headPacket_stops (h : s.headPacket n = some (c, ws, p, t)) (code : Code) (v : Word)
    (skip : Nat × Nat) (taken : Bool) :
    s.Stops (t.stopQueue n (s.queue n).era c.pkt c.inner (some ws) code v skip taken) n c.pkt code := by
  obtain ⟨hoff, hst⟩ := State.headPacket_read h
  have hq := hoff.queue n
  have hstop := State.stopQueue_stops (s := t) (n := n) (era := (s.queue n).era) (by rw [hq])
    (by rw [hq, hst]; decide) c.pkt c.inner (some ws) code v skip taken
  exact
    { state := hstop.state
      code := hstop.code
      pkt := hstop.pkt
      head := hstop.head.trans (congrArg HQueue.head hq)
      tail := hstop.tail.trans (congrArg HQueue.tail hq)
      done := hstop.done.trans (congrArg HQueue.done hq)
      written := hoff.written.trans_lt hstop.written }

/-- The event of a packet that was read with poison, or fails the checks, is its stop. -/
theorem State.packetEvent_halts {i : Instr} (hs : s.man.stopped = false)
    (h : s.headPacket n = some (c, ws, p, t)) (hop : op (hdrOp ws) = true)
    (hi : exec i s = event s (s.packetEvent n op k)) :
    (p = true → s.stackDead (paOffset c.pa) = false → ∃ u, exec i s = .next u ∧ s.Stops u n c.pkt 0x4405) ∧
    (p = false → t.packetCode ws c ≠ 0 → t.packetCode ws c ≠ 0x0406 →
      ∃ u, exec i s = .next u ∧ s.Stops u n c.pkt (t.packetCode ws c)) := by
  refine ⟨fun hp hd => ?_, fun hp h0 hskip => ?_⟩
  · subst hp
    have hcode : s.unreadCode c = 0x4405 := if_neg (ne_true_of_eq_false hd)
    refine ⟨_, hi.trans (event_of_running hs _), ?_⟩
    rw [State.packetEvent_poisoned h hop, hcode]
    exact State.headPacket_stops h _ _ _ _
  · subst hp
    refine ⟨_, hi.trans (event_of_running hs _), ?_⟩
    rw [State.packetEvent_fails h hop h0 hskip]
    exact State.headPacket_stops h _ _ _ _

end

/-! ### The checks of R363 -/

theorem State.packetCode_reserved (h : bits (ws.getD 0 0) 31 24 ≠ 0 ∨ bits (ws.getD 0 0) 15 11 ≠ 0 ∨
    (hdrExt ws ≠ 0 ∧ hdrOp ws ≠ 2)) : s.packetCode ws c = 0x6401 :=
  if_pos h

theorem State.packetCode_unknown (h1 : bits (ws.getD 0 0) 31 24 = 0) (h2 : bits (ws.getD 0 0) 15 11 = 0)
    (h3 : hdrExt ws = 0 ∨ hdrOp ws = 2) (hop : hdrOp ws = 0 ∨ 9 < hdrOp ws) :
    s.packetCode ws c = if hdrSkip ws then 0x0406 else 0x6402 := by
  have hgood : ¬(bits (ws.getD 0 0) 31 24 ≠ 0 ∨ bits (ws.getD 0 0) 15 11 ≠ 0 ∨ (hdrExt ws ≠ 0 ∧ hdrOp ws ≠ 2)) := by
    tauto
  exact (if_neg hgood).trans (if_pos hop)

/-! ### The deadline heap (R366) -/

/-- A packet that is admitted while nothing waits for room enters the heap. -/
theorem State.enterHeap_room (hready : s.disp.ready = []) (hroom : s.disp.heap.length < 256) (j : Job) :
    s.enterHeap j = s.setDisp { s.disp with
      ready := [], heap := s.disp.heap ++ [{ j with seq := s.disp.seq }], seq := s.disp.seq + 1 } := by
  have hrefill : ∀ (u : State) (k : Nat), u.disp.ready = [j] → u.disp.heap.length < 256 →
      u.refillHeap (k + 2) = u.setDisp { u.disp with
        ready := [], heap := u.disp.heap ++ [{ j with seq := u.disp.seq }], seq := u.disp.seq + 1 } := by
    intro u k hu hl
    rw [State.refillHeap, hu]
    dsimp only
    rw [if_neg (Nat.not_le.2 hl), State.refillHeap]
    rfl
  exact hrefill (s.setDisp { s.disp with ready := s.disp.ready ++ [j] }) 254
    ((congrArg (· ++ [j]) hready).trans rfl) hroom

/-! ### An indirect buffer (R373) -/

/-- The buffer that an INDIRECT packet opens. -/
def State.bufferOf (s : State) (n : Nat) (c : Cur) (ws : List Word) : Indirect :=
  { pa := (ws.getD 2 0).toNat, count := bits (ws.getD 3 0) 12 0, idx := 0, words := ws, pkt := c.pkt,
    era := ((s.passPacket n c 1).queue n).era, code := 0 }

theorem exec_indirect (hs : s.man.stopped = false) (h : s.headPacket n = some (c, ws, false, t))
    (hop : hdrOp ws = 8) (hcode : t.packetCode ws c = 0) (hfence : hdrFence ws = true → t.allDone n c = true) :
    ∃ u, exec (.indirect n) s = .next u ∧ (u.queue n).inds.getLast? = some (t.bufferOf n c ws) := by
  refine ⟨_, event_of_running hs _, ?_⟩
  rw [State.packetEvent_acts h (by simp [hop]) hcode (by simpa [hop] using hfence)]
  dsimp only
  rw [State.setQueue_queue_self]
  exact List.getLast?_concat

/-! ### Semaphores (R371) -/

theorem State.passPacket_semwaits (k : Nat) : (s.passPacket n c k).disp.semwaits = s.disp.semwaits := by
  unfold State.passPacket
  dsimp only
  split
  · rfl
  · split <;> rfl

/-- What a SEMSIG leaves: set, add or max (R364). -/
theorem semNew_eq (m : Nat) (old v : Word) : semNew m old v = match m with
    | 0 => v
    | 1 => old + v
    | _ => if old.toNat < v.toNat then v else old := by
  rcases m with _ | _ | m
  · rfl
  · rfl
  · exact (if_neg (Nat.succ_ne_zero _)).trans (if_neg (by omega))

end Sys2Proof.Machine

namespace Sys2Proof.Proofs

open Sys2Proof.Machine

/-- Settles O39: packets that pass act opcode by opcode, and the others stop their queue. -/
theorem packetsComplete : Obligations.PacketsComplete := by
  unfold Obligations.PacketsComplete
  refine ⟨fun s q c ws t hs h hf => ?_, fun s q c ws p t hs h => ?_⟩
  · intro d2 d3 code op
    have acts : ∀ {o : Nat → Bool} (_ : o (hdrOp ws) = true) (k : State → Cur → List Word → State), code = 0 →
        (hdrOp ws = 5 ∨ hdrOp ws = 7 ∨ hdrOp ws = 9 → t.allDone q c = true) →
        event s (s.packetEvent q o k) = .next (k t c ws) :=
      fun ho k h0 hturn => event_packetEvent hs h hf h0 ho hturn
    refine ⟨fun ho h0 => ?feed, fun ho h0 => ?semwait, fun ho h0 hd => ?semsig, fun ho h0 hr => ?futwait,
      fun ho h0 hd => ?intr, fun ho h0 => ?indirect, fun ho h0 hd => ?fence, fun ho h6 => ?unknown,
      fun ho h0 => ?heap⟩
    case feed =>
      intro f n hcopies hen hroom
      have hopen : ¬(!(t.feed f).en) = true := by simp [hen]
      refine (acts (by simpa using ho) _ h0 (by omega)).trans (congrArg _ ?_)
      refine (if_neg (ne_true_of_eq_false hcopies)).trans ((if_neg hopen).trans
        ((if_neg (Nat.not_lt.2 hroom)).trans ?_))
      rw [show packetSpan ws = 1 + hdrExt ws from if_pos ho]
    case semwait =>
      have hexec : exec (.semwait q) s = _ := acts (by simpa using ho) _ h0 (by omega)
      refine ⟨fun hholds => hexec.trans (congrArg _ (if_pos hholds)), fun hwaits =>
        ⟨_, hexec.trans (congrArg _ (if_neg (ne_true_of_eq_false hwaits))), ?_⟩⟩
      exact congrArg (· ++ [t.jobOf q c ws]) (State.passPacket_semwaits 1)
    case semsig =>
      intro i v
      have hv : v = semNew (bits d2 17 16) (t.sem i) d3 := (semNew_eq _ _ _).symm
      rw [hv]
      exact acts (by simpa using ho) _ h0 fun _ => hd
    case futwait =>
      refine Eq.trans ?_ (acts (o := (· == 6)) (by simpa using ho)
        (fun s c ws => (s.passPacket q c 1).registerFutwait (s.jobOf q c ws)) h0 (by omega))
      show execFutwait q s = _
      unfold execFutwait
      rw [hr]
    case intr =>
      have hexec : exec (.intr q) s = _ := acts (by simpa using ho) _ h0 fun _ => hd
      refine ⟨fun h8 => hexec.trans ?_, fun h8 => hexec.trans ?_⟩
      · dsimp only
        rw [if_neg (ne_true_of_eq_false h8)]
      · dsimp only
        rw [if_pos h8]
    case indirect =>
      obtain ⟨u, hu, hlast⟩ := exec_indirect hs h ho h0 hf
      exact ⟨u, hu, _, hlast, rfl, rfl, rfl, rfl⟩
    case fence => exact acts (by simpa using ho) _ h0 fun _ => hd
    case unknown =>
      refine (event_of_running hs _).trans (congrArg _ ?_)
      exact State.packetEvent_skips h (by simpa using ho) h6
    case heap =>
      intro u x hadm hready hroom
      refine ⟨_, acts (by simpa using ho) _ h0 (by omega), ?_⟩
      dsimp only
      rw [if_pos hadm, State.enterHeap_room (s := (u.setQueue q _)) hready hroom]
      refine ⟨congrArg HQueue.adm (State.setQueue_queue_self _ _), List.length_append, fun j hj => ?_⟩
      exact List.mem_append_left _ hj
  · intro hd op code stops
    have halt : ∀ {i : Instr} {o : Nat → Bool} {k : State → Cur → List Word → State},
        exec i s = event s (s.packetEvent q o k) → o (hdrOp ws) = true → stops i := by
      intro i o k hi ho
      obtain ⟨hpois, hfail⟩ := State.packetEvent_halts hs h ho hi
      refine ⟨fun hp hdead => ?_, fun hp h0 hskip => ?_⟩
      · obtain ⟨u, hu, st⟩ := hpois hp hdead
        exact ⟨u, hu, st.state, st.code, st.pkt, st.head, st.done, st.written⟩
      · obtain ⟨u, hu, st⟩ := hfail hp h0 hskip
        exact ⟨u, hu, st.state, st.code, st.pkt, st.head, st.done, st.written⟩
    have is : ∀ o, op = o → (hdrOp ws == o) = true := fun o ho => beq_iff_eq.2 ho
    refine ⟨State.packetCode_reserved, State.packetCode_unknown, fun ho => halt rfl (decide_eq_true ho),
      fun ho => halt rfl (Bool.or_eq_true_iff.2 (ho.imp (is 1) (is 3))), fun ho => halt rfl (is 2 ho),
      fun ho => halt rfl (is 4 ho), fun ho => halt rfl (is 5 ho), fun ho hr => ?_, fun ho => halt rfl (is 7 ho),
      fun ho => halt rfl (is 8 ho), fun ho => halt rfl (is 9 ho)⟩
    refine halt (o := (· == 6)) (k := fun s c ws => (s.passPacket q c 1).registerFutwait (s.jobOf q c ws)) ?_
      (is 6 ho)
    show execFutwait q s = _
    unfold execFutwait
    rw [hr]

end Sys2Proof.Proofs
end


section
/-! ## Packets that have been taken (O40) -/

namespace Sys2Proof.Machine

variable {s t : State}

/-! ### A line of HBM is accessed by any address in it (R208, R214) -/

theorem line_div (o m : Nat) : 128 * (o / 128) / (128 * m) = o / (128 * m) := by
  rw [Nat.mul_div_mul_left _ _ (by decide), Nat.div_div_eq_div_mul]

theorem homePort_line (o : Nat) : homePort (128 * (o / 128)) = homePort o := by
  have h := fun k : Nat => line_div o (2 ^ k)
  have h12 := h 5
  have h18 := h 11
  have h24 := h 17
  have h30 := h 23
  have h36 := h 29
  norm_num at h12 h18 h24 h30 h36
  simp [homePort, h12, h18, h24, h30, h36]

theorem Port.eligible_congr {p : Port} {a b : Nat} (h : a / 2 ^ 16 = b / 2 ^ 16) : p.eligible a = p.eligible b := by
  rw [Port.eligible, Port.eligible, Port.classify, Port.classify, h]

theorem State.cacheAccess_line (o : Nat) : s.cacheAccess (128 * (o / 128)) = s.cacheAccess o := by
  have hline : 128 * (o / 128) / 128 = o / 128 := by omega
  have hway : s.ownPa (128 * (o / 128)) / 2 ^ 16 = s.ownPa o / 2 ^ 16 := by
    unfold State.ownPa
    omega
  rw [State.cacheAccess, State.cacheAccess, homePort_line, hline, Port.eligible_congr hway]

/-- Bytes that lie in one line are one access to it. -/
theorem State.cacheLines_one {o n : Nat} (h : 0 < n ∧ (o + n - 1) / 128 = o / 128) :
    s.cacheLines o n = s.cacheAccess o := by
  have hlines : linesOf o n = [128 * (o / 128)] := by
    rw [linesOf, if_neg (Nat.ne_of_gt h.1), h.2, Nat.add_sub_cancel_left]
    simp
  rw [State.cacheLines, hlines]
  exact State.cacheAccess_line o

/-! ### The words of a COPY (R368) -/

theorem State.placeOf_port {pa q : Nat} (h : s.placeOf pa = .port q) :
    paModule pa = s.modNo.toNat ∧ inHbm (paOffset pa) = true := by
  unfold State.placeOf at h
  dsimp only at h
  split at h
  · cases h
  · next hm =>
    split at h
    · next hin => exact ⟨not_not.1 hm, hin⟩
    · split at h <;> cases h

/-- A word that Dispatch reads at a port of its own module, where nothing stands in the way. -/
theorem State.dispRead_clean {pa : Nat} (hc : s.CachesOnly t) (hin : inHbm (paOffset pa) = true)
    (hlive : s.stackDead (paOffset pa) = false) (h : s.CleanAt (paOffset pa) 8) :
    t.dispRead pa 8 = (s.bytes (paOffset pa) 8, false, t.cacheAccess (paOffset pa)) := by
  have hsound := h.toSoundAt.caches hc
  have hread := h.toSoundAt.readHbm (hc.trans (t.cacheAccess_caches (paOffset pa)))
  have hdead : t.stackDead (paOffset pa) = false := by
    obtain ⟨l, ps, rfl, -⟩ := hc
    exact hlive
  unfold State.dispRead State.portRead
  dsimp only
  rw [if_neg (ne_true_of_eq_false hdead), if_pos hin, hsound.flushLine, if_neg Bool.false_ne_true,
    State.cacheLines_one h.line, hread]
  dsimp only
  rw [h.any_poison]

/-- A source word of a COPY can be read at its port as it stands. -/
structure State.CopySource (s : State) (pa : Nat) : Prop where
  place : ∃ q, s.placeOf pa = .port q
  clean : s.CleanAt (paOffset pa) 8
  live : s.stackDead (paOffset pa) = false

/-- The word at a source of a COPY, as it stands. -/
def State.copyWord (s : State) (pa : Nat) : Nat × Nat × Bool := (pa, leNat (s.bytes (paOffset pa) 8), false)

/-- Sources that can be read are all read, in order. -/
theorem State.paReads_clean (j : Job) {l : List Nat} (hl : ∀ pa ∈ l, s.CopySource pa) (hc : s.CachesOnly t)
    (acc : ReadList) : t.paReads j acc false l =
      .ok (acc.reverse ++ l.map s.copyWord) (l.foldl (fun u pa => u.cacheAccess (paOffset pa)) t) := by
  induction l generalizing t acc with
  | nil => simp [State.paReads]
  | cons pa r ih =>
    obtain ⟨⟨q, hq⟩, hclean, hlive⟩ := hl pa List.mem_cons_self
    have hplace : t.placeOf pa = .port q := by
      obtain ⟨l, ps, rfl, -⟩ := hc
      exact hq
    have hrest := ih (fun x hx => hl x (List.mem_cons_of_mem _ hx)) (hc.trans (t.cacheAccess_caches (paOffset pa)))
      ((pa, leNat (s.bytes (paOffset pa) 8), false) :: acc)
    rw [State.paReads, hplace]
    dsimp only
    rw [State.dispRead_clean hc (State.placeOf_port hq).2 hlive hclean]
    dsimp only
    rw [hrest, List.reverse_cons, List.append_assoc]
    rfl

/-- Words for ports of the own module are all written. -/
theorem State.paWrites_ports (j : Job) {l : List (Nat × Nat)} (hl : ∀ x ∈ l, ∃ q, s.placeOf x.1 = .port q) :
    s.paWrites j l = (false, l.foldl (fun v x => v.dispWrite x.1 (leBytes 8 x.2)) s) := by
  induction l generalizing s with
  | nil => rfl
  | cons x r ih =>
    obtain ⟨q, hq⟩ := hl x List.mem_cons_self
    have hoff := (State.OffDispatch.refl s).dispWrite x.1 (leBytes 8 x.2)
    rw [State.paWrites, hq]
    exact ih fun y hy => (hl y (List.mem_cons_of_mem _ hy)).imp fun q h => (hoff.placeOf _).trans h

/-- Where no source word is poisoned every word is stored. -/
theorem copyStored_clean (dst fresh : Nat) {vals : ReadList} (h : ∀ y ∈ vals, y.2.2 = false) :
    copyStored dst fresh vals =
      (List.range vals.length).map fun i => (dst + 8 * i, (vals.getD i (0, 0, true)).2.1) := by
  have hbad : (vals.any fun y => y.2.2) = false := by simpa using h
  unfold copyStored
  rw [hbad]
  dsimp only
  rw [← List.filterMap_eq_map]
  refine List.filterMap_congr fun i hi => ?_
  have hi' := List.mem_range.1 hi
  have hy : (vals.getD i (0, 0, true)).2.2 = false := by
    rw [List.getD_eq_getElem _ _ hi']
    exact h _ (List.getElem_mem hi')
  simp only [hy, Bool.false_and, Bool.or_false, Bool.false_eq_true, if_false, Function.comp]

/-- A word of a COPY of job `j` by its place: where it is read and where it is stored, and how many there are. -/
def Job.src (j : Job) (i : Nat) : Nat := (j.words.getD 3 0).toNat + 8 * i
def Job.dst (j : Job) (i : Nat) : Nat := (j.words.getD 2 0).toNat + 8 * i
def Job.count (j : Job) : Nat := (j.words.getD 4 0).toNat / 8

/-- The words of a COPY as they stand at its sources. -/
def State.copyWords (s : State) (j : Job) : ReadList := ((List.range j.count).map j.src).map s.copyWord

theorem State.copyWords_clean (j : Job) : ∀ y ∈ s.copyWords j, y.2.2 = false := by
  simp [State.copyWords, State.copyWord]

/-- The stores of a COPY whose sources hold no poison. -/
theorem copyStored_copyWords (j : Job) (fresh : Nat) :
    copyStored (j.words.getD 2 0).toNat fresh (s.copyWords j) =
      (List.range j.count).map fun i => (j.dst i, leNat (s.bytes (paOffset (j.src i)) 8)) := by
  rw [copyStored_clean _ _ (State.copyWords_clean j), State.copyWords]
  simp only [List.length_map, List.length_range]
  refine List.map_congr_left fun i hi => ?_
  have hi' := List.mem_range.1 hi
  simp [State.copyWord, Job.dst, hi']

/-- The state in which a COPY has read its sources, and that in which it has stored them. -/
def State.copyRead (s : State) (j : Job) : State :=
  (List.range j.count).foldl (fun u i => u.cacheAccess (paOffset (j.src i))) s
def State.copyDone (s : State) (j : Job) : State :=
  (List.range j.count).foldl (fun v i => v.dispWrite (j.dst i) (s.bytes (paOffset (j.src i)) 8)) (s.copyRead j)

theorem State.paReads_copy {j : Job} (hsrc : ∀ i, i < j.count → s.CopySource (j.src i)) :
    s.paReads j [] false ((List.range j.count).map j.src) = .ok (s.copyWords j) (s.copyRead j) := by
  have hread := State.paReads_clean j (s := s) (l := (List.range j.count).map j.src) (by simpa using hsrc)
    (.refl s) []
  rwa [List.reverse_nil, List.nil_append, List.foldl_map] at hread

theorem State.paWrites_copy {j : Job} (hdst : ∀ i, i < j.count → ∃ q, s.placeOf (j.dst i) = .port q) :
    (s.copyRead j).paWrites j (copyStored (j.words.getD 2 0).toNat (s.copyRead j).fresh (s.copyWords j)) =
      (false, s.copyDone j) := by
  have hoff : s.OffDispatch (s.copyRead j) :=
    (State.OffDispatch.refl s).foldl _ fun u i hu => hu.cacheAccess _
  have hport : ∀ x ∈ (List.range j.count).map fun i => (j.dst i, leNat (s.bytes (paOffset (j.src i)) 8)),
      ∃ q, (s.copyRead j).placeOf x.1 = .port q := by
    intro x hx
    obtain ⟨i, hi, rfl⟩ := List.mem_map.1 hx
    exact (hdst i (List.mem_range.1 hi)).imp fun q h => (hoff.placeOf _).trans h
  rw [copyStored_copyWords, State.paWrites_ports j hport, List.foldl_map, State.copyDone]
  refine congrArg (Prod.mk false) (List.foldl_ext _ _ _ fun v i _ => ?_)
  exact congrArg (v.dispWrite (j.dst i)) (leBytes_leNat (s.bytes (paOffset (j.src i)) 8))

/-- A COPY that reaches no failed stack, has its words at hand and finds no poison stores them and completes. -/
theorem State.runPaCopy_ok {j : Job} {vals : ReadList} {u : State}
    (hlive : ∀ i, i < j.count → s.deadAt (j.src i) = false ∧ s.deadAt (j.dst i) = false)
    (hread : s.paReads j [] false ((List.range j.count).map j.src) = .ok vals t)
    (hwrite : t.paWrites j (copyStored (j.words.getD 2 0).toNat t.fresh vals) = (false, u))
    (hclean : ∀ y ∈ vals, y.2.2 = false) :
    s.runPaCopy j = ({ u with fresh := u.fresh + j.count }.dropCopyJob j).completePacket
      j.q j.era j.pkt j.inner j.words 1 0 (j.words.getD 4 0) := by
  have hdead : ¬((List.range j.count).any fun i => s.deadAt (j.src i) || s.deadAt (j.dst i)) = true := by
    simpa using hlive
  have hpois : ¬(vals.any fun y => y.2.2) = true := by simpa using hclean
  have hval : BitVec.ofNat 64 (j.words.getD 4 0).toNat = j.words.getD 4 0 := by simp
  unfold State.runPaCopy
  refine (if_neg hdead).trans ?_
  have hread' : s.paReads j [] false ((List.range ((j.words.getD 4 0).toNat / 8)).map fun i =>
      (j.words.getD 3 0).toNat + 8 * i) = .ok vals t := hread
  dsimp only
  rw [hread']
  dsimp only
  rw [hwrite]
  dsimp only
  rw [if_neg hpois, hval]
  rfl

/-- A COPY whose words stand at ports of its module, where nothing is in the way, moves them and completes. -/
theorem State.runPaCopy_clean {j : Job} (hsrc : ∀ i, i < j.count → s.CopySource (j.src i))
    (hdst : ∀ i, i < j.count → (∃ q, s.placeOf (j.dst i) = .port q) ∧ s.stackDead (paOffset (j.dst i)) = false) :
    s.runPaCopy j = ({ s.copyDone j with fresh := (s.copyDone j).fresh + j.count }.dropCopyJob j).completePacket
      j.q j.era j.pkt j.inner j.words 1 0 (j.words.getD 4 0) := by
  refine State.runPaCopy_ok (fun i hi => ⟨?_, ?_⟩) (State.paReads_copy hsrc)
    (State.paWrites_copy fun i hi => (hdst i hi).1) (State.copyWords_clean j)
  · rw [State.deadAt, (hsrc i hi).live, Bool.and_false]
  · rw [State.deadAt, (hdst i hi).2, Bool.and_false]

/-! ### Launches (R368, R404) -/

/-- The launch that an event names, just taken or waiting, is tried. -/
theorem exec_launch {i : Instr} {n : Nat} {j : Job} (hs : s.man.stopped = false)
    (hi : (i = .launch n ∧ s.disp.launches.find? (fun j => j.seq == n && j.fut.isNone && j.ans.isNone) = some j) ∨
      (i = .launchPlacement n ∧
        s.disp.launches.find? (fun j => j.seq == n && j.fut.isNone && j.ans.isSome) = some j)) :
    exec i s = .next (s.tryLaunch j) := by
  obtain ⟨rfl, h⟩ | ⟨rfl, h⟩ := hi
  · exact (event_of_running hs _).trans (by rw [h])
  · exact (event_of_running hs _).trans (by rw [h])

/-- A launch for any cluster, where one can take it or none can. -/
theorem State.tryLaunch_any {j : Job} (hx : bits (j.words.getD 3 0) 7 0 = 0xFF) :
    s.tryLaunch j = match s.anyCluster with
      | some cl => s.placeIn j cl
      | none => s.setLaunch { j with ans := some (0, false) } := by
  unfold State.tryLaunch
  exact if_pos hx

/-- A launch for a fenced cluster stops its queue. -/
theorem State.tryLaunch_fenced {j : Job} (hx : bits (j.words.getD 3 0) 7 0 ≠ 0xFF)
    (hd : s.drainState (bits (j.words.getD 3 0) 7 0) = 3) :
    s.tryLaunch j = (s.setDisp { s.disp with
      launches := s.disp.launches.filter fun y => y.seq != j.seq }).stopQueue j.q j.era j.pkt j.inner
        (some j.words) 0x640A 0 (0, 1) true := by
  unfold State.tryLaunch
  dsimp only
  rw [if_neg hx, if_pos hd]

/-- A launch for a cluster that drains, or of a die that is not ready, waits. -/
theorem State.tryLaunch_waits {j : Job} (hx : bits (j.words.getD 3 0) 7 0 ≠ 0xFF)
    (hd : s.drainState (bits (j.words.getD 3 0) 7 0) ≠ 3)
    (hwait : s.drainState (bits (j.words.getD 3 0) 7 0) ≠ 0 ∨ s.dieReady (bits (j.words.getD 3 0) 7 0) = false) :
    s.tryLaunch j = s.setLaunch { j with ans := some (0, false) } := by
  unfold State.tryLaunch
  dsimp only
  rw [if_neg hx, if_neg hd, if_neg]
  rintro ⟨h0, hr⟩
  exact hwait.elim (· h0) fun h => absurd hr (ne_true_of_eq_false h)

/-- A launch whose cluster can take it is placed there. -/
theorem State.tryLaunch_placed {j : Job} {cl : Nat}
    (h : (bits (j.words.getD 3 0) 7 0 = 0xFF ∧ s.anyCluster = some cl) ∨
      (bits (j.words.getD 3 0) 7 0 ≠ 0xFF ∧ bits (j.words.getD 3 0) 7 0 = cl ∧ s.drainState cl = 0 ∧
        s.dieReady cl = true)) : s.tryLaunch j = s.placeIn j cl := by
  obtain ⟨hx, hcl⟩ | ⟨hx, rfl, h0, hr⟩ := h
  · rw [State.tryLaunch_any hx, hcl]
  · unfold State.tryLaunch
    dsimp only
    rw [if_neg hx, if_neg (by rw [h0]; decide), if_pos ⟨h0, hr⟩]

theorem State.placeIn_full {j : Job} {cl : Nat} (h : (s.core (s.freeCore cl)).dequeRoom = false) :
    s.placeIn j cl = s.setLaunch { j with ans := some (0, false) } :=
  if_pos (by rw [h]; rfl)

theorem State.placeIn_room {j : Job} {cl : Nat} (h : (s.core (s.freeCore cl)).dequeRoom = true) :
    s.placeIn j cl = match s.allocate cl 0 with
      | (some h, t) =>
        (t.pushDeque (s.freeCore cl) (rootDesc j.words h)).setLaunch { j with fut := some h }
      | (none, t) => t.setLaunch { j with ans := some (0, false) } := by
  unfold State.placeIn
  exact if_neg (by simp [h])

/-! ### Reads of host memory that fail (R359, R376) -/

theorem exec_hostReadTimeout_packet {n : Nat} {c : Cur} (hs : s.man.stopped = false) (hc : s.current n = some c)
    (hin : inHost (paOffset c.pa) = true) (hcopy : s.hostCopy n = none) :
    exec (.hostReadTimeout n) s = .next (s.packetTimeout n c) := by
  have hpacket : s.hostPacket n = some c := by
    rw [State.hostPacket, hc, Option.filter_some, if_pos hin]
  exact (event_of_running hs _).trans (by rw [hcopy, hpacket])

theorem exec_hostReadTimeout_copy {n : Nat} {j : Job} (hs : s.man.stopped = false) (hj : s.hostCopy n = some j)
    (hpacket : s.hostPacket n = none) : exec (.hostReadTimeout n) s = .next (s.copyTimeout j) :=
  (event_of_running hs _).trans (by rw [hj, hpacket])

/-! ### The ends of launches and copies (R367, R368) -/

theorem exec_heapTake {j : Job} (hs : s.man.stopped = false) (h : s.heapBest = some j) :
    exec .heapTake s = .next (s.takeJob j) :=
  (event_of_running hs _).trans (by rw [h])

theorem exec_copy {n : Nat} {j : Job} (hs : s.man.stopped = false)
    (h : s.disp.copies.find? (fun j => j.seq == n) = some j) : exec (.copy n) s = .next (s.runPaCopy j) :=
  (event_of_running hs _).trans (by rw [h])

theorem exec_launchComplete {n : Nat} {j : Job} {v : Word} {ok : Bool} (hs : s.man.stopped = false)
    (h : s.disp.launches.find? (fun j => j.seq == n && j.fut.isSome) = some j)
    (hv : s.rootOutcome (j.fut.getD 0) = some (v, ok)) : exec (.launchComplete n) s =
      .next (((s.setDisp { s.disp with launches := s.disp.launches.filter fun x => x.seq != n }).completePacket
        j.q j.era j.pkt j.inner j.words 1 (if ok then 0 else v.setWidth 16) v).dropRef (j.fut.getD 0)) :=
  (event_of_running hs _).trans (by rw [h]; dsimp only; rw [hv])

end Sys2Proof.Machine

namespace Sys2Proof.Proofs

open Sys2Proof.Machine

/-- Settles O40, unit by unit: a COPY over the words it reads and stores, a launch over the states of its
cluster. -/
theorem takenPacketsComplete : Obligations.TakenPacketsComplete := by
  unfold Obligations.TakenPacketsComplete
  intro s q j hs
  refine ⟨exec_heapTake hs, fun hj v ok hv => exec_launchComplete hs hj hv, exec_copy hs, fun hj => ?copy,
    fun i hi => ?launch, fun c hc hin hcopy => ?timeout, exec_hostReadTimeout_copy hs⟩
  case copy =>
    intro d n hall u v
    refine (exec_copy hs hj).trans (congrArg _ (State.runPaCopy_clean (fun i hi => ?_) fun i hi => ?_))
    · obtain ⟨hsrc, -, hclean, hlive, -⟩ := hall i hi
      exact ⟨hsrc, hclean, hlive⟩
    · obtain ⟨-, hdst, -, -, hlive⟩ := hall i hi
      exact ⟨hdst, hlive⟩
  case launch =>
    intro x waits
    have hexec := exec_launch hs hi
    refine ⟨fun hx hnone => ?_, fun hx hd => ?_, fun hx hd hw => ?_, fun cl hcl =>
      ⟨fun hfull => ?_, fun hroom t ha => ?_, fun hroom h t ha => ?_⟩⟩
    · refine hexec.trans (congrArg _ ?_)
      rw [State.tryLaunch_any hx, hnone]
    · exact hexec.trans (congrArg _ (State.tryLaunch_fenced hx hd))
    · exact hexec.trans (congrArg _ (State.tryLaunch_waits hx hd hw))
    · exact hexec.trans (congrArg _ ((State.tryLaunch_placed hcl).trans (State.placeIn_full hfull)))
    · refine hexec.trans (congrArg _ ((State.tryLaunch_placed hcl).trans ((State.placeIn_room hroom).trans ?_)))
      rw [ha]
    · refine hexec.trans (congrArg _ ((State.tryLaunch_placed hcl).trans ((State.placeIn_room hroom).trans ?_)))
      rw [ha]
  case timeout =>
    refine ⟨Config.freeWord s.fresh, fun u hu => ?_⟩
    rw [exec_hostReadTimeout_packet hs hc hin hcopy, hu]
    rfl

end Sys2Proof.Proofs
end
